-- ==== Sys2Proof/Word.lean ====
section
/-! DEFINITION. The word types of the machine (spec/00_scope.md R5, R7, R8). -/

namespace Sys2Proof

/-- 8 bits (R7). -/
abbrev Byte := BitVec 8
/-- 32 bits, one register of one lane (R7, R67). -/
abbrev Word := BitVec 32
/-- 64 bits (R7). -/
abbrev Dword := BitVec 64
/-- 128 bits, a register or memory quad (R7, R222). -/
abbrev Quad := BitVec 128
/-- One 96-bit instruction (R98). -/
abbrev IWord := BitVec 96
/-- One 64-byte fetch line: five slots and the line word (R87). -/
abbrev FetchLine := BitVec 512
/-- A set of lanes of one wave: bit i is lane i (R35). -/
abbrev LaneSet := BitVec 32

end Sys2Proof
end

