-- ==== Sys2Proof/Syntax.lean ====
section
/-! DEFINITION. The instructions and events of the Lanirex 9180: one constructor of Instr per row of
spec/opcode_table.json (spec/05_opcode_map.md R116; the events of spec/95_what_each_step_holds.md). -/

namespace Sys2Proof

/-! ### Operands, guards and scheduling controls -/

/-- An operand after decoding: of a wave or control stream (R100, R104, R107) or of a matrix stream (R299). -/
inductive Opnd where
  | lane (n : BitVec 8)
  | uni (n : BitVec 6)
  | m (n : BitVec 5)
  | x (n : BitVec 3)
  | zero
  | ones
  | laneIdx
  | tileIdx
  | imm (v : BitVec 18)
  | param (win : BitVec 3) (off : BitVec 15)
  deriving DecidableEq, Repr

/-- A guard (R103, R299): the register and how its two bits combine. -/
structure Guard where
  comb : BitVec 2
  greg : Opnd
  g1 : BitVec 5
  g2 : BitVec 5
  neg1 : Bool
  neg2 : Bool
  deriving DecidableEq, Repr

/-- Guard, yield, hold bits, cache hint and lookahead of one instruction (R98). -/
structure Ctl where
  guard : Guard
  yieldBit : Bool
  holdB : Bool
  holdC : Bool
  holdD : Bool
  hint : BitVec 3
  la : BitVec 4
  deriving DecidableEq, Repr

/-- The streams of R120. -/
inductive Stream where
  | wave
  | matrix
  | control
  deriving DecidableEq, Repr

/-- The operand that field code 0x000 names in a stream: v0, or m0 in a matrix stream (R100, R299). -/
def Stream.code0 : Stream → Opnd
  | .matrix => .m 0
  | _ => .lane 0

/-- The guard that is always true (R103, comb 00). -/
def Guard.always (st : Stream) : Guard := ⟨0, st.code0, 0, 0, false, false⟩

/-- No guard and no scheduling control. -/
def Ctl.plain (st : Stream) : Ctl := ⟨Guard.always st, false, false, false, false, 0, 0⟩

/-! ### Modifiers -/

/-- Type codes of classes 0x1 and 0x2 (R118). -/
inductive ITy where
  | i32 | n32 | i64 | n64 | i16 | n16
  deriving DecidableEq, Repr

/-- Format codes of class 0x4 (R118). -/
inductive Fmt where
  | f32 | f16 | bf16 | e4m3 | e5m2 | lns6 | ob8 | ob4 | i8 | n8 | i16 | n16 | i32 | n32 | i64 | n64
  deriving DecidableEq, Repr

/-- Formats of class 0x3 (R117). -/
inductive FFmt where
  | f32 | f16 | bf16
  deriving DecidableEq, Repr

/-- Formats of the packed instructions (R117, R477). -/
inductive PFmt where
  | f16 | bf16
  deriving DecidableEq, Repr

/-- Rounding modes (R144). -/
inductive Rnd where
  | rn | rz | rd | ru | rs
  deriving DecidableEq, Repr

/-- Rounding modes of class 0x3 and the packed instructions (R117): .rs is not among them. -/
inductive Rnd4 where
  | rn | rz | rd | ru
  deriving DecidableEq, Repr

/-- Scopes (R119, R253). -/
inductive Scope where
  | blk | clu | die | pkg | sys
  deriving DecidableEq, Repr

/-- Order of an atomic (R119). -/
inductive Order where
  | relaxed | acq | rel
  deriving DecidableEq, Repr

/-- Comparisons of ICMP (R443). -/
inductive ICmp where
  | eq | ne | lt | le | gt | ge
  deriving DecidableEq, Repr

/-- Comparisons of FCMP (R428). -/
inductive FCmp where
  | eq | ne | lt | le | gt | ge | un | or
  deriving DecidableEq, Repr

/-- Tests of WAITA and WAITV (R325, R511). -/
inductive WCmp where
  | eq | ne | ge | lt | mask
  deriving DecidableEq, Repr

/-- Element widths of the plain shifts (R500). -/
inductive ShTy where
  | w32 | w64 | p16
  deriving DecidableEq, Repr

/-- Type codes of class 0x5 (R117). -/
inductive XTy where
  | n32 | i32 | f32 | n64
  deriving DecidableEq, Repr

/-- Operations of REDT and SCANT (R491, R498). -/
inductive XOp where
  | add | min | max | and | or | xor
  deriving DecidableEq, Repr

/-- Modes of SHFL (R502). -/
inductive ShflMode where
  | idx | up | down | xor
  deriving DecidableEq, Repr

/-- Functions of VOTE (R510). -/
inductive VoteFn where
  | any | all | eq | ballot
  deriving DecidableEq, Repr

/-- Sizes of LD (R449). -/
inductive LdSize where
  | n8 | i8 | n16 | i16 | n32 | n64 | quad
  deriving DecidableEq, Repr

/-- Sizes of ST (R506). -/
inductive StSize where
  | n8 | n16 | n32 | n64 | quad
  deriving DecidableEq, Repr

/-- Operations of ATOM (R399). -/
inductive AOp where
  | add | min | max | and | or | xor | exch | cas
  deriving DecidableEq, Repr

/-- Operations of RED (R489). -/
inductive ROp where
  | add | min | max | and | or | xor
  deriving DecidableEq, Repr

/-- Operations of CCTL (R412). -/
inductive CctlOp where
  | ii | wb | wbi
  deriving DecidableEq, Repr

/-- Permissions that CCHK tests (R410). -/
inductive CapPerm where
  | read | write | atomic | chain
  deriving DecidableEq, Repr

/-- Sizes that CCHK tests (R410). -/
inductive CapSize where
  | b1 | b4 | b8 | b16
  deriving DecidableEq, Repr

/-- Operations of SIGV (R325). -/
inductive SigOp where
  | set | add | max
  deriving DecidableEq, Repr

/-- Selectors of TKRD (R175). -/
inductive TkSel where
  | core | die | rate | price | stall
  deriving DecidableEq, Repr

/-- Targets of MSCL (R305). -/
inductive MsclT where
  | sa | sb | za | zb | zca | zcb | zst
  deriving DecidableEq, Repr

/-- Element formats of the matrix sequencer: the first eight format codes (R300, R305). -/
inductive MFmt where
  | f32 | f16 | bf16 | e4m3 | e5m2 | lns6 | ob8 | ob4
  deriving DecidableEq, Repr

/-! ### What events carry -/

/-- What a write that reaches a register through BAR0 comes from (R383, R385): PF0 or a virtual function. -/
inductive Fn where
  | pf
  | vf (v : Nat)
  deriving DecidableEq, Repr

/-- The kind of access that a peer package asks the owner for (R345, R355). -/
inductive PeerOp where
  | load
  | write
  | atom (op : AOp) (signed : Bool) (cmp : Dword)
  | red (op : ROp) (signed : Bool)
  | radd (elem : BitVec 3) (last : Bool)
  | missFill
  /-- A fetch line (R97, R209). -/
  | fetch
  | mputWrite (ord : Bool)
  /-- One half of a byte, high or low; the data byte holds it in its place (R310). -/
  | nibble (high : Bool)
  deriving DecidableEq, Repr

/-- A request from another package (R355): who asks, for which job, where, and the bytes or operand it carries. A write of a
collective's instance is tagged with the collective and the instance (R380). -/
structure PeerReq where
  srcPkg : Nat
  cls : Nat
  seq : Nat
  port : Nat
  job : BitVec 16
  enc : Bool
  authOk : Bool
  op : PeerOp
  addr : Nat
  size : Nat
  data : List Byte
  tag : Nat
  inst : Option (Nat × Nat)
  deriving DecidableEq, Repr

/-- A chain packet at an owner (R362): the requester, the descriptor and the state of the chain. -/
structure ChainPkt where
  id : Nat
  attempt : Nat
  srcPkg : Nat
  job : BitVec 16
  nf : Bool
  desc : FetchLine
  p : Dword
  step : Nat
  final : Bool
  /-- The Swiul port by which the packet came in (R523); the package that sent it and its number in that package's triple, none of a
  chain that goes on within this package (R346). -/
  port : Nat := 0
  via : Nat := 0
  seq : Option Nat := none
  deriving DecidableEq, Repr

/-- A time message of another package: who sends it, and its always-on count (R354). -/
structure TimeMsg where
  src : Nat
  count : Dword
  deriving DecidableEq, Repr

/-- How a chain ended (R360, R362). -/
inductive ChainEnd where
  | complete (d : Quad) (step : Nat)
  | null (step : Nat)
  | limit (p : Dword) (step : Nat)
  | fault (addr : Dword) (step : Nat)
  | faultPending (granule : Nat)
  | poisoned
  deriving DecidableEq, Repr

/-- A wave whose ACQP completes, with the acknowledgement of another package that comes in, if one does (R278, R364). -/
structure WaveAck where
  wave : Nat
  ack : Option Nat
  deriving DecidableEq, Repr

/-- A granule of the sender's window as its notice names it, with the job for whose accesses it was resolved (R250, R355). -/
structure NoticeOf where
  granule : Nat
  job : BitVec 16
  deriving DecidableEq, Repr

/-- Outcome of link training (R351). -/
inductive TrainEnd where
  | trained | mismatch | failed
  deriving DecidableEq, Repr

/-- Registers that Milliner writes (R171 to R194). -/
inductive MilReg where
  | tokCfg | tokWeight | priceTab | opPrice | govCfg | govSlew | batCost | capCfg
  deriving DecidableEq, Repr

/-- What a scrub read finds (R190). -/
inductive ScrubEnd where
  | clean | corrected | uncorrectable
  deriving DecidableEq, Repr

/-- A host access through BAR2 (R382, R383). -/
inductive HostOp where
  | read
  | write (data : List Byte) (relaxed : Bool)
  | fetchAdd (v : Dword)
  | swap (v : Dword)
  | cas (cmp : Dword) (v : Dword)
  deriving DecidableEq, Repr

/-- A unit that returns from reset (R393). -/
inductive Unit3 where
  | die | stack | port
  deriving DecidableEq, Repr

/-- Why the package is reset (R393). -/
inductive ResetCause where
  | powerOn | perst | mailbox | ioDieFault
  deriving DecidableEq, Repr

/-- An SPDM message (R390): a key installation inside a session, the start or end of a session, or anything else. -/
inductive SpdmMsg where
  | startSession
  | endSession
  | installKey (slot : BitVec 6) (key : BitVec 256)
  | other (bytes : List Byte)
  deriving DecidableEq, Repr, Inhabited

/-- A message of another scale-out party (R366). -/
structure ScoMsg where
  port : Nat
  macOk : Bool
  qpn : BitVec 24
  key : Word
  va : Dword
  data : List Byte
  len : Nat
  deriving DecidableEq, Repr

/-- A contribution or result of one chunk of MPUT.red (R373, R374), with the job of the context that sends it (R355). -/
structure RedMsg where
  job : BitVec 16
  grp : Nat
  seq : Word
  chunk : Nat
  rank : Nat
  len : Nat
  elem : BitVec 3
  dst : Nat
  poisoned : Bool
  data : List Byte
  deriving DecidableEq, Repr

/-- A supply reading (R32, R33): the input voltage and current of the power stage, its coolant's inlet temperature, a rail of the
package with its number, and the case temperature. Voltages in mV, currents in mA, temperatures in units of 1/16 °C. -/
inductive Supply where
  | voltage (mV : Int)
  | current (mA : Int)
  | coolant (t : Int)
  | rail (n : Nat) (mV : Int)
  | caseTemp (t : Int)
  deriving DecidableEq, Repr

/-- The levels above a launch that LEVEL_ARM arms (R331). -/
inductive LevelKind where
  | graph | phase | job
  deriving DecidableEq, Repr

/-- A promotion from another package (R364): the promoter, its job and scope, the handle and block index named. -/
structure RemotePromo where
  srcPkg : Nat
  id : Nat
  job : BitVec 16
  scope : Scope
  handle : Word
  blk : Word
  deriving DecidableEq, Repr

/-- One row of spec/opcode_table.json each (R116): first the instructions, class by class, then the events. -/
inductive Instr where
  -- class 0x0: control
  | nop (k : Ctl)
  | bra (k : Ctl) (off : BitVec 18)
  | brx (k : Ctl) (b : Opnd)
  | call (k : Ctl) (a : Opnd) (off : BitVec 18)
  | callx (k : Ctl) (a b : Opnd)
  | ret (k : Ctl) (b : Opnd)
  | exit (k : Ctl)
  | yieldI (k : Ctl)
  | sleep (k : Ctl) (b : Opnd)
  | trap (k : Ctl) (code : BitVec 8)
  | rtt (k : Ctl) (skip : Bool)
  | bkpt (k : Ctl)
  -- class 0x1: integer
  | iadd (k : Ctl) (ty : ITy) (sat : Bool) (a b c : Opnd)
  | iaddt (k : Ctl) (ty : ITy) (sat : Bool) (a b c d : Opnd)
  | iaddc (k : Ctl) (sub : Bool) (a b c d : Opnd)
  | isub (k : Ctl) (ty : ITy) (sat : Bool) (a b c : Opnd)
  | imul (k : Ctl) (ty : ITy) (a b c : Opnd)
  | imulh (k : Ctl) (ty : ITy) (a b c : Opnd)
  | imad (k : Ctl) (ty : ITy) (a b c d : Opnd)
  | imadw (k : Ctl) (ty : ITy) (a b c d : Opnd)
  | imin (k : Ctl) (ty : ITy) (a b c : Opnd)
  | imax (k : Ctl) (ty : ITy) (a b c : Opnd)
  | iabs (k : Ctl) (ty : ITy) (sat : Bool) (a b : Opnd)
  | icmp (k : Ctl) (cmp : ICmp) (ty : ITy) (a b c : Opnd)
  | sel (k : Ctl) (w64 : Bool) (a b c d : Opnd)
  | lea (k : Ctl) (signed : Bool) (n : BitVec 3) (w : Bool) (a b c : Opnd)
  -- class 0x2: integer and capability
  | mov (k : Ctl) (w64 : Bool) (a b : Opnd)
  | movi (k : Ctl) (a : Opnd) (lit : Word)
  | logt (k : Ctl) (w64 : Bool) (a b c d : Opnd) (tab : BitVec 8)
  | shl (k : Ctl) (ty : ShTy) (a b c : Opnd)
  | shr (k : Ctl) (ty : ShTy) (a b c : Opnd)
  | sha (k : Ctl) (ty : ShTy) (a b c : Opnd)
  | shd (k : Ctl) (m32 dn : Bool) (a b c d : Opnd)
  | bfx (k : Ctl) (ty : ITy) (a b c : Opnd)
  | bfi (k : Ctl) (w64 : Bool) (a b c : Opnd)
  | brev (k : Ctl) (w64 : Bool) (a b : Opnd)
  | clz (k : Ctl) (w64 : Bool) (a b : Opnd)
  | popc (k : Ctl) (w64 : Bool) (a b : Opnd)
  | rdlane (k : Ctl) (w64 : Bool) (a b c : Opnd)
  | hrnd (k : Ctl) (useK : Bool) (a b c : Opnd)
  | cnarrow (k : Ctl) (a b c d : Opnd)
  | cperm (k : Ctl) (a b c : Opnd)
  | cget (k : Ctl) (a b : Opnd)
  | cchk (k : Ctl) (perm : CapPerm) (size : CapSize) (a b c : Opnd)
  | cclr (k : Ctl) (a : Opnd)
  -- class 0x3: floating point
  | fadd (k : Ctl) (fmt : FFmt) (rnd : Rnd4) (a b c : Opnd)
  | fsub (k : Ctl) (fmt : FFmt) (rnd : Rnd4) (a b c : Opnd)
  | fmul (k : Ctl) (fmt : FFmt) (rnd : Rnd4) (a b c : Opnd)
  | ffma (k : Ctl) (fmt : FFmt) (rnd : Rnd4) (a b c d : Opnd)
  | fmin (k : Ctl) (fmt : FFmt) (nan : Bool) (a b c : Opnd)
  | fmax (k : Ctl) (fmt : FFmt) (nan : Bool) (a b c : Opnd)
  | fcmp (k : Ctl) (cmp : FCmp) (fmt : FFmt) (a b c : Opnd)
  | fclass (k : Ctl) (fmt : FFmt) (a b : Opnd)
  | frnd (k : Ctl) (fmt : FFmt) (rnd : Rnd4) (x : Bool) (a b : Opnd)
  | fdot2 (k : Ctl) (fmt : PFmt) (rnd : Rnd4) (a b c d : Opnd)
  | frcp (k : Ctl) (fmt : FFmt) (rnd : Rnd4) (a b : Opnd)
  | frsq (k : Ctl) (fmt : FFmt) (rnd : Rnd4) (a b : Opnd)
  | fsqrt (k : Ctl) (fmt : FFmt) (rnd : Rnd4) (a b : Opnd)
  | fex2 (k : Ctl) (fmt : FFmt) (a b : Opnd)
  | flg2 (k : Ctl) (fmt : FFmt) (a b : Opnd)
  | fsin (k : Ctl) (fmt : FFmt) (a b : Opnd)
  | fcos (k : Ctl) (fmt : FFmt) (a b : Opnd)
  | ftanh (k : Ctl) (fmt : FFmt) (a b : Opnd)
  -- class 0x4: packed and convert
  | padd (k : Ctl) (fmt : PFmt) (rnd : Rnd4) (a b c : Opnd)
  | pmul (k : Ctl) (fmt : PFmt) (rnd : Rnd4) (a b c : Opnd)
  | pfma (k : Ctl) (fmt : PFmt) (rnd : Rnd4) (a b c d : Opnd)
  | pmin (k : Ctl) (fmt : PFmt) (a b c : Opnd)
  | pmax (k : Ctl) (fmt : PFmt) (a b c : Opnd)
  | cvt (k : Ctl) (dst src : Fmt) (rnd : Rnd) (a b c d : Opnd)
  | cvts (k : Ctl) (dst src : Fmt) (rnd : Rnd) (a b c d : Opnd)
  | qscal (k : Ctl) (fmt : Fmt) (a b : Opnd)
  -- class 0x5: cross-lane
  | part (k : Ctl) (b : Opnd)
  | shfl (k : Ctl) (w64 : Bool) (mode : ShflMode) (a b c : Opnd)
  | vote (k : Ctl) (fn : VoteFn) (a b : Opnd)
  | redt (k : Ctl) (op : XOp) (ty : XTy) (a b : Opnd)
  | scant (k : Ctl) (excl : Bool) (op : XOp) (ty : XTy) (a b : Opnd)
  | matchT (k : Ctl) (all w64 : Bool) (a b : Opnd)
  | elect (k : Ctl) (off : BitVec 18)
  | elend (k : Ctl)
  -- class 0x6: memory
  | ld (k : Ctl) (size : LdSize) (acq : Option Scope) (cap xfer : Bool) (a b c : Opnd)
  | st (k : Ctl) (size : StSize) (rel : Option Scope) (cap xfer : Bool) (b c d : Opnd)
  | ldp (k : Ctl) (w64 : Bool) (win : BitVec 3) (a b : Opnd)
  | ldchain (k : Ctl) (nf cap : Bool) (a b c d : Opnd)
  | prf (k : Ctl) (cap : Bool) (b c : Opnd)
  | waita (k : Ctl) (cmp : WCmp) (w64 : Bool) (acq : Option Scope) (cap : Bool) (b c d : Opnd)
  | cctl (k : Ctl) (op : CctlOp) (scope : Scope) (b c : Opnd)
  | rgn (k : Ctl)
  | rgnc (k : Ctl)
  | atom (k : Ctl) (op : AOp) (w64 signed : Bool) (scope : Scope) (order : Order) (cap : Bool) (a b c d e : Opnd)
  | red (k : Ctl) (op : ROp) (w64 signed : Bool) (scope : Scope) (rel cap : Bool) (b c d : Opnd)
  -- class 0x7: ordering and synchronisation
  | fence (k : Ctl) (scope : Scope)
  | acqp (k : Ctl) (scope : Scope) (b c : Opnd)
  | acqpCap (k : Ctl) (scope : Scope) (b c : Opnd)
  | qfence (k : Ctl) (mask : BitVec 4)
  | bar (k : Ctl) (n : BitVec 4) (b : Opnd)
  | bara (k : Ctl) (n : BitVec 4) (b : Opnd)
  | barw (k : Ctl) (n : BitVec 4)
  | barLaunch (k : Ctl)
  | baraLaunch (k : Ctl)
  | barwLaunch (k : Ctl)
  | mbar (k : Ctl) (n : BitVec 4) (b c : Opnd)
  | mbwait (k : Ctl) (n : BitVec 4)
  | bcw (k : Ctl) (a b : Opnd)
  | qpush (k : Ctl) (q : BitVec 3) (b : Opnd)
  | qpop (k : Ctl) (q : BitVec 3) (a : Opnd)
  | qtry (k : Ctl) (q : BitVec 3) (a : Opnd)
  -- class 0x8: asynchronous engines
  | ckick (k : Ctl) (q : BitVec 2) (b c : Opnd)
  | puts (k : Ctl) (q : BitVec 2) (b c : Opnd)
  | get (k : Ctl) (q : BitVec 2) (b c : Opnd)
  | radd (k : Ctl) (q : BitVec 2) (b c : Opnd)
  | mput (k : Ctl) (q : BitVec 2) (b c : Opnd)
  | mputRed (k : Ctl) (q : BitVec 2) (b c : Opnd)
  | mputOrd (k : Ctl) (q : BitVec 2) (b c : Opnd)
  | pcoll (k : Ctl) (q : BitVec 2) (b : Opnd)
  -- class 0x9: matrix sequencer
  | mlay (k : Ctl) (a b : Opnd)
  | mma (k : Ctl) (a b c d : Opnd)
  | mzero (k : Ctl) (a b : Opnd)
  | mst (k : Ctl) (fmt : MFmt) (sat sc : Bool) (b c d e : Opnd)
  | mld (k : Ctl) (a b c : Opnd)
  | mscl (k : Ctl) (tgt : MsclT) (b : Opnd)
  | mwait (k : Ctl) (n : BitVec 4)
  | msig (k : Ctl) (n : BitVec 4) (b : Opnd)
  | mjmp (k : Ctl) (off : BitVec 18)
  | mloop (k : Ctl) (a : Opnd) (off : BitVec 18)
  | madd (k : Ctl) (a b c : Opnd)
  | maddR (k : Ctl) (a b : Opnd)
  | maddC (k : Ctl) (a b : Opnd)
  | mmov (k : Ctl) (a b : Opnd)
  | mmovW (k : Ctl) (a : Opnd) (lit : Word)
  | mbcnt (k : Ctl) (clr : Bool) (a : Opnd)
  | mend (k : Ctl)
  -- class 0xA: scheduling, power, system
  | launch (k : Ctl) (a b : Opnd)
  | gsig (k : Ctl) (b : Opnd)
  | cancel (k : Ctl) (hard : Bool) (a b : Opnd)
  | cntr (k : Ctl) (a b : Opnd)
  | waitv (k : Ctl) (cmp : WCmp) (w64 : Bool) (b c : Opnd)
  | sigv (k : Ctl) (op : SigOp) (w64 done : Bool) (b c : Opnd)
  | tkrd (k : Ctl) (sel : TkSel) (a b : Opnd)
  | pint (k : Ctl) (n : BitVec 4) (a b : Opnd)
  | rhint (k : Ctl) (b c : Opnd)
  | srd (k : Ctl) (a b : Opnd)
  | swr (k : Ctl) (b c : Opnd)
  -- the events
  | rotationSweep (blk wave : Nat)
  | lookaheadResultWrite (blk wave id : Nat) (vals : List (Nat × Option Quad)) (fill : Option (Nat × List Byte))
  | lineRefetch (core ctx va : Nat)
  | waitResume (blk wave : Nat)
  | waitaReread (blk wave lane : Nat) (peerVal : Option Dword)
  | sleepWake (blk wave lane : Nat)
  | acqpComplete (blk : Nat) (wave : WaveAck)
  | promote (core : Nat) (remote : Option RemotePromo)
  | promoLogAgeEvict (core : Nat)
  | faultRecordEmit
  | translationRetry (blk wave : Nat)
  | trnResolve (val : Dword)
  | trnInval (val : Dword)
  | trnInvalDone
  | faultPendingReply (blk wave : Nat) (lanes : LaneSet) (granule : Nat)
  | faultNotice (srcPkg : Nat) (granule : NoticeOf) (fatal : Bool)
  | tokenClaimService (core : Nat)
  | selftestGranuleEnd (core : Nat) (failed : Bool)
  | ecoloIntent (job rank rise t : Nat)
  | capqSample (die : Nat) (charge : BitVec 16)
  | capacitorHold (die : Nat)
  | capacitorHoldEnd (die : Nat)
  | capqRead (die : Nat)
  | sensorSample (die : Nat) (readings : List Int)
  | sensorHoldEnd (die : Nat)
  | thermalCapRise (die : Nat)
  | supplyOutOfRange (what : Supply)
  | supplyHoldRelease (what : Supply)
  | opReq (die : Nat) (val : Word)
  | opVoltageRiseDone (die : Nat)
  | opClockStopDone (die : Nat)
  | opVoltageFallDone (die : Nat)
  | hbmCtl (stack : Nat) (val : Word)
  | hbmGroupRetrainDone (stack : Nat)
  | tokCfgCommit (val : Dword)
  | millinerRegisterWrite (reg : MilReg) (idx : Nat) (val : Dword)
  | registerWrite (fn : Fn) (off size : Nat) (val : Dword)
  | doorbell (fn : Fn) (q : Nat) (val : Word)
  | commandAccept (q : Nat)
  | hwqEnable (fn : Fn) (q : Nat) (val : Dword)
  | hwqHaltClear (fn : Fn) (q : Nat)
  | controlStreamStart (q : Nat)
  | commandComplete (q : Nat)
  | levelArm (fn : Fn) (level : LevelKind) (slot : Nat) (val : Dword)
  | nodeArm (fn : Fn) (node : Nat) (val : Dword)
  | launchDispatch (slot : Nat)
  | blockPlace (slot : Nat)
  | teardown (fn : Fn) (ctx : Nat)
  | preempt (ctx die : Nat)
  | quantumExpiry (ctx die : Nat)
  | blockRestore (saved : Nat)
  | reLine (core q : Nat) (peerData : Option (List Byte))
  | queueSlotTake (core q : Nat)
  | qfenceRelease (core : Nat)
  | arrayCycle (core : Nat)
  | arraySelect (core : Nat)
  | lineWritebackDeadline (core : Nat)
  | peerAccess (req : PeerReq)
  | postedWriteAck (id : Nat) (fatal : Bool)
  | invalidation (srcPkg va : Nat)
  | chainStep (pkt : ChainPkt)
  | chainReply (id attempt : Nat) (result : ChainEnd)
  | chainTimeout (id : Nat)
  | pcollNotice (srcPkg c m : Nat) (refused : List Nat)
  | pcollTaggedWrite (req : PeerReq)
  | reductionResult (msg : RedMsg)
  | lostNotice (grp : Nat) (seq : Word) (chunk : Nat)
  | endpointContribution (msg : RedMsg)
  | contributionResend (grp : Nat) (seq : Word) (chunk : Nat)
  | scoRdmaWrite (msg : ScoMsg)
  | scoWriteImmediate (msg : ScoMsg) (imm : Word)
  | scoRdmaRead (msg : ScoMsg)
  | scoAck (conn : Nat) (data : List Byte)
  | scoRetryExhausted (conn : Nat)
  | flitReceive (port seq : Nat) (flit : List Byte)
  | linkRetrain (port : Nat)
  | linkTrainingDone (port : Nat) (result : TrainEnd)
  | linkCtlEn (port : Nat) (en : Bool)
  | linkCtlRevive (port : Nat)
  | linkCtlClr (port : Nat)
  | swlId (val : Word)
  | swlTimeSet (val : Word)
  | timeMessage (refCount : TimeMsg)
  | hostBar2Access (fn : Fn) (off size : Nat) (op : HostOp)
  | functionLevelReset (fn : Fn)
  | spdmMessage (msg : SpdmMsg)
  | mctpMessage (bytes : List Byte)
  | packageReset (cause : ResetCause)
  | rstCtlDie (die : Nat)
  | rstCtlStack (stack : Nat)
  | rstCtlPort (port : Nat)
  | computeDieReset (die : Nat)
  | stackReset (stack : Nat)
  | resetReturn (what : Unit3) (idx : Nat)
  | waitvReread (q : Nat) (peerVal : Option (Option Dword))
  | invalidationAck (srcPkg va : Nat)
  | accessPerformed (blk wave : Nat)
  | scrubReadComplete (line : Nat) (result : ScrubEnd)
  | vfEnable (v : Nat)
  -- events without arguments
  | refillTick
  | governorInterval
  | ecoloDecision
  | retrainBucketLeak
  | readEventRecords
  | stageFirmwareChunk
  | commitFirmware
  | mailboxPackageReset
  | firmwareReadyTimeout
  deriving DecidableEq, Repr

end Sys2Proof
end

