-- ==== Sys2Proof/Config.lean ====
section
/-! DEFINITION. What an implementation fixes, and the free values: opaque constants with no body, so that nothing can be
proved of their value (log 3). -/

namespace Sys2Proof.Config

/-- Which of the two neighbours of the exact result a transcendental instruction returns (R429): the same choice every
time for one instruction (0 FEX2, 1 FLG2, 2 FSIN, 3 FCOS, 4 FTANH), format code and input; true is the one of larger
magnitude. -/
opaque sfnUpper : Nat → Nat → Nat → Bool

/-- Chooses among the values that a word of a parameter window may read as (R227), by the machine's free counter and the address:
itself, if it is one of them. -/
opaque freeParam : Nat → Nat → BitVec 32

/-- Which quad of a line a scrub correction mends (R225), by the machine's free counter and the line. -/
opaque scrubQuad : Nat → Nat → Nat

/-- A byte that the request engine reads of the scratchpad of a block that has retired (R48), by the machine's free counter
and the offset. -/
opaque freeSpad : Nat → Nat → BitVec 8

/-- Whether an image or store carries a valid ML-DSA-87 signature over its SHA3-512 digest (R388, R389). -/
opaque signatureOk : List (BitVec 8) → Bool

/-- The security version that a firmware image carries (R389). -/
opaque imageVersion : List (BitVec 8) → Nat

/-- What the request buffer of mailbox command 5 carries (R390, R391): the spec gives no layout. -/
opaque spdmParse : List (BitVec 8) → SpdmMsg

/-- Whether the request buffer of mailbox commands 1 and 2 is well formed; the first record that command 1 asks for, and how
many; the place and the bytes of the chunk that command 2 stages (R389, R391): the spec gives no layout. -/
opaque mailOk : Nat → List (BitVec 8) → Bool
opaque recordFrom : List (BitVec 8) → Nat
opaque recordCount : List (BitVec 8) → Nat
opaque chunkAt : List (BitVec 8) → Nat
opaque chunkBytes : List (BitVec 8) → List (BitVec 8)

/-- Whether Milliner's nonvolatile store verifies at a package reset (R388), and its report over PLDM if not. -/
opaque storeOk : Bool
opaque storeReport : List (BitVec 8)

/-- Whether a home slice holds a line dirty when its die is reset (R342), by the machine's free counter and the line. -/
opaque sliceDirty : Nat → Nat → Bool

/-- Milliner's answer to an SPDM message (R390). -/
opaque spdmAnswer : List (BitVec 8) → List (BitVec 8)

/-- Milliner's answer to a PLDM over MCTP message (R387). -/
opaque pldmAnswer : List (BitVec 8) → List (BitVec 8)

/-- Whether a rail's voltage in mV is within the tolerance stated for the package's power pins, and the limit of the case
temperature that Milliner reports, in units of 1/16 °C (R33): the spec gives neither. -/
opaque railOk : Nat → Int → Bool
opaque caseLimit : Int

/-- A byte of a journal record (R339, R341), the spec giving no layout: whether of a completion, the queue, the sequence number, the
entry, the byte's place. -/
opaque jrnByte : Bool → Nat → Nat → List (BitVec 8) → Nat → BitVec 8

/-- What saving a block writes to its share of the save area, whose layout is not architectural (R336, R338): offsets and bytes, by
the machine's free counter and the core. -/
opaque saveImage : Nat → Nat → List (Nat × BitVec 8)

/-- Whether a fetch of a line that the core holds a copy of returns memory's bytes and not the copy's (R97), by the machine's free
counter and the line. -/
opaque newLine : Nat → Nat → Bool

/-- The die on which a packet leaves the package (R346), by the packet's number in the egress; the free credits of a port, by the
machine's free counter, the packet and the port. -/
opaque egressDie : Nat → Nat
opaque portCredits : Nat → Nat → Nat → Nat

/-- The contents of the flits that carry a packet (R350: the link layer's layout), by the packet's number in the egress; and what
the contents of a flit received say: the number of the last flit that the other side acknowledges, of the flit from which on it asks
for a replay. -/
opaque flitBodies : Nat → List (List (BitVec 8))
opaque flitAck : List (BitVec 8) → Option Nat
opaque flitReplay : List (BitVec 8) → Option Nat

/-- The AES-256-GCM tag of a packet (R356), by key, nonce and the packet's number in the egress, which stands for header and payload. -/
opaque gcmTag : BitVec 256 → BitVec 96 → Nat → BitVec 128

end Sys2Proof.Config
end

