-- ==== Sys2Proof/Machine/Flags.lean ====
section
/-! DEFINITION. The sticky flags (spec/03_state.md R80, R81; spec/07_arithmetic.md R152). -/

namespace Sys2Proof.Machine

/-- Sticky flags at the bit positions of FPSTAT (R80). -/
abbrev Flags := BitVec 6
def fInvalid : Flags := 1
def fDivzero : Flags := 2
def fOverflow : Flags := 4
def fUnderflow : Flags := 8
def fInexact : Flags := 16
def fParamBound : Flags := 32

/-- A flag if a condition holds. -/
def flagIf (c : Bool) (f : Flags) : Flags := if c then f else 0

/-- The OR of the flags of several operations (R81). -/
def orFlags : List Flags → Flags
  | [] => 0
  | f :: t => f ||| orFlags t

/-- Rounding flags at the bit positions of MSTAT (R80): invalid, overflow, underflow, inexact; MSTAT has no divzero. -/
def mstatOf (f : Flags) : BitVec 5 :=
  BitVec.ofBool (f.getLsbD 4) ++ BitVec.ofBool (f.getLsbD 3) ++ BitVec.ofBool (f.getLsbD 2) ++ BitVec.ofBool (f.getLsbD 0)
    |>.setWidth 5

/-- MSTAT.scale_nan (R80). -/
def mScaleNan : BitVec 5 := 16

/-- A write of ones clears (R16 W1C). -/
def w1c {n : Nat} (old : BitVec n) (w : Word) : BitVec n := old &&& ~~~(w.setWidth n)

end Sys2Proof.Machine
end

