-- ==== Sys2Proof/Machine/Table.lean ====
section
/-! DEFINITION. Sparse tables as plain data: a list of (key, value) pairs with strictly rising keys and no value equal to
the default, so that equal tables are equal lists. -/

namespace Sys2Proof.Machine

/-- A sparse table. An unlisted key holds a default that its reader names. -/
abbrev Tbl (α : Type) := List (Nat × α)

/-- The value at a key. -/
def tget {α : Type} (d : α) : Tbl α → Nat → α
  | [], _ => d
  | (k, v) :: t, n => if n = k then v else tget d t n

/-- Whether a key is listed. -/
def thas {α : Type} : Tbl α → Nat → Bool
  | [], _ => false
  | (k, _) :: t, n => n == k || thas t n

/-- The value at a key, none if unlisted. -/
def tfind {α : Type} : Tbl α → Nat → Option α
  | [], _ => none
  | (k, v) :: t, n => if n = k then some v else tfind t n

/-- The table without a key. -/
def tdel {α : Type} : Tbl α → Nat → Tbl α
  | [], _ => []
  | (k, v) :: t, n => if n = k then tdel t n else (k, v) :: tdel t n

/-- The table with a key set, in key order. -/
def tput {α : Type} : Tbl α → Nat → α → Tbl α
  | [], n, x => [(n, x)]
  | (k, v) :: t, n, x =>
    if n < k then (n, x) :: (k, v) :: t
    else if n = k then (n, x) :: t
    else (k, v) :: tput t n x

/-- The table with a key set; the default value is kept unlisted. -/
def tset {α : Type} [DecidableEq α] (d : α) (t : Tbl α) (n : Nat) (x : α) : Tbl α :=
  if x = d then tdel t n else tput t n x

/-- The keys of a table rise strictly, all above a bound. -/
def tsortedFrom {α : Type} : Nat → Tbl α → Bool
  | _, [] => true
  | lo, (k, _) :: t => decide (lo ≤ k) && tsortedFrom (k + 1) t

/-- The canonical form: rising keys, and no listed value is the default. -/
def twf {α : Type} [DecidableEq α] (d : α) (t : Tbl α) : Bool :=
  tsortedFrom 0 t && t.all fun p => decide (p.2 ≠ d)

/-- A sorted set of numbers: insert. -/
def sins : List Nat → Nat → List Nat
  | [], n => [n]
  | k :: t, n => if n < k then n :: k :: t else if n = k then k :: t else k :: sins t n

/-- A set of numbers: remove. -/
def sdel : List Nat → Nat → List Nat
  | [], _ => []
  | k :: t, n => if n = k then t else k :: sdel t n

/-- A set of numbers: insert or remove. -/
def sput (t : List Nat) (n : Nat) (on : Bool) : List Nat := if on then sins t n else sdel t n

/-- The element at an index of a list, or a default. -/
def lget {α : Type} (d : α) : List α → Nat → α
  | [], _ => d
  | x :: _, 0 => x
  | _ :: t, n + 1 => lget d t n

/-- The list with one element replaced; unchanged past its end. -/
def lset {α : Type} : List α → Nat → α → List α
  | [], _, _ => []
  | _ :: t, 0, y => y :: t
  | x :: t, n + 1, y => x :: lset t n y

/-- The list with one element replaced; a list that is too short is filled up with a default. -/
def lput {α : Type} (d : α) : List α → Nat → α → List α
  | [], 0, y => [y]
  | [], n + 1, y => d :: lput d [] n y
  | _ :: t, 0, y => y :: t
  | x :: t, n + 1, y => x :: lput d t n y

/-- The first n elements of a list, each changed by its index from i; missing ones are the default. -/
def mapTo {α : Type} (d : α) (f : Nat → α → α) : Nat → Nat → List α → List α
  | _, 0, _ => []
  | i, n + 1, [] => f i d :: mapTo d f (i + 1) n []
  | i, n + 1, x :: t => f i x :: mapTo d f (i + 1) n t

/-- n copies. -/
def copies {α : Type} (x : α) : Nat → List α
  | 0 => []
  | n + 1 => x :: copies x n

/-- The numbers from lo, n of them. -/
def upFrom : Nat → Nat → List Nat
  | _, 0 => []
  | lo, n + 1 => lo :: upFrom (lo + 1) n

/-- The elements of a list with their indexes, from n. -/
def indexFrom {α : Type} : Nat → List α → List (Nat × α)
  | _, [] => []
  | n, x :: t => (n, x) :: indexFrom (n + 1) t

/-- The elements of a list with their indexes. -/
def mapIdxed {α : Type} (l : List α) : List (Nat × α) := indexFrom 0 l

end Sys2Proof.Machine
end

