-- ==== Sys2Proof/Machine/Forms.lean ====
section
/-! DEFINITION. The encoding form of every instruction: opcode, modifier bits and the use of fields A to E
(spec/04_encoding.md R98 to R107, spec/05_opcode_map.md R116 to R121, the Encoding headings of spec/19 to spec/23),
and which instructions are well formed in which stream (R99, R102, R103, R111, R114, R120, R299). -/

namespace Sys2Proof

/-! ### Codes of the modifiers (R117 to R119) -/

/-- Type code of R118. -/
def ITy.code : ITy → Nat
  | .i32 => 0 | .n32 => 1 | .i64 => 2 | .n64 => 3 | .i16 => 4 | .n16 => 5

/-- Registers that an operand of the type names (R118: codes 2 and 3 are pairs). -/
def ITy.regs : ITy → Nat
  | .i64 => 2 | .n64 => 2 | _ => 1

/-- Format code of R118. -/
def Fmt.code : Fmt → Nat
  | .f32 => 0 | .f16 => 1 | .bf16 => 2 | .e4m3 => 3 | .e5m2 => 4 | .lns6 => 5 | .ob8 => 6 | .ob4 => 7
  | .i8 => 8 | .n8 => 9 | .i16 => 10 | .n16 => 11 | .i32 => 12 | .n32 => 13 | .i64 => 14 | .n64 => 15

/-- Registers that an element of the format takes (R420). -/
def Fmt.regs : Fmt → Nat
  | .i64 => 2 | .n64 => 2 | _ => 1

/-- The offset-binary formats take a zero point (R419). -/
def Fmt.isOb : Fmt → Bool
  | .ob8 => true | .ob4 => true | _ => false

/-- Destination formats that take .rs (R118). -/
def Fmt.takesRs : Fmt → Bool
  | .e4m3 => true | .e5m2 => true | .lns6 => true | .ob8 => true | .ob4 => true | _ => false

/-- Format code of class 0x3 (R117). -/
def FFmt.code : FFmt → Nat
  | .f32 => 0 | .f16 => 1 | .bf16 => 2

/-- Format code of the packed instructions (R477). -/
def PFmt.code : PFmt → Nat
  | .f16 => 1 | .bf16 => 2

/-- Rounding code of R117. -/
def Rnd.code : Rnd → Nat
  | .rn => 0 | .rz => 1 | .rd => 2 | .ru => 3 | .rs => 4

/-- Rounding code of class 0x3 (R117). -/
def Rnd4.code : Rnd4 → Nat
  | .rn => 0 | .rz => 1 | .rd => 2 | .ru => 3

/-- Scope code of R119. -/
def Scope.code : Scope → Nat
  | .blk => 1 | .clu => 2 | .die => 3 | .pkg => 4 | .sys => 5

/-- Order code of R119. -/
def Order.code : Order → Nat
  | .relaxed => 0 | .acq => 1 | .rel => 2

/-- Comparison code of ICMP (R443). -/
def ICmp.code : ICmp → Nat
  | .eq => 0 | .ne => 1 | .lt => 2 | .le => 3 | .gt => 4 | .ge => 5

/-- Comparison code of FCMP (R428). -/
def FCmp.code : FCmp → Nat
  | .eq => 0 | .ne => 1 | .lt => 2 | .le => 3 | .gt => 4 | .ge => 5 | .un => 6 | .or => 7

/-- Test code of WAITA and WAITV (R511, R325). -/
def WCmp.code : WCmp → Nat
  | .eq => 0 | .ne => 1 | .ge => 2 | .lt => 3 | .mask => 4

/-- Type code of SHL and SHR (R500). SHA has the code one lower. -/
def ShTy.code : ShTy → Nat
  | .w32 => 1 | .w64 => 3 | .p16 => 5

/-- Registers that an operand of a shift names (R500). -/
def ShTy.regs : ShTy → Nat
  | .w64 => 2 | _ => 1

/-- Type code of class 0x5 (R117). -/
def XTy.code : XTy → Nat
  | .n32 => 0 | .i32 => 1 | .f32 => 2 | .n64 => 3

/-- Registers that an operand of a cross-lane instruction names (R491). -/
def XTy.regs : XTy → Nat
  | .n64 => 2 | _ => 1

/-- Operation code of REDT and SCANT (R491, R498). -/
def XOp.code : XOp → Nat
  | .add => 0 | .min => 1 | .max => 2 | .and => 3 | .or => 4 | .xor => 5

/-- The bitwise operations are reserved with .f32 (R491, R498). -/
def XOp.okFor : XOp → XTy → Bool
  | .and, .f32 => false | .or, .f32 => false | .xor, .f32 => false | _, _ => true

/-- Mode code of SHFL (R502). -/
def ShflMode.code : ShflMode → Nat
  | .idx => 0 | .up => 1 | .down => 2 | .xor => 3

/-- Function code of VOTE (R510). -/
def VoteFn.code : VoteFn → Nat
  | .any => 0 | .all => 1 | .eq => 2 | .ballot => 3

/-- Opcode of LD by size, from 0x180 (R449). -/
def LdSize.code : LdSize → Nat
  | .n8 => 0 | .i8 => 1 | .n16 => 2 | .i16 => 3 | .n32 => 4 | .n64 => 5 | .quad => 6

/-- Bytes that LD reads (R449). -/
def LdSize.bytes : LdSize → Nat
  | .n8 => 1 | .i8 => 1 | .n16 => 2 | .i16 => 2 | .n32 => 4 | .n64 => 8 | .quad => 16

/-- Registers that LD writes (R449). -/
def LdSize.regs : LdSize → Nat
  | .n64 => 2 | .quad => 4 | _ => 1

/-- Opcode of ST by size, from 0x188 (R506). -/
def StSize.code : StSize → Nat
  | .n8 => 0 | .n16 => 1 | .n32 => 2 | .n64 => 3 | .quad => 4

/-- Bytes that ST writes (R506). -/
def StSize.bytes : StSize → Nat
  | .n8 => 1 | .n16 => 2 | .n32 => 4 | .n64 => 8 | .quad => 16

/-- Registers that ST reads (R506). -/
def StSize.regs : StSize → Nat
  | .n64 => 2 | .quad => 4 | _ => 1

/-- Operation code of ATOM (R399). -/
def AOp.code : AOp → Nat
  | .add => 0 | .min => 1 | .max => 2 | .and => 3 | .or => 4 | .xor => 5 | .exch => 6 | .cas => 7

/-- Operation code of RED (R489). -/
def ROp.code : ROp → Nat
  | .add => 0 | .min => 1 | .max => 2 | .and => 3 | .or => 4 | .xor => 5

/-- Operation code of CCTL (R412). -/
def CctlOp.code : CctlOp → Nat
  | .ii => 0 | .wb => 1 | .wbi => 2

/-- Permission code of CCHK (R410). -/
def CapPerm.code : CapPerm → Nat
  | .read => 0 | .write => 1 | .atomic => 2 | .chain => 3

/-- Size code of CCHK (R410). -/
def CapSize.code : CapSize → Nat
  | .b1 => 0 | .b4 => 1 | .b8 => 2 | .b16 => 3

/-- Operation code of SIGV (R325). -/
def SigOp.code : SigOp → Nat
  | .set => 0 | .add => 1 | .max => 2

/-- Selector of TKRD (R175). -/
def TkSel.code : TkSel → Nat
  | .core => 0 | .die => 1 | .rate => 2 | .price => 3 | .stall => 4

/-- Target code of MSCL (R305). -/
def MsclT.code : MsclT → Nat
  | .sa => 0 | .sb => 1 | .za => 2 | .zb => 3 | .zca => 4 | .zcb => 5 | .zst => 6

/-- Format code of MST (R473). -/
def MFmt.code : MFmt → Nat
  | .f32 => 0 | .f16 => 1 | .bf16 => 2 | .e4m3 => 3 | .e5m2 => 4 | .lns6 => 5 | .ob8 => 6 | .ob4 => 7

/-! ### What a field may name -/

/-- Which operands a field takes, and how many registers each names (R68, R100 to R102, R299). -/
structure Spec where
  width : Nat := 1
  lane : Bool := false
  uni : Bool := false
  m : Bool := false
  x : Bool := false
  zero : Bool := false
  ones : Bool := false
  idx : Bool := false
  imm : Bool := false
  par : Bool := false
  /-- The immediate must have bits [17:8] zero (TRAP, R509). -/
  imm8 : Bool := false
  deriving DecidableEq, Repr

/-- A destination: lane, uniform or 0x140 (R100). -/
def dst (w : Nat) : Spec := { width := w, lane := true, uni := true, zero := true }
/-- A source register or constant (R100). -/
def src (w : Nat) : Spec := { width := w, lane := true, uni := true, zero := true, ones := true, idx := true }
/-- A source register, constant or immediate. -/
def srcI (w : Nat) : Spec := { src w with imm := true }
/-- A source register, constant, immediate or parameter operand. -/
def srcX (w : Nat) : Spec := { src w with imm := true, par := true }
/-- A lane register only. -/
def laneOnly (w : Nat) : Spec := { width := w, lane := true }
/-- A capability position: a lane quad, or a constant that faults on use (R101). -/
def capQ : Spec := { width := 4, lane := true, zero := true, ones := true, idx := true }
/-- The slot offset of a branch: 0x1FF in B (R405, R422, R463). -/
def immOnly : Spec := { imm := true }
/-- An m register (R300). -/
def mReg : Spec := { m := true }
/-- An x register (R300). -/
def xReg : Spec := { x := true }
/-- A matrix source: an m register, an immediate or a parameter operand (R299, R300). -/
def mSrc : Spec := { m := true, imm := true, par := true }
/-- The count of MSIG, which may be zero, too (R300). -/
def mCount : Spec := { m := true, zero := true, imm := true, par := true }
/-- An address base: a pair, or a capability quad (R449). -/
def addrB (cap : Bool) : Spec := if cap then capQ else src 2

/-- Bytes that a parameter operand reads (R107). -/
def Spec.paramBytes (s : Spec) : Nat := if s.width = 2 then 8 else 4

/-- Whether the field takes the operand: its kind (R100), the alignment of pairs and quads (R68) and of a parameter
offset (R107). -/
def Spec.admits (s : Spec) : Opnd → Bool
  | .lane n => s.lane && n.toNat % s.width == 0
  | .uni n => s.uni && n.toNat % s.width == 0
  | .m _ => s.m
  | .x _ => s.x
  | .zero => s.zero
  | .ones => s.ones
  | .laneIdx => s.idx
  | .tileIdx => s.idx
  | .imm v => s.imm && (!s.imm8 || v.toNat < 256)
  | .param _ off => s.par && off.toNat % s.paramBytes == 0

/-- The operands that stay legal in a stream (R120: a control stream takes uniform registers, 0x140, 0x141 and
immediates). -/
def Opnd.inStream (st : Stream) : Opnd → Bool
  | .lane _ => st == .wave
  | .uni _ => st != .matrix
  | .m _ => st == .matrix
  | .x _ => st == .matrix
  | .zero => true
  | .ones => st != .matrix
  | .laneIdx => st == .wave
  | .tileIdx => st == .wave
  | .imm _ => true
  | .param _ _ => st != .control

/-- The use of one field: unused, data bits, an operand that this modifier leaves unused, or an operand. -/
inductive Slot where
  | unused
  | raw (v : BitVec 9)
  | blank (o : Opnd)
  | reg (s : Spec) (o : Opnd)
  deriving DecidableEq, Repr

/-- Opcode, modifier and fields of one instruction (R98, R116). -/
structure Form where
  op : Nat
  md : Nat
  k : Ctl
  a : Slot := .unused
  b : Slot := .unused
  c : Slot := .unused
  d : Slot := .unused
  e : Slot := .unused
  deriving DecidableEq, Repr

/-- The modifier of a type code and operation bits (R117). -/
def tOp (t o : Nat) : Nat := t * 16 + o
/-- Type code 1, or 3 under .64 (R118). -/
def w13 (w64 : Bool) : Nat := if w64 then 48 else 16
/-- Registers under .64. -/
def w12 (w64 : Bool) : Nat := if w64 then 2 else 1
/-- A one-bit modifier. -/
def bit (b : Bool) (k : Nat) : Nat := if b then k else 0
/-- Scope and order of an access with an optional acquire or release (R119). -/
def scopeOrd (s : Option Scope) (ord : Nat) : Nat :=
  match s with
  | none => 0
  | some c => c.code * 16 + ord * 4

/-- A field in use only under a condition; else it must hold code 0 (R99). -/
def slotIf (c : Bool) (s : Spec) (o : Opnd) : Slot := if c then .reg s o else .blank o

/-- Nine bits of a literal that stands in fields B to E (R106, R467). -/
def litB (l : Word) : BitVec 9 := l.extractLsb' 0 9
/-- Field C of a literal. -/
def litC (l : Word) : BitVec 9 := l.extractLsb' 9 9
/-- Field D of a literal. -/
def litD (l : Word) : BitVec 9 := l.extractLsb' 18 9
/-- Field E of a literal. -/
def litE (l : Word) : BitVec 9 := (l.extractLsb' 27 5).setWidth 9

/-- The encoding of every instruction. An event has none. -/
def Instr.form : Instr → Option Form
  | .nop k => some { op := 0x000, md := 0, k }
  | .bra k off => some { op := 0x001, md := 0, k, b := .reg immOnly (.imm off) }
  | .brx k b => some { op := 0x002, md := 0, k, b := .reg (src 2) b }
  | .call k a off => some { op := 0x003, md := 0, k, a := .reg (dst 2) a, b := .reg immOnly (.imm off) }
  | .callx k a b => some { op := 0x004, md := 0, k, a := .reg (dst 2) a, b := .reg (src 2) b }
  | .ret k b => some { op := 0x005, md := 0, k, b := .reg (src 2) b }
  | .exit k => some { op := 0x006, md := 0, k }
  | .yieldI k => some { op := 0x007, md := 0, k }
  | .sleep k b => some { op := 0x008, md := 0, k, b := .reg (srcX 1) b }
  | .trap k code => some { op := 0x009, md := 0, k, b := .reg { imm := true, imm8 := true } (.imm (code.setWidth 18)) }
  | .rtt k skip => some { op := 0x00A, md := bit skip 1, k }
  | .bkpt k => some { op := 0x00B, md := 0, k }
  | .iadd k ty sat a b c => some { op := 0x040, md := tOp ty.code (bit sat 1), k, a := .reg (dst ty.regs) a, b := .reg (srcX ty.regs) b, c := .reg (srcX ty.regs) c }
  | .iaddt k ty sat a b c d => some { op := 0x041, md := tOp ty.code (bit sat 1), k, a := .reg (dst ty.regs) a, b := .reg (src ty.regs) b, c := .reg (src ty.regs) c, d := .reg (src ty.regs) d }
  | .iaddc k sub a b c d => some { op := 0x042, md := tOp 1 (bit sub 1), k, a := .reg (dst 2) a, b := .reg (src 1) b, c := .reg (src 1) c, d := .reg (src 1) d }
  | .isub k ty sat a b c => some { op := 0x043, md := tOp ty.code (bit sat 1), k, a := .reg (dst ty.regs) a, b := .reg (srcX ty.regs) b, c := .reg (srcX ty.regs) c }
  | .imul k ty a b c => some { op := 0x044, md := tOp ty.code 0, k, a := .reg (dst ty.regs) a, b := .reg (srcX ty.regs) b, c := .reg (srcX ty.regs) c }
  | .imulh k ty a b c => some { op := 0x045, md := tOp ty.code 0, k, a := .reg (dst ty.regs) a, b := .reg (srcX ty.regs) b, c := .reg (srcX ty.regs) c }
  | .imad k ty a b c d => some { op := 0x046, md := tOp ty.code 0, k, a := .reg (dst ty.regs) a, b := .reg (src ty.regs) b, c := .reg (src ty.regs) c, d := .reg (src ty.regs) d }
  | .imadw k ty a b c d => some { op := 0x047, md := tOp ty.code 0, k, a := .reg (dst 2) a, b := .reg (src 1) b, c := .reg (src 1) c, d := .reg (src 2) d }
  | .imin k ty a b c => some { op := 0x048, md := tOp ty.code 0, k, a := .reg (dst ty.regs) a, b := .reg (srcX ty.regs) b, c := .reg (srcX ty.regs) c }
  | .imax k ty a b c => some { op := 0x049, md := tOp ty.code 0, k, a := .reg (dst ty.regs) a, b := .reg (srcX ty.regs) b, c := .reg (srcX ty.regs) c }
  | .iabs k ty sat a b => some { op := 0x04A, md := tOp ty.code (bit sat 1), k, a := .reg (dst ty.regs) a, b := .reg (srcX ty.regs) b }
  | .icmp k cmp ty a b c => some { op := 0x04B, md := tOp ty.code cmp.code, k, a := .reg (dst ty.regs) a, b := .reg (srcX ty.regs) b, c := .reg (srcX ty.regs) c }
  | .sel k w a b c d => some { op := 0x04C, md := w13 w, k, a := .reg (dst (w12 w)) a, b := .reg (src (w12 w)) b, c := .reg (src (w12 w)) c, d := .reg (src (w12 w)) d }
  | .lea k sg n w a b c => some { op := 0x04D, md := tOp (bit (!sg) 1) (n.toNat * 2 + bit w 1), k, a := .reg (dst (w12 w)) a, b := .reg (src (w12 w)) b, c := .reg (srcX 1) c }
  | .mov k w a b => some { op := 0x080, md := w13 w, k, a := .reg (dst (w12 w)) a, b := .reg (srcX (w12 w)) b }
  | .movi k a l => some { op := 0x081, md := 16, k, a := .reg (dst 1) a, b := .raw (litB l), c := .raw (litC l), d := .raw (litD l), e := .raw (litE l) }
  | .logt k w a b c d tab => some { op := 0x082, md := w13 w, k, a := .reg (dst (w12 w)) a, b := .reg (src (w12 w)) b, c := .reg (src (w12 w)) c, d := .reg (src (w12 w)) d, e := .raw (tab.setWidth 9) }
  | .shl k ty a b c => some { op := 0x083, md := tOp ty.code 0, k, a := .reg (dst ty.regs) a, b := .reg (src ty.regs) b, c := .reg (srcX ty.regs) c }
  | .shr k ty a b c => some { op := 0x084, md := tOp ty.code 0, k, a := .reg (dst ty.regs) a, b := .reg (src ty.regs) b, c := .reg (srcX ty.regs) c }
  | .sha k ty a b c => some { op := 0x085, md := tOp (ty.code - 1) 0, k, a := .reg (dst ty.regs) a, b := .reg (src ty.regs) b, c := .reg (srcX ty.regs) c }
  | .shd k m32 dn a b c d => some { op := 0x086, md := tOp 1 (bit m32 2 + bit dn 1), k, a := .reg (dst 1) a, b := .reg (src 1) b, c := .reg (src 1) c, d := .reg (src 1) d }
  | .bfx k ty a b c => some { op := 0x087, md := tOp ty.code 0, k, a := .reg (dst ty.regs) a, b := .reg (src ty.regs) b, c := .reg (srcI ty.regs) c }
  | .bfi k w a b c => some { op := 0x088, md := w13 w, k, a := .reg { width := w12 w, lane := true, uni := true } a, b := .reg (src (w12 w)) b, c := .reg (srcI (w12 w)) c }
  | .brev k w a b => some { op := 0x089, md := w13 w, k, a := .reg (dst (w12 w)) a, b := .reg (srcI (w12 w)) b }
  | .clz k w a b => some { op := 0x08A, md := w13 w, k, a := .reg (dst (w12 w)) a, b := .reg (srcI (w12 w)) b }
  | .popc k w a b => some { op := 0x08B, md := w13 w, k, a := .reg (dst (w12 w)) a, b := .reg (srcX (w12 w)) b }
  | .rdlane k w a b c => some { op := 0x08C, md := w13 w, k, a := .reg (dst (w12 w)) a, b := .reg (laneOnly (w12 w)) b, c := .reg { uni := true, zero := true, ones := true, imm := true } c }
  | .hrnd k useK a b c => some { op := 0x08D, md := tOp 1 (bit useK 1), k, a := .reg (dst 1) a, b := .reg { width := 2, lane := true, uni := true, zero := true, ones := true } b, c := slotIf useK { width := 2, lane := true, uni := true, zero := true, ones := true } c }
  | .cnarrow k a b c d => some { op := 0x090, md := 16, k, a := .reg (laneOnly 4) a, b := .reg capQ b, c := .reg (src 2) c, d := .reg (src 2) d }
  | .cperm k a b c => some { op := 0x091, md := 16, k, a := .reg (laneOnly 4) a, b := .reg capQ b, c := .reg (srcI 1) c }
  | .cget k a b => some { op := 0x092, md := 16, k, a := .reg (laneOnly 4) a, b := .reg (srcI 1) b }
  | .cchk k perm size a b c => some { op := 0x093, md := tOp 1 (perm.code * 4 + size.code), k, a := .reg (dst 1) a, b := .reg capQ b, c := .reg (srcI 1) c }
  | .cclr k a => some { op := 0x094, md := 16, k, a := .reg (laneOnly 4) a }
  | .fadd k f r a b c => some { op := 0x0C0, md := tOp f.code (r.code * 4), k, a := .reg (dst 1) a, b := .reg (srcX 1) b, c := .reg (srcX 1) c }
  | .fsub k f r a b c => some { op := 0x0C1, md := tOp f.code (r.code * 4), k, a := .reg (dst 1) a, b := .reg (srcX 1) b, c := .reg (srcX 1) c }
  | .fmul k f r a b c => some { op := 0x0C2, md := tOp f.code (r.code * 4), k, a := .reg (dst 1) a, b := .reg (srcX 1) b, c := .reg (srcX 1) c }
  | .ffma k f r a b c d => some { op := 0x0C3, md := tOp f.code (r.code * 4), k, a := .reg (dst 1) a, b := .reg (src 1) b, c := .reg (src 1) c, d := .reg (src 1) d }
  | .fmin k f nan a b c => some { op := 0x0C4, md := tOp f.code (bit nan 1), k, a := .reg (dst 1) a, b := .reg (srcX 1) b, c := .reg (srcX 1) c }
  | .fmax k f nan a b c => some { op := 0x0C5, md := tOp f.code (bit nan 1), k, a := .reg (dst 1) a, b := .reg (srcX 1) b, c := .reg (srcX 1) c }
  | .fcmp k cmp f a b c => some { op := 0x0C6, md := tOp f.code cmp.code, k, a := .reg (dst 1) a, b := .reg (srcX 1) b, c := .reg (srcX 1) c }
  | .fclass k f a b => some { op := 0x0C7, md := tOp f.code 0, k, a := .reg (dst 1) a, b := .reg (srcX 1) b }
  | .frnd k f r x a b => some { op := 0x0C8, md := tOp f.code (r.code * 4 + bit x 1), k, a := .reg (dst 1) a, b := .reg (srcX 1) b }
  | .fdot2 k f r a b c d => some { op := 0x0C9, md := tOp f.code (r.code * 4), k, a := .reg (dst 1) a, b := .reg (src 1) b, c := .reg (src 1) c, d := .reg (src 1) d }
  | .frcp k f r a b => some { op := 0x0D0, md := tOp f.code (r.code * 4), k, a := .reg (dst 1) a, b := .reg (srcX 1) b }
  | .frsq k f r a b => some { op := 0x0D1, md := tOp f.code (r.code * 4), k, a := .reg (dst 1) a, b := .reg (srcX 1) b }
  | .fsqrt k f r a b => some { op := 0x0D2, md := tOp f.code (r.code * 4), k, a := .reg (dst 1) a, b := .reg (srcX 1) b }
  | .fex2 k f a b => some { op := 0x0D3, md := tOp f.code 0, k, a := .reg (dst 1) a, b := .reg (srcX 1) b }
  | .flg2 k f a b => some { op := 0x0D4, md := tOp f.code 0, k, a := .reg (dst 1) a, b := .reg (srcX 1) b }
  | .fsin k f a b => some { op := 0x0D5, md := tOp f.code 0, k, a := .reg (dst 1) a, b := .reg (srcX 1) b }
  | .fcos k f a b => some { op := 0x0D6, md := tOp f.code 0, k, a := .reg (dst 1) a, b := .reg (srcX 1) b }
  | .ftanh k f a b => some { op := 0x0D7, md := tOp f.code 0, k, a := .reg (dst 1) a, b := .reg (srcX 1) b }
  | .padd k f r a b c => some { op := 0x100, md := tOp r.code f.code, k, a := .reg (dst 1) a, b := .reg (srcX 1) b, c := .reg (srcX 1) c }
  | .pmul k f r a b c => some { op := 0x101, md := tOp r.code f.code, k, a := .reg (dst 1) a, b := .reg (srcX 1) b, c := .reg (srcX 1) c }
  | .pfma k f r a b c d => some { op := 0x102, md := tOp r.code f.code, k, a := .reg (dst 1) a, b := .reg (src 1) b, c := .reg (src 1) c, d := .reg (src 1) d }
  | .pmin k f a b c => some { op := 0x103, md := tOp 0 f.code, k, a := .reg (dst 1) a, b := .reg (srcX 1) b, c := .reg (srcX 1) c }
  | .pmax k f a b c => some { op := 0x104, md := tOp 0 f.code, k, a := .reg (dst 1) a, b := .reg (srcX 1) b, c := .reg (srcX 1) c }
  | .cvt k df sf r a b c d => some { op := 0x108, md := tOp r.code df.code, k, a := .reg (dst df.regs) a, b := .reg (src sf.regs) b, c := slotIf (df.isOb || sf.isOb) (src 1) c, d := slotIf (r == .rs) (src 2) d, e := .raw (BitVec.ofNat 9 sf.code) }
  | .cvts k df sf r a b c d => some { op := 0x109, md := tOp r.code df.code, k, a := .reg (dst df.regs) a, b := .reg (src sf.regs) b, c := slotIf (df.isOb || sf.isOb) (src 1) c, d := slotIf (r == .rs) (src 2) d, e := .raw (BitVec.ofNat 9 sf.code) }
  | .qscal k f a b => some { op := 0x10A, md := tOp 0 f.code, k, a := .reg (dst 1) a, b := .reg (src 1) b }
  | .part k b => some { op := 0x140, md := 0, k, b := .reg (srcI 1) b }
  | .shfl k w mode a b c => some { op := 0x141, md := tOp (bit w 3) mode.code, k, a := .reg (dst (w12 w)) a, b := .reg (src (w12 w)) b, c := .reg (srcX 1) c }
  | .vote k fn a b => some { op := 0x142, md := tOp 0 fn.code, k, a := .reg (dst 1) a, b := .reg (srcX 1) b }
  | .redt k op ty a b => some { op := 0x143, md := tOp ty.code op.code, k, a := .reg (dst ty.regs) a, b := .reg (src ty.regs) b }
  | .scant k ex op ty a b => some { op := 0x144, md := tOp ty.code (bit ex 8 + op.code), k, a := .reg (dst ty.regs) a, b := .reg (src ty.regs) b }
  | .matchT k all w a b => some { op := 0x145, md := tOp (bit w 3) (bit all 1), k, a := .reg (dst 1) a, b := .reg (srcI (w12 w)) b }
  | .elect k off => some { op := 0x146, md := 0, k, b := .reg immOnly (.imm off) }
  | .elend k => some { op := 0x147, md := 0, k }
  | .ld k size acq cap xfer a b c => some { op := 0x180 + size.code, md := scopeOrd acq 1 + bit cap 2 + bit xfer 1, k, a := .reg (if xfer then laneOnly 4 else dst size.regs) a, b := .reg (addrB cap) b, c := .reg (srcX 1) c }
  | .st k size rel cap xfer b c d => some { op := 0x188 + size.code, md := scopeOrd rel 2 + bit cap 2 + bit xfer 1, k, b := .reg (addrB cap) b, c := .reg (src 1) c, d := .reg (if xfer then laneOnly 4 else src size.regs) d }
  | .ldp k w win a b => some { op := 0x190, md := bit w 1, k, a := .reg (dst (w12 w)) a, b := .reg (srcI 1) b, c := .raw (win.setWidth 9) }
  | .ldchain k nf cap a b c d => some { op := 0x191, md := bit cap 2 + bit nf 1, k, a := .reg (laneOnly 1) a, b := .reg (if cap then { capQ with uni := true } else src 2) b, c := .reg (src 1) c, d := .reg { width := 1, lane := true, uni := true } d }
  | .prf k cap b c => some { op := 0x192, md := bit cap 2, k, b := .reg (addrB cap) b, c := .reg (srcX 1) c }
  | .waita k cmp w acq cap b c d => some { op := 0x193, md := scopeOrd acq 1 + bit cap 2 + bit w 1, k, b := .reg (addrB cap) b, c := .reg (src 1) c, d := .reg (src (w12 w)) d, e := .raw (BitVec.ofNat 9 cmp.code) }
  | .cctl k op sc b c => some { op := 0x194, md := sc.code * 16 + op.code, k, b := .reg (src 2) b, c := .reg (srcI 1) c }
  | .rgn k => some { op := 0x195, md := 0, k }
  | .rgnc k => some { op := 0x196, md := 0, k }
  | .atom k op w sg sc ord cap a b c d e => some { op := 0x1A0 + op.code, md := sc.code * 16 + ord.code * 4 + bit cap 2 + bit w 1, k, a := .reg (dst (w12 w)) a, b := .reg (addrB cap) b, c := .reg (src 1) c, d := .reg (src (w12 w)) d, e := if op == .cas then .reg (src (w12 w)) e else if op == .min || op == .max then .raw (BitVec.ofNat 9 (bit sg 1)) else .blank e }
  | .red k op w sg sc rel cap b c d => some { op := 0x1B0 + op.code, md := sc.code * 16 + bit rel 8 + bit cap 2 + bit w 1, k, b := .reg (addrB cap) b, c := .reg (src 1) c, d := .reg (src (w12 w)) d, e := if op == .min || op == .max then .raw (BitVec.ofNat 9 (bit sg 1)) else .unused }
  | .fence k sc => some { op := 0x1C0, md := sc.code * 16, k }
  | .acqp k sc b c => some { op := 0x1C1, md := sc.code * 16, k, b := .reg (src 2) b, c := .reg (srcI 1) c }
  | .acqpCap k sc b c => some { op := 0x1C1, md := sc.code * 16 + 1, k, b := .reg capQ b, c := .reg (srcI 1) c }
  | .qfence k mask => some { op := 0x1C2, md := mask.toNat, k }
  | .bar k n b => some { op := 0x1C8, md := n.toNat, k, b := .reg (srcI 1) b }
  | .bara k n b => some { op := 0x1C9, md := n.toNat, k, b := .reg (srcI 1) b }
  | .barw k n => some { op := 0x1CA, md := n.toNat, k }
  | .barLaunch k => some { op := 0x1C8, md := 0x60, k, b := .reg { zero := true } .zero }
  | .baraLaunch k => some { op := 0x1C9, md := 0x60, k, b := .reg { zero := true } .zero }
  | .barwLaunch k => some { op := 0x1CA, md := 0x60, k }
  | .mbar k n b c => some { op := 0x1CB, md := n.toNat, k, b := .reg (srcI 1) b, c := .reg (srcI 1) c }
  | .mbwait k n => some { op := 0x1CC, md := n.toNat, k }
  | .bcw k a b => some { op := 0x1CD, md := 0, k, a := .reg (dst 1) a, b := .reg (srcI 1) b }
  | .qpush k q b => some { op := 0x1D0, md := q.toNat, k, b := .reg (srcI 1) b }
  | .qpop k q a => some { op := 0x1D1, md := q.toNat, k, a := .reg (dst 1) a }
  | .qtry k q a => some { op := 0x1D2, md := q.toNat, k, a := .reg (dst 2) a }
  | .ckick k q b c => some { op := 0x200, md := q.toNat * 4, k, b := .reg (srcI 1) b, c := .reg (srcI 1) c }
  | .puts k q b c => some { op := 0x201, md := q.toNat * 4, k, b := .reg (srcI 1) b, c := .reg (srcI 1) c }
  | .get k q b c => some { op := 0x202, md := q.toNat * 4, k, b := .reg (srcI 1) b, c := .reg (srcI 1) c }
  | .radd k q b c => some { op := 0x203, md := q.toNat * 4, k, b := .reg (srcI 1) b, c := .reg (srcI 1) c }
  | .mput k q b c => some { op := 0x204, md := q.toNat * 4, k, b := .reg (srcI 1) b, c := .reg (srcI 1) c }
  | .mputRed k q b c => some { op := 0x204, md := q.toNat * 4 + 1, k, b := .reg (srcI 1) b, c := .reg (srcI 1) c }
  | .mputOrd k q b c => some { op := 0x204, md := q.toNat * 4 + 2, k, b := .reg (srcI 1) b, c := .reg (srcI 1) c }
  | .pcoll k q b => some { op := 0x205, md := q.toNat * 4, k, b := .reg (srcI 1) b }
  | .mlay k a b => some { op := 0x240, md := 0, k, a := .reg xReg a, b := .reg mSrc b }
  | .mma k a b c d => some { op := 0x241, md := 0, k, a := .reg mReg a, b := .reg xReg b, c := .reg xReg c, d := .reg mReg d }
  | .mzero k a b => some { op := 0x242, md := 0, k, a := .reg mReg a, b := .reg mReg b }
  | .mst k f sat sc b c d e => some { op := 0x243, md := bit sc 32 + bit sat 16 + f.code, k, b := .reg xReg b, c := .reg mReg c, d := .reg mReg d, e := slotIf sc mReg e }
  | .mld k a b c => some { op := 0x244, md := 0, k, a := .reg mReg a, b := .reg xReg b, c := .reg mReg c }
  | .mscl k t b => some { op := 0x245, md := t.code, k, b := .reg (if t.code < 4 then xReg else mSrc) b }
  | .mwait k n => some { op := 0x246, md := n.toNat, k }
  | .msig k n b => some { op := 0x247, md := n.toNat, k, b := .reg mCount b }
  | .mjmp k off => some { op := 0x248, md := 0, k, b := .reg immOnly (.imm off) }
  | .mloop k a off => some { op := 0x249, md := 0, k, a := .reg mReg a, b := .reg immOnly (.imm off) }
  | .madd k a b c => some { op := 0x24A, md := 0, k, a := .reg mReg a, b := .reg mReg b, c := .reg mSrc c }
  | .maddR k a b => some { op := 0x24A, md := 1, k, a := .reg xReg a, b := .reg mSrc b }
  | .maddC k a b => some { op := 0x24A, md := 2, k, a := .reg xReg a, b := .reg mSrc b }
  | .mmov k a b => some { op := 0x24B, md := 0, k, a := .reg mReg a, b := .reg mSrc b }
  | .mmovW k a l => some { op := 0x24B, md := 1, k, a := .reg mReg a, b := .raw (litB l), c := .raw (litC l), d := .raw (litD l), e := .raw (litE l) }
  | .mbcnt k clr a => some { op := 0x24C, md := bit clr 1, k, a := .reg mReg a }
  | .mend k => some { op := 0x24D, md := 0, k }
  | .launch k a b => some { op := 0x280, md := 0, k, a := .reg (dst 2) a, b := .reg (src 2) b }
  | .gsig k b => some { op := 0x281, md := 0, k, b := .reg (srcX 1) b }
  | .cancel k hard a b => some { op := 0x282, md := bit hard 1, k, a := .reg (dst 1) a, b := .reg (srcX 1) b }
  | .cntr k a b => some { op := 0x283, md := 0, k, a := .reg (dst 2) a, b := .reg (srcX 1) b }
  | .waitv k cmp w b c => some { op := 0x284, md := bit w 8 + cmp.code, k, b := .reg (src 2) b, c := .reg (srcI (w12 w)) c }
  | .sigv k op w dn b c => some { op := 0x285, md := bit dn 16 + bit w 8 + op.code, k, b := .reg (src 2) b, c := .reg (srcI (w12 w)) c }
  | .tkrd k t a b => some { op := 0x288, md := t.code, k, a := .reg (dst 1) a, b := slotIf (t == .price) (src 1) b }
  | .pint k n a b => some { op := 0x289, md := n.toNat, k, a := .reg (dst 1) a, b := .reg (srcX 1) b }
  | .rhint k b c => some { op := 0x28A, md := 0, k, b := .reg (src 2) b, c := .reg (srcI 1) c }
  | .srd k a b => some { op := 0x28C, md := 0, k, a := .reg (dst 1) a, b := .reg (srcI 1) b }
  | .swr k b c => some { op := 0x28D, md := 0, k, b := .reg (srcX 1) b, c := .reg (srcX 1) c }
  | _ => none

/-! ### Canonical form and legal operands -/

/-- Opcodes of the instructions that may carry lookahead (R111). -/
def longLatOp (op : Nat) : Bool :=
  (0x180 ≤ op && op ≤ 0x186) || op == 0x190 || op == 0x191 || (0x1A0 ≤ op && op ≤ 0x1A7) ||
  (0x0D0 ≤ op && op ≤ 0x0D7) || op == 0x08D || (0x141 ≤ op && op ≤ 0x145) || op == 0x28C

/-- Opcodes that may carry a cache hint in a stream (R99, R114, R299). -/
def hintOp (st : Stream) (op : Nat) : Bool :=
  match st with
  | .matrix => op == 0x240 || op == 0x241 || op == 0x243 || op == 0x244
  | _ => op / 64 == 6 || op / 64 == 8

/-- RTT, RGN and RGNC take no guard (R493, R497). -/
def alwaysOp (op : Nat) : Bool := op == 0x00A || op == 0x195 || op == 0x196

/-- Which opcodes a stream executes (R120). -/
def opInStream (st : Stream) (op : Nat) : Bool :=
  match st with
  | .wave => op / 64 != 9 && op != 0x284 && op != 0x285
  | .matrix => op / 64 == 9
  | .control =>
    op / 64 == 1 || (op / 64 == 2 && op != 0x08C && op != 0x08D && !(0x090 ≤ op && op ≤ 0x094)) ||
    (0x280 ≤ op && op ≤ 0x285)

/-- The fields that a guard leaves out are zero (R103). -/
def Guard.canonical (st : Stream) (g : Guard) : Bool :=
  if g.comb = 0 then g.greg == st.code0 && g.g1 == 0 && g.g2 == 0 && !g.neg1 && !g.neg2
  else if g.comb = 1 then g.g2 == 0 && !g.neg2
  else true

/-- The registers that may stand in greg (R103, R120, R299). -/
def Guard.regOk (st : Stream) (g : Guard) : Bool :=
  g.comb == 0 ||
  (match g.greg with
   | .lane _ => st == .wave
   | .uni _ => st != .matrix
   | .m _ => st == .matrix
   | .zero => true
   | .ones => st != .matrix
   | .laneIdx => st == .wave
   | .tileIdx => st == .wave
   | _ => false)

/-- The field names a register that the instruction reads, so that it may carry a hold bit (R99, R110). -/
def Slot.holdable : Slot → Bool
  | .reg _ (.lane _) => true
  | .reg _ (.uni _) => true
  | _ => false

/-- The field holds an immediate or a parameter operand (R102). -/
def Slot.payload : Slot → Bool
  | .reg _ (.imm _) => true
  | .reg _ (.param _ _) => true
  | _ => false

/-- Scheduling controls of canonical form: guard, la, hint, hold bits and yield (R99, R103, R114, R299). -/
def Ctl.canonical (st : Stream) (op : Nat) (k : Ctl) (b c d : Slot) : Bool :=
  k.guard.canonical st && (!alwaysOp op || k.guard.comb == 0) &&
  (k.la == 0 || (st != .matrix && longLatOp op)) &&
  (k.hint == 0 || (hintOp st op && decide (k.hint.toNat < 6))) &&
  (!k.holdB || (st != .matrix && b.holdable)) &&
  (!k.holdC || (st != .matrix && c.holdable)) &&
  (!k.holdD || (st != .matrix && d.holdable && !b.payload && !c.payload)) &&
  (!k.yieldBit || st != .matrix)

/-- The operand of a field is legal in the stream (R100, R102, R120, R299). -/
def Slot.legal (st : Stream) : Slot → Bool
  | .reg s o => s.admits o && o.inStream st
  | .blank o => o == st.code0
  | _ => true

/-- An immediate or parameter operand leaves D and E free for its data (R102). -/
def Form.room (f : Form) : Bool :=
  !(f.b.payload && f.c.payload) &&
  (!(f.b.payload || f.c.payload) ||
    ((match f.d with | .unused => true | _ => false) && (match f.e with | .unused => true | _ => false))) &&
  !f.a.payload && !f.d.payload && !f.e.payload

/-- Modifier combinations that the entries do not assign (R117 to R119 and the entries named). -/
def Instr.modOk : Instr → Bool
  | .iaddt _ ty _ _ _ _ _ => decide (ty.code < 4)
  | .imulh _ ty _ _ _ => decide (ty.code < 4)
  | .imadw _ ty _ _ _ _ => decide (ty.code < 2)
  | .iabs _ ty _ _ _ => ty.code % 2 == 0
  | .bfx _ ty _ _ _ => decide (ty.code < 4)
  | .cvt _ d _ r _ _ _ _ => r != .rs || d.takesRs
  | .cvts _ d _ r _ _ _ _ => r != .rs || d.takesRs
  | .qscal _ f _ _ => f == .e4m3 || f == .e5m2 || f == .lns6
  | .redt _ op ty _ _ => op.okFor ty
  | .scant _ _ op ty _ _ => op.okFor ty
  | .ld _ size _ _ xfer _ _ _ => !xfer || size == .quad
  | .st _ size _ _ xfer _ _ _ => !xfer || size == .quad
  | .atom _ op _ sg _ _ _ _ _ _ _ _ => !sg || op == .min || op == .max
  | .red _ op _ sg _ _ _ _ _ _ => !sg || op == .min || op == .max
  | .acqp _ sc _ _ => sc != .blk
  | .acqpCap _ sc _ _ => sc != .blk
  | .qfence _ mask => mask != 0
  | .pint _ n _ _ => decide (2 ≤ n.toNat)
  | _ => true

/-- ATOM uses E only with .cas, .min and .max; with .min and .max E is data, so that the operand stays code 0 (R399). -/
def Instr.eOk (st : Stream) : Instr → Bool
  | .atom _ op _ _ _ _ _ _ _ _ _ e => op == .cas || e == st.code0
  | _ => true

end Sys2Proof
end

