-- ==== Sys2Proof/WellFormed.lean ====
section
/-! DEFINITION. Which instructions have an encoding in a stream (spec/04_encoding.md R99 to R115). -/

namespace Sys2Proof

/-- A form that a stream's canonical encoding can hold. -/
def Form.wf (st : Stream) (f : Form) : Bool :=
  opInStream st f.op && f.k.canonical st f.op f.b f.c f.d && f.k.guard.regOk st &&
  f.a.legal st && f.b.legal st && f.c.legal st && f.d.legal st && f.e.legal st && f.room

/-- An instruction that has an encoding in the stream; an event has none (R99, R115 checks 1 to 3 but for the register
limit of R68, which depends on the wave). -/
def Instr.wf (st : Stream) (i : Instr) : Bool :=
  match i.form with
  | none => false
  | some f => i.modOk && i.eOk st && f.wf st

end Sys2Proof
end

