-- ==== Sys2Proof/Machine/Num.lean ====
section
/-! DEFINITION. Number formats, rounding, conversion and the HRND hash (spec/07_arithmetic.md R137 to R152). Values are
exact: a sign, a natural mantissa and a power of two. -/

namespace Sys2Proof.Machine

/-! ### Exact values -/

/-- An exact value: (−1)^neg × m × 2^e, an infinity, or a NaN (signalling or quiet, R139). -/
inductive Val where
  | num (neg : Bool) (m : Nat) (e : Int)
  | inf (neg : Bool)
  | nan (sig : Bool)
  deriving DecidableEq, Repr

def Val.isNan : Val → Bool | .nan _ => true | _ => false
def Val.isSig : Val → Bool | .nan s => s | _ => false
def Val.isInf : Val → Bool | .inf _ => true | _ => false
def Val.isZero : Val → Bool | .num _ 0 _ => true | _ => false
/-- The sign; a NaN counts as positive. -/
def Val.neg : Val → Bool | .num s _ _ => s | .inf s => s | .nan _ => false
/-- The value with its sign turned. -/
def Val.flip : Val → Val | .num s m e => .num (!s) m e | .inf s => .inf (!s) | v => v
/-- The value of an integer. -/
def Val.ofInt (i : Int) : Val := .num (decide (i < 0)) i.natAbs 0

/-- m × 2^e over a common exponent e0 ≤ e. -/
def scaleTo (m : Nat) (e e0 : Int) : Nat := m * 2 ^ (e - e0).toNat

/-- Whether m × 2^e < m' × 2^e'. -/
def magLt (m : Nat) (e : Int) (m' : Nat) (e' : Int) : Bool :=
  decide (scaleTo m e (min e e') < scaleTo m' e' (min e e'))

/-- The signed integer m × 2^(e − e0). -/
def signedAt (neg : Bool) (m : Nat) (e e0 : Int) : Int :=
  if neg then -(scaleTo m e e0 : Int) else (scaleTo m e e0 : Int)

/-- Whether a < b, both of them finite or infinite. -/
def Val.lt : Val → Val → Bool
  | .num s m e, .num s' m' e' => decide (signedAt s m e (min e e') < signedAt s' m' e' (min e e'))
  | .inf s, .inf s' => s && !s'
  | .inf s, .num _ _ _ => s
  | .num _ _ _, .inf s => !s
  | _, _ => false

/-- Whether a = b in value; +0 = −0. -/
def Val.same : Val → Val → Bool
  | .num s m e, .num s' m' e' => decide (signedAt s m e (min e e') = signedAt s' m' e' (min e e'))
  | .inf s, .inf s' => s == s'
  | _, _ => false

/-! ### Binary formats (R137) -/

/-- A binary floating-point format: exponent and fraction widths, bias, the code of its largest finite magnitude, whether
it has infinities, and its canonical NaN. -/
structure FF where
  ebits : Nat
  fbits : Nat
  bias : Nat
  maxCode : Nat
  hasInf : Bool
  canon : Nat
  deriving DecidableEq, Repr

def ffF32 : FF := ⟨8, 23, 127, 0x7F7FFFFF, true, 0x7FC00000⟩
def ffF16 : FF := ⟨5, 10, 15, 0x7BFF, true, 0x7E00⟩
def ffBf16 : FF := ⟨8, 7, 127, 0x7F7F, true, 0x7FC0⟩
def ffE4m3 : FF := ⟨4, 3, 7, 0x7E, false, 0x7F⟩
def ffE5m2 : FF := ⟨5, 2, 15, 0x7B, true, 0x7E⟩

/-- The format of class 0x3 (R117). -/
def ffOf : FFmt → FF
  | .f32 => ffF32 | .f16 => ffF16 | .bf16 => ffBf16

/-- The format of a packed instruction (R117). -/
def pfOf : PFmt → FF
  | .f16 => ffF16 | .bf16 => ffBf16

/-- Width of a code without its sign. -/
def FF.mbits (f : FF) : Nat := f.ebits + f.fbits
/-- Exponent of the quantum of the subnormals. -/
def FF.qmin (f : FF) : Int := 1 - (f.bias : Int) - f.fbits
/-- The sign bit of a code. -/
def FF.sign (f : FF) (neg : Bool) : Nat := if neg then 2 ^ f.mbits else 0
/-- The code of an infinity. -/
def FF.inf (f : FF) (neg : Bool) : Nat := f.sign neg + f.maxCode + 1

/-- The value of a code (R137, R139: only FP32, FP16 and BF16 have signalling NaNs). -/
def FF.value (f : FF) (code : Nat) : Val :=
  let c := code % 2 ^ (f.mbits + 1)
  let neg := c.testBit f.mbits
  let mag := c % 2 ^ f.mbits
  let ex := mag / 2 ^ f.fbits
  let fr := mag % 2 ^ f.fbits
  if mag ≤ f.maxCode then
    if ex = 0 then .num neg fr f.qmin else .num neg (2 ^ f.fbits + fr) (f.qmin + ex - 1)
  else if f.hasInf && fr == 0 then .inf neg
  else .nan (decide (7 ≤ f.fbits) && !mag.testBit (f.fbits - 1))

/-! ### Rounding (R144 to R147) -/

/-- Rounding modes; .rs carries the hash drawn for the element. -/
inductive Mode where
  | rn | rz | rd | ru
  | rs (h : Nat)
  deriving DecidableEq, Repr

/-- The mode of a code of class 0x3. -/
def rndMode4 : Rnd4 → Mode
  | .rn => .rn | .rz => .rz | .rd => .rd | .ru => .ru

/-- The mode of a code of class 0x4, with the hash that .rs draws. -/
def rndMode (h : Nat) : Rnd → Mode
  | .rn => .rn | .rz => .rz | .rd => .rd | .ru => .ru | .rs => .rs h

/-- Whether the neighbour of larger magnitude is chosen for a value r/d of the way to it, 0 < r < d (R144, R147). -/
def Mode.up (md : Mode) (neg odd : Bool) (r d : Nat) : Bool :=
  match md with
  | .rn => decide (d < 2 * r) || (decide (2 * r = d) && odd)
  | .rz => false
  | .rd => neg
  | .ru => !neg
  | .rs h => decide (h < r * 2 ^ 32 / d)

/-- The magnitude m × 2^e in units of 2^q: the whole part, the rest, and the divisor of the rest. -/
def quant (m : Nat) (e q : Int) : Nat × Nat × Nat :=
  if q ≤ e then (scaleTo m e q, 0, 1)
  else let d := 2 ^ (q - e).toNat; (m / d, m % d, d)

/-- A magnitude rounded to units of 2^q, and whether it was exact. -/
def roundAt (md : Mode) (neg : Bool) (m : Nat) (e q : Int) : Nat × Bool :=
  let (n, r, d) := quant m e q
  if r = 0 then (n, true) else (n + (if md.up neg (n % 2 == 1) r d then 1 else 0), false)

/-- A rounded magnitude: its code in the format with an unbounded exponent, and what R145 and R152 ask of it. -/
structure Rounded where
  code : Nat
  overflow : Bool
  tiny : Bool
  exact : Bool
  deriving DecidableEq, Repr

/-- Rounds the magnitude m × 2^e, m > 0 (R144, R145, R147). -/
def FF.round (f : FF) (md : Mode) (neg : Bool) (m : Nat) (e : Int) : Rounded :=
  let top : Int := e + m.log2
  let q := max (top - f.fbits) f.qmin
  let (n, exact) := roundAt md neg m e q
  let code := (q - f.qmin).toNat * 2 ^ f.fbits + n
  let tiny := match md with
    | .rs _ => decide (code < 2 ^ f.fbits)
    | _ => decide (top < f.qmin + f.fbits) &&
      (let (u, _) := roundAt md neg m e (top - f.fbits)
       !(decide (u = 2 ^ (f.fbits + 1)) && decide (top + 1 = f.qmin + f.fbits)))
  { code, overflow := decide (f.maxCode < code), tiny, exact }

/-- The flags of a finite rounding (R145, R148, R152). -/
def Rounded.flags (r : Rounded) : Flags :=
  if r.overflow then fOverflow ||| fInexact
  else if r.exact then 0
  else fInexact ||| flagIf r.tiny fUnderflow

/-- What an overflow delivers (R145), and R148 where the format has no infinity. -/
def FF.overflowed (f : FF) (md : Mode) (neg : Bool) : Nat :=
  let big := match md with
    | .rz => true | .rd => !neg | .ru => neg | _ => false
  if big then f.sign neg + f.maxCode else if f.hasInf then f.inf neg else f.canon

/-- An exact value as a code of the format, with the flags of the conversion (R148); sat is CVTS. -/
def FF.deliver (f : FF) (md : Mode) (sat : Bool) : Val → Nat × Flags
  | .nan sig => (f.canon, flagIf sig fInvalid)
  | .inf neg =>
    if sat then (f.sign neg + f.maxCode, fOverflow ||| fInexact)
    else if f.hasInf then (f.inf neg, 0) else (f.canon, fOverflow ||| fInexact)
  | .num neg m e =>
    if m = 0 then (f.sign neg, 0)
    else
      let r := f.round md neg m e
      (if r.overflow then (if sat then f.sign neg + f.maxCode else f.overflowed md neg) else f.sign neg + r.code,
       r.flags)

/-! ### LNS6 (R140, R141, R149) -/

/-- The significands T[j] of R141. -/
def lnsT : Nat → Nat
  | 0 => 0x800000 | 1 => 0x9837F0 | 2 => 0xB504F3 | _ => 0xD744FD

/-- T[j] × 2^(I − 23) for the quarter-octave q = 4I + j (R141, R153). -/
def lnsPow (q : Int) : Nat × Int := (lnsT (q % 4).toNat, q / 4 - 23)

/-- L(m) as mantissa and exponent (R141); m may be 32 (R147). -/
def lnsL (m : Nat) : Nat × Int := lnsPow ((m : Int) - 16)

/-- The value of an LNS6 code (R140). -/
def lnsValue (code : Nat) : Val :=
  let m := code % 32
  let neg := code.testBit 5
  if m = 0 then (if neg then .nan false else .num false 0 0) else .num neg (lnsL m).1 (lnsL m).2

/-- The largest code m ≤ n with L(m) ≤ |v|, 0 if there is none. -/
def lnsFloor (v : Nat) (e : Int) : Nat → Nat
  | 0 => 0
  | n + 1 => if magLt v e (lnsL (n + 1)).1 (lnsL (n + 1)).2 then lnsFloor v e n else n + 1

/-- Whether v² is below, equal to or above the product of two points: 0, 1, 2. -/
def sqCmp (v : Nat) (e : Int) (p : Nat × Int) (k : Nat) (ke : Int) : Nat :=
  let m := p.1 * k
  let x := p.2 + ke
  if magLt (v * v) (2 * e) m x then 0 else if magLt m x (v * v) (2 * e) then 2 else 1

/-- Rounds the magnitude v × 2^e, v > 0, to an LNS6 magnitude code; 32 is an overflow (R147, R149). -/
def lnsRound (md : Mode) (neg : Bool) (v : Nat) (e : Int) : Nat × Bool :=
  let m := lnsFloor v e 31
  let lm : Nat × Int := if m = 0 then (0, e) else lnsL m
  let lu := lnsL (m + 1)
  if m ≠ 0 ∧ !magLt lm.1 lm.2 v e then (m, true)
  else
    let upper := match md with
      | .rn =>
        if m = 0 then sqCmp v e (lnsL 1) 1 (-4) != 0
        else if m = 31 then sqCmp v e (lnsL 31) 1 4 != 0
        else match sqCmp v e lm lu.1 lu.2 with | 0 => false | 1 => m % 2 == 1 | _ => true
      | .rs h =>
        if m = 31 ∧ !magLt v e lu.1 lu.2 then true
        else
          let e0 := min e (min lm.2 lu.2)
          let a := scaleTo lm.1 lm.2 e0
          decide (h < (scaleTo v e e0 - a) * 2 ^ 32 / (scaleTo lu.1 lu.2 e0 - a))
      | _ => md.up neg false 1 2
    (if upper then m + 1 else m, false)

/-- An exact value as an LNS6 code (R148, R149); sat is CVTS. A magnitude above L(31) that the mode rounds toward zero sets inexact
alone (DEDUCED, log 49). -/
def lnsDeliver (md : Mode) (sat : Bool) : Val → Nat × Flags
  | .nan sig => (0x20, flagIf sig fInvalid)
  | .inf neg => (if sat then (if neg then 63 else 31) else 0x20, fOverflow ||| fInexact)
  | .num neg m e =>
    if m = 0 then (0, 0)
    else
      let (c, exact) := lnsRound md neg m e
      let s := if neg then 32 else 0
      if c = 32 then (if sat then s + 31 else 0x20, fOverflow ||| fInexact)
      else if exact then (s + c, 0)
      else if c = 0 then (0, fUnderflow ||| fInexact)
      else (s + c, fInexact)

/-! ### Integers and offset binary (R142, R150) -/

/-- An exact number rounded to an integer, and whether it was exact. -/
def roundInt (md : Mode) (neg : Bool) (m : Nat) (e : Int) : Int × Bool :=
  let (n, exact) := roundAt md neg m e 0
  (if neg then -(n : Int) else n, exact)

/-- Clamp. -/
def clampInt (lo hi i : Int) : Int := if i < lo then lo else if hi < i then hi else i

/-- Least and greatest value of an integer format of R118. -/
def intRange (bits : Nat) (signed : Bool) : Int × Int :=
  if signed then (-(2 ^ (bits - 1) : Nat), (2 ^ (bits - 1) : Nat) - 1) else (0, (2 ^ bits : Nat) - 1)

/-- Conversion to an integer format (R150). -/
def toIntFmt (bits : Nat) (signed : Bool) (md : Mode) : Val → Int × Flags
  | .nan _ => (0, fInvalid)
  | .inf neg => (if neg then (intRange bits signed).1 else (intRange bits signed).2, fInvalid)
  | .num neg m e =>
    let (i, exact) := roundInt md neg m e
    let c := clampInt (intRange bits signed).1 (intRange bits signed).2 i
    (c, if c = i then flagIf (!exact) fInexact else fInvalid)

/-- Conversion to an offset-binary format with zero point z (R150). -/
def toOb (bits : Nat) (z : Nat) (md : Mode) : Val → Nat × Flags
  | .nan _ => (z, fInvalid)
  | .inf neg => (if neg then 0 else 2 ^ bits - 1, fOverflow ||| fInexact)
  | .num neg m e =>
    let (i, exact) := roundInt md neg m e
    let u := i + z
    let c := clampInt 0 ((2 ^ bits : Nat) - 1) u
    (c.toNat, if c = u then flagIf (!exact) fInexact else fOverflow ||| fInexact)

/-! ### Every element format (R151) -/

/-- The exact value of a code in a format, with zero point z for offset binary (R142, R151). -/
def fmtValue (f : Fmt) (z code : Nat) : Val :=
  match f with
  | .f32 => ffF32.value code
  | .f16 => ffF16.value code
  | .bf16 => ffBf16.value code
  | .e4m3 => ffE4m3.value code
  | .e5m2 => ffE5m2.value code
  | .lns6 => lnsValue code
  | .ob8 => Val.ofInt ((code % 256 : Nat) - (z % 256 : Nat))
  | .ob4 => Val.ofInt ((code % 16 : Nat) - (z % 16 : Nat))
  | .i8 => Val.ofInt (BitVec.ofNat 8 code).toInt
  | .n8 => Val.ofInt (code % 2 ^ 8 : Nat)
  | .i16 => Val.ofInt (BitVec.ofNat 16 code).toInt
  | .n16 => Val.ofInt (code % 2 ^ 16 : Nat)
  | .i32 => Val.ofInt (BitVec.ofNat 32 code).toInt
  | .n32 => Val.ofInt (code % 2 ^ 32 : Nat)
  | .i64 => Val.ofInt (BitVec.ofNat 64 code).toInt
  | .n64 => Val.ofInt (code % 2 ^ 64 : Nat)

/-- An integer as the low bits of a 64-bit field, negative values in two's complement. -/
def intBits (i : Int) : Nat := (BitVec.ofInt 64 i).toNat

/-- The code of an exact value in a format, with its flags (R148 to R150). Integer codes are in two's complement of 64
bits. -/
def fmtDeliver (f : Fmt) (z : Nat) (md : Mode) (sat : Bool) (v : Val) : Nat × Flags :=
  match f with
  | .f32 => ffF32.deliver md sat v
  | .f16 => ffF16.deliver md sat v
  | .bf16 => ffBf16.deliver md sat v
  | .e4m3 => ffE4m3.deliver md sat v
  | .e5m2 => ffE5m2.deliver md sat v
  | .lns6 => lnsDeliver md sat v
  | .ob8 => toOb 8 (z % 256) md v
  | .ob4 => toOb 4 (z % 16) md v
  | .i8 => let (i, fl) := toIntFmt 8 true md v; (intBits i, fl)
  | .n8 => let (i, fl) := toIntFmt 8 false md v; (intBits i, fl)
  | .i16 => let (i, fl) := toIntFmt 16 true md v; (intBits i, fl)
  | .n16 => let (i, fl) := toIntFmt 16 false md v; (intBits i, fl)
  | .i32 => let (i, fl) := toIntFmt 32 true md v; (intBits i, fl)
  | .n32 => let (i, fl) := toIntFmt 32 false md v; (intBits i, fl)
  | .i64 => let (i, fl) := toIntFmt 64 true md v; (intBits i, fl)
  | .n64 => let (i, fl) := toIntFmt 64 false md v; (intBits i, fl)

/-- A block scale (R143): a 10-bit field with bits above it zero. -/
def scaleValue (half : Nat) : Val :=
  let ex := half / 4 % 256
  if 1024 ≤ half ∨ ex = 255 then .nan false else .num false (4 + half % 4) ((ex : Int) - 129)

/-! ### Exact arithmetic -/

/-- Sum of two exact values under a mode that decides the sign of an exact zero (R139, R145, R152). -/
def addExact (md : Mode) (a b : Val) : Val × Flags :=
  match a, b with
  | .nan s, b => (.nan false, flagIf (s || b.isSig) fInvalid)
  | a, .nan s => (.nan false, flagIf (s || a.isSig) fInvalid)
  | .inf s, .inf s' => if s == s' then (.inf s, 0) else (.nan false, fInvalid)
  | .inf s, _ => (.inf s, 0)
  | _, .inf s => (.inf s, 0)
  | .num s m e, .num s' m' e' =>
    let e0 := min e e'
    let x := signedAt s m e e0 + signedAt s' m' e' e0
    if x = 0 then
      (.num (if m = 0 ∧ m' = 0 ∧ s = s' then s else match md with | .rd => true | _ => false) 0 0, 0)
    else (.num (decide (x < 0)) x.natAbs e0, 0)

/-- Product of two exact values (R139, R152: 0 × ∞ is invalid). -/
def mulExact (a b : Val) : Val × Flags :=
  match a, b with
  | .nan s, b => (.nan false, flagIf (s || b.isSig) fInvalid)
  | a, .nan s => (.nan false, flagIf (s || a.isSig) fInvalid)
  | .inf s, b => if b.isZero then (.nan false, fInvalid) else (.inf (s != b.neg), 0)
  | a, .inf s => if a.isZero then (.nan false, fInvalid) else (.inf (a.neg != s), 0)
  | .num s m e, .num s' m' e' => (.num (s != s') (m * m') (e + e'), 0)

/-- One rounded addition. -/
def FF.add (f : FF) (md : Mode) (a b : Nat) : Nat × Flags :=
  let (v, fl) := addExact md (f.value a) (f.value b)
  let (c, fl') := f.deliver md false v
  (c, fl ||| fl')

/-- RoundRNE of an FP32 sum: the addition of the matrix accumulators and of every reduction (R154, R155). -/
def addF32 (a b : Word) : Word := BitVec.ofNat 32 (ffF32.add .rn a.toNat b.toNat).1

/-! ### The HRND hash (R146) -/

/-- The rounds of R146. -/
def hashRounds : Nat → Dword → Dword → Dword
  | 0, x, _ => x
  | n + 1, x, k =>
    let x := x ^^^ k
    let x := x ^^^ (x >>> 32)
    let x := x * 0xD6E8FEB86659FD93#64
    let x := x ^^^ (x >>> 29)
    hashRounds n x (k + 0x9E3779B97F4A7C15#64)

/-- H(c, k) of R146. -/
def hrndHash (c k : Dword) : Word := (hashRounds 4 c k).extractLsb' 32 32

/-- The hash drawn by .rs for the element at a byte address (R147). -/
def rsHash (addr : Nat) (upper : Bool) (seed : Dword) : Nat :=
  (hrndHash (BitVec.ofNat 64 (2 * addr + if upper then 1 else 0)) seed).toNat

/-! ### Bytes -/

/-- n low bytes of a number, least significant first (R5, R7). -/
def bytesOf : Nat → Nat → List Byte
  | 0, _ => []
  | n + 1, v => BitVec.ofNat 8 v :: bytesOf n (v / 256)

/-- The number that little-endian bytes spell. -/
def ofBytes : List Byte → Nat
  | [] => 0
  | b :: t => b.toNat + 256 * ofBytes t

/-- Bits hi down to lo of a number. -/
def bits (v lo n : Nat) : Nat := v / 2 ^ lo % 2 ^ n

/-- Even parity of the n low bits: true when their count of ones is odd (R90). -/
def oddOnes : Nat → Nat → Bool
  | 0, _ => false
  | n + 1, v => (v % 2 == 1) != oddOnes n (v / 2)

/-- How many of the n low bits are set. -/
def onesIn : Nat → Nat → Nat
  | 0, _ => 0
  | n + 1, v => v % 2 + onesIn n (v / 2)

/-- A byte with one half replaced by that of another (R310). -/
def putNibble (high : Bool) (old new : Byte) : Byte := if high then (old &&& 0x0F) ||| (new &&& 0xF0) else (old &&& 0xF0) ||| (new &&& 0x0F)

end Sys2Proof.Machine
end

