-- ==== Sys2Proof/Machine/Parts.lean ====
section
/-! DEFINITION. The parts of the state of one Lanirex 9180 package, as plain data: every piece of state that the spec names
(INVENTORY.md lists each with its rule). -/

namespace Sys2Proof.Machine

/-- A program counter: a global byte address of 57 bits (R88, R203). -/
abbrev Pc := BitVec 57

/-- Who runs a stream (R120): a wave of a resident block, a block's matrix sequencer, or the command processor for one
hardware queue. A block id is core × 16 + block slot. -/
inductive Agent where
  | wave (blk wave : Nat)
  | seq (blk : Nat)
  | cp (q : Nat)
  deriving DecidableEq, Repr

/-- The instruction in hand (R35): who issues it, its active lanes, the quarter tokens paid for it (R166) and its yield bit
(R52). -/
structure Issue where
  agent : Agent
  active : LaneSet
  price : Nat
  yields : Bool := false
  deriving DecidableEq, Repr

/-- What moves next (log 2): an agent that issues, or an event. -/
inductive Turn where
  /-- An agent offers its instruction: it claims or issues. -/
  | agent (a : Agent)
  /-- An agent issues an instruction whose claim has just been paid, in these lanes, at a base price. -/
  | issue (a : Agent) (lanes : LaneSet) (base : Nat)
  /-- The second instruction of a pair that has been paid (R50): its lanes, PC and base price. -/
  | second (a : Agent) (lanes : LaneSet) (pc : Pc) (base : Nat)
  | ev (i : Instr)
  deriving DecidableEq, Repr

/-! ### Lanes and waves -/

/-- One lane waiting in WAITA (R511). -/
structure WaitA where
  cmp : WCmp
  w64 : Bool
  acq : Option Scope
  ea : Dword
  comparand : Dword
  deriving DecidableEq, Repr

/-- What a blocked lane waits for (R34). `again` waits leave the lane at its instruction, which issues again; the others
leave it at the instruction that follows. -/
inductive Wait where
  /-- BAR, BARW: the barrier's phase must differ from this one (R295). -/
  | barrier (n : BitVec 4) (phase : Bool)
  /-- MBWAIT (R461). -/
  | mbarrier (n : BitVec 4) (phase : Bool)
  /-- BAR.launch, BARW.launch: the launch barrier's phase must differ (R295, R401). -/
  | launchBar (phase : Bool)
  /-- Released from the launch barrier and not yet admitted (R198). -/
  | admission
  /-- SLEEP until an always-on count (R504). -/
  | sleep (deadline : Dword)
  /-- WAITA (R511). -/
  | waita (w : WaitA)
  /-- BCW: every barrier named by the instruction's lanes must read remaining = 0, this lane's at a scratchpad offset; again
  (R290). -/
  | bcw (off : Nat)
  /-- QPUSH or QPOP of m lanes, blocked since a step; served in that order, with the lane's handle or the destination (R292,
  R293). -/
  | queue (q : BitVec 3) (push : Bool) (m since : Nat) (dst : Opnd) (val : Word)
  /-- Room in request-engine queues; again (R286, R484). -/
  | room (mask : BitVec 4) (n : Nat)
  /-- Earlier writes must be visible: FENCE, releases, GSIG, LAUNCH; again (R432, R266). -/
  | order (s : Scope)
  /-- Promotion acknowledgements outstanding; ACQP completes at the event (R278). -/
  | acqp (s : Scope)
  /-- No free launch slot; again (R329). -/
  | launchSlot
  /-- Chain trackers short; again (R359). -/
  | reply
  /-- A fetch line of another package, at this address; again (R97, R209). -/
  | line (addr : Nat)
  /-- The home of an access cannot be reached; again (R181, R200, R393). -/
  | home
  /-- The next clock; again (R293). -/
  | turn
  deriving DecidableEq, Repr

/-- The lane states of R34. -/
inductive LaneSt where
  | live
  | blocked (w : Wait)
  | sleeping (leader : Nat)
  | exited
  deriving DecidableEq, Repr

/-- One lane (R34, R67, R73, R82). -/
structure Lane where
  /-- v0 to v255; unlisted registers are zero (R84). -/
  v : Tbl Word
  /-- The tag file: bit k is the tag of v4k to v4k+3 (R71). -/
  tags : BitVec 64
  pc : Pc
  st : LaneSt
  /-- Restart-PC shadow (R74). -/
  restart : Option Pc
  /-- %chain (R82). -/
  chain : Word
  /-- The scope of a FENCE after which the lane has not yet written: its next global write is the release that the promotion
  log records (R275, R432). -/
  fenced : Option Scope
  /-- The price of the instruction at pc is already paid: it waited and issues again (R164, R511). -/
  paid : Bool
  /-- The target bit of the slot at pc is still to be checked: its line could not be read as the lane entered it (R93). -/
  check : Bool := false
  /-- A release at .sys waits at pc: number of the first posted write that it need not await (R266). -/
  waitsTo : Option Nat := none
  deriving DecidableEq, Repr

/-- One register write of a pending result (R112): a lane register, or a uniform register. -/
structure RegWrite where
  uni : Bool
  lane : Nat
  reg : Nat
  val : Word
  deriving DecidableEq, Repr

/-- How a peer reply or a chain reply lands in the destination. -/
structure Landing where
  dst : Opnd
  size : LdSize
  deriving DecidableEq, Repr

/-- One access of a lane at another package (R524): what it asks for and, for a load, the bytes that the region store buffer
held over it at issue (R241). -/
structure LaneReq where
  lane : Nat
  op : PeerOp
  va : Nat
  size : Nat
  data : List Byte
  above : List (Option Byte)
  deriving DecidableEq, Repr

/-- Where a lane's address lies (R204): a scratchpad offset, or a global address, with whether it came through the stack
aperture and whether its bytes lie inside the scratchpad or the stack. -/
inductive Steer where
  | spad (off : Nat) (inside : Bool)
  | stack (va : Nat) (inside : Bool)
  | global (va : Nat)
  deriving DecidableEq, Repr

/-- A lane of an ATOM as it was issued (R399): its address, operand and comparand. -/
structure AtomLane where
  lane : Nat
  place : Steer
  x : Nat
  cmp : Nat
  deriving DecidableEq, Repr

/-- A lane of an LDCHAIN as it was issued (R452): its descriptor and start pointer, and where its first read goes. -/
structure ChainLane where
  lane : Nat
  /-- Descriptor offset. -/
  off : Nat
  desc : FetchLine
  /-- Start pointer, exact through a capability (R223). -/
  p : Int
  first : Steer
  deriving DecidableEq, Repr

/-- What lanes of an issued instruction have still to perform at this package, with the operands captured at issue: it was
held by a translation fault (R239), or its lanes at other packages go first (R524, R15). -/
inductive Again where
  | load (acq : Option Scope) (xfer fresh : Bool) (lanes : List (Nat × Steer))
  | atom (op : AOp) (w64 signed : Bool) (scope : Scope) (order : Order) (lanes : List AtomLane)
  | chain (nf : Bool) (lanes : List ChainLane)
  deriving DecidableEq, Repr

/-- A long-latency result not yet written (R112, R113). -/
structure Pending where
  id : Nat
  lanes : LaneSet
  /-- Lanes whose reply is still outstanding: peer lanes and chains. -/
  waiting : LaneSet
  /-- Instructions that each lane may still issue before the result is written. -/
  left : List (Nat × Nat)
  writes : List RegWrite
  /-- Quads whose tag takes a value with the result: lane, quad, tag (R450). -/
  tagged : List (Nat × Nat × Bool)
  landing : Option Landing
  /-- The result is that of an LDCHAIN (R452). -/
  isChain : Bool
  /-- The price paid, which a trap of the reply returns (R166). -/
  price : Nat
  /-- The instruction's PC and active lanes, for a trap of a reply (R15, R362). -/
  pc : Pc := 0
  active : LaneSet := 0
  /-- FPSTAT flags that the instruction sets as it completes (R226). -/
  flags : BitVec 6 := 0
  /-- The acquire that the instruction makes as it completes (R256). -/
  acq : Option Scope := none
  /-- What the lanes that wait for replies asked of other packages. -/
  reqs : List LaneReq := []
  /-- What is still to be performed here. -/
  again : Option Again := none
  /-- Registers written by replies as they came, as they stood before: a poisoned reply takes them back (R15). -/
  undo : List RegWrite := []
  undoTags : List (Nat × Nat × Bool) := []
  /-- Issued inside the wave's open region (R245). -/
  inRgn : Bool := false
  /-- Lanes that an abort has taken back to their restart PC since (R245), and whether the instruction's own fault did. -/
  undone : LaneSet := 0
  aborter : Bool := false
  /-- Its release waits: number of the first posted write that it need not await (R266). -/
  waitsTo : Option Nat := none
  deriving DecidableEq, Repr

/-- An operand-store entry (R110). -/
structure OpEntry where
  reg : Nat
  vals : List Word
  lanes : LaneSet
  deriving DecidableEq, Repr

/-- Where one store of a region goes: a storage byte of this package, or a peer address. -/
inductive Loc where
  | home (sa : Nat)
  | peer (va : Nat)
  deriving DecidableEq, Repr

/-- Where a store allocates its line, as its hint asks (R114, R216): L1 and then the die cache, L1 and then the home, the die cache,
or the home slice only. -/
inductive Alloc where
  | l1 | l1Only | die | home
  deriving DecidableEq, Repr

/-- One buffered store, or the release that a FENCE places in the buffered order (R241, R243). -/
structure BufStore where
  lane : Nat
  va : Nat
  loc : Loc
  data : List Byte
  /-- The store is a capability transfer: its quad's tag as R225 keeps it. -/
  tag : Option Bool
  rel : Option Scope
  isFence : Bool
  alloc : Alloc := .l1
  /-- It waits as a release at .sys: number of the first posted write that it need not await (R266). -/
  waitsTo : Option Nat := none
  deriving DecidableEq, Repr

/-- Region state (R73, R241): the buffered stores in program order. -/
structure Region where
  isOpen : Bool
  stores : List BufStore
  deriving DecidableEq, Repr

/-- An instruction held by a translation fault, in the lanes it holds (R239, R245, R524). -/
structure Held where
  lanes : LaneSet
  ctx : Nat
  granule : Nat
  /-- The owner is another package, whose notice releases it (R250). -/
  remote : Bool
  /-- The wave's region aborted and the wave waits before it reruns (R245 step 5). -/
  abortWait : Bool
  /-- The issued instruction that is held, by its pending result: its lanes have moved on within its window (R239). -/
  pend : Option Nat := none
  deriving DecidableEq, Repr

/-- Rotation state (R38). -/
structure Rot where
  count : Nat
  /-- Lanes of the latest counted issue; in a sweep, lanes that issued with the entry in service. -/
  last : LaneSet
  /-- Snapshot entries not yet ended. -/
  snap : List LaneSet
  /-- Issues of the entry in service. -/
  served : Nat
  deriving DecidableEq, Repr

/-- One wave (R73, R80, R82). -/
structure Wave where
  lanes : List Lane
  /-- w0 to w63. -/
  w : Tbl Word
  /-- Tile size s (R41). -/
  s : Nat
  rot : Rot
  /-- The rotation state that a trap has suspended (R39). -/
  rotKept : Rot := { count := 0, last := 0, snap := [], served := 0 }
  pend : List Pending
  pendNext : Nat
  opStore : List OpEntry
  region : Region
  /-- Stores of a region that has closed, which are still to be performed behind a release at .sys of the same order (R243). -/
  commit : List BufStore := []
  fpstat : BitVec 6
  /-- Recorded phases of b0 to b15 (R295). -/
  phases : BitVec 16
  /-- Recorded phase of the launch barrier. -/
  launchPhase : Bool
  /-- Popped and not returned slots of q0 to q7 (R292). -/
  popped : List Nat
  trapMode : Bool
  trapped : LaneSet
  trapCause : Word
  trapPc : Pc
  /-- %clkhi latched by the latest read of %clklo (R83). -/
  clkhi : Option Word
  /-- Least valid charge since the wave's latest read of %capq (R83). -/
  capqMin : BitVec 16
  /-- Token-stall clocks (R176). -/
  stall : Word
  held : List Held
  /-- Clocks for which the wave has offered a ready run without issuing (R49). -/
  offered : Nat
  /-- The wave's turn has ended: not chosen in the next clock (R52). -/
  yielded : Bool
  /-- Acknowledgements of other packages that an ACQP of the wave awaits (R278, R364). -/
  acks : List Nat
  deriving DecidableEq, Repr

/-! ### Per-block objects -/

/-- A numbered barrier (R75). -/
structure Barrier where
  format : Word
  latched : Bool
  phase : Bool
  arrived : Nat
  expected : Nat
  /-- The format word at the latest release (R296). -/
  released : Word := 0
  deriving DecidableEq, Repr

/-- The state of one queue slot (R292). -/
inductive SlotSt where
  | free
  | filling (bytes : Nat)
  | pushed
  | engineFilled
  | popped
  deriving DecidableEq, Repr

/-- A named scratchpad queue (R76). -/
structure SpQueue where
  base : Nat
  size : Nat
  count : Nat
  filled : Nat
  free : Nat
  head : Nat
  tail : Nat
  slots : List SlotSt
  /-- The queue has served an instruction or an engine event in this clock (R293). -/
  served : Bool := false
  deriving DecidableEq, Repr

/-- A parameter window (R78), with the physical addresses of its 64 KiB pages at launch and the bytes there that were not zero,
by address: a page whose translation the driver removes early may go on reading as it did (R227). -/
structure Param where
  bound : Bool
  base : Nat
  size : Nat
  frames : List (Nat × Nat) := []
  held : List Host.Cell := []
  deriving DecidableEq, Repr

/-- A layout register: the record read by MLAY with its origins and hint (R302, R464). -/
structure LayReg where
  record : BitVec 256
  orow : Int
  ocol : Int
  hint : BitVec 3
  deriving DecidableEq, Repr

/-- Bindings of MSCL (R305). -/
structure Binds where
  sa : Option (BitVec 3)
  sb : Option (BitVec 3)
  za : Option (BitVec 3)
  zb : Option (BitVec 3)
  zca : Byte
  zcb : Byte
  zst : Byte
  deriving DecidableEq, Repr

/-- An MMA in progress: what it captured at issue, and its next column (R307, R316, R456). -/
structure MmaRun where
  c0 : Nat
  n : Nat
  col : Nat
  la : LayReg
  lb : LayReg
  fw : Word
  binds : Binds
  scaleA : Option LayReg
  scaleB : Option LayReg
  zeroA : Option LayReg
  zeroB : Option LayReg
  hint : BitVec 3
  since : Dword
  deriving DecidableEq, Repr

/-- Run state of a matrix sequencer (R298, R313, R314). -/
inductive SeqSt where
  | absent
  | running
  /-- Waiting in MWAIT (R312). -/
  | waiting (n : BitVec 4)
  /-- Waiting for the array, or running an MMA (R307). -/
  | mma
  /-- A TFU read, store or fetch waits on translation faults (R315): the granules still awaited. -/
  | heldAt (granules : List Nat)
  /-- Lines of other packages that the instruction reads are on their way. -/
  | filling (lines : List Nat)
  /-- The home of a line that it reads cannot be reached (R181, R200, R393). -/
  | homeAway
  /-- MSIG or MEND waits for earlier stores (R313). -/
  | draining
  | ended
  | faulted
  deriving DecidableEq, Repr

/-- A matrix sequencer (R79, R80, R298 to R316). -/
structure Seq where
  st : SeqSt
  pc : Pc
  /-- The stream's first slot has been fetched and its target bit checked (R93). -/
  entered : Bool
  m : List Word
  x : List LayReg
  binds : Binds
  /-- Format word in force (R312). -/
  fw : Word
  /-- Recorded phases of b0 to b15 (R312). -/
  phases : BitVec 16
  bankCount : Word
  mma : Option MmaRun
  mstat : BitVec 5
  /-- Flags set in this clock, which a clearing write of the same clock leaves set (R81). -/
  mstatNow : BitVec 5 := 0
  /-- Accumulator columns of the block (R308). -/
  cols : Nat
  /-- Accumulators by column × 128 + row; unlisted values are +0. -/
  acc : Tbl Word
  /-- The claim of the instruction at pc is paid (R162). -/
  paid : Bool
  /-- The format word of the release that ended the sequencer's wait in MWAIT (R295, R296). -/
  passed : Option Word := none
  deriving DecidableEq, Repr

/-- Why a block stops, which decides the status it retires with (R61, R63, R238). -/
inductive Ending where
  | ok | cancelled | failed | notRunTwice
  deriving DecidableEq, Repr

/-- A resident block (R44, R45, R73 to R79, R84). -/
structure Block where
  /-- Launch slot (R330). -/
  launch : Nat
  index : Nat
  ctx : Nat
  prio : Nat
  /-- p0 of R46. -/
  p0 : Nat
  /-- Lane registers of a wave, rounded up to the granule (R45, R68). -/
  regs : Nat
  /-- Scratchpad size in bytes (R45). -/
  spadSize : Nat
  entry : Pc
  /-- The entry line has been fetched and its target bit checked (R93). -/
  entered : Bool
  /-- Order of placement: age (R49). -/
  age : Nat
  waves : List Wave
  spad : List Host.Cell
  /-- Tagged scratchpad quads. -/
  spadTags : List Nat
  bars : List Barrier
  queues : List SpQueue
  params : List Param
  trapOnParam : Bool
  seq : Seq
  /-- Stopped at an instruction boundary, and why (R63, R314, R496). -/
  stopped : Option Ending
  /-- Stopped at an instruction boundary to be saved by pre-emption (R338). -/
  saving : Bool
  deriving DecidableEq, Repr

/-! ### Cores -/

/-- A token claim that waits (R162, R163). Each of its instructions, one or the two of a pair (R50), is named by the cells of the
price table of which it takes the dearest, so that a new table and a new operating point price it again (R161, R169). -/
structure Claim where
  /-- 0 to 3 the partitions, 4 the array and its sequencers, 5 the request engine (R164). -/
  claimant : Nat
  agent : Option Agent
  lanes : LaneSet
  cells : List (List (Nat × Nat))
  /-- It has been paid for before: the instruction issues again, in its turn. -/
  free : Bool := false
  deriving DecidableEq, Repr

/-- Kinds of request-engine entry (R273, R283, R368). -/
inductive ReKind where
  /-- A copy-request record (R283). -/
  | copy
  /-- A one-sided record (R368). -/
  | oneSided
  /-- A fence entry with its mask and number (R273). -/
  | fence (mask : BitVec 4) (id : Nat)
  deriving DecidableEq, Repr

/-- The instance that a collective's record belongs to (R379): the collective, the instance, and the group's members. -/
structure Inst where
  c : Nat
  m : Nat
  members : List Nat
  deriving DecidableEq, Repr

/-- A request-engine entry (R285, R286). -/
structure ReEntry where
  kind : ReKind
  /-- The 64 bytes of the record. -/
  record : List Byte
  blk : Nat
  /-- Age of the submitting block, which tells it from a later block in its slot. -/
  age : Nat
  launch : Nat
  ctx : Nat
  /-- Bytes moved so far. -/
  done : Nat
  /-- Bytes counted so far (R289, R370). -/
  counted : Nat
  /-- The queue slot that an op 1 request has taken (R292). -/
  slot : Option Nat
  inst : Option Inst
  /-- Bytes of the line in flight, to be counted when its acknowledgements are in, and whether with poison. -/
  step : Nat
  poisoned : Bool
  /-- Acknowledgements of the line, or of the signal, still to arrive. -/
  acks : Nat
  /-- The line's source has been asked of its owner. -/
  asked : Bool
  /-- Bytes gathered of the chunk of an MPUT.red, and whether one of its lines was poisoned (R373, R375). -/
  chunk : List Byte
  chunkBad : Bool
  /-- Contributions sent whose results have not been delivered, and the chunks already counted here (R374, R375). -/
  sent : List RedMsg
  delivered : List Nat
  /-- The signal has been sent (R370). -/
  signalled : Bool
  /-- A fatal answer has ended the moving of lines (R288). -/
  fatal : Bool
  /-- Held by a translation fault (R288): its granule. -/
  held : Option Nat
  /-- Claims paid for the next line (R162). -/
  paid : Nat
  /-- Number of the first posted write that the entry need not await: those of its block before it come first (R271). -/
  after : Nat := 0
  /-- The wave that submitted the entry, and its results from other packages that were outstanding then (R271). -/
  wave : Nat := 0
  pends : List Nat := []
  /-- The line in hand whose write has not been paid for yet (R162, R163). -/
  got : Option (List Byte) := none
  deriving DecidableEq, Repr

/-- An entry of the promotion log (R276), oldest first. -/
structure LogEntry where
  scope : Scope
  slot : BitVec 12
  blk : BitVec 16
  gen : Word
  deriving DecidableEq, Repr

/-- A promotion waiting at a core (R278): the tags, and who waits for the acknowledgement. -/
structure Promo where
  scope : Scope
  tags : List (Nat × Nat)
  local? : Option (Nat × Nat)
  /-- Package, identifier, and the step in which the request came, which joins its targets. -/
  remote : Option (Nat × Nat × Nat)
  /-- Once it has been served: the generation up to which posted writes are awaited. -/
  upTo : Option Word
  /-- The job whose context serves a promotion of another package (R355, R356). -/
  job : BitVec 16 := 0
  deriving DecidableEq, Repr

/-- A lane chain being tracked (R359, R362). -/
structure Tracker where
  id : Nat
  attempt : Nat
  timeouts : Nat
  blk : Nat
  wave : Nat
  lane : Nat
  pend : Nat
  nf : Bool
  desc : FetchLine
  start : Dword
  deadline : Dword
  result : Option ChainEnd
  deriving DecidableEq, Repr

/-- One core (R20, R44 to R47, R164, R169, R275, R285). -/
structure Core where
  /-- Core bucket, quarter tokens. -/
  bucket : Nat
  reservation : Option Nat
  claims : List Claim
  /-- L1 size in KiB, none until a block chooses it (R47). -/
  l1Kib : Option Nat
  /-- The launch whose felted group the core's cluster runs (R59, R215). -/
  felted : Option Nat
  reQueues : List (List ReEntry)
  /-- Place in the weighted round robin of the queues (R287). -/
  reRotor : Nat
  fenceNext : Nat
  log : List LogEntry
  writeGen : Word
  promos : List Promo
  trackers : List Tracker
  /-- Cached fetch lines (R95, R97): translated storage line and bits. -/
  icache : List (Nat × FetchLine)
  /-- Fetch lines being refetched after a parity disagreement (R95). -/
  refetch : List Nat
  /-- Block whose MMA the array serves (R307). -/
  array : Option Nat
  /-- Self-test granule in progress (R190). -/
  selfTest : Bool
  /-- The queue whose next line the request engine claims, until it is paid (R163). -/
  reNext : Option Nat := none
  /-- Place in the weighted round robin of the queues of the collective class, and the class whose turn is next: 0 copy,
  1 collective (R287). -/
  reRotorColl : Nat := 0
  reTurn : Nat := 0
  deriving DecidableEq, Repr

/-! ### Dies, stacks and ports -/

/-- Holds that set a die's cap to 2 (R180). -/
structure Holds where
  volt : Bool
  coolant : Bool
  caseTemp : Bool
  capacitor : Bool
  sensor : Bool
  deriving DecidableEq, Repr

/-- One temperature sensor and its history (R201, R202). -/
structure Sensor where
  cls : Nat
  /-- Latest reading, units of 1/16 °C. -/
  reading : Int
  subst : Bool
  temp : Int
  inRange : Nat
  unchanged : Nat
  /-- The neighbour median when the reading last changed. -/
  medRef : Option Int
  far : Nat
  near : Nat
  deriving DecidableEq, Repr

/-- An RHINT queue entry (R191). -/
structure HintEntry where
  /-- First virtual line of the range, and its lines. -/
  line : Nat
  count : Nat
  interval : Nat
  /-- Storage lines of the range, on pages resident when the entry was placed, that have not been prefetched yet. -/
  lines : List Nat := []
  deriving DecidableEq, Repr

/-- Who waits on a merge entry (R233, R523). -/
inductive Waiter where
  | wave (blk wave : Nat)
  | seq (blk : Nat)
  | engine (core q : Nat)
  | cp (q : Nat)
  | remote (srcPkg : Nat)
  /-- A posted write held at its owner (R251). -/
  | posted (req : PeerReq)
  deriving DecidableEq, Repr

/-- A merge-table entry (R233). -/
structure MergeEntry where
  ctx : Nat
  granule : Nat
  reported : Bool
  waiters : List Waiter
  /-- An incoming scale-out access met the entry: it has no waiter (R234, R366). -/
  sco : Bool := false
  deriving DecidableEq, Repr

/-- A fault record (R234), with the merge entry that it reports. -/
structure FaultRec where
  /-- The merge table: 0 to 7 a die's, 8 the I/O die's (R523). -/
  table : Nat
  va : Nat
  srcPkg : Nat
  ctx : Nat
  kind : Nat
  access : Nat
  level : Nat
  remote : Bool
  deriving DecidableEq, Repr

/-- One compute die. -/
structure Die where
  op : Nat
  target : Nat
  phase : Nat
  cap : Nat
  status : Nat
  /-- A request that waits for the change in progress (R178): the target asked for, and whether the driver asks. -/
  waiting : Option (Nat × Bool)
  holds : Holds
  thermalCap : Nat
  tokCap : Nat
  balance : Nat
  ptr : Nat
  stallRatio : Dword
  cntMemory : Nat
  cntToken : Nat
  cntBarrier : Nat
  /-- Clocks of the interval in which the die's clock was not stopped (R514). -/
  cntClocks : Nat
  capqMin : BitVec 16
  capqCharge : BitVec 16
  failCount : Nat
  validSince : Nat
  droop : Bool
  sensors : List Sensor
  fewFlagged : Nat
  coolSamples : Nat
  hints : List HintEntry
  merge : List MergeEntry
  /-- Accesses that wait in the inbound FIFO while the clock stops (R181). -/
  fifo : List Instr
  inReset : Bool
  /-- Clocks of the die since its reset (R164). -/
  clocks : Nat := 0
  deriving DecidableEq, Repr

/-- One HBM stack (R200, R393). -/
structure Stack where
  hbmState : Nat
  target : Nat
  group : Nat
  status : Nat
  inReset : Bool
  deriving DecidableEq, Repr

/-- A flit in a replay buffer (R350): its number on the link, the packet that it carries (its place in the egress), its bytes. -/
structure TxFlit where
  no : Nat
  pkt : Nat
  bytes : List Byte
  deriving DecidableEq, Repr

/-- One Swiul port (R351 to R353). -/
structure Port where
  en : Bool
  st : Nat
  bucket : Nat
  retrains : Nat
  replays : Nat
  crc : Nat
  /-- Sequence number of the next flit to receive, and replays of that flit (R350). -/
  rxNext : Nat
  rxFails : Nat
  /-- Training attempts failed so far. -/
  attempts : Nat
  /-- Contents of delivered flits. -/
  delivered : List (List Byte)
  /-- Number of the next flit to send, the flits that the receiver has not acknowledged, and all that has been put on the link (R350). -/
  txNext : Nat := 0
  tx : List TxFlit := []
  sent : List (List Byte) := []
  deriving DecidableEq, Repr

/-! ### Memory -/

/-- A written byte that is still in a write-back cache (R256): level 0 L1, 1 die cache. slice is the core whose L1 slice holds
the line (R215); noDie that its line is not to be allocated in the die cache (R114). -/
structure DirtyByte where
  sa : Nat
  val : Byte
  core : Nat
  lvl : Nat
  gen : Word
  birth : Dword
  slice : Nat := core
  noDie : Bool := false
  deriving DecidableEq, Repr

/-- The directory entry of a storage line (R348). -/
inductive DirEntry where
  | uncached
  | exact (pkgs : List Nat)
  | coarse (groups : BitVec 64)
  deriving DecidableEq, Repr

/-- A posted write that its owner has not acknowledged (R251, R266). -/
structure Posted where
  id : Nat
  core : Nat
  blk : Nat
  wave : Nat
  lane : Nat
  ctx : Nat
  gen : Word
  va : Nat
  data : List Byte
  /-- The writer is not a lane: 0 to 3 a queue of the request engine (R370), 4 the block's sequencer (R310), 8 + q the
  command processor for queue q (R503), 5 a discarded request. -/
  eng : Option Nat
  cls : Nat
  op : PeerOp
  /-- Collective and instance of a tagged write (R380). -/
  inst : Option (Nat × Nat)
  deriving DecidableEq, Repr

/-- A message that leaves the package on Swiul, PCI Express, MCTP or Ethernet (R345, R365, R386, R387). -/
inductive OutMsg where
  /-- A packet to a package: destination, class, sequence number, what it carries (R346, R355). -/
  | swiul (dst cls seq : Nat) (req : PeerReq)
  /-- A read or atomic reply, or a write acknowledgement, to a requester; poisoned replies carry no data. -/
  | reply (dst tag : Nat) (data : Option (List Byte)) (cls : Nat := 1)
  | ack (dst tag : Nat) (cls : Nat := 1)
  /-- Acknowledgement of adds of which some met a poisoned target line (R371). -/
  | ackPoison (dst tag : Nat) (cls : Nat := 1)
  /-- A posted write was dropped after a fatal answer, or as it was not authentic (R251, R356). -/
  | drop (dst tag : Nat) (cls : Nat := 1)
  /-- Fault-pending reply, and the notice of a granule's outcome (R250). -/
  | faultPending (dst tag granule : Nat)
  | notice (dst : Nat) (granule : NoticeOf) (fatal : Bool)
  | invalidate (dst va : Nat)
  | invalidateAck (dst va : Nat)
  | chain (dst : Nat) (pkt : ChainPkt)
  | chainReply (dst id attempt : Nat) (result : ChainEnd)
  | promote (dst : Nat) (p : RemotePromo)
  | promoteAck (dst id : Nat)
  /-- Ecolo intent: group, job, rank, rise, target (R195). -/
  | intent (grp job rank rise t : Nat)
  | collNotice (grp c m : Nat)
  /-- A tagged write of another package was refused (R380). -/
  | collRefused (dst c m tag : Nat)
  /-- A member's contribution to a chunk: to the combining endpoint, its refusal, and to the switches (R373, R374). -/
  | contribution (dst : Nat) (msg : RedMsg)
  | contributionRefused (dst : Nat) (msg : RedMsg)
  | reduction (grp : Nat) (msg : RedMsg) (plane : Nat := 0)
  /-- The result of a chunk that the endpoint combined (R374). -/
  | redResult (dst : Nat) (msg : RedMsg)
  | time (dst : Nat) (count : Dword)
  /-- A far request (R365): bytes [off, off + n) of a record; imm is its signal. -/
  | far (conn : Nat) (record : List Byte) (off n : Nat) (imm : Bool) (data : List Byte)
  | scoReply (port qpn : Nat) (ok : Bool) (data : List Byte)
  | msix (vec : Nat)
  /-- Completion of a host read; none is Unsupported Request (R383). -/
  | hostReply (data : Option (List Byte))
  | mctp (bytes : List Byte)
  deriving DecidableEq, Repr

/-- The header of a Swiul packet (R345, R346, R356): the place of its message among those sent; its destination, none of a
multicast; its class and whether it is a response; its number; the key slot, the slot's counter and the GCM tag of an encrypted
one; the port that it has left by, none while it waits for one. -/
structure Egress where
  msg : Nat
  dst : Option Nat
  cls : Nat
  resp : Bool
  seq : Option Nat
  key : Option (Nat × Nat)
  tag : Option (BitVec 128)
  port : Option Nat
  deriving DecidableEq, Repr

/-! ### Scheduling -/

/-- A completion counter (R62). -/
structure Counter where
  status : Nat
  done : Bool
  cancel : Bool
  hard : Bool
  outstanding : Nat
  deriving DecidableEq, Repr

/-- A graph, phase or job slot (R330, R331). -/
structure LevelSlot where
  gen : Nat
  parent : Nat
  counter : Counter
  deriving DecidableEq, Repr

/-- Which command of which queue created a launch (R339). -/
structure CmdRef where
  q : Nat
  seq : Nat
  deriving DecidableEq, Repr

/-- A launch slot (R329, R330). -/
structure LaunchSlot where
  gen : Nat
  counter : Counter
  /-- Between creation and completion. -/
  alive : Bool
  /-- Checked by the dispatcher (R58). -/
  dispatched : Bool
  record : List Byte
  desc : List Byte
  ctx : Nat
  prio : Nat
  order : Nat
  /-- Launch slot of the block that created it (R61). -/
  creator : Option Nat
  node : Option Nat
  cmd : Option CmdRef
  params : List Param
  caps : List Quad
  /-- The status with which the dispatcher completes the launch, already decided at its creation (R227, R413). -/
  early : Option Nat
  /-- Next block to place (R57). -/
  nextBlk : Nat
  /-- Blocks to place again after a die reset (R342). -/
  rerun : List Nat
  /-- Core that runs or ran each placed block (R279). -/
  coreOf : List (Nat × Nat)
  /-- A block was recorded failed-not-run-twice (R342). -/
  notRunTwice : Bool
  /-- The launch-wide barrier: phase and arrivals (R295). -/
  barPhase : Bool
  barArrived : Nat
  deriving DecidableEq, Repr

/-- A graph node slot (R332): state and the words that the driver wrote. -/
structure Node where
  st : Nat
  word0 : Dword
  word1 : Dword
  word2 : Dword
  pred : Nat
  deriving DecidableEq, Repr

/-- A block saved by pre-emption (R338), with its unstarted engine entries by queue. -/
structure Saved where
  blk : Block
  die : Nat
  coop : Bool
  entries : List (Nat × ReEntry)
  log : List LogEntry
  /-- The core that it left. -/
  core : Nat := 0
  deriving DecidableEq, Repr

/-- A request-engine entry off its core, with its queue (R338). -/
structure Parked where
  core : Nat
  q : Nat
  entry : ReEntry
  deriving DecidableEq, Repr

/-- An accepted command (R321, R339). -/
structure Cmd where
  seq : Nat
  entry : List Byte
  started : Bool
  ended : Bool
  fault : Nat
  /-- Launches of the command not yet complete. -/
  live : Nat
  /-- Worst status so far (R339). -/
  status : Nat
  complete : Bool
  deriving DecidableEq, Repr

/-- Why a control stream is not ready (R322). -/
inductive CpWait where
  | no
  /-- WAITV: its test, tried again (R326). -/
  | test (w : WaitA)
  /-- LAUNCH without a free slot (R329); again. -/
  | slot
  /-- SIGV.done (R326); again. -/
  | done
  /-- A release whose earlier writes are not yet visible; again. -/
  | order
  /-- A write to a peer that its owner has not acknowledged (R503). -/
  | ack
  /-- The home of an access cannot be reached (R181, R200, R393); again. -/
  | home
  /-- A translation fault (R326, R447, R323): the granule; again. -/
  | held (granule : Nat)
  deriving DecidableEq, Repr

/-- A hardware queue (R318 to R324). -/
structure Hwq where
  cfg0 : Dword
  cfg1 : Dword
  accept : Option Nat
  done : Nat
  announced : Nat
  cmds : List Cmd
  /-- The stream in progress: its command, next slot and slots left (R323). -/
  cur : Option Nat
  pc : Pc
  left : Nat
  /-- The stream's next line is its first (R323: target bit). -/
  first : Bool
  w : Tbl Word
  wait : CpWait
  /-- A ring access waits on a translation fault (R320, R321): its granule, and the CP fault of a fatal answer. -/
  ringWait : Option (Nat × Nat)
  /-- A ring write was answered fatal: it is made again once halt is cleared (R324). -/
  ringDead : Bool
  /-- A stack's reset took the ring header: its words are to be rewritten (R342). -/
  rewrite : Bool := false
  deriving DecidableEq, Repr

/-- A journal record (R341): the acceptance of a command whose completion is not yet durable. -/
structure JrnRec where
  q : Nat
  seq : Nat
  entry : List Byte
  /-- Its 64-byte place in both regions. -/
  slot : Nat := 0
  deriving DecidableEq, Repr

/-- Registers of one context (R336, R384). -/
structure Ctx where
  aper : Dword
  trnRoot : Dword
  reQcfg : Word
  sched : Dword
  save : Dword
  down : Dword
  fabric : Word
  trap : Dword
  deriving DecidableEq, Repr

/-! ### Governor, Milliner and package registers -/

/-- A power intent for one target interval (R195). -/
structure Intent where
  job : Nat
  rank : Nat
  rise : Nat
  t : Nat
  admitted : Bool
  deferred : Bool
  deriving DecidableEq, Repr

/-- The limits of GOV_CFG and GOV_SLEW (R186). -/
structure GovLim where
  rated : Nat
  floor : Nat
  stallTh : Nat
  cluCost : Nat
  down : Nat
  up : Nat
  deriving DecidableEq, Repr

/-- The governor (R183 to R198). -/
structure Gov where
  /-- The limits in force, and as Milliner last wrote them: they apply from the next interval start (R185). -/
  lim : GovLim
  limNext : GovLim
  /-- GOV_STATE as it was last written (R187, R517). -/
  stat : Dword
  g : Nat
  /-- Batting rate in force. -/
  bat : Nat
  /-- Resume pointer (R198). -/
  ptr : Nat
  riseLeft : Nat
  ecolo : Dword
  held : List Intent
  received : List Intent
  /-- Quarter tokens paid in this interval (R184). -/
  paid : Nat
  bb : Nat
  batTest : Nat
  batScrub : Nat
  batPref : Nat
  /-- Units placed in this interval: test, scrub, pref. -/
  usedTest : Nat
  usedScrub : Nat
  usedPref : Nat
  batStat : Dword
  /-- Tick before which no batting unit starts (R189). -/
  batHold : Nat
  scrubNext : Nat
  capHigh : Nat
  capLow : Nat
  deriving DecidableEq, Repr

/-- Token registers of the package (R171 to R173). -/
structure Tok where
  reserve : Nat
  coreFill : Nat
  /-- Reserve and fill written by Milliner, effective at the next tick. -/
  stagedCfg : Option (Nat × Nat)
  weights : List Nat
  cap : Nat
  balance : Nat
  /-- Effective and staged price tables, 12 × 16, row by row. -/
  price : List Nat
  priceStaged : List Nat
  opPrice : List Nat
  opPriceStaged : List Nat
  commit : Bool
  deriving DecidableEq, Repr

/-- A Milliner event record (R392). -/
structure EvRec where
  seq : Nat
  time : Dword
  kind : Nat
  unit : Nat
  index : Nat
  data : List Byte
  deriving DecidableEq, Repr

/-- A firmware slot (R389). -/
structure FwSlot where
  image : List Byte
  valid : Bool
  version : Nat
  deriving DecidableEq, Repr

/-- Milliner (R387 to R392). -/
structure Mil where
  slotA : FwSlot
  slotB : FwSlot
  activeB : Bool
  nextB : Bool
  newImage : Bool
  rollback : Nat
  failedBoots : Nat
  log : List EvRec
  logSeq : Nat
  busy : Bool
  status : Nat
  request : List Byte
  response : List Byte
  spdm : Bool
  keys : List (Nat × BitVec 256)
  keyCount : List (Nat × Nat)
  deriving DecidableEq, Repr

/-- An early arrival of a collective, held in its stack's area (R380). -/
structure Early where
  c : Nat
  m : Nat
  ctx : Nat
  sa : Nat
  req : PeerReq
  deriving DecidableEq, Repr

/-- A chunk being combined at rank 0 on the endpoint path (R374). -/
structure Combine where
  grp : Nat
  seq : Word
  chunk : Nat
  /-- The first contribution, with which the others must agree (R375). -/
  first : RedMsg
  /-- Contributions folded so far, in the order of the fold; the partial sum of the leaf in progress, and that of the leaves
  before it (none: empty). -/
  folded : Nat
  leaf : List Word
  sum : List Word
  held : List RedMsg
  poisoned : Bool
  deriving DecidableEq, Repr

/-- Registers of the package that have no unit of their own (R384). -/
structure Pkg where
  shape : Dword
  swlId : Word
  timeEn : Bool
  timeLocked : Bool
  timeRef : Nat
  timeOffset : BitVec 16
  /-- Clocks by which the counter still slews, and clocks since it last did (R354). -/
  slew : Int
  slewPhase : Nat
  /-- Clocks since the last time message left (R354). -/
  timeSince : Nat := 0
  chainCfg : Word
  scoBase : Dword
  mcgBase : Dword
  collBase : Dword
  eaBase : Dword
  fltRing : Dword
  fltHead : Word
  fltTail : Word
  invalDone : Bool
  /-- The invalidation in progress: TRN_INVAL as written. -/
  inval : Dword
  jrnA : Dword
  jrnB : Dword
  rstBusy : Bool
  /-- The unit that RST_CTL resets: its kind and index as they stood at go. -/
  rstUnit : Option (Nat × Nat) := none
  rstCtl : Word
  rbPage : Word
  bar2Win : Dword
  /-- SCO_PORT: 8 records of 4 words. -/
  sco : List (List Dword)
  /-- MSI-X (R384, R386): vectors that are not masked, pending bits, and the table's address and data words by vector × 2. -/
  msixOpen : List Nat
  msixPend : List Nat
  msixTab : Tbl Dword
  vfs : List Nat
  deriving DecidableEq, Repr

end Sys2Proof.Machine
end

