-- ==== Sys2Proof/Machine/Reset.lean ====
section
/-! DEFINITION. The parts of the state at their reset and start values (the Reset columns of the register maps; spec/03_state.md
R84, R85; spec/18_host.md R393, R394). -/

namespace Sys2Proof.Machine

/-- All 32 lanes. -/
def allLanes : LaneSet := BitVec.allOnes 32

/-- A lane at wave start (R84). -/
def Lane.start (pc : Pc) : Lane :=
  { v := [], tags := 0, pc, st := .live, restart := none, chain := 0, fenced := none, paid := false }

/-- Rotation state at start (R85). -/
def Rot.start : Rot := { count := 0, last := 0, snap := [], served := 0 }

/-- A wave at its start (R84); its %capq minimum begins with the sample in force (R83). -/
def Wave.start (pc : Pc) (capq : BitVec 16) : Wave :=
  { lanes := copies (Lane.start pc) 32, w := [], s := 32, rot := Rot.start, pend := [], pendNext := 0, opStore := []
    region := { isOpen := false, stores := [] }, fpstat := 0, phases := 0, launchPhase := false
    popped := copies 0 8, trapMode := false, trapped := 0, trapCause := 0, trapPc := 0, clkhi := none
    capqMin := capq, stall := 0, held := [], offered := 0, yielded := false, acks := [] }

/-- A barrier at block start (R75). -/
def Barrier.start (waves : Nat) : Barrier :=
  { format := 0, latched := false, phase := false, arrived := 0, expected := waves }

/-- A queue that is not declared (R76). -/
def SpQueue.none : SpQueue :=
  { base := 0, size := 0, count := 0, filled := 0, free := 0, head := 0, tail := 0, slots := [] }

/-- A layout register at block start (R84). -/
def LayReg.start : LayReg := { record := 0, orow := 0, ocol := 0, hint := 0 }

/-- Bindings at block start (R305). -/
def Binds.start : Binds := { sa := none, sb := none, za := none, zb := none, zca := 0, zcb := 0, zst := 0 }

/-- A sequencer at block start (R84, R305, R312): absent without a stream. -/
def Seq.start (stream : Option Pc) (cols : Nat) : Seq :=
  { st := if stream.isSome then .running else .absent, pc := stream.getD 0, entered := false, m := copies 0 32
    x := copies LayReg.start 8, binds := Binds.start, fw := 0, phases := 0, bankCount := 0, mma := none, mstat := 0
    cols, acc := [], paid := false }

/-- A core after a reset (R169, R275). -/
def Core.reset : Core :=
  { bucket := 16384, reservation := none, claims := [], l1Kib := none, felted := none
    reQueues := [[], [], [], []], reRotor := 0, fenceNext := 0, log := [], writeGen := 0, promos := [], trackers := []
    icache := [], refetch := [], array := none, selfTest := false }

/-- A sensor at reset (R202). -/
def Sensor.reset : Sensor :=
  { cls := 0, reading := 0, subst := false, temp := 0, inRange := 0, unchanged := 0, medRef := none, far := 0, near := 0 }

/-- A die after bring-up (R172, R182, R194, R394 step 4). -/
def Die.reset : Die :=
  { op := 7, target := 7, phase := 0, cap := 7, status := 0, waiting := none
    holds := { volt := false, coolant := false, caseTemp := false, capacitor := false, sensor := false }
    thermalCap := 7, tokCap := 262144, balance := 262144, ptr := 0, stallRatio := 0
    cntMemory := 0, cntToken := 0, cntBarrier := 0, cntClocks := 0, capqMin := 65535, capqCharge := 65535
    failCount := 0, validSince := 0, droop := false, sensors := copies Sensor.reset 16, fewFlagged := 0
    coolSamples := 0, hints := [], merge := [], fifo := [], inReset := false }

/-- A stack at reset (R200). -/
def Stack.reset : Stack := { hbmState := 0, target := 0, group := 15, status := 0, inReset := false }

/-- A port at reset (R351 to R353). -/
def Port.reset : Port :=
  { en := false, st := 0, bucket := 0, retrains := 0, replays := 0, crc := 0, rxNext := 0, rxFails := 0
    attempts := 0, delivered := [] }

/-- A counter at reset (R62). -/
def Counter.reset : Counter := { status := 0, done := false, cancel := false, hard := false, outstanding := 0 }

/-- A graph, phase or job slot at reset. -/
def LevelSlot.reset : LevelSlot := { gen := 0, parent := 0, counter := Counter.reset }

/-- A launch slot at reset. -/
def LaunchSlot.reset : LaunchSlot :=
  { gen := 0, counter := Counter.reset, alive := false, dispatched := false, record := [], desc := [], ctx := 0
    prio := 0, order := 0, creator := none, node := none, cmd := none, params := [], caps := [], early := none, nextBlk := 0
    rerun := [], coreOf := [], notRunTwice := false, barPhase := false, barArrived := 0 }

/-- A node slot at reset (R332). -/
def Node.reset : Node := { st := 0, word0 := 0, word1 := 0, word2 := 0, pred := 0 }

/-- A hardware queue at reset (R319). -/
def Hwq.reset : Hwq :=
  { cfg0 := 0, cfg1 := 0, accept := none, done := 0, announced := 0, cmds := [], cur := none, pc := 0, left := 0
    first := false, w := [], wait := .no, ringWait := none, ringDead := false }

/-- A context at reset (R205, R231, R287, R336, R355, R496). -/
def Ctx.reset : Ctx :=
  { aper := 0, trnRoot := 0, reQcfg := 0, sched := 0, save := 0, down := 0, fabric := 0, trap := 0 }

/-- The base prices of R160, row by row. -/
def priceReset : List Nat :=
  copies 8 16 ++
  ([24, 24, 48, 48] ++ copies 24 12) ++
  ([40, 32, 32] ++ copies 40 13) ++
  ([96, 80, 80] ++ copies 96 13) ++
  copies 32 16 ++
  ([48, 48, 48, 96] ++ copies 48 12) ++
  ([64, 64, 64, 96, 160, 128, 192, 48] ++ copies 64 8) ++
  copies 16 16 ++
  copies 128 16 ++
  ([2400, 2400, 2560, 2560, 2048, 2560, 2048] ++ copies 2400 9) ++
  copies 32 16 ++
  copies 256 16

/-- OP_PRICE at reset: f0 to f7 (R173). -/
def opPriceReset : List Nat := [106, 124, 142, 162, 183, 206, 230, 255]

/-- Token registers at reset (R171 to R173). -/
def Tok.reset : Tok :=
  { reserve := 175, coreFill := 2048, stagedCfg := none, weights := copies 8 8, cap := 900000, balance := 0
    price := priceReset, priceStaged := priceReset, opPrice := opPriceReset, opPriceStaged := opPriceReset
    commit := false }

/-- GOV_CFG and GOV_SLEW at reset (R186). -/
def GovLim.reset : GovLim := { rated := 900, floor := 250, stallTh := 0x1000, cluCost := 7, down := 18, up := 36 }

/-- The governor at reset (R183, R186, R187, R192, R194). -/
def Gov.reset : Gov :=
  { lim := GovLim.reset, limNext := GovLim.reset, stat := BitVec.ofNat 64 (900 * 2 ^ 46), g := 900
    bat := 0, ptr := 0, riseLeft := 0, ecolo := 0, held := [], received := []
    paid := 0, bb := 0, batTest := 1172, batScrub := 172, batPref := 200, usedTest := 0
    usedScrub := 0, usedPref := 0, batStat := 0, batHold := 0, scrubNext := 0, capHigh := 248, capLow := 240 }

/-- Milliner at power-on, with the part's own firmware in slot A (log 4). -/
def Mil.reset : Mil :=
  { slotA := { image := [], valid := true, version := 0 }, slotB := { image := [], valid := false, version := 0 }
    activeB := false, nextB := false, newImage := false, rollback := 0, failedBoots := 0, log := [], logSeq := 0
    busy := false, status := 0, request := [], response := [], spdm := false, keys := [], keyCount := [] }

/-- Package registers at reset (the Reset columns of their maps); PKG_SHAPE is that of R30, with bit 24 clear: a 9180
package and not a 9180M (DESIGN CHOICE, log 75). -/
def Pkg.reset : Pkg :=
  { shape := BitVec.ofNat 64 (64 * 2 ^ 17 + 32 * 2 ^ 11 + 12 * 2 ^ 7 + 8 * 2 ^ 3), swlId := 0, timeEn := false
    timeLocked := false, timeRef := 0, timeOffset := 0, slew := 0, slewPhase := 0, chainCfg := 1000, scoBase := 0, mcgBase := 0, collBase := 0
    eaBase := 0, fltRing := 0, fltHead := 0, fltTail := 0, invalDone := true, inval := 0, jrnA := 0, jrnB := 0
    rstBusy := false, rstCtl := 0, rbPage := 0, bar2Win := 0, sco := copies (copies 0 4) 8, msixOpen := []
    msixPend := [], msixTab := [], vfs := [] }

end Sys2Proof.Machine
end

