-- ==== Sys2Proof/Machine/State.lean ====
section
/-! DEFINITION. The state of one Lanirex 9180 package (INVENTORY.md lists its parts with their rules), why a step can stop,
and the state after a package reset (spec/18_host.md R393, R394 steps 1 to 5). -/

namespace Sys2Proof.Machine

/-- The machine. -/
structure State where
  /-- Always-on count (R183). -/
  clk : Dword
  /-- Number of the next refill tick (R167). -/
  tick : Nat
  agenda : List Turn
  inbox : List (Nat × Instr)
  freeCtr : Nat
  issue : Option Issue
  /-- Partitions that have issued in this clock, as core × 4 + partition (R170). -/
  issuedParts : List Nat
  mem : List Host.Cell
  tags : List Nat
  poison : List Nat
  /-- Stacks whose lines a reset has lost; resets of dies, with the free counter that says which lines their home slices held
  dirty; and the lines of either that were written whole since, or that the latest reset did not take (R342). -/
  lostStacks : List Nat
  lostSlices : List (Nat × Nat)
  sound : List Nat
  dirty : List DirtyByte
  dir : List (Nat × DirEntry)
  /-- Peer lines copied here (R347), by address. -/
  peerCopies : List (Nat × List Byte)
  invalWait : List (Nat × Nat)
  /-- Lines asked of other packages for a copy, and whether an invalidation of the line has come since (R349). -/
  misses : List (Nat × Bool)
  /-- Answers to other packages that wait for the invalidations of a line (R349): line, the context that served, message. -/
  ackWait : List (Nat × Nat × OutMsg)
  posted : List Posted
  postedNext : Nat
  out : List OutMsg
  /-- Messages whose packets have their headers; messages sent under a key: place, slot and counter (R356); the headers. -/
  outDone : Nat
  seals : List (Nat × Nat × Nat)
  egress : List Egress
  /-- Next sequence number per destination × 8 + class, and per source × 8 + class (R346). -/
  seqOut : Tbl Nat
  seqIn : Tbl Nat
  reorder : List PeerReq
  reorderChains : List ChainPkt
  blocks : List (Nat × Block)
  /-- Number of the next pending result of a new wave, above those of blocks that have gone: a late reply finds no wave (R363). -/
  pendHigh : Nat
  /-- Fetch lines asked of other packages (R97, R209): core and line; and those that came back poisoned. -/
  fetchAsks : List (Nat × Nat)
  fetchBad : List (Nat × Nat)
  /-- MSEQ_STAT of each block slot (R314), which readback shows after the block has gone (R395). -/
  mseq : Tbl Dword
  cores : List (Nat × Core)
  dies : List Die
  hbms : List Stack
  ports : List Port
  ioMerge : List MergeEntry
  faultWait : List FaultRec
  ctxs : List (Nat × Ctx)
  hwqs : List (Nat × Hwq)
  journal : List JrnRec
  launches : List (Nat × LaunchSlot)
  launchOrder : Nat
  age : Nat
  graphs : List (Nat × LevelSlot)
  phases : List (Nat × LevelSlot)
  jobs : List (Nat × LevelSlot)
  nodes : List (Nat × Node)
  saved : List Saved
  /-- Pre-emptions in progress: context × 8 + die (R338). -/
  saving : List Nat
  /-- The context that was last pre-empted on each die, plus one. -/
  lastOut : Tbl Nat
  /-- Clusters held after a launch-wide barrier (R198). -/
  heldClusters : List Nat
  cpRotor : Nat
  gov : Gov
  tok : Tok
  mil : Mil
  pkg : Pkg
  /-- Supply readings that hold the dies at OP2 (R32, R33): which, and the clock since when it has been back in range. -/
  supplyOut : List (Nat × Option Nat)
  /-- Packets that wait for a new key: key slot and message (R356). -/
  keyWait : List (Nat × OutMsg)
  collNotices : List (Nat × Nat × Nat)
  early : List Early
  combine : List Combine
  /-- Chunks for which a lost notice has come: group, seq, chunk (R374). -/
  lost : List (Nat × Nat × Nat)
  /-- Far requests not yet acknowledged, oldest first: connection, core and queue (R365). -/
  farOut : List (Nat × Nat × Nat)
  /-- Granules of scale-out accesses that the driver answered as fatal: context and granule (R366). -/
  scoFatal : List (Nat × Nat)
  /-- Nodes signalled in this clock while they were not in state 1: an arming later in the clock counts the signal (R333). -/
  nodeSignals : List Nat
  /-- Unstarted engine entries, of blocks that have retired, that a pre-emption has taken off their cores (R338, R340). -/
  parked : List Parked
  /-- When each context began to run on a die: context × 8 + die, always-on count (R337). -/
  running : List (Nat × Nat)
  deriving DecidableEq, Repr

/-! ### Why a step can stop -/

/-- Reasons for a fault. The hardware itself never stops (R196 and the traps of R123 are next states). -/
inductive Fault where
  /-- An instruction was to be performed although no agent has it in hand, or the agent in hand does not exist. Raised by
  every meaning of an instruction; no step raises it, since a step names the agent first. Safe. -/
  | noIssuer
  deriving DecidableEq, Repr

/-- Reasons for a refusal. -/
inductive Refusal where
  /-- An arm of exec that has no meaning yet. Safe. -/
  | notModelled (mnemonic : String)
  deriving DecidableEq, Repr

/-- The machine right after a package reset: bring-up is done through step 5 of R394, every register holds the value of
its map's Reset column, memory is zero, no block is resident and no queue is enabled. Where the spec gives no value the
log names the one taken (log 4). -/
def State.reset : State :=
  { clk := 0, tick := 0, agenda := [], inbox := [], freeCtr := 0, issue := none, issuedParts := [], mem := [], tags := [], poison := [], lostStacks := [], lostSlices := [], sound := []
    dirty := [], dir := [], peerCopies := [], invalWait := [], misses := [], ackWait := [], posted := [], postedNext := 0, out := [], outDone := 0, seals := [], egress := [], seqOut := []
    seqIn := [], reorder := [], reorderChains := [], blocks := [], pendHigh := 0, fetchAsks := [], fetchBad := [], mseq := [], cores := [], dies := copies Die.reset 8, hbms := copies Stack.reset 32
    ports := copies Port.reset 48, ioMerge := [], faultWait := [], ctxs := [], hwqs := [], journal := []
    launches := [], launchOrder := 0, age := 0, graphs := [], phases := [], jobs := [], nodes := [], saved := [], saving := [], lastOut := []
    heldClusters := [], cpRotor := 0, gov := Gov.reset, tok := Tok.reset, mil := Mil.reset, pkg := Pkg.reset
    supplyOut := [], keyWait := [], collNotices := [], early := [], combine := [], lost := [], farOut := [], scoFatal := [], nodeSignals := [], parked := [], running := [] }

end Sys2Proof.Machine
end

