-- ==== Sys2Proof/Machine/Acc.lean ====
section
/-! DEFINITION. Reading and replacing parts of the state: cores, dies, contexts, queues, blocks, waves; numbering of
cores and dies (spec/03_state.md R82); prices and payment (spec/08_tokens.md R159 to R166); machine events. -/

namespace Sys2Proof.Machine

/-! ### Numbering -/

/-- The core of a block id (R44, R82). -/
def coreOf (blk : Nat) : Nat := blk / 16
/-- The die of a core (R19, R82: 48 cores a die). -/
def dieOf (core : Nat) : Nat := core / 48
/-- The cluster of a core (R20: 4 cores a cluster). -/
def clusterOf (core : Nat) : Nat := core / 4
/-- The cores of a die. -/
def coresOf (die : Nat) : List Nat := upFrom (die * 48) 48

/-! ### Parts of the state -/

/-- A core; a core that nothing has touched is as after its reset. -/
def State.core (s : State) (c : Nat) : Core := tget Core.reset s.cores c
def State.setCore (s : State) (c : Nat) (x : Core) : State := { s with cores := tset Core.reset s.cores c x }
def State.die (s : State) (d : Nat) : Die := lget Die.reset s.dies d
def State.setDie (s : State) (d : Nat) (x : Die) : State := { s with dies := lset s.dies d x }
def State.stack (s : State) (k : Nat) : Stack := lget Stack.reset s.hbms k
def State.setStack (s : State) (k : Nat) (x : Stack) : State := { s with hbms := lset s.hbms k x }
def State.port (s : State) (p : Nat) : Port := lget Port.reset s.ports p
def State.setPort (s : State) (p : Nat) (x : Port) : State := { s with ports := lset s.ports p x }
def State.ctx (s : State) (c : Nat) : Ctx := tget Ctx.reset s.ctxs c
def State.setCtx (s : State) (c : Nat) (x : Ctx) : State := { s with ctxs := tset Ctx.reset s.ctxs c x }
def State.hwq (s : State) (q : Nat) : Hwq := tget Hwq.reset s.hwqs q
def State.setHwq (s : State) (q : Nat) (x : Hwq) : State := { s with hwqs := tset Hwq.reset s.hwqs q x }
def State.launch (s : State) (l : Nat) : LaunchSlot := tget LaunchSlot.reset s.launches l
def State.setLaunch (s : State) (l : Nat) (x : LaunchSlot) : State :=
  { s with launches := tset LaunchSlot.reset s.launches l x }
def State.graph (s : State) (g : Nat) : LevelSlot := tget LevelSlot.reset s.graphs g
def State.setGraph (s : State) (g : Nat) (x : LevelSlot) : State := { s with graphs := tset LevelSlot.reset s.graphs g x }
def State.phase (s : State) (p : Nat) : LevelSlot := tget LevelSlot.reset s.phases p
def State.setPhase (s : State) (p : Nat) (x : LevelSlot) : State := { s with phases := tset LevelSlot.reset s.phases p x }
def State.job (s : State) (j : Nat) : LevelSlot := tget LevelSlot.reset s.jobs j
def State.setJob (s : State) (j : Nat) (x : LevelSlot) : State := { s with jobs := tset LevelSlot.reset s.jobs j x }
def State.node (s : State) (n : Nat) : Node := tget Node.reset s.nodes n
def State.setNode (s : State) (n : Nat) (x : Node) : State := { s with nodes := tset Node.reset s.nodes n x }

/-- A resident block. -/
def State.block? (s : State) (b : Nat) : Option Block := tfind s.blocks b
def State.setBlock (s : State) (b : Nat) (x : Block) : State := { s with blocks := tput s.blocks b x }
/-- A block leaves: its waves' pending results keep their numbers to themselves (R363). -/
def State.delBlock (s : State) (b : Nat) : State :=
  { s with
    blocks := tdel s.blocks b
    pendHigh := match s.block? b with
      | some x => x.waves.foldl (fun n w => max n w.pendNext) s.pendHigh
      | none => s.pendHigh }
/-- A change to a resident block; nothing if it is not resident. -/
def State.onBlock (s : State) (b : Nat) (f : Block → Block) : State :=
  match s.block? b with
  | none => s
  | some x => s.setBlock b (f x)
/-- A change to every resident block. -/
def State.onBlocks (s : State) (f : Nat → Block → Block) : State :=
  { s with blocks := s.blocks.map fun p => (p.1, f p.1 p.2) }

def Block.wave? (b : Block) (w : Nat) : Option Wave := b.waves[w]?
def Block.setWave (b : Block) (w : Nat) (x : Wave) : Block := { b with waves := lset b.waves w x }
def State.wave? (s : State) (b w : Nat) : Option Wave := (s.block? b).bind (·.wave? w)
def State.setWave (s : State) (b w : Nat) (x : Wave) : State := s.onBlock b (·.setWave w x)
/-- A change to one wave; nothing if it is not resident. -/
def State.onWave (s : State) (b w : Nat) (f : Wave → Wave) : State :=
  match s.wave? b w with
  | none => s
  | some x => s.setWave b w (f x)

/-- A change to each of a list's elements with its index. -/
def mapIdx {α : Type} (f : Nat → α → α) : Nat → List α → List α
  | _, [] => []
  | i, x :: t => f i x :: mapIdx f (i + 1) t

/-- A lane that no wave has: it has exited. -/
def Lane.absent : Lane :=
  { v := [], tags := 0, pc := 0, st := .exited, restart := none, chain := 0, fenced := none, paid := false }
/-- The 32 lanes of a wave, changed by index. -/
def Wave.mapLanes (w : Wave) (f : Nat → Lane → Lane) : Wave := { w with lanes := mapTo Lane.absent f 0 32 w.lanes }
/-- The lane at an index. -/
def Wave.lane (w : Wave) (i : Nat) : Lane := lget Lane.absent w.lanes i
def Wave.setLane (w : Wave) (i : Nat) (x : Lane) : Wave :=
  if i < 32 then { w with lanes := lput Lane.absent w.lanes i x } else w

/-- The 32 lane numbers. -/
def laneIds : List Nat := upFrom 0 32
/-- The members of a lane set, ascending. -/
def lanesOf (m : LaneSet) : List Nat := laneIds.filter fun i => m.getLsbD i
/-- The lane set of a list. -/
def laneSet (l : List Nat) : LaneSet := l.foldl (fun m i => m ||| BitVec.ofNat 32 (2 ^ i)) 0
/-- The lanes of which something holds. -/
def lanesWhere (p : Nat → Bool) : LaneSet := laneSet (laneIds.filter p)
/-- The highest member of a lane set. -/
def highLane (m : LaneSet) : Option Nat := (lanesOf m).getLast?
/-- The lowest member. -/
def lowLane (m : LaneSet) : Option Nat := (lanesOf m).head?

def Lane.isLive (l : Lane) : Bool := match l.st with | .live => true | _ => false
def Lane.isExited (l : Lane) : Bool := match l.st with | .exited => true | _ => false
def Lane.isBlocked (l : Lane) : Bool := match l.st with | .blocked _ => true | _ => false

/-! ### Levels of the caches -/

/-- Whether the core's cluster is felted (R59, R215). -/
def State.isFelted (s : State) (core : Nat) : Bool :=
  (upFrom (4 * clusterOf core) 4).any fun k => (s.core k).felted.isSome

/-- The context of a hardware queue (R319). -/
def Hwq.ctxNo (h : Hwq) : Nat := bits h.cfg0.toNat 52 8

/-! ### Identity of the package -/

/-- %pkg: SWL_ID.pkg while SWL_ID.valid is 1 (R208, R344). -/
def State.pkgNo (s : State) : Nat := if s.pkg.swlId.getLsbD 31 then bits s.pkg.swlId.toNat 0 12 else 0
/-- The owner package that a global address names (R208). -/
def ownerOf (va : Nat) : Nat := va / 2 ^ 45 % 4096
/-- Whether an address is local (R208). -/
def State.isLocal (s : State) (va : Nat) : Bool := ownerOf va == s.pkgNo

/-! ### Messages and events -/

/-- Sends a message out of the package. -/
def State.send (s : State) (m : OutMsg) : State := { s with out := s.out ++ [m] }
/-- An event that is due at an always-on count (log 2). -/
def State.later (s : State) (due : Nat) (i : Instr) : State := { s with inbox := s.inbox ++ [(due, i)] }
/-- An event that is due now. -/
def State.soon (s : State) (i : Instr) : State := s.later s.clk.toNat i

/-- Always-on clocks of a number of ns: 1.25 GHz (R83, R183). -/
def clocksOfNs (ns : Nat) : Nat := ns * 5 / 4
/-- Always-on clocks of a number of µs. -/
def clocksOfUs (us : Nat) : Nat := us * 1250

/-- Raises an MSI-X vector: a message, or a pending bit while the vector is masked (R386). PF0 has vectors 0 to 271; vector
n of VF v is numbered 272 + 17v + n. -/
def State.interrupt (s : State) (vec : Nat) : State :=
  if s.pkg.msixOpen.contains vec then s.send (.msix vec)
  else { s with pkg := { s.pkg with msixPend := sins s.pkg.msixPend vec } }

/-- An event record of Milliner (R392): kind, unit, index and data. The record's time is the always-on count. -/
def State.logEvent (s : State) (kind unit index : Nat) (data : List Byte) : State :=
  let r : EvRec := { seq := s.mil.logSeq, time := s.clk, kind, unit, index, data }
  let l := s.mil.log ++ [r]
  State.interrupt { s with mil := { s.mil with log := l.drop (l.length - 4096), logSeq := (s.mil.logSeq + 1) % 2 ^ 32 } } 2

/-! ### Prices (R159 to R161) -/

/-- Price row and column of an instruction (R126, R159, and the Price headings of the entries). -/
def priceCell (op md : Nat) : Nat × Nat :=
  match op / 64 with
  | 0 => (0, 0)
  | 1 => (1, md / 16)
  | 2 => if op = 0x08D then (3, 0) else (1, md / 16)
  | 3 => if 0x0D0 ≤ op then (3, md / 16) else (2, md / 16)
  | 4 => if op < 0x108 then (2, md % 16) else (4, md % 16)
  | 5 => if op = 0x142 then (5, 0) else (5, md / 16)
  | 6 =>
    if 0x180 ≤ op ∧ op ≤ 0x186 then (6, lget 0 [0, 0, 1, 1, 2, 3, 4] (op - 0x180))
    else if 0x188 ≤ op ∧ op ≤ 0x18C then (6, op - 0x188)
    else if 0x1A0 ≤ op then (6, 5)
    else if op = 0x191 then (6, 6)
    else (6, 7)
  | 7 => (7, 0)
  | 8 => (8, 0)
  | 9 => (0, 0)
  | _ => (10, 0)

/-- The base price of a cell in the effective table. -/
def State.cellPrice (s : State) (row col : Nat) : Nat := lget 0 s.tok.price (16 * row + col)

/-- The base price of an instruction, 0 for an event. -/
def State.basePrice (s : State) (i : Instr) : Nat :=
  match i.form with
  | none => 0
  | some f => let (r, c) := priceCell f.op f.md; s.cellPrice r c

/-- The cell of the price table that names an instruction's price, none of an event. -/
def cellOf (i : Instr) : List (Nat × Nat) :=
  match i.form with
  | none => []
  | some f => [priceCell f.op f.md]

/-- The base price that some cells name: the dearest of them. -/
def State.dearest (s : State) (l : List (Nat × Nat)) : Nat := (l.map fun x => s.cellPrice x.1 x.2).foldl max 0

/-- A base price at an operating point (R161). -/
def priceAt (opPrice : List Nat) (op base : Nat) : Nat :=
  if base = 0 then 0 else (base * (lget 0 opPrice op + 1) + 255) / 256

/-- A base price on a core's die at its present operating point. -/
def State.priceOn (s : State) (core base : Nat) : Nat := priceAt s.tok.opPrice (s.die (dieOf core)).op base

/-- Pays a price from a core bucket (R163); the governor counts what is paid (R184). -/
def State.pay (s : State) (core price : Nat) : State :=
  let c := s.core core
  { s.setCore core { c with bucket := c.bucket - price } with gov := { s.gov with paid := s.gov.paid + price } }

/-- Returns a price, up to the bucket's capacity (R166). -/
def State.refund (s : State) (core price : Nat) : State :=
  let c := s.core core
  { s.setCore core { c with bucket := min 16384 (c.bucket + price) } with gov := { s.gov with paid := s.gov.paid - price } }

/-- Withdraws the claims of a core that satisfy a test, and a reservation that one of them holds (R166). -/
def Core.withdraw (c : Core) (p : Claim → Bool) : Core :=
  let gone := c.claims.filter p
  { c with
    claims := c.claims.filter fun x => !p x
    reservation := match c.reservation with
      | none => none
      | some r => if gone.any (·.claimant == r) then none else some r }

/-! ### Packets to other packages (R345, R346, R356) -/

/-- Classes of R345 as R356 numbers them. -/
def clsControl : Nat := 0
def clsDemand : Nat := 1
def clsCopy : Nat := 2
def clsColl : Nat := 3

/-- Sends a message; an access or a chain takes its number in its triple as it leaves the egress (R346). -/
def State.numbered (s : State) (m : OutMsg) : State :=
  match m with
  | .swiul dst cls _ r =>
    let n := tget 0 s.seqOut (dst * 8 + cls)
    { s with seqOut := tset 0 s.seqOut (dst * 8 + cls) ((n + 1) % 2 ^ 24) }.send (.swiul dst cls n { r with seq := n })
  | .chain dst k =>
    let n := tget 0 s.seqOut (dst * 8 + clsDemand)
    { s with seqOut := tset 0 s.seqOut (dst * 8 + clsDemand) ((n + 1) % 2 ^ 24) }.send (.chain dst { k with via := s.pkgNo, seq := some n })
  | m => s.send m

/-- Sends a packet under a key slot: the slot's counter advances, or the packet waits for a new key (R356). -/
def State.sendKeyed (s : State) (slot : Nat) (m : OutMsg) : State :=
  let n := tget 0 s.mil.keyCount slot
  if 2 ^ 40 ≤ n then ({ s with keyWait := s.keyWait ++ [(slot, m)] }).logEvent 10 0 0 []
  else { s with mil := { s.mil with keyCount := tset 0 s.mil.keyCount slot (n + 1) }, seals := s.seals ++ [(s.out.length, slot, n)] }.numbered m

/-- A packet of a context: under a key slot if its traffic is encrypted (R356). -/
def State.sendCtx (s : State) (ctx : Nat) (m : OutMsg) : State :=
  let f := (s.ctx ctx).fabric
  if f.getLsbD 30 then s.sendKeyed (bits f.toNat 16 6) m else s.numbered m

/-- The context that serves a job's accesses here: the lowest-numbered one that has the job and accepts (R355). -/
def State.ctxOfJob (s : State) (job : BitVec 16) : Option Nat :=
  (s.ctxs.find? fun x => x.2.fabric.setWidth 16 == job && x.2.fabric.getLsbD 31).map (·.1)

/-- A packet of a job: of the context that serves it here, if there is one (R355, R356). -/
def State.sendJob (s : State) (job : BitVec 16) (m : OutMsg) : State :=
  match s.ctxOfJob job with
  | some ctx => s.sendCtx ctx m
  | none => s.numbered m

/-- Sends an access to the package that owns an address, numbered in its class (R346), with the context's job (R355). -/
def State.request (s : State) (ctx cls : Nat) (op : PeerOp) (va size : Nat) (data : List Byte) (tag : Nat)
    (inst : Option (Nat × Nat) := none) : State :=
  let f := (s.ctx ctx).fabric
  s.sendCtx ctx (.swiul (ownerOf va) cls 0
    { srcPkg := s.pkgNo, cls, seq := 0, port := 0, job := f.setWidth 16, enc := f.getLsbD 30, authOk := true, op
      addr := va % 2 ^ 57, size, data, tag, inst })

/-- The line of an address, as peer copies are kept (R347). -/
def peerLine (va : Nat) : Nat := va % 2 ^ 57 / 128

/-- The die and the home slice that hold a package's copy of a peer line (R347). -/
def copyDie (va : Nat) : Nat := (bits va 7 3) ^^^ (bits va 15 3)
def copySlice (va : Nat) : Nat := (bits va 10 4) ^^^ (bits va 18 4)

/-- The bytes of a peer line that the package holds a copy of (R347). -/
def State.peerCopy (s : State) (va n : Nat) : Option (List Byte) :=
  (tfind s.peerCopies (peerLine va)).map fun l => (l.drop (va % 128)).take n

/-- Asks the owner of a line for a copy of it (R347); an invalidation that comes before the answer is applied after it (R349). -/
def State.askFill (s : State) (ctx va : Nat) : State :=
  { s with misses := s.misses ++ [(peerLine va, false)] }.request ctx clsDemand .missFill va 128 [] 0

/-- The tag by which a reply finds its lane. -/
def replyTag (b i id lane : Nat) : Nat := ((b * 32 + i) * 2 ^ 32 + id) * 32 + lane

/-! ### Special fields -/

/-- SWL_TIME, %clk and the like count always-on clocks (R183). -/
def State.now (s : State) : Nat := s.clk.toNat

/-- The handle of a launch slot (R330). -/
def launchHandle (slot gen : Nat) : Nat := gen * 4096 + slot

end Sys2Proof.Machine
end

