-- ==== Sys2Proof/Machine/Egress.lean ====
section
/-! DEFINITION. Packets on their way out of the package: class, number, port, flits and encryption (spec/16_fabric.md R345, R346,
R350, R352, R356). -/

namespace Sys2Proof.Machine

/-! ### Classes (R345) -/

/-- Where a message travels on Swiul: its destination, none of a multicast; its class; whether it is a response. None of a message
that does not travel there. -/
def OutMsg.route : OutMsg → Option (Option Nat × Nat × Bool)
  | .swiul dst cls _ _ => some (some dst, cls, false)
  | .reply dst _ _ cls | .ack dst _ cls | .ackPoison dst _ cls | .drop dst _ cls => some (some dst, cls, true)
  | .faultPending dst _ _ => some (some dst, clsControl, true)
  | .notice dst _ _ | .invalidate dst _ | .promote dst _ | .time dst _ => some (some dst, clsControl, false)
  | .invalidateAck dst _ | .promoteAck dst _ => some (some dst, clsControl, true)
  | .chain dst _ => some (some dst, clsDemand, false)
  | .chainReply dst _ _ _ => some (some dst, clsDemand, true)
  | .intent _ _ _ _ _ => some (none, clsControl, false)
  | .collNotice _ _ _ | .reduction _ _ _ => some (none, clsColl, false)
  | .contribution dst _ => some (some dst, clsColl, false)
  | .collRefused dst _ _ _ | .contributionRefused dst _ | .redResult dst _ => some (some dst, clsColl, true)
  | .far _ _ _ _ _ _ | .scoReply _ _ _ _ | .msix _ | .hostReply _ | .mctp _ => none

/-- The number that an access or a chain took as it was sent. -/
def OutMsg.number : OutMsg → Option Nat
  | .swiul _ _ n _ => some n
  | .chain _ k => k.seq
  | _ => none

/-- The plane that a message must take: that of its multicast group (R372, R373). -/
def OutMsg.plane : OutMsg → Option Nat
  | .reduction _ _ p => some p
  | _ => none

/-- The port by which a request comes in: planes join ports of one number (R23). -/
def OutMsg.onPort (m : OutMsg) (p : Nat) : OutMsg :=
  match m with
  | .swiul dst cls n r => .swiul dst cls n { r with port := p }
  | .chain dst k => .chain dst { k with port := p }
  | m => m

/-! ### Headers (R346, R356) -/

/-- The nonce of an encrypted packet that a package sends. -/
def Egress.nonce (src : Nat) (e : Egress) : BitVec 96 :=
  BitVec.ofNat 96 (src % 4096 * 2 ^ 84 + e.dst.getD 0 % 4096 * 2 ^ 72 + e.cls % 16 * 2 ^ 68 + e.seq.getD 0 % 2 ^ 24 * 2 ^ 40 +
    (e.key.map (·.2)).getD 0 % 2 ^ 40)

/-- The number of a packet: that of its message; else the next of its destination's others of the class (log 73); a multicast has
none. -/
def State.packetNumber (s : State) (m : OutMsg) (dst : Option Nat) (cls : Nat) : State × Option Nat :=
  match m.number, dst with
  | some n, _ => (s, some n)
  | none, none => (s, none)
  | none, some d =>
    let n := tget 0 s.seqOut (d * 8 + 4 + cls)
    ({ s with seqOut := tset 0 s.seqOut (d * 8 + 4 + cls) ((n + 1) % 2 ^ 24) }, some n)

/-- A message that travels on Swiul gets its header. -/
def State.addHeader (s : State) (i : Nat) : State :=
  match s.out[i]? with
  | none => s
  | some m => match m.route with
    | none => s
    | some (dst, cls, resp) =>
      let (s1, seq) := s.packetNumber m dst cls
      let e : Egress := { msg := i, dst, cls, resp, seq, key := (s.seals.find? fun x => x.1 == i).map (·.2), tag := none, port := none }
      let tag := e.key.map fun k => Config.gcmTag ((tfind s.mil.keys k.1).getD 0) (e.nonce s.pkgNo) s.egress.length
      { s1 with egress := s1.egress ++ [{ e with tag }] }

/-- Every message that has been sent has its header. -/
def State.addHeaders (s : State) : State :=
  { (upFrom s.outDone (s.out.length - s.outDone)).foldl State.addHeader s with outDone := s.out.length }

/-! ### Ports (R346, R352) -/

/-- The ports that carry traffic. -/
def State.openPorts (s : State) : List Nat := (upFrom 0 48).filter fun p => (s.port p).st == 2

/-- The port of a packet: its plane's; else, of the six ports of the die on which it leaves, the Active one with the most free
credits, or such a one of the package where that die has no Active port (log 73). -/
def State.pickPort (s : State) (j : Nat) (plane : Option Nat) : Option Nat :=
  let l := s.openPorts
  match plane with
  | some p => if l.contains p then some p else none
  | none =>
    let mine := l.filter fun p => p / 6 == Config.egressDie j % 8
    let from' := if mine.isEmpty then l else mine
    let free (p : Nat) : Nat := Config.portCredits s.freeCtr j p
    from'.foldl (fun b p => match b with
      | none => some p
      | some b => if free b < free p then some p else some b) none

/-! ### Flits (R350) -/

/-- One bit of a reflected CRC-32C. -/
def crcBit (c : Word) : Word := if c.getLsbD 0 then (c >>> 1) ^^^ 0x82F63B78 else c >>> 1

/-- One byte. -/
def crcByte (c : Word) (b : Byte) : Word := (upFrom 0 8).foldl (fun c _ => crcBit c) (c ^^^ b.setWidth 32)

/-- CRC-32C of bytes. -/
def crc32c (l : List Byte) : Word := ~~~(l.foldl crcByte 0xFFFFFFFF)

/-- Whether a flit's CRC agrees. -/
def flitOk (flit : List Byte) : Bool :=
  flit.length == 256 && ofBytes (flit.drop 252) == (crc32c (flit.take 252)).toNat

/-- The flit with some contents: 252 bytes and their CRC. -/
def flitOf (l : List Byte) : List Byte :=
  let body := l.take 252 ++ copies 0 (252 - l.length)
  body ++ bytesOf 4 (crc32c body).toNat

/-- A packet's flits are put on a link and kept until they are acknowledged. -/
def Port.transmit (p : Port) (pkt : Nat) : List (List Byte) → Port
  | [] => p
  | l :: t =>
    let f := flitOf l
    Port.transmit { p with txNext := p.txNext + 1, tx := p.tx ++ [⟨p.txNext, pkt, f⟩], sent := p.sent ++ [f] } pkt t

/-- The sender sends again from a flit on. -/
def Port.replay (p : Port) (n : Nat) : Port := { p with sent := p.sent ++ (p.tx.filter fun f => decide (n ≤ f.no)).map (·.bytes) }

/-- What a flit from the other side says of the flits sent: those up to a number are acknowledged, a replay from one on is asked for. -/
def Port.heard (p : Port) (contents : List Byte) : Port :=
  let p1 := match Config.flitAck contents with
    | some n => { p with tx := p.tx.filter fun f => decide (n < f.no) }
    | none => p
  match Config.flitReplay contents with
  | some n => p1.replay n
  | none => p1

/-- A packet that waits for a port takes one, if there is one. -/
def State.leave (s : State) (j : Nat) : State :=
  match s.egress[j]? with
  | none => s
  | some e => match s.out[e.msg]? with
    | none => s
    | some m =>
      if e.port.isSome then s
      else match s.pickPort j m.plane with
        | none => s
        | some p =>
          { s with
            egress := lset s.egress j { e with port := some p }
            out := lset s.out e.msg (m.onPort p) }.setPort p ((s.port p).transmit j (Config.flitBodies j))

/-- The egress in a clock: new messages get their headers, and packets leave while a port is Active; with none they wait (R352). -/
def State.serveEgress (s : State) : State :=
  let s1 := if s.outDone < s.out.length then s.addHeaders else s
  if s1.openPorts.isEmpty then s1 else (upFrom 0 s1.egress.length).foldl State.leave s1

/-- A port that carries no more traffic gives back the packets whose flits are not acknowledged: they leave by others (R346, R350). -/
def State.reroute (s : State) (p : Nat) : State :=
  let x := s.port p
  let back := x.tx.map (·.pkt)
  { s with egress := mapIdx (fun j e => if back.contains j then { e with port := none } else e) 0 s.egress }.setPort p
    { x with tx := [], txNext := 0 }

end Sys2Proof.Machine
end

