-- ==== Sys2Proof/Machine/Mem.lean ====
section
/-! DEFINITION. Storage, write-back caches, tags, poison, the directory and translation (spec/10_memory.md R203 to R225;
spec/11_regions.md R228 to R236; spec/12_consistency.md R256, R257; spec/16_fabric.md R348). A storage address is
stack × 2^36 + stack line × 128 + byte. -/

namespace Sys2Proof.Machine

/-! ### Where a physical address is stored -/

/-- The storage address of a 42-bit physical address (R217). -/
def storageOf (pa : Nat) : Nat :=
  let p := pa % 2 ^ 42
  if p < 2 ^ 41 then
    let l := p / 128
    ((l % 32) ^^^ (l / 2 ^ 8 % 32)) * 2 ^ 36 + l / 32 * 128 + p % 128
  else
    let l := p / 128 % 2 ^ 31
    let d := p / 2 ^ 38 % 8
    (4 * d + ((l % 4) ^^^ (l / 2 ^ 8 % 4))) * 2 ^ 36 + l / 4 * 128 + p % 128

/-- Storage line of a storage address (R218). -/
def lineOf (sa : Nat) : Nat := sa / 128
/-- The stack and the die of a storage address (R219). -/
def stackOf (sa : Nat) : Nat := sa / 2 ^ 36
def homeDie (sa : Nat) : Nat := stackOf sa / 4
/-- The line number in its stack (R217). -/
def stackLine (sa : Nat) : Nat := sa % 2 ^ 36 / 128
/-- The home slice of a storage address on its die (R219). -/
def homeSlice (sa : Nat) : Nat :=
  let a := stackLine sa
  a % 16 ^^^ a / 16 % 16 ^^^ a / 256 % 16 ^^^ a / 4096 % 16 ^^^ 4 * (stackOf sa % 4)
/-- The pseudo-channel of a storage address in its stack, the channel, and the channel group (R219). -/
def pseudoChannel (sa : Nat) : Nat := stackLine sa % 160
def channelOf (sa : Nat) : Nat := pseudoChannel sa / 4
def groupOf (sa : Nat) : Nat := pseudoChannel sa / 20

/-! ### The home -/

/-- Memory: the bytes that do not read as zero, by rising storage address (R203, R217, R394 step 3). -/
abbrev Memory := List Host.Cell

/-- The canonical form of memory: addresses rise strictly, and no listed byte is what an unlisted one reads as. -/
def Memory.wf (m : Memory) : Bool := twf 0 m

/-- A byte at home; memory that nothing has written reads zero (R394 step 3). -/
def State.homeByte (s : State) (sa : Nat) : Byte := tget 0 s.mem sa
/-- Bytes at home. -/
def State.homeBytes (s : State) (sa n : Nat) : List Byte := (upFrom sa n).map s.homeByte
/-- A little-endian number at home. -/
def State.homeNat (s : State) (sa n : Nat) : Nat := ofBytes (s.homeBytes sa n)
/-- Whether a storage line is poisoned (R221): by itself, or with its stack (R342). -/
def State.isPoisoned (s : State) (sa : Nat) : Bool :=
  s.poison.contains (lineOf sa) ||
  ((s.lostStacks.contains (stackOf sa) ||
    s.lostSlices.any fun x => x.1 == homeDie sa && Config.sliceDirty x.2 (lineOf sa)) && !s.sound.contains (lineOf sa))
/-- A line written whole loses its poison (R221); a line is poisoned. -/
def State.heal (s : State) (line : Nat) : State :=
  { s with
    poison := sdel s.poison line
    sound := if s.lostStacks.contains (stackOf (line * 128)) || s.lostSlices.any fun x => x.1 == homeDie (line * 128)
      then sins s.sound line else s.sound }
def State.hurt (s : State) (line : Nat) : State :=
  { s with poison := sins s.poison line, sound := sdel s.sound line }
/-- The metadata bit of a quad (R220, R225). -/
def State.homeTag (s : State) (sa : Nat) : Bool := s.tags.contains (sa / 16)

/-- Writes bytes into a list of cells; unlisted cells are zero. -/
def putBytes : List Host.Cell → Nat → List Byte → List Host.Cell
  | m, _, [] => m
  | m, a, b :: t => putBytes (tset 0 m a b) (a + 1) t

/-- Clears the marks of the units of size u that the bytes [a, a + n) touch. -/
def clearMarks (u : Nat) (marks : List Nat) (a n : Nat) : List Nat :=
  marks.filter fun k => !(decide (a < (k + 1) * u) && decide (k * u < a + n))

/-- The packages of a directory entry that hold copies (R348). -/
def DirEntry.sharers : DirEntry → List Nat
  | .uncached => []
  | .exact l => l
  | .coarse g => (upFrom 0 64).flatMap fun k => if g.getLsbD k then upFrom (64 * k) 64 else []

/-- A read miss of another package (R348). -/
def DirEntry.add (e : DirEntry) (pkg : Nat) : DirEntry :=
  match e with
  | .uncached => .exact [pkg]
  | .exact l =>
    let l' := sins l pkg
    if l'.length ≤ 4 then .exact l'
    else .coarse (l'.foldl (fun g p => g ||| BitVec.ofNat 64 (2 ^ (p / 64))) 0)
  | .coarse g => .coarse (g ||| BitVec.ofNat 64 (2 ^ (pkg / 64)))

/-- The directory's part in a write to a line: one invalidation to each package that may hold it, and the entry becomes
Uncached (R348). Messages name the line by its storage byte address. -/
def State.invalidateSharers (s : State) (line : Nat) : State :=
  match tfind s.dir line with
  | none => s
  | some e =>
    let sharers := e.sharers.filter (· != s.pkgNo)
    { s with
      dir := tdel s.dir line
      out := s.out ++ sharers.map fun p => .invalidate p (line * 128)
      invalWait := s.invalWait ++ sharers.map fun p => (p, line * 128) }

/-- A write performed at home, within one line: bytes, tags of every quad that it touches (R225), poison of a line that
it writes whole (R221), invalidations (R348). -/
def State.homeWrite (s : State) (sa : Nat) (bs : List Byte) : State :=
  if bs.isEmpty then s
  else
    let s := s.invalidateSharers (lineOf sa)
    let s1 := { s with mem := putBytes s.mem sa bs, tags := clearMarks 16 s.tags sa bs.length }
    if sa % 128 = 0 ∧ bs.length = 128 then s1.heal (lineOf sa) else s1

/-- A capability stored at home with its tag (R225). -/
def State.homeWriteTagged (s : State) (sa : Nat) (bs : List Byte) (tag : Bool) : State :=
  let s := s.homeWrite sa bs
  { s with tags := sput s.tags (sa / 16) tag }

/-! ### Dirty bytes of L1 and the die cache (R256) -/

/-- The core whose L1 slice holds a line of a core's writes: its own, or in felted mode core VA[8:7] XOR VA[10:9] of its
cluster (R215). -/
def State.sliceOf (s : State) (core va : Nat) : Nat :=
  if s.isFelted core then 4 * clusterOf core + (va / 2 ^ 7 % 4 ^^^ va / 2 ^ 9 % 4) else core

/-- Whether a dirty byte is visible to the lanes of a core: its own L1, its felted cluster's L1, or its die's cache. -/
def State.sees (s : State) (core : Nat) (d : DirtyByte) : Bool :=
  if d.lvl = 0 then d.slice == core || (clusterOf d.slice == clusterOf core && s.isFelted core)
  else dieOf d.core == dieOf core

/-- The byte that a lane of a core reads: the L1 copy before the die cache's, and that before the home. -/
def State.viewByte (s : State) (core sa : Nat) : Byte :=
  match s.dirty.find? fun d => d.sa == sa && d.lvl == 0 && s.sees core d with
  | some d => d.val
  | none =>
    match s.dirty.find? fun d => d.sa == sa && d.lvl == 1 && s.sees core d with
    | some d => d.val
    | none => s.homeByte sa
def State.viewBytes (s : State) (core sa n : Nat) : List Byte := (upFrom sa n).map (s.viewByte core)

/-- The tag that a lane of a core reads with a quad: none while a byte of the quad is dirty in its view (R225). -/
def State.viewTag (s : State) (core sa : Nat) : Bool :=
  s.homeTag sa && !s.dirty.any fun d => d.sa / 16 == sa / 16 && s.sees core d

/-- Whether two dirty bytes are one byte of one cache: an L1 slice (R215), or a die's cache. -/
def sameCopy (x d : DirtyByte) : Bool :=
  d.sa == x.sa && d.lvl == x.lvl && (if x.lvl = 0 then d.slice == x.slice else dieOf d.core == dieOf x.core)

/-- A byte enters a cache. Every core that has a write of that byte in the cache keeps an entry, with the oldest generation
and age of those writes, and all entries hold the newest value: so that a write-back is never later than any of the writes
asks (R257, R278). -/
def State.putDirty (s : State) (d : DirtyByte) : State :=
  let there := (s.dirty.filter (sameCopy d)).map fun x => { x with val := d.val, noDie := d.noDie }
  { s with dirty :=
      (if there.any (·.core == d.core) then there else d :: there) ++ s.dirty.filter fun x => !sameCopy d x }

/-- One byte written at a level by a core, at an address whose L1 slice is given. -/
def State.dirtyByte (s : State) (core lvl slice : Nat) (noDie : Bool) (sa : Nat) (b : Byte) : State :=
  s.putDirty { sa, val := b, core, lvl, gen := (s.core core).writeGen, birth := s.clk, slice, noDie }

/-- A byte has been dirty for 20 µs (R257). -/
def DirtyByte.old (d : DirtyByte) (clk : Dword) : Bool := decide (25000 ≤ (clk - d.birth).toNat)

/-- The dirty bytes that leave their cache when some of their entries do. -/
def State.leaving (s : State) (p : DirtyByte → Bool) (d : DirtyByte) : Bool :=
  p d || s.dirty.any fun x => p x && sameCopy x d

/-- Counts one global write in the core's write generation (R275). -/
def State.bumpGen (s : State) (core : Nat) : State :=
  let c := s.core core
  s.setCore core { c with writeGen := c.writeGen + 1 }

/-- Writes selected dirty bytes back to the home, oldest first; a line that they cover whole loses its poison (R221). -/
def State.backHome (s : State) (p : DirtyByte → Bool) : State :=
  let sel := s.dirty.filter (s.leaving p)
  let s1 := { s with dirty := s.dirty.filter fun d => !s.leaving p d }
  let s2 := sel.reverse.foldl (fun s d => s.homeWrite d.sa [d.val]) s1
  let lines := sel.foldl (fun l d => sins l (lineOf d.sa)) []
  (lines.filter fun l => (upFrom (l * 128) 128).all fun a => sel.any (·.sa == a)).foldl State.heal s2

/-- Writes selected L1 bytes back to the die cache. -/
def State.backDie (s : State) (p : DirtyByte → Bool) : State :=
  let q := s.leaving fun d => d.lvl == 0 && p d
  let s1 := { s with dirty := s.dirty.filter fun d => !q d }
  (s.dirty.filter q).reverse.foldl (fun s d => s.putDirty { d with lvl := 1 }) s1

/-- Whether an L1 byte belongs to the L1 that serves a core, and a die-cache byte to its die. -/
def State.inL1Of (s : State) (core : Nat) (d : DirtyByte) : Bool := d.lvl == 0 && s.sees core d
def inDieOf (core : Nat) (d : DirtyByte) : Bool := d.lvl == 1 && dieOf d.core == dieOf core

/-- Everything in a core's L1 is written back to the die cache, or past it where a line may not stay there (R114). Whatever leaves
an L1 leaves with all that is there, so that no write is seen without those before it (R256, R263; log 70). -/
def State.toDie (s : State) (core : Nat) : State :=
  let s1 := s.backDie (s.inL1Of core)
  if s.dirty.any fun d => s.inL1Of core d && d.noDie then s1.backHome (inDieOf core) else s1

/-- Everything in a core's L1 and in its die's cache is written back to the home. -/
def State.toHome (s : State) (core : Nat) : State := (s.backDie (s.inL1Of core)).backHome (inDieOf core)

/-- The different lines of some dirty bytes. -/
def dirtyLines (l : List DirtyByte) : List Nat := l.foldl (fun m d => sins m (lineOf d.sa)) []

/-- Lines that a core's L1 slice and a die's cache hold (R214): 128 sets of 8, 16 or 24 ways, and 16,384 sets of 16. -/
def State.l1Lines (s : State) (core : Nat) : Nat := 8 * ((s.core core).l1Kib.getD 128)
def dieLines : Nat := 16384 * 16

/-- A line that is to be written finds a place (R214): a full cache is written back first (log 70). -/
def State.makeRoom (s : State) (core lvl slice line : Nat) : State :=
  let mine := s.dirty.filter fun d => d.lvl == lvl && (if lvl = 0 then d.slice == slice else dieOf d.core == dieOf core)
  if mine.any (fun d => lineOf d.sa == line) ∨ (dirtyLines mine).length < (if lvl = 0 then s.l1Lines core else dieLines) then s
  else if lvl = 0 then s.toDie core
  else s.backHome (inDieOf core)

/-- Dirty bytes of one line at a level. -/
def State.putBytesAt (s : State) (core lvl slice : Nat) (noDie : Bool) : Nat → List Byte → State
  | _, [] => s
  | sa, b :: t => (s.dirtyByte core lvl slice noDie sa b).putBytesAt core lvl slice noDie (sa + 1) t

/-- A write of a core within one line, at an address, in the cache of a level. -/
def State.dirtyBytes (s : State) (core lvl va : Nat) (noDie : Bool) (sa : Nat) (l : List Byte) : State :=
  let slice := s.sliceOf core va
  (s.makeRoom core lvl slice (lineOf sa)).putBytesAt core lvl slice noDie sa l

/-- The write-back of a release at a scope by a lane of a core (R256): nothing for .blk, L1 to the die cache for .clu and
.die (R255; a felted L1 already serves .clu), everything of the core and its die to the home for .pkg and .sys. -/
def State.writeBackAt (s : State) (core : Nat) (sc : Scope) : State :=
  match sc with
  | .blk => s
  | .clu => if s.isFelted core then s else s.toDie core
  | .die => s.toDie core
  | _ => s.toHome core

/-- Whether a dirty byte lies in a range. -/
def DirtyByte.within (d : DirtyByte) (sa n : Nat) : Bool := decide (sa ≤ d.sa) && decide (d.sa < sa + n)

/-- Writes back what a core and its die hold, if any of it lies in some bytes that are to be accessed at the home. -/
def State.flushBytes (s : State) (core sa n : Nat) : State :=
  if s.dirty.any fun d => d.within sa n && (s.inL1Of core d || inDieOf core d) then s.toHome core else s

/-- Whether a core's caches hold every byte of a line as written: such a line is no longer poisoned to its lanes (R221). -/
def State.holdsLine (s : State) (core line : Nat) : Bool :=
  (upFrom (line * 128) 128).all fun a => s.dirty.any fun d => d.sa == a && s.sees core d

/-! ### Translation (R228 to R232) -/

/-- What an access needs of a leaf. -/
inductive Perm where
  | read | write | atomic | exec
  deriving DecidableEq, Repr

/-- A failed translation: kind and level of the record (R232, R234). -/
structure XFault where
  kind : Nat
  level : Nat
  deriving DecidableEq, Repr

/-- A translated address: its storage address and the leaf's attributes (R229). -/
structure Leaf where
  sa : Nat
  tagged : Bool
  sysatom : Bool
  deriving DecidableEq, Repr

/-- The permission check of a leaf. -/
def leafDenies (e : Nat) : Perm → Option Nat
  | .read => if e.testBit 55 then none else some 1
  | .write => if e.testBit 56 then none else some 2
  | .atomic => if !e.testBit 55 then some 1 else if e.testBit 56 then none else some 2
  | .exec => if e.testBit 57 then none else some 3

/-- Page size of a leaf at a level, as a power of two. -/
def pageBits (level : Nat) : Nat := match level with | 0 => 16 | 1 => 21 | _ => 30

/-- The index of a level in the address (R228). -/
def walkIndex (va level : Nat) : Nat :=
  match level with | 0 => bits va 16 5 | 1 => bits va 21 9 | _ => bits va 30 15

/-- The walk, level by level: the physical address and the leaf entry that maps it. -/
def State.walkTo (s : State) (va : Nat) (need : Perm) : Nat → Nat → Except XFault (Nat × Nat)
  | level, table =>
    let sa := storageOf (table + 8 * walkIndex va level)
    if s.isPoisoned sa then .error ⟨5, level⟩
    else
      let e := s.homeNat sa 8
      let frame := bits e 12 30 * 4096
      if bits e 60 4 ≠ 0 ∨ bits e 42 13 ≠ 0 ∨ bits e 2 10 ≠ 0 then .error ⟨4, level⟩
      else
        match e % 4 with
        | 0 => .error ⟨0, level⟩
        | 1 =>
          match level with
          | 0 => .error ⟨4, 0⟩
          | l + 1 => s.walkTo va need l frame
        | 2 =>
          if frame % 2 ^ pageBits level ≠ 0 then .error ⟨4, level⟩
          else match leafDenies e need with
            | some k => .error ⟨k, level⟩
            | none => .ok (frame + va % 2 ^ pageBits level, e)
        | _ => .error ⟨4, level⟩

/-- The walk from a table of a level: the storage address and the leaf's attributes (R228, R229). -/
def State.walk (s : State) (va : Nat) (need : Perm) (level table : Nat) : Except XFault Leaf :=
  match s.walkTo va need level table with
  | .error x => .error x
  | .ok (pa, e) => .ok { sa := storageOf pa, tagged := e.testBit 58, sysatom := e.testBit 59 }

/-- Translates an address of this package's window in a context (R228, R231). -/
def State.translate (s : State) (ctx va : Nat) (need : Perm) : Except XFault Leaf :=
  let root := (s.ctx ctx).trnRoot.toNat
  if root.testBit 0 then s.walk va need 2 (bits root 12 30 * 4096) else .error ⟨0, 2⟩

/-- The physical address of an address that a context may read; none where its tables do not map it. -/
def State.physOf (s : State) (ctx va : Nat) : Option Nat :=
  let root := (s.ctx ctx).trnRoot.toNat
  if root.testBit 0 then
    match s.walkTo va .read 2 (bits root 12 30 * 4096) with
    | .ok (pa, _) => some pa
    | .error _ => none
  else none

/-! ### The merge tables and fault records (R233 to R236, R523) -/

/-- The granule of an address: VA[56:16] (R233). -/
def granuleOf (va : Nat) : Nat := va % 2 ^ 57 / 2 ^ 16

/-- The 128 bits of a fault record (R234). -/
def FaultRec.encode (r : FaultRec) (seq : Nat) : Nat :=
  r.va % 2 ^ 57 * 2 ^ 71 + seq % 2 ^ 32 * 2 ^ 32 + r.srcPkg * 2 ^ 20 + r.ctx * 2 ^ 12 + r.kind * 2 ^ 8 +
  r.access * 2 ^ 4 + r.level * 4 + (if r.remote then 2 else 0)

/-- Capacity of the fault ring in records (R235). -/
def State.ringCap (s : State) : Nat := 256 * 2 ^ min 8 (bits s.pkg.fltRing.toNat 54 4)
def State.ringFull (s : State) : Bool := decide (s.ringCap ≤ (s.pkg.fltTail - s.pkg.fltHead).toNat)

/-- Number of the I/O die's merge table; 0 to 7 are the dies' (R523). -/
def ioTable : Nat := 8

/-- A merge table by its number (R523). -/
def State.mergeTable (s : State) (t : Nat) : List MergeEntry := if t < 8 then (s.die t).merge else s.ioMerge
def State.setMergeTable (s : State) (t : Nat) (l : List MergeEntry) : State :=
  if t < 8 then s.setDie t { s.die t with merge := l } else { s with ioMerge := l }
/-- Entries that a merge table holds (R233, R523). -/
def tableRoom (t : Nat) : Nat := if t < 8 then 512 else 64

/-- Marks the entry of a granule as reported. -/
def markReported (ctx granule : Nat) (t : List MergeEntry) : List MergeEntry :=
  t.map fun e => if e.ctx == ctx && e.granule == granule then { e with reported := true } else e

/-- Emits the oldest waiting record if the ring has room: the record, then the tail, then the interrupt (R235). A record of table 9
has no entry, or none any longer. -/
def State.emitOne (s : State) : State :=
  match s.faultWait with
  | [] => s
  | r :: rest =>
    if s.ringFull then s
    else
      let tail := s.pkg.fltTail.toNat
      let pa := bits s.pkg.fltRing.toNat 12 30 * 4096 + 16 * (tail % s.ringCap)
      let s1 := s.homeWrite (storageOf pa) (bytesOf 16 (r.encode tail))
      let s2 := if 8 < r.table then s1
        else s1.setMergeTable r.table (markReported r.ctx (granuleOf r.va) (s1.mergeTable r.table))
      State.interrupt { s2 with faultWait := rest, pkg := { s2.pkg with fltTail := s2.pkg.fltTail + 1 } } 0

/-- Adds a waiter to the entry of a key. -/
def joinEntry (ctx granule : Nat) (w : Option Waiter) (sco : Bool) (e : MergeEntry) : MergeEntry :=
  if e.ctx == ctx && e.granule == granule then
    let y := { e with sco := e.sco || sco }
    match w with
    | some x => if y.waiters.contains x then y else { y with waiters := y.waiters ++ [x] }
    | none => y
  else e

/-- A translation fault meets its merge table (R233): it joins the entry of its key, or allocates one and emits a record,
or finds the table full and is to retry. -/
def State.enterFault (s : State) (r : FaultRec) (w : Option Waiter) : State :=
  let g := granuleOf r.va
  let t := r.table
  let l := s.mergeTable t
  if l.any fun e => e.ctx == r.ctx && e.granule == g then s.setMergeTable t (l.map (joinEntry r.ctx g w (r.access == 8)))
  else if tableRoom t ≤ l.length then s
  else
    let s1 := s.setMergeTable t (l ++ [{ ctx := r.ctx, granule := g, reported := false, waiters := w.toList, sco := r.access == 8 }])
    State.emitOne { s1 with faultWait := s1.faultWait ++ [r] }

/-- A record of a local access, for a merge table. -/
def State.localFault (s : State) (table ctx va access : Nat) (x : XFault) : FaultRec :=
  { table, va, srcPkg := s.pkgNo, ctx, kind := x.kind, access, level := x.level, remote := false }

/-! ### Accesses of parties that have no L1: engines, the command processor, the host and peers (R254) -/

/-- Bytes of one line read at home: none if the line is poisoned. -/
def State.readHome (s : State) (sa n : Nat) : Option (List Byte) :=
  if s.isPoisoned sa then none else some (s.homeBytes sa n)

/-- A storage line's home cannot be reached: its die's clock is stopped or the die in reset, its stack in reset, or its channel group
retrains (R181, R200, R393). -/
def State.accessWaits (s : State) (sa : Nat) : Bool :=
  let d := s.die (homeDie sa)
  d.phase == 2 || d.inReset || (s.stack (stackOf sa)).inReset || (s.stack (stackOf sa)).group == groupOf sa

/-- Whether an access at an address of a context must wait for its home. -/
def State.addrWaits (s : State) (ctx va : Nat) (need : Perm) : Bool :=
  match s.translate ctx va need with
  | .ok l => s.accessWaits l.sa
  | .error _ => false

/-- Reads n bytes at an address of a context through the home, line by line; the bytes lie within one 64 KiB granule.
The answer is the bytes, a translation fault, or none for a poisoned line. -/
def State.readGlobal (s : State) (ctx va n : Nat) : Except XFault (Option (List Byte)) :=
  match s.translate ctx va .read with
  | .error f => .error f
  | .ok l => .ok (s.readHome l.sa n)

end Sys2Proof.Machine
end

