-- ==== Sys2Proof/Machine/Fetch.lean ====
section
/-! DEFINITION. Fetch lines: the instruction cache, the line checks and the target of a transfer
(spec/04_encoding.md R87 to R97). -/

namespace Sys2Proof.Machine

/-- A PC is well formed (R88). -/
def pcOk (pc : Nat) : Bool := pc % 64 % 12 == 0 && decide (pc % 64 < 60)
/-- The slot of a PC. -/
def slotOfPc (pc : Nat) : Nat := pc % 64 / 12
/-- The address of a PC's line. -/
def lineAt (pc : Nat) : Nat := pc / 64 * 64
/-- The sequential successor of a PC (R88). -/
def succPc (pc : Pc) : Pc := if pc.toNat % 64 = 48 then pc + 16 else pc + 12

/-- The instruction in a slot (R87). -/
def slotWord (l : FetchLine) (k : Nat) : IWord := l.extractLsb' (96 * k) 96
/-- The line word (R87, R89). -/
def lineWord (l : FetchLine) : Word := l.extractLsb' 480 32

/-- Check 1 of R94: reserved bits zero and class code. -/
def lineIllegal (l : FetchLine) : Bool := (lineWord l).extractLsb' 19 13 != 0
/-- The parity bit of a half of a slot agrees with it (R89, R90). -/
def halfOk (l : FetchLine) (k : Nat) (high : Bool) : Bool :=
  let p := 9 + 2 * k + (if high then 1 else 0)
  oddOnes 48 (l.extractLsb' (96 * k + (if high then 48 else 0)) 48).toNat == (lineWord l).getLsbD p
/-- The lowest slot whose parity disagrees (check 2 of R94, R123). -/
def parityBad (l : FetchLine) : Option Nat := (upFrom 0 5).find? fun k => !(halfOk l k false && halfOk l k true)
/-- The target bit of a slot (R89). -/
def targetBit (l : FetchLine) (k : Nat) : Bool := (lineWord l).getLsbD k
/-- The pairing bit of a slot and its successor (R89). -/
def pairBit (l : FetchLine) (k : Nat) : Bool := (lineWord l).getLsbD (5 + k)

/-- A line as its 64 bytes. -/
def lineOfBytes (b : List Byte) : FetchLine := BitVec.ofNat 512 (ofBytes b)

/-- What a core finds at a line: the copy in its instruction cache or else memory's, by its cache key, a failed translation,
poison, or a line of another package that is to be asked of its owner (R209). -/
inductive LineLook where
  | line (sa : Nat) (l : FetchLine)
  | fault (x : XFault)
  | poisoned
  | away
  deriving DecidableEq, Repr

/-- The place under which the instruction cache keeps a line of another package: above every storage address. -/
def peerFetchKey (pc : Nat) : Nat := 2 ^ 64 + lineAt (pc % 2 ^ 57)

/-- A fetch line of a context as a core sees it (R97): the core's copy if it has one, or at any fetch memory's; a line of another
package as its owner answered, until a CCTL drops it (R209; DESIGN CHOICE, log 14). -/
def State.lookLine (s : State) (core ctx pc : Nat) : LineLook :=
  if s.isLocal pc then
    match s.translate ctx (lineAt pc) .exec with
    | .error x => .fault x
    | .ok leaf =>
      match tfind (s.core core).icache (leaf.sa / 64) with
      | some l =>
        if Config.newLine s.freeCtr (leaf.sa / 64) && !s.isPoisoned leaf.sa then .line leaf.sa (lineOfBytes (s.viewBytes core leaf.sa 64))
        else .line leaf.sa l
      | none => if s.isPoisoned leaf.sa then .poisoned else .line leaf.sa (lineOfBytes (s.viewBytes core leaf.sa 64))
  else
    match tfind (s.core core).icache (peerFetchKey pc / 64) with
    | some l => .line (peerFetchKey pc) l
    | none => if s.fetchBad.contains (core, lineAt (pc % 2 ^ 57)) then .poisoned else .away

/-- The core keeps a copy of a line that it fetched. -/
def State.keepLine (s : State) (core sa : Nat) (l : FetchLine) : State :=
  let c := s.core core
  s.setCore core { c with icache := tput c.icache (sa / 64) l }

/-- The fate of a fetch (R94, R96, R97). -/
inductive FetchEnd where
  | ok (sa : Nat) (l : FetchLine)
  | held (x : XFault)
  | trap (kind detail : Nat)
  /-- A parity disagreement that a fresh copy may mend: the line is refetched first (R95). -/
  | refetch (sa : Nat)
  /-- The line is another package's, and is asked of it (R209). -/
  | away
  deriving DecidableEq, Repr

/-- The fetch checks of R94 in order, for the slot at a PC; the target bit only where the entry asks for it (R93). A parity
disagreement that the memory's copy shares remains after the refetch (R95). -/
def State.fetch (s : State) (core ctx pc : Nat) (entering : Bool) : FetchEnd :=
  match s.lookLine core ctx pc with
  | .fault x => .held x
  | .poisoned => .trap 0x0D 0
  | .away => .away
  | .line sa l =>
    if (s.core core).refetch.contains (sa / 64) then .refetch sa
    else if lineIllegal l then .trap 0x03 0
    else match parityBad l with
      | some k => if 2 ^ 64 ≤ sa ∨ lineOfBytes (s.viewBytes core sa 64) = l then .trap 0x04 k else .refetch sa
      | none => if entering ∧ !targetBit l (slotOfPc pc) then .trap 0x05 (slotOfPc pc) else .ok sa l

/-- The fate of an explicit transfer to a PC (R88, R93, R96). -/
def State.transfer (s : State) (core ctx pc : Nat) : FetchEnd :=
  if pcOk pc then s.fetch core ctx pc true else .trap 0x05 0xFF

/-- The number by which the answer to a fetch finds its place. -/
def fetchId : Nat := 2 ^ 30

/-- Asks the owner of a line for it, once for a core (R97, R209). -/
def State.askLine (s : State) (core ctx b i lane pc : Nat) : State :=
  let line := lineAt (pc % 2 ^ 57)
  if s.fetchAsks.contains (core, line) then s
  else { s with fetchAsks := s.fetchAsks ++ [(core, line)] }.request ctx clsDemand .fetch line 64 [] (replyTag b i fetchId lane)

/-- A poisoned answer to a fetch is used up. -/
def State.dropBad (s : State) (core pc : Nat) : State :=
  { s with fetchBad := s.fetchBad.filter fun x => x != (core, lineAt (pc % 2 ^ 57)) }

/-- Starts the refetch of a line (R95). -/
def State.startRefetch (s : State) (core ctx va sa : Nat) : State :=
  let c := s.core core
  if c.refetch.contains (sa / 64) then s
  else (s.setCore core { c with refetch := sins c.refetch (sa / 64) }).soon (.lineRefetch core ctx va)

end Sys2Proof.Machine
end

