-- ==== Sys2Proof/Machine/Levels.lean ====
section
/-! DEFINITION. Launches and the levels above them: records, creation, completion counters, graph nodes, retirement of
blocks and cancels (spec/02_execution.md R48, R61 to R64; spec/15_scheduling.md R327 to R334, R339). -/

namespace Sys2Proof.Machine

/-! ### Records (R327, R328) -/

/-- A field of a record: n bits at bit position lo of the word at a byte. -/
def recField (r : List Byte) (byte lo n : Nat) : Nat := bits (ofBytes (r.drop byte)) lo n

def recKdesc (r : List Byte) : Nat := recField r 0 0 57
def recN (r : List Byte) : Nat := recField r 8 0 32
def recStk (r : List Byte) : Nat := recField r 12 20 4
def recAcc (r : List Byte) : Nat := recField r 12 14 6
def recTrapParam (r : List Byte) : Bool := recField r 12 13 1 == 1
def recRestart (r : List Byte) : Bool := recField r 12 12 1 == 1
def recKind (r : List Byte) : Nat := recField r 12 10 2
def recPrio (r : List Byte) : Nat := recField r 12 8 2
def recDies (r : List Byte) : Nat := recField r 12 0 8
def recStack (r : List Byte) : Nat := recField r 16 0 57
def recSeed (r : List Byte) : Dword := BitVec.ofNat 64 (recField r 24 0 64)
def recParams (r : List Byte) : Nat := recField r 32 0 57
def recCaps (r : List Byte) : Nat := recField r 40 0 57
def recNcap (r : List Byte) : Nat := recField r 48 0 4
def recNode (r : List Byte) : Option Nat := if recField r 52 31 1 = 1 then some (recField r 52 0 16) else none
/-- Stack size in bytes (R207, R327). -/
def recStackSize (r : List Byte) : Nat := if recStk r = 0 then 0 else 1024 * 2 ^ (recStk r - 1)
/-- Accumulator columns (R308). -/
def recCols (r : List Byte) : Nat := 32 * recAcc r
/-- Whether the mask admits a die; a zero mask admits all (R327). -/
def recOnDie (r : List Byte) (d : Nat) : Bool := recDies r == 0 || (recDies r).testBit d

/-- A malformed launch record (R10, R327). -/
def recMalformed (r : List Byte) : Bool :=
  recField r 0 57 7 != 0 || recN r == 0 || recField r 12 24 8 != 0 || recKind r == 3 || decide (12 ≤ recStk r) ||
  decide (16 < recAcc r) || recField r 16 57 7 != 0 || recField r 32 57 7 != 0 || recField r 40 57 7 != 0 ||
  decide (8 < recNcap r) || recField r 48 4 28 != 0 || (recNcap r == 0 && recCaps r != 0) || recField r 52 16 15 != 0 ||
  recField r 56 0 64 != 0

def kdEntry (d : List Byte) : Nat := recField d 0 0 57
def kdStream (d : List Byte) : Option Nat := if recField d 8 63 1 = 1 then some (recField d 8 0 57) else none
def kdWaves (d : List Byte) : Nat := recField d 16 0 6
def kdRegs (d : List Byte) : Nat := recField d 16 6 9
def kdFelted (d : List Byte) : Bool := recField d 16 15 1 == 1
def kdScratch (d : List Byte) : Nat := recField d 20 0 19
def kdMinWindow (d : List Byte) (k : Nat) : Nat := recField d (32 + 4 * k) 0 32
def kdQueue (d : List Byte) (k : Nat) : Nat := recField d (64 + 8 * k) 0 64
/-- Scratchpad size, rounded up to 1 KiB (R45). -/
def kdSpad (d : List Byte) : Nat := (kdScratch d + 1023) / 1024 * 1024
/-- Registers of a lane, rounded up to the granule of 8 (R45). -/
def kdRegsRounded (d : List Byte) : Nat := (kdRegs d + 7) / 8 * 8

/-- A queue descriptor of the kernel (R76, R328); its ranges are not tested (DESIGN CHOICE, log 45). -/
def queueBad (q : Nat) : Bool :=
  bits q 30 2 != 0 || bits q 32 7 != 0 || bits q 46 18 != 0 || bits q 39 7 != bits q 23 7
def queueOf (q : Nat) : SpQueue :=
  let count := bits q 23 7
  if count = 0 then SpQueue.none
  else { base := bits q 0 19, size := 16 * 2 ^ bits q 19 4, count, filled := 0, free := count, head := 0, tail := 0
         slots := copies .free count }

/-- A malformed kernel descriptor (R10, R328). -/
def kdMalformed (d : List Byte) : Bool :=
  recField d 0 57 7 != 0 || recField d 8 57 6 != 0 || recField d 16 16 16 != 0 || recField d 20 19 13 != 0 ||
  recField d 24 0 64 != 0 || (upFrom 0 8).any fun k => queueBad (kdQueue d k)

/-- What reading a launch record and its descriptor finds (R329, R447). -/
inductive LaunchRead where
  | ok (record desc : List Byte)
  | fault (va : Nat) (x : XFault)
  | poisoned
  | malformed
  deriving DecidableEq, Repr

/-- Reads and checks a launch record and its descriptor (R327, R328, R447). -/
def State.readLaunch (s : State) (ctx va : Nat) : LaunchRead :=
  if va % 64 ≠ 0 ∨ !s.isLocal va then .malformed
  else
    match s.readGlobal ctx va 64 with
    | .error x => .fault va x
    | .ok none => .poisoned
    | .ok (some r) =>
      let k := recKdesc r
      if recMalformed r ∨ k % 128 ≠ 0 ∨ !s.isLocal k then .malformed
      else
        match s.readGlobal ctx k 128 with
        | .error x => .fault k x
        | .ok none => .poisoned
        | .ok (some d) => if kdMalformed d then .malformed else .ok r d

/-- Reads at most 128 bytes that may cross a line; none where they cannot be read. -/
def State.readSpan (s : State) (ctx va n : Nat) : Option (List Byte) :=
  let k := min n (128 - va % 128)
  let one (a m : Nat) : Option (List Byte) :=
    if !s.isLocal a then none else match s.readGlobal ctx a m with | .ok (some b) => some b | _ => none
  match one va k, if n = k then some [] else one (va + k) (n - k) with
  | some x, some y => some (x ++ y)
  | _, _ => none

/-- One parameter binding (R78, R327), none if it is malformed (R10). -/
def paramOf (b : List Byte) : Option Param :=
  if recField b 0 57 6 ≠ 0 ∨ recField b 12 0 32 ≠ 0 then none
  else some { bound := recField b 0 63 1 == 1, base := recField b 0 0 57, size := recField b 8 0 32 }

/-- The 64 KiB pages of a bound window in this package; another package's are its owner's to map (R209). -/
def State.windowPages (s : State) (p : Param) : List Nat :=
  if p.bound && p.size != 0 && s.isLocal p.base then
    upFrom (p.base / 65536) ((p.base + p.size - 1) / 65536 + 1 - p.base / 65536)
  else []

/-- The pages of a bound window are resident and mapped (R227). -/
def State.windowMapped (s : State) (ctx : Nat) (p : Param) : Bool := (s.windowPages p).all fun g => (s.physOf ctx (g * 65536)).isSome

/-- The bytes of a 64 KiB page that are not zero, by their offsets in it. -/
def State.pageBytes (s : State) (pa : Nat) : List (Nat × Byte) :=
  s.mem.filterMap fun c => ((upFrom 0 512).find? fun l => lineOf (storageOf (pa + 128 * l)) == lineOf c.1).map fun l =>
    (128 * l + c.1 % 128, c.2)

/-- A window as it is bound at launch: with the physical addresses of its pages and the bytes that are not zero there (R227). -/
def State.bindWindow (s : State) (ctx : Nat) (p : Param) : Param :=
  let frames := (s.windowPages p).filterMap fun g => (s.physOf ctx (g * 65536)).map fun pa => (g, pa)
  { p with frames, held := frames.flatMap fun f => (s.pageBytes f.2).map fun x => (f.1 * 65536 + x.1, x.2) }

/-- What a launch binds when it is created (R227, R327, R413): its windows, its root capabilities, and the status with
which it is to complete if they are not fit. An address of 0 binds no window (log 25). -/
def State.bindLaunch (s : State) (ctx : Nat) (r : List Byte) : List Param × List Quad × Option Nat :=
  let ps := if recParams r = 0 then some (copies { bound := false, base := 0, size := 0 } 8)
    else (s.readSpan ctx (recParams r) 128).bind fun b => (upFrom 0 8).mapM fun k => paramOf (b.drop (16 * k))
  let cs := if recNcap r = 0 then some []
    else (s.readSpan ctx (recCaps r) (16 * recNcap r)).map fun b =>
      (upFrom 0 (recNcap r)).map fun k => BitVec.ofNat 128 (ofBytes ((b.drop (16 * k)).take 16))
  match ps, cs with
  | some ps, some cs =>
    let ws := ps.map (s.bindWindow ctx)
    if cs.any fun q => (q.extractLsb' 112 16) != 0 then (ws, cs, some 3)
    else if ps.all (s.windowMapped ctx) then (ws, cs, none) else (ws, cs, some 2)
  | _, _ => ([], [], some 2)

/-! ### Statuses and counters (R61, R62) -/

/-- Severity: ok, cancelled, refused, failed, failed-not-run-twice, CP fault (R61, R339). -/
def severity : Nat → Nat
  | 0 => 0 | 1 => 1 | 3 => 2 | 2 => 3 | 4 => 4 | _ => 5
/-- The worse of two statuses. -/
def worse (a b : Nat) : Nat := if severity a < severity b then b else a

/-- One member of a level completes with a status. -/
def Counter.memberDone (c : Counter) (st : Nat) : Counter :=
  let o := c.outstanding - 1
  { c with outstanding := o, status := worse c.status st, done := c.done || o == 0 }

/-- The 64-bit record of R62. -/
def Counter.encode (c : Counter) : Dword :=
  BitVec.ofNat 64 (c.status * 2 ^ 62 + (if c.done then 2 ^ 61 else 0) + (if c.cancel then 2 ^ 60 else 0) +
    (if c.hard then 2 ^ 59 else 0) + c.outstanding % 2 ^ 32)

/-- The next generation of a slot, skipping all ones (R330). -/
def nextGen (width gen : Nat) : Nat :=
  let g := (gen + 1) % 2 ^ width
  if g = 2 ^ width - 1 then 0 else g

/-- A free launch slot: the lowest that holds no launch (R330). -/
def State.freeLaunch (s : State) : Option Nat := (upFrom 0 4096).find? fun l => !(s.launch l).alive

/-- Creates a launch in a slot: counter outstanding = n (R329). A slot that was used before takes the next generation
(R330). A creating launch gains a member (R61); a queue's command gains a live launch (R339). -/
def State.createLaunch (s : State) (l : Nat) (record desc : List Byte) (ctx prio : Nat) (creator node : Option Nat)
    (cmd : Option CmdRef) : State :=
  let old := s.launch l
  let (params, caps, early) := s.bindLaunch ctx record
  let x : LaunchSlot := { LaunchSlot.reset with
    gen := if old.record.isEmpty then old.gen else nextGen 18 old.gen
    counter := { Counter.reset with outstanding := recN record }
    alive := true, record, desc, ctx, prio, order := s.launchOrder, creator, node, cmd, params, caps, early }
  let s1 := { s.setLaunch l x with launchOrder := s.launchOrder + 1 }
  let s2 := match creator with
    | some c =>
      let y := s1.launch c
      s1.setLaunch c { y with counter := { y.counter with outstanding := y.counter.outstanding + 1 } }
    | none => s1
  match cmd with
  | some r =>
    let h := s2.hwq r.q
    s2.setHwq r.q { h with cmds := h.cmds.map fun c => if c.seq == r.seq then { c with live := c.live + 1 } else c }
  | none => s2

/-- Priority of a launch: the lower of the record's and a ceiling (R329). -/
def capPrio (record : List Byte) (ceiling : Nat) : Nat := min (recPrio record) ceiling

/-! ### Nodes and completion upward (R61, R333, R339) -/

def Node.ctx (n : Node) : Nat := bits n.word0.toNat 52 8
def Node.graph (n : Node) : Nat := bits n.word0.toNat 32 12
def Node.nsucc (n : Node) : Nat := bits n.word0.toNat 24 8
def Node.launchAt (n : Node) : Nat := bits n.word1.toNat 0 57
def Node.succAt (n : Node) : Nat := bits n.word2.toNat 0 57

/-- CTX_SCHED.run = 3: torn down (R336). -/
def State.tornDown (s : State) (ctx : Nat) : Bool := bits (s.ctx ctx).sched.toNat 60 2 == 3
/-- CTX_SCHED.prio (R336). -/
def State.ctxPrio (s : State) (ctx : Nat) : Nat := bits (s.ctx ctx).sched.toNat 58 2

/-- Counts a launch that teardown refused in CTX_DOWN (R335, R336). -/
def State.countRefused (s : State) (ctx : Nat) : State :=
  let c := s.ctx ctx
  s.setCtx ctx { c with down := c.down + BitVec.ofNat 64 (2 ^ 32) }

/-- One thing still to be done as levels complete. -/
inductive Work where
  /-- One member of a launch completes. -/
  | launch (l st : Nat)
  | graph (g st : Nat)
  | phase (p st : Nat)
  | job (j st : Nat)
  /-- A node completes. -/
  | node (n st : Nat)
  /-- A node is signalled. -/
  | signal (n : Nat)
  /-- A node whose predecessors are done starts. -/
  | start (n : Nat)
  deriving DecidableEq, Repr

/-- The successors of a node, as its context's tables give them; none where they cannot be read (log 12). -/
def State.successors (s : State) (n : Node) : List Nat :=
  (upFrom 0 n.nsucc).filterMap fun i =>
    match s.readGlobal n.ctx (n.succAt + 2 * i) 2 with
    | .ok (some b) => some (ofBytes b)
    | _ => none

/-- A launch loses a member; at zero it completes, its slot frees, and its creator, node and command are told. -/
def State.launchMember (s : State) (l st : Nat) : State × List Work :=
  let x := s.launch l
  let c := x.counter.memberDone st
  if c.outstanding ≠ 0 then (s.setLaunch l { x with counter := c }, [])
  else
    let s1 := s.setLaunch l { x with counter := c, alive := false }
    let s2 := match x.cmd with
      | some r =>
        let h := s1.hwq r.q
        s1.setHwq r.q { h with cmds := h.cmds.map fun k =>
          if k.seq == r.seq then
            { k with live := k.live - 1, status := worse k.status (if x.notRunTwice then 4 else c.status) }
          else k }
      | none => s1
    (s2, (x.creator.map fun p => Work.launch p c.status).toList ++ (x.node.map fun n => Work.node n c.status).toList)

/-- A node starts: an empty node completes at once; otherwise its launch is created (R329, R333). A launch that cannot be
read yet, or finds no slot, leaves the node in state 2; a malformed or poisoned record completes it as refused (log 12). -/
def State.startNode (s : State) (n : Nat) : State × List Work :=
  let x := s.node n
  let s1 := s.setNode n { x with st := 2 }
  if x.launchAt = 0 then (s1, [.node n 0])
  else if s.tornDown x.ctx then (s1.countRefused x.ctx, [.node n 3])
  else if (s.graph x.graph).counter.cancel then (s1, [.node n 3])
  else
    match s1.readLaunch x.ctx x.launchAt with
    | .fault va f => (s1.enterFault (s1.localFault ioTable x.ctx va 7 f) none, [])
    | .poisoned => (s1, [.node n 3])
    | .malformed => (s1, [.node n 3])
    | .ok r d =>
      if recNode r ≠ none ∧ recNode r ≠ some n then (s1, [.node n 3])
      else match s1.freeLaunch with
        | none => (s1, [])
        | some l => (s1.createLaunch l r d x.ctx (capPrio r (s.ctxPrio x.ctx)) none (some n) none, [])

/-- One piece of work, and what follows from it. -/
def State.work (s : State) : Work → State × List Work
  | .launch l st => s.launchMember l st
  | .graph g st =>
    let x := s.graph g
    let c := x.counter.memberDone st
    (s.setGraph g { x with counter := c }, if c.outstanding = 0 then [.phase x.parent c.status] else [])
  | .phase p st =>
    let x := s.phase p
    let c := x.counter.memberDone st
    (s.setPhase p { x with counter := c }, if c.outstanding = 0 then [.job x.parent c.status] else [])
  | .job j st =>
    let x := s.job j
    (s.setJob j { x with counter := x.counter.memberDone st }, [])
  | .node n st =>
    let x := s.node n
    (s.setNode n { x with st := 3 }, (s.successors x).map .signal ++ [.graph x.graph st])
  | .signal n =>
    let x := s.node n
    if x.st = 1 then
      if x.pred ≤ 1 then (s.setNode n { x with pred := 0, st := 2 }, [.start n])
      else (s.setNode n { x with pred := x.pred - 1 }, [])
    else ({ s with nodeSignals := s.nodeSignals ++ [n] }, [])
  | .start n => s.startNode n

/-- Works through a list of completions, first to last; the bound exceeds 65,536 nodes with 255 successors each. -/
def State.settle (s : State) : Nat → List Work → State
  | _, [] => s
  | 0, _ => s
  | f + 1, w :: rest =>
    let (s1, more) := s.work w
    s1.settle f (more ++ rest)

/-- The bound of settle. -/
def workFuel : Nat := 2 ^ 25

/-- Completions, settled. -/
def State.settleAll (s : State) (w : List Work) : State := s.settle workFuel w

/-- Nodes in state 2 that have no launch yet try again (R329). -/
def State.startNodes (s : State) : State :=
  let waiting := s.nodes.filterMap fun p =>
    if p.2.st = 2 ∧ !(s.launches.any fun l => l.2.alive && l.2.node == some p.1) then some (Work.start p.1) else none
  s.settleAll waiting

/-! ### Retirement of blocks (R48, R61, R238, R314, R496) -/

/-- The status that a block retires with. -/
def Ending.status : Ending → Nat
  | .ok => 0 | .cancelled => 1 | .failed => 2 | .notRunTwice => 2

/-- The ending of a block that has stopped before: the first one stands, but for ok, which a fault of a write still under way
turns into failed (R251). -/
def Ending.after (e : Ending) : Option Ending → Ending
  | none => e
  | some .ok => e
  | some x => x

/-- Whether a waiter is a unit of the block. -/
def Waiter.ofBlock (b : Nat) : Waiter → Bool
  | .wave k _ => k == b
  | .seq k => k == b
  | _ => false

/-- Removes a block's links from the merge tables; the entries stay (R248). -/
def State.unlink (s : State) (b : Nat) : State :=
  let f := fun e : MergeEntry => { e with waiters := e.waiters.filter fun w => !w.ofBlock b }
  { s with dies := s.dies.map fun d => { d with merge := d.merge.map f }, ioMerge := s.ioMerge.map f }

/-- A wave holds an access of this package at a granule. -/
def Wave.holdsHere (w : Wave) (ctx granule : Nat) : Bool :=
  w.held.any fun h => h.ctx == ctx && h.granule == granule && !h.remote

/-- Removes a wave's links to entries on which it no longer waits; the entries stay (R245, R247). -/
def State.tidyLinks (s : State) (b i : Nat) : State :=
  match s.wave? b i with
  | none => s
  | some w =>
    let f (e : MergeEntry) : MergeEntry :=
      if w.holdsHere e.ctx e.granule then e else { e with waiters := e.waiters.filter fun x => x != .wave b i }
    { s with dies := s.dies.map fun d => { d with merge := d.merge.map f }, ioMerge := s.ioMerge.map f }

/-- The lane waits at its LDCHAIN for chain trackers (R359). -/
def Lane.onReply (l : Lane) : Bool := match l.st with | .blocked .reply => true | _ => false

/-- Wakes the lanes of a core that wait for chain trackers (R359). -/
def State.wakeTrackerWaiters (s : State) (core : Nat) : State :=
  s.onBlocks fun b x =>
    if coreOf b = core then
      { x with waves := x.waves.map fun w => w.mapLanes fun _ l => if l.onReply then { l with st := .live } else l }
    else x

/-- Promotions that a block's waves await are answered to nobody (R280): they complete all the same. -/
def State.dropPromos (s : State) (b : Nat) : State :=
  let f (p : Promo) : Promo := if p.local?.any fun x => x.1 == b then { p with local? := none } else p
  { s with cores := s.cores.map fun c => (c.1, { c.2 with promos := c.2.promos.map f }) }

/-- Frees what a block holds of its core: claims, the array, trackers, the felting of its cluster (R45, R166, R215). Lanes of
the core that wait for trackers find them free (R359). -/
def State.freeCore (s : State) (b : Nat) : State :=
  let c := coreOf b
  let k := s.core c
  let mine := fun a : Agent => match a with | .wave x _ => x == b | .seq x => x == b | .cp _ => false
  let k1 := k.withdraw fun x => match x.agent with | some a => mine a | none => false
  let k2 := { k1 with
    array := if k1.array = some b then none else k1.array
    trackers := k1.trackers.filter fun t => t.blk != b }
  let s1 := ((s.setCore c k2).wakeTrackerWaiters c).dropPromos b
  if s1.blocks.any fun p => clusterOf (coreOf p.1) == clusterOf c then s1
  else (upFrom (clusterOf c * 4) 4).foldl (fun s i => s.setCore i { s.core i with felted := none }) s1

/-- A block's writes are not all visible at .sys: posted writes of its lanes or sequencer, or invalidations, are
unacknowledged (R266, R274, R349). -/
def State.unsettled (s : State) (b : Nat) : Bool :=
  s.posted.any (fun p => p.blk == b && (p.eng.isNone || p.eng == some 4)) || !s.invalWait.isEmpty

/-- The block is gone: its resources are freed (R48) and its launch loses a member (R61). -/
def State.retireNow (s : State) (b : Nat) (blk : Block) (e : Ending) : State :=
  let s2 := ((s.delBlock b).unlink b).freeCore b
  let s3 := if e = .notRunTwice then
      s2.setLaunch blk.launch { s2.launch blk.launch with notRunTwice := true } else s2
  (s3.settleAll [.launch blk.launch e.status]).startNodes

/-- A block retires with a status once its writes are visible at .sys, which the completion of its launch releases (R274,
log 21); until then it stands stopped, with no link left in a merge table (R248), and an ending other than ok that came first stands. -/
def State.retire (s : State) (b : Nat) (e : Ending) : State :=
  match s.block? b with
  | none => s
  | some blk =>
    let e1 := e.after blk.stopped
    let s1 := (((s.writeBackAt (coreOf b) .sys).onBlock b fun x => { x with stopped := some e1 }).unlink b).freeCore b
    if s1.unsettled b then s1 else s1.retireNow b blk e1

/-- Every block that has stopped retires (R63, R238). -/
def State.retireStopped (s : State) : State :=
  s.blocks.foldl (fun s p => match p.2.stopped with | some e => s.retire p.1 e | none => s) s

/-- A wave's lanes have exited, and no instruction of theirs is still to be performed. -/
def Wave.finished (w : Wave) : Bool := w.lanes.all Lane.isExited && w.pend.all fun p => p.again.isNone

/-- Whether a block has done everything: all waves exited, and the sequencer ended or never started (R48). -/
def Block.finished (b : Block) : Bool :=
  b.waves.all Wave.finished && (b.seq.st == .absent || b.seq.st == .ended)

/-- Retires a block that has finished. -/
def State.retireIfDone (s : State) (b : Nat) : State :=
  match s.block? b with
  | some x => if x.finished then s.retire b .ok else s
  | none => s

/-- A block fails: all its waves and its sequencer stop, its regions are discarded, it retires with status failed
(R238, R314, R496). -/
def State.failBlock (s : State) (b : Nat) : State := s.retire b .failed

/-! ### Cancel (R63, R64, R291) -/

/-- Discards request-engine entries (R63 step 3 with .hard, R342); their barriers and queue slots stay (R291), what is still
acknowledged for them counts nowhere, and a claim for one is withdrawn with its reservation (R166). -/
def State.dropEntries (s : State) (p : ReEntry → Bool) : State :=
  let gone (core q : Nat) : Bool := match lget [] (s.core core).reQueues q with | e :: _ => p e | [] => false
  { s with
    posted := s.posted.map fun x => match x.eng with
      | some q => if decide (q < 4) && gone x.core q then { x with eng := some 5 } else x
      | none => x
    farOut := s.farOut.map fun x => if gone x.2.1 x.2.2 then (x.1, x.2.1, 5) else x
    parked := s.parked.filter fun x => !p x.entry
    cores := s.cores.map fun c =>
      let claimed := c.2.reNext.any (gone c.1)
      (c.1, { c.2 with
        reQueues := c.2.reQueues.map fun q => q.filter fun e => !p e
        reNext := if claimed then none else c.2.reNext
        reservation := if claimed && c.2.reservation == some 5 then none else c.2.reservation }) }

/-- Cancels a launch: blocks not yet placed complete as cancelled, resident and saved blocks stop and retire as cancelled; what a
saved block had kicked is still performed, but with .hard (R63). -/
def State.cancelLaunch (s : State) (l : Nat) (hard : Bool) : State :=
  let x := s.launch l
  if x.counter.done ∨ !x.alive then s
  else
    let unplaced := recN x.record - x.nextBlk + x.rerun.length
    let savedN := (s.saved.filter fun v => v.blk.launch == l).length
    let s1 := s.setLaunch l { x with
      counter := { x.counter with cancel := true, hard := x.counter.hard || hard }
      nextBlk := recN x.record, rerun := [] }
    let s2 : State := { s1 with
      saved := s1.saved.filter fun v => v.blk.launch != l
      parked := s1.parked ++ if hard then [] else (s1.saved.filter fun v => v.blk.launch == l).flatMap fun v =>
        v.entries.map fun e => { core := v.core, q := e.1, entry := e.2 }
      blocks := s1.blocks.map fun p => if p.2.launch == l then (p.1, { p.2 with stopped := some (p.2.stopped.getD .cancelled) }) else p }
    let s2 := (s2.blocks.filter fun p => p.2.launch == l).foldl (fun s p => s.unlink p.1) s2
    let s3 := if hard then s2.dropEntries fun e => e.launch == l else s2
    let left := x.counter.outstanding - (unplaced + savedN)
    if unplaced + savedN = 0 then s3
    else
      let y := s3.launch l
      let s4 := s3.setLaunch l { y with counter := { y.counter with outstanding := left + 1 } }
      s4.settleAll [.launch l 1]

/-- The launches that a launch's blocks created, and so on down (R61). -/
def State.cancelTree (s : State) (hard : Bool) : Nat → List Nat → State
  | _, [] => s
  | 0, _ => s
  | f + 1, l :: rest =>
    let kids := s.launches.filterMap fun p => if p.2.alive ∧ p.2.creator = some l then some p.1 else none
    (s.cancelLaunch l hard).cancelTree hard f (kids ++ rest)

/-- Cancels the nodes and launches of a graph: every node that has no launch yet completes at once as cancelled, so that the signals
which follow find none of them waiting (R63, R333). -/
def State.cancelGraph (s : State) (g : Nat) (hard : Bool) : State :=
  let x := s.graph g
  if x.counter.done then s
  else
    let s1 := s.setGraph g { x with counter := { x.counter with cancel := true, hard := x.counter.hard || hard } }
    let waiting := s1.nodes.filterMap fun p => if p.2.st = 1 ∧ p.2.graph = g then some p.1 else none
    let held := s1.nodes.filterMap fun p =>
      if p.2.st = 2 ∧ p.2.graph = g ∧ !(s1.launches.any fun l => l.2.alive && l.2.node == some p.1) then some p.1 else none
    let launches := s1.launches.filterMap fun p =>
      if p.2.alive && p.2.node.any (fun n => (s1.node n).graph == g) then some p.1 else none
    let s2 := (waiting ++ held).foldl (fun s n => s.setNode n { s.node n with st := 3 }) s1
    (s2.settleAll ((waiting ++ held).map fun n => .node n 1)).cancelTree hard 4096 launches

/-- Cancels the graphs of a phase. -/
def State.cancelPhase (s : State) (p : Nat) (hard : Bool) : State :=
  let x := s.phase p
  if x.counter.done then s
  else
    let s1 := s.setPhase p { x with counter := { x.counter with cancel := true, hard := x.counter.hard || hard } }
    (s1.graphs.filter fun g => g.2.parent == p && g.2.counter.outstanding != 0).foldl (fun s g => s.cancelGraph g.1 hard) s1

/-- Cancels the phases of a job. -/
def State.cancelJob (s : State) (j : Nat) (hard : Bool) : State :=
  let x := s.job j
  if x.counter.done then s
  else
    let s1 := s.setJob j { x with counter := { x.counter with cancel := true, hard := x.counter.hard || hard } }
    (s1.phases.filter fun p => p.2.parent == j && p.2.counter.outstanding != 0).foldl (fun s p => s.cancelPhase p.1 hard) s1

/-! ### Level handles (R330) -/

/-- What a handle names. -/
inductive Level where
  | launch (l : Nat)
  | graph (g : Nat)
  | phase (p : Nat)
  | job (j : Nat)
  deriving DecidableEq, Repr

/-- Whether a graph belongs to a context: a node of the context names it, or no node names it (log 13). -/
def State.graphOfCtx (s : State) (g ctx : Nat) : Bool :=
  let ns := s.nodes.filter fun p => p.2.st != 0 && p.2.graph == g
  ns.isEmpty || ns.any fun p => p.2.ctx == ctx

/-- Resolves a handle in a context: its generation must be the slot's (R330, R409, R417). -/
def State.resolve (s : State) (ctx : Nat) (h : Word) : Option Level :=
  let n := h.toNat
  match bits n 30 2 with
  | 0 =>
    let x := s.launch (bits n 0 12)
    if x.gen = bits n 12 18 ∧ !x.record.isEmpty ∧ x.ctx = ctx then some (.launch (bits n 0 12)) else none
  | 1 => if (s.graph (bits n 0 12)).gen = bits n 12 18 ∧ s.graphOfCtx (bits n 0 12) ctx then some (.graph (bits n 0 12)) else none
  | 2 => if (s.phase (bits n 0 8)).gen = bits n 8 22 then some (.phase (bits n 0 8)) else none
  | _ => if (s.job (bits n 0 6)).gen = bits n 6 24 then some (.job (bits n 0 6)) else none

/-- The counter of a level. -/
def State.counter (s : State) : Level → Counter
  | .launch l => (s.launch l).counter
  | .graph g => (s.graph g).counter
  | .phase p => (s.phase p).counter
  | .job j => (s.job j).counter

/-- Cancels a level and everything below it (R63). -/
def State.cancel (s : State) (lv : Level) (hard : Bool) : State :=
  match lv with
  | .launch l => s.cancelTree hard 4096 [l]
  | .graph g => s.cancelGraph g hard
  | .phase p => s.cancelPhase p hard
  | .job j => s.cancelJob j hard

end Sys2Proof.Machine
end

