-- ==== Sys2Proof/Machine/Operands.lean ====
section
/-! DEFINITION. The instruction in hand and its operands: participating lanes, every operand form, parameter windows, and
the writes of a destination (spec/02_execution.md R35; spec/03_state.md R67 to R71; spec/04_encoding.md R100 to R107;
spec/10_memory.md R226, R227). -/

namespace Sys2Proof.Machine

/-- What an instruction in hand works on: its wave and active lanes, or the registers of a hardware queue seen as one
lane (R323). -/
structure Cur where
  agent : Agent
  /-- Block id and wave index; 0 for the command processor. -/
  bid : Nat
  wid : Nat
  core : Nat
  ctx : Nat
  wave : Wave
  active : LaneSet
  price : Nat
  params : List Param
  trapOnParam : Bool
  /-- The instruction's yield bit (R52). -/
  yields : Bool := false
  deriving DecidableEq, Repr

/-- The wave that issues the instruction in hand, or a control stream's registers (R323: one lane). A matrix stream has
no wave. -/
def State.cur? (s : State) : Option Cur :=
  match s.issue with
  | none => none
  | some i =>
    match i.agent with
    | .wave b w =>
      match s.block? b with
      | none => none
      | some blk =>
        match blk.wave? w with
        | none => none
        | some wv => some { agent := i.agent, bid := b, wid := w, core := coreOf b, ctx := blk.ctx, wave := wv, active := i.active
                            price := i.price, params := blk.params, trapOnParam := blk.trapOnParam
                            yields := i.yields }
    | .cp q =>
      let h := s.hwq q
      let w := Wave.start h.pc 0
      some { agent := i.agent, bid := 0, wid := 0, core := 0, ctx := bits h.cfg0.toNat 52 8, wave := { w with w := h.w }
             active := 1, price := 0, params := [], trapOnParam := false }
    | .seq _ => none

/-- The PC of the instruction in hand: that of its lowest active lane. -/
def Cur.pc (c : Cur) : Pc := (c.wave.lane ((lowLane c.active).getD 0)).pc

/-! ### Source operands (R100, R101, R104, R105, R107) -/

/-- How the instruction reads an immediate (R104). -/
inductive ImmTy where
  | int
  | packed16
  | fp (f : FFmt)
  | fpPacked (f : PFmt)
  deriving DecidableEq, Repr

/-- The FP32 value of an immediate, NaNs made canonical (R104, R105). -/
def immF32 (v : BitVec 18) : Nat :=
  let x := v.toNat * 2 ^ 14
  if bits x 23 8 = 255 ∧ x % 2 ^ 23 ≠ 0 then ffF32.canon else x

/-- An FP immediate in a 16-bit format: RoundRNE, no flags (R104, R105). -/
def immF16 (f : FF) (v : BitVec 18) : Nat := (f.deliver .rn false (ffF32.value (immF32 v))).1

/-- The value of an immediate (R104). -/
def immVal (ty : ImmTy) (v : BitVec 18) : Dword :=
  match ty with
  | .int => v.signExtend 64
  | .packed16 => BitVec.ofNat 64 ((v.setWidth 16).toNat * 0x10001)
  | .fp .f32 => BitVec.ofNat 64 (immF32 v)
  | .fp f => BitVec.ofNat 64 (immF16 (ffOf f) v)
  | .fpPacked f => BitVec.ofNat 64 (immF16 (pfOf f) v * 0x10001)

/-- A byte of a parameter window in the tables of now, none where they do not map it (R227); in another package's memory, as the
copy of its line has it (R347). -/
def State.paramByte (s : State) (ctx va : Nat) : Option Byte :=
  if s.isLocal va then
    match s.translate ctx va .read with
    | .ok l => some (s.homeByte l.sa)
    | .error _ => none
  else (s.peerCopy va 1).bind (·[0]?)

/-- The storage address of a window's byte at launch (R227). -/
def Param.frameOf (p : Param) (va : Nat) : Option Nat := (tfind p.frames (va / 65536)).map fun pa => storageOf (pa + va % 65536)

/-- A word as four bytes give it, little-endian; none where one is missing. -/
def wordOf (f : Nat → Option Byte) : Option Word :=
  match f 0, f 1, f 2, f 3 with
  | some a, some b, some c, some d => some (d ++ c ++ b ++ a)
  | _, _, _, _ => none

/-- What an aligned word of a window may read as (R227): its storage at launch, as it was then and as it is; and, where the driver
has changed the translation since, what the tables map there now, or zero. -/
def State.paramMay (s : State) (ctx : Nat) (p : Param) (va : Nat) : List Word :=
  let old := wordOf fun j => (p.frameOf (va + j)).map fun _ => tget 0 p.held (va + j)
  let cur := wordOf fun j => (p.frameOf (va + j)).map s.homeByte
  let now := wordOf fun j => s.paramByte ctx (va + j)
  let same := match s.translate ctx va .read with | .ok l => p.frameOf va == some l.sa | .error _ => false
  if s.isLocal va then (cur.toList ++ old.toList) ++ (if same then [] else now.toList ++ [0]) else now.toList

/-- The aligned 4-byte word at an address of a window: one of the values that R227 leaves open, a free choice; a window that the
model has bound without its pages reads as the tables map it. -/
def State.paramWord (s : State) (ctx : Nat) (p : Param) (va : Nat) : Word :=
  match s.paramMay ctx p va with
  | [] => 0
  | x :: t => if (x :: t).contains (Config.freeParam s.freeCtr va) then Config.freeParam s.freeCtr va else x

/-- A window by its number; an unbound one where there is none. -/
def windowOf (ps : List Param) (win : Nat) : Param := lget { bound := false, base := 0, size := 0 } ps win

/-- An offset of a window is in bounds for z bytes (R226). -/
def Param.fits (p : Param) (off z : Nat) : Bool := p.bound && decide (off + z ≤ p.size)

/-- z bytes at an offset of a window, none when out of bounds (R226). -/
def State.readWindow (s : State) (ctx : Nat) (ps : List Param) (win off z : Nat) : Option Dword :=
  let p := windowOf ps win
  if p.fits off z then
    if z = 8 then some (s.paramWord ctx p (p.base + off + 4) ++ s.paramWord ctx p (p.base + off))
    else some ((s.paramWord ctx p (p.base + off)).setWidth 64)
  else none

/-- The words of a window that a read of z bytes uses; none when it is out of bounds. -/
def windowWords (ps : List Param) (win off z : Nat) : List Nat :=
  let p := windowOf ps win
  if p.fits off z then (upFrom 0 (z / 4)).map fun j => p.base + off + 4 * j else []

/-- A word of a window lies on a poisoned line (R221), here or as another package's owner answered. -/
def State.wordPoison (s : State) (core ctx va : Nat) : Bool :=
  if s.isLocal va then
    match s.translate ctx va .read with
    | .ok l => s.isPoisoned l.sa
    | .error _ => false
  else s.fetchBad.contains (core, va % 2 ^ 57 / 128 * 128)

/-- The lines of another package that some words of a window need and no copy holds (R209, R347). -/
def State.wordsAway (s : State) (ctx : Nat) (l : List Nat) : List Nat :=
  (l.filter fun va => !s.isLocal va && (wordOf fun j => s.paramByte ctx (va + j)).isNone).foldl (fun m va => sins m (peerLine va)) []

/-- A register of a lane. -/
def Lane.reg (l : Lane) (n : Nat) : Word := tget 0 l.v n
/-- A uniform register. -/
def Wave.ureg (w : Wave) (n : Nat) : Word := tget 0 w.w n

/-- The value of a source operand of w registers (1 or 2) in a lane; 32-bit values are zero-extended (R100, R101). A
parameter operand out of bounds reads zero (R226). -/
def State.rd (s : State) (c : Cur) (ty : ImmTy) (w : Nat) (o : Opnd) (i : Nat) : Dword :=
  match o with
  | .lane n =>
    let l := c.wave.lane i
    if w = 2 then l.reg (n.toNat + 1) ++ l.reg n.toNat else (l.reg n.toNat).setWidth 64
  | .uni n =>
    if w = 2 then c.wave.ureg (n.toNat + 1) ++ c.wave.ureg n.toNat else (c.wave.ureg n.toNat).setWidth 64
  | .zero => 0
  | .ones => if w = 2 then BitVec.allOnes 64 else (BitVec.allOnes 32).setWidth 64
  | .laneIdx => BitVec.ofNat 64 i
  | .tileIdx => BitVec.ofNat 64 (i % c.wave.s)
  | .imm v => let x := immVal ty v; if w = 2 then x else (x.setWidth 32).setWidth 64
  | .param win off => (s.readWindow c.ctx c.params win.toNat off.toNat (4 * w)).getD 0
  | .m _ => 0
  | .x _ => 0

/-- A 32-bit source (R100). -/
def State.rd32 (s : State) (c : Cur) (o : Opnd) (i : Nat) : Word := (s.rd c .int 1 o i).setWidth 32
/-- A 64-bit source (R100). -/
def State.rd64 (s : State) (c : Cur) (o : Opnd) (i : Nat) : Dword := s.rd c .int 2 o i

/-- The four registers of a quad in a lane, as 128 bits (R6); a constant has no quad and reads as zero. -/
def Cur.quad (c : Cur) (o : Opnd) (i : Nat) : Quad :=
  match o with
  | .lane n => let l := c.wave.lane i; l.reg (n.toNat + 3) ++ l.reg (n.toNat + 2) ++ l.reg (n.toNat + 1) ++ l.reg n.toNat
  | .uni n => c.wave.ureg (n.toNat + 3) ++ c.wave.ureg (n.toNat + 2) ++ c.wave.ureg (n.toNat + 1) ++ c.wave.ureg n.toNat
  | _ => 0

/-- Whether the quad of an operand is tagged in a lane; only lane registers carry tags (R71, R101). -/
def Cur.tag (c : Cur) (o : Opnd) (i : Nat) : Bool :=
  match o with
  | .lane n => (c.wave.lane i).tags.getLsbD (n.toNat / 4)
  | _ => false

/-! ### Guards (R103) -/

/-- The guard in a lane. -/
def State.guardOn (s : State) (c : Cur) (g : Guard) (i : Nat) : Bool :=
  let x := s.rd32 c g.greg i
  let t1 := x.getLsbD g.g1.toNat != g.neg1
  let t2 := x.getLsbD g.g2.toNat != g.neg2
  match g.comb.toNat with
  | 0 => true
  | 1 => t1
  | 2 => t1 && t2
  | _ => t1 || t2

/-- The participating lanes: the active lanes whose guard is true (R35). -/
def State.parts (s : State) (c : Cur) (k : Ctl) : LaneSet :=
  lanesWhere fun i => c.active.getLsbD i && s.guardOn c k.guard i

/-! ### Parameter operands out of bounds (R226) -/

/-- The words of a window that an operand of w registers reads. -/
def Cur.paramWords (c : Cur) (w : Nat) (o : Opnd) : List Nat :=
  match o with
  | .param win off => windowWords c.params win.toNat off.toNat (4 * w)
  | _ => []

/-- The window of a parameter operand of w registers that is out of bounds. -/
def State.paramBad (s : State) (c : Cur) (w : Nat) (o : Opnd) : Option Nat :=
  match o with
  | .param win off => if (s.readWindow c.ctx c.params win.toNat off.toNat (4 * w)).isNone then some win.toNat else none
  | _ => none

/-! ### Destinations (R69, R71, R100) -/

/-- One register of a value: bits 32j to 32j + 31. -/
def wordAt (v : Quad) (j : Nat) : Word := v.extractLsb' (32 * j) 32

/-- The writes of a destination of w registers: each participating lane's own value, or the highest participating lane's
for a uniform register; 0x140 discards (R69, R100). -/
def writesOf (dst : Opnd) (w : Nat) (parts : LaneSet) (f : Nat → Quad) : List RegWrite :=
  match dst with
  | .lane n => (lanesOf parts).flatMap fun i =>
      (upFrom 0 w).map fun j => { uni := false, lane := i, reg := n.toNat + j, val := wordAt (f i) j }
  | .uni n =>
    match highLane parts with
    | none => []
    | some i => (upFrom 0 w).map fun j => { uni := true, lane := i, reg := n.toNat + j, val := wordAt (f i) j }
  | _ => []

/-- One lane register written: the value, and the quad's tag cleared (R71). -/
def Lane.setReg (l : Lane) (n : Nat) (x : Word) : Lane :=
  { l with v := tset 0 l.v n x, tags := l.tags &&& ~~~(BitVec.ofNat 64 (2 ^ (n / 4))) }

/-- The tag of a quad set to a value (R71). -/
def Lane.setTag (l : Lane) (q : Nat) (on : Bool) : Lane :=
  let m := BitVec.ofNat 64 (2 ^ q)
  { l with tags := if on then l.tags ||| m else l.tags &&& ~~~m }

/-- One register write lands: the register, its quad's tag, and the operand-store entry of the register (R71, R110). -/
def Wave.put (w : Wave) (x : RegWrite) : Wave :=
  if x.uni then { w with w := tset 0 w.w x.reg x.val }
  else
    { w.setLane x.lane ((w.lane x.lane).setReg x.reg x.val) with opStore := w.opStore.filter fun e => e.reg != x.reg }

/-- Register writes land in order. -/
def Wave.putAll (w : Wave) (l : List RegWrite) : Wave := l.foldl Wave.put w

/-- Tags take their values with a result. -/
def Wave.putTags (w : Wave) (l : List (Nat × Nat × Bool)) : Wave :=
  l.foldl (fun w t => w.setLane t.1 ((w.lane t.1).setTag t.2.1 t.2.2)) w

end Sys2Proof.Machine
end

