-- ==== Sys2Proof/Machine/Ops.lean ====
section
/-! DEFINITION. What the meanings share: taking a trap and returning from one, faults of the command processor, completing
an instruction, waiting, and register-only instructions (spec/00_scope.md R14, R15; spec/04_encoding.md R110 to R113;
spec/08_tokens.md R166; spec/15_scheduling.md R324; spec/22_ref_n_r.md R496, R497). -/

namespace Sys2Proof.Machine

/-! ### Interrupt vectors of a queue (R386) -/

/-- The vector of a halt, or of an advance of done, of a queue: its virtual function's if that is enabled, else PF0's. -/
def State.queueVector (s : State) (q : Nat) (halt : Bool) : Nat :=
  let v := q / 16
  if s.pkg.vfs.contains v then 272 + 17 * v + (if halt then 0 else 1 + q % 16)
  else if halt then 1 else 16 + q

/-! ### Pending results (R112, R113) -/

/-- The result is complete: no reply is outstanding, and nothing is still to be performed. -/
def Pending.ready (p : Pending) : Bool := p.waiting == 0 && p.again.isNone

/-- A pending result is written: its registers, then its tags and flags. -/
def Wave.land (w : Wave) (p : Pending) : Wave :=
  let w1 := (w.putAll p.writes).putTags p.tagged
  { w1 with fpstat := w1.fpstat ||| p.flags }

/-- Every complete pending result is written; one that awaits replies lets no lane issue before it (R113, R496). -/
def Wave.landAll (w : Wave) : Wave :=
  let done := w.pend.filter Pending.ready
  let rest := w.pend.filter fun p => !p.ready
  let w1 := done.foldl Wave.land w
  { w1 with pend := rest.map fun p => { p with left := laneIds.map fun i => (i, 0) } }

/-! ### Taking a trap (R15, R123, R496) -/

/-- CTX_TRAP of a context: whether traps enter the handler, and its first slot (R496). -/
def State.trapEn (s : State) (ctx : Nat) : Bool := (s.ctx ctx).trap.getLsbD 0
def State.trapLine (s : State) (ctx : Nat) : Pc := BitVec.ofNat 57 (64 * bits (s.ctx ctx).trap.toNat 6 51)

/-- A wave takes a trap in its active lanes (R496): every pending result is written, the operand store is cleared (R110),
%trapcause and %trappc are written; the trapped lanes enter the handler, or the block fails. A sweep is suspended, and
rotation begins anew among the trapped lanes (R39, log 69). The price is returned (R166). The saved PC is that of the active
lanes but for a fetch trap of a line (R96). -/
def State.takeTrap (s : State) (b i : Nat) (active : LaneSet) (kind detail price : Nat) (at? : Option Pc := none) : State :=
  match s.block? b with
  | none => s
  | some blk =>
    match blk.wave? i with
    | none => s
    | some w =>
      let pc := at?.getD (w.lane ((lowLane active).getD 0)).pc
      let w1 := { w.landAll with
        opStore := [], trapped := active, trapCause := BitVec.ofNat 32 (detail % 256 * 256 + kind), trapPc := pc }
      let s1 := (s.refund (coreOf b) price).setWave b i w1
      if s.trapEn blk.ctx ∧ !w.trapMode then
        s1.setWave b i ({ w1 with trapMode := true, rot := Rot.start, rotKept := w1.rot }.mapLanes fun j l =>
          if active.getLsbD j then { l with pc := s.trapLine blk.ctx, paid := false, waitsTo := none, check := false } else l)
      else s1.failBlock b

/-! ### Faults of the command processor (R324) -/

/-- A CP fault: the stream stops at the instruction, the queue halts, the command is to complete with status 5. -/
def State.cpFault (s : State) (q kind : Nat) : State :=
  let h := s.hwq q
  let cfg := h.cfg0.toNat
  let cfg1 := cfg - bits cfg 40 8 * 2 ^ 40 - bits cfg 62 1 * 2 ^ 62 + kind * 2 ^ 40 + 2 ^ 62
  let h1 := { h with
    cfg0 := BitVec.ofNat 64 cfg1
    cmds := h.cmds.map fun c => if some c.seq = h.cur then { c with ended := true, fault := kind, status := 5 } else c
    cur := none, left := 0, wait := .no }
  (s.setHwq q h1).interrupt (s.queueVector q true)

/-- An instruction's own trap: a trap of the wave, or the CP fault that the entry names (R15, R121). -/
def State.raise (s : State) (c : Cur) (kind detail : Nat) (cp : Nat := 3) : State :=
  match c.agent with
  | .wave b i => s.takeTrap b i c.active kind detail c.price
  | .cp q => s.cpFault q cp
  | .seq _ => s

/-! ### Completing an instruction -/

/-- The issuing wave, or the queue's uniform registers, take new contents. -/
def State.putCur (s : State) (c : Cur) (w : Wave) : State :=
  match c.agent with
  | .wave b i => s.setWave b i w
  | .cp q => s.setHwq q { s.hwq q with w := w.w }
  | .seq _ => s

/-- A control stream moves past one slot; it ends after its last (R323, R339). -/
def Hwq.advance (h : Hwq) : Hwq :=
  if h.left ≤ 1 then
    { h with
      pc := succPc h.pc, left := 0, first := false, wait := .no, cur := none
      cmds := h.cmds.map fun c => if some c.seq = h.cur then { c with ended := true } else c }
  else { h with pc := succPc h.pc, left := h.left - 1, first := false, wait := .no }

/-- Lanes move to the next slot (R88). -/
def Wave.advance (w : Wave) (m : LaneSet) : Wave :=
  w.mapLanes fun i l => if m.getLsbD i then { l with pc := succPc l.pc, paid := false, waitsTo := none } else l

/-- One instruction issued in each lane of a set, counted in every open window (R112). -/
def Wave.countIssue (w : Wave) (m : LaneSet) : Wave :=
  { w with pend := w.pend.map fun p => { p with left := p.left.map fun x => if m.getLsbD x.1 then (x.1, x.2 - 1) else x } }

/-- The yield bit of an issued instruction ends the wave's turn (R52). -/
def Wave.endIf (w : Wave) (yields : Bool) : Wave := { w with yielded := w.yielded || yields }

/-- Lanes that an instruction leaves unchanged issue it and move on. -/
def Wave.pass (w : Wave) (m : LaneSet) : Wave := (w.countIssue m).advance m

/-- A hold bit places the register of a field in the operand store (R110); an entry that it refreshes counts as placed again (DEDUCED,
log 76). -/
def Wave.place (w : Wave) (active : LaneSet) (on : Bool) (o : Opnd) : Wave :=
  match on, o with
  | true, .lane n =>
    let l := w.opStore.filter fun e => e.reg != n.toNat
    let l' := if l.length < 3 then l else l.drop 1
    { w with opStore := l' ++ [{ reg := n.toNat, vals := w.lanes.map fun x => x.reg n.toNat, lanes := active }] }
  | _, _ => w

/-- What an instruction leaves in registers and flags. -/
structure Result where
  writes : List RegWrite := []
  tagged : List (Nat × Nat × Bool) := []
  flags : Flags := 0
  deriving DecidableEq, Repr

/-- A result lands, or waits in its lookahead window (R112). -/
def Wave.deliver (w : Wave) (k : Ctl) (active : LaneSet) (r : Result) : Wave :=
  let w1 := { w with fpstat := w.fpstat ||| r.flags }
  if k.la = 0 then (w1.putAll r.writes).putTags r.tagged
  else { w1 with
    pendNext := w1.pendNext + 1
    pend := w1.pend ++ [{ id := w1.pendNext, lanes := active, waiting := 0
                          left := (lanesOf active).map fun i => (i, k.la.toNat)
                          writes := r.writes, tagged := r.tagged, landing := none, isChain := false, price := 0 }] }

/-- The yield bit ends the wave's turn (R52). -/
def Wave.endTurn (w : Wave) (k : Ctl) : Wave := w.endIf k.yieldBit

/-- What every completed instruction does to its wave before its own result: hold bits, windows, yield. -/
def Wave.issued (w : Wave) (c : Cur) (k : Ctl) (b c' d : Opnd) : Wave :=
  ((((w.place c.active k.holdB b).place c.active k.holdC c').place c.active k.holdD d).countIssue c.active).endTurn k

/-- The control stream of an agent moves on; nothing for a wave. -/
def State.cpAdvance (s : State) (c : Cur) : State :=
  match c.agent with
  | .cp q => s.setHwq q (s.hwq q).advance
  | _ => s

/-- An instruction completes: its active lanes, or its control stream, move on and its result is delivered. -/
def State.complete (s : State) (c : Cur) (k : Ctl) (b c' d : Opnd) (r : Result) : State :=
  (s.putCur c (((c.wave.issued c k b c' d).advance c.active).deliver k c.active r)).cpAdvance c

/-! ### Waiting -/

/-- The bound of a lane that begins, or goes on, to wait: posted writes made from now on need not be awaited (R266). -/
def Wait.bound (w : Wait) (next : Nat) (now : Option Nat) : Option Nat :=
  match w with
  | .order .sys => some (now.getD next)
  | _ => none

/-- Participating lanes block at the instruction, which issues again when the wait ends; the other active lanes move on
(R34, R37). -/
def State.waitAgain (s : State) (c : Cur) (p : LaneSet) (why : Wait) : State :=
  match c.agent with
  | .cp q => s.setHwq q { s.hwq q with wait := match why with | .launchSlot => .slot | _ => .order }
  | _ =>
    let w := (c.wave.pass (c.active &&& ~~~p)).endIf c.yields
    s.putCur c (w.mapLanes fun i l =>
      if p.getLsbD i then { l with st := .blocked why, paid := true, waitsTo := why.bound s.postedNext l.waitsTo } else l)

/-- Participating lanes block at the next slot. -/
def Wave.blockNext (w : Wave) (p : LaneSet) (why : Wait) : Wave :=
  w.mapLanes fun i l => if p.getLsbD i then { l with st := .blocked why } else l

/-! ### The shape of a meaning -/

/-- Runs a meaning on the instruction in hand. -/
def onCur (s : State) (f : Cur → State) : Host.Outcome State Fault Refusal :=
  match s.cur? with
  | none => .fault .noIssuer
  | some c => .next (f c)

/-- Why an instruction does not read its parameter operands: a trap, or lines of another package that are still to come. -/
inductive ParamStop where
  | trap (kind detail : Nat)
  | away (lines : List Nat)
  deriving DecidableEq, Repr

/-- What stands against reading some words of windows: poison (R221), or lines of another package (R209). -/
def State.wordStop (s : State) (c : Cur) (l : List Nat) : Option ParamStop :=
  if l.any (s.wordPoison c.core c.ctx) then some (.trap 0x0D 0)
  else if (s.wordsAway c.ctx l).isEmpty then none else some (.away (s.wordsAway c.ctx l))

/-- The parameter operands of an instruction with participating lanes: under trap-on-param one out of bounds traps, with the lowest
such window (R226); then what stands against reading them. -/
def State.paramTrap (s : State) (c : Cur) (p : LaneSet) (w : Nat) (srcs : List Opnd) : Option ParamStop :=
  if p = 0 then none
  else match (srcs.filterMap (s.paramBad c w)).min? with
    | some win => if c.trapOnParam then some (.trap 0x0A win) else s.wordStop c (srcs.flatMap (c.paramWords w))
    | none => s.wordStop c (srcs.flatMap (c.paramWords w))

/-- An instruction whose windows cannot be read: it traps, or its lanes wait at their slot for the lines that they ask for. -/
def State.paramStop (s : State) (c : Cur) (p : LaneSet) (x : ParamStop) : State :=
  match x with
  | .trap kind detail =>
    (if kind = 0x0D then { s with fetchBad := s.fetchBad.filter fun y => y.1 != c.core } else s).raise c kind detail
  | .away lines =>
    (lines.foldl (fun s l => s.askFill c.ctx (l * 128)) s).waitAgain c p (.line (lines.headD 0 * 128))

/-- FPSTAT.param_bound of an instruction (R226, R81). -/
def State.paramFlags (s : State) (c : Cur) (p : LaneSet) (w : Nat) (srcs : List Opnd) : Flags :=
  flagIf (p != 0 && srcs.any fun o => (s.paramBad c w o).isSome) fParamBound

/-- A register-only instruction (R14): every participating lane computes from its operands, all reads before all writes.
w is the width of the destination and pw that of a parameter operand, in registers. -/
def regOp (k : Ctl) (a : Opnd) (w pw : Nat) (b c' d : Opnd) (s : State) (f : Cur → Nat → Quad × Flags) :
    Host.Outcome State Fault Refusal :=
  onCur s fun c =>
    let p := s.parts c k
    match s.paramTrap c p pw [b, c'] with
    | some x => s.paramStop c p x
    | none =>
      s.complete c k b c' d
        { writes := writesOf a w p fun i => (f c i).1
          flags := orFlags ((lanesOf p).map fun i => (f c i).2) ||| s.paramFlags c p pw [b, c'] }

/-- A 32-bit or 64-bit result as register contents. -/
def q32 (x : Word) : Quad := x.setWidth 128
def q64 (x : Dword) : Quad := x.setWidth 128

/-- A predicate register: bit 0. -/
def qBool (b : Bool) : Quad := if b then 1 else 0

/-! ### Transfers of control (R37, R88, R93 to R96) -/

/-- A translation fault holds an instruction in lanes of a wave until its granule is released (R239): the fault enters its
merge table, and the lanes wait. -/
def State.holdWave (s : State) (b i : Nat) (lanes : LaneSet) (ctx va access : Nat) (x : XFault) : State :=
  let s1 := s.enterFault (s.localFault (dieOf (coreOf b)) ctx va access x) (some (.wave b i))
  s1.onWave b i fun w =>
    { w.mapLanes (fun j l => if lanes.getLsbD j then { l with paid := true } else l) with
      held := w.held ++ [{ lanes, ctx, granule := granuleOf va, remote := false, abortWait := false }] }

/-- Whether the second instruction of a pair of a wave comes next. -/
def pairFollows (b i : Nat) : List Turn → Bool
  | .second a _ _ _ :: _ => a == .wave b i
  | _ => false

/-- Keeps an instruction's lanes at its slot with its price paid: it issues again. -/
def State.retryLater (s : State) (c : Cur) : State :=
  s.putCur c (c.wave.mapLanes fun j l => if c.active.getLsbD j then { l with paid := true } else l)

/-- Checks the targets of an explicit transfer together (R96): the first that fails, of the targets in the order of the
last lane that names each, decides (DESIGN CHOICE, log 76); when all are fetched, the transfer goes on. A held transfer moves no lane (R97). -/
def State.transferAll (s : State) (c : Cur) (targets : List Nat) (go : State → State) : State :=
  match targets with
  | [] => go s
  | t :: rest =>
    match s.transfer c.core c.ctx t with
    | .trap kind detail => (s.dropBad c.core t).raise c kind detail
    | .away =>
      (s.askLine c.core c.ctx c.bid c.wid ((lowLane c.active).getD 0) t).waitAgain c c.active (.line (lineAt (t % 2 ^ 57)))
    | .held x => s.holdWave c.bid c.wid c.active c.ctx t 3 x
    | .refetch sa => (s.startRefetch c.core c.ctx t sa).retryLater c
    | .ok sa l => State.transferAll (s.keepLine c.core sa l) c rest go

/-- The different values of a list. -/
def distinct : List Nat → List Nat
  | [] => []
  | x :: t => if t.contains x then distinct t else x :: distinct t

/-- A transfer that sets the PC of each participating lane; the others go on (R37). -/
def State.jump (s : State) (c : Cur) (k : Ctl) (b c' d : Opnd) (p : LaneSet) (dest : Nat → Pc) (r : Result) : State :=
  s.transferAll c (distinct ((lanesOf p).map fun i => (dest i).toNat)) fun s =>
    let w := (c.wave.issued c k b c' d).advance c.active
    let w1 := w.mapLanes fun i l => if p.getLsbD i then { l with pc := dest i } else l
    s.putCur c (w1.deliver k c.active r)

/-! ### Returning from a trap (R497) -/

/-- RTT: outside trap mode an illegal-instruction trap; in trap mode every live trapped lane takes the return PC, whose
target bit is checked, and trap mode ends. -/
def State.returnFromTrap (s : State) (c : Cur) (k : Ctl) (skip : Bool) : State :=
  if !c.wave.trapMode then s.raise c 0x01 0
  else
    let ret := if skip then succPc c.wave.trapPc else c.wave.trapPc
    s.transferAll c [ret.toNat] fun s =>
      let w := c.wave.issued c k .zero .zero .zero
      let w1 := w.mapLanes fun i l => if c.wave.trapped.getLsbD i && l.isLive then { l with pc := ret, paid := false, waitsTo := none } else l
      s.putCur c { w1 with trapMode := false, trapped := 0, rot := w1.rotKept, rotKept := Rot.start }

end Sys2Proof.Machine
end

