-- ==== Sys2Proof/Machine/Access.lean ====
section
/-! DEFINITION. Memory as the lanes of a wave reach it: addresses and apertures, capabilities, loads, stores, atomics,
regions, releases and the promotion log (spec/10_memory.md R203 to R225; spec/11_regions.md R239 to R245;
spec/12_consistency.md R256 to R269, R275 to R277; spec/16_fabric.md R345 to R347). -/

namespace Sys2Proof.Machine

/-! ### Posted writes -/

/-- A posted write of a lane or of an engine (R266, R370): kept until its owner acknowledges it; a peer copy of the line is dropped. -/
def State.post (s : State) (core blk wave lane ctx : Nat) (op : PeerOp) (va : Nat) (data : List Byte)
    (cls : Nat := clsDemand) (eng : Option Nat := none) (inst : Option (Nat × Nat) := none) : State :=
  let id := s.postedNext
  let p : Posted := { id, core, blk, wave, lane, ctx, gen := (s.core core).writeGen, va, data, eng, cls, op, inst }
  let s1 := { s with
    posted := s.posted ++ [p], postedNext := id + 1
    peerCopies := s.peerCopies.filter fun x => x.1 != peerLine va }
  s1.request ctx cls op va data.length data id inst

/-! ### Addresses (R203 to R207, R449) -/

/-- The address that a lane forms: exact through a capability (R223), else modulo 2^64. -/
def State.addr (s : State) (c : Cur) (cap : Bool) (b off : Opnd) (i : Nat) : Int :=
  let d := (s.rd32 c off i).toInt
  if cap then ((c.quad b i).extractLsb' 0 57).toNat + d
  else ((s.rd64 c b i) + BitVec.ofInt 64 d).toNat

/-- Fields of a capability (R222). -/
def capBase (q : Quad) : Nat := (q.extractLsb' 0 57).toNat
def capLen (q : Quad) : Nat := (q.extractLsb' 57 48).toNat
def capRead (q : Quad) : Bool := q.getLsbD 105
def capWrite (q : Quad) : Bool := q.getLsbD 106
def capAtomic (q : Quad) : Bool := q.getLsbD 107
def capChain (q : Quad) : Bool := q.getLsbD 108
def capPromote (q : Quad) : Bool := q.getLsbD 109
def capGlobal (q : Quad) : Bool := q.getLsbD 110
def capNarrow (q : Quad) : Bool := q.getLsbD 111

/-- The first failing check of an access through a capability, in the order tag, bounds, permission (R223). -/
def capCheck (q : Quad) (tag : Bool) (perm : Quad → Bool) (a : Int) (z : Nat) : Option Nat :=
  if !tag then some 0
  else if a < capBase q ∨ (capBase q + capLen q : Nat) < a + z ∨ (2 ^ 57 : Int) < a + z then some 1
  else if perm q then none else some 2

/-- The address of a stack offset of a lane (R207). -/
def stackAddr (base blkIdx waves wave lane size off : Nat) : Nat :=
  base + ((blkIdx * waves + wave) * 32 + lane) * size + off

/-- Steers an address of a lane of a block (R204, R206, R207). -/
def State.steer (s : State) (blk : Block) (wave lane : Nat) (a : Int) (z : Nat) : Steer :=
  let va := (a % 2 ^ 57).toNat
  let aper := (s.ctx blk.ctx).aper.toNat
  let off := va % 2 ^ 30
  if va / 2 ^ 30 = bits aper 0 27 then .spad off (off + z ≤ blk.spadSize)
  else if va / 2 ^ 30 = bits aper 34 27 then
    let r := (s.launch blk.launch).record
    let size := recStackSize r
    .stack (stackAddr (recStack r) blk.index blk.waves.length wave lane size off % 2 ^ 57) (off + z ≤ size)
  else .global va

/-- Where a lane's access goes once it is translated. -/
inductive At where
  | spad (off : Nat)
  | home (va : Nat) (leaf : Leaf) (isStack : Bool)
  | peer (va : Nat)
  deriving DecidableEq, Repr

/-- The lanes of an access located, or those whose translation fails. -/
inductive Located where
  | ok (l : List (Nat × At))
  /-- Local lanes whose translation fails: lane, address, failure, ascending. -/
  | held (l : List (Nat × Nat × XFault))
  deriving DecidableEq, Repr

/-- Translates a steered address. -/
def State.atOf (s : State) (ctx : Nat) (need : Perm) (t : Steer) : Except (Nat × XFault) At :=
  match t with
  | .spad off _ => .ok (.spad off)
  | .stack va _ =>
    if s.isLocal va then
      match s.translate ctx va need with
      | .ok l => .ok (.home va l true)
      | .error x => .error (va, x)
    else .ok (.peer va)
  | .global va =>
    if s.isLocal va then
      match s.translate ctx va need with
      | .ok l => .ok (.home va l false)
      | .error x => .error (va, x)
    else .ok (.peer va)

def Steer.inside : Steer → Bool
  | .spad _ b => b | .stack _ b => b | .global _ => true

/-- Translates each lane, ascending. -/
def State.locateAll (s : State) (ctx : Nat) (need : Perm) : List (Nat × Steer) → Located
  | [] => .ok []
  | (i, t) :: rest =>
    match s.atOf ctx need t, s.locateAll ctx need rest with
    | .error (va, x), .held l => .held ((i, va, x) :: l)
    | .error (va, x), _ => .held [(i, va, x)]
    | .ok _, .held l => .held l
    | .ok a, .ok l => .ok ((i, a) :: l)

/-- The checks of an access of z bytes in the order of R451, R507 and R399 up to the bounds: capability (the first check that
fails in any lane, R223), alignment, and the apertures' bounds. -/
def State.checkAccess (s : State) (c : Cur) (blk : Block) (p : LaneSet) (cap : Bool) (perm : Quad → Bool) (b off : Opnd)
    (z : Nat) : Except (Nat × Nat) (List (Nat × Steer)) :=
  let l := (lanesOf p).map fun i => (i, s.addr c cap b off i)
  let caps := if cap then l.filterMap fun x => capCheck (c.quad b x.1) (c.tag b x.1) perm x.2 z else []
  match caps.min? with
  | some d => .error (0x06, d)
  | none =>
    if l.any fun x => x.2 % z != 0 then .error (0x07, 0)
    else
      let t := l.map fun x => (x.1, s.steer blk c.wid x.1 x.2 z)
      if t.any fun x => !x.2.inside then .error (0x06, 1) else .ok t

/-! ### Regions (R240 to R245) -/

/-- The wave's region is open and not suspended by a trap handler (R496). -/
def Wave.inRegion (w : Wave) : Bool := w.region.isOpen && !w.trapMode

/-- A region that is closed, with no restart shadow (R74). -/
def Wave.closeRegion (w : Wave) : Wave :=
  { w.mapLanes fun _ l => { l with restart := none } with
    region := { isOpen := false, stores := [] }, pend := w.pend.map fun p => { p with inRgn := false } }

/-- The different granules of a list of faults, each with its first address and failure (R520). -/
def firstPerGranule : List (Nat × Nat × XFault) → List (Nat × XFault)
  | [] => []
  | (_, va, x) :: t => (va, x) :: (firstPerGranule t).filter fun y => granuleOf y.1 != granuleOf va

/-- An instruction issued in a region that aborts: its lanes with a shadow issue it again (R245). -/
def Pending.aborted (p : Pending) (back : LaneSet) : Pending :=
  if p.inRgn then { p with inRgn := false, undone := p.undone ||| (p.active &&& back) } else p

/-- Steps 1 to 4 of an abort: pending results are written, the buffer is discarded, lanes with a shadow restart (R245). -/
def Wave.abortRegion (w : Wave) : Wave :=
  let w1 := w.landAll
  let back := lanesWhere fun i => (w.lane i).restart.isSome
  { w1.mapLanes fun _ l => match l.restart with
      | some pc => { l with pc, st := .live, paid := false, waitsTo := none, check := l.check && l.pc == pc }
      | none => l with
    region := { isOpen := true, stores := [] }
    pend := w1.pend.map fun p => p.aborted back }

/-- Whether a buffered store covers a byte. -/
def BufStore.covers (b : BufStore) (l : Loc) : Option Byte :=
  match b.loc, l with
  | .home sa, .home x => if !b.isFence && decide (sa ≤ x) then b.data[x - sa]? else none
  | .peer va, .peer x => if !b.isFence && decide (va ≤ x) then b.data[x - va]? else none
  | _, _ => none

/-- The byte that the region store buffer holds at a place: the latest store's (R241). -/
def Wave.buffered (w : Wave) (l : Loc) : Option Byte :=
  if w.inRegion then (w.region.stores.reverse.findSome? fun b => b.covers l) else none

/-- The line of a place, as the buffer counts lines (R242). -/
def Loc.line : Loc → Bool × Nat
  | .home sa => (false, lineOf sa)
  | .peer va => (true, va / 128)

/-- The different lines of some places. -/
def distinctLines : List (Bool × Nat) → List (Bool × Nat)
  | [] => []
  | x :: t => if t.contains x then distinctLines t else x :: distinctLines t

/-- Lines that the buffer holds (R82 %rgn, R242). -/
def Region.lines (r : Region) : List (Bool × Nat) :=
  distinctLines ((r.stores.filter fun b => !b.isFence).map fun b => b.loc.line)

/-! ### Releases and the promotion log (R256, R275, R277) -/

/-- The scope at which a core performs an access: without felting .clu is .die (R255). -/
def State.performedScope (s : State) (core : Nat) (sc : Scope) : Scope :=
  if sc = .clu ∧ !s.isFelted core then .die else sc

/-- The wider of two scopes. -/
def widerScope (a b : Scope) : Scope := if a.code < b.code then b else a

/-- Whether generation a is at or before g, as seen from a counter now (R275: modulo 2^32). -/
def genLe (now a g : Word) : Bool := decide ((now - g).toNat ≤ (now - a).toNat)

/-- A core holds a dirty byte, at a level or below it, of a generation up to one. -/
def State.dirtyUpTo (s : State) (core lvl : Nat) (g : Word) : Bool :=
  s.dirty.any fun d => d.core == core && decide (d.lvl ≤ lvl) && genLe (s.core core).writeGen d.gen g

/-- Promotes the writes of a core up to a generation to .pkg (R277), with what is in their caches. -/
def State.promoteTo (s : State) (core : Nat) (g : Word) : State := if s.dirtyUpTo core 1 g then s.toHome core else s

/-- Frees the oldest entry after promoting it (R277). -/
def State.evictOldest (s : State) (core : Nat) : State :=
  match (s.core core).log with
  | [] => s
  | e :: rest =>
    let s1 := s.promoteTo core e.gen
    s1.setCore core { s1.core core with log := rest }

/-- The block tag of R276: launch slot and block index. -/
def Block.tagPair (b : Block) : BitVec 12 × BitVec 16 := (BitVec.ofNat 12 b.launch, BitVec.ofNat 16 b.index)

/-- Logs a narrow release before its releasing write is visible (R275): it joins the youngest entry of its block, or takes
a new entry, the oldest of a full log being promoted first (R277). -/
def State.logRelease (s : State) (core : Nat) (tag : BitVec 12 × BitVec 16) (sc0 : Scope) : State :=
  let sc := s.performedScope core sc0
  if 4 ≤ sc.code then s
  else
    let c := s.core core
    let fresh : LogEntry := { scope := sc, slot := tag.1, blk := tag.2, gen := c.writeGen }
    match c.log.getLast? with
    | some e =>
      if e.slot == tag.1 && e.blk == tag.2 then
        s.setCore core { c with log := c.log.dropLast ++ [{ e with gen := c.writeGen, scope := widerScope e.scope sc }] }
      else if c.log.length < 64 then s.setCore core { c with log := c.log ++ [fresh] }
      else
        let s1 := s.evictOldest core
        let c1 := s1.core core
        s1.setCore core { c1 with log := c1.log ++ [fresh] }
    | none => s.setCore core { c with log := [fresh] }

/-- A core's logged releases are stalled: a promotion at .sys awaits acknowledgements there (R278). -/
def State.logStalled (s : State) (core : Nat) : Bool := (s.core core).promos.any fun p => p.upTo.isSome

/-- The bound that a release of some lanes waits up to: none where one of them has only come to its slot. -/
def Wave.waitsTo (w : Wave) (p : LaneSet) : Option Nat :=
  let l := (lanesOf p).map fun i => (w.lane i).waitsTo
  if l.any Option.isNone then none else (l.filterMap id).max?

/-- A posted write of a lane or a sequencer is not acknowledged; with a bound, one numbered below it. -/
def State.postedBelow (s : State) (bound : Option Nat) : Bool :=
  s.posted.any fun p => (p.eng.isNone || p.eng == some 4) && (bound.map fun n => decide (p.id < n)).getD true

/-- Whether a release by lanes of a block must still wait: at .sys while a posted write, or an invalidation, is not acknowledged
(R266, R349): the writes of every lane of the package, any of which a hop may order before it (R263), but for those made since
the release came to its slot; at a narrower scope while the core's log is stalled (R278). -/
def State.mustWait (s : State) (b : Nat) (sc : Scope) (waitsTo : Option Nat := none) : Bool :=
  (sc == .sys && (s.postedBelow waitsTo || !s.invalWait.isEmpty)) ||
  ((s.performedScope (coreOf b) sc).code < 4 && s.logStalled (coreOf b))

/-- A global write of a lane is about to be performed: the write generation counts it, and a FENCE that no write has
followed yet makes it a release that the log records (R275, R432). -/
def State.beforeWrite (s : State) (b i lane : Nat) (blk : Block) : State :=
  let s1 := s.bumpGen (coreOf b)
  match (s1.wave? b i).map fun w => (w.lane lane).fenced with
  | some (some sc) =>
    (s1.logRelease (coreOf b) blk.tagPair sc).onWave b i fun w => w.setLane lane { w.lane lane with fenced := none }
  | _ => s1

/-! ### Performing stores -/

/-- Writes scratchpad bytes of a block; tags of the touched quads are cleared (R210, R225). -/
def Block.putSpad (b : Block) (off : Nat) (bs : List Byte) : Block :=
  { b with spad := putBytes b.spad off bs, spadTags := clearMarks 16 b.spadTags off bs.length }
def Block.spadByte (b : Block) (off : Nat) : Byte := tget 0 b.spad off
def Block.spadBytes (b : Block) (off n : Nat) : List Byte := (upFrom off n).map b.spadByte

/-- A global store of a lane at a place (R256, R266): dirty bytes of the cache that its hint allocates in (R114), the home, or a
posted write. Whatever passes a cache writes back first what is there. tag is the quad's tag of a capability transfer that R225
lets memory keep; such a quad goes to the home, which holds the metadata bits. -/
def State.storeAt (s : State) (b i lane : Nat) (blk : Block) (va : Nat) (loc : Loc) (data : List Byte) (tag : Bool)
    (alloc : Alloc := .l1) : State :=
  let core := coreOf b
  let s1 := s.beforeWrite b i lane blk
  match loc, alloc with
  | .peer _, _ => (s1.toHome core).post core b i lane blk.ctx .write va data
  | .home sa, .home => if tag then (s1.toHome core).homeWriteTagged sa data true else (s1.toHome core).homeWrite sa data
  | .home sa, al =>
    if tag then (s1.toHome core).homeWriteTagged sa data true
    else match al with
      | .die => (s1.toDie core).dirtyBytes core 1 va false sa data
      | al => s1.dirtyBytes core 0 va (al == .l1Only) sa data

/-- Commits buffered stores in program order (R243); stops where a release at .sys must await acknowledgements, those of its
own write-backs included (R349), and answers what is left. -/
def State.commitGo (s : State) (b i : Nat) (blk : Block) : List BufStore → State × List BufStore
  | [] => (s, [])
  | x :: rest =>
    match x.rel with
    | some sc =>
      let s1 := s.writeBackAt (coreOf b) sc
      if s1.mustWait b sc x.waitsTo then (s1, { x with waitsTo := some (x.waitsTo.getD s1.postedNext) } :: rest)
      else if x.isFence then
        State.commitGo (s1.onWave b i fun w => w.setLane x.lane { w.lane x.lane with fenced := some sc }) b i blk rest
      else
        let s2 := s1.storeAt b i x.lane blk x.va x.loc x.data (x.tag.getD false) x.alloc
        State.commitGo (s2.logRelease (coreOf b) blk.tagPair sc) b i blk rest
    | none => State.commitGo (s.storeAt b i x.lane blk x.va x.loc x.data (x.tag.getD false) x.alloc) b i blk rest

/-- Performs what a wave has committed, as far as its releases let it (R243). -/
def State.commitMore (s : State) (b i : Nat) : State :=
  match s.block? b with
  | none => s
  | some blk =>
    match blk.wave? i with
    | none => s
    | some w =>
      let (s1, rest) := s.commitGo b i blk w.commit
      s1.onWave b i fun w => { w with commit := rest }

/-- Commits the open region of a wave and closes it (R243). A release of its buffered order may keep the stores after it
waiting; the region is closed all the same. -/
def State.commitRegion (s : State) (b i : Nat) : State :=
  State.commitMore (s.onWave b i fun w =>
    if w.inRegion then { w.closeRegion with commit := w.commit ++ w.region.stores } else w) b i

/-- The instruction in hand again, after the state of its wave has changed. -/
def State.recur (s : State) (c : Cur) : Cur :=
  match s.cur? with
  | some c' => c'
  | none => c

/-- A closing instruction (R244): the open region commits, and then the instruction performs. It waits at its slot while a
committed store waits. -/
def State.closing (s : State) (c : Cur) (go : State → Cur → State) : State :=
  if c.wave.inRegion then
    let s1 := s.commitRegion c.bid c.wid
    let c1 := s1.recur c
    if c1.wave.commit.isEmpty then go s1 c1 else s1.waitAgain c1 c1.active (.order .pkg)
  else go s c

/-- The wait of a release for the instruction in hand; a stream of the command processor completes each write before its
next instruction. -/
def State.mustWaitCur (s : State) (c : Cur) (p : LaneSet) (sc : Scope) : Bool :=
  match c.agent with
  | .wave b _ => s.mustWait b sc (c.wave.waitsTo p)
  | _ => sc == .sys && !s.invalWait.isEmpty

/-- A release at a scope by the wave (R256, R266): it writes back, and waits at its slot for acknowledgements, those of its own
write-backs included (R349). -/
def State.release (s : State) (c : Cur) (p : LaneSet) (sc : Scope) (go : State → State) : State :=
  let s1 := s.writeBackAt c.core sc
  if s1.mustWaitCur c p sc then s1.waitAgain c p (.order sc) else go s1

/-- An optional release. -/
def State.releaseOpt (s : State) (c : Cur) (p : LaneSet) (sc : Option Scope) (go : State → State) : State :=
  match sc with
  | some x => s.release c p x go
  | none => go s

/-- An acquire at a scope (R256): memory is read where it is newest, so only peer copies can be stale. -/
def State.acquire (s : State) (sc : Option Scope) : State :=
  match sc with
  | some .sys => { s with peerCopies := [] }
  | _ => s

/-! ### Loads -/

/-- The z bytes that a lane of a block reads at a place, region buffer bytes first (R241); none for a peer address that no
copy and no buffered store serves whole. -/
def State.loadAt (s : State) (core : Nat) (blk : Block) (w : Wave) (z : Nat) (copies : Bool) (a : At) :
    Option (List Byte) :=
  match a with
  | .spad off => some (blk.spadBytes off z)
  | .home _ leaf _ =>
    some ((upFrom 0 z).map fun j => (w.buffered (.home (leaf.sa + j))).getD (s.viewByte core (leaf.sa + j)))
  | .peer va =>
    let buf := (upFrom 0 z).map fun j => w.buffered (.peer (va + j))
    if buf.all Option.isSome then some (buf.filterMap id)
    else if copies then
      (s.peerCopy va z).map fun l => (upFrom 0 z).map fun j => ((lget none buf j).getD (lget 0 l j))
    else none

/-- Whether a read at a place uses a poisoned line: one that the core has not since written whole (R221). -/
def State.readsPoison (s : State) (core : Nat) (w : Wave) (z : Nat) : At → Bool
  | .home _ leaf _ =>
    s.isPoisoned leaf.sa && ((upFrom 0 z).any fun j => (w.buffered (.home (leaf.sa + j))).isNone) &&
    !s.holdsLine core (lineOf leaf.sa)
  | _ => false

/-! ### Atomics (R268, R269, R399) -/

/-- The smaller and the larger of two values of z bytes. -/
def minOf (signed : Bool) (z a b : Nat) : Nat :=
  let lt := if signed then decide ((BitVec.ofNat (8 * z) a).toInt < (BitVec.ofNat (8 * z) b).toInt) else decide (a < b)
  if lt then a else b
def maxOf (signed : Bool) (z a b : Nat) : Nat := if minOf signed z a b = a then b else a

/-- The new value of an ATOM, none for a failed compare (R399). -/
def atomNew (op : AOp) (signed : Bool) (z old x cmp : Nat) : Option Nat :=
  match op with
  | .add => some ((old + x) % 2 ^ (8 * z))
  | .min => some (minOf signed z old x)
  | .max => some (maxOf signed z old x)
  | .and => some (old &&& x)
  | .or => some (old ||| x)
  | .xor => some (old ^^^ x)
  | .exch => some x
  | .cas => if old = cmp then some x else none

/-- The operation of a RED as that of an ATOM (R489). -/
def redAtom : ROp → AOp
  | .add => .add | .min => .min | .max => .max | .and => .and | .or => .or | .xor => .xor

/-- The unit that executes a local atomic: the L1 of the core, the die cache, or the home slice (R255, R268). -/
inductive AUnit where
  | l1 | die | home
  deriving DecidableEq, Repr

/-- The unit of a scope on a core; a stack address is .blk (R213, R268). -/
def State.atomUnit (s : State) (core : Nat) (isStack : Bool) (sc : Scope) : AUnit :=
  if isStack then .l1
  else match sc with
    | .blk => .l1
    | .clu => if s.isFelted core then .l1 else .die
    | .die => .die
    | _ => .home

/-- What the issuing core wrote before is at the unit first. -/
def State.syncUnit (s : State) (core : Nat) (u : AUnit) : State :=
  match u with
  | .l1 => s
  | .die => s.toDie core
  | .home => s.toHome core

/-- What the unit reads. -/
def State.unitNat (s : State) (core : Nat) (u : AUnit) (sa z : Nat) : Nat :=
  match u with
  | .home => s.homeNat sa z
  | _ => ofBytes (s.viewBytes core sa z)

/-- What the unit writes. -/
def State.unitPut (s : State) (core : Nat) (u : AUnit) (va sa : Nat) (bs : List Byte) : State :=
  match u with
  | .l1 => s.dirtyBytes core 0 va false sa bs
  | .die => s.dirtyBytes core 1 va false sa bs
  | .home => s.homeWrite sa bs

/-- One read-modify-write of a lane at a local place: the old value and the state after it (R399, R400). -/
def State.rmwAt (s : State) (b i lane : Nat) (sc : Scope) (z : Nat) (a : At) (f : Nat → Option Nat) : State × Nat :=
  match s.block? b with
  | none => (s, 0)
  | some blk =>
    match a with
    | .spad off =>
      let old := ofBytes (blk.spadBytes off z)
      match f old with
      | some n => (s.setBlock b (blk.putSpad off (bytesOf z n)), old)
      | none => (s, old)
    | .home va leaf isStack =>
      let core := coreOf b
      let u := s.atomUnit core isStack sc
      let s1 := s.syncUnit core u
      let old := s1.unitNat core u leaf.sa z
      match f old with
      | some n => ((s1.beforeWrite b i lane blk).unitPut core u va leaf.sa (bytesOf z n), old)
      | none => (s1, old)
    | .peer _ => (s, 0)

/-! ### Homes that cannot be reached (R181, R200, R393) -/

/-- A lane's read of z bytes at a place needs a home that cannot be reached: its caches and its region's buffer do not hold them. -/
def State.readWaits (s : State) (core : Nat) (w : Wave) (z : Nat) : At → Bool
  | .home _ leaf _ =>
    s.accessWaits leaf.sa && (upFrom 0 z).any fun j =>
      (w.buffered (.home (leaf.sa + j))).isNone && !s.dirty.any fun d => d.sa == leaf.sa + j && s.sees core d
  | _ => false

/-- A lane's atomic at a place needs a home that cannot be reached. -/
def State.atomWaits (s : State) : At → Bool
  | .home _ leaf _ => s.accessWaits leaf.sa
  | _ => false

/-- An access waits in a die's inbound FIFO until its home can be reached. -/
def State.waitAtHome (s : State) (d : Nat) (i : Instr) : State :=
  s.setDie d { s.die d with fifo := (s.die d).fifo ++ [i] }

/-! ### Waiting for replies of other packages -/

/-- A long-latency instruction issues and its lanes move on within its window (R112), while it awaits replies of other packages,
or the release of a translation fault (R239, R524). x gives what the instruction awaits and how its result lands. -/
def State.openPend (s : State) (c : Cur) (k : Ctl) (b c' d : Opnd) (x : Pending) : State :=
  let w := (c.wave.issued c k b c' d).advance c.active
  s.putCur c
    { w with
      pendNext := w.pendNext + 1
      pend := w.pend ++ [{ x with
        id := w.pendNext, left := (lanesOf c.active).map fun i => (i, k.la.toNat)
        price := c.price, pc := c.pc, active := c.active, inRgn := c.wave.inRegion }] }

/-- A pending result with nothing in it yet. -/
def Pending.fresh (lanes waiting : LaneSet) (dst : Opnd) (size : LdSize) : Pending :=
  { id := 0, lanes, waiting, left := [], writes := [], tagged := [], landing := some { dst, size }, isChain := false, price := 0 }

/-- Sends the requests of some lanes of an instruction to their owners; copies of their lines are older than the answers, and go
(R347, R264). -/
def State.sendReqs (s : State) (b i ctx id : Nat) (l : List LaneReq) : State :=
  l.foldl (fun s r =>
    State.request { s with peerCopies := s.peerCopies.filter fun x => x.1 != peerLine r.va } ctx clsDemand r.op r.va r.size r.data
      (replyTag b i id r.lane)) s

end Sys2Proof.Machine
end

