-- ==== Sys2Proof/Machine/Reply.lean ====
section
/-! DEFINITION. Replies of other packages and how an instruction that waits for them ends (spec/04_encoding.md R112;
spec/11_regions.md R239, R245, R250; spec/16_fabric.md R347, R362; spec/26_programs_remote.md R522, R524). -/

namespace Sys2Proof.Machine

/-! ### The value of a load (R449) -/

/-- Bytes that a load reads. -/
def ldBytes : LdSize → Nat
  | .n8 | .i8 => 1
  | .n16 | .i16 => 2
  | .n32 => 4
  | .n64 => 8
  | .quad => 16

/-- Registers that a load writes. -/
def ldRegs : LdSize → Nat
  | .n64 => 2
  | .quad => 4
  | _ => 1

/-- The registers' contents for the bytes read. -/
def ldValue (size : LdSize) (x : Nat) : Quad :=
  match size with
  | .i8 => q32 ((BitVec.ofNat 8 x).signExtend 32)
  | .i16 => q32 ((BitVec.ofNat 16 x).signExtend 32)
  | _ => BitVec.ofNat 128 x

/-! ### Pending instructions -/

/-- The pending result of a number. -/
def Wave.pending? (w : Wave) (id : Nat) : Option Pending := w.pend.find? fun p => p.id == id

/-- A change to the pending result of a number. -/
def Wave.onPend (w : Wave) (id : Nat) (f : Pending → Pending) : Wave :=
  { w with pend := w.pend.map fun p => if p.id == id then f p else p }

/-- Ends the tracking of the chains of some lanes of an instruction (R359). -/
def State.dropTrackers (s : State) (b i id : Nat) (lanes : LaneSet) : State :=
  let c := s.core (coreOf b)
  let mine (t : Tracker) : Bool := t.blk == b && t.wave == i && t.pend == id && lanes.getLsbD t.lane
  if c.trackers.any mine then
    (s.setCore (coreOf b) { c with trackers := c.trackers.filter fun t => !mine t }).wakeTrackerWaiters (coreOf b)
  else s

/-- An instruction with nothing outstanding is complete: what it has not yet written is written, its window closes, and its
acquire takes effect (R112, R256, R524). -/
def State.finishPend (s : State) (b i id : Nat) : State :=
  match s.wave? b i with
  | none => s
  | some w =>
    match w.pending? id with
    | none => s
    | some p =>
      if p.ready then
        let w1 := { w with pend := w.pend.filter fun x => x.id != id, held := w.held.filter fun h => h.pend != some id }
        (s.setWave b i (w1.land p)).acquire p.acq
      else s

/-- The bytes of a reply, with those that the region store buffer held at issue over them (R241). -/
def overlay (above : List (Option Byte)) (x : Nat) (n : Nat) : Nat :=
  ofBytes (mapIdx (fun j b => (lget none above j).getD b) 0 (bytesOf n x))

/-- Register writes with the values that the registers hold now, and the tags of their quads. -/
def Wave.before (w : Wave) (l : List RegWrite) : List RegWrite :=
  l.map fun x => { x with val := if x.uni then w.ureg x.reg else (w.lane x.lane).reg x.reg }
def Wave.tagsBefore (w : Wave) (l : List RegWrite) : List (Nat × Nat × Bool) :=
  (l.filter fun x => !x.uni).map fun x => (x.lane, x.reg / 4, (w.lane x.lane).tags.getLsbD (x.reg / 4))

/-- What a lane's reply writes: a uniform destination takes the highest lane's (R69), an exited lane takes none (R424). -/
def Wave.replyWrites (w : Wave) (p : Pending) (lane : Nat) (q : Quad) : List RegWrite :=
  match p.landing with
  | none => []
  | some l =>
    let above := ((p.reqs.find? fun r => r.lane == lane).map (·.above)).getD []
    let x := overlay above q.toNat (ldBytes l.size)
    (writesOf l.dst (ldRegs l.size) (laneSet [lane]) fun _ => ldValue l.size x).filter fun x =>
      if x.uni then highLane p.lanes == some lane else !(w.lane x.lane).isExited

/-- A lane's result has come: its registers are written as it arrives (R524). -/
def Wave.addReply (w : Wave) (id lane : Nat) (q : Quad) : Wave :=
  match w.pend.find? fun p => p.id == id && p.waiting.getLsbD lane with
  | none => w
  | some p =>
    let ws := w.replyWrites p lane q
    (w.putAll ws).onPend id fun x =>
      { x with
        waiting := x.waiting &&& ~~~(laneSet [lane]), reqs := x.reqs.filter fun r => r.lane != lane
        undo := w.before ws ++ x.undo, undoTags := w.tagsBefore ws ++ x.undoTags }

/-- Lanes that a trap of an issued instruction takes: its active lanes but for those that have exited, and those that an abort
has taken back. -/
def Wave.victims (w : Wave) (p : Pending) : LaneSet :=
  p.active &&& ~~~p.undone &&& ~~~(lanesWhere fun i => (w.lane i).isExited)

/-- An instruction one of whose reads was poisoned: what its replies have written is taken back, and it traps in its active
lanes at its own PC (R15, R362, R522), which fails the block of a wave that handles another trap (R496). -/
def State.poisonReply (s : State) (b i id : Nat) : State :=
  match s.wave? b i with
  | none => s
  | some w =>
    match w.pending? id with
    | none => s
    | some p =>
      let w1 := { w with pend := w.pend.filter fun x => x.id != id, held := w.held.filter fun h => h.pend != some id }
      let w2 := (w1.putAll p.undo).putTags p.undoTags
      let m := w.victims p
      let w3 := w2.mapLanes fun j l => if m.getLsbD j then { l with st := .live, pc := p.pc, paid := false, waitsTo := none } else l
      let s1 := ((s.setWave b i w3).dropTrackers b i id allLanes).tidyLinks b i
      if m = 0 then s1 else s1.takeTrap b i m 0x0D 0 p.price

/-- The open region of a wave aborts (R245 steps 1 to 4). -/
def State.abortOn (s : State) (b i : Nat) : State := s.onWave b i Wave.abortRegion

/-- The holds that a fault of an issued instruction's lanes adds: the lanes that no abort has taken back are held; where the
fault aborted the region, the wave waits for the granule (R239, R245). -/
def Pending.holds (p : Pending) (ctx granule : Nat) (remote : Bool) (lanes : LaneSet) : List Held :=
  let kept := p.waiting &&& lanes &&& ~~~p.undone
  let h : Held := { lanes := kept, ctx, granule, remote, abortWait := false, pend := some p.id }
  (if kept = 0 then [] else [h]) ++ (if p.aborter then [{ h with lanes := 0, abortWait := true, pend := none }] else [])

/-- Lanes of an issued instruction fault: their owner replied fault-pending, or a step of their chains failed. Inside the region
in which it was issued the region aborts; lanes taken back no longer take part (R245, R250, R252, R524). -/
def State.pendFault (s : State) (b i id : Nat) (lanes : LaneSet) (granule : Nat) (remote : Bool) : State :=
  match s.block? b, s.wave? b i with
  | some blk, some w =>
    match w.pending? id with
    | none => s
    | some p =>
      let s1 := if p.inRgn && w.inRegion then
          (s.abortOn b i).onWave b i fun w => w.onPend id fun p => { p with aborter := true }
        else s
      let gone := lanes &&& (((s1.wave? b i).bind fun w => w.pending? id).map (·.undone)).getD 0
      let s2 := s1.onWave b i fun w =>
        match w.pending? id with
        | none => w
        | some p =>
          { w.onPend id fun p => { p with
              waiting := p.waiting &&& ~~~gone, reqs := p.reqs.filter fun r => !gone.getLsbD r.lane } with
            held := w.held ++ p.holds blk.ctx granule remote lanes }
      ((s2.dropTrackers b i id gone).tidyLinks b i).finishPend b i id
  | _, _ => s

/-- The faults of an access enter their merge tables: one entry and at most one record per granule (R520). -/
def State.enterAll (s : State) (b i ctx access : Nat) (gs : List (Nat × XFault)) : State :=
  gs.foldl (fun s g => s.enterFault (s.localFault (dieOf (coreOf b)) ctx g.1 access g.2) (some (.wave b i))) s

/-- A translation fault of a wave's access holds the instruction at its slot, in the active lanes that issue it together;
inside a region the region aborts, and the wave waits (R239, R245). -/
def State.faultLanes (s : State) (c : Cur) (access : Nat) (l : List (Nat × Nat × XFault)) : State :=
  let gs := firstPerGranule l
  let s1 := s.enterAll c.bid c.wid c.ctx access gs
  let hold (lanes : LaneSet) (abortWait : Bool) : List Held :=
    gs.map fun g => { lanes, ctx := c.ctx, granule := granuleOf g.1, remote := false, abortWait }
  if c.wave.inRegion then
    (s1.abortOn c.bid c.wid).onWave c.bid c.wid fun w => { w.endIf c.yields with held := w.held ++ hold 0 true }
  else
    let w := (c.wave.mapLanes fun i x => if c.active.getLsbD i then { x with paid := true } else x).endIf c.yields
    s1.putCur c { w with held := w.held ++ hold c.active false }

/-- A translation fault of a long-latency access: its lanes go on within its window while it is held (R239, R112). The first
instruction of a pair is held at its slot (R51). -/
def State.faultPend (s : State) (c : Cur) (k : Ctl) (b c' d : Opnd) (access : Nat) (l : List (Nat × Nat × XFault)) (x : Pending) :
    State :=
  if c.wave.inRegion || pairFollows c.bid c.wid s.agenda then s.faultLanes c access l
  else
    let gs := firstPerGranule l
    ((s.enterAll c.bid c.wid c.ctx access gs).openPend c k b c' d x).onWave c.bid c.wid fun w =>
      { w with held := w.held ++ gs.map fun g =>
          { lanes := x.lanes, ctx := c.ctx, granule := granuleOf g.1, remote := false, abortWait := false
            pend := some c.wave.pendNext } }

end Sys2Proof.Machine
end

