-- ==== Sys2Proof/Machine/Chain.lean ====
section
/-! DEFINITION. Chained loads: descriptors, the steps of a chain, packets, trackers and replies (spec/11_regions.md R252;
spec/16_fabric.md R357 to R363; spec/26_programs_remote.md R521, R522). -/

namespace Sys2Proof.Machine

/-! ### The descriptor (R358) -/

/-- Bits of a chain descriptor. -/
def chBits (d : FetchLine) (lo n : Nat) : Nat := bits d.toNat lo n
def chSteps (d : FetchLine) : Nat := chBits d 0 3
def chLoop (d : FetchLine) : Bool := d.getLsbD 7
def chFsize (d : FetchLine) : Nat := chBits d 5 2
def chKey (d : FetchLine) : Nat := chBits d 32 32
def chFoff (d : FetchLine) : Dword := (d.extractLsb' 64 32).signExtend 64
/-- Entry fields by index. -/
def chOff (d : FetchLine) (i : Nat) : Dword := (d.extractLsb' (128 + 64 * i) 32).signExtend 64
def chLc (d : FetchLine) (i : Nat) : Nat := chBits d (128 + 64 * i + 32) 6
def chHc (d : FetchLine) (i : Nat) : Nat := chBits d (128 + 64 * i + 40) 6
/-- Bytes of the final read. -/
def chFinal (d : FetchLine) : Nat := 4 * 2 ^ chFsize d

/-- Whether a descriptor is malformed (R358, R10). -/
def chBad (d : FetchLine) : Bool :=
  let n := chSteps d
  let used := if chLoop d then 1 else n
  chBits d 8 24 != 0 || chBits d 3 2 != 0 || chBits d 96 32 != 0 || n == 0 || n == 7 || chFsize d == 3 ||
  (!chLoop d && chKey d != 0) || (chLoop d && (chFsize d == 0 || decide (32 < chLc d 0))) ||
  (upFrom 0 6).any fun i =>
    if i < used then
      chBits d (128 + 64 * i + 46) 18 != 0 || chBits d (128 + 64 * i + 38) 2 != 0 || decide (64 < chLc d i + chHc d i)
    else chBits d (128 + 64 * i) 64 != 0

/-! ### The steps of a chain (R360) -/

/-- What a chain does next. -/
inductive ChainMove where
  | stop (e : ChainEnd)
  | read (a : Nat)
  | last (a z : Nat)
  deriving DecidableEq, Repr

/-- The final read. -/
def chainLast (d : FetchLine) (p : Dword) : ChainMove :=
  let z := chFinal d
  .last ((p + chFoff d).toNat / z * z % 2 ^ 57) z

/-- Entry of a step: entry 0 repeats in a loop. -/
def chEntry (d : FetchLine) (step : Nat) : Nat := if chLoop d then 0 else step

/-- The top of the loop of R360. -/
def chainMove (d : FetchLine) (p : Dword) (step : Nat) (final : Bool) : ChainMove :=
  if final then chainLast d p
  else if p.setWidth 57 = 0 then .stop (.null step)
  else if step = chSteps d then (if chLoop d then .stop (.limit p step) else chainLast d p)
  else .read ((p + chOff d (chEntry d step)).toNat / 8 * 8 % 2 ^ 57)

/-- The pointer after a step's read, and whether the read matched the key. -/
def chainAfter (d : FetchLine) (step w : Nat) : Dword × Bool :=
  let e := chEntry d step
  let lc := chLc d e
  let p := BitVec.ofNat 64 (w % 2 ^ (64 - chHc d e) / 2 ^ lc * 2 ^ lc)
  (p, chLoop d && decide (0 < lc) && p.setWidth 57 != 0 && w % 2 ^ lc == chKey d % 2 ^ lc)

/-- The packet after a step's read. -/
def chainNext (k : ChainPkt) (w : Nat) : ChainPkt :=
  let r := chainAfter k.desc k.step w
  { k with p := r.1, step := k.step + 1, final := r.2 }

/-- %chain at an end that reports one (R82, R360). -/
def chainStatus : ChainEnd → Word
  | .complete _ st => BitVec.ofNat 32 (st * 2 ^ 25)
  | .null st => BitVec.ofNat 32 (2 ^ 28 + st * 2 ^ 25)
  | .limit _ st => BitVec.ofNat 32 (2 * 2 ^ 28 + st * 2 ^ 25)
  | .fault _ st => BitVec.ofNat 32 (3 * 2 ^ 28 + st * 2 ^ 25)
  | _ => 0

/-- The destination's value at an end (R360). -/
def chainValue (d : FetchLine) : ChainEnd → Quad
  | .complete q _ => q
  | .limit p _ => BitVec.ofNat 128 (p.toNat % 2 ^ (8 * chFinal d))
  | .fault a _ => BitVec.ofNat 128 (a.toNat % 2 ^ (8 * chFinal d))
  | _ => 0

/-! ### Results at the requester (R362, R522) -/

/-- Writes the results of an instruction whose chains have all ended, and its %chain values, in one step; or traps if one of
them was poisoned. -/
def State.chainsDone (s : State) (b i id : Nat) : State :=
  let core := coreOf b
  let mine := (s.core core).trackers.filter fun t => t.blk == b && t.wave == i && t.pend == id
  if mine.any fun t => t.result.isNone then s
  else if mine.any fun t => t.result == some .poisoned then s.poisonReply b i id
  else
    let s1 := s.onWave b i fun w =>
      let dst := match (w.pending? id).bind (·.landing) with
        | some l => l.dst
        | none => .zero
      let w1 := mine.foldl (fun w t =>
        let e := t.result.getD .poisoned
        let w := w.putAll (writesOf dst (chFinal t.desc / 4) (laneSet [t.lane]) fun _ => chainValue t.desc e)
        w.setLane t.lane { w.lane t.lane with chain := chainStatus e }) w
      w1.onPend id fun p => { p with waiting := 0 }
    (s1.finishPend b i id).dropTrackers b i id allLanes

/-- The end of a chain reaches its tracker; late replies of earlier attempts are discarded (R362, R363). A fault is handled
as R252 asks. -/
def State.chainEnded (s : State) (id attempt : Nat) (remote : Bool) (e : ChainEnd) : State :=
  let b := id / 32 / 2 ^ 32 / 32
  let core := coreOf b
  match (s.core core).trackers.find? fun t => t.id == id && t.attempt == attempt && t.result.isNone with
  | none => s
  | some t =>
    match e with
    | .faultPending g => (s.pendFault t.blk t.wave t.pend (laneSet [t.lane]) g remote).chainsDone t.blk t.wave t.pend
    | e =>
      let c := s.core core
      let s1 := s.setCore core
        { c with trackers := c.trackers.map fun x => if x.id = id then { x with result := some e } else x }
      s1.chainsDone t.blk t.wave t.pend

/-! ### Steps at an owner (R361, R362) -/

/-- The context whose tables a chain packet uses here: the issuing block's, or its job's (R355). -/
def State.chainCtx (s : State) (k : ChainPkt) : Option Nat :=
  if k.srcPkg = s.pkgNo then (s.block? (k.id / 32 / 2 ^ 32 / 32)).map (·.ctx) else s.ctxOfJob k.job

/-- Sends a packet of a chain (R362): of the chain's context here (R356). -/
def State.sendOfChain (s : State) (k : ChainPkt) (m : OutMsg) : State :=
  match s.chainCtx k with
  | some ctx => s.sendCtx ctx m
  | none => s.numbered m

/-- Sends a chain packet to the owner of its next read (R362). -/
def State.sendChain (s : State) (dst : Nat) (k : ChainPkt) : State := s.sendOfChain k (.chain dst k)

/-- Answers the requester. -/
def State.chainAnswer (s : State) (k : ChainPkt) (e : ChainEnd) : State :=
  if k.srcPkg = s.pkgNo then s.chainEnded k.id k.attempt false e else s.sendOfChain k (.chainReply k.srcPkg k.id k.attempt e)

/-- The die whose merge table takes a fault of a chain step (R523): the requesting core's, or that of the packet's port. -/
def chainTable (s : State) (k : ChainPkt) : Nat :=
  if k.srcPkg = s.pkgNo then dieOf (coreOf (k.id / 32 / 2 ^ 32 / 32)) else k.port / 6 % 8

/-- A step whose translation fails (R252): under .nf the chain ends there; else the fault enters a merge table, and the
requester hears of it. With a full table the step tries again (R233). -/
def State.chainFault (s : State) (k : ChainPkt) (ctx a : Nat) (x : XFault) : State :=
  if k.nf then s.chainAnswer k (.fault (BitVec.ofNat 64 a) k.step)
  else
    let mine := k.srcPkg == s.pkgNo
    let t := chainTable s k
    let r : FaultRec := { table := t, va := a, srcPkg := k.srcPkg, ctx, kind := x.kind, access := 4
                          level := x.level, remote := !mine }
    let who : Waiter := if mine then .wave (k.id / 32 / 2 ^ 32 / 32) (k.id / 32 / 2 ^ 32 % 32) else .remote k.srcPkg
    if !((s.mergeTable t).any fun e => e.ctx == ctx && e.granule == granuleOf a) ∧ tableRoom t ≤ (s.mergeTable t).length then
      s.soon (.chainStep k)
    else (s.enterFault r (some who)).chainAnswer k (.faultPending (granuleOf a))

/-- A ChainRead at the home of this package (R361): what the requester's own core wrote before is at home first. -/
def State.chainSync (s : State) (k : ChainPkt) (sa z : Nat) : State :=
  if k.srcPkg = s.pkgNo then s.flushBytes (coreOf (k.id / 32 / 2 ^ 32 / 32)) sa z else s

/-- A read of a chain at this package (R361, R362): in the tables of its context, and once its home can be reached (R181, R363). -/
def State.chainRead (s : State) (k : ChainPkt) (a z : Nat) (go : State → Nat → State) : State :=
  match s.chainCtx k with
  | none =>
    if k.nf then s.chainAnswer k (.fault (BitVec.ofNat 64 a) k.step)
    else (s.chainAnswer k (.faultPending (granuleOf a))).send (.notice k.srcPkg ⟨granuleOf a, k.job⟩ true)
  | some ctx =>
    match s.translate ctx a .read with
    | .error x => s.chainFault k ctx a x
    | .ok l =>
      if s.accessWaits l.sa then s.waitAtHome (homeDie l.sa) (.chainStep k)
      else
        let s1 := s.chainSync k l.sa z
        if s1.isPoisoned l.sa then s1.chainAnswer k .poisoned else go s1 (s1.homeNat l.sa z)

/-- Runs a chain at this package until it ends or leaves for another owner: at most seven reads. -/
def State.chainRun : Nat → State → ChainPkt → State
  | 0, s, _ => s
  | n + 1, s, k =>
    match chainMove k.desc k.p k.step k.final with
    | .stop e => s.chainAnswer k e
    | .read a =>
      if s.isLocal a then s.chainRead k a 8 fun s x => State.chainRun n s (chainNext k x) else s.sendChain (ownerOf a) k
    | .last a z =>
      if s.isLocal a then s.chainRead k a z fun s x => s.chainAnswer k (.complete (BitVec.ofNat 128 x) k.step)
      else s.sendChain (ownerOf a) k

/-! ### Beginning a chain (R360, R204) -/

/-- Begins, or begins again, the chain of a tracker: its first read is steered through the apertures of its lane. -/
def State.chainBegin (s : State) (t : Tracker) : State :=
  match s.block? t.blk with
  | none => s
  | some blk =>
    let k : ChainPkt := { id := t.id, attempt := t.attempt, srcPkg := s.pkgNo, job := (s.ctx blk.ctx).fabric.setWidth 16
                          nf := t.nf, desc := t.desc, p := t.start, step := 0, final := false }
    match chainMove t.desc t.start 0 false with
    | .read a =>
      match s.steer blk t.wave t.lane a 8 with
      | .spad off _ => s.chainRun 8 (chainNext k (ofBytes (blk.spadBytes off 8)))
      | .stack va _ => s.chainRun 8 { k with p := BitVec.ofNat 64 va - chOff t.desc 0 }
      | .global _ => s.chainRun 8 k
    | _ => s.chainRun 8 k

/-- A lane's chain is still awaited by its instruction. -/
def State.awaits (s : State) (t : Tracker) : Bool :=
  ((s.wave? t.blk t.wave).bind fun w => w.pending? t.pend).any fun p => p.waiting.getLsbD t.lane

/-- Starts a tracker with its reply timer (R362), if its instruction still awaits the lane. -/
def State.chainStart (s : State) (t : Tracker) : State :=
  if !s.awaits t then s
  else
    let tmo := max 1 (s.pkg.chainCfg.toNat % 2 ^ 16)
    let t1 := { t with deadline := BitVec.ofNat 64 (s.now + clocksOfUs tmo) }
    let c := s.core (coreOf t.blk)
    let s1 := s.setCore (coreOf t.blk) { c with trackers := c.trackers.filter (·.id != t.id) ++ [t1] }
    (s1.later t1.deadline.toNat (.chainTimeout t.id)).chainBegin t1

/-- Chains of an instruction that had faulted start again from step 0 in some lanes (R252). -/
def State.chainResume (s : State) (b i id : Nat) (lanes : LaneSet) : State :=
  ((s.core (coreOf b)).trackers.filter fun t =>
    t.blk == b && t.wave == i && t.pend == id && lanes.getLsbD t.lane && t.result.isNone).foldl
      (fun s t => s.chainStart { t with attempt := t.attempt + 1 }) s

end Sys2Proof.Machine
end

