-- ==== Sys2Proof/Machine/Integer.lean ====
section
/-! DEFINITION. Class 0x1, integer (spec/20_ref_e_i.md R438 to R446; spec/21_ref_l_m.md R454; spec/23_ref_s_y.md R499). -/

namespace Sys2Proof.Machine

/-! ### Elements of a type code (R118, R438) -/

/-- Width of an element in bits. -/
def widthOf : ITy → Nat
  | .i32 | .n32 => 32
  | .i64 | .n64 => 64
  | .i16 | .n16 => 16
/-- Whether the type is signed. -/
def signedTy : ITy → Bool
  | .i32 | .i64 | .i16 => true
  | .n32 | .n64 | .n16 => false
/-- Registers of an operand. -/
def regsOf : ITy → Nat
  | .i64 | .n64 => 2
  | _ => 1
/-- How an immediate is read (R104). -/
def immOf : ITy → ImmTy
  | .i16 | .n16 => .packed16
  | _ => .int
/-- Elements of an operand. -/
def elemsOf : ITy → Nat
  | .i16 | .n16 => 2
  | _ => 1

/-- Element j of an operand, read as the type says. -/
def elemInt (ty : ITy) (x : Dword) (j : Nat) : Int :=
  let w := widthOf ty
  let u := bits x.toNat (w * j) w
  if signedTy ty then (BitVec.ofNat w u).toInt else u

/-- An exact result as an element: wrapped, or clamped to the type's range under .sat (R438, R440). -/
def elemOut (ty : ITy) (sat : Bool) (e : Int) : Nat :=
  let w := widthOf ty
  let r := intRange w (signedTy ty)
  ((if sat then clampInt r.1 r.2 e else e) % (2 ^ w : Nat)).toNat

/-- A result built element by element. -/
def perElem (ty : ITy) (f : Nat → Nat) : Quad :=
  BitVec.ofNat 128 ((upFrom 0 (elemsOf ty)).foldl (fun acc j => acc + f j * 2 ^ (widthOf ty * j)) 0)

/-- One element-wise instruction of two sources. -/
def elem2 (ty : ITy) (sat : Bool) (op : Int → Int → Int) (x y : Dword) : Quad :=
  perElem ty fun j => elemOut ty sat (op (elemInt ty x j) (elemInt ty y j))

/-- A two-source instruction of a type code. -/
def intOp2 (k : Ctl) (ty : ITy) (a b c' : Opnd) (s : State) (f : Dword → Dword → Quad) : Host.Outcome State Fault Refusal :=
  regOp k a (regsOf ty) (regsOf ty) b c' .zero s fun c i =>
    (f (s.rd c (immOf ty) (regsOf ty) b i) (s.rd c (immOf ty) (regsOf ty) c' i), 0)

/-- A three-source instruction of a type code. -/
def intOp3 (k : Ctl) (ty : ITy) (a b c' d : Opnd) (s : State) (f : Dword → Dword → Dword → Quad) :
    Host.Outcome State Fault Refusal :=
  regOp k a (regsOf ty) (regsOf ty) b c' d s fun c i =>
    (f (s.rd c (immOf ty) (regsOf ty) b i) (s.rd c (immOf ty) (regsOf ty) c' i) (s.rd c (immOf ty) (regsOf ty) d i), 0)

/-! ### The instructions -/

/-- IADD (R440). -/
def execIadd (k : Ctl) (ty : ITy) (sat : Bool) (a b c' : Opnd) (s : State) : Host.Outcome State Fault Refusal :=
  intOp2 k ty a b c' s (elem2 ty sat fun x y => x + y)

/-- IADDT (R442): the exact sum of three, then the clamp. -/
def execIaddt (k : Ctl) (ty : ITy) (sat : Bool) (a b c' d : Opnd) (s : State) : Host.Outcome State Fault Refusal :=
  intOp3 k ty a b c' d s fun x y z =>
    perElem ty fun j => elemOut ty sat (elemInt ty x j + elemInt ty y j + elemInt ty z j)

/-- The result pair of IADDC: the word, and the carry or borrow above it (R441). -/
def addCarry (sub : Bool) (x y : Word) (ci : Bool) : Dword :=
  let e : Int := if sub then x.toNat - y.toNat - ci.toNat else x.toNat + y.toNat + ci.toNat
  let co : Word := if e < 0 ∨ (2 ^ 32 : Nat) ≤ e then 1 else 0
  co ++ BitVec.ofInt 32 e

/-- IADDC (R441). -/
def execIaddc (k : Ctl) (sub : Bool) (a b c' d : Opnd) (s : State) : Host.Outcome State Fault Refusal :=
  regOp k a 2 1 b c' d s fun c i =>
    (q64 (addCarry sub (s.rd32 c b i) (s.rd32 c c' i) ((s.rd32 c d i).getLsbD 0)), 0)

/-- ISUB (R440). -/
def execIsub (k : Ctl) (ty : ITy) (sat : Bool) (a b c' : Opnd) (s : State) : Host.Outcome State Fault Refusal :=
  intOp2 k ty a b c' s (elem2 ty sat fun x y => x - y)

/-- IMUL (R446). -/
def execImul (k : Ctl) (ty : ITy) (a b c' : Opnd) (s : State) : Host.Outcome State Fault Refusal :=
  intOp2 k ty a b c' s (elem2 ty false fun x y => x * y)

/-- IMULH (R446): the upper half of the exact product. -/
def execImulh (k : Ctl) (ty : ITy) (a b c' : Opnd) (s : State) : Host.Outcome State Fault Refusal :=
  intOp2 k ty a b c' s (elem2 ty false fun x y => x * y / (2 ^ widthOf ty : Nat))

/-- IMAD (R444). -/
def execImad (k : Ctl) (ty : ITy) (a b c' d : Opnd) (s : State) : Host.Outcome State Fault Refusal :=
  intOp3 k ty a b c' d s fun x y z =>
    perElem ty fun j => elemOut ty false (elemInt ty x j * elemInt ty y j + elemInt ty z j)

/-- IMADW (R444): 32-bit factors extended to 64 bits, and a 64-bit addend. -/
def execImadw (k : Ctl) (ty : ITy) (a b c' d : Opnd) (s : State) : Host.Outcome State Fault Refusal :=
  regOp k a 2 1 b c' d s fun c i =>
    let ext (x : Word) : Dword := if signedTy ty then x.signExtend 64 else x.setWidth 64
    (q64 (ext (s.rd32 c b i) * ext (s.rd32 c c' i) + s.rd64 c d i), 0)

/-- IMIN (R445). -/
def execImin (k : Ctl) (ty : ITy) (a b c' : Opnd) (s : State) : Host.Outcome State Fault Refusal :=
  intOp2 k ty a b c' s (elem2 ty false fun x y => min x y)

/-- IMAX (R445). -/
def execImax (k : Ctl) (ty : ITy) (a b c' : Opnd) (s : State) : Host.Outcome State Fault Refusal :=
  intOp2 k ty a b c' s (elem2 ty false fun x y => max x y)

/-- IABS (R439): the most negative value wraps to itself, or clamps under .sat. -/
def execIabs (k : Ctl) (ty : ITy) (sat : Bool) (a b : Opnd) (s : State) : Host.Outcome State Fault Refusal :=
  intOp2 k ty a b .zero s fun x _ => perElem ty fun j => elemOut ty sat (elemInt ty x j).natAbs

/-- A comparison of ICMP (R443). -/
def icmpHolds (cmp : ICmp) (x y : Int) : Bool :=
  match cmp with
  | .eq => decide (x = y)
  | .ne => decide (x ≠ y)
  | .lt => decide (x < y)
  | .le => decide (x ≤ y)
  | .gt => decide (y < x)
  | .ge => decide (y ≤ x)

/-- ICMP (R443): an element of all ones where the comparison holds. -/
def execIcmp (k : Ctl) (cmp : ICmp) (ty : ITy) (a b c' : Opnd) (s : State) : Host.Outcome State Fault Refusal :=
  intOp2 k ty a b c' s fun x y =>
    perElem ty fun j => if icmpHolds cmp (elemInt ty x j) (elemInt ty y j) then 2 ^ widthOf ty - 1 else 0

/-- SEL (R499). -/
def execSel (k : Ctl) (w64 : Bool) (a b c' d : Opnd) (s : State) : Host.Outcome State Fault Refusal :=
  intOp3 k (if w64 then .n64 else .n32) a b c' d s fun x y z => q64 (if z ≠ 0 then x else y)

/-- LEA (R454). -/
def execLea (k : Ctl) (signed : Bool) (n : BitVec 3) (w : Bool) (a b c' : Opnd) (s : State) :
    Host.Outcome State Fault Refusal :=
  regOp k a (if w then 2 else 1) 1 b c' .zero s fun c i =>
    let y := s.rd32 c c' i
    if w then
      let x : Dword := if signed then y.signExtend 64 else y.setWidth 64
      (q64 (s.rd64 c b i + x <<< n.toNat), 0)
    else (q32 (s.rd32 c b i + y <<< n.toNat), 0)

end Sys2Proof.Machine
end

