-- ==== Sys2Proof/Machine/Bitwise.lean ====
section
/-! DEFINITION. Class 0x2: moves, logic, shifts, bit fields, the HRND hash and capabilities (spec/19_ref_a_c.md R403, R406,
R410, R411, R413, R415, R416, R418; spec/20_ref_e_i.md R437; spec/21_ref_l_m.md R455, R468, R469; spec/22_ref_n_r.md R481,
R488; spec/23_ref_s_y.md R500, R501). -/

namespace Sys2Proof.Machine

/-- Registers of an operand under .64. -/
def regs64 (w64 : Bool) : Nat := if w64 then 2 else 1

/-- An instruction of one source of 32 or 64 bits. -/
def bitOp1 (k : Ctl) (w64 : Bool) (a b : Opnd) (s : State) (f : Dword → Dword) : Host.Outcome State Fault Refusal :=
  regOp k a (regs64 w64) (regs64 w64) b .zero .zero s fun c i => (q64 (f (s.rd c .int (regs64 w64) b i)), 0)

/-- MOV (R468). -/
def execMov (k : Ctl) (w64 : Bool) (a b : Opnd) (s : State) : Host.Outcome State Fault Refusal :=
  bitOp1 k w64 a b s fun x => x

/-- MOVI (R469). -/
def execMovi (k : Ctl) (a : Opnd) (lit : Word) (s : State) : Host.Outcome State Fault Refusal :=
  regOp k a 1 1 .zero .zero .zero s fun _ _ => (q32 lit, 0)

/-- Bit j of LOGT: the truth table at B + 2C + 4D (R455). -/
def truth (tab : BitVec 8) (x y z : Dword) (n : Nat) : Nat :=
  (upFrom 0 n).foldl (fun acc j =>
    let e := (x.getLsbD j).toNat + 2 * (y.getLsbD j).toNat + 4 * (z.getLsbD j).toNat
    acc + (tab.getLsbD e).toNat * 2 ^ j) 0

/-- LOGT (R455). -/
def execLogt (k : Ctl) (w64 : Bool) (a b c' d : Opnd) (tab : BitVec 8) (s : State) : Host.Outcome State Fault Refusal :=
  regOp k a (regs64 w64) (regs64 w64) b c' d s fun c i =>
    let r := s.rd c .int (regs64 w64)
    (BitVec.ofNat 128 (truth tab (r b i) (r c' i) (r d i) (32 * regs64 w64)), 0)

/-! ### Shifts (R500, R501) -/

/-- The type code of a shift (R500). -/
def shTy (ty : ShTy) (signed : Bool) : ITy :=
  match ty, signed with
  | .w32, false => .n32 | .w64, false => .n64 | .p16, false => .n16
  | .w32, true => .i32 | .w64, true => .i64 | .p16, true => .i16

/-- A plain shift: each element by bits [7:0] of its own count. -/
def shiftElems (ty : ITy) (f : Int → Nat → Int) (x y : Dword) : Quad :=
  perElem ty fun j => elemOut ty false (f (elemInt ty x j) (bits y.toNat (widthOf ty * j) 8))

/-- SHL (R500). -/
def execShl (k : Ctl) (ty : ShTy) (a b c' : Opnd) (s : State) : Host.Outcome State Fault Refusal :=
  intOp2 k (shTy ty false) a b c' s (shiftElems (shTy ty false) fun x n => x * (2 ^ n : Nat))

/-- SHR (R500): zero fill. -/
def execShr (k : Ctl) (ty : ShTy) (a b c' : Opnd) (s : State) : Host.Outcome State Fault Refusal :=
  intOp2 k (shTy ty false) a b c' s (shiftElems (shTy ty false) fun x n => x / (2 ^ n : Nat))

/-- SHA (R500): sign fill. -/
def execSha (k : Ctl) (ty : ShTy) (a b c' : Opnd) (s : State) : Host.Outcome State Fault Refusal :=
  intOp2 k (shTy ty true) a b c' s (shiftElems (shTy ty true) fun x n => x / (2 ^ n : Nat))

/-- The word that SHD keeps (R501). -/
def shiftJoint (m32 dn : Bool) (lo hi : Word) (count : Word) : Word :=
  let n0 := count.toNat % 256
  let n := if m32 then n0 % 32 else min n0 32
  let x : Dword := hi ++ lo
  if dn then (x >>> n).extractLsb' 0 32 else (x <<< n).extractLsb' 32 32

/-- SHD (R501). -/
def execShd (k : Ctl) (m32 dn : Bool) (a b c' d : Opnd) (s : State) : Host.Outcome State Fault Refusal :=
  regOp k a 1 1 b c' d s fun c i => (q32 (shiftJoint m32 dn (s.rd32 c b i) (s.rd32 c c' i) (s.rd32 c d i)), 0)

/-! ### Bit fields and counts -/

/-- Position and length of a bit field in a width (R403). -/
def fieldOf (w : Nat) (ctl : Dword) : Nat × Nat :=
  let p := bits ctl.toNat 0 6
  (p, if w ≤ p then 0 else min (bits ctl.toNat 8 7) (w - p))

/-- BFX (R403). -/
def execBfx (k : Ctl) (ty : ITy) (a b c' : Opnd) (s : State) : Host.Outcome State Fault Refusal :=
  intOp2 k ty a b c' s fun x y =>
    let (p, l) := fieldOf (widthOf ty) y
    let f := bits x.toNat p l
    BitVec.ofNat 128 (elemOut ty false (if l = 0 then 0 else if signedTy ty then (BitVec.ofNat l f).toInt else f))

/-- BFI (R403): A is read as well. -/
def execBfi (k : Ctl) (w64 : Bool) (a b c' : Opnd) (s : State) : Host.Outcome State Fault Refusal :=
  regOp k a (regs64 w64) (regs64 w64) b c' .zero s fun c i =>
    let r := s.rd c .int (regs64 w64)
    let (p, l) := fieldOf (32 * regs64 w64) (r c' i)
    let old := (r a i).toNat
    (BitVec.ofNat 128 (old - bits old p l * 2 ^ p + bits (r b i).toNat 0 l * 2 ^ p), 0)

/-- BREV (R406). -/
def execBrev (k : Ctl) (w64 : Bool) (a b : Opnd) (s : State) : Host.Outcome State Fault Refusal :=
  bitOp1 k w64 a b s fun x => if w64 then x.reverse else (x.setWidth 32).reverse.setWidth 64

/-- The zero bits above the most significant one of the n low bits. -/
def leadingZeros : Nat → Dword → Nat
  | 0, _ => 0
  | n + 1, x => if x.getLsbD n then 0 else 1 + leadingZeros n x

/-- CLZ (R415). -/
def execClz (k : Ctl) (w64 : Bool) (a b : Opnd) (s : State) : Host.Outcome State Fault Refusal :=
  bitOp1 k w64 a b s fun x => BitVec.ofNat 64 (leadingZeros (32 * regs64 w64) x)

/-- POPC (R481). -/
def execPopc (k : Ctl) (w64 : Bool) (a b : Opnd) (s : State) : Host.Outcome State Fault Refusal :=
  bitOp1 k w64 a b s fun x => BitVec.ofNat 64 (onesIn (32 * regs64 w64) x.toNat)

/-- RDLANE (R488): one lane's register, whatever that lane's state. -/
def execRdlane (k : Ctl) (w64 : Bool) (a b c' : Opnd) (s : State) : Host.Outcome State Fault Refusal :=
  onCur s fun c =>
    let p := s.parts c k
    let idx := (s.rd32 c c' 0).toNat
    if p ≠ 0 ∧ 31 < idx then s.raise c 0x02 2
    else s.complete c k b c' .zero { writes := writesOf a (regs64 w64) p fun _ => q64 (s.rd c .int (regs64 w64) b idx) }

/-! ### HRND (R146, R437) -/

/-- The 64-bit seed of the instruction's launch (R82, R327). -/
def State.launchSeed (s : State) (c : Cur) : Dword :=
  match s.block? c.bid with
  | none => 0
  | some b => recSeed (s.launch b.launch).record

/-- HRND (R437). -/
def execHrnd (k : Ctl) (useK : Bool) (a b c' : Opnd) (s : State) : Host.Outcome State Fault Refusal :=
  regOp k a 1 2 b c' .zero s fun c i =>
    (q32 (hrndHash (s.rd64 c b i) (if useK then s.rd64 c c' i else s.launchSeed c)), 0)

/-! ### Capabilities (R222, R223) -/

/-- A capability result: the quad of each participating lane, and its tag set. -/
def capResult (a : Opnd) (p : LaneSet) (f : Nat → Quad) : Result :=
  { writes := writesOf a 4 p f
    tagged := match a with
      | .lane n => (lanesOf p).map fun i => (i, n.toNat / 4, true)
      | _ => [] }

/-- The first check that fails in any lane, in order of the checks (R416). -/
def firstFail (p : LaneSet) (checks : List (Nat × (Nat → Bool))) : Option Nat :=
  (checks.find? fun x => (lanesOf p).any fun i => !x.2 i).map (·.1)

/-- The derivation check: narrow set, and bits [127:112] zero (R222, R416). -/
def derivable (q : Quad) : Bool := capNarrow q && q.extractLsb' 112 16 == 0

/-- CNARROW (R416). -/
def execCnarrow (k : Ctl) (a b c' d : Opnd) (s : State) : Host.Outcome State Fault Refusal :=
  onCur s fun c =>
    let p := s.parts c k
    let nb (i : Nat) : Nat := (s.rd64 c c' i).toNat % 2 ^ 57
    let nl (i : Nat) : Nat := (s.rd64 c d i).toNat
    let within (i : Nat) : Bool :=
      let q := c.quad b i
      decide (nl i < 2 ^ 48 ∧ capBase q ≤ nb i ∧ nb i + nl i ≤ capBase q + capLen q)
    match firstFail p [(0, c.tag b), (1, within), (2, fun i => derivable (c.quad b i))] with
    | some d => s.raise c 0x06 d
    | none =>
      s.complete c k b c' d (capResult a p fun i =>
        (c.quad b i).extractLsb' 105 23 ++ BitVec.ofNat 48 (nl i) ++ BitVec.ofNat 57 (nb i))

/-- CPERM (R418). -/
def execCperm (k : Ctl) (a b c' : Opnd) (s : State) : Host.Outcome State Fault Refusal :=
  onCur s fun c =>
    let p := s.parts c k
    match firstFail p [(0, c.tag b), (2, fun i => derivable (c.quad b i))] with
    | some d => s.raise c 0x06 d
    | none =>
      s.complete c k b c' .zero (capResult a p fun i =>
        let q := c.quad b i
        q.extractLsb' 112 16 ++ (q.extractLsb' 105 7 &&& (s.rd32 c c' i).setWidth 7) ++ q.extractLsb' 0 105)

/-- CGET (R413). -/
def execCget (k : Ctl) (a b : Opnd) (s : State) : Host.Outcome State Fault Refusal :=
  onCur s fun c =>
    let p := s.parts c k
    let caps := match s.block? c.bid with | none => [] | some x => (s.launch x.launch).caps
    let idx (i : Nat) : Nat := (s.rd32 c b i).toNat
    if (lanesOf p).any fun i => decide (caps.length ≤ idx i) then s.raise c 0x02 1
    else s.complete c k b .zero .zero (capResult a p fun i => lget 0 caps (idx i))

/-- The permission that CCHK tests. -/
def permOf : CapPerm → Quad → Bool
  | .read => capRead | .write => capWrite | .atomic => capAtomic | .chain => capChain

/-- The bytes that CCHK tests. -/
def capBytes : CapSize → Nat
  | .b1 => 1 | .b4 => 4 | .b8 => 8 | .b16 => 16

/-- CCHK (R410): 0 where R223 passes, else 1 + the detail. -/
def execCchk (k : Ctl) (perm : CapPerm) (size : CapSize) (a b c' : Opnd) (s : State) : Host.Outcome State Fault Refusal :=
  regOp k a 1 1 b c' .zero s fun c i =>
    let q := c.quad b i
    (match capCheck q (c.tag b i) (permOf perm) (capBase q + (s.rd32 c c' i).toInt) (capBytes size) with
     | none => 0
     | some d => BitVec.ofNat 128 (1 + d), 0)

/-- CCLR (R411): tags only. -/
def execCclr (k : Ctl) (a : Opnd) (s : State) : Host.Outcome State Fault Refusal :=
  onCur s fun c =>
    s.complete c k .zero .zero .zero
      { tagged := match a with
          | .lane n => (lanesOf (s.parts c k)).map fun i => (i, n.toNat / 4, false)
          | _ => [] }

end Sys2Proof.Machine
end

