-- ==== Sys2Proof/Machine/Control.lean ====
section
/-! DEFINITION. Class 0x0, control (spec/19 to spec/23: R404 to R408, R424, R476, R492, R497, R504, R509, R513). -/

namespace Sys2Proof.Machine

/-- NOP (R476): nothing but the move to the next slot. -/
def execNop (k : Ctl) (s : State) : Host.Outcome State Fault Refusal :=
  onCur s fun c => s.complete c k .zero .zero .zero {}

/-- The slot number of a PC (R301). -/
def slotNumber (pc : Nat) : Int := 5 * (pc / 64 : Nat) + (pc % 64 / 12 : Nat)

/-- The target of a slot offset, none below 0 or at or above 2^57 (R301, R405). -/
def branchTarget (pc : Pc) (off : BitVec 18) : Option Pc :=
  let t := slotNumber pc.toNat + off.toInt
  if t < 0 then none
  else
    let a := 64 * (t.toNat / 5) + 12 * (t.toNat % 5)
    if a < 2 ^ 57 then some (BitVec.ofNat 57 a) else none

/-- The link that CALL and CALLX write: the successor of the PC, zero-extended (R408). -/
def linkOf (c : Cur) (i : Nat) : Quad := q64 ((succPc (c.wave.lane i).pc).setWidth 64)

/-- BRA (R405). -/
def execBra (k : Ctl) (off : BitVec 18) (s : State) : Host.Outcome State Fault Refusal :=
  onCur s fun c =>
    let p := s.parts c k
    match branchTarget c.pc off with
    | some t => s.jump c k .zero .zero .zero p (fun _ => t) {}
    | none => if p = 0 then s.complete c k .zero .zero .zero {} else s.raise c 0x05 0xFF

/-- BRX (R407): bits [63:57] are ignored (R203). -/
def execBrx (k : Ctl) (b : Opnd) (s : State) : Host.Outcome State Fault Refusal :=
  onCur s fun c => s.jump c k b .zero .zero (s.parts c k) (fun i => (s.rd64 c b i).setWidth 57) {}

/-- CALL (R408). -/
def execCall (k : Ctl) (a : Opnd) (off : BitVec 18) (s : State) : Host.Outcome State Fault Refusal :=
  onCur s fun c =>
    let p := s.parts c k
    match branchTarget c.pc off with
    | some t => s.jump c k .zero .zero .zero p (fun _ => t) { writes := writesOf a 2 p (linkOf c) }
    | none => if p = 0 then s.complete c k .zero .zero .zero {} else s.raise c 0x05 0xFF

/-- CALLX (R408): the target is read before the link is written (R14). -/
def execCallx (k : Ctl) (a b : Opnd) (s : State) : Host.Outcome State Fault Refusal :=
  onCur s fun c =>
    let p := s.parts c k
    s.jump c k b .zero .zero p (fun i => (s.rd64 c b i).setWidth 57) { writes := writesOf a 2 p (linkOf c) }

/-- RET (R492): as BRX. -/
def execRet (k : Ctl) (b : Opnd) (s : State) : Host.Outcome State Fault Refusal :=
  onCur s fun c => s.jump c k b .zero .zero (s.parts c k) (fun i => (s.rd64 c b i).setWidth 57) {}

/-- The sleepers of leaders wake at the targets where they already stand (R54). -/
def Wave.wakeSleepers (w : Wave) (leaders : LaneSet) : Wave :=
  w.mapLanes fun _ l => match l.st with
    | .sleeping ld => if leaders.getLsbD ld then { l with st := .live } else l
    | _ => l

/-- Lanes end (R34, R424): exited for good, with no restart shadow left to a later abort; their leaders' sleepers wake, their
pending register results are discarded. -/
def Wave.exitLanes (w : Wave) (p : LaneSet) : Wave :=
  let w1 := (w.mapLanes fun i l => if p.getLsbD i then { l with st := .exited, paid := false, restart := none } else l).wakeSleepers p
  { w1 with pend := w1.pend.map fun x => { x with
      writes := x.writes.filter fun y => y.uni || !p.getLsbD y.lane
      tagged := x.tagged.filter fun y => !p.getLsbD y.1
      left := x.left.filter fun y => !p.getLsbD y.1 } }

/-- Returns n popped slots of a queue (R292). -/
def SpQueue.giveBack (x : SpQueue) (n : Nat) : SpQueue :=
  let freed := ((upFrom 0 x.slots.length).filter fun j => lget .free x.slots j == .popped).take n
  { x with free := x.free + n, slots := mapIdx (fun j y => if freed.contains j then .free else y) 0 x.slots }

/-- A wave whose lanes have all exited returns its popped queue slots (R292, R424). -/
def Block.returnPopped (b : Block) (i : Nat) : Block :=
  match b.wave? i with
  | none => b
  | some w =>
    if w.lanes.all Lane.isExited then
      { b.setWave i { w with popped := copies 0 8 } with
        queues := mapIdx (fun q x => x.giveBack (lget 0 w.popped q)) 0 b.queues }
    else b

/-- EXIT (R424). -/
def execExit (k : Ctl) (s : State) : Host.Outcome State Fault Refusal :=
  onCur s fun c =>
    s.closing c fun s c =>
      let p := s.parts c k
      let w := ((c.wave.issued c k .zero .zero .zero).advance (c.active &&& ~~~p)).exitLanes p
      ((s.putCur c w).onBlock c.bid (·.returnPopped c.wid)).retireIfDone c.bid

/-- YIELD (R513, R52). -/
def execYieldI (k : Ctl) (s : State) : Host.Outcome State Fault Refusal :=
  onCur s fun c =>
    let w := (c.wave.issued c k .zero .zero .zero).advance c.active
    s.putCur c { w with yielded := w.yielded || s.parts c k != 0 }

/-- SLEEP (R504): a deadline of the always-on count plus n; n = 0 goes on. -/
def execSleep (k : Ctl) (b : Opnd) (s : State) : Host.Outcome State Fault Refusal :=
  onCur s fun c =>
    let p := s.parts c k
    match s.paramTrap c p 1 [b] with
    | some x => s.paramStop c p x
    | none =>
      let w := (c.wave.issued c k b .zero .zero).advance c.active
      let w1 := w.mapLanes fun i l =>
        if p.getLsbD i && s.rd32 c b i != 0 then
          { l with st := .blocked (.sleep (s.clk + (s.rd32 c b i).setWidth 64)) } else l
      s.putCur c { w1 with fpstat := w1.fpstat ||| s.paramFlags c p 1 [b] }

/-- TRAP (R509): trap kind 0x0B with the code as detail, if a lane participates. -/
def execTrap (k : Ctl) (code : BitVec 8) (s : State) : Host.Outcome State Fault Refusal :=
  onCur s fun c =>
    if s.parts c k = 0 then s.complete c k .zero .zero .zero {} else s.raise c 0x0B code.toNat

/-- RTT (R497). -/
def execRtt (k : Ctl) (skip : Bool) (s : State) : Host.Outcome State Fault Refusal :=
  onCur s fun c => s.returnFromTrap c k skip

/-- BKPT (R404): trap kind 0x0C, if a lane participates. -/
def execBkpt (k : Ctl) (s : State) : Host.Outcome State Fault Refusal :=
  onCur s fun c =>
    if s.parts c k = 0 then s.complete c k .zero .zero .zero {} else s.raise c 0x0C 0

end Sys2Proof.Machine
end

