-- ==== Sys2Proof/Machine/Sfn.lean ====
section
/-! DEFINITION. The special functions (spec/20_ref_e_i.md R429, R430). Reciprocals and square roots are exact up to a sticky
bit, so they round correctly. The transcendental functions are known to 500 bits, enough to name the two neighbours of
every result that no format holds; which of the two is returned is a free value (log 3). -/

namespace Sys2Proof.Machine

/-! ### Exact roots and reciprocals -/

/-- The integer square root of n, given n < 4^k. -/
def isqrt : Nat → Nat → Nat
  | 0, _ => 0
  | k + 1, n =>
    let r := 2 * isqrt k (n / 4)
    if (r + 1) * (r + 1) ≤ n then r + 1 else r

/-- A floor and whether it is exact, as a number with a sticky bit below. -/
def sticky (q : Nat) (exact : Bool) : Nat := 2 * q + if exact then 0 else 1

/-- 1 / (m × 2^e), with sticky bit. -/
def recipOf (m : Nat) (e : Int) : Nat × Int :=
  let k := m.log2 + 64
  (sticky (2 ^ k / m) (2 ^ k % m == 0), -e - k - 1)

/-- √(m × 2^e), with sticky bit. -/
def sqrtOf (m : Nat) (e : Int) : Nat × Int :=
  let (m1, e1) := if e % 2 = 0 then (m, e) else (2 * m, e - 1)
  let n := m1 * 2 ^ 128
  let r := isqrt 96 n
  (sticky r (r * r == n), e1 / 2 - 65)

/-- 1 / √(m × 2^e), with sticky bit. -/
def rsqrtOf (m : Nat) (e : Int) : Nat × Int :=
  let (m1, e1) := if e % 2 = 0 then (m, e) else (2 * m, e - 1)
  let q := 2 ^ 192 / m1
  let r := isqrt 100 q
  (sticky r (r * r * m1 == 2 ^ 192), -(e1 / 2) - 97)

/-! ### Fixed-point series of 512 bits -/

/-- One in fixed point. -/
def one512 : Nat := 2 ^ 512

/-- Terms k, k + 1, … of the exponential series of t, from a first term. -/
def expTerms : Nat → Nat → Nat → Nat → Nat
  | 0, _, _, _ => 0
  | n + 1, k, t, term => term + expTerms n (k + 1) t (term * t / one512 / k)

/-- Terms of Σ t^(2j+1) / (2j+1), by the power and its divisor; alternating gives the arc tangent. -/
def oddTerms : Nat → Nat → Int → Int → Int
  | 0, _, _, _ => 0
  | n + 1, d, p, r => p / d + oddTerms n (d + 2) (p * r / one512) r

/-- ln 2. -/
def ln2Fix : Nat := (2 * oddTerms 180 1 (one512 / 3) (one512 / 9)).toNat

/-- π, by Machin's formula. -/
def piFix : Nat :=
  (16 * oddTerms 130 1 (one512 / 5) (-(one512 / 25 : Nat)) - 4 * oddTerms 60 1 (one512 / 239) (-(one512 / 57121 : Nat))).toNat

/-- 2^f for a fraction f. -/
def exp2Fix (f : Nat) : Nat := expTerms 130 1 (f * ln2Fix / one512) one512

/-- log2 of y / 2^k, 1 ≤ y / 2^k < 2. -/
def log2Fix (y k : Nat) : Nat :=
  let t : Int := ((y - 2 ^ k) * one512 / (y + 2 ^ k) : Nat)
  (2 * oddTerms 180 1 t (t * t / one512) * one512 / ln2Fix).toNat

/-- Terms of the sine or cosine series: each by −θ² and the next two divisors. -/
def trigTerms : Nat → Nat → Int → Int → Int
  | 0, _, _, _ => 0
  | n + 1, k, t2, term => term + trigTerms n (k + 2) t2 (-(term * t2 / one512) / (k * (k + 1) : Nat))

/-- The exponential of y ≥ 0 in fixed point. -/
def expFix (y : Nat) : Nat :=
  let n := y / ln2Fix
  expTerms 130 1 (y % ln2Fix) one512 * 2 ^ n

/-! ### The five functions of one neighbour (R429) -/

/-- The result for a value known exactly or by sticky bit: exact where the format holds it, +∞ or −∞ on overflow, else one
of the two neighbours. -/
def FF.neighbour (f : FF) (upper : Bool) (neg : Bool) (m : Nat) (e : Int) : Nat × Flags :=
  let r := f.round .rz neg m e
  if r.exact ∧ !r.overflow then (f.sign neg + r.code, 0)
  else if (f.round .rn neg m e).overflow then (f.inf neg, fOverflow ||| fInexact)
  else
    let code := r.code + if upper then 1 else 0
    if f.maxCode < code then (f.inf neg, fOverflow ||| fInexact)
    else (f.sign neg + code, fInexact ||| flagIf (decide (code < 2 ^ f.fbits)) fUnderflow)

/-- A magnitude m × 2^e in fixed point, exact for every input of R137. -/
def toFix (m : Nat) (e : Int) : Nat := scaleTo m e (-512)

/-- 2^x. -/
def FF.ex2 (f : FF) (up : Bool) (neg : Bool) (m : Nat) (e : Int) : Nat × Flags :=
  if 16 < e + (m.log2 : Int) then f.neighbour up false 1 (if neg then -2000 else 2000)
  else
    let v : Int := if neg then -(toFix m e : Int) else toFix m e
    let n := v / (one512 : Nat)
    let fr := (v % (one512 : Nat)).toNat
    if fr = 0 then f.neighbour up false 1 n
    else f.neighbour up false (sticky (exp2Fix fr) false) (n - 513)

/-- log2 x, x > 0. -/
def FF.lg2 (f : FF) (up : Bool) (m : Nat) (e : Int) : Nat × Flags :=
  let n : Int := e + m.log2
  if m = 2 ^ m.log2 then f.deliver .rn false (Val.ofInt n)
  else
    let v : Int := n * (one512 : Nat) + log2Fix m m.log2
    f.neighbour up (decide (v < 0)) (sticky v.natAbs false) (-513)

/-- sin(π x), x finite. -/
def FF.sinPi (f : FF) (up : Bool) (neg : Bool) (m : Nat) (e : Int) : Nat × Flags :=
  let x := toFix m e
  let fr := x % one512
  let flip := x / one512 % 2 == 1
  if fr = 0 then (f.sign neg, 0)
  else if 2 * fr = one512 then f.deliver .rn false (.num (neg != flip) 1 0)
  else
    let th : Int := (fr * piFix / one512 : Nat)
    f.neighbour up (neg != flip) (sticky (trigTerms 90 2 (th * th / one512) th).natAbs false) (-513)

/-- cos(π x), x finite. -/
def FF.cosPi (f : FF) (up : Bool) (m : Nat) (e : Int) : Nat × Flags :=
  let x := toFix m e
  let fr := x % one512
  let flip := x / one512 % 2 == 1
  if fr = 0 then f.deliver .rn false (.num flip 1 0)
  else if 2 * fr = one512 then (0, 0)
  else
    let th : Int := (fr * piFix / one512 : Nat)
    let v := trigTerms 90 1 (th * th / one512) (one512 : Nat)
    f.neighbour up (flip != decide (v < 0)) (sticky v.natAbs false) (-513)

/-- tanh x, x finite and not zero. -/
def FF.tanh (f : FF) (up : Bool) (neg : Bool) (m : Nat) (e : Int) : Nat × Flags :=
  let t := if 5 < e + (m.log2 : Int) then one512 - 1
    else
      let y := expFix (2 * toFix m e)
      (y - one512) * one512 / (y + one512)
  f.neighbour up neg (sticky t false) (-513)

/-! ### The eight instructions, specials included (R430) -/

/-- The special functions. -/
inductive Sfn where
  | rcp | rsq | sqrt | ex2 | lg2 | sin | cos | tanh
  deriving DecidableEq, Repr

/-- A special function of an input code, with the flags of R430 and R152. -/
def sfn (fn : Sfn) (fmt : FFmt) (md : Mode) (code : Nat) : Nat × Flags :=
  let f := ffOf fmt
  let c := code % 2 ^ (f.mbits + 1)
  let up (n : Nat) : Bool := Config.sfnUpper n fmt.code c
  let bad : Nat × Flags := (f.canon, fInvalid)
  match f.value c, fn with
  | .nan sig, _ => (f.canon, flagIf sig fInvalid)
  | .num neg 0 _, .rcp => (f.inf neg, fDivzero)
  | .inf neg, .rcp => (f.sign neg, 0)
  | .num neg m e, .rcp => let (q, x) := recipOf m e; f.deliver md false (.num neg q x)
  | .num neg 0 _, .rsq => (f.inf neg, fDivzero)
  | .inf neg, .rsq => if neg then bad else (0, 0)
  | .num neg m e, .rsq => if neg then bad else let (q, x) := rsqrtOf m e; f.deliver md false (.num false q x)
  | .num neg 0 _, .sqrt => (f.sign neg, 0)
  | .inf neg, .sqrt => if neg then bad else (f.inf false, 0)
  | .num neg m e, .sqrt => if neg then bad else let (q, x) := sqrtOf m e; f.deliver md false (.num false q x)
  | .inf neg, .ex2 => (if neg then 0 else f.inf false, 0)
  | .num neg m e, .ex2 => f.ex2 (up 0) neg m e
  | .num _ 0 _, .lg2 => (f.inf true, fDivzero)
  | .inf neg, .lg2 => if neg then bad else (f.inf false, 0)
  | .num neg m e, .lg2 => if neg then bad else f.lg2 (up 1) m e
  | .inf _, .sin => bad
  | .num neg m e, .sin => f.sinPi (up 2) neg m e
  | .inf _, .cos => bad
  | .num _ m e, .cos => f.cosPi (up 3) m e
  | .inf neg, .tanh => f.deliver .rn false (.num neg 1 0)
  | .num neg 0 _, .tanh => (f.sign neg, 0)
  | .num neg m e, .tanh => f.tanh (up 4) neg m e

end Sys2Proof.Machine
end

