-- ==== Sys2Proof/Machine/Float.lean ====
section
/-! DEFINITION. Class 0x3, floating point (spec/20_ref_e_i.md R425 to R431, R433, R434). -/

namespace Sys2Proof.Machine

/-! ### What one lane computes, on codes -/

/-- B − C (R426). -/
def FF.sub (f : FF) (md : Mode) (a b : Nat) : Nat × Flags :=
  let (v, fl) := addExact md (f.value a) (f.value b).flip
  let (c, fl') := f.deliver md false v
  (c, fl ||| fl')

/-- B × C (R426). -/
def FF.mul (f : FF) (md : Mode) (a b : Nat) : Nat × Flags :=
  let (v, fl) := mulExact (f.value a) (f.value b)
  let (c, fl') := f.deliver md false v
  (c, fl ||| fl')

/-- B × C + D with one rounding (R426). -/
def FF.fma (f : FF) (md : Mode) (a b d : Nat) : Nat × Flags :=
  let (v, fl) := mulExact (f.value a) (f.value b)
  let (v', fl') := addExact md v (f.value d)
  let (c, fl'') := f.deliver md false v'
  (c, fl ||| fl' ||| fl'')

/-- Whether a is below b, −0 ordered below +0 (R433). -/
def fltLess (a b : Val) : Bool := a.lt b || (a.isZero && b.isZero && a.neg && !b.neg)

/-- The smaller or larger of two sources (R433). -/
def FF.pick (f : FF) (larger nan : Bool) (a b : Nat) : Nat × Flags :=
  let x := f.value a
  let y := f.value b
  let w := 2 ^ (f.mbits + 1)
  (if (x.isNan && y.isNan) || (nan && (x.isNan || y.isNan)) then f.canon
   else if x.isNan then b % w
   else if y.isNan then a % w
   else if fltLess x y == larger then b % w
   else a % w,
   flagIf (x.isSig || y.isSig) fInvalid)

/-- A comparison (R428): whether it is true, and whether a quiet NaN sets invalid. -/
def fcmpHolds (cmp : FCmp) (x y : Val) : Bool × Bool :=
  let un := x.isNan || y.isNan
  match cmp with
  | .eq => (!un && x.same y, false)
  | .ne => (un || !x.same y, false)
  | .lt => (!un && x.lt y, true)
  | .le => (!un && !y.lt x, true)
  | .gt => (!un && y.lt x, true)
  | .ge => (!un && !x.lt y, true)
  | .un => (un, false)
  | .or => (!un, false)

/-- The class bit of a code (R427). -/
def FF.classOf (f : FF) (code : Nat) : Nat :=
  match f.value code with
  | .nan sig => if sig then 256 else 512
  | .inf neg => if neg then 1 else 128
  | .num neg m _ =>
    if m = 0 then (if neg then 8 else 16)
    else if m < 2 ^ f.fbits then (if neg then 4 else 32)
    else if neg then 2 else 64

/-- The integral value of the same format (R434). -/
def FF.integral (f : FF) (md : Mode) (x : Bool) (code : Nat) : Nat × Flags :=
  match f.value code with
  | .nan sig => (f.canon, flagIf sig fInvalid)
  | .inf neg => (f.inf neg, 0)
  | .num neg m e =>
    let (n, exact) := roundAt md neg m e 0
    ((f.deliver .rn false (.num neg n 0)).1, flagIf (x && !exact) fInexact)

/-- B.lo × C.lo + B.hi × C.hi + D with one rounding to FP32, and the specials in the order of R426: NaN elements, 0 × ∞, a
NaN addend, infinities that cancel (R431). -/
def dot2 (f : FF) (md : Mode) (x y d : Word) : Nat × Flags :=
  let xl := f.value x.toNat
  let xh := f.value (x.toNat / 65536)
  let yl := f.value y.toNat
  let yh := f.value (y.toNat / 65536)
  let z := ffF32.value d.toNat
  let sig := flagIf ([xl, xh, yl, yh, z].any Val.isSig) fInvalid
  if [xl, xh, yl, yh].any Val.isNan then (ffF32.canon, sig)
  else
    let (p, fp) := mulExact xl yl
    let (q, fq) := mulExact xh yh
    if p.isNan || q.isNan then (ffF32.canon, sig ||| fp ||| fq)
    else if z.isNan then (ffF32.canon, sig)
    else
      let (u, fu) := addExact md p q
      let (v, fv) := addExact md u z
      let (c, fc) := ffF32.deliver md false v
      (c, fu ||| fv ||| fc)

/-! ### The shapes -/

/-- A source code of the format (R425). -/
def State.fp (s : State) (c : Cur) (fmt : FFmt) (o : Opnd) (i : Nat) : Nat := (s.rd c (.fp fmt) 1 o i).toNat

/-- A code and flags as the 32 bits of a destination, upper bits zero (R425). -/
def codeOut (r : Nat × Flags) : Quad × Flags := (BitVec.ofNat 128 r.1, r.2)

/-- A floating-point instruction of one source. -/
def fpOp1 (k : Ctl) (fmt : FFmt) (a b : Opnd) (s : State) (f : Nat → Nat × Flags) : Host.Outcome State Fault Refusal :=
  regOp k a 1 1 b .zero .zero s fun c i => codeOut (f (s.fp c fmt b i))

/-- A floating-point instruction of two sources. -/
def fpOp2 (k : Ctl) (fmt : FFmt) (a b c' : Opnd) (s : State) (f : Nat → Nat → Nat × Flags) :
    Host.Outcome State Fault Refusal :=
  regOp k a 1 1 b c' .zero s fun c i => codeOut (f (s.fp c fmt b i) (s.fp c fmt c' i))

/-! ### The instructions -/

/-- FADD (R426). -/
def execFadd (k : Ctl) (fmt : FFmt) (rnd : Rnd4) (a b c' : Opnd) (s : State) : Host.Outcome State Fault Refusal :=
  fpOp2 k fmt a b c' s ((ffOf fmt).add (rndMode4 rnd))

/-- FSUB (R426). -/
def execFsub (k : Ctl) (fmt : FFmt) (rnd : Rnd4) (a b c' : Opnd) (s : State) : Host.Outcome State Fault Refusal :=
  fpOp2 k fmt a b c' s ((ffOf fmt).sub (rndMode4 rnd))

/-- FMUL (R426). -/
def execFmul (k : Ctl) (fmt : FFmt) (rnd : Rnd4) (a b c' : Opnd) (s : State) : Host.Outcome State Fault Refusal :=
  fpOp2 k fmt a b c' s ((ffOf fmt).mul (rndMode4 rnd))

/-- FFMA (R426). -/
def execFfma (k : Ctl) (fmt : FFmt) (rnd : Rnd4) (a b c' d : Opnd) (s : State) : Host.Outcome State Fault Refusal :=
  regOp k a 1 1 b c' d s fun c i =>
    codeOut ((ffOf fmt).fma (rndMode4 rnd) (s.fp c fmt b i) (s.fp c fmt c' i) (s.fp c fmt d i))

/-- FMIN (R433). -/
def execFmin (k : Ctl) (fmt : FFmt) (nan : Bool) (a b c' : Opnd) (s : State) : Host.Outcome State Fault Refusal :=
  fpOp2 k fmt a b c' s ((ffOf fmt).pick false nan)

/-- FMAX (R433). -/
def execFmax (k : Ctl) (fmt : FFmt) (nan : Bool) (a b c' : Opnd) (s : State) : Host.Outcome State Fault Refusal :=
  fpOp2 k fmt a b c' s ((ffOf fmt).pick true nan)

/-- FCMP (R428): a 32-bit mask in every format. -/
def execFcmp (k : Ctl) (cmp : FCmp) (fmt : FFmt) (a b c' : Opnd) (s : State) : Host.Outcome State Fault Refusal :=
  fpOp2 k fmt a b c' s fun x y =>
    let u := (ffOf fmt).value x
    let v := (ffOf fmt).value y
    let r := fcmpHolds cmp u v
    (if r.1 then 0xFFFFFFFF else 0, flagIf (u.isSig || v.isSig || (r.2 && (u.isNan || v.isNan))) fInvalid)

/-- FCLASS (R427). -/
def execFclass (k : Ctl) (fmt : FFmt) (a b : Opnd) (s : State) : Host.Outcome State Fault Refusal :=
  fpOp1 k fmt a b s fun x => ((ffOf fmt).classOf x, 0)

/-- FRND (R434). -/
def execFrnd (k : Ctl) (fmt : FFmt) (rnd : Rnd4) (x : Bool) (a b : Opnd) (s : State) : Host.Outcome State Fault Refusal :=
  fpOp1 k fmt a b s ((ffOf fmt).integral (rndMode4 rnd) x)

/-- FDOT2 (R431). -/
def execFdot2 (k : Ctl) (fmt : PFmt) (rnd : Rnd4) (a b c' d : Opnd) (s : State) : Host.Outcome State Fault Refusal :=
  regOp k a 1 1 b c' d s fun c i =>
    codeOut (dot2 (pfOf fmt) (rndMode4 rnd) (s.rd32 c b i) (s.rd32 c c' i) (s.rd32 c d i))

/-- FRCP (R429). -/
def execFrcp (k : Ctl) (fmt : FFmt) (rnd : Rnd4) (a b : Opnd) (s : State) : Host.Outcome State Fault Refusal :=
  fpOp1 k fmt a b s (sfn .rcp fmt (rndMode4 rnd))

/-- FRSQ (R429). -/
def execFrsq (k : Ctl) (fmt : FFmt) (rnd : Rnd4) (a b : Opnd) (s : State) : Host.Outcome State Fault Refusal :=
  fpOp1 k fmt a b s (sfn .rsq fmt (rndMode4 rnd))

/-- FSQRT (R429). -/
def execFsqrt (k : Ctl) (fmt : FFmt) (rnd : Rnd4) (a b : Opnd) (s : State) : Host.Outcome State Fault Refusal :=
  fpOp1 k fmt a b s (sfn .sqrt fmt (rndMode4 rnd))

/-- FEX2 (R429). -/
def execFex2 (k : Ctl) (fmt : FFmt) (a b : Opnd) (s : State) : Host.Outcome State Fault Refusal :=
  fpOp1 k fmt a b s (sfn .ex2 fmt .rn)

/-- FLG2 (R429). -/
def execFlg2 (k : Ctl) (fmt : FFmt) (a b : Opnd) (s : State) : Host.Outcome State Fault Refusal :=
  fpOp1 k fmt a b s (sfn .lg2 fmt .rn)

/-- FSIN (R429). -/
def execFsin (k : Ctl) (fmt : FFmt) (a b : Opnd) (s : State) : Host.Outcome State Fault Refusal :=
  fpOp1 k fmt a b s (sfn .sin fmt .rn)

/-- FCOS (R429). -/
def execFcos (k : Ctl) (fmt : FFmt) (a b : Opnd) (s : State) : Host.Outcome State Fault Refusal :=
  fpOp1 k fmt a b s (sfn .cos fmt .rn)

/-- FTANH (R429). -/
def execFtanh (k : Ctl) (fmt : FFmt) (a b : Opnd) (s : State) : Host.Outcome State Fault Refusal :=
  fpOp1 k fmt a b s (sfn .tanh fmt .rn)

end Sys2Proof.Machine
end

