-- ==== Sys2Proof/Machine/CrossLane.lean ====
section
/-! DEFINITION. Class 0x5, cross-lane (spec/02_execution.md R41 to R43, R53 to R56; spec/20_ref_e_i.md R422, R423;
spec/21_ref_l_m.md R458; spec/22_ref_n_r.md R478, R491; spec/23_ref_s_y.md R498, R502, R510). -/

namespace Sys2Proof.Machine

/-- The participating lanes of a lane's tile (R41, R43). -/
def tileOf (s : Nat) (p : LaneSet) (i : Nat) : LaneSet := lanesWhere fun j => p.getLsbD j && j / s == i / s

/-- PART (R478). -/
def execPart (k : Ctl) (b : Opnd) (s : State) : Host.Outcome State Fault Refusal :=
  onCur s fun c =>
    let p := s.parts c k
    let v (i : Nat) : Nat := (s.rd32 c b i).toNat
    match lowLane p with
    | none => s.complete c k b .zero .zero {}
    | some i =>
      if (lanesOf p).all fun j => v j == v i && [2, 4, 8, 16, 32].contains (v j) then
        let s1 := s.complete c k b .zero .zero {}
        s1.onWave c.bid c.wid fun w => { w with s := v i }
      else s.raise c 0x02 1

/-- The source lane of SHFL (R502). -/
def shuffleFrom (mode : ShflMode) (s i : Nat) (x : Word) : Nat :=
  let l := i % s
  let t0 := i - l
  let n := x.toNat
  match mode with
  | .idx => t0 + n % s
  | .up => if n ≤ l then i - n else i
  | .down => if l + n < s then i + n else i
  | .xor => t0 + (l ^^^ (n % s))

/-- SHFL (R502). -/
def execShfl (k : Ctl) (w64 : Bool) (mode : ShflMode) (a b c' : Opnd) (s : State) : Host.Outcome State Fault Refusal :=
  regOp k a (regs64 w64) 1 b c' .zero s fun c i =>
    (q64 (s.rd c .int (regs64 w64) b (shuffleFrom mode c.wave.s i (s.rd32 c c' i))), 0)

/-- A truth value as a mask (R510). -/
def maskOf (b : Bool) : LaneSet := if b then allLanes else 0

/-- What VOTE gives a tile: its participating lanes, and those that vote true (R510). -/
def voteOf (fn : VoteFn) (t yes : LaneSet) : LaneSet :=
  match fn with
  | .any => maskOf (yes != 0)
  | .all => maskOf (yes == t)
  | .eq => maskOf (yes == t || yes == 0)
  | .ballot => yes

/-- VOTE (R510). -/
def execVote (k : Ctl) (fn : VoteFn) (a b : Opnd) (s : State) : Host.Outcome State Fault Refusal :=
  regOp k a 1 1 b .zero .zero s fun c i =>
    let t := tileOf c.wave.s (s.parts c k) i
    (q32 (voteOf fn t (lanesWhere fun j => t.getLsbD j && s.rd32 c b j != 0)), 0)

/-- Registers of a type of class 0x5. -/
def xregs : XTy → Nat
  | .n64 => 2
  | _ => 1

/-- One step of REDT and SCANT (R491). -/
def xstep (op : XOp) (ty : XTy) (r x : Dword) : Dword × Flags :=
  let z := if ty = .n64 then 8 else 4
  let f (v : Nat × Flags) : Dword × Flags := (BitVec.ofNat 64 v.1, v.2)
  match op, ty with
  | .add, .f32 => f (ffF32.add .rn r.toNat x.toNat)
  | .min, .f32 => f (ffF32.pick false false r.toNat x.toNat)
  | .max, .f32 => f (ffF32.pick true false r.toNat x.toNat)
  | .add, _ => (BitVec.ofNat 64 ((r.toNat + x.toNat) % 2 ^ (8 * z)), 0)
  | .min, t => (BitVec.ofNat 64 (minOf (t == .i32) z r.toNat x.toNat), 0)
  | .max, t => (BitVec.ofNat 64 (maxOf (t == .i32) z r.toNat x.toNat), 0)
  | .and, _ => (r &&& x, 0)
  | .or, _ => (r ||| x, 0)
  | .xor, _ => (r ^^^ x, 0)

/-- The inclusive running results of a list of values, and the flags of every step (R498). -/
def running (op : XOp) (ty : XTy) : Dword → List Dword → List Dword × Flags
  | r, [] => ([r], 0)
  | r, x :: t =>
    let (r', fl) := xstep op ty r x
    let (l, fl') := running op ty r' t
    (r :: l, fl ||| fl')

/-- The running results of a tile. -/
def tileScan (op : XOp) (ty : XTy) : List Dword → List Dword × Flags
  | [] => ([], 0)
  | x :: t => running op ty x t

/-- REDT (R491): the last running result of the tile, for each of its lanes. -/
def execRedt (k : Ctl) (op : XOp) (ty : XTy) (a b : Opnd) (s : State) : Host.Outcome State Fault Refusal :=
  regOp k a (xregs ty) (xregs ty) b .zero .zero s fun c i =>
    let t := lanesOf (tileOf c.wave.s (s.parts c k) i)
    let r := tileScan op ty (t.map (s.rd c .int (xregs ty) b))
    (q64 (r.1.getLast?.getD 0), r.2)

/-- The value that the lowest lane of a tile receives under .excl (R498). -/
def scanId (op : XOp) (ty : XTy) : Dword :=
  match op, ty with
  | .min, .n64 => BitVec.allOnes 64
  | .min, .n32 => 0xFFFFFFFF
  | .min, .i32 => 0x7FFFFFFF
  | .min, .f32 => 0x7F800000
  | .max, .i32 => 0x80000000
  | .max, .f32 => 0xFF800000
  | .and, .n64 => BitVec.allOnes 64
  | .and, _ => 0xFFFFFFFF
  | _, _ => 0

/-- SCANT (R498). -/
def execScant (k : Ctl) (excl : Bool) (op : XOp) (ty : XTy) (a b : Opnd) (s : State) : Host.Outcome State Fault Refusal :=
  regOp k a (xregs ty) (xregs ty) b .zero .zero s fun c i =>
    let t := lanesOf (tileOf c.wave.s (s.parts c k) i)
    let r := tileScan op ty (t.map (s.rd c .int (xregs ty) b))
    let n := (t.filter fun j => decide (j < i)).length
    (q64 (lget 0 (if excl then scanId op ty :: r.1 else r.1) n), r.2)

/-- MATCH (R458). -/
def execMatchT (k : Ctl) (all w64 : Bool) (a b : Opnd) (s : State) : Host.Outcome State Fault Refusal :=
  regOp k a 1 (regs64 w64) b .zero .zero s fun c i =>
    let t := tileOf c.wave.s (s.parts c k) i
    let v := s.rd c .int (regs64 w64) b
    let e := lanesWhere fun j => t.getLsbD j && v j == v i
    (q32 (if all then (if e = t then t else 0) else e), 0)

/-- Whether the slot of an implicit entry has its target bit (R93): the check that ELECT makes of its resume target and
RGN of its restart PC. A line that cannot be read yet is checked by the fetch of the run that first issues from it (R97, log
54). -/
def State.entryBad (s : State) (c : Cur) (pc : Pc) : Option Nat :=
  match s.lookLine c.core c.ctx pc.toNat with
  | .line _ l => if targetBit l (slotOfPc pc.toNat) then none else some (slotOfPc pc.toNat)
  | _ => none

/-- The line of an implicit entry cannot be read yet: its target bit is still to be checked (R93). -/
def State.entryUnread (s : State) (c : Cur) (pc : Pc) : Bool :=
  match s.lookLine c.core c.ctx pc.toNat with
  | .line _ _ => false
  | _ => true

/-- ELECT (R53, R422): in each tile the lowest participating lane goes on and the others sleep on it at the target. -/
def execElect (k : Ctl) (off : BitVec 18) (s : State) : Host.Outcome State Fault Refusal :=
  onCur s fun c =>
    let p := s.parts c k
    if p = 0 then s.complete c k .zero .zero .zero {}
    else match branchTarget c.pc off with
      | none => s.raise c 0x05 0xFF
      | some t =>
        match s.entryBad c t with
        | some slot => s.raise c 0x05 slot
        | none =>
          let w := (c.wave.issued c k .zero .zero .zero).advance c.active
          s.putCur c (w.mapLanes fun i l =>
            let lead := (lowLane (tileOf c.wave.s p i)).getD i
            if p.getLsbD i && lead != i then { l with pc := t, st := .sleeping lead, check := s.entryUnread c t } else l)

/-- ELEND (R54, R55, R423): the lanes that sleep on a participating lane at the slot after this one wake, where their
leader goes on as well; lanes that sleep on it at another target belong to an outer section. -/
def execElend (k : Ctl) (s : State) : Host.Outcome State Fault Refusal :=
  onCur s fun c =>
    let p := s.parts c k
    let after := succPc c.pc
    let w := (c.wave.issued c k .zero .zero .zero).advance c.active
    s.putCur c (w.mapLanes fun _ l => match l.st with
      | .sleeping ld => if p.getLsbD ld && l.pc == after then { l with st := .live } else l
      | _ => l)

end Sys2Proof.Machine
end

