-- ==== Sys2Proof/Machine/Memory.lean ====
section
/-! DEFINITION. Class 0x6, memory (spec/19_ref_a_c.md R399, R400, R412; spec/21_ref_l_m.md R449 to R453; spec/22_ref_n_r.md
R482, R489, R490, R493, R494; spec/23_ref_s_y.md R506, R507, R511). -/

namespace Sys2Proof.Machine

/-! ### Shared steps -/

/-- Runs a meaning of class 0x6 on the block of the instruction in hand, unless a parameter operand in C traps (R226). -/
def onBlk (s : State) (k : Ctl) (c' : Opnd) (f : Cur → Block → LaneSet → State) : Host.Outcome State Fault Refusal :=
  onCur s fun c =>
    let p := s.parts c k
    match s.paramTrap c p 1 [c'] with
    | some x => s.paramStop c p x
    | none =>
      match s.block? c.bid with
      | none => s
      | some blk => f c blk p

/-- The lanes of an access whose place is a peer's. -/
def peersOf (l : List (Nat × At)) : List (Nat × Nat) :=
  l.filterMap fun x => match x.2 with | .peer va => some (x.1, va) | _ => none

/-! ### LD (R449 to R451) -/

/-- The tag that a capability transfer loads (R450). -/
def State.loadTag (s : State) (core : Nat) (blk : Block) (w : Wave) : At → Bool
  | .spad off => blk.spadTags.contains (off / 16)
  | .home _ leaf _ =>
    leaf.tagged && s.viewTag core leaf.sa && (upFrom 0 16).all fun j => (w.buffered (.home (leaf.sa + j))).isNone
  | .peer _ => false

/-- Tags that a capability transfer delivers. -/
def tagsFor (a : Opnd) (l : List (Nat × Bool)) : List (Nat × Nat × Bool) :=
  match a with
  | .lane n => l.map fun x => (x.1, n.toNat / 4, x.2)
  | _ => []

/-- What a load reads here, and what it asks of other owners. -/
structure LoadParts where
  writes : List RegWrite
  tagged : List (Nat × Nat × Bool)
  reqs : List LaneReq

/-- A load in its lanes (R449, R524): what is here is read, region buffer bytes first (R241); a peer's word that no copy serves is
asked of its owner. -/
def State.loadParts (s : State) (core : Nat) (blk : Block) (w : Wave) (p : LaneSet) (dst : Opnd) (size : LdSize)
    (xfer fresh : Bool) (l : List (Nat × At)) : LoadParts :=
  let z := ldBytes size
  let got := l.map fun x => (x.1, s.loadAt core blk w z (!fresh) x.2)
  let out := laneSet ((got.filter fun x => x.2.isNone).map (·.1))
  let val (i : Nat) : Quad := ldValue size (ofBytes (((got.find? fun x => x.1 == i).bind (·.2)).getD []))
  { writes := (writesOf dst (ldRegs size) p val).filter fun w => !out.getLsbD w.lane
    tagged := if xfer then tagsFor dst (l.map fun x => (x.1, s.loadTag core blk w x.2)) else []
    reqs := ((peersOf l).filter fun x => out.getLsbD x.1).map fun x =>
      { lane := x.1, op := .load, va := x.2, size := z, data := [], above := (upFrom 0 z).map fun j => w.buffered (.peer (x.2 + j)) } }

/-- The lanes of some requests. -/
def reqLanes (l : List LaneReq) : LaneSet := laneSet (l.map (·.lane))

/-- Performs a load whose checks have passed; with peer lanes its result is pending until their owners have answered. -/
def State.performLd (s : State) (c : Cur) (k : Ctl) (blk : Block) (p : LaneSet) (size : LdSize) (acq : Option Scope)
    (xfer : Bool) (a b c' : Opnd) (l : List (Nat × At)) : State :=
  let x := s.loadParts c.core blk c.wave p a size xfer (decide (k.hint = 4) || acq == some .sys) l
  let flags := s.paramFlags c p 1 [c']
  if x.reqs.isEmpty then (s.acquire acq).complete c k b c' .zero { writes := x.writes, tagged := x.tagged, flags }
  else
    (s.openPend c k b c' .zero { Pending.fresh p (reqLanes x.reqs) a size with
      writes := x.writes, tagged := x.tagged, flags, acq, reqs := x.reqs }).sendReqs c.bid c.wid c.ctx c.wave.pendNext x.reqs

/-- A long-latency access whose home cannot be reached issues, and is performed once it can (R181, R200); the first instruction of a
pair waits at its slot (R51). -/
def State.waitHome (s : State) (c : Cur) (k : Ctl) (b c' d : Opnd) (p : LaneSet) (x : Pending) : State :=
  if pairFollows c.bid c.wid s.agenda then s.waitAgain c p .home else s.openPend c k b c' d x

/-- LD (R449): the checks of R451 in order over all participating lanes, then the loads. -/
def execLd (k : Ctl) (size : LdSize) (acq : Option Scope) (cap xfer : Bool) (a b c' : Opnd) (s : State) :
    Host.Outcome State Fault Refusal :=
  onBlk s k c' fun c blk p =>
    let z := ldBytes size
    match s.checkAccess c blk p cap capRead b c' z with
    | .error (kind, detail) => s.raise c kind detail
    | .ok t =>
      match s.locateAll c.ctx .read t with
      | .held l => s.faultPend c k b c' .zero 0 l { Pending.fresh p 0 a size with
          flags := s.paramFlags c p 1 [c'], acq
          again := some (.load acq xfer (decide (k.hint = 4) || acq == some .sys) t) }
      | .ok l =>
        if l.any fun x => s.readWaits c.core c.wave z x.2 then s.waitHome c k b c' .zero p { Pending.fresh p 0 a size with
          flags := s.paramFlags c p 1 [c'], acq
          again := some (.load acq xfer (decide (k.hint = 4) || acq == some .sys) t) }
        else if l.any fun x => s.readsPoison c.core c.wave z x.2 then s.raise c 0x0D 0
        else s.performLd c k blk p size acq xfer a b c' l

/-! ### ST (R506, R507) -/

/-- Bytes that a store writes. -/
def stBytes : StSize → Nat
  | .n8 => 1 | .n16 => 2 | .n32 => 4 | .n64 => 8 | .quad => 16

/-- The data of a store in a lane; a constant fills a quad (R506). -/
def State.stData (s : State) (c : Cur) (size : StSize) (d : Opnd) (i : Nat) : List Byte :=
  match size with
  | .quad => match d with
    | .ones => copies 0xFF 16
    | .lane _ | .uni _ => bytesOf 16 (c.quad d i).toNat
    | o => bytesOf 16 (s.rd64 c o i).toNat
  | .n64 => bytesOf 8 (s.rd64 c d i).toNat
  | z => bytesOf (stBytes z) (s.rd32 c d i).toNat

/-- The line that a store would take in the region store buffer; a lane whose translation fails counts by its address
(R242). -/
def State.bufferLine (s : State) (ctx : Nat) (t : Steer) : Option (Bool × Nat) :=
  match s.atOf ctx .write t, t with
  | .ok (.home _ l _), _ => some (Loc.home l.sa).line
  | .ok (.peer va), _ => some (Loc.peer va).line
  | .error (va, _), _ => some (true, va / 128)
  | _, _ => none

/-- Whether the stores would need a ninth line (R242). -/
def State.overflows (s : State) (c : Cur) (t : List (Nat × Steer)) : Bool :=
  c.wave.inRegion &&
  decide (8 < (distinctLines (c.wave.region.lines ++ t.filterMap fun x => s.bufferLine c.ctx x.2)).length)

/-- A scratchpad store of a lane (R210, R212): a transfer keeps its tag (R225). -/
def State.storeSpad (s : State) (b off : Nat) (data : List Byte) (tag : Bool) : State :=
  s.onBlock b fun blk =>
    let x := blk.putSpad off data
    if tag then { x with spadTags := sins x.spadTags (off / 16) } else x

/-- Whether a transfer keeps its tag on a page (R225). -/
def keepsTag (c : Cur) (d : Opnd) (i : Nat) (leaf : Leaf) : Bool := c.tag d i && leaf.tagged && capGlobal (c.quad d i)

/-- Where a store with a hint allocates; hints on the stack are ignored (R114). -/
def allocOf (hint : BitVec 3) : At → Alloc
  | .home _ _ false => match hint.toNat with | 3 => .die | 4 => .home | 5 => .l1Only | _ => .l1
  | _ => .l1

/-- One store of a lane: performed, or buffered in an open region (R241). -/
def State.storeLane (s : State) (c : Cur) (blk : Block) (rel : Option Scope) (xfer : Bool) (d : Opnd) (i : Nat) (a : At)
    (data : List Byte) (hint : BitVec 3 := 0) : State :=
  let buffer (va : Nat) (loc : Loc) (tag : Bool) : State :=
    s.onWave c.bid c.wid fun w => { w with region := { w.region with
      stores := w.region.stores ++ [{ lane := i, va, loc, data, tag := some tag, rel, isFence := false, alloc := allocOf hint a }] } }
  match a with
  | .spad off => s.storeSpad c.bid off data (xfer && c.tag d i)
  | .home va leaf _ =>
    let tag := xfer && keepsTag c d i leaf
    if c.wave.inRegion then buffer va (.home leaf.sa) tag else s.storeAt c.bid c.wid i blk va (.home leaf.sa) data tag (allocOf hint a)
  | .peer va =>
    if c.wave.inRegion then buffer va (.peer va) false else s.storeAt c.bid c.wid i blk va (.peer va) data false

/-- A later lane of the same store writes the same peer bytes: this lane's are never seen (R506). -/
def overwritten (l : List (Nat × At)) (i : Nat) : At → Bool
  | .peer va => l.any fun x => decide (i < x.1) && (match x.2 with | .peer v => v == va | _ => false)
  | _ => false

/-- A place outside the scratchpad. -/
def At.outside : At → Bool
  | .spad _ => false
  | _ => true

/-- ST (R506): the checks of R507 in order, then the stores, ascending, so that the highest lane's bytes remain. -/
def execSt (k : Ctl) (size : StSize) (rel : Option Scope) (cap xfer : Bool) (b c' d : Opnd) (s : State) :
    Host.Outcome State Fault Refusal :=
  onBlk s k c' fun c blk p =>
    match s.checkAccess c blk p cap capWrite b c' (stBytes size) with
    | .error (kind, detail) => s.raise c kind detail
    | .ok t =>
      if s.overflows c t then s.raise c 0x08 0
      else match s.locateAll c.ctx .write t with
        | .held l => s.faultLanes c 1 l
        | .ok l =>
          let now := !c.wave.inRegion || l.any fun x => !x.2.outside
          s.releaseOpt c p (if now then rel else none) fun s =>
            let s1 := l.foldl (fun s x =>
              if overwritten l x.1 x.2 then s else s.storeLane c blk rel xfer d x.1 x.2 (s.stData c size d x.1) k.hint) s
            let s2 := match rel with
              | some sc => if now ∧ p ≠ 0 then s1.logRelease c.core blk.tagPair sc else s1
              | none => s1
            s2.complete (s2.recur c) k b c' d {}

/-! ### LDP (R453) -/

/-- Where a lane of LDP reads its window: nowhere when it is out of bounds (R226); else steered through the apertures (R204). -/
def State.ldpPlace (s : State) (c : Cur) (blk : Block) (win off z i : Nat) : Option Steer :=
  let w := windowOf c.params win
  if w.fits off z then some (s.steer blk c.wid i (w.base + off : Nat) z) else none

/-- What a lane of LDP reads on its stack: a global access (R207), but one that never faults on translation; it is zero where
nothing is mapped (R227). -/
def State.ldpStack (s : State) (c : Cur) (blk : Block) (va z : Nat) : Dword :=
  match s.atOf c.ctx .read (.stack va true) with
  | .ok a => BitVec.ofNat 64 (ofBytes ((s.loadAt c.core blk c.wave z true a).getD []))
  | .error _ => 0

/-- What a lane of LDP reads at an offset: the window, or what an aperture puts in its place; none out of bounds. -/
def State.ldpRead (s : State) (c : Cur) (blk : Block) (win off z i : Nat) : Option Dword :=
  match s.ldpPlace c blk win off z i with
  | none => none
  | some (.spad o _) => some (BitVec.ofNat 64 (ofBytes (blk.spadBytes o z)))
  | some (.stack va _) => some (s.ldpStack c blk va z)
  | some (.global _) => s.readWindow c.ctx c.params win off z

/-- The words that a lane of LDP reads of its window, or of a stack in another package. -/
def State.ldpWords (s : State) (c : Cur) (blk : Block) (win off z i : Nat) : List Nat :=
  match s.ldpPlace c blk win off z i with
  | some (.stack va _) => if s.isLocal va then [] else (upFrom 0 (z / 4)).map fun j => va + 4 * j
  | some (.global _) => windowWords c.params win off z
  | _ => []

/-- A lane of LDP reads a poisoned line of its stack (R221). -/
def State.ldpPoison (s : State) (c : Cur) (blk : Block) (win off z i : Nat) : Bool :=
  match s.ldpPlace c blk win off z i with
  | some (.stack va _) =>
    match s.atOf c.ctx .read (.stack va true) with
    | .ok a => s.readsPoison c.core c.wave z a
    | .error _ => false
  | _ => false

/-- LDP (R453): alignment before bounds; then the bounds of the apertures (R206, R207). -/
def execLdp (k : Ctl) (w64 : Bool) (win : BitVec 3) (a b : Opnd) (s : State) : Host.Outcome State Fault Refusal :=
  onBlk s k .zero fun c blk p =>
    let z := 4 * regs64 w64
    let off (i : Nat) : Nat := (s.rd32 c b i).toNat
    let bad := (lanesOf p).any fun i => (s.ldpPlace c blk win.toNat (off i) z i).isNone
    if (lanesOf p).any fun i => off i % z != 0 then s.raise c 0x07 0
    else if bad && c.trapOnParam then s.raise c 0x0A win.toNat
    else if (lanesOf p).any fun i => (s.ldpPlace c blk win.toNat (off i) z i).any fun t => !t.inside then s.raise c 0x06 1
    else if (lanesOf p).any fun i => s.ldpPoison c blk win.toNat (off i) z i then s.raise c 0x0D 0
    else match s.wordStop c ((lanesOf p).flatMap fun i => s.ldpWords c blk win.toNat (off i) z i) with
      | some x => s.paramStop c p x
      | none => s.complete c k b .zero .zero
          { writes := writesOf a (regs64 w64) p fun i => q64 ((s.ldpRead c blk win.toNat (off i) z i).getD 0)
            flags := flagIf bad fParamBound }

/-! ### LDCHAIN (R357 to R360, R452) -/

/-- The pointer and descriptor of a lane, and where its first read goes. -/
def State.chainLane (s : State) (c : Cur) (blk : Block) (cap : Bool) (b c' d : Opnd) (i : Nat) : ChainLane :=
  let off := (s.rd32 c d i).toNat
  let desc := lineOfBytes (blk.spadBytes off 64)
  let p := s.addr c cap b c' i
  let a := (p + (chOff desc 0).toInt) / 8 * 8
  { lane := i, off, desc, p, first := s.steer blk c.wid i a 8 }

/-- The first failing check of LDCHAIN over its lanes, in the order of R359. -/
def chainCheck (c : Cur) (blk : Block) (cap : Bool) (a b : Opnd) (l : List ChainLane) :
    Option (Nat × Nat) :=
  let capBad := if cap then l.filterMap fun x =>
      capCheck (c.quad b x.lane) (c.tag b x.lane) capChain ((x.p + (chOff x.desc 0).toInt) / 8 * 8) 8 else []
  let dstBad (x : ChainLane) : Bool := match a with
    | .lane n => let r := chFinal x.desc / 4; n.toNat % r != 0 || decide (blk.regs < n.toNat + r)
    | _ => false
  if l.any fun x => x.off % 64 != 0 then some (0x07, 0)
  else if l.any fun x => decide (blk.spadSize < x.off + 64) then some (0x06, 1)
  else if l.any fun x => chBad x.desc then some (0x02, 3)
  else if l.any fun x => x.p % 2 ^ 57 != 0 && !x.first.inside then some (0x06, 1)
  else match capBad.min? with
    | some d => some (0x06, d)
    | none => if l.any dstBad then some (0x02, 0) else none

/-- Local first reads whose translation fails: they hold the whole instruction (R524), unless .nf ends their chains. -/
def State.chainFaults (s : State) (ctx : Nat) (nf : Bool) (l : List ChainLane) : List (Nat × Nat × XFault) :=
  if nf then []
  else l.filterMap fun x =>
    if x.p % (2 ^ 57 : Int) = 0 then none
    else match s.atOf ctx .read x.first with
      | .error (va, e) => some (x.lane, va, e)
      | .ok _ => none

/-- Starts the chains of an instruction (R452, R359). -/
def State.startChains (s : State) (b i id : Nat) (nf : Bool) (l : List ChainLane) : State :=
  let ts := l.map fun x =>
    { id := replyTag b i id x.lane, attempt := 0, timeouts := 0, blk := b, wave := i, lane := x.lane, pend := id, nf
      desc := x.desc, start := BitVec.ofInt 64 x.p, deadline := 0, result := none : Tracker }
  let core := s.core (coreOf b)
  ts.foldl State.chainStart (s.setCore (coreOf b) { core with trackers := core.trackers ++ ts })

/-- A core has trackers for a number of lanes (R359). -/
def State.trackersFor (s : State) (core n : Nat) : Bool := decide ((s.core core).trackers.length + n ≤ 512)

/-- LDCHAIN (R452): one chain per participating lane; all results are written when the last has ended (R522). -/
def execLdchain (k : Ctl) (nf cap : Bool) (a b c' d : Opnd) (s : State) : Host.Outcome State Fault Refusal :=
  onBlk s k .zero fun c blk p =>
    let l := (lanesOf p).map (s.chainLane c blk cap b c' d)
    match chainCheck c blk cap a b l with
    | some (kind, detail) => s.raise c kind detail
    | none =>
      let x : Pending := { Pending.fresh p p a .n64 with isChain := true }
      if (s.chainFaults c.ctx nf l).isEmpty then
        if p = 0 then s.complete c k b c' d {}
        else if s.trackersFor c.core l.length then
          (s.openPend c k b c' d x).startChains c.bid c.wid c.wave.pendNext nf l
        else s.waitAgain c p .reply
      else s.faultPend c k b c' d 4 (s.chainFaults c.ctx nf l) { x with waiting := 0, again := some (.chain nf l) }

/-! ### PRF (R482) -/

/-- The peer line that a prefetch of a lane fills, if any: a failed check has no effect, and local lines hold no copy that a
read could tell. -/
def State.prefetchLine (s : State) (c : Cur) (blk : Block) (cap : Bool) (b c' : Opnd) (i : Nat) : Option Nat :=
  let a := s.addr c cap b c' i
  let capOk := !cap || (capCheck (c.quad b i) (c.tag b i) capRead a 1).isNone
  match s.steer blk c.wid i a 1 with
  | .spad _ _ => none
  | .stack va inside => if capOk && inside && !s.isLocal va then some (va / 128 * 128) else none
  | .global va => if capOk && !s.isLocal va then some (va / 128 * 128) else none

/-- PRF (R482): a peer line is asked for, except under .hh; nothing else changes. -/
def execPrf (k : Ctl) (cap : Bool) (b c' : Opnd) (s : State) : Host.Outcome State Fault Refusal :=
  onBlk s k c' fun c blk p =>
    let lines := if k.hint = 4 then [] else distinct ((lanesOf p).filterMap (s.prefetchLine c blk cap b c'))
    let s1 := lines.foldl (fun s a => s.askFill c.ctx a) s
    s1.complete c k b c' .zero { flags := s.paramFlags c p 1 [c'] }

/-! ### WAITA (R511) -/

/-- A test of WAITA and WAITV: .ge and .lt unsigned (R325, R511). -/
def waitTest (cmp : WCmp) (x y : Dword) : Bool :=
  match cmp with
  | .eq => x == y
  | .ne => x != y
  | .ge => decide (y.toNat ≤ x.toNat)
  | .lt => decide (x.toNat < y.toNat)
  | .mask => x &&& y != 0

/-- Clocks after which a waiting lane reads its word again (R511: at most 2 µs). -/
def rereadClocks : Nat := 2500

/-- Asks the owner for the word of a waiting lane (R511). -/
def State.askWord (s : State) (ctx b i lane va z : Nat) : State :=
  s.request ctx clsDemand .load va z [] (replyTag b i (2 ^ 31) lane)

/-- WAITA (R511): lanes that pass go on; the others wait. A peer's word is always read at its owner, but for bytes that the
region store buffer holds (R241). -/
def execWaita (k : Ctl) (cmp : WCmp) (w64 : Bool) (acq : Option Scope) (cap : Bool) (b c' d : Opnd) (s : State) :
    Host.Outcome State Fault Refusal :=
  onBlk s k c' fun c blk p =>
    let z := 4 * regs64 w64
    match s.checkAccess c blk p cap capRead b c' z with
    | .error (kind, detail) => s.raise c kind detail
    | .ok t =>
      match s.locateAll c.ctx .read t with
      | .held l => s.faultLanes c 0 l
      | .ok l =>
        if l.any fun x => s.readWaits c.core c.wave z x.2 then s.waitAgain c p .home
        else if l.any fun x => s.readsPoison c.core c.wave z x.2 then s.raise c 0x0D 0
        else
          let y (i : Nat) : Dword := s.rd c .int (regs64 w64) d i
          let passed := laneSet ((l.filter fun x => match s.loadAt c.core blk c.wave z false x.2 with
            | some bs => waitTest cmp (BitVec.ofNat 64 (ofBytes bs)) (y x.1)
            | none => false).map (·.1))
          let s1 := if passed = 0 then s else s.acquire acq
          let w := (c.wave.issued c k b c' d).advance (c.active &&& ~~~(p &&& ~~~passed))
          let s2 := s1.putCur c (w.mapLanes fun i x =>
            if (p &&& ~~~passed).getLsbD i then
              { x with
                paid := true
                st := .blocked (.waita { cmp, w64, acq, ea := BitVec.ofInt 64 (s.addr c cap b c' i), comparand := y i }) }
            else x)
          ((peersOf l).filter fun x => (s.loadAt c.core blk c.wave z false (.peer x.2)).isNone).foldl
            (fun s x => s.askWord c.ctx c.bid c.wid x.1 x.2 z) s2

/-! ### CCTL (R412) -/

/-- The cores of a lane's instance of a scope (R253, R255). -/
def State.inInstance (s : State) (core : Nat) (sc : Scope) (x : Nat) : Bool :=
  match sc with
  | .blk => x == core
  | .clu => if s.isFelted core then clusterOf x == clusterOf core else dieOf x == dieOf core
  | .die => dieOf x == dieOf core
  | _ => true

/-- Writes the L1 copies of a line that satisfy a test back to their dies' caches. -/
def State.cleanL1 (s : State) (line : Nat) (p : DirtyByte → Bool) : State :=
  (distinct ((s.dirty.filter fun d => lineOf d.sa == line && d.lvl == 0 && p d).map (·.slice))).foldl State.toDie s

/-- Writes the dirty copies of a line below the level that serves a scope, within the lane's instance, to that level. -/
def State.cleanLine (s : State) (core : Nat) (sc : Scope) (line : Nat) : State :=
  let near : State := s.cleanL1 line fun d => dieOf d.core == dieOf core
  match sc with
  | .blk => s
  | .clu => if s.isFelted core then s else near
  | .die => near
  | _ =>
    let s1 := s.cleanL1 line fun _ => true
    (distinct ((s1.dirty.filter fun d => lineOf d.sa == line).map (·.core))).foldl State.toHome s1

/-- Drops both fetch lines of a line in the cores of the instance (R412). -/
def State.dropFetch (s : State) (core : Nat) (sc : Scope) (line : Nat) : State :=
  let drop (x : Core) : Core := { x with icache := x.icache.filter fun y => y.1 / 2 != line }
  let cores := s.cores.map fun p => (p.1, if s.inInstance core sc p.1 then drop p.2 else p.2)
  { s with cores := cores.filter fun p => p.2 ≠ Core.reset }

/-- CCTL in one lane. -/
def State.cctlLane (s : State) (c : Cur) (blk : Block) (op : CctlOp) (sc : Scope) (b c' : Opnd) (i : Nat) : State :=
  match s.steer blk c.wid i (s.addr c false b c' i) 1 with
  | .spad _ _ => s
  | t =>
    match s.atOf c.ctx .read t with
    | .ok (.home _ leaf _) =>
      let s1 := s.cleanLine c.core sc (lineOf leaf.sa)
      if op = .ii then s1.dropFetch c.core sc (lineOf leaf.sa) else s1
    | .ok (.peer va) =>
      if op = .wbi then { s with peerCopies := s.peerCopies.filter fun x => x.1 != peerLine va }
      else if op = .ii then s.dropFetch c.core sc (peerFetchKey va / 128)
      else s
    | _ => s

/-- CCTL (R412). -/
def execCctl (k : Ctl) (op : CctlOp) (scope : Scope) (b c' : Opnd) (s : State) : Host.Outcome State Fault Refusal :=
  onBlk s k .zero fun c blk p =>
    ((lanesOf p).foldl (fun s i => s.cctlLane c blk op scope b c' i) s).complete c k b c' .zero {}

/-! ### RGN, RGNC (R240, R493) -/

/-- RGN (R493): checks the slot after itself, commits, opens. A clear target bit traps with no effect (R93, R96); a line that
cannot be read now is checked when its first slot is fetched (log 54). In a trap handler the region of the wave stays
suspended (log 17). -/
def execRgn (k : Ctl) (s : State) : Host.Outcome State Fault Refusal :=
  onCur s fun c =>
    if c.wave.trapMode then s.complete c k .zero .zero .zero {}
    else
      let after := succPc c.pc
      match s.entryBad c after with
      | some slot => s.raise c 0x05 slot
      | none =>
        s.closing c fun s c =>
          let w := (c.wave.issued c k .zero .zero .zero).advance c.active
          let w1 := w.mapLanes fun i l =>
            if c.active.getLsbD i then { l with restart := some after, check := s.entryUnread c after }
            else { l with restart := none }
          s.putCur c { w1 with region := { isOpen := true, stores := [] } }

/-- RGNC (R493): the commit itself. It does not wait for the committed stores: those behind a release at .sys are performed in
their turn, and the wave's later accesses after them. -/
def execRgnc (k : Ctl) (s : State) : Host.Outcome State Fault Refusal :=
  onCur s fun c =>
    let s1 := if c.wave.inRegion then s.commitRegion c.bid c.wid else s
    s1.complete (s1.recur c) k .zero .zero .zero {}

/-! ### ATOM, RED (R399, R400, R489, R490) -/

/-- What ATOM and RED share: the checks, the commit of an open region for global and stack addresses, translation, poison,
and the release (R244, R399). hold takes the lanes' places and the failures where a translation fails, away the places where a
home cannot be reached. -/
def atomStart (s : State) (k : Ctl) (z : Nat) (scope : Scope) (rel cap : Bool) (b c' : Opnd)
    (hold : State → Cur → LaneSet → List (Nat × Steer) → List (Nat × Nat × XFault) → State)
    (away : State → Cur → LaneSet → List (Nat × Steer) → State)
    (go : State → Cur → Block → LaneSet → List (Nat × Steer) → List (Nat × At) → State) : Host.Outcome State Fault Refusal :=
  onBlk s k .zero fun c blk p =>
    match s.checkAccess c blk p cap capAtomic b c' z with
    | .error (kind, detail) => s.raise c kind detail
    | .ok t =>
      let global := t.any fun x => match x.2 with | .spad _ _ => false | _ => true
      let next (s : State) (c : Cur) : State :=
        match s.locateAll c.ctx .atomic t with
        | .held l => hold s c p t l
        | .ok l =>
          if l.any fun x => s.atomWaits x.2 then away s c p t
          else if l.any fun x => s.readsPoison c.core c.wave z x.2 then s.raise c 0x0D 0
          else s.releaseOpt c p (if rel then some scope else none) fun s => go s c blk p t l
      if global then s.closing c next else next s c

/-- The local read-modify-writes, ascending: the old values and the state after them (R400). -/
def State.rmwAll (s : State) (b i : Nat) (sc : Scope) (z : Nat) (f : Nat → Nat → Option Nat) :
    List (Nat × At) → State × List (Nat × Nat)
  | [] => (s, [])
  | (_, .peer _) :: t => s.rmwAll b i sc z f t
  | (j, a) :: t =>
    let (s1, old) := s.rmwAt b i j sc z a (f j)
    let (s2, l) := s1.rmwAll b i sc z f t
    (s2, (j, old) :: l)

/-- A narrow release that has a releasing write is logged (R275). -/
def State.logIf (s : State) (core : Nat) (blk : Block) (rel : Bool) (sc : Scope) : State :=
  if rel then s.logRelease core blk.tagPair sc else s

/-- The lanes of an ATOM as they are captured at issue. -/
def State.atomLanes (s : State) (c : Cur) (w64 : Bool) (d e : Opnd) (t : List (Nat × Steer)) : List AtomLane :=
  t.map fun y => { lane := y.1, place := y.2, x := (s.rd c .int (regs64 w64) d y.1).toNat, cmp := (s.rd c .int (regs64 w64) e y.1).toNat }

/-- The operands of a lane of an ATOM. -/
def atomOf (l : List AtomLane) (i : Nat) : AtomLane := (l.find? fun y => y.lane == i).getD ⟨i, .global 0, 0, 0⟩

/-- The requests of an ATOM to other owners. -/
def atomReqs (op : AOp) (w64 signed : Bool) (m : List AtomLane) (l : List (Nat × At)) : List LaneReq :=
  (peersOf l).map fun y =>
    let o := atomOf m y.1
    { lane := y.1, op := .atom op signed (BitVec.ofNat 64 o.cmp), va := y.2, size := 4 * regs64 w64
      data := bytesOf (4 * regs64 w64) o.x, above := [] }

/-- What an ATOM does in its lanes here (R399): the state, and the old values as register contents. A release none of whose lanes
has written has no releasing write (R400). -/
def State.atomHere (s : State) (b i core : Nat) (blk : Block) (op : AOp) (w64 signed : Bool) (scope : Scope) (order : Order)
    (m : List AtomLane) (l : List (Nat × At)) : State × (Nat → Quad) :=
  let z := 4 * regs64 w64
  let (s1, olds) := s.rmwAll b i scope z (fun j old => atomNew op signed z old (atomOf m j).x (atomOf m j).cmp) l
  let wrote := olds.any fun y => (atomNew op signed z y.2 (atomOf m y.1).x (atomOf m y.1).cmp).isSome
  (s1.logIf core blk (order == .rel && wrote) scope,
    fun j => BitVec.ofNat 128 (((olds.find? fun y => y.1 == j).map (·.2)).getD 0))

/-- The acquire of an ATOM. -/
def acqOf (order : Order) (scope : Scope) : Option Scope := if order = .acq then some scope else none

/-- ATOM (R399). With peer lanes the lanes here are performed once the owners have answered: a poisoned answer leaves them
undone (R15). -/
def execAtom (k : Ctl) (op : AOp) (w64 signed : Bool) (scope : Scope) (order : Order) (cap : Bool) (a b c' d e : Opnd)
    (s : State) : Host.Outcome State Fault Refusal :=
  let size : LdSize := if w64 then .n64 else .n32
  let acq := acqOf order scope
  let later (s : State) (c : Cur) (p : LaneSet) (t : List (Nat × Steer)) : Pending :=
    { Pending.fresh p 0 a size with acq, again := some (.atom op w64 signed scope order (s.atomLanes c w64 d e t)) }
  atomStart s k (4 * regs64 w64) scope (order == .rel) cap b c'
    (fun s c p t l => s.faultPend c k b c' d 2 l (later s c p t)) (fun s c p t => s.waitHome c k b c' d p (later s c p t))
    fun s c blk p t l =>
      let m := s.atomLanes c w64 d e t
      let reqs := atomReqs op w64 signed m l
      if reqs.isEmpty then
        let (s1, old) := s.atomHere c.bid c.wid c.core blk op w64 signed scope order m l
        let s2 := s1.acquire acq
        s2.complete (s2.recur c) k b c' d { writes := writesOf a (regs64 w64) p old }
      else
        let here := m.filter fun y => !(reqLanes reqs).getLsbD y.lane
        let s1 := reqs.foldl (fun s y => s.beforeWrite c.bid c.wid y.lane blk) (s.toHome c.core)
        let s2 := s1.logIf c.core blk (order == .rel) scope
        (s2.openPend (s2.recur c) k b c' d { Pending.fresh p (reqLanes reqs) a size with
          acq, reqs, again := if here.isEmpty then none else some (.atom op w64 signed scope order here) }).sendReqs
            c.bid c.wid c.ctx c.wave.pendNext reqs

/-- RED (R489): a peer's is posted. -/
def execRed (k : Ctl) (op : ROp) (w64 signed : Bool) (scope : Scope) (rel cap : Bool) (b c' d : Opnd) (s : State) :
    Host.Outcome State Fault Refusal :=
  let z := 4 * regs64 w64
  atomStart s k z scope rel cap b c' (fun s c _ _ l => s.faultLanes c 2 l) (fun s c p _ => s.waitAgain c p .home)
    fun s c blk _ _ l =>
    let x (i : Nat) : Nat := (s.rd c .int (regs64 w64) d i).toNat
    let (s1, _) := s.rmwAll c.bid c.wid scope z (fun i old => atomNew (redAtom op) signed z old (x i) 0) l
    let s2 := (peersOf l).foldl (fun s y =>
      ((s.beforeWrite c.bid c.wid y.1 blk).toHome c.core).post c.core c.bid c.wid y.1 c.ctx (.red op signed) y.2 (bytesOf z (x y.1))) s1
    let s3 := s2.logIf c.core blk (rel && !l.isEmpty) scope
    s3.complete (s3.recur c) k b c' d {}

end Sys2Proof.Machine
end

