-- ==== Sys2Proof/Machine/Held.lean ====
section
/-! DEFINITION. Long-latency instructions that have issued and are still to be performed: held by a translation fault and performed
when it is released, or waiting for their peer lanes (spec/11_regions.md R236, R239, R250, R252, R524). -/

namespace Sys2Proof.Machine

/-- An instruction that is performed again faults again (R239). -/
def State.holdAgain (s : State) (b i id : Nat) (blk : Block) (lanes : LaneSet) (access : Nat) (l : List (Nat × Nat × XFault)) : State :=
  let gs := firstPerGranule l
  (s.enterAll b i blk.ctx access gs).onWave b i fun w =>
    { w with held := w.held ++ gs.map fun g =>
        { lanes, ctx := blk.ctx, granule := granuleOf g.1, remote := false, abortWait := false, pend := some id } }

/-- The result of what has been performed here joins the instruction; peer lanes are sent to their owners. -/
def State.performed (s : State) (b i id : Nat) (ctx : Nat) (writes : List RegWrite) (tagged : List (Nat × Nat × Bool))
    (reqs : List LaneReq) (again : Option Again) : State :=
  let s1 := s.onWave b i fun w => w.onPend id fun p => { p with
    writes := p.writes ++ writes, tagged := p.tagged ++ tagged, reqs := p.reqs ++ reqs
    waiting := p.waiting ||| reqLanes reqs, again }
  (s1.sendReqs b i ctx id reqs).finishPend b i id

/-- Performs a held load, as a whole (R239). -/
def State.againLoad (s : State) (b i : Nat) (blk : Block) (w : Wave) (p : Pending) (g : Landing) (xfer fresh : Bool)
    (t : List (Nat × Steer)) : State :=
  match s.locateAll blk.ctx .read t with
  | .held l => s.holdAgain b i p.id blk p.lanes 0 l
  | .ok l =>
    if l.any fun x => s.readWaits (coreOf b) w (ldBytes g.size) x.2 then s
    else if l.any fun x => s.readsPoison (coreOf b) w (ldBytes g.size) x.2 then s.poisonReply b i p.id
    else
      let x := s.loadParts (coreOf b) blk w p.lanes g.dst g.size xfer fresh l
      s.performed b i p.id blk.ctx x.writes x.tagged x.reqs none

/-- Performs what is left of an ATOM: peer lanes go first, the lanes here once every owner has answered (R239, R524, R15). It
waits where its release waits. -/
def State.againAtom (s : State) (b i : Nat) (blk : Block) (w : Wave) (p : Pending) (g : Landing) (op : AOp) (w64 signed : Bool)
    (scope : Scope) (order : Order) (m : List AtomLane) : State :=
  match s.locateAll blk.ctx .atomic (m.map fun y => (y.lane, y.place)) with
  | .held l => s.holdAgain b i p.id blk p.lanes 2 l
  | .ok l =>
    if l.any fun x => s.atomWaits x.2 then s
    else if l.any fun x => s.readsPoison (coreOf b) w (4 * regs64 w64) x.2 then s.poisonReply b i p.id
    else
      let s0 := if order = .rel then s.writeBackAt (coreOf b) scope else s
      if order = .rel ∧ s0.mustWait b scope p.waitsTo then
        s0.onWave b i fun w => w.onPend p.id fun p => { p with waitsTo := some (p.waitsTo.getD s0.postedNext) }
      else
        let reqs := atomReqs op w64 signed m l
        if reqs.isEmpty then
          let (s1, old) := s0.atomHere b i (coreOf b) blk op w64 signed scope order m l
          let here := laneSet (m.map (·.lane))
          s1.performed b i p.id blk.ctx ((writesOf g.dst (regs64 w64) p.lanes old).filter fun x => here.getLsbD x.lane) [] [] none
        else
          let here := m.filter fun y => !(reqLanes reqs).getLsbD y.lane
          let s1 := reqs.foldl (fun s y => s.beforeWrite b i y.lane blk) (s0.toHome (coreOf b))
          (s1.logIf (coreOf b) blk (order == .rel) scope).performed b i p.id blk.ctx [] [] reqs
            (if here.isEmpty then none else some (.atom op w64 signed scope order here))

/-- Starts the chains of a held LDCHAIN, once the core has trackers for them (R252, R359). -/
def State.againChain (s : State) (b i : Nat) (blk : Block) (p : Pending) (nf : Bool) (l : List ChainLane) : State :=
  let f := s.chainFaults blk.ctx nf l
  if !f.isEmpty then s.holdAgain b i p.id blk p.lanes 4 f
  else if s.trackersFor (coreOf b) l.length then
    (s.onWave b i fun w => w.onPend p.id fun p => { p with again := none, waiting := p.lanes }).startChains b i p.id nf l
  else s

/-- What an instruction has still to perform here can be performed: nothing holds it, and its peer lanes have been answered. -/
def Wave.canPerform (w : Wave) (p : Pending) : Bool :=
  p.again.isSome && p.waiting == 0 && !w.held.any fun h => h.pend == some p.id

/-- What an instruction has still to perform here is performed, if nothing holds it and its peer lanes have been answered. -/
def State.performAgain (s : State) (b i id : Nat) : State :=
  match s.block? b with
  | none => s
  | some blk =>
    match blk.wave? i with
    | none => s
    | some w =>
      match w.pending? id with
      | none => s
      | some p =>
        if !w.canPerform p then s
        else match p.again, p.landing with
          | some (.load _ xfer fresh t), some g => s.againLoad b i blk w p g xfer fresh t
          | some (.atom op w64 signed scope order m), some g => s.againAtom b i blk w p g op w64 signed scope order m
          | some (.chain nf l), _ => s.againChain b i blk p nf l
          | _, _ => s

/-- Every instruction of a wave that can be performed now is; the block may be done with it (R48). -/
def State.performAll (s : State) (b i : Nat) : State :=
  match s.wave? b i with
  | none => s
  | some w => ((w.pend.filter fun p => p.again.isSome).foldl (fun s p => s.performAgain b i p.id) s).retireIfDone b

/-- The held lanes of an issued instruction are released (R239, R250, R252): its chains start again, its peer lanes ask their
owners again, and what is left here is performed. -/
def State.resumePend (s : State) (b i id : Nat) (h : Held) : State :=
  match s.wave? b i with
  | none => s
  | some w =>
    match w.pending? id with
    | none => s
    | some p =>
      if p.isChain && p.again.isNone then s.chainResume b i id h.lanes
      else if h.remote then
        s.sendReqs b i h.ctx id (p.reqs.filter fun r => h.lanes.getLsbD r.lane && p.waiting.getLsbD r.lane)
      else s.performAgain b i id

/-- Releases the held accesses of a wave that satisfy a test (R236, R239, R250): lanes held at a slot may issue again, and issued
instructions are resumed. -/
def State.releaseHeld (s : State) (b i : Nat) (p : Held → Bool) : State :=
  match s.wave? b i with
  | none => s
  | some w =>
    let s1 := s.setWave b i { w with held := w.held.filter fun h => !p h }
    ((w.held.filter p).foldl (fun s h => match h.pend with
      | none => s
      | some id => s.resumePend b i id h) s1).retireIfDone b

end Sys2Proof.Machine
end

