-- ==== Sys2Proof/Machine/Sync.lean ====
section
/-! DEFINITION. Class 0x7, ordering and synchronisation (spec/12_consistency.md R273 to R282; spec/13_engines.md R290, R292
to R296; spec/09_governor.md R198; spec/19_ref_a_c.md R397, R398, R401, R402; spec/20_ref_e_i.md R432; spec/21_ref_l_m.md
R459, R461; spec/22_ref_n_r.md R484, R485). -/

namespace Sys2Proof.Machine

/-! ### FENCE (R432) -/

/-- FENCE in an open region: an acquire at once, and a release at its place in the buffered order (R243). -/
def Wave.bufferFence (w : Wave) (p : LaneSet) (sc : Scope) : Wave :=
  { w with region := { w.region with
      stores := w.region.stores ++ (lanesOf p).map fun i =>
        { lane := i, va := 0, loc := .home 0, data := [], tag := none, rel := some sc, isFence := true } } }

/-- The lanes' next global write is the release that the promotion log records, at the wider scope of two fences (R275). -/
def Wave.markFenced (w : Wave) (p : LaneSet) (sc : Scope) : Wave :=
  w.mapLanes fun i l =>
    if p.getLsbD i then { l with fenced := some (match l.fenced with | some x => widerScope x sc | none => sc) } else l

/-- The effect of FENCE.S on its participating lanes. -/
def State.fence (s : State) (c : Cur) (k : Ctl) (p : LaneSet) (sc : Scope) : State :=
  if p = 0 then s.complete c k .zero .zero .zero {}
  else if c.wave.inRegion then
    ((s.acquire (some sc)).complete c k .zero .zero .zero {}).onWave c.bid c.wid fun w => w.bufferFence p sc
  else
    s.release c p sc fun s =>
      ((s.acquire (some sc)).complete c k .zero .zero .zero {}).onWave c.bid c.wid fun w => w.markFenced p sc

/-- FENCE (R432). -/
def execFence (k : Ctl) (scope : Scope) (s : State) : Host.Outcome State Fault Refusal :=
  onCur s fun c => s.fence c k (s.parts c k) scope

/-! ### ACQP (R278, R279, R397, R398) -/

/-- A promotion target: a core of this package with tags, or a handle of another package. -/
inductive PromoTarget where
  | core (n : Nat) (tags : List (Nat × Nat))
  | remote (dst : Nat) (handle blk : Word)
  deriving DecidableEq, Repr

/-- The log entries of a saved block with some tags are cleared; the scheduler acknowledges at once (R279). -/
def State.clearSaved (s : State) (launch : Nat) (blk : Option Nat) : State :=
  { s with saved := s.saved.map fun x =>
      if x.blk.launch = launch ∧ (blk.isNone ∨ blk.map (· % 2 ^ 16) = some (x.blk.index % 2 ^ 16)) then { x with log := [] } else x }

/-- A block of a launch is saved by pre-emption. -/
def State.isSaved (s : State) (l idx : Nat) : Bool := s.saved.any fun v => v.blk.launch == l && v.blk.index == idx

/-- The targets of a local handle and block index (R279, R398). -/
def State.localTargets (s : State) (ctx : Nat) (h blk : Word) : List PromoTarget :=
  if bits h.toNat 30 2 ≠ 0 then []
  else match s.resolve ctx h with
    | some (.launch l) =>
      let x := s.launch l
      if !x.alive then []
      else if blk = 0xFFFFFFFF then
        (distinct (x.coreOf.map (·.2))).map fun c => .core c (x.coreOf.map fun y => (l, y.1 % 2 ^ 16))
      else ((x.coreOf.filter fun y => y.1 == blk.toNat && !s.isSaved l y.1).map fun y => .core y.2 [(l, y.1 % 2 ^ 16)])
    | _ => []

/-- The targets of a handle in 64 bits (R398). -/
def State.promoTargets (s : State) (ctx : Nat) (h : Dword) (blk : Word) : List PromoTarget :=
  if h.getLsbD 63 ∧ bits h.toNat 32 12 ≠ s.pkgNo then [.remote (bits h.toNat 32 12) (h.setWidth 32) blk]
  else s.localTargets ctx (h.setWidth 32) blk

/-- Whether a handle's upper bits are malformed (R398). -/
def handleBad (h : Dword) : Bool :=
  if h.getLsbD 63 then bits h.toNat 44 19 != 0 else bits h.toNat 32 31 != 0

/-- Lanes that name one core share one promotion, with the union of their tags (R398). -/
def joinTargets : List PromoTarget → List PromoTarget
  | [] => []
  | .remote d h b :: t => .remote d h b :: (joinTargets t).filter (· != .remote d h b)
  | .core n tags :: t =>
    let rest := joinTargets t
    let same := rest.flatMap fun x => match x with | .core m ts => if m = n then ts else [] | _ => []
    .core n (tags ++ same.filter fun x => !tags.contains x) ::
      rest.filter fun x => match x with | .core m _ => m != n | _ => true

/-- Blocks saved by pre-emption that a handle names: the scheduler answers for them (R279). -/
def State.ackSaved (s : State) (ctx : Nat) (h : Dword) (blk : Word) : State :=
  if h.getLsbD 63 ∧ bits h.toNat 32 12 ≠ s.pkgNo then s
  else match s.resolve ctx (h.setWidth 32) with
    | some (.launch l) => s.clearSaved l (if blk = 0xFFFFFFFF then none else some blk.toNat)
    | _ => s

/-- Sends a promotion (R278). -/
def State.sendPromo (s : State) (c : Cur) (sc : Scope) (t : PromoTarget) : State :=
  match t with
  | .core n tags =>
    let x := s.core n
    (s.setCore n { x with promos := x.promos ++ [{ scope := sc, tags, local? := some (c.bid, c.wid), remote := none, upTo := none }] }).soon
      (.promote n none)
  | .remote dst handle blk =>
    let id := replyTag c.bid c.wid s.freeCtr (((s.wave? c.bid c.wid).map (·.acks.length)).getD 0)
    (s.sendCtx c.ctx (.promote dst
      { srcPkg := s.pkgNo, id, job := (s.ctx c.ctx).fabric.setWidth 16, scope := sc, handle, blk })).onWave c.bid c.wid fun w => { w with acks := w.acks ++ [id] }

/-- ACQP from here on: earlier accesses are performed, the targets are promoted, the lanes wait; with no target it acts as
FENCE.S (R278, R279). -/
def State.acqp (s : State) (c : Cur) (k : Ctl) (p : LaneSet) (sc : Scope) (hs : List (Dword × Word)) : State :=
  s.closing c fun s c =>
    if p = 0 then s.complete c k .zero .zero .zero {}
    else if s.mustWaitCur c p .sys then s.waitAgain c p (.order .sys)
    else
      let ts := joinTargets (hs.flatMap fun h => s.promoTargets c.ctx h.1 h.2)
      let s1 := hs.foldl (fun s h => s.ackSaved c.ctx h.1 h.2) s
      if ts.isEmpty then s1.fence c k p sc
      else ts.foldl (fun s t => s.sendPromo c sc t) (s1.waitAgain c p (.acqp sc))

/-- ACQP, register form (R397). -/
def execAcqp (k : Ctl) (scope : Scope) (b c' : Opnd) (s : State) : Host.Outcome State Fault Refusal :=
  onCur s fun c =>
    let p := s.parts c k
    let hs := (lanesOf p).map fun i => (s.rd64 c b i, s.rd32 c c' i)
    if hs.any fun h => handleBad h.1 then s.raise c 0x02 1 else s.acqp c k p scope hs

/-- ACQP, capability form (R397): the handle and index stand in a scratchpad quad. -/
def execAcqpCap (k : Ctl) (scope : Scope) (b c' : Opnd) (s : State) : Host.Outcome State Fault Refusal :=
  onBlk s k .zero fun c blk p =>
    match s.checkAccess c blk p true capPromote b c' 16 with
    | .error (kind, detail) => s.raise c kind detail
    | .ok t =>
      if t.any fun x => match x.2 with | .spad _ _ => false | _ => true then s.raise c 0x06 1
      else
        let qs := t.map fun x => match x.2 with | .spad off _ => ofBytes (blk.spadBytes off 16) | _ => 0
        let hs : List (Dword × Word) := qs.map fun q => (BitVec.ofNat 64 q, BitVec.ofNat 32 (q / 2 ^ 64))
        if qs.any (fun q => bits q 96 32 != 0) || hs.any (fun h => handleBad h.1) then s.raise c 0x02 1
        else s.acqp c k p scope hs

/-! ### QFENCE (R484) -/

/-- Room that a core's request-engine queues must have. -/
def Core.hasRoom (c : Core) (mask : BitVec 4) (n : Nat) : Bool :=
  (upFrom 0 4).all fun q => !mask.getLsbD q || decide ((lget [] c.reQueues q).length + n ≤ 64)

/-- A new entry of a block. -/
def ReEntry.new (kind : ReKind) (record : List Byte) (bid : Nat) (blk : Block) (inst : Option Inst) : ReEntry :=
  { kind, record, blk := bid, age := blk.age, launch := blk.launch, ctx := blk.ctx, done := 0, counted := 0, slot := none
    inst, step := 0, poisoned := false, acks := 0, asked := false, chunk := [], chunkBad := false, sent := [], delivered := [], signalled := false
    fatal := false, held := none, paid := 0 }

/-- QFENCE (R484): one entry at the tail of each named queue. -/
def execQfence (k : Ctl) (mask : BitVec 4) (s : State) : Host.Outcome State Fault Refusal :=
  onBlk s k .zero fun c blk p =>
    let x := s.core c.core
    if p = 0 then s.complete c k .zero .zero .zero {}
    else if !x.hasRoom mask 1 then s.waitAgain c p (.room mask 1)
    else
      let e := ReEntry.new (.fence mask x.fenceNext) [] c.bid blk none
      (s.setCore c.core
        { x with
          fenceNext := x.fenceNext + 1
          reQueues := mapIdx (fun q l => if mask.getLsbD q then l ++ [e] else l) 0 x.reQueues }).complete c k .zero .zero .zero {}

/-! ### Numbered barriers (R294, R295, R296) -/

/-- The count of an arrival: none where it is not given, or an error where it is above 33 or lanes disagree (R294). -/
def arrivalCount (vals : List Nat) : Option (Option Nat) :=
  match vals with
  | [] => some none
  | v :: t => if (t.all fun x => x == v) && decide (v ≤ 33) then some (if v = 0 then none else some v) else none

/-- One arrival (R295): the barrier after it. -/
def Barrier.arrive (b : Barrier) (count : Option Nat) : Barrier :=
  let expected := if b.arrived = 0 then count.getD b.expected else b.expected
  let n := b.arrived + 1
  if expected ≤ n then { b with expected, arrived := 0, phase := !b.phase, latched := false, released := b.format }
  else { b with expected, arrived := n }

/-- The wave arrives at a barrier and records the phase that it joined (R295). -/
def State.arriveAt (s : State) (c : Cur) (n : BitVec 4) (f : Barrier → Barrier) : State :=
  let s1 := s.onBlock c.bid fun b => { b with bars := mapIdx (fun i x => if i = n.toNat then f x else x) 0 b.bars }
  let joined := match s.block? c.bid with
    | some b => (lget (Barrier.start 0) b.bars n.toNat).phase
    | none => false
  s1.onWave c.bid c.wid fun w =>
    let m := BitVec.ofNat 16 (2 ^ n.toNat)
    { w with phases := if joined then w.phases ||| m else w.phases &&& ~~~m }

/-- Lanes that wait for a release of a barrier which has come are live again, and so is a waiting sequencer, which passes that
release with its format word (R295, R296). -/
def Block.wakeAt (b : Block) (n : BitVec 4) : Block :=
  let bar := lget (Barrier.start 0) b.bars n.toNat
  let now := bar.phase
  let wake (l : Lane) : Lane := match l.st with
    | .blocked (.barrier m ph) => if m = n ∧ ph ≠ now then { l with st := .live } else l
    | .blocked (.mbarrier m ph) => if m = n ∧ ph ≠ now then { l with st := .live } else l
    | _ => l
  { b with
    waves := b.waves.map fun w => w.mapLanes fun _ l => wake l
    seq := match b.seq.st with
      | .waiting m => if m = n ∧ b.seq.phases.getLsbD n.toNat ≠ now then
            { b.seq with st := .running, passed := some bar.released } else b.seq
      | _ => b.seq }

/-- The phase of a numbered barrier. -/
def State.barPhase (s : State) (b : Nat) (n : BitVec 4) : Bool :=
  match s.block? b with
  | some x => (lget (Barrier.start 0) x.bars n.toNat).phase
  | none => false

/-- Before an arrival at a barrier of a block that has a sequencer: an MWAIT that the barrier lets pass reads what the lanes have
written, at the die's level (R262). -/
def State.forSeq (s : State) (b : Nat) : State :=
  match s.block? b with
  | some blk => if blk.seq.st == .absent then s else s.toDie (coreOf b)
  | none => s

/-- BAR and BARA: the count's checks, the commit, the arrival, none of them with no participating lane (R294); the lanes of BAR
then wait for the release of the phase that they joined (R401). -/
def barrierArrive (k : Ctl) (n : BitVec 4) (b : Opnd) (s : State) (wait : Bool) : Host.Outcome State Fault Refusal :=
  onCur s fun c =>
    let p := s.parts c k
    match arrivalCount ((lanesOf p).map fun i => (s.rd32 c b i).toNat) with
    | none => s.raise c 0x02 1
    | some count =>
      if p = 0 then s.complete c k b .zero .zero {}
      else s.closing c fun s c =>
        let joined := s.barPhase c.bid n
        let s1 := ((s.forSeq c.bid).complete c k b .zero .zero {}).arriveAt c n (·.arrive count)
        let s2 := if wait then s1.onWave c.bid c.wid fun w => w.blockNext p (.barrier n joined) else s1
        s2.onBlock c.bid (·.wakeAt n)

/-- BAR (R401). -/
def execBar (k : Ctl) (n : BitVec 4) (b : Opnd) (s : State) : Host.Outcome State Fault Refusal :=
  barrierArrive k n b s true

/-- BARA (R401). -/
def execBara (k : Ctl) (n : BitVec 4) (b : Opnd) (s : State) : Host.Outcome State Fault Refusal :=
  barrierArrive k n b s false

/-- Waits until a barrier's phase differs from the phase that the wave recorded for it (R295). -/
def phaseWait (k : Ctl) (n : BitVec 4) (s : State) (why : Bool → Wait) : Host.Outcome State Fault Refusal :=
  onCur s fun c =>
    let p := s.parts c k
    let mine := c.wave.phases.getLsbD n.toNat
    let s1 := s.complete c k .zero .zero .zero {}
    if s.barPhase c.bid n == mine then s1.onWave c.bid c.wid fun w => w.blockNext p (why mine) else s1

/-- BARW (R401). -/
def execBarw (k : Ctl) (n : BitVec 4) (s : State) : Host.Outcome State Fault Refusal :=
  phaseWait k n s fun ph => .barrier n ph

/-- MBWAIT (R461). -/
def execMbwait (k : Ctl) (n : BitVec 4) (s : State) : Host.Outcome State Fault Refusal :=
  phaseWait k n s fun ph => .mbarrier n ph

/-- Whether a format word is valid (R305). -/
def formatValid (w : Word) : Bool :=
  let n := w.toNat
  let a := bits n 0 4
  let b := bits n 4 4
  decide (a ≤ 6) && decide (b ≤ 6) && bits n 8 2 == 0 && decide (bits n 10 2 ≤ 2) && decide (bits n 12 2 ≤ 2) &&
  decide (bits n 14 2 ≤ 2) && decide (bits n 16 4 ≤ 4) && bits n 20 12 == 0 &&
  (bits n 12 2 == 0 || decide (5 ≤ a)) && (bits n 14 2 == 0 || decide (5 ≤ b))

/-- What MBAR finds in its words and counts: the trap it takes, or its word and count (R296, R459). -/
def State.mbarCheck (s : State) (c : Cur) (p : LaneSet) (n : BitVec 4) (b c' : Opnd) :
    Except (Nat × Nat) (Option (Word × Option Nat)) :=
  let words := (lanesOf p).map fun i => s.rd32 c b i
  let bar := match s.block? c.bid with | some x => lget (Barrier.start 0) x.bars n.toNat | none => Barrier.start 0
  if words.any fun w => !formatValid w then .error (0x02, 1)
  else match arrivalCount ((lanesOf p).map fun i => (s.rd32 c c' i).toNat) with
    | none => .error (0x02, 2)
    | some count =>
      match words with
      | [] => .ok none
      | w :: t =>
        if (t.all fun x => x == w) && (!bar.latched || bar.format == w) then .ok (some (w, count))
        else .error (0x09, n.toNat)

/-- MBAR (R459): a closing arrival, and a release at .die, that latches the format word. -/
def execMbar (k : Ctl) (n : BitVec 4) (b c' : Opnd) (s : State) : Host.Outcome State Fault Refusal :=
  onCur s fun c =>
    match s.mbarCheck c (s.parts c k) n b c' with
    | .error (kind, detail) => s.raise c kind detail
    | .ok none => s.complete c k b c' .zero {}
    | .ok (some (w, count)) =>
      s.closing c fun s c =>
        (((s.writeBackAt c.core .die).complete c k b c' .zero {}).arriveAt c n fun x =>
          let y : Barrier := if x.latched then x else { x with format := w, latched := true }
          y.arrive count).onBlock c.bid (·.wakeAt n)

/-! ### The launch-wide barrier (R198, R295, R401) -/

/-- The cluster's resident blocks hold a wave that is not blocked (R198 running). -/
def State.clusterRuns (s : State) (cl : Nat) : Bool :=
  s.blocks.any fun p => clusterOf (coreOf p.1) == cl && p.2.waves.any fun w => w.lanes.any Lane.isLive

/-- The lanes of a cluster that await admission resume (R198). -/
def State.admitCluster (s : State) (cl : Nat) : State :=
  let wake (l : Lane) : Lane := match l.st with | .blocked .admission => { l with st := .live } | _ => l
  { s.onBlocks fun b x =>
      if clusterOf (coreOf b) = cl then { x with waves := x.waves.map fun w => w.mapLanes fun _ l => wake l } else x with
    heldClusters := sdel s.heldClusters cl
    gov := { s.gov with ptr := (cl + 1) % 96 } }

/-- Admits up to a number of held clusters, ascending from the pointer and wrapping after 95 (R198). -/
def State.admitUpTo : Nat → State → State
  | 0, s => s
  | n + 1, s =>
    let after := s.heldClusters.filter fun c => decide (s.gov.ptr ≤ c)
    match (after ++ s.heldClusters).head? with
    | none => s
    | some cl => State.admitUpTo n (s.admitCluster cl)

/-- A cluster is held: lanes of a resident block there await admission. -/
def State.clusterHeld (s : State) (cl : Nat) : Bool :=
  s.blocks.any fun p => clusterOf (coreOf p.1) == cl && p.2.waves.any fun w => w.lanes.any fun l => l.st == .blocked .admission

/-- The governor's admission (R198), at a release and at each interval start. Clusters whose held blocks have left are held no
longer; one to which a held block has come is. -/
def State.admitClusters (s0 : State) : State :=
  let s : State := { s0 with heldClusters := (upFrom 0 96).filter s0.clusterHeld }
  let running := ((upFrom 0 96).filter s.clusterRuns).length
  let k : Int := ((s.gov.g : Int) - s.tok.reserve) / (max 1 s.gov.lim.cluCost : Nat) - running
  if s.heldClusters.isEmpty then s
  else s.admitUpTo (if k ≤ 0 then (if running = 0 then 1 else 0) else k.toNat)

/-- The launch-wide barrier releases: its waiters stay blocked until their clusters are admitted (R198); those of a saved block go
on when it returns (R199). -/
def State.releaseLaunchBar (s : State) (l : Nat) : State :=
  let hold (ln : Lane) : Lane := match ln.st with | .blocked (.launchBar _) => { ln with st := .blocked .admission } | _ => ln
  let mine := s.blocks.filter fun p => p.2.launch == l
  let s1 := s.onBlocks fun _ x =>
    if x.launch = l then { x with waves := x.waves.map fun w => w.mapLanes fun _ ln => hold ln } else x
  let out (ln : Lane) : Lane := match ln.st with | .blocked (.launchBar _) => { ln with st := .live } | _ => ln
  State.admitClusters { s1 with
    saved := s.saved.map fun v => if v.blk.launch = l then
        { v with blk := { v.blk with waves := v.blk.waves.map fun w => w.mapLanes fun _ ln => out ln } }
      else v
    heldClusters := mine.foldl (fun h p => sins h (clusterOf (coreOf p.1))) s.heldClusters }

/-- An arrival of a wave at its launch's barrier (R295): expected is the launch's waves. -/
def State.arriveLaunch (s : State) (c : Cur) (l : Nat) : State :=
  let x := s.launch l
  let s1 := s.onWave c.bid c.wid fun w => { w with launchPhase := x.barPhase }
  if recN x.record * kdWaves x.desc ≤ x.barArrived + 1 then
    (s1.setLaunch l { x with barArrived := 0, barPhase := !x.barPhase }).releaseLaunchBar l
  else s1.setLaunch l { x with barArrived := x.barArrived + 1 }

/-- The launch is cooperative (R58). -/
def State.isCoop (s : State) (l : Nat) : Bool := recKind (s.launch l).record == 1

/-- BAR.launch and BARA.launch: a release at .pkg, the arrival, and the wait (R274, R401); nothing with no participating lane, for
which check 4 of R115 looks at nothing. -/
def launchArrive (k : Ctl) (s : State) (wait : Bool) : Host.Outcome State Fault Refusal :=
  onBlk s k .zero fun c blk p =>
    if p = 0 then s.complete c k .zero .zero .zero {}
    else if !s.isCoop blk.launch then s.raise c 0x01 0
    else s.closing c fun s c =>
      let ph := (s.launch blk.launch).barPhase
      let s1 := (s.writeBackAt c.core .pkg).complete c k .zero .zero .zero {}
      let s2 := if wait then s1.onWave c.bid c.wid fun w => w.blockNext p (.launchBar ph) else s1
      s2.arriveLaunch c blk.launch

/-- BAR.launch (R401). -/
def execBarLaunch (k : Ctl) (s : State) : Host.Outcome State Fault Refusal := launchArrive k s true

/-- BARA.launch (R401). -/
def execBaraLaunch (k : Ctl) (s : State) : Host.Outcome State Fault Refusal := launchArrive k s false

/-- BARW.launch (R401). -/
def execBarwLaunch (k : Ctl) (s : State) : Host.Outcome State Fault Refusal :=
  onBlk s k .zero fun c blk p =>
    if p = 0 then s.complete c k .zero .zero .zero {}
    else if !s.isCoop blk.launch then s.raise c 0x01 0
    else
      let s1 := s.complete c k .zero .zero .zero {}
      let mine := c.wave.launchPhase
      if (s.launch blk.launch).barPhase == mine then s1.onWave c.bid c.wid fun w => w.blockNext p (.launchBar mine) else s1

/-! ### Byte-count barriers (R289, R290, R402) -/

/-- A byte-count barrier reads remaining = 0. -/
def Block.bcZero (b : Block) (off : Nat) : Bool := ofBytes (b.spadBytes off 6) == 0

/-- BCW (R402): an acquire once every named barrier reads zero. -/
def execBcw (k : Ctl) (a b : Opnd) (s : State) : Host.Outcome State Fault Refusal :=
  onBlk s k .zero fun c blk p =>
    let off (i : Nat) : Nat := (s.rd32 c b i).toNat
    if (lanesOf p).any fun i => off i % 8 != 0 then s.raise c 0x07 0
    else if (lanesOf p).any fun i => decide (blk.spadSize < off i + 8) then s.raise c 0x06 1
    else if (lanesOf p).all fun i => blk.bcZero (off i) then
      (if p = 0 then s else s.acquire (some .sys)).complete c k b .zero .zero
        { writes := writesOf a 1 p fun i => BitVec.ofNat 128 (ofBytes (blk.spadBytes (off i + 4) 4)) }
    else
      (s.waitAgain c p .reply).onWave c.bid c.wid fun w => w.mapLanes fun i l =>
        if p.getLsbD i then { l with st := .blocked (.bcw (off i)) } else l

/-! ### Named scratchpad queues (R76, R292, R293, R485) -/

/-- A queue of a block. -/
def Block.queue (b : Block) (q : BitVec 3) : SpQueue := lget SpQueue.none b.queues q.toNat
def Block.setQueue (b : Block) (q : BitVec 3) (x : SpQueue) : Block := { b with queues := lset b.queues q.toNat x }

/-- A queue has served its event of the clock (R293). -/
def Block.serve (b : Block) (q : BitVec 3) : Block := b.setQueue q { b.queue q with served := true }

/-- Scratchpad offset of a slot. -/
def SpQueue.slotAt (x : SpQueue) (j : Nat) : Nat := x.base + j * x.size

/-- The m slots from head are all filled (R292). -/
def SpQueue.canPop (x : SpQueue) (m : Nat) : Bool :=
  decide (m ≤ x.count) && (upFrom 0 m).all fun j =>
    let st := lget .free x.slots ((x.head + j) % x.count)
    st == .pushed || st == .engineFilled

/-- One lane's push: slot tail, the handle in its first 4 bytes (R292). -/
def Block.push (b : Block) (q : BitVec 3) (handle : Word) : Block :=
  let x := b.queue q
  let y := { x with free := x.free - 1, filled := x.filled + 1, tail := (x.tail + 1) % x.count, slots := lset x.slots x.tail .pushed }
  (b.putSpad (x.slotAt x.tail) (bytesOf 4 handle.toNat)).setQueue q y

/-- One lane's pop: the pushed word, or the offset of an engine-filled slot (R292). -/
def Block.pop (b : Block) (q : BitVec 3) : Block × Word :=
  let x := b.queue q
  let handle := if lget .free x.slots x.head = .pushed then ofBytes (b.spadBytes (x.slotAt x.head) 4) else x.slotAt x.head
  (b.setQueue q { x with filled := x.filled - 1, head := (x.head + 1) % x.count, slots := lset x.slots x.head .popped },
   BitVec.ofNat 32 handle)

/-- Pops one slot for each lane of a list. -/
def Block.popAll (b : Block) (q : BitVec 3) : List Nat → Block × List (Nat × Word)
  | [] => (b, [])
  | i :: t =>
    let (b1, h) := b.pop q
    let (b2, l) := b1.popAll q t
    (b2, (i, h) :: l)

/-- What QPUSH, QPOP and QTRY share: the queue is declared and holds enough slots, the region commits, and with no
participating lane nothing else happens (R485). -/
def queueStart (s : State) (k : Ctl) (q : BitVec 3) (detail : Nat) (go : State → Cur → Block → LaneSet → Nat → State) :
    Host.Outcome State Fault Refusal :=
  onBlk s k .zero fun c blk p =>
    let m := (lanesOf p).length
    if (blk.queue q).count = 0 ∧ p ≠ 0 then s.raise c 0x02 6
    else if (blk.queue q).count < m then s.raise c 0x02 detail
    else
      s.closing c fun s c =>
        if p = 0 then s.complete c k .zero .zero .zero {}
        else match s.block? c.bid with
          | none => s
          | some blk => go s c blk p m

/-- Takes the slots of a pop, after the wave's earlier ones are returned (R292): the state and the handles. -/
def State.takeSlots (s : State) (c : Cur) (blk : Block) (q : BitVec 3) (p : LaneSet) (m : Nat) : State × List (Nat × Word) :=
  let b1 := blk.setQueue q ((blk.queue q).giveBack (lget 0 c.wave.popped q.toNat))
  let (b2, hs) := b1.popAll q (lanesOf p)
  (s.setBlock c.bid ((b2.serve q).setWave c.wid { c.wave with popped := lset c.wave.popped q.toNat m }), hs)

/-- The handle of a lane. -/
def handleOf (hs : List (Nat × Word)) (i : Nat) : Word := ((hs.find? fun x => x.1 == i).map (·.2)).getD 0

/-- The order number of a lane that waits at a queue to push, or to pop (R293). -/
def Lane.queueWait (l : Lane) (q : BitVec 3) (push : Bool) : Option Nat :=
  match l.st with
  | .blocked (.queue q' push' _ since _ _) => if q' = q ∧ push' = push then some since else none
  | _ => none

/-- The order numbers of a block's waiting pushes, or pops, at a queue. -/
def Block.queueWaits (b : Block) (q : BitVec 3) (push : Bool) : List Nat :=
  b.waves.flatMap fun w => w.lanes.filterMap fun l => l.queueWait q push

/-- Participating lanes block at their queue instruction (R293); the other active lanes move on. -/
def State.queueBlock (s : State) (c : Cur) (k : Ctl) (b : Opnd) (p : LaneSet) (why : Nat → Wait) : State :=
  let w := (c.wave.issued c k b .zero .zero).advance (c.active &&& ~~~p)
  s.putCur c (w.mapLanes fun i l => if p.getLsbD i then { l with st := .blocked (why i), paid := true } else l)

/-- QPUSH (R485): it blocks where the queue has no room, has served its event of the clock, or earlier pushes wait (R293). -/
def execQpush (k : Ctl) (q : BitVec 3) (b : Opnd) (s : State) : Host.Outcome State Fault Refusal :=
  queueStart s k q 1 fun s c blk p m =>
    if (blk.queue q).free < m ∨ (blk.queue q).served ∨ !(blk.queueWaits q true).isEmpty then
      s.queueBlock c k b p fun i => .queue q true m s.freeCtr .zero (s.rd32 c b i)
    else
      let blk1 := (lanesOf p).foldl (fun x i => x.push q (s.rd32 c b i)) blk
      (s.setBlock c.bid (blk1.serve q)).complete c k b .zero .zero {}

/-- QPOP (R485): it blocks where too few slots are filled, the queue has served its event of the clock, or earlier pops wait
(R293). -/
def execQpop (k : Ctl) (q : BitVec 3) (a : Opnd) (s : State) : Host.Outcome State Fault Refusal :=
  queueStart s k q 0 fun s c blk p m =>
    if (blk.queue q).canPop m && !(blk.queue q).served && (blk.queueWaits q false).isEmpty then
      let (s1, hs) := s.takeSlots c blk q p m
      s1.complete (s1.recur c) k .zero .zero .zero { writes := writesOf a 1 p fun i => q32 (handleOf hs i) }
    else s.queueBlock c k .zero p fun _ => .queue q false m s.freeCtr a 0

/-- QTRY (R485): a failure writes the success register alone. A queue that has served its event of the clock takes it in the next
(R293). -/
def execQtry (k : Ctl) (q : BitVec 3) (a : Opnd) (s : State) : Host.Outcome State Fault Refusal :=
  queueStart s k q 0 fun s c blk p m =>
    if (blk.queue q).served then s.waitAgain c p .turn
    else if (blk.queue q).canPop m then
      let (s1, hs) := s.takeSlots c blk q p m
      s1.complete (s1.recur c) k .zero .zero .zero { writes := writesOf a 2 p fun i => q64 (1#32 ++ handleOf hs i) }
    else (s.setBlock c.bid (blk.serve q)).complete c k .zero .zero .zero { writes := (writesOf a 2 p fun _ => 0).filter fun w => w.reg % 2 == 1 }

end Sys2Proof.Machine
end

