-- ==== Sys2Proof/Machine/Owner.lean ====
section
/-! DEFINITION. A request of another package performed at its owner, and its answer (spec/16_fabric.md R347 to R349, R356;
spec/17_collectives.md R371). -/

namespace Sys2Proof.Machine

/-- Answers once every invalidation of a line has been acknowledged (R349). -/
def State.answerAfter (s : State) (ctx line : Nat) (m : OutMsg) : State :=
  if s.invalWait.any fun x => x.2 == line * 128 then { s with ackWait := s.ackWait ++ [(line, ctx, m)] } else s.sendCtx ctx m

/-- Sends the answers whose invalidations are all acknowledged. -/
def State.releaseAcks (s : State) : State :=
  let held (x : Nat × Nat × OutMsg) : Bool := s.invalWait.any fun y => y.2 == x.1 * 128
  (s.ackWait.filter fun x => !held x).foldl (fun s x => s.sendCtx x.2.1 x.2.2) { s with ackWait := s.ackWait.filter held }

/-- Whether a request reads: it is answered with data (R250). -/
def peerReads : PeerOp → Bool
  | .load | .atom _ _ _ | .missFill | .fetch => true
  | _ => false

/-- What translation a request needs. -/
def peerNeed : PeerOp → Perm
  | .load | .missFill => .read
  | .fetch => .exec
  | .write | .mputWrite _ | .nibble _ => .write
  | _ => .atomic

/-- The access code of a request's fault record (R234): engines' requests travel in their own classes (R345). -/
def peerAccessCode (r : PeerReq) : Nat :=
  if clsCopy ≤ r.cls then 6
  else match r.op with
    | .load | .missFill => 0
    | .fetch => 3
    | .write | .mputWrite _ | .nibble _ => 5
    | _ => 2

/-- Bytes of a source element and of a target element (R369). -/
def elemSrc : Nat → Nat
  | 0 => 1 | 2 => 2 | 4 => 2 | _ => 4
def elemDst : Nat → Nat
  | 0 => 1 | 4 => 2 | _ => 4

/-- One element of a RADD (R371): its new value. -/
def raddElem (elem : Nat) (t x : Nat) : Nat :=
  match elem with
  | 1 => (ffF32.add .rn t x).1
  | 2 => (ffF32.add .rn t (x * 2 ^ 16)).1
  | _ => (t + x) % 2 ^ 32

/-- Adds source elements to target elements, in order. -/
def raddBytes (elem : Nat) : Nat → List Byte → List Byte → List Byte
  | 0, _, _ => []
  | n + 1, src, dst =>
    bytesOf 4 (raddElem elem (ofBytes (dst.take 4)) (ofBytes (src.take (elemSrc elem)))) ++
      raddBytes elem n (src.drop (elemSrc elem)) (dst.drop 4)

/-- Performs a RADD at a target line; a poisoned line takes no add (R371). -/
def State.raddAt (s : State) (sa elem : Nat) (data : List Byte) : State :=
  if s.isPoisoned sa then s
  else
    let n := data.length / elemSrc elem
    s.homeWrite sa (raddBytes elem n data (s.homeBytes sa (4 * n)))

/-- A posted RED, or the read-modify-write of an ATOM, at the home (R268, R399): the old bytes. -/
def State.peerRmw (s : State) (sa z : Nat) (f : Nat → Option Nat) : State :=
  match f (s.homeNat sa z) with
  | some n => s.homeWrite sa (bytesOf z n)
  | none => s

/-- Performs a request at its storage address and answers it (R347 to R349). A RED on a poisoned line is not performed
and is logged (R489), as an error of the line's stack (log 31). -/
def State.performAt (s : State) (ctx : Nat) (r : PeerReq) (sa : Nat) : State :=
  let bad := s.isPoisoned sa
  let x := ofBytes r.data
  match r.op with
  | .load => s.sendCtx ctx (.reply r.srcPkg r.tag (s.readHome sa r.size) r.cls)
  | .fetch => s.sendCtx ctx (.reply r.srcPkg r.tag (s.readHome (sa / 64 * 64) 64) r.cls)
  | .missFill =>
    let line := lineOf sa
    let e := (tfind s.dir line).getD .uncached
    { s with dir := tput s.dir line (e.add r.srcPkg) }.sendCtx ctx (.reply r.srcPkg r.tag (s.readHome (line * 128) 128) r.cls)
  | .write => (s.homeWrite sa r.data).answerAfter ctx (lineOf sa) (.ack r.srcPkg r.tag r.cls)
  | .nibble high => (s.homeWrite sa [putNibble high (s.homeByte sa) (lget 0 r.data 0)]).answerAfter ctx (lineOf sa) (.ack r.srcPkg r.tag r.cls)
  | .mputWrite _ => (s.homeWrite sa r.data).answerAfter ctx (lineOf sa) (.ack r.srcPkg r.tag r.cls)
  | .atom op signed cmp =>
    if bad then s.sendCtx ctx (.reply r.srcPkg r.tag none r.cls)
    else (s.peerRmw sa r.size fun old => atomNew op signed r.size old x cmp.toNat).answerAfter ctx (lineOf sa)
      (.reply r.srcPkg r.tag (some (s.homeBytes sa r.size)) r.cls)
  | .red op signed =>
    (if bad then s.logEvent 2 2 (stackOf sa) [] else s.peerRmw sa r.size fun old => atomNew (redAtom op) signed r.size old x 0).answerAfter ctx (lineOf sa)
      (.ack r.srcPkg r.tag r.cls)
  | .radd elem _ =>
    (s.raddAt sa elem.toNat r.data).answerAfter ctx (lineOf sa)
      (if bad then .ackPoison r.srcPkg r.tag r.cls else .ack r.srcPkg r.tag r.cls)

end Sys2Proof.Machine
end

