-- ==== Sys2Proof/Machine/Engine.lean ====
section
/-! DEFINITION. Class 0x8, asynchronous engines: the records that a block submits and what submitting them does
(spec/13_engines.md R283 to R286; spec/16_fabric.md R365; spec/17_collectives.md R367 to R379). -/

namespace Sys2Proof.Machine

/-! ### Copy-request records (R283, R284) -/

def cpOp (r : List Byte) : Nat := recField r 0 0 4
def cpSrcSpad (r : List Byte) : Bool := recField r 0 4 1 == 1
def cpDstSpad (r : List Byte) : Bool := recField r 0 5 1 == 1
def cpQueue (r : List Byte) : BitVec 3 := BitVec.ofNat 3 (recField r 0 6 3)
def cpRows (r : List Byte) : Nat := recField r 0 16 16
def cpRowBytes (r : List Byte) : Nat := recField r 0 32 24
def cpSrc (r : List Byte) : Nat := recField r 8 0 64
def cpDst (r : List Byte) : Nat := recField r 16 0 64
def cpSrcStride (r : List Byte) : Int := (BitVec.ofNat 64 (recField r 24 0 64)).toInt
def cpDstStride (r : List Byte) : Int := (BitVec.ofNat 64 (recField r 32 0 64)).toInt
def cpBcb (r : List Byte) : Nat := recField r 40 0 32

/-- No byte-count barrier. -/
def noBcb : Nat := 0xFFFFFFFF

/-- Every byte of every row lies in the scratchpad, or in the address space (R284); rows are linear, so that the first and
the last bound them all. -/
def rowsOk (spadSize : Nat) (spad : Bool) (base : Nat) (stride : Int) (rows n : Nat) : Bool :=
  let top : Int := if spad then spadSize else 2 ^ 57
  let ok (a : Int) : Bool := decide (0 ≤ a) && decide (a + n ≤ top)
  ok base && ok (base + (rows - 1 : Nat) * stride)

/-- A byte-count barrier's offset is none, or aligned and inside (R284). -/
def bcbOk (spadSize b : Nat) : Bool := b == noBcb || (b % 8 == 0 && decide (b + 8 ≤ spadSize))

/-- A malformed copy request of a block (R284, R10). -/
def copyBad (blk : Block) (r : List Byte) : Bool :=
  let op := cpOp r
  let rows := cpRows r
  let n := cpRowBytes r
  recField r 0 56 8 != 0 || recField r 0 12 4 != 0 || recField r 44 0 160 != 0 || decide (2 < op) ||
  decide (5 < recField r 0 9 3) || rows == 0 || n == 0 || !bcbOk blk.spadSize (cpBcb r) ||
  (if op = 2 then cpSrcSpad r || cpSrcStride r != 0
   else !rowsOk blk.spadSize (cpSrcSpad r) (cpSrc r) (cpSrcStride r) rows n) ||
  (if op = 1 then
     let x := blk.queue (cpQueue r)
     cpDst r != 0 || cpDstStride r != 0 || cpBcb r != noBcb || x.count == 0 || decide (x.size < rows * n)
   else cpQueue r != 0 || !rowsOk blk.spadSize (cpDstSpad r) (cpDst r) (cpDstStride r) rows n)

/-! ### One-sided records (R368, R369) -/

def osOp (r : List Byte) : Nat := recField r 0 0 4
def osConn (r : List Byte) : Nat := recField r 0 14 12
def osFar (r : List Byte) : Bool := recField r 0 26 1 == 1
def osLocSpad (r : List Byte) : Bool := recField r 0 27 1 == 1
def osElem (r : List Byte) : Nat := recField r 0 31 3
def osLen (r : List Byte) : Nat := recField r 0 34 24
def osSrc (r : List Byte) : Nat := recField r 8 0 64
def osDst (r : List Byte) : Nat := recField r 16 0 64
def osSig (r : List Byte) : Nat := recField r 24 0 64
def osSigval (r : List Byte) : Nat := recField r 32 0 32
def osBcb (r : List Byte) : Nat := recField r 36 0 32
def osGrp (r : List Byte) : Nat := recField r 40 0 32
def osSeq (r : List Byte) : Word := BitVec.ofNat 32 (recField r 44 0 32)

/-- The element codes that an op allows (R369). -/
def elemAllowed (elem op : Nat) : Bool :=
  match elem with
  | 0 => op == 1 || op == 2 || op == 4 || op == 6
  | 1 | 2 | 3 => op == 3 || op == 5
  | 4 => op == 5
  | _ => false

/-- Bytes of the target that n source bytes reach. -/
def targetBytes (elem n : Nat) : Nat := n / elemSrc elem * elemDst elem

/-- A multicast group as its sender's entry gives it (R372). -/
structure Group where
  size : Nat
  rank : Nat
  plane : Nat
  pkg0 : Nat
  members : List Nat
  deriving DecidableEq, Repr

/-- Bytes at an address of a context, through the home, across pages; none where one cannot be read. -/
def State.gather (s : State) (ctx : Nat) : Nat → Nat → Option (List Byte)
  | _, 0 => some []
  | va, n + 1 =>
    if s.isLocal va then
      match s.readGlobal ctx va 1, s.gather ctx (va + 1) n with
      | .ok (some b), some t => some (b ++ t)
      | _, _ => none
    else none

/-- 16-bit numbers of a list of bytes. -/
def halves16 : List Byte → List Nat
  | a :: b :: t => ofBytes [a, b] :: halves16 t
  | _ => []

/-- The group of a number, none if its entry is invalid or cannot be read (R369, R372). -/
def State.group (s : State) (ctx g : Nat) : Option Group :=
  match s.gather ctx (s.pkg.mcgBase.toNat % 2 ^ 57 + 32 * g) 32 with
  | none => none
  | some e =>
    let size := recField e 0 12 13
    let rank := recField e 0 0 12
    let plane := recField e 4 12 6
    if recField e 0 31 1 = 0 ∨ recField e 0 25 6 ≠ 0 ∨ size = 0 ∨ 4096 < size ∨ size ≤ rank ∨ 47 < plane ∨
      recField e 4 18 14 ≠ 0 ∨ recField e 8 57 7 ≠ 0 ∨ recField e 16 0 128 ≠ 0 then none
    else
      match s.gather ctx (recField e 8 0 57) (2 * size) with
      | none => none
      | some l => some { size, rank, plane, pkg0 := recField e 4 0 12, members := halves16 l }

/-- A malformed one-sided record, for an instruction that accepts some ops (R367 to R369, R10). The remote side of a far
record is another machine's (R365). -/
def State.oneSidedBad (s : State) (ctx spadSize : Nat) (ops : List Nat) (r : List Byte) : Bool :=
  let op := osOp r
  let n := osLen r
  let elem := osElem r
  let group := decide (4 ≤ op)
  let far := osFar r
  recField r 0 58 6 != 0 || recField r 0 4 10 != 0 || recField r 48 0 128 != 0 || !ops.contains op || n == 0 ||
  decide (5 < recField r 0 28 3) || !elemAllowed elem op || (far && decide (2 < op)) || (!far && osConn r != 0) ||
  osSrc r % elemSrc elem != 0 || n % elemSrc elem != 0 || osDst r % elemDst elem != 0 || osSig r % 4 != 0 ||
  !bcbOk spadSize (osBcb r) || decide (2 ^ 16 ≤ osGrp r) || (!group && osGrp r != 0) || (op != 5 && osSeq r != 0) ||
  (op == 2 && osSig r != 0) ||
  (!(far && op == 2) && !rowsOk spadSize (osLocSpad r && op != 2) (osSrc r) 0 1 n) ||
  (if group then decide (2 ^ 45 ≤ osDst r) || decide (2 ^ 45 ≤ osSig r) || (s.group ctx (osGrp r)).isNone
   else !(far && op == 1) && !rowsOk spadSize (osLocSpad r && op == 2) (osDst r) 0 1 (targetBytes elem n))

/-! ### Submitting (R286) -/

/-- Entries of a wave join the tail of a request-engine queue; they come after the posted writes that their block has made, and
after the reads of other packages that their wave has issued (R271). -/
def State.enqueue (s : State) (core wave : Nat) (q : BitVec 2) (l : List ReEntry) : State :=
  let x := s.core core
  let mark (e : ReEntry) : ReEntry :=
    { e with after := s.postedNext, wave
             pends := ((s.wave? e.blk wave).map fun w => (w.pend.filter fun p => p.waiting != 0).map (·.id)).getD [] }
  s.setCore core { x with reQueues := lset x.reQueues q.toNat (lget [] x.reQueues q.toNat ++ l.map mark) }

/-- What CKICK and its kin share (R286, R367): every record of every participating lane is checked, then the open region
commits, then all enter once the queue has room, and what the core's lanes have written before is at the home (R271). -/
def kick (k : Ctl) (q : BitVec 2) (b c' : Opnd) (kind : ReKind) (bad : State → Block → List Byte → Bool) (s : State) :
    Host.Outcome State Fault Refusal :=
  onCur s fun c =>
    let p := s.parts c k
    match s.paramTrap c p 1 [b, c'], s.block? c.bid with
    | some x, _ => s.paramStop c p x
    | _, none => s
    | none, some blk =>
      let l := (lanesOf p).map fun i => ((s.rd32 c b i).toNat, (s.rd32 c c' i).toNat)
      let records := l.flatMap fun x => (upFrom 0 x.2).map fun j => blk.spadBytes (x.1 + 64 * j) 64
      if l.any fun x => x.1 % 64 != 0 then s.raise c 0x07 0
      else if l.any fun x => decide (blk.spadSize < x.1 + 64 * max 1 (min x.2 16)) then s.raise c 0x06 1
      else if (l.any fun x => x.2 == 0 || decide (16 < x.2)) || decide (64 < records.length) then s.raise c 0x02 2
      else if records.any (bad s blk) then s.raise c 0x02 1
      else
        s.closing c fun s c =>
          if p ≠ 0 ∧ !(s.core c.core).hasRoom (BitVec.ofNat 4 (2 ^ q.toNat)) records.length then
            s.waitAgain c p (.room (BitVec.ofNat 4 (2 ^ q.toNat)) records.length)
          else
            ((s.toHome c.core).enqueue c.core c.wid q (records.map fun r => .new kind r c.bid blk none)).complete c k b c' .zero
              { flags := s.paramFlags c p 1 [b, c'] }

/-- CKICK (R286, R414). -/
def execCkick (k : Ctl) (q : BitVec 2) (b c' : Opnd) (s : State) : Host.Outcome State Fault Refusal :=
  kick k q b c' .copy (fun _ blk r => copyBad blk r) s

/-- PUTS (R367, R483). -/
def execPuts (k : Ctl) (q : BitVec 2) (b c' : Opnd) (s : State) : Host.Outcome State Fault Refusal :=
  kick k q b c' .oneSided (fun s blk r => s.oneSidedBad blk.ctx blk.spadSize [1] r) s

/-- GET (R367, R435). -/
def execGet (k : Ctl) (q : BitVec 2) (b c' : Opnd) (s : State) : Host.Outcome State Fault Refusal :=
  kick k q b c' .oneSided (fun s blk r => s.oneSidedBad blk.ctx blk.spadSize [2] r) s

/-- RADD (R367, R487). -/
def execRadd (k : Ctl) (q : BitVec 2) (b c' : Opnd) (s : State) : Host.Outcome State Fault Refusal :=
  kick k q b c' .oneSided (fun s blk r => s.oneSidedBad blk.ctx blk.spadSize [3] r) s

/-- MPUT (R367, R470). -/
def execMput (k : Ctl) (q : BitVec 2) (b c' : Opnd) (s : State) : Host.Outcome State Fault Refusal :=
  kick k q b c' .oneSided (fun s blk r => s.oneSidedBad blk.ctx blk.spadSize [4] r) s

/-- MPUT.red (R367, R470). -/
def execMputRed (k : Ctl) (q : BitVec 2) (b c' : Opnd) (s : State) : Host.Outcome State Fault Refusal :=
  kick k q b c' .oneSided (fun s blk r => s.oneSidedBad blk.ctx blk.spadSize [5] r) s

/-- MPUT.ord (R367, R470). -/
def execMputOrd (k : Ctl) (q : BitVec 2) (b c' : Opnd) (s : State) : Host.Outcome State Fault Refusal :=
  kick k q b c' .oneSided (fun s blk r => s.oneSidedBad blk.ctx blk.spadSize [6] r) s

/-! ### Persistent collectives (R377 to R381) -/

/-- A collective entry (R378), with the storage address of its instance word. -/
structure Coll where
  grp : Nat
  records : List (List Byte)
  inst : Nat
  instSa : Nat
  deriving DecidableEq, Repr

/-- A list cut into records of 64 bytes. -/
def records64 (l : List Byte) : Nat → List (List Byte)
  | 0 => []
  | n + 1 => l.take 64 :: records64 (l.drop 64) n

/-- The entry of a collective for a context: none where R379 step 1 refuses it, or where it, its list or its group cannot
be read (log 20). -/
def State.coll (s : State) (ctx spadSize c : Nat) : Option Coll :=
  let base := s.pkg.collBase.toNat % 2 ^ 57 + 64 * c
  if 62 < c ∨ !s.pkg.eaBase.getLsbD 63 then none
  else
    match s.gather ctx base 64, s.translate ctx base .write with
    | some e, .ok leaf =>
      let n := recField e 0 0 7
      if recField e 0 31 1 = 0 ∨ recField e 0 23 8 ≠ ctx ∨ recField e 0 7 16 ≠ 0 ∨ n = 0 ∨ 64 < n ∨
        recField e 4 16 16 ≠ 0 ∨ recField e 8 57 7 ≠ 0 ∨ recField e 24 0 320 ≠ 0 then none
      else
        match s.gather ctx (recField e 8 0 57) (64 * n), s.group ctx (recField e 4 0 16) with
        | some l, some _ =>
          let rs := records64 l n
          if rs.any fun r => osLocSpad r || s.oneSidedBad ctx spadSize [1, 2, 3, 4, 5, 6] r then none
          else some { grp := recField e 4 0 16, records := rs, inst := recField e 16 0 64, instSa := leaf.sa + 16 }
        | _, _ => none
    | _, _ => none

/-- The signal of a put at this package (R370): ATOM.add of 32 bits at the home; a poisoned word takes no add. -/
def State.addWord (s : State) (sa : Nat) (v : Word) : State :=
  if s.isPoisoned sa then s else s.homeWrite sa (bytesOf 4 ((s.homeNat sa 4 + v.toNat) % 2 ^ 32))

/-- An early arrival lands (R379 step 4): it is performed and answered; its signal came behind its data. -/
def State.landEarly (s : State) (e : Early) : State := s.performAt e.ctx e.req e.sa

/-- Starts an instance (R379 steps 3 to 6). Its records know the members whose notices they await (R381). -/
def State.startInst (s : State) (c : Cur) (blk : Block) (q : BitVec 2) (n : Nat) : State :=
  match s.coll c.ctx blk.spadSize n with
  | none => s
  | some x =>
    let m := (x.inst + 1) % 2 ^ 64
    let s1 := s.homeWrite x.instSa (bytesOf 8 m)
    let mine (e : Early) : Bool := e.c == n && e.m == m
    let s2 := (s1.early.filter mine).foldl State.landEarly { s1 with early := s1.early.filter fun e => !mine e }
    let members := match s.group c.ctx x.grp with | some g => g.members | none => []
    (s2.sendCtx c.ctx (.collNotice x.grp n m)).enqueue c.core c.wid q (x.records.map fun r => .new .oneSided r c.bid blk (some { c := n, m, members }))

/-- PCOLL (R379, R479): the participating lanes in ascending order. What the core's lanes have written before is at the home, where
the entries are read (R271). -/
def execPcoll (k : Ctl) (q : BitVec 2) (b : Opnd) (s : State) : Host.Outcome State Fault Refusal :=
  onBlk s k b fun c blk p =>
    let cs := (lanesOf p).map fun i => (s.rd32 c b i).toNat
    let s := if p = 0 then s else s.toHome c.core
    let found := cs.map (s.coll c.ctx blk.spadSize)
    if found.any Option.isNone then s.raise c 0x02 1
    else
      let n := (found.map fun x => match x with | some y => y.records.length | none => 0).foldl (· + ·) 0
      s.closing c fun s c =>
        if p ≠ 0 ∧ !(s.core c.core).hasRoom (BitVec.ofNat 4 (2 ^ q.toNat)) n then
          s.waitAgain c p (.room (BitVec.ofNat 4 (2 ^ q.toNat)) n)
        else
          (cs.foldl (fun s n => s.startInst c blk q n) (if p = 0 then s else s.toHome c.core)).complete c k b .zero .zero { flags := s.paramFlags c p 1 [b] }

end Sys2Proof.Machine
end

