-- ==== Sys2Proof/Machine/Layout.lean ====
section
/-! DEFINITION. What the matrix sequencer shares: its operands, faults, layouts, accesses and the arithmetic of the array
(spec/14_matrix.md R298 to R316; spec/07_arithmetic.md R153, R154; spec/21_ref_l_m.md R456). -/

namespace Sys2Proof.Machine

/-! ### The instruction in hand -/

/-- The block whose sequencer has an instruction in hand. -/
def State.seq? (s : State) : Option (Nat × Block) :=
  match s.issue with
  | some { agent := .seq b, .. } => (s.block? b).map fun blk => (b, blk)
  | _ => none

/-- A change to a block's sequencer. -/
def State.onSeq (s : State) (b : Nat) (f : Seq → Seq) : State := s.onBlock b fun x => { x with seq := f x.seq }

/-- An m register; 0x140 reads zero (R299). -/
def Seq.mreg (q : Seq) (o : Opnd) : Word :=
  match o with
  | .m n => lget 0 q.m n.toNat
  | _ => 0

/-- A guard of the stream (R299, R103). -/
def Seq.guardOn (q : Seq) (g : Guard) : Bool :=
  let x := q.mreg g.greg
  let t1 := x.getLsbD g.g1.toNat != g.neg1
  let t2 := x.getLsbD g.g2.toNat != g.neg2
  match g.comb.toNat with
  | 0 => true
  | 1 => t1
  | 2 => t1 && t2
  | _ => t1 || t2

/-- The sequencer moves to a slot. -/
def State.seqTo (s : State) (b : Nat) (pc : Pc) : State :=
  s.onSeq b fun q => { q with pc, paid := false, st := .running }

/-- The sequencer takes new contents and goes on with the next slot. -/
def State.seqNext (s : State) (b : Nat) (f : Seq → Seq) : State :=
  s.onSeq b fun q => { f q with pc := succPc q.pc, paid := false, st := .running }

/-- The sequencer waits at its instruction, whose claim is paid. -/
def State.seqWait (s : State) (b : Nat) (st : SeqSt) : State := s.onSeq b fun q => { q with st, paid := true }

/-- A sequencer fault (R314): MSEQ_STAT takes kind and PC, the price is returned (R166), the block fails. -/
def State.seqFault (s : State) (b kind : Nat) : State :=
  match s.block? b with
  | none => s
  | some blk =>
    let price := match s.issue with | some i => i.price | none => 0
    let s1 := { s.refund (coreOf b) price with mseq := tput s.mseq b (BitVec.ofNat 64 (kind * 2 ^ 58 + blk.seq.pc.toNat)) }
    (s1.onSeq b fun q => { q with st := .faulted }).failBlock b

/-- The shape of a meaning of class 0x9: nothing where its guard is false (R299), else its effect on its block. -/
def onMatrix (s : State) (k : Ctl) (f : Nat → Block → State) : Host.Outcome State Fault Refusal :=
  match s.seq? with
  | none => .fault .noIssuer
  | some (b, blk) => .next (if blk.seq.guardOn k.guard then f b blk else s.seqNext b id)

/-- A source of the stream (R456): its word, or the fault that reading it raises. -/
def State.seqSrc (s : State) (blk : Block) (o : Opnd) : Except Nat Word :=
  match o with
  | .imm v => .ok (v.signExtend 32)
  | .param win off =>
    if off.toNat % 4 ≠ 0 then .error 1
    else if (windowWords blk.params win.toNat off.toNat 4).any (fun va => s.isLocal va && s.wordPoison 0 blk.ctx va) then .error 8
    else match s.readWindow blk.ctx blk.params win.toNat off.toNat 4 with
      | some v => .ok (v.setWidth 32)
      | none => if blk.trapOnParam then .error 6 else .ok 0
  | o => .ok (blk.seq.mreg o)

/-- The lines of another package that a source of the stream needs and no copy holds (R209, R347). -/
def State.srcAway (s : State) (blk : Block) (o : Opnd) : List Nat :=
  match o with
  | .param win off => s.wordsAway blk.ctx (windowWords blk.params win.toNat off.toNat 4)
  | _ => []

/-- Reads a source, then goes on. -/
def State.withSrc (s : State) (b : Nat) (blk : Block) (o : Opnd) (go : Word → State) : State :=
  let away := s.srcAway blk o
  if !away.isEmpty then (away.foldl (fun s x => s.askFill blk.ctx (x * 128)) s).seqWait b (.filling away)
  else match s.seqSrc blk o with
  | .error kind => s.seqFault b kind
  | .ok v => go v

/-- An m register takes a value. -/
def Seq.setM (q : Seq) (o : Opnd) (v : Word) : Seq :=
  match o with
  | .m n => { q with m := lset q.m n.toNat v }
  | _ => q

/-- The layout register that an operand names. -/
def Seq.xreg (q : Seq) (o : Opnd) : LayReg :=
  match o with
  | .x n => lget LayReg.start q.x n.toNat
  | _ => LayReg.start

/-- A layout register takes new contents. -/
def Seq.setX (q : Seq) (o : Opnd) (v : LayReg) : Seq :=
  match o with
  | .x n => { q with x := lset q.x n.toNat v }
  | _ => q

/-! ### Layouts (R302, R303) -/

def LayReg.esize (x : LayReg) : Nat := bits x.record.toNat 58 2
def LayReg.inSpad (x : LayReg) : Bool := x.record.getLsbD 57
def LayReg.base (x : LayReg) : Nat := bits x.record.toNat 0 57
def LayReg.extent (x : LayReg) (i : Nat) : Nat := bits x.record.toNat (64 + 16 * i) 16
def LayReg.stride (x : LayReg) (i : Nat) : Int := (BitVec.ofNat 32 (bits x.record.toNat (128 + 32 * i) 32)).toInt

/-- Element width in bits. -/
def widthBits (esize : Nat) : Nat := 4 * 2 ^ esize
/-- Bytes of an element's read or write. -/
def spanBytes (esize : Nat) : Nat := max 1 (widthBits esize / 8)

/-- A malformed record (R302). -/
def LayReg.bad (x : LayReg) : Bool :=
  bits x.record.toNat 60 4 != 0 || ((upFrom 0 4).any fun i => x.extent i == 0) || x.base % spanBytes x.esize != 0

/-- A located element. -/
structure Spot where
  spad : Bool
  byte : Nat
  n : Nat
  /-- The half of the byte that a 4-bit element takes. -/
  nib : Option Bool
  deriving DecidableEq, Repr

/-- Locate (R303): none where the position is outside, an error of kind 6 where a byte lies outside memory or the
scratchpad. -/
def LayReg.locate (x : LayReg) (spadSize r c : Nat) : Except Nat (Option Spot) :=
  let row : Int := r + x.orow
  let col : Int := c + x.ocol
  if row < 0 ∨ col < 0 then .ok none
  else
    let a0 := col.toNat % x.extent 0
    let a1 := col.toNat / x.extent 0
    let a2 := row.toNat % x.extent 2
    let a3 := row.toNat / x.extent 2
    if x.extent 1 ≤ a1 ∨ x.extent 3 ≤ a3 then .ok none
    else
      let o : Int := a0 * x.stride 0 + a1 * x.stride 1 + a2 * x.stride 2 + a3 * x.stride 3
      let byte : Int := x.base + (o * widthBits x.esize) / 8
      let n := spanBytes x.esize
      let top : Int := if x.inSpad then spadSize else 2 ^ 57
      if byte < 0 ∨ top < byte + n then .error 6
      else .ok (some { spad := x.inSpad, byte := byte.toNat, n, nib := if x.esize = 0 then some (o % 2 == 1) else none })

/-- Words of a group in each bank (R304): the conflict count that it adds. -/
def bankConflicts (l : List Spot) : Nat :=
  let ws := distinct ((l.filter (·.spad)).map fun p => p.byte / 4)
  let most := ((upFrom 0 32).map fun b => (ws.filter fun w => w % 32 == b).length).foldl max 0
  most - (ws.length + 31) / 32

/-- The conflict count after more conflicts (R304). -/
def Seq.addConflicts (q : Seq) (n : Nat) : Seq :=
  { q with bankCount := BitVec.ofNat 32 (min 0xFFFFFFFF (q.bankCount.toNat + n)) }

/-! ### Accesses of the sequencer (R309, R310, R315) -/

/-- The byte that the die cache or the home serves. -/
def State.dieByte (s : State) (core sa : Nat) : Byte :=
  match s.dirty.find? fun d => d.sa == sa && d.lvl == 1 && dieOf d.core == dieOf core with
  | some d => d.val
  | none => s.homeByte sa

/-- Spots of global layouts in this package whose translation fails, one for each granule (R315, R520). -/
def State.spotFaults (s : State) (ctx : Nat) (need : Perm) (l : List Spot) : List (Nat × XFault) :=
  firstPerGranule (l.filterMap fun p =>
    if p.spad || !s.isLocal p.byte then none
    else match s.translate ctx p.byte need with
      | .error x => some (0, p.byte, x)
      | .ok _ => none)

/-- Lines of other packages that some spots need and no copy holds. -/
def State.spotFills (s : State) (l : List Spot) : List Nat :=
  distinct (l.filterMap fun p =>
    if p.spad || s.isLocal p.byte || (s.peerCopy p.byte p.n).isSome then none else some (peerLine p.byte))

/-- Whether a spot lies on a poisoned line. -/
def State.spotPoison (s : State) (ctx : Nat) (p : Spot) : Bool :=
  if p.spad || !s.isLocal p.byte then false
  else match s.translate ctx p.byte .read with
    | .ok l => s.isPoisoned l.sa
    | .error _ => false

/-- A spot's home cannot be reached, and the die cache does not hold its bytes. -/
def State.spotAway (s : State) (b ctx : Nat) (p : Spot) : Bool :=
  !p.spad && s.isLocal p.byte && match s.translate ctx p.byte .read with
    | .ok l => s.accessWaits l.sa && (upFrom l.sa p.n).any fun a => !s.dirty.any fun d => d.sa == a && inDieOf (coreOf b) d
    | .error _ => false

/-- What keeps spots from being accessed: translation faults enter the merge table, lines of other packages are asked for, and
homes must be reachable; a poisoned read is a fault of kind 8 (R315). The state in which the sequencer waits or has faulted;
none where every spot can be accessed. -/
def State.spotsWait (s : State) (b : Nat) (blk : Block) (need : Perm) (reads l : List Spot) : Option State :=
  let fs := s.spotFaults blk.ctx need l
  if fs.isEmpty then
    let lines := s.spotFills reads
    if lines.isEmpty then
      if reads.any (s.spotAway b blk.ctx) then some (s.seqWait b .homeAway)
      else if reads.any (s.spotPoison blk.ctx) then some (s.seqFault b 8) else none
    else
      some ((lines.foldl (fun s x => s.askFill blk.ctx (x * 128)) s).seqWait b (.filling lines))
  else
    let access := if need = .write then 1 else 0
    let s1 := fs.foldl (fun s g => s.enterFault (s.localFault (dieOf (coreOf b)) blk.ctx g.1 access g.2) (some (.seq b))) s
    some (s1.seqWait b (.heldAt (fs.map fun g => granuleOf g.1)))

/-- Goes on once every spot can be accessed. -/
def State.whenReady (s : State) (b : Nat) (blk : Block) (need : Perm) (reads l : List Spot) (go : State → State) : State :=
  match s.spotsWait b blk need reads l with
  | some s1 => s1
  | none => go s

/-- The raw contents of an element. -/
def State.spotNat (s : State) (b : Nat) (blk : Block) (p : Spot) : Nat :=
  let v :=
    if p.spad then ofBytes (blk.spadBytes p.byte p.n)
    else if s.isLocal p.byte then
      match s.translate blk.ctx p.byte .read with
      | .ok l => ofBytes ((upFrom l.sa p.n).map (s.dieByte (coreOf b)))
      | .error _ => 0
    else ofBytes ((s.peerCopy p.byte p.n).getD [])
  match p.nib with
  | some true => v / 16
  | some false => v % 16
  | none => v

/-- The cores that have written a byte which is still in a cache. -/
def State.writersOf (s : State) (sa : Nat) : List Nat := distinct ((s.dirty.filter fun d => d.sa == sa).map (·.core))

/-- Stores one half of a byte of this package (R310): at the home, once every cache that holds the byte is written back. -/
def State.putHalf (s : State) (sa : Nat) (high : Bool) (x : Byte) : State :=
  let s1 := (s.writersOf sa).foldl State.toHome s
  s1.homeWrite sa [putNibble high (s1.homeByte sa) x]

/-- The bytes that an element's store writes in its place, over what is there: a half in both halves of a byte. -/
def Spot.bytes (p : Spot) (v : Nat) : List Byte := match p.nib with | some _ => bytesOf 1 (v % 16 * 17) | none => bytesOf p.n v

/-- Writes an element (R310): the scratchpad, the die cache, or a posted write to its owner. Of a byte that holds two elements it
writes one half. The sequencer is no lane: its stores do not count in the write generation (R275). -/
def State.putSpot (s : State) (b : Nat) (p : Spot) (v : Nat) : State :=
  match s.block? b with
  | none => s
  | some blk =>
    let core := coreOf b
    let data := p.bytes v
    let nib (high : Bool) (old : Byte) : Byte := putNibble high old (lget 0 data 0)
    if p.spad then
      s.setBlock b (blk.putSpad p.byte (match p.nib with | some h => [nib h (blk.spadByte p.byte)] | none => data))
    else if s.isLocal p.byte then
      match s.translate blk.ctx p.byte .write, p.nib with
      | .ok l, none => s.dirtyBytes core 1 p.byte false l.sa data
      | .ok l, some h => s.putHalf l.sa h (lget 0 data 0)
      | .error _, _ => s
    else
      let now (x : List Byte) : List Byte := match p.nib with | some h => [nib h (lget 0 x (p.byte % 128))] | none => data
      let hold (x : Nat × List Byte) : Nat × List Byte :=
        if x.1 = peerLine p.byte then (x.1, x.2.take (p.byte % 128) ++ now x.2 ++ x.2.drop (p.byte % 128 + p.n)) else x
      let kept := s.peerCopies.map hold
      let op : PeerOp := match p.nib with | some h => .nibble h | none => .write
      { (s.backHome (inDieOf core)).post core b 0 0 blk.ctx op p.byte data clsDemand (some 4) with peerCopies := kept }

/-! ### Elements, products and sums (R137 to R143, R153, R154, R306) -/

/-- The format of a format word's code (R305). -/
def wordFmt : Nat → Fmt
  | 0 => .f16 | 1 => .bf16 | 2 => .e4m3 | 3 => .e5m2 | 4 => .lns6 | 5 => .ob8 | _ => .ob4

/-- The element width that a code takes in memory (R305). -/
def wordEsize : Nat → Nat
  | 0 => 2 | 1 => 2 | 6 => 0 | _ => 1

/-- Columns of an array cycle (R307). -/
def wordCols : Nat → Nat
  | 0 => 1 | 1 => 1 | 4 => 4 | 6 => 4 | _ => 2

/-- What an element of A or B contributes: its value, its log code if it is a nonzero LNS6 number, and its scale. -/
structure MElem where
  val : Val
  log : Option Int
  scale : Val
  deriving DecidableEq, Repr

/-- The element of a code (R137 to R142). -/
def mElem (fmt : Fmt) (z raw : Nat) (scale : Val) : MElem :=
  { val := fmtValue fmt z raw, log := if fmt = .lns6 ∧ raw % 32 ≠ 0 then some ((raw % 32 : Nat) - 16) else none, scale }

/-- A product (R153): its value, the rounding flags, and MSTAT.scale_nan; an element that is outside makes it +0. A zero
product has the XOR of the signs, of formats without −0 too (DEDUCED, log 74). -/
def mProduct (x y : Option MElem) : Val × Flags × Bool :=
  match x, y with
  | some a, some b =>
    if a.scale.isNan || b.scale.isNan then (.nan false, flagIf (a.val.isSig || b.val.isSig) fInvalid, true)
    else
      let (p, fl) := match a.log, b.log with
        | some i, some j => let (m, e) := lnsPow (i + j); (Val.num (a.val.neg != b.val.neg) m e, 0)
        | _, _ => mulExact a.val b.val
      ((mulExact p (mulExact a.scale b.scale).1).1, fl, false)
  | _, _ => (.num false 0 0, 0, false)

/-- One group's sum rounded to FP32 (R154), with the flags that MSTAT collects. -/
def mGroup (l : List (Val × Flags × Bool)) : Word × BitVec 5 :=
  let own := orFlags (l.map fun p => p.2.1)
  let scale : BitVec 5 := if l.any fun p => p.2.2 then mScaleNan else 0
  let out (v : Val) (fl : Flags) : Word × BitVec 5 :=
    let (c, fd) := ffF32.deliver .rn false v
    (BitVec.ofNat 32 c, mstatOf (own ||| fl ||| fd) ||| scale)
  if l.any fun p => p.1.isNan then out (.nan false) 0
  else match l with
    | [] => out (.num false 0 0) 0
    | p :: t => let (v, fl) := t.foldl (fun (a : Val × Flags) q => let (v, f) := addExact .rn a.1 q.1; (v, a.2 ||| f)) (p.1, 0)
      out v fl

/-- The groups of 16 of a row's products. -/
def mGroups (l : List (Val × Flags × Bool)) : Nat → List (Word × BitVec 5)
  | 0 => []
  | n + 1 => mGroup (l.take 16) :: mGroups (l.drop 16) n

/-- One accumulator's update (R154): four sums added in ascending order. -/
def mUpdate (c : Word) (row col : List (Option MElem)) : Word × BitVec 5 :=
  let gs := mGroups (List.zipWith mProduct row col) 4
  gs.foldl (fun (a : Word × BitVec 5) g =>
    let (x, fl) := ffF32.add .rn a.1.toNat g.1.toNat
    (BitVec.ofNat 32 x, a.2 ||| g.2 ||| mstatOf fl)) (c, 0)

/-! ### Accumulators (R308) -/

/-- Index of an accumulator. -/
def accIndex (col row : Nat) : Nat := col * 128 + row
def Seq.accAt (q : Seq) (col row : Nat) : Word := tget 0 q.acc (accIndex col row)
def Seq.setAcc (q : Seq) (col row : Nat) (v : Word) : Seq := { q with acc := tset 0 q.acc (accIndex col row) v }

/-- A column takes 128 values, row by row. -/
def Seq.setCol (q : Seq) (col : Nat) (l : List Word) : Seq :=
  { q with acc := (l.foldl (fun (p : Tbl Word × Nat) v => (tset 0 p.1 (accIndex col p.2) v, p.2 + 1)) (q.acc, 0)).1 }

/-- A column range that leaves the block's columns, or an N outside 1 to 512 (R308). -/
def Seq.colsBad (q : Seq) (c0 n : Nat) : Bool := n == 0 || decide (512 < n) || decide (q.cols < c0 + n)

end Sys2Proof.Machine
end

