-- ==== Sys2Proof/Machine/Matrix.lean ====
section
/-! DEFINITION. Class 0x9, the matrix sequencer (spec/14_matrix.md R300 to R315; spec/21_ref_l_m.md R456 to R475). -/

namespace Sys2Proof.Machine

/-! ### Layouts and bindings -/

/-- MLAY (R464): the record is checked as it was read. -/
def execMlay (k : Ctl) (a b' : Opnd) (s : State) : Host.Outcome State Fault Refusal :=
  onMatrix s k fun b blk =>
    s.withSrc b blk b' fun off =>
      let o := off.toNat
      let x : LayReg := { record := BitVec.ofNat 256 (ofBytes (blk.spadBytes o 32)), orow := 0, ocol := 0, hint := k.hint }
      if o % 32 ≠ 0 ∨ blk.spadSize < o + 32 ∨ x.bad then s.seqFault b 2
      else s.seqNext b fun q => q.setX a x

/-- MSCL (R471): targets 0 to 3 bind a register's number, 4 to 6 the source's low 8 bits. -/
def execMscl (k : Ctl) (tgt : MsclT) (b' : Opnd) (s : State) : Host.Outcome State Fault Refusal :=
  onMatrix s k fun b blk =>
    let reg : Option (BitVec 3) := match b' with | .x n => some n | _ => none
    let const (f : Byte → Binds → Binds) : State :=
      s.withSrc b blk b' fun v => s.seqNext b fun q => { q with binds := f (v.setWidth 8) q.binds }
    let bind (f : Binds → Binds) : State := s.seqNext b fun q => { q with binds := f q.binds }
    match tgt with
    | .sa => bind fun x => { x with sa := reg }
    | .sb => bind fun x => { x with sb := reg }
    | .za => bind fun x => { x with za := reg }
    | .zb => bind fun x => { x with zb := reg }
    | .zca => const fun v x => { x with zca := v }
    | .zcb => const fun v x => { x with zcb := v }
    | .zst => const fun v x => { x with zst := v }

/-! ### MMA (R305 to R307, R456, R466) -/

/-- Fields of a format word (R305). -/
def fwA (w : Word) : Nat := bits w.toNat 0 4
def fwB (w : Word) : Nat := bits w.toNat 4 4
def fwScale (w : Word) : Nat := bits w.toNat 10 2
def fwZa (w : Word) : Nat := bits w.toNat 12 2
def fwZb (w : Word) : Nat := bits w.toNat 14 2
def fwRound (w : Word) : Nat := bits w.toNat 16 4

/-- Where an element, its scale and its zero point stand. -/
structure ElemPlan where
  el : Spot
  scale : Option Spot
  zero : Option Spot
  deriving DecidableEq, Repr

/-- The spot of a scale or zero point (R306): a binding that is none and a position outside are faults of kind 7, a layout
not loaded one of kind 2, its width one of kind 3. -/
def auxSpot (x : Option LayReg) (esize spadSize r c : Nat) : Except Nat Spot :=
  match x with
  | none => .error 7
  | some y =>
    if y.bad then .error 2
    else if y.esize ≠ esize then .error 3
    else match y.locate spadSize r c with
      | .error e => .error e
      | .ok none => .error 7
      | .ok (some p) => .ok p

/-- An optional spot. -/
def auxIf (on : Bool) (x : Option LayReg) (esize spadSize r c : Nat) : Except Nat (Option Spot) :=
  if on then (auxSpot x esize spadSize r c).map some else .ok none

/-- The plan of an element: none where it is outside. -/
def planAt (x : LayReg) (sx zx : Option LayReg) (scaled zeroed : Bool) (spadSize r c sr sc zr zc : Nat) :
    Except Nat (Option ElemPlan) :=
  match x.locate spadSize r c with
  | .error e => .error e
  | .ok none => .ok none
  | .ok (some el) =>
    match auxIf scaled sx 2 spadSize sr sc, auxIf zeroed zx 1 spadSize zr zc with
    | .ok scale, .ok zero => .ok (some { el, scale, zero })
    | .error e, _ => .error e
    | _, .error e => .error e

/-- Element (i, k) of A. -/
def MmaRun.planA (r : MmaRun) (spadSize i k : Nat) : Except Nat (Option ElemPlan) :=
  planAt r.la r.scaleA r.zeroA (fwScale r.fw != 0) (fwZa r.fw == 2) spadSize i k i
    (if fwScale r.fw = 1 then k / 32 else 0) i 0

/-- Element (k, j) of B. -/
def MmaRun.planB (r : MmaRun) (spadSize k j : Nat) : Except Nat (Option ElemPlan) :=
  planAt r.lb r.scaleB r.zeroB (fwScale r.fw != 0) (fwZb r.fw == 2) spadSize k j
    (if fwScale r.fw = 1 then k / 32 else 0) j 0 j

/-- The rows of A, and a column of B. -/
def MmaRun.rowsA (r : MmaRun) (spadSize : Nat) : List (List (Except Nat (Option ElemPlan))) :=
  (upFrom 0 128).map fun i => (upFrom 0 64).map fun k => r.planA spadSize i k
def MmaRun.colB (r : MmaRun) (spadSize j : Nat) : List (Except Nat (Option ElemPlan)) :=
  (upFrom 0 64).map fun k => r.planB spadSize k j

/-- The plan, once faults are excluded. -/
def planOf (p : Except Nat (Option ElemPlan)) : Option ElemPlan := match p with | .ok x => x | .error _ => none
def faultOf (p : Except Nat (Option ElemPlan)) : Option Nat := match p with | .ok _ => none | .error e => some e

/-- The spots that plans read. -/
def ElemPlan.spots (p : ElemPlan) : List Spot := p.el :: (p.scale.toList ++ p.zero.toList)

/-- The layout register that a binding names, captured. -/
def Seq.bound (q : Seq) (n : Option (BitVec 3)) : Option LayReg := n.map fun i => lget LayReg.start q.x i.toNat

/-- What an MMA captures when it issues (R456). -/
def Seq.capture (q : Seq) (k : Ctl) (c0 n : Nat) (la lb : LayReg) (now : Dword) : MmaRun :=
  { c0, n, col := 0, la, lb, fw := q.fw, binds := q.binds, scaleA := q.bound q.binds.sa, scaleB := q.bound q.binds.sb
    zeroA := q.bound q.binds.za, zeroB := q.bound q.binds.zb, hint := k.hint, since := now }

/-- The first fault of an MMA's addresses, scales and zero points. -/
def MmaRun.fault (r : MmaRun) (spadSize : Nat) : Option Nat :=
  ((r.rowsA spadSize).flatten ++ (upFrom 0 r.n).flatMap (r.colB spadSize)).findSome? faultOf

/-- MMA (R306, R466): checked whole and captured; it takes the array if none waits for it before, else it waits (R307). -/
def execMma (k : Ctl) (a b' c' d : Opnd) (s : State) : Host.Outcome State Fault Refusal :=
  onMatrix s k fun b blk =>
    let q := blk.seq
    let c0 := (q.mreg a).toNat
    let n := (q.mreg d).toNat
    let la := q.xreg b'
    let lb := q.xreg c'
    let r := q.capture k c0 n la lb s.clk
    if n % 16 ≠ 0 ∨ q.colsBad c0 n then s.seqFault b 4
    else if la.bad || lb.bad then s.seqFault b 2
    else if la.esize ≠ wordEsize (fwA q.fw) ∨ lb.esize ≠ wordEsize (fwB q.fw) then s.seqFault b 3
    else match r.fault blk.spadSize with
      | some kind => s.seqFault b kind
      | none =>
        let core := s.core (coreOf b)
        let s1 := s.onSeq b fun q => { q with st := .mma, mma := some r, paid := false }
        let others := s.blocks.any fun p => p.2.seq.st == .mma && coreOf p.1 == coreOf b
        if core.array.isNone && !others then s1.setCore (coreOf b) { core with array := some b } else s1

/-! ### Accumulator instructions -/

/-- MZERO (R475). -/
def execMzero (k : Ctl) (a b' : Opnd) (s : State) : Host.Outcome State Fault Refusal :=
  onMatrix s k fun b blk =>
    let q := blk.seq
    let c0 := (q.mreg a).toNat
    let n := (q.mreg b').toNat
    if q.colsBad c0 n then s.seqFault b 4
    else s.seqNext b fun q => (upFrom c0 n).foldl (fun q c => q.setCol c (copies 0 128)) q

/-- The columns of a layout: for each column j below n, its 128 positions. -/
def LayReg.columns (x : LayReg) (spadSize n : Nat) : List (List (Except Nat (Option Spot))) :=
  (upFrom 0 n).map fun j => (upFrom 0 128).map fun i => x.locate spadSize i j

def spotOf (p : Except Nat (Option Spot)) : Option Spot := match p with | .ok x => x | .error _ => none
def spotBad (p : Except Nat (Option Spot)) : Bool := match p with | .ok _ => false | .error _ => true

/-- The conflicts of the groups of a list of columns (R304). -/
def conflictsOf (l : List (List (Option Spot))) : Nat := (l.map fun c => bankConflicts (c.filterMap id)).foldl (· + ·) 0

/-- MLD (R311, R465). -/
def execMld (k : Ctl) (a b' c' : Opnd) (s : State) : Host.Outcome State Fault Refusal :=
  onMatrix s k fun b blk =>
    let q := blk.seq
    let x := q.xreg b'
    let c0 := (q.mreg a).toNat
    let n := (q.mreg c').toNat
    if x.bad then s.seqFault b 2
    else if x.esize ≠ 3 then s.seqFault b 3
    else if q.colsBad c0 n then s.seqFault b 4
    else
      let cols := x.columns blk.spadSize n
      if cols.any fun l => l.any spotBad then s.seqFault b 6
      else
        let spots := cols.map fun l => l.map spotOf
        let all := spots.flatten.filterMap id
        s.whenReady b blk .read all all fun s =>
          let val (p : Option Spot) : Word := match p with | some y => BitVec.ofNat 32 (s.spotNat b blk y) | none => 0
          s.seqNext b fun q =>
            let q1 := (spots.foldl (fun (w : Seq × Nat) l => (w.1.setCol w.2 (l.map val), w.2 + 1)) (q, c0)).1
            q1.addConflicts (conflictsOf spots)

/-- The element format of MST (R118). -/
def mFmt : MFmt → Fmt
  | .f32 => .f32 | .f16 => .f16 | .bf16 => .bf16 | .e4m3 => .e4m3 | .e5m2 => .e5m2 | .lns6 => .lns6 | .ob8 => .ob8
  | .ob4 => .ob4
/-- Its width in memory (R305). -/
def mEsize : MFmt → Nat
  | .f32 => 3 | .f16 => 2 | .bf16 => 2 | .ob4 => 0 | _ => 1
/-- Whether .rs stores take it (R144, R310). -/
def takesRs : MFmt → Bool
  | .f32 => false | .f16 => false | .bf16 => false | _ => true

/-- The rounding mode of the word in force, with the hash drawn for an element's address (R147, R310). -/
def storeMode (fw : Word) (h : Nat) : Mode :=
  match fwRound fw with
  | 0 => .rn | 1 => .rz | 2 => .rd | 3 => .ru | _ => .rs h

/-- The address by which .rs draws: a scratchpad element's is that of the aperture (R310). -/
def State.drawAddr (s : State) (ctx : Nat) (p : Spot) : Nat :=
  if p.spad then bits (s.ctx ctx).aper.toNat 0 27 * 2 ^ 30 + p.byte else p.byte

/-- One element stored (R310, R473): its code and its flags; a signalling scale sets invalid (DEDUCED, log 74). -/
def State.stElem (s : State) (blk : Block) (fmt : MFmt) (sat : Bool) (scale : Option Word) (acc : Word) (p : Spot) :
    Nat × Flags :=
  let seed := recSeed (s.launch blk.launch).record
  let md := storeMode blk.seq.fw (rsHash (s.drawAddr blk.ctx p) (p.nib == some true) seed)
  let (v, fl) := match scale with
    | some x => mulExact (ffF32.value acc.toNat) (ffF32.value x.toNat)
    | none => (ffF32.value acc.toNat, 0)
  let (c, fd) := fmtDeliver (mFmt fmt) blk.seq.binds.zst.toNat md sat v
  (c, fl ||| fd)

/-- MST (R310, R473). -/
def execMst (k : Ctl) (fmt : MFmt) (sat sc : Bool) (b' c' d e : Opnd) (s : State) : Host.Outcome State Fault Refusal :=
  onMatrix s k fun b blk =>
    let q := blk.seq
    let x := q.xreg b'
    let c0 := (q.mreg c').toNat
    let n := (q.mreg d).toNat
    if fwRound q.fw = 4 ∧ !takesRs fmt then s.seqFault b 5
    else if x.bad then s.seqFault b 2
    else if x.esize ≠ mEsize fmt then s.seqFault b 3
    else if q.colsBad c0 n then s.seqFault b 4
    else
      let cols := x.columns blk.spadSize n
      if cols.any fun l => l.any spotBad then s.seqFault b 6
      else
        let spots := cols.map fun l => l.map spotOf
        let all := spots.flatten.filterMap id
        s.whenReady b blk .write (if mEsize fmt = 0 then all.filter fun p => !p.spad && !s.isLocal p.byte else []) all fun s =>
          let scale := if sc then some (q.mreg e) else none
          let cells := (mapIdxed spots).flatMap fun col => (mapIdxed col.2).filterMap fun r =>
            r.2.map fun p => (p, s.stElem blk fmt sat scale (q.accAt (c0 + col.1) r.1) p)
          let s1 := cells.foldl (fun s y => s.putSpot b y.1 y.2.1) s
          s1.seqNext b fun q =>
            let fl := mstatOf (orFlags (cells.map fun y => y.2.2))
            { q.addConflicts (conflictsOf spots) with mstat := q.mstat ||| fl, mstatNow := q.mstatNow ||| fl }

/-! ### Meeting the waves (R312, R313) -/

/-- MWAIT (R312, R474): it passes once the barrier's phase differs from the recorded one, and takes the word latched at the release
that it passed (R296). -/
def execMwait (k : Ctl) (n : BitVec 4) (s : State) : Host.Outcome State Fault Refusal :=
  onMatrix s k fun b blk =>
    let bar := lget (Barrier.start 0) blk.bars n.toNat
    let old := blk.seq.phases.getLsbD n.toNat
    if blk.seq.passed.isNone && bar.phase == old then s.seqWait b (.waiting n)
    else
      let m := BitVec.ofNat 16 (2 ^ n.toNat)
      s.seqNext b fun q =>
        { q with fw := blk.seq.passed.getD bar.released, passed := none, phases := if old then q.phases &&& ~~~m else q.phases ||| m }

/-- A store of the sequencer is not yet visible (R313). -/
def State.seqStoresOut (s : State) (b : Nat) : Bool := s.posted.any fun p => p.blk == b && p.eng == some 4

/-- MSIG (R313, R472): a release at .die, then an arrival. -/
def execMsig (k : Ctl) (n : BitVec 4) (b' : Opnd) (s : State) : Host.Outcome State Fault Refusal :=
  onMatrix s k fun b blk =>
    s.withSrc b blk b' fun v =>
      if 33 < v.toNat then s.seqFault b 1
      else if s.seqStoresOut b then s.seqWait b .draining
      else
        let count := if v = 0 then none else some v.toNat
        let bar := (lget (Barrier.start 0) blk.bars n.toNat)
        let joined := bar.phase
        let m := BitVec.ofNat 16 (2 ^ n.toNat)
        ((s.onBlock b fun x => { x with bars := lset x.bars n.toNat (bar.arrive count) }).seqNext b fun q =>
          { q with phases := if joined then q.phases ||| m else q.phases &&& ~~~m }).onBlock b (·.wakeAt n)

/-- MEND (R313, R462). -/
def execMend (k : Ctl) (s : State) : Host.Outcome State Fault Refusal :=
  onMatrix s k fun b _ =>
    if s.seqStoresOut b then s.seqWait b .draining
    else (s.onSeq b fun q => { q with st := .ended }).retireIfDone b

/-! ### Registers and branches -/

/-- A jump of the stream (R301, R463): the target's bit must be set. -/
def State.seqJump (s : State) (b : Nat) (blk : Block) (off : BitVec 18) (f : Seq → Seq) : State :=
  match branchTarget blk.seq.pc off with
  | none => s.seqFault b 1
  | some t =>
    match s.transfer (coreOf b) blk.ctx t.toNat with
    | .trap kind _ => s.seqFault b (if kind = 0x0D then 8 else 1)
    | .held x =>
      (s.enterFault (s.localFault (dieOf (coreOf b)) blk.ctx t.toNat 3 x) (some (.seq b))).seqWait b
        (.heldAt [granuleOf t.toNat])
    | .refetch sa => (s.startRefetch (coreOf b) blk.ctx t.toNat sa).seqWait b .running
    | .away => (s.askLine (coreOf b) blk.ctx b 0 0 t.toNat).seqWait b (.filling [peerFetchKey t.toNat])
    | .ok sa l => ((s.keepLine (coreOf b) sa l).onSeq b f).seqTo b t

/-- MJMP (R463). -/
def execMjmp (k : Ctl) (off : BitVec 18) (s : State) : Host.Outcome State Fault Refusal :=
  onMatrix s k fun b blk => s.seqJump b blk off id

/-- MLOOP (R463). -/
def execMloop (k : Ctl) (a : Opnd) (off : BitVec 18) (s : State) : Host.Outcome State Fault Refusal :=
  onMatrix s k fun b blk =>
    let v := blk.seq.mreg a - 1
    if v = 0 then s.seqNext b fun q => q.setM a v else s.seqJump b blk off fun q => q.setM a v

/-- MADD (R457). -/
def execMadd (k : Ctl) (a b' c' : Opnd) (s : State) : Host.Outcome State Fault Refusal :=
  onMatrix s k fun b blk =>
    s.withSrc b blk c' fun v => s.seqNext b fun q => q.setM a (q.mreg b' + v)

/-- An origin plus a word, modulo 2^32 as a signed value (R457). -/
def originPlus (o : Int) (v : Word) : Int := (BitVec.ofInt 32 (o + v.toInt)).toInt

/-- MADD.r (R457). -/
def execMaddR (k : Ctl) (a b' : Opnd) (s : State) : Host.Outcome State Fault Refusal :=
  onMatrix s k fun b blk =>
    s.withSrc b blk b' fun v => s.seqNext b fun q =>
      let x := q.xreg a
      q.setX a { x with orow := originPlus x.orow v }

/-- MADD.c (R457). -/
def execMaddC (k : Ctl) (a b' : Opnd) (s : State) : Host.Outcome State Fault Refusal :=
  onMatrix s k fun b blk =>
    s.withSrc b blk b' fun v => s.seqNext b fun q =>
      let x := q.xreg a
      q.setX a { x with ocol := originPlus x.ocol v }

/-- MMOV (R467). -/
def execMmov (k : Ctl) (a b' : Opnd) (s : State) : Host.Outcome State Fault Refusal :=
  onMatrix s k fun b blk => s.withSrc b blk b' fun v => s.seqNext b fun q => q.setM a v

/-- MMOV.w (R467). -/
def execMmovW (k : Ctl) (a : Opnd) (lit : Word) (s : State) : Host.Outcome State Fault Refusal :=
  onMatrix s k fun b _ => s.seqNext b fun q => q.setM a lit

/-- MBCNT (R460). -/
def execMbcnt (k : Ctl) (clr : Bool) (a : Opnd) (s : State) : Host.Outcome State Fault Refusal :=
  onMatrix s k fun b _ => s.seqNext b fun q =>
    let q1 := q.setM a q.bankCount
    if clr then { q1 with bankCount := 0 } else q1

end Sys2Proof.Machine
end

