-- ==== Sys2Proof/Machine/System.lean ====
section
/-! DEFINITION. Class 0xA, scheduling, power and special registers (spec/03_state.md R82, R83; spec/08_tokens.md R175;
spec/09_governor.md R191, R195, R197; spec/15_scheduling.md R325 to R334; spec/19_ref_a_c.md R409, R417; spec/20_ref_e_i.md
R436; spec/21_ref_l_m.md R447, R448; spec/22_ref_n_r.md R480, R495; spec/23_ref_s_y.md R503, R505, R508, R512). -/

namespace Sys2Proof.Machine

/-- A release of the command processor writes nothing back, for it has no cache (R254); a wave's does. -/
def State.releaseSys (s : State) (c : Cur) (p : LaneSet) (go : State → State) : State :=
  match c.agent with
  | .wave _ _ => s.release c p .sys go
  | _ => if s.mustWaitCur c p .sys then s.waitAgain c p (.order .sys) else go s

/-- A stream of the command processor waits on a translation fault (R233, R523). -/
def State.holdCp (s : State) (q ctx va : Nat) (x : XFault) : State :=
  let s1 := s.enterFault (s.localFault ioTable ctx va 7 x) (some (.cp q))
  s1.setHwq q { s1.hwq q with wait := .held (granuleOf va) }

/-! ### LAUNCH (R329, R335, R447, R448) -/

/-- What LAUNCH finds in its lanes before any of them creates a launch. -/
inductive LaunchPlan where
  /-- Lane, record and descriptor. -/
  | go (l : List (Nat × List Byte × List Byte))
  | held (l : List (Nat × Nat × XFault))
  | poisoned
  | malformed
  deriving DecidableEq, Repr

/-- Reads and checks the record of every lane (R447). -/
def State.launchPlan (s : State) (c : Cur) (b : Opnd) : List Nat → LaunchPlan
  | [] => .go []
  | i :: t =>
    let here := s.readLaunch c.ctx ((s.rd64 c b i).toNat % 2 ^ 57)
    match here, s.launchPlan c b t with
    | .fault va x, .held l => .held ((i, va, x) :: l)
    | .fault va x, _ => .held [(i, va, x)]
    | _, .held l => .held l
    | .poisoned, _ => .poisoned
    | .malformed, _ => .malformed
    | .ok r d, .go l => if (recNode r).isSome then .malformed else .go ((i, r, d) :: l)
    | .ok _ _, p => p

/-- The issuing level has been cancelled (R64), or the context is torn down (R335). -/
def State.launchRefused (s : State) (c : Cur) : Bool :=
  s.tornDown c.ctx ||
  match c.agent with
  | .wave b _ => match s.block? b with | some x => (s.launch x.launch).counter.cancel | none => false
  | _ => false

/-- Creates the launch of one lane: the handle and status; none where no slot is free (R329). -/
def State.createOne (s : State) (c : Cur) (r d : List Byte) : Option (State × Word × Word) :=
  if s.launchRefused c then
    some (if s.tornDown c.ctx then s.countRefused c.ctx else s, 0xFFFFFFFF, 3)
  else match s.freeLaunch with
    | none => none
    | some l =>
      let s1 := match c.agent with
        | .cp q =>
          let h := s.hwq q
          s.createLaunch l r d c.ctx (capPrio r (bits h.cfg0.toNat 60 2)) none none (h.cur.map fun n => { q, seq := n })
        | _ => match s.block? c.bid with
          | some x => s.createLaunch l r d c.ctx (capPrio r x.prio) (some x.launch) none none
          | none => s
      some (s1, BitVec.ofNat 32 (launchHandle l (s1.launch l).gen), 0)

/-- Creates lane by lane until a lane finds no slot: the state, the results, and the lanes left. -/
def State.createAll (s : State) (c : Cur) : List (Nat × List Byte × List Byte) →
    State × List (Nat × Word × Word) × List Nat
  | [] => (s, [], [])
  | (i, r, d) :: t =>
    match s.createOne c r d with
    | none => (s, [], i :: t.map (·.1))
    | some (s1, h, st) =>
      let (s2, l, rest) := s1.createAll c t
      (s2, (i, h, st) :: l, rest)

/-- LAUNCH (R447). -/
def execLaunch (k : Ctl) (a b : Opnd) (s : State) : Host.Outcome State Fault Refusal :=
  onCur s fun c =>
    s.closing c fun s c =>
      let p := s.parts c k
      if p = 0 then s.complete c k b .zero .zero {}
      else s.releaseSys c p fun s =>
        match s.launchPlan c b (lanesOf p), c.agent with
        | .held l, .cp q => match l with | (_, va, x) :: _ => s.holdCp q c.ctx va x | [] => s
        | .held l, _ => s.faultLanes c 0 l
        | .poisoned, _ => s.raise c 0x0D 0 7
        | .malformed, _ => s.raise c 0x02 1 7
        | .go l, _ =>
          let (s1, done, rest) := s.createAll c l
          let wait := laneSet rest
          let c1 := { s1.recur c with active := c.active &&& ~~~wait }
          let out (i : Nat) : Quad := match done.find? fun x => x.1 == i with
            | some (_, h, st) => q64 (st ++ h)
            | none => 0
          if wait ≠ 0 ∧ c.agent = .cp c.bid then s1.waitAgain c p .launchSlot
          else match c.agent with
            | .cp _ => if wait = 0 then s1.complete c1 k b .zero .zero { writes := writesOf a 2 p out } else s1.waitAgain c p .launchSlot
            | _ =>
              (s1.complete c1 k b .zero .zero { writes := writesOf a 2 (p &&& ~~~wait) out }).onWave c.bid c.wid fun w =>
                w.mapLanes fun i x => if wait.getLsbD i then { x with st := .blocked .launchSlot, paid := true } else x

/-! ### GSIG, CANCEL, CNTR (R333, R334) -/

/-- Signals a node of the issuing context (R333, R436). -/
def State.signalNode (s : State) (ctx n : Nat) : State :=
  if (s.node n).ctx = ctx then (s.settleAll [.signal n]).startNodes else s

/-- GSIG (R436). -/
def execGsig (k : Ctl) (b : Opnd) (s : State) : Host.Outcome State Fault Refusal :=
  onCur s fun c =>
    let p := s.parts c k
    match s.paramTrap c p 1 [b] with
    | some x => s.paramStop c p x
    | none =>
      let ns := (lanesOf p).map fun i => (s.rd32 c b i).toNat
      let r : Result := { flags := s.paramFlags c p 1 [b] }
      if ns.any fun n => decide (65536 ≤ n) then s.raise c 0x02 1
      else s.closing c fun s c =>
        if p = 0 then s.complete c k b .zero .zero r
        else s.releaseSys c p fun s =>
          let s1 := ns.foldl (fun s n => s.signalNode c.ctx n) s
          s1.complete (s1.recur c) k b .zero .zero r

/-- One lane's CANCEL: the state and the status (R334, R409). -/
def State.cancelLane (s : State) (ctx : Nat) (h : Word) (hard : Bool) : State × Word :=
  match s.resolve ctx h with
  | none => (s, 2)
  | some lv => if (s.counter lv).done then (s, 1) else (s.cancel lv hard, 0)

/-- CANCEL lane by lane. -/
def State.cancelAll (s : State) (ctx : Nat) (hard : Bool) : List (Nat × Word) → State × List (Nat × Word)
  | [] => (s, [])
  | (i, h) :: t =>
    let (s1, st) := s.cancelLane ctx h hard
    let (s2, l) := s1.cancelAll ctx hard t
    (s2, (i, st) :: l)

/-- CANCEL (R409): statuses are written before a block that cancelled itself stops. -/
def execCancel (k : Ctl) (hard : Bool) (a b : Opnd) (s : State) : Host.Outcome State Fault Refusal :=
  onCur s fun c =>
    let p := s.parts c k
    match s.paramTrap c p 1 [b] with
    | some x => s.paramStop c p x
    | none =>
      let (s1, l) := s.cancelAll c.ctx hard ((lanesOf p).map fun i => (i, s.rd32 c b i))
      (s1.complete (s1.recur c) k b .zero .zero
        { writes := writesOf a 1 p fun i => q32 (handleOf l i), flags := s.paramFlags c p 1 [b] }).retireStopped

/-- What CNTR reads of a handle (R62, R417). -/
def State.cntrValue (s : State) (ctx : Nat) (h : Word) : Dword :=
  match s.resolve ctx h with
  | some lv => (s.counter lv).encode
  | none => BitVec.allOnes 64

/-- Whether the level of a handle is done. -/
def State.levelDone (s : State) (ctx : Nat) (h : Word) : Bool :=
  match s.resolve ctx h with
  | some lv => (s.counter lv).done
  | none => false

/-- CNTR (R417). -/
def execCntr (k : Ctl) (a b : Opnd) (s : State) : Host.Outcome State Fault Refusal :=
  onCur s fun c =>
    let p := s.parts c k
    match s.paramTrap c p 1 [b] with
    | some x => s.paramStop c p x
    | none =>
      let done := (lanesOf p).any fun i => s.levelDone c.ctx (s.rd32 c b i)
      (if done then s.acquire (some .sys) else s).complete c k b .zero .zero
        { writes := writesOf a 2 p fun i => q64 (s.cntrValue c.ctx (s.rd32 c b i)), flags := s.paramFlags c p 1 [b] }

/-! ### WAITV, SIGV (R326, R503, R512) -/

/-- The tag by which a reply finds a control stream. -/
def cpTag (q : Nat) : Nat := 2 ^ 63 + q

/-- One try of a waiting WAITV at a word of this package: it passes, waits, or faults (R326, R512). -/
def State.tryWaitv (s : State) (q ctx : Nat) (w : WaitA) : State :=
  let z := 4 * regs64 w.w64
  let va := w.ea.toNat % 2 ^ 57
  if s.addrWaits ctx va .read then s.setHwq q { s.hwq q with wait := .test w }
  else match s.readGlobal ctx va z with
  | .error x => s.holdCp q ctx va x
  | .ok none => s.cpFault q 6
  | .ok (some bs) =>
    if waitTest w.cmp (BitVec.ofNat 64 (ofBytes bs)) w.comparand then
      (s.acquire (some .sys)).setHwq q (s.hwq q).advance
    else s.setHwq q { s.hwq q with wait := .test w }

/-- WAITV (R326, R512); a peer's word is read at its owner. Outside a control stream it is not executable (R120). -/
def execWaitv (k : Ctl) (cmp : WCmp) (w64 : Bool) (b c' : Opnd) (s : State) : Host.Outcome State Fault Refusal :=
  onCur s fun c =>
    match c.agent with
    | .cp q =>
      if s.parts c k = 0 then s.complete c k b c' .zero {}
      else
        let z := 4 * regs64 w64
        let ea := s.rd64 c b 0
        let w : WaitA := { cmp, w64, acq := some .sys, ea, comparand := s.rd c .int (regs64 w64) c' 0 }
        if ea.toNat % z ≠ 0 then s.cpFault q 5
        else if s.isLocal ea.toNat then s.tryWaitv q c.ctx w
        else
          (s.request c.ctx clsDemand .load ea.toNat z [] (cpTag q)).setHwq q { s.hwq q with wait := .test w }
    | _ => s.raise c 0x01 0

/-- The word that SIGV leaves (R326). -/
def sigNew (op : SigOp) (z old x : Nat) : Nat :=
  match op with
  | .set => x
  | .add => (old + x) % 2 ^ (8 * z)
  | .max => max old x

/-- SIGV at a peer address: the posted access that does the same there. -/
def sigPeer : SigOp → PeerOp
  | .set => .write
  | .add => .red .add false
  | .max => .red .max false

/-- The launches of a stream's command that have not completed. -/
def Hwq.liveLaunches (h : Hwq) : Nat :=
  match h.cmds.find? fun c => some c.seq == h.cur with
  | some c => c.live
  | none => 0

/-- SIGV (R326, R503): a release at .sys; a peer's write completes when its owner has acknowledged it. -/
def execSigv (k : Ctl) (op : SigOp) (w64 done : Bool) (b c' : Opnd) (s : State) : Host.Outcome State Fault Refusal :=
  onCur s fun c =>
    match c.agent with
    | .cp q =>
      let p := s.parts c k
      if p = 0 then s.complete c k b c' .zero {}
      else
        let z := 4 * regs64 w64
        let va := (s.rd64 c b 0).toNat
        let x := (s.rd c .int (regs64 w64) c' 0).toNat
        if va % z ≠ 0 then s.cpFault q 5
        else if done ∧ (s.hwq q).liveLaunches ≠ 0 then s.setHwq q { s.hwq q with wait := .done }
        else s.releaseSys c p fun s =>
          if s.isLocal va then
            if s.addrWaits c.ctx va (if op = .set then .write else .atomic) then s.setHwq q { s.hwq q with wait := .home }
            else match s.translate c.ctx va (if op = .set then .write else .atomic) with
            | .error e => s.holdCp q c.ctx va e
            | .ok l => (s.homeWrite l.sa (bytesOf z (sigNew op z (s.homeNat l.sa z) x))).complete c k b c' .zero {}
          else
            (s.post 0 0 0 0 c.ctx (sigPeer op) va (bytesOf z x) clsDemand (some (8 + q))).setHwq q { s.hwq q with wait := .ack }
    | _ => s.raise c 0x01 0

/-! ### TKRD (R175) -/

/-- The price that TKRD.price gives (R175, R161). -/
def State.priceOf (s : State) (core : Nat) (y : Word) : Word :=
  let n := y.toNat
  if 256 ≤ n ∨ 11 < n % 16 then 0xFFFFFFFF else BitVec.ofNat 32 (s.priceOn core (s.cellPrice (n % 16) (n / 16)))

/-- TKRD (R175). -/
def execTkrd (k : Ctl) (sel : TkSel) (a b : Opnd) (s : State) : Host.Outcome State Fault Refusal :=
  regOp k a 1 1 b .zero .zero s fun c i =>
    let v : Word := match sel with
      | .core => BitVec.ofNat 32 (s.core c.core).bucket
      | .die => BitVec.ofNat 32 (min (s.die (dieOf c.core)).balance (2 ^ 32 - 1))
      | .rate => BitVec.ofNat 32 s.gov.g
      | .stall => c.wave.stall
      | .price => s.priceOf c.core (s.rd32 c b i)
    (q32 v, 0)

/-! ### PINT (R195, R197, R480) -/

/-- Fields of GOV_ECOLO (R197). -/
def ecJob (e : Dword) : Nat := bits e.toNat 0 16
def ecQ (e : Dword) : Nat := bits e.toNat 20 12
def ecSize (e : Dword) : Nat := bits e.toNat 35 13
def ecRank (e : Dword) : Nat := bits e.toNat 48 12

/-- The multicast group of the package's intents (R344). -/
def State.ecoGroup (s : State) : Nat := bits s.pkg.swlId.toNat 12 16

/-- Ecolo is in force (R197); the governor reads the group's entry through the tables of context 0 (log 22). -/
def State.ecoloOn (s : State) : Bool :=
  let e := s.gov.ecolo
  e.getLsbD 63 && decide (ecRank e < ecSize e) && (s.group 0 s.ecoGroup).isSome

/-- Posts an intent (R195): the state and the status of R480. -/
def State.postIntent (s : State) (rise t : Nat) : State × Nat :=
  let e := s.gov.ecolo
  if rise = 0 then (s, 3)
  else if s.gov.held.any fun x => x.t == t then
    ({ s with gov := { s.gov with held := s.gov.held.map fun x => if x.t = t then { x with rise := max x.rise rise } else x } }, 1)
  else
    let x : Intent := { job := ecJob e, rank := ecRank e, rise, t, admitted := false, deferred := false }
    let s1 := { s with gov := { s.gov with held := s.gov.held ++ [x] } }
    if s.ecoloOn then (s1.send (.intent s.ecoGroup (ecJob e) (ecRank e) rise t), 0) else (s1, 2)

/-- The number of the current governor interval (R183). -/
def State.interval (s : State) : Nat := s.now / 12500

/-- PINT (R480). -/
def execPint (k : Ctl) (n : BitVec 4) (a b : Opnd) (s : State) : Host.Outcome State Fault Refusal :=
  onCur s fun c =>
    let p := s.parts c k
    match s.paramTrap c p 1 [b] with
    | some x => s.paramStop c p x
    | none =>
      if p = 0 then s.complete c k b .zero .zero {}
      else
        let rise := min 1023 (((lanesOf p).map fun i => (s.rd32 c b i).toNat).foldl max 0)
        let (s1, st) := s.postIntent rise ((s.interval + n.toNat) % 65536)
        s1.complete c k b .zero .zero
          { writes := writesOf a 1 p fun _ => BitVec.ofNat 128 st, flags := s.paramFlags c p 1 [b] }

/-! ### RHINT (R191, R495) -/

/-- One lane's range: an entry of its die's queue, whose oldest gives way when it is full. The entry is translated here, line by
line: those of absent pages are dropped. -/
def State.hintLane (s : State) (c : Cur) (va n : Nat) : State :=
  let aper := (s.ctx c.ctx).aper.toNat
  let a := va % 2 ^ 57 / 128 * 128
  let inAper := a / 2 ^ 30 == bits aper 0 27 || a / 2 ^ 30 == bits aper 34 27
  if n = 0 ∨ inAper ∨ !s.isLocal a then s
  else
    let lines := (upFrom 0 (min n 64)).filterMap fun j => match s.translate c.ctx (a + 128 * j) .read with
      | .ok l => if s.isLocal (a + 128 * j) then some (lineOf l.sa) else none
      | .error _ => none
    let d := s.die (dieOf c.core)
    let q := if d.hints.length < 64 then d.hints else d.hints.drop 1
    s.setDie (dieOf c.core) { d with hints := q ++ [{ line := a / 128, count := min n 64, interval := s.interval, lines }] }

/-- RHINT (R495). -/
def execRhint (k : Ctl) (b c' : Opnd) (s : State) : Host.Outcome State Fault Refusal :=
  onCur s fun c =>
    let p := s.parts c k
    ((lanesOf p).foldl (fun s i => s.hintLane c (s.rd64 c b i).toNat (s.rd32 c c' i).toNat) s).complete c k b c' .zero {}

/-! ### Special registers (R82, R83, R505, R508) -/

/-- FPSTAT and MSTAT as 32-bit registers. -/
def stat32 {n : Nat} (x : BitVec n) : Word := x.setWidth 32

/-- %rgn (R82). -/
def Wave.rgnWord (w : Wave) : Word :=
  BitVec.ofNat 32 ((if w.region.isOpen then 1 else 0) + 2 * w.region.lines.length)

/-- %capq as a wave reads it (R82, R83, R193). -/
def State.capqWord (s : State) (c : Cur) : Word := c.wave.capqMin ++ (s.die (dieOf c.core)).capqCharge

/-- The special register of an index as a lane sees it (R82), none if the index is not assigned. -/
def State.special (s : State) (c : Cur) (blk : Block) (i idx : Nat) : Option Word :=
  let x := s.launch blk.launch
  let seed := recSeed x.record
  match idx with
  | 0x00 => some (BitVec.ofNat 32 i)
  | 0x01 => some (BitVec.ofNat 32 c.wid)
  | 0x02 => some (BitVec.ofNat 32 blk.index)
  | 0x03 => some (BitVec.ofNat 32 (recN x.record))
  | 0x04 => some (BitVec.ofNat 32 c.core)
  | 0x05 => some (BitVec.ofNat 32 s.pkgNo)
  | 0x06 => some (BitVec.ofNat 32 c.wave.s)
  | 0x07 => some (BitVec.ofNat 32 blk.prio)
  | 0x08 => some (BitVec.ofNat 32 (launchHandle blk.launch x.gen))
  | 0x09 => some (stat32 c.wave.fpstat)
  | 0x0A => some (stat32 blk.seq.mstat)
  | 0x0B => some c.wave.rgnWord
  | 0x0C => some (c.wave.lane i).chain
  | 0x0D => some (s.capqWord c)
  | 0x0E => some (BitVec.ofNat 32 (s.core c.core).bucket)
  | 0x0F => some (BitVec.ofNat 32 (s.die (dieOf c.core)).op)
  | 0x10 => some (s.clk.setWidth 32)
  | 0x11 => some (c.wave.clkhi.getD (s.clk.extractLsb' 32 32))
  | 0x12 => some (seed.setWidth 32)
  | 0x13 => some (seed.extractLsb' 32 32)
  | 0x14 => some c.wave.trapCause
  | 0x15 => some (c.wave.trapPc.setWidth 32)
  | _ => none

/-- What reading special registers leaves in the wave: %clklo latches %clkhi, a read of %clkhi uses the latch up, and a read
of %capq clears the wave's minimum (R83, R505). -/
def Wave.afterSrd (w : Wave) (idx : List Nat) (now : Dword) : Wave :=
  { w with
    clkhi := if idx.contains 0x10 then some (now.extractLsb' 32 32) else if idx.contains 0x11 then none else w.clkhi
    capqMin := if idx.contains 0x0D then BitVec.allOnes 16 else w.capqMin }

/-- SRD (R505). -/
def execSrd (k : Ctl) (a b : Opnd) (s : State) : Host.Outcome State Fault Refusal :=
  onBlk s k .zero fun c blk p =>
    let idx (i : Nat) : Nat := (s.rd32 c b i).toNat
    if (lanesOf p).any fun i => (s.special c blk i (idx i)).isNone then s.raise c 0x02 1
    else
      (s.complete c k b .zero .zero
        { writes := writesOf a 1 p fun i => q32 ((s.special c blk i (idx i)).getD 0) }).onWave c.bid c.wid fun w =>
          w.afterSrd ((lanesOf p).map idx) s.clk

/-- SWR (R508): only %fpstat and %mstat accept writes, and both are W1C; a flag of %mstat that was set in this clock stays (R81). -/
def execSwr (k : Ctl) (b c' : Opnd) (s : State) : Host.Outcome State Fault Refusal :=
  onCur s fun c =>
    let p := s.parts c k
    match s.paramTrap c p 1 [b, c'] with
    | some x => s.paramStop c p x
    | none =>
      let idx := distinct ((lanesOf p).map fun i => (s.rd32 c b i).toNat)
      let v := (lanesOf p).foldl (fun m i => m ||| s.rd32 c c' i) (0 : Word)
      let r : Result := { flags := s.paramFlags c p 1 [b, c'] }
      match idx with
      | [] => s.complete c k b c' .zero {}
      | [0x09] =>
        (s.complete { c with wave := { c.wave with fpstat := w1c c.wave.fpstat v } } k b c' .zero r)
      | [0x0A] =>
        (s.complete c k b c' .zero r).onSeq c.bid fun q => { q with mstat := w1c q.mstat v ||| q.mstatNow }
      | _ => s.raise c 0x02 1

end Sys2Proof.Machine
end

