-- ==== Sys2Proof/Machine/Runs.lean ====
section
/-! DEFINITION. Which lanes of a wave may issue, the runs that they form, rotation among them, and a block's sequencer
(spec/02_execution.md R34 to R39; spec/04_encoding.md R112; spec/11_regions.md R239, R245; spec/22_ref_n_r.md R496). -/

namespace Sys2Proof.Machine

/-- Lanes that translation faults hold at a slot (R239, R97). -/
def Wave.heldLanes (w : Wave) : LaneSet := (w.held.filter fun h => h.pend.isNone).foldl (fun m h => m ||| h.lanes) 0
/-- The wave waits after the abort of its region (R245 step 5). -/
def Wave.aborted (w : Wave) : Bool := w.held.any (·.abortWait)

/-- Lanes that may take part in a run: live, not held, and trapped if the wave is in trap mode (R34, R239, R496). -/
def Wave.freeLanes (w : Wave) : LaneSet :=
  (lanesWhere fun i => (w.lane i).isLive) &&& ~~~w.heldLanes &&& (if w.trapMode then w.trapped else allLanes)

/-- A lane has issued all that the window of a pending result allows (R112). -/
def Wave.windowShut (w : Wave) (i : Nat) : Bool :=
  w.pend.any fun p => p.left.any fun x => x.1 == i && x.2 == 0

/-- The runs of some lanes: the lanes of each PC, in ascending PC order (R35). -/
def Wave.runsOf (w : Wave) (m : LaneSet) : List LaneSet :=
  ((lanesOf m).foldl (fun l i => sins l (w.lane i).pc.toNat) []).map fun pc =>
    lanesWhere fun i => m.getLsbD i && (w.lane i).pc.toNat == pc

/-- The ready runs of a wave, in ascending PC order (R35, R112). -/
def Wave.readyRuns (w : Wave) : List LaneSet :=
  if w.aborted then []
  else (w.runsOf w.freeLanes).filter fun m => !(lanesOf m).any w.windowShut

/-! ### Rotation (R38, R39) -/

/-- Lanes of a set that are live. -/
def Wave.liveOf (w : Wave) (m : LaneSet) : LaneSet := lanesWhere fun i => m.getLsbD i && (w.lane i).isLive

/-- Ends the entries whose service is over, and the sweep after its last entry (R38 steps 4 and 5, R39). -/
def settleRot (live : LaneSet → LaneSet) : Nat → Rot → Rot
  | 0, r => r
  | n + 1, r =>
    match r.snap with
    | [] => r
    | e :: rest =>
      if live e == 0 || decide (64 ≤ r.served) then
        let left := rest.filter fun x => live x &&& ~~~r.last != 0
        settleRot live n { count := if left.isEmpty then 0 else r.count, last := 0, snap := left, served := 0 }
      else r

/-- The wave with its rotation settled. -/
def Wave.settled (w : Wave) : Wave := { w with rot := settleRot w.liveOf 33 w.rot }

/-- The selected run (R36, R38), none if the wave offers none. Where the lanes of the entry in service have parted, it is the
ready run of the lowest PC that holds any of them (DESIGN CHOICE, log 69: the spec says the run that holds the entry's lanes). -/
def Wave.selected (w : Wave) : Option LaneSet :=
  let runs := w.readyRuns
  match w.rot.snap with
    | [] => runs.head?
    | e :: _ => runs.find? fun m => m &&& w.liveOf e != 0

/-- The rotation after an issue of a run (R38 step 1, R39). -/
def Wave.counted (w : Wave) (m : LaneSet) : Wave :=
  match w.rot.snap with
    | _ :: _ => { w with rot := { w.rot with served := w.rot.served + 1, last := w.rot.last ||| m } }
    | [] =>
      if 1 < w.readyRuns.length then { w with rot := { w.rot with count := w.rot.count + 1, last := m } }
      else { w with rot := { w.rot with count := 0, last := m } }

/-- A sweep is due (R38 step 2). -/
def Wave.sweepDue (w : Wave) : Bool := decide (64 ≤ w.rot.count) && w.rot.snap.isEmpty

/-- Takes the snapshot of the other ready runs (R38 steps 2 and 6). -/
def Wave.takeSnapshot (w : Wave) : Wave :=
  let others := w.readyRuns.filter fun m => m &&& w.rot.last == 0
  { w with rot := { count := if others.isEmpty then 0 else w.rot.count, last := 0, snap := others, served := 0 } }

/-! ### Accesses that wait for earlier ones (R239, R243) -/

/-- The classes of instructions whose accesses earlier ones of the wave may order: memory, ordering and engines; and EXIT,
which commits (R126, R244). -/
def ordersAccess (op : Nat) : Bool := op == 0x006 || op / 64 == 6 || op / 64 == 7 || op / 64 == 8

/-- A lane has an issued access that is held or still to be performed, or that acquires (R239, R259). -/
def Wave.accessHeld (w : Wave) (i : Nat) : Bool :=
  w.pend.any (fun p => p.lanes.getLsbD i && !p.ready && (p.again.isSome || p.acq.isSome)) ||
  w.held.any fun h => h.pend.isSome && h.lanes.getLsbD i

/-- The yield bit of an instruction (R52). -/
def yieldsOf (i : Instr) : Bool := match i.form with | some f => f.k.yieldBit | none => false

/-- A load, whose lane's outstanding loads of other places need not come first (R259). -/
def isLoad : Instr → Bool
  | .ld .. | .ldp .. | .ldchain .. | .prf .. => true
  | _ => false

/-- A lane has an issued access that is outstanding. -/
def Wave.accessOut (w : Wave) (i : Nat) : Bool := w.pend.any fun p => p.lanes.getLsbD i && !p.ready

/-- An access of some lanes waits: committed stores of the wave do (R243), earlier accesses of the lanes are held or acquire, or it
is no load and an earlier access is outstanding (R239, R259). -/
def Wave.mustFollow (w : Wave) (lanes : LaneSet) (i : Instr) : Bool :=
  match i.form with
  | some f => ordersAccess f.op &&
      (!w.commit.isEmpty || (lanesOf lanes).any fun j => if isLoad i then w.accessHeld j else w.accessOut j)
  | none => false

/-- The lanes issue nothing more until what they must follow has been performed: they wait for the committed stores, or their
windows shut. -/
def Wave.follow (w : Wave) (lanes : LaneSet) : Wave :=
  if w.commit.isEmpty then
    { w with pend := w.pend.map fun p =>
        if p.ready then p else { p with left := p.left.map fun x => if lanes.getLsbD x.1 then (x.1, 0) else x } }
  else w.mapLanes fun i l => if lanes.getLsbD i then { l with st := .blocked (.order .pkg) } else l

/-! ### Blocks and sequencers -/

/-- The partition of a wave of a block (R46). -/
def Block.partOf (b : Block) (i : Nat) : Nat := (b.p0 + i) % 4

/-- After an instruction has issued, the service of an entry that it ended is over at once (R38 step 4). -/
def State.afterIssue (s : State) : State :=
  match s.issue with
  | none => s
  | some x => match x.agent with
    | .wave b i => s.onWave b i Wave.settled
    | _ => s

/-- A block issues until it is stopped or being saved (R63, R338). -/
def Block.runs (b : Block) : Bool := b.stopped.isNone && !b.saving

/-- A wave offers a ready run (R49). -/
def Block.offers (b : Block) (w : Wave) : Bool := b.runs && w.selected.isSome

/-- The sequencer of a block that is being saved has an instruction in hand, which completes before the save (R316). -/
def Block.finishing (b : Block) : Bool := b.stopped.isNone && b.saving && b.seq.paid && b.seq.mma.isNone

/-- The sequencer of a block can issue (R312, R313). -/
def State.seqReady (s : State) (b : Nat) (blk : Block) : Bool :=
  (blk.runs || blk.finishing) && match blk.seq.st with
    | .running => true
    | .draining => !s.seqStoresOut b
    | _ => false

end Sys2Proof.Machine
end

