-- ==== Sys2Proof/Machine/EvWave.lean ====
section
/-! DEFINITION. Events of waves: rotation, results, waits, promotions (spec/02_execution.md R38; spec/04_encoding.md R95, R112;
spec/12_consistency.md R266, R277 to R280; spec/13_engines.md R290 to R293; spec/16_fabric.md R347, R364;
spec/23_ref_s_y.md R504, R511). An event whose condition does not hold, or that names nothing, changes nothing. -/

namespace Sys2Proof.Machine

/-- ROTATION_SWEEP (R38 steps 2 and 3): the wave takes a snapshot of its other ready runs. -/
def execRotationSweep (blk wave : Nat) (s : State) : Host.Outcome State Fault Refusal :=
  .next (s.onWave blk wave fun w => if w.sweepDue then w.takeSnapshot else w)

/-! ### Results (R112, R347, R522) -/

/-- Lanes of a wave that wait in one WAITA with a lane. -/
def Wave.waitaGroup (w : Wave) (lane : Nat) : LaneSet :=
  lanesWhere fun i => match (w.lane i).st with
    | .blocked (.waita _) => (w.lane i).pc == (w.lane lane).pc
    | _ => false

/-- A WAITA whose word is poisoned traps as a whole (R511); while the wave handles another trap its lanes keep waiting. -/
def State.waitaPoison (s : State) (b i lane : Nat) : State :=
  match s.wave? b i with
  | none => s
  | some w =>
    let g := w.waitaGroup lane
    if w.trapMode ∨ g = 0 then s
    else (s.onWave b i fun w => w.mapLanes fun j l => if g.getLsbD j then { l with st := .live } else l).takeTrap b i g 0x0D 0
      (s.priceOn (coreOf b) (s.cellPrice 6 7))

/-- A line of another package arrives (R347): it is kept for 20 µs (R257), unless an invalidation of it has crossed it (R349), and
lanes and sequencers that asked for it go on. Where its owner answered with poison, sequencers fault (R315) and lanes trap
(R221). -/
def State.fillLine (s : State) (va : Nat) (data : List Byte) : State :=
  let line := peerLine va
  let waits (p : Nat × Block) : Bool := match p.2.seq.st with | .filling l => l.contains line | _ => false
  let onLine (y : Lane) : Bool := match y.st with | .blocked (.line a) => peerLine a == line | _ => false
  let asking := (s.blocks.filter fun p => p.2.waves.any fun w => w.lanes.any onLine).map fun p => (coreOf p.1, line * 128)
  let dead := ((s.misses.find? fun m => m.1 == line).map (·.2)).getD false
  let s0 := State.onBlocks { s with misses := s.misses.eraseP fun m => m.1 == line } fun _ x =>
    { x with waves := x.waves.map fun w => w.mapLanes fun _ l => if onLine l then { l with st := .live } else l }
  if data.length = 128 then
    let s1 := if dead then s0
      else { s0 with peerCopies := tput s0.peerCopies line data }.later (s.now + 25000) (.invalidation s.pkgNo (line * 128))
    s1.onBlocks fun _ x => match x.seq.st with
      | .filling l =>
        let left := l.filter (· != line)
        { x with seq := { x.seq with
            st := if left.isEmpty then (if x.seq.mma.isSome then .mma else .running) else .filling left } }
      | _ => x
  else
    let s1 := { s0 with fetchBad := s0.fetchBad ++ asking.filter fun y => !s0.fetchBad.contains y }
    (s.blocks.filter waits).foldl (fun s p => s.seqFault p.1 8) s1

/-- A fetch line of another package arrives (R97, R209): the core keeps it, and the waves and sequencers that wait for it go on. A
copy whose parity disagrees is asked for once more (R94, R95); a poisoned line traps, or faults the sequencer. -/
def State.fillFetch (s : State) (core : Nat) (va : Nat) (data : List Byte) : State :=
  let line := lineAt (va % 2 ^ 57)
  let key := peerFetchKey va
  let l := lineOfBytes data
  let x := s.core core
  let onLine (y : Lane) : Bool := match y.st with | .blocked (.line a) => a == line | _ => false
  let asked := s.blocks.any fun p => coreOf p.1 == core && p.2.waves.any fun w => w.lanes.any onLine
  let again := data.length = 64 ∧ (parityBad l).isSome ∧ !x.refetch.contains (key / 64)
  let s1 := { s with fetchAsks := s.fetchAsks.filter fun y => y != (core, line) }
  let s2 := if data.length ≠ 64 then { s1 with fetchBad := if asked && !s1.fetchBad.contains (core, line) then s1.fetchBad ++ [(core, line)] else s1.fetchBad }
    else if again then s1.setCore core { x with refetch := sins x.refetch (key / 64) }
    else s1.setCore core { x with refetch := sdel x.refetch (key / 64), icache := tput x.icache (key / 64) l }
  let wake (l : Lane) : Lane := if onLine l then { l with st := .live } else l
  let waits (p : Nat × Block) : Bool := coreOf p.1 == core && match p.2.seq.st with | .filling l => l.contains key | _ => false
  let s3 := s2.onBlocks fun b x =>
    if coreOf b = core then
      { x with
        waves := x.waves.map fun w => w.mapLanes fun _ l => wake l
        seq := match x.seq.st with
          | .filling l => if l.contains key then { x.seq with st := .running } else x.seq
          | _ => x.seq }
    else x
  if data.length = 64 then s3 else (s.blocks.filter waits).foldl (fun s p => s.seqFault p.1 8) s3

/-- One lane's reply (R112, R347): its value joins the instruction's results; a poisoned one traps the instruction. -/
def State.laneReply (s : State) (b i id : Nat) (x : Nat × Option Quad) : State :=
  match x.2 with
  | some q => s.onWave b i fun w => w.addReply id x.1 q
  | none => if id = 2 ^ 31 then s.waitaPoison b i x.1 else s.poisonReply b i id

/-- LOOKAHEAD_RESULT_WRITE (R112): replies come in, a line of another package is kept, and a complete result is written. -/
def execLookaheadResultWrite (blk wave id : Nat) (vals : List (Nat × Option Quad)) (fill : Option (Nat × List Byte))
    (s : State) : Host.Outcome State Fault Refusal :=
  let s1 := vals.foldl (fun s x => s.laneReply blk wave id x) s
  let s2 := match fill with
    | some (va, data) => if id = fetchId then s1.fillFetch (coreOf blk) va data else s1.fillLine va data
    | none => s1
  .next (((s2.performAgain blk wave id).finishPend blk wave id).retireIfDone blk)

/-- LINE_REFETCH (R95): the core drops its copy and reads the line again; a copy that agrees is kept. A disagreement that
remains traps each wave that meets it (R94). -/
def execLineRefetch (core ctx va : Nat) (s : State) : Host.Outcome State Fault Refusal :=
  let c := s.core core
  match s.translate ctx (lineAt va) .exec with
  | .error _ => .next (s.setCore core { c with refetch := [] })
  | .ok leaf =>
    let l := lineOfBytes (s.viewBytes core leaf.sa 64)
    let c1 := { c with refetch := sdel c.refetch (leaf.sa / 64), icache := tdel c.icache (leaf.sa / 64) }
    let s1 := s.setCore core c1
    .next (if (parityBad l).isSome || s.isPoisoned leaf.sa then s1 else s1.keepLine core leaf.sa l)

/-! ### Waits that end (R290 to R293, R329, R504) -/

/-- Whether a lane's wait is for the first push, or pop, that a queue serves, and how many lanes take part (R293). -/
def Block.firstAt (b : Block) (q : BitVec 3) (push : Bool) (since : Nat) : Bool :=
  (b.queueWaits q push).all fun n => decide (since ≤ n)

/-- Lanes of a wave that block in one queue instruction. -/
def Wave.queueLanes (w : Wave) (since : Nat) : LaneSet :=
  lanesWhere fun i => match (w.lane i).st with
    | .blocked (.queue _ _ _ n _ _) => n == since
    | _ => false

/-- Lanes go on with the next slot. -/
def Wave.wakeNext (w : Wave) (m : LaneSet) : Wave :=
  w.mapLanes fun i l => if m.getLsbD i then { l with st := .live, pc := succPc l.pc, paid := false, waitsTo := none } else l

/-- A waiting push is served once the queue has room (R292). -/
def State.servePush (s : State) (b i : Nat) (blk : Block) (w : Wave) (q : BitVec 3) (since : Nat) : State :=
  let m := w.queueLanes since
  let val (j : Nat) : Word := match (w.lane j).st with | .blocked (.queue _ _ _ _ _ v) => v | _ => 0
  if (blk.queue q).free < (lanesOf m).length ∨ (blk.queue q).served then s
  else (s.setBlock b (((lanesOf m).foldl (fun x j => x.push q (val j)) blk).serve q)).onWave b i fun w => w.wakeNext m

/-- A waiting pop is served once enough slots are filled (R292). -/
def State.servePop (s : State) (b i : Nat) (blk : Block) (w : Wave) (q : BitVec 3) (since : Nat) (dst : Opnd) : State :=
  let m := w.queueLanes since
  let n := (lanesOf m).length
  if (blk.queue q).canPop n && !(blk.queue q).served then
    let b1 := blk.setQueue q ((blk.queue q).giveBack (lget 0 w.popped q.toNat))
    let (b2, hs) := b1.popAll q (lanesOf m)
    let w1 := ({ w with popped := lset w.popped q.toNat n }.putAll (writesOf dst 1 m fun j => q32 (handleOf hs j))).wakeNext m
    s.setBlock b ((b2.serve q).setWave i w1)
  else s

/-- Every barrier that a BCW of the wave names reads zero, for the lanes at one PC (R290). -/
def Block.bcwDone (b : Block) (w : Wave) (pc : Pc) : Bool :=
  w.lanes.all fun l => match l.st with
    | .blocked (.bcw off) => l.pc != pc || b.bcZero off
    | _ => true

/-- A lane whose wait for a count, for room or for a launch slot is over. -/
def State.waitOver (s : State) (b : Nat) (blk : Block) (w : Wave) (l : Lane) : Bool :=
  match l.st with
  | .blocked (.bcw _) => blk.bcwDone w l.pc
  | .blocked (.room mask n) => (s.core (coreOf b)).hasRoom mask n
  | .blocked .launchSlot => s.freeLaunch.isSome
  | _ => false

/-- The order numbers of a wave's lanes that wait at queues. -/
def Wave.queueNumbers (w : Wave) : List Nat :=
  distinct (w.lanes.filterMap fun l => match l.st with | .blocked (.queue _ _ _ n _ _) => some n | _ => none)

/-- Serves one waiting queue instruction of a wave if it is the first of its kind at its queue. -/
def State.serveQueue (s : State) (b i : Nat) (n : Nat) : State :=
  match s.block? b, s.wave? b i with
  | some blk, some w =>
    match ((lowLane (w.queueLanes n)).map fun j => (w.lane j).st) with
    | some (.blocked (.queue q push _ _ dst _)) =>
      if !blk.firstAt q push n then s
      else if push then s.servePush b i blk w q n
      else s.servePop b i blk w q n dst
    | _ => s
  | _, _ => s

/-- WAIT_RESUME (R290, R292, R293): lanes whose condition holds go on. A waiting QPUSH or QPOP is performed, in the order in
which they blocked; the others issue again. -/
def execWaitResume (blk wave : Nat) (s : State) : Host.Outcome State Fault Refusal :=
  match s.block? blk, s.wave? blk wave with
  | some x, some w =>
    let s1 := s.onWave blk wave fun w => w.mapLanes fun _ l => if s.waitOver blk x w l then { l with st := .live } else l
    .next (w.queueNumbers.foldl (fun s n => s.serveQueue blk wave n) s1)
  | _, _ => .next s

/-- SLEEP_WAKE (R504): the lane is live once its deadline has come. -/
def execSleepWake (blk wave lane : Nat) (s : State) : Host.Outcome State Fault Refusal :=
  .next (s.onWave blk wave fun w =>
    let l := w.lane lane
    match l.st with
    | .blocked (.sleep t) => if t.toNat ≤ s.now then w.setLane lane { l with st := .live } else w
    | _ => w)

/-! ### WAITA (R511) -/

/-- A lane passes its WAITA with an acquire, or keeps waiting. -/
def State.waitaTry (s : State) (b i lane : Nat) (w : WaitA) (x : Dword) : State :=
  if waitTest w.cmp x w.comparand then
    (s.acquire w.acq).onWave b i fun wv =>
      wv.setLane lane { wv.lane lane with st := .live, pc := succPc (wv.lane lane).pc, paid := false, waitsTo := none }
  else s

/-- A translation fault while a lane waits (R511): it is held, or the open region aborts (R239, R245). -/
def State.waitaFault (s : State) (b i lane : Nat) (blk : Block) (va : Nat) (x : XFault) : State :=
  let s1 := s.enterFault (s.localFault (dieOf (coreOf b)) blk.ctx va 0 x) (some (.wave b i))
  match s1.wave? b i with
  | none => s1
  | some w =>
    let h : Held := { lanes := laneSet [lane], ctx := blk.ctx, granule := granuleOf va, remote := false, abortWait := false }
    if w.inRegion then
      (s1.abortOn b i).onWave b i fun w => { w with held := w.held ++ [{ h with lanes := 0, abortWait := true }] }
    else
      s1.onWave b i fun w => { w.setLane lane { w.lane lane with st := .live } with held := w.held ++ [h] }

/-- Reads the word of a waiting lane again at a place of this package. -/
def State.waitaHere (s : State) (b i lane : Nat) (blk : Block) (wv : Wave) (w : WaitA) (t : Steer) : State :=
  let z := 4 * regs64 w.w64
  match s.atOf blk.ctx .read t with
  | .error (va, x) => s.waitaFault b i lane blk va x
  | .ok a =>
    if s.readWaits (coreOf b) wv z a then s.later (s.now + 1) (.waitaReread b i lane none)
    else if s.readsPoison (coreOf b) wv z a then s.waitaPoison b i lane
    else match s.loadAt (coreOf b) blk wv z false a with
      | some bs => s.waitaTry b i lane w (BitVec.ofNat 64 (ofBytes bs))
      | none => s

/-- WAITA_REREAD (R511): a word of this package is read; one of a peer is asked for, and its answer tested; a failed test
asks again after 2 µs. -/
def execWaitaReread (blk wave lane : Nat) (peerVal : Option Dword) (s : State) : Host.Outcome State Fault Refusal :=
  match s.block? blk, s.wave? blk wave with
  | some x, some wv =>
    match (wv.lane lane).st with
    | .blocked (.waita w) =>
      let z := 4 * regs64 w.w64
      let t := s.steer x wave lane (w.ea.toNat : Int) z
      let peer := match t with
        | .spad _ _ => none
        | .stack va _ => if s.isLocal va then none else some va
        | .global va => if s.isLocal va then none else some va
      .next (match peer, peerVal with
        | none, _ => s.waitaHere blk wave lane x wv w t
        | some va, none =>
          if (s.loadAt (coreOf blk) x wv z false (.peer va)).isSome then s.waitaHere blk wave lane x wv w t
          else s.askWord x.ctx blk wave lane va z
        | some va, some v0 =>
          let v := BitVec.ofNat 64 (overlay ((upFrom 0 z).map fun j => wv.buffered (.peer (va + j))) v0.toNat z)
          if waitTest w.cmp v w.comparand then s.waitaTry blk wave lane w v
          else s.later (s.now + rereadClocks) (.waitaReread blk wave lane none))
    | _ => .next s
  | _, _ => .next s

/-! ### Earlier accesses (R266, R313, R519) -/

/-- ACCESS_PERFORMED (R519, R243, R266): the wave's committed stores are performed as far as their releases let them; lanes and a
sequencer that waited for earlier writes go on once they are visible. -/
def execAccessPerformed (blk wave : Nat) (s : State) : Host.Outcome State Fault Refusal :=
  let s0 := s.commitMore blk wave
  let free := ((s0.wave? blk wave).map (·.commit.isEmpty)).getD true
  let s1 := s0.onWave blk wave fun w => w.mapLanes fun _ l => match l.st with
    | .blocked (.order sc) => if s0.mustWait blk sc l.waitsTo || !free then l else { l with st := .live }
    | _ => l
  .next (State.retireStopped <| s1.onSeq blk fun q => match q.st with
    | .draining => if s.seqStoresOut blk then q else { q with st := .running }
    | _ => q)

/-! ### Promotions (R277 to R280, R364) -/

/-- A wave awaits a promotion that a core of this package has not served. -/
def State.promoOut (s : State) (b i : Nat) : Bool :=
  s.cores.any fun c => c.2.promos.any fun p => p.local? == some (b, i)

/-- ACQP_COMPLETE (R278, R364): an acknowledgement of another package may come in; with every one in, the lanes acquire and go
on. -/
def execAcqpComplete (blk : Nat) (wave : WaveAck) (s : State) : Host.Outcome State Fault Refusal :=
  let i := wave.wave
  let s1 := match wave.ack with
    | some n => s.onWave blk i fun w => { w with acks := w.acks.filter (· != n) }
    | none => s
  match s1.wave? blk i with
  | none => .next s1
  | some w =>
    if s1.promoOut blk i ∨ !w.acks.isEmpty then .next s1
    else
      let scope (l : Lane) : Option Scope := match l.st with | .blocked (.acqp sc) => some sc | _ => none
      let m := lanesWhere fun j => (scope (w.lane j)).isSome
      let s2 := (w.lanes.filterMap scope).foldl (fun s sc => s.acquire (some sc)) s1
      .next (s2.onWave blk i fun w => w.wakeNext m)

/-- The tags of a promotion cover a log entry (R276, R278). -/
def Promo.covers (p : Promo) (e : LogEntry) : Bool := p.tags.any fun t => t.1 == e.slot.toNat && t.2 == e.blk.toNat

/-- The latest of some generations, as a counter now sees them. -/
def latestGen (now : Word) : List Word → Option Word
  | [] => none
  | g :: t => match latestGen now t with
    | none => some g
    | some h => some (if genLe now g h then h else g)

/-- Writes back, to the level that serves a scope, every write of a core up to a generation (R278). -/
def State.promoteAt (s : State) (core : Nat) (sc : Scope) (g : Word) : State :=
  let near : State := if s.dirtyUpTo core 0 g then s.toDie core else s
  match sc with
  | .blk => s
  | .clu => if s.isFelted core then s else near
  | .die => near
  | _ => s.promoteTo core g

/-- The first service of a promotion: write-backs and the clearing of its log entries; answers the generation up to which
posted writes are awaited (R278). -/
def State.firstService (s : State) (core : Nat) (p : Promo) : State × Word :=
  let c := s.core core
  match latestGen c.writeGen ((c.log.filter p.covers).map (·.gen)) with
  | none => (s, c.writeGen)
  | some g =>
    let s1 := s.promoteAt core p.scope g
    let c1 := s1.core core
    (s1.setCore core { c1 with log := c1.log.filter fun e => !(p.covers e && genLe c1.writeGen e.gen g) }, g)

/-- A posted write of a core up to a generation is unacknowledged. -/
def State.postedUpTo (s : State) (core : Nat) (g : Word) : Bool :=
  s.posted.any fun p => p.core == core && p.eng.isNone && genLe (s.core core).writeGen p.gen g

/-- Acknowledges a promotion: a local wave finds it served; another package is told once all its targets are (R364). -/
def State.promoAck (s : State) (p : Promo) : State :=
  match p.remote with
  | none => s
  | some r =>
    if s.cores.any fun c => c.2.promos.any fun x => x.remote == some r then s else s.sendJob p.job (.promoteAck r.1 r.2.1)

/-- Serves the oldest promotion of a core (R278); under .sys it stays until posted writes, and the invalidations of its own
write-backs (R349), are acknowledged, and the core's logged releases are stalled. -/
def State.servePromo (s : State) (core : Nat) : State :=
  match (s.core core).promos with
  | [] => s
  | p :: rest =>
    let (s1, g) := match p.upTo with
      | some g => (s, g)
      | none => s.firstService core p
    let c := s1.core core
    if p.scope = .sys ∧ (s1.postedUpTo core g ∨ !s1.invalWait.isEmpty) then s1.setCore core { c with promos := { p with upTo := some g } :: rest }
    else (s1.setCore core { c with promos := rest }).promoAck p

/-- A promotion of another package joins the queues of its target cores; with no target it is acknowledged at once (R364). -/
def State.takeRemote (s : State) (r : RemotePromo) : State :=
  let key := (r.srcPkg, r.id, s.freeCtr)
  match s.ctxOfJob r.job with
  | none => s.numbered (.promoteAck r.srcPkg r.id)
  | some ctx =>
    let s1 := s.ackSaved ctx (r.handle.setWidth 64) r.blk
    let ts := (joinTargets (s1.localTargets ctx r.handle r.blk)).filterMap fun t => match t with
      | .core n tags => some (n, tags)
      | _ => none
    if ts.isEmpty then s1.sendCtx ctx (.promoteAck r.srcPkg r.id)
    else ts.foldl (fun s t =>
      let c := s.core t.1
      (s.setCore t.1 { c with
        promos := c.promos ++ [{ scope := r.scope, tags := t.2, local? := none, remote := some key, upTo := none, job := r.job }] }).soon
          (.promote t.1 none)) s1

/-- PROMOTE (R278, R280, R364): the core's oldest promotion is served; one of another package first finds its targets. -/
def execPromote (core : Nat) (remote : Option RemotePromo) (s : State) : Host.Outcome State Fault Refusal :=
  .next (match remote with
    | some r => s.takeRemote r
    | none => s.servePromo core)

/-- An entry lags the write generation by 2^30 or more (R277). -/
def LogEntry.old (e : LogEntry) (now : Word) : Bool := decide (2 ^ 30 ≤ (now - e.gen).toNat)

/-- PROMO_LOG_AGE_EVICT (R277). -/
def execPromoLogAgeEvict (core : Nat) (s : State) : Host.Outcome State Fault Refusal :=
  let c := s.core core
  .next (match c.log.find? fun e => e.old c.writeGen with
    | none => s
    | some e =>
      let s1 := s.promoteTo core e.gen
      let c1 := s1.core core
      s1.setCore core { c1 with log := c1.log.filter (· != e) })

end Sys2Proof.Machine
end

