-- ==== Sys2Proof/Machine/Peer.lean ====
section
/-! DEFINITION. What this package does as the owner of an address that another package accesses (spec/11_regions.md R250,
R251; spec/16_fabric.md R345 to R349, R355, R356; spec/17_collectives.md R371). -/

namespace Sys2Proof.Machine

/-- A request waits in a die's inbound FIFO. -/
def State.enqueueFifo (s : State) (d : Nat) (r : PeerReq) : State :=
  s.waitAtHome d (.peerAccess r)

/-- The die whose links bring a request in: six ports a die (R22, R346). -/
def peerDie (r : PeerReq) : Nat := r.port / 6 % 8

/-- A request that no context serves, or whose granule is fatal (R251, R355). -/
def State.refusePeer (s : State) (r : PeerReq) : State :=
  if peerReads r.op then
    (s.sendJob r.job (.faultPending r.srcPkg r.tag (granuleOf r.addr))).sendJob r.job (.notice r.srcPkg ⟨granuleOf r.addr, r.job⟩ true)
  else s.sendJob r.job (.drop r.srcPkg r.tag r.cls)

/-- A request whose translation fails at this owner (R233, R250, R251): reads are answered fault-pending, writes are held; with
a full table the request tries again. -/
def State.faultPeer (s : State) (ctx : Nat) (r : PeerReq) (x : XFault) : State :=
  let f : FaultRec := { table := (peerDie r), va := r.addr, srcPkg := r.srcPkg, ctx, kind := x.kind, access := peerAccessCode r
                        level := x.level, remote := true }
  let known := (s.mergeTable (peerDie r)).any fun e => e.ctx == ctx && e.granule == granuleOf r.addr
  if !known ∧ tableRoom (peerDie r) ≤ (s.mergeTable (peerDie r)).length then s.enqueueFifo (peerDie r) r
  else if peerReads r.op then
    (s.enterFault f (some (.remote r.srcPkg))).sendCtx ctx (.faultPending r.srcPkg r.tag (granuleOf r.addr))
  else s.enterFault f (some (.posted r))

/-! ### Tagged writes of collectives (R377 to R380) -/

/-- The instance of a collective that this package has started last: its entry's inst. -/
def State.instOf (s : State) (ctx c : Nat) : Option Nat :=
  (s.gather ctx (s.pkg.collBase.toNat % 2 ^ 57 + 64 * c + 16) 8).map ofBytes

/-- Bytes that the area of a collective in a stack holds. -/
def State.earlyBytes (s : State) (c k : Nat) : Nat :=
  ((s.early.filter fun e => e.c == c && stackOf e.sa == k).map fun e => e.req.data.length).foldl (· + ·) 0

/-- A tagged write that has been translated: performed, held until its instance starts, or refused (R380). -/
def State.gateTagged (s : State) (ctx c m sa : Nat) (r : PeerReq) : State :=
  let refuse := s.sendCtx ctx (.collRefused r.srcPkg c m r.tag)
  match s.instOf ctx c with
  | none => refuse
  | some i =>
    if m ≤ i then s.performAt ctx r sa
    else if m = i + 1 ∧ s.pkg.eaBase.getLsbD 63 ∧ c ≤ 62 ∧ s.earlyBytes c (stackOf sa) + r.data.length ≤ 65536 then
      { s with early := s.early ++ [{ c, m, ctx, sa, req := r }] }
    else refuse

/-- A request at its storage address: a tagged write through its gate. -/
def State.performTagged (s : State) (ctx : Nat) (r : PeerReq) (sa : Nat) : State :=
  match r.inst with
  | some x => if peerReads r.op then s.performAt ctx r sa else s.gateTagged ctx x.1 x.2 sa r
  | none => s.performAt ctx r sa

/-- A request in its turn: authenticated, translated in the tables of its job's context, performed (R355, R356). -/
def State.performPeer (s : State) (r : PeerReq) : State :=
  if r.enc ∧ !r.authOk then
    (s.logEvent 10 0 0 []).sendJob r.job (if peerReads r.op then .reply r.srcPkg r.tag none r.cls else .drop r.srcPkg r.tag r.cls)
  else match s.ctxOfJob r.job with
    | none => s.refusePeer r
    | some ctx =>
      match s.translate ctx r.addr (peerNeed r.op) with
      | .error x => s.faultPeer ctx r x
      | .ok l => if s.accessWaits l.sa then s.enqueueFifo (homeDie l.sa) r else s.performTagged ctx r l.sa

/-- Entries of 64 bytes that an access takes in a FIFO (R181). -/
def fifoEntries : Instr → Nat
  | .peerAccess r => max 1 ((r.data.length + 63) / 64)
  | _ => 1

/-- A die's inbound FIFO has no room: its 256 entries are taken (R181). -/
def Die.fifoFull (d : Die) : Bool := decide (256 ≤ (d.fifo.map fifoEntries).sum)

/-- A request that would wait in a full FIFO: its link has no credits, so that it is not delivered (R181). -/
def State.fifoBlocks (s : State) (r : PeerReq) : Bool :=
  match s.ctxOfJob r.job with
  | none => false
  | some ctx => match s.translate ctx r.addr (peerNeed r.op) with
    | .error _ => false
    | .ok l => s.accessWaits l.sa && (s.die (homeDie l.sa)).fifoFull

/-- The triple of a request (R346); that of a chain packet, and whether a chain packet is its triple's number n. -/
def peerTriple (r : PeerReq) : Nat := r.srcPkg * 8 + r.cls
def chainTriple (k : ChainPkt) : Nat := k.via * 8 + clsDemand
def chainIs (key n : Nat) (k : ChainPkt) : Bool := chainTriple k == key && k.seq == some n

/-- Performs the packets of a triple that have come early, while the next one is there (R346). -/
def State.drainOrder (s : State) (key : Nat) : Nat → State
  | 0 => s
  | n + 1 =>
    let want := tget 0 s.seqIn key
    let next := tset 0 s.seqIn key ((want + 1) % 2 ^ 24)
    match s.reorder.find? fun r => (peerTriple r) == key && r.seq == want with
    | some r =>
      if s.fifoBlocks r then s
      else State.drainOrder ({ s with reorder := s.reorder.filter (· != r), seqIn := next }.performPeer r) key n
    | none =>
      match s.reorderChains.find? (chainIs key want) with
      | none => s
      | some k =>
        State.drainOrder ({ s with reorderChains := s.reorderChains.filter (· != k), seqIn := next }.chainRun 8 { k with seq := none }) key n

/-- The packets that wait in the reorder buffer. -/
def State.early? (s : State) : Nat := s.reorder.length + s.reorderChains.length

/-- A number of a triple has been performed already or waits: a packet that has it is a duplicate (R346). -/
def State.duplicate (s : State) (key n : Nat) : Bool :=
  decide (2 ^ 23 ≤ (n + 2 ^ 24 - tget 0 s.seqIn key) % 2 ^ 24) || s.reorder.any (fun x => peerTriple x == key && x.seq == n) ||
    s.reorderChains.any (chainIs key n)

/-- A request arrives (R346): performed in sequence order, held while it is early, discarded if it is a duplicate. -/
def State.takePeer (s : State) (r : PeerReq) : State :=
  if s.duplicate (peerTriple r) r.seq then s
  else State.drainOrder { s with reorder := s.reorder ++ [r] } (peerTriple r) (s.early? + 1)

/-- A chain packet arrives in the same order, or goes on at this package (R346, R362). -/
def State.takeChain (s : State) (k : ChainPkt) : State :=
  match k.seq with
  | none => s.chainRun 8 k
  | some n =>
    if s.duplicate (chainTriple k) n then s
    else State.drainOrder { s with reorderChains := s.reorderChains ++ [k] } (chainTriple k) (s.early? + 1)

/-- Requests that had no credits are delivered. -/
def State.deliverWaiting (s : State) : State :=
  (distinct (s.reorder.map peerTriple)).foldl (fun s key => s.drainOrder key (s.early? + 1)) s

/-- The accesses of this package's lanes, sequencers and control streams that wait for homes are tried again. -/
def State.wakeHomes (s : State) : State :=
  let s1 := s.onBlocks fun _ x => { x with
    waves := x.waves.map fun w => w.mapLanes fun _ l => match l.st with | .blocked .home => { l with st := .live } | _ => l
    seq := match x.seq.st with
      | .homeAway => { x.seq with st := if x.seq.mma.isSome then .mma else .running }
      | _ => x.seq }
  let s2 : State := { s1 with hwqs := s1.hwqs.map fun (h : Nat × Hwq) =>
    (h.1, if h.2.wait = CpWait.home then { h.2 with wait := .no } else h.2) }
  s2.blocks.foldl (fun s p => (upFrom 0 p.2.waves.length).foldl (fun s i => s.performAll p.1 i) s) s2

/-- A die's homes may be reached again: the accesses that wait in its inbound FIFO are performed, in order, then those that had no
credits, and what waits in this package's cores (R181). -/
def State.drainFifo (s : State) (d : Nat) : State :=
  let l := (s.die d).fifo
  (l.foldl (fun s i => match i with
    | .peerAccess r => s.performPeer r
    | i => { s with agenda := s.agenda ++ [.ev i] }) (s.setDie d { s.die d with fifo := [] })).deliverWaiting.wakeHomes

/-- Every die's FIFO is drained. -/
def State.drainFifos (s : State) : State := (upFrom 0 8).foldl (fun s d => s.drainFifo d) s

/-- PEER_ACCESS (R355). -/
def execPeerAccess (req : PeerReq) (s : State) : Host.Outcome State Fault Refusal := .next (s.takePeer req)

end Sys2Proof.Machine
end

