-- ==== Sys2Proof/Machine/EvMem.lean ====
section
/-! DEFINITION. Events of memory and translation: fault records, answers of the driver, invalidations, write-backs, posted
writes, chains (spec/11_regions.md R233 to R252; spec/12_consistency.md R257, R266; spec/16_fabric.md R347 to R349, R362). -/

namespace Sys2Proof.Machine

/-! ### Fault records and retries (R235, R237) -/

/-- FAULT_RECORD_EMIT (R235): the oldest waiting record is written once the ring has space. -/
def execFaultRecordEmit (s : State) : Host.Outcome State Fault Refusal := .next s.emitOne

/-- Whether a merge table holds the entry of a key. -/
def State.inTable (s : State) (t ctx granule : Nat) : Bool :=
  (s.mergeTable t).any fun e => e.ctx == ctx && e.granule == granule

/-- A local fault of a block that its die's table holds no entry for: the table was full (R233), or the range was
invalidated. -/
def State.stray (s : State) (b ctx granule : Nat) (remote : Bool) : Bool :=
  !remote && !s.inTable (dieOf (coreOf b)) ctx granule

/-- Whether a granule belongs to this package. -/
def State.ownGranule (s : State) (g : Nat) : Bool := s.isLocal (g * 65536)

/-- A sequencer no longer waits for some granules; with none left it goes on (R315). -/
def Seq.unhold (q : Seq) (p : Nat → Bool) : Seq :=
  match q.st with
  | .heldAt gs =>
    let left := gs.filter fun g => !p g
    { q with st := if left.isEmpty then (if q.mma.isSome then .mma else .running) else .heldAt left }
  | _ => q


/-! ### The driver's answer (R236, R238, R251) -/

/-- The head entry of a request-engine queue is changed. -/
def State.onHead (s : State) (core q : Nat) (f : ReEntry → ReEntry) : State :=
  let c := s.core core
  match lget [] c.reQueues q with
  | [] => s
  | e :: rest => s.setCore core { c with reQueues := lset c.reQueues q (f e :: rest) }

/-- The head entry of a queue waits on a granule: it goes on, or ends (R288). -/
def ReEntry.answer (e : ReEntry) (ctx granule : Nat) (fatal : Bool) : ReEntry :=
  if e.held = some granule ∧ e.ctx = ctx then { e with held := none, fatal := e.fatal || fatal } else e

/-- A ring access of a queue fails: the queue halts (R320, R321, R324). -/
def State.ringFault (s : State) (q kind : Nat) : State :=
  let h := s.hwq q
  let cfg := h.cfg0.toNat
  let cfg1 := cfg - bits cfg 40 8 * 2 ^ 40 - bits cfg 62 1 * 2 ^ 62 + kind * 2 ^ 40 + 2 ^ 62
  (s.setHwq q { h with cfg0 := BitVec.ofNat 64 cfg1, ringWait := none, ringDead := kind == 6 }).interrupt (s.queueVector q true)

/-- The command processor hears of a granule (R234, R236): the access is made again, or the queue faults. -/
def State.answerCp (s : State) (q granule : Nat) (fatal : Bool) : State :=
  let h := s.hwq q
  let s1 := match h.ringWait with
    | some (g, kind) =>
      if g = granule then (if fatal then s.ringFault q kind else s.setHwq q { h with ringWait := none }) else s
    | none => s
  let h1 := s1.hwq q
  if h1.wait = .held granule then
    if fatal then s1.cpFault q 6 else s1.setHwq q { h1 with wait := .no }
  else s1

/-- The granules of this package that a queue waits on, in its stream or at its ring. -/
def Hwq.heldGranules (h : Hwq) : List Nat :=
  (match h.wait with | .held g => [g] | _ => []) ++ (h.ringWait.map (·.1)).toList

/-- A granule that an access waits on has no entry in a table: the table was full (R233). -/
def State.strayAt (s : State) (t ctx granule : Nat) : Bool := s.ownGranule granule && !s.inTable t ctx granule

/-- TRANSLATION_RETRY (R237): accesses of a wave, and of its block's sequencer, that found the merge table full walk again, and
instructions of the wave that nothing holds any longer are performed. Wave 64 + q names the request engine's queue q of the
block's core, wave 128 + q hardware queue q. -/
def execTranslationRetry (blk wave : Nat) (s : State) : Host.Outcome State Fault Refusal :=
  .next (if 128 ≤ wave then
      let h := s.hwq (wave - 128)
      (h.heldGranules.filter fun g => s.strayAt ioTable h.ctxNo g).foldl (fun s g => s.answerCp (wave - 128) g false) s
    else if 64 ≤ wave then
      s.onHead (coreOf blk) (wave - 64) fun e => match e.held with
        | some g => if s.strayAt (dieOf (coreOf blk)) e.ctx g then e.answer e.ctx g false else e
        | none => e
    else
      let s1 := (s.releaseHeld blk wave fun h => s.stray blk h.ctx h.granule h.remote).performAll blk wave
      match s.block? blk with
      | none => s1
      | some x => s1.onSeq blk fun q => q.unhold fun g => s.stray blk x.ctx g (!s.ownGranule g))

/-- Releases one waiter of an entry (R236, R238, R250, R251). -/
def State.releaseWaiter (s : State) (ctx granule : Nat) (fatal : Bool) (w : Waiter) : State :=
  match w with
  | .wave b i =>
    if fatal then s.failBlock b else s.releaseHeld b i fun h => h.ctx == ctx && h.granule == granule && !h.remote
  | .seq b => if fatal then s.failBlock b else s.onSeq b fun q => q.unhold (· == granule)
  | .engine core q => s.onHead core q fun e => e.answer ctx granule fatal
  | .cp q => s.answerCp q granule fatal
  | .remote src => s.sendCtx ctx (.notice src ⟨granule, (s.ctx ctx).fabric.setWidth 16⟩ fatal)
  | .posted r => if fatal then s.sendCtx ctx (.drop r.srcPkg r.tag r.cls) else s.performPeer r

/-- The waiting records of an entry that is freed keep their places, and report no entry (R235). -/
def State.orphanRecords (s : State) (ctx granule t : Nat) : State :=
  { s with faultWait := s.faultWait.map fun r =>
      if r.table = t ∧ r.ctx = ctx ∧ granuleOf r.va = granule then { r with table := 9 } else r }

/-- Frees the entry of a key in one table and releases its waiters in list order (R236). A fatal answer to an incoming scale-out
access is kept for it (R366). -/
def State.resolveTable (s : State) (ctx granule : Nat) (fatal : Bool) (t : Nat) : State :=
  let mine (e : MergeEntry) : Bool := e.ctx == ctx && e.granule == granule
  let l := s.mergeTable t
  if !l.any mine then s
  else
    let ws := (l.filter mine).flatMap (·.waiters)
    let s1 := (s.setMergeTable t (l.filter fun e => !mine e)).orphanRecords ctx granule t
    let s2 := if fatal && l.any (fun e => mine e && e.sco) then { s1 with scoFatal := s1.scoFatal ++ [(ctx, granule)] } else s1
    ws.foldl (fun s w => s.releaseWaiter ctx granule fatal w) s2

/-- TRN_RESOLVE (R236, R523): status 0 resident, 1 fatal; in every merge table. -/
def execTrnResolve (val : Dword) (s : State) : Host.Outcome State Fault Refusal :=
  let v := val.toNat
  let status := bits v 62 2
  let granule := bits v 16 41
  let ctx := bits v 8 8
  .next (if 2 ≤ status then s
    else ((upFrom 0 9).foldl (fun s t => s.resolveTable ctx granule (status == 1) t) s).drainFifos)

/-! ### Invalidation of translations (R249) -/

/-- Whether an address lies in the range of a TRN_INVAL value. -/
def invalCovers (v : Dword) (va : Nat) : Bool :=
  let first := bits v.toNat 16 41
  let n := 2 ^ bits v.toNat 57 5
  decide (first ≤ granuleOf va) && decide (granuleOf va < first + n)

/-- Aborts the open region of a wave whose buffer holds a line translated through the range (R249). -/
def State.invalWave (s : State) (v : Dword) (ctx b i : Nat) : State :=
  match s.block? b, s.wave? b i with
  | some blk, some w =>
    if blk.ctx ≠ ctx then s
    else
      let hit := w.region.isOpen && w.region.stores.any fun x => !x.isFence && invalCovers v x.va && s.isLocal x.va
      if hit then s.abortOn b i else s
  | _, _ => s

/-- A wave that waits after an abort goes on waiting for a granule through an invalidation (R245 step 5). -/
def State.staysLinked (s : State) (ctx granule : Nat) : Waiter → Bool
  | .wave b i => (s.wave? b i).any fun w => w.held.any fun h => h.abortWait && h.ctx == ctx && h.granule == granule && !h.remote
  | _ => false

/-- An access that waits on an entry walks again (R249): a wave's, a sequencer's, an engine's, the command processor's, a posted
write's; a requester of another package is told to ask again. -/
def State.walkAgain (s : State) (ctx granule : Nat) : Waiter → State
  | .wave b i => s.releaseHeld b i fun h => !h.abortWait && h.ctx == ctx && h.granule == granule && !h.remote
  | w => s.releaseWaiter ctx granule false w

/-- The accesses held in a table on granules of an invalidated range are translated again; the entries stay (R249). -/
def State.invalTable (s : State) (v : Dword) (t : Nat) : State :=
  let ctx := bits v.toNat 8 8
  let mine (e : MergeEntry) : Bool := e.ctx == ctx && invalCovers v (e.granule * 65536)
  let l := s.mergeTable t
  let hit := l.filter mine
  let s1 := s.setMergeTable t (l.map fun e =>
    if mine e then { e with waiters := e.waiters.filter (s.staysLinked ctx e.granule) } else e)
  hit.foldl (fun s1 e => (e.waiters.filter fun w => !s.staysLinked ctx e.granule w).foldl
    (fun s w => s.walkAgain ctx e.granule w) s1) s1

/-- Every wave, and every held access, meets an invalidation. -/
def State.invalAll (s : State) (v : Dword) : State :=
  let ctx := bits v.toNat 8 8
  let s1 := s.blocks.foldl (fun s p => (upFrom 0 p.2.waves.length).foldl (fun s i => s.invalWave v ctx p.1 i) s) s
  (upFrom 0 9).foldl (fun s t => s.invalTable v t) s1

/-- TRN_INVAL (R249): go is ignored while an invalidation runs. -/
def execTrnInval (val : Dword) (s : State) : Host.Outcome State Fault Refusal :=
  .next (if !val.getLsbD 63 || !s.pkg.invalDone then s
    else ({ s with pkg := { s.pkg with invalDone := false, inval := val } }.invalAll val).soon .trnInvalDone)

/-- TRN_INVAL_DONE (R249): no access uses a dropped translation from here on. -/
def execTrnInvalDone (s : State) : Host.Outcome State Fault Refusal :=
  .next (if s.pkg.invalDone then s
    else
      let s1 := s.invalAll s.pkg.inval
      { s1 with pkg := { s1.pkg with invalDone := true } })

/-! ### Faults at another owner (R250) -/

/-- A lane waits in WAITA, or for a fetch line of a granule. -/
def Lane.inWaita (l : Lane) : Bool := match l.st with | .blocked (.waita _) => true | _ => false
def Lane.onLineOf (l : Lane) (granule : Nat) : Bool :=
  match l.st with | .blocked (.line a) => granuleOf a == granule | _ => false

/-- The issued instruction of a wave that asked an owner for a word of a granule in some lane that is not yet held. -/
def Wave.askedAt (w : Wave) (lanes : LaneSet) (granule : Nat) : Option Pending :=
  w.pend.find? fun p => p.reqs.any fun r =>
    lanes.getLsbD r.lane && p.waiting.getLsbD r.lane && granuleOf r.va == granule &&
    !w.held.any fun h => h.pend == some p.id && h.lanes.getLsbD r.lane

/-- A core no longer waits for the fetch lines of a granule that it asked for: they are asked for again after the notice. -/
def State.dropAsks (s : State) (core granule : Nat) : State :=
  { s with fetchAsks := s.fetchAsks.filter fun y => !(y.1 == core && granuleOf y.2 == granule) }

/-- Lanes of a wave whose WAITA or fetch line waits at an owner that replies fault-pending: they are held at their slot; for a
WAITA in an open region the region aborts (R239, R245, R250, R97). -/
def State.waitFault (s : State) (b i ctx : Nat) (w : Wave) (lanes : LaneSet) (granule : Nat) : State :=
  let h : Held := { lanes := 0, ctx, granule, remote := true, abortWait := false }
  let waita := lanes &&& lanesWhere fun j => (w.lane j).inWaita
  let line := lanesWhere fun j => (w.lane j).onLineOf granule
  let hold (m : LaneSet) (w : Wave) : Wave :=
    { w.mapLanes fun j l => if m.getLsbD j then { l with st := .live } else l with held := w.held ++ [{ h with lanes := m }] }
  if waita ≠ 0 then
    if w.inRegion then (s.abortOn b i).onWave b i fun w => { w with held := w.held ++ [{ h with abortWait := true }] }
    else s.onWave b i (hold waita)
  else if line ≠ 0 then (s.dropAsks (coreOf b) granule).onWave b i (hold line)
  else s

/-- FAULT_PENDING_REPLY (R250): the lanes of an access are held, or its open region aborts. With no lane it concerns the
sequencer; wave 64 + q names the request engine's queue q of the block's core, wave 128 + q hardware queue q. -/
def execFaultPendingReply (blk wave : Nat) (lanes : LaneSet) (granule : Nat) (s : State) : Host.Outcome State Fault Refusal :=
  if 128 ≤ wave then
    let h := s.hwq (wave - 128)
    .next (match h.wait with
      | .test _ => s.setHwq (wave - 128) { h with wait := .held granule }
      | _ => s)
  else if 64 ≤ wave then
    .next (s.onHead (coreOf blk) (wave - 64) fun e => if e.asked then { e with asked := false, held := some granule } else e)
  else if lanes = 0 then
    .next (State.onSeq { s.dropAsks (coreOf blk) granule with
      misses := s.misses.filter fun m => granuleOf (m.1 * 128) != granule } blk fun q =>
      match q.st with | .filling _ => { q with st := .heldAt [granule] } | _ => q)
  else match s.block? blk, s.wave? blk wave with
    | some x, some w =>
      match w.askedAt lanes granule with
      | some p => .next (s.pendFault blk wave p.id (p.waiting &&& lanes) granule true)
      | none => .next (s.waitFault blk wave x.ctx w lanes granule)
    | _, _ => .next s

/-- A context's accesses carry a job (R355). -/
def State.hasJob (s : State) (ctx : Nat) (job : BitVec 16) : Bool := (s.ctx ctx).fabric.setWidth 16 == job

/-- A hold waits for a notice. -/
def State.noticed (s : State) (n : NoticeOf) (h : Held) : Bool :=
  h.remote && h.granule == n.granule && s.hasJob h.ctx n.job

/-- The waves of a block hear of a remote granule (R250); a fatal answer fails the block (R238). A block that has stopped no longer
waits: it discards the notice. -/
def State.noticeBlock (s : State) (n : NoticeOf) (fatal : Bool) (p : Nat × Block) : State :=
  let inSeq : Bool := match p.2.seq.st with | .heldAt l => l.contains n.granule | _ => false
  if p.2.stopped.isSome ∨ !s.hasJob p.2.ctx n.job then s
  else if fatal && (inSeq || p.2.waves.any fun w => w.held.any (s.noticed n)) then s.failBlock p.1
  else
    ((upFrom 0 p.2.waves.length).foldl (fun s i => s.releaseHeld p.1 i (s.noticed n)) s).onSeq p.1 fun q => q.unhold (· == n.granule)

/-- The request-engine queues of the package hear of a remote granule. -/
def State.noticeEngines (s : State) (n : NoticeOf) (fatal : Bool) : State :=
  let tell (l : List ReEntry) : List ReEntry := match l with
    | e :: t => (if s.hasJob e.ctx n.job then e.answer e.ctx n.granule fatal else e) :: t
    | [] => []
  { s with cores := s.cores.map fun c => (c.1, { c.2 with reQueues := c.2.reQueues.map tell }) }

/-- FAULT_NOTICE (R250): the owner's outcome of a granule of its window, for the accesses of a job, releases or fails those that
wait for it. -/
def execFaultNotice (srcPkg : Nat) (granule : NoticeOf) (fatal : Bool) (s : State) : Host.Outcome State Fault Refusal :=
  .next (if ownerOf (granule.granule * 65536) ≠ srcPkg ∨ srcPkg = s.pkgNo then s
    else
      let s1 := s.blocks.foldl (fun s p => s.noticeBlock granule fatal p) s
      let s2 := s1.noticeEngines granule fatal
      s2.hwqs.foldl (fun s h => if s.hasJob h.2.ctxNo granule.job then s.answerCp h.1 granule.granule fatal else s) s2)

/-! ### Write-back, posted writes, invalidations (R257, R266, R348, R349) -/

/-- LINE_WRITEBACK_DEADLINE (R257): what a core wrote 20 µs ago or earlier is written back to its home, with what is in the same
caches. -/
def execLineWritebackDeadline (core : Nat) (s : State) : Host.Outcome State Fault Refusal :=
  let old (d : DirtyByte) : Bool := d.core == core && d.old s.clk
  .next (if s.dirty.any old then s.toHome core else s)

/-- The launches of a context fail (R251): resident blocks stop, blocks not yet placed complete without running. -/
def State.failLaunch (s : State) (l : Nat) : State :=
  let x := s.launch l
  if !x.alive then s
  else
    let unplaced := recN x.record - x.nextBlk + x.rerun.length
    let savedN := (s.saved.filter fun v => v.blk.launch == l).length
    let resident := s.blocks.filter fun p => p.2.launch == l
    let s1 := { s.setLaunch l { x with nextBlk := recN x.record, rerun := [] } with
      saved := s.saved.filter fun v => v.blk.launch != l }
    let s2 := if unplaced + savedN = 0 then s1
      else
        let y := s1.launch l
        (s1.setLaunch l { y with counter := { y.counter with
          outstanding := y.counter.outstanding - (unplaced + savedN) + 1 } }).settleAll [.launch l 2]
    resident.foldl (fun s p => s.failBlock p.1) s2

/-- Every launch of a context that still runs fails. -/
def State.failContext (s : State) (ctx : Nat) : State :=
  (s.launches.filter fun p => p.2.alive && p.2.ctx == ctx).foldl (fun s p => s.failLaunch p.1) s

/-- The writer of a posted write hears of it: an engine's entry, or a control stream. -/
def State.ackWriter (s : State) (p : Posted) (fatal : Bool) : State :=
  match p.eng with
  | none => s
  | some e =>
    if e < 4 then s.onHead p.core e fun x => { x with acks := x.acks - 1, fatal := x.fatal || fatal }
    else if e < 8 then s
    else
      let h := s.hwq (e - 8)
      if h.wait = .ack then (if fatal then s.cpFault (e - 8) 6 else s.setHwq (e - 8) h.advance) else s

/-- A fatal answer to a posted write (R251): a record with access 5 that joins no merge entry, and the context's launches
fail. A write of an engine is counted with the fault flag instead (R288), and a control stream takes CP fault 6 (R326). -/
def State.postedFatal (s : State) (p : Posted) : State :=
  if p.eng.any (· != 4) then s
  else
    let r : FaultRec := { table := 9, va := p.va, srcPkg := s.pkgNo, ctx := p.ctx, kind := 0, access := 5, level := 0
                          remote := false }
    (State.emitOne { s with faultWait := s.faultWait ++ [r] }).failContext p.ctx

/-- POSTED_WRITE_ACK (R266, R251): the owner has performed a posted write, or a fatal answer has dropped it. -/
def execPostedWriteAck (id : Nat) (fatal : Bool) (s : State) : Host.Outcome State Fault Refusal :=
  match s.posted.find? fun p => p.id == id with
  | none => .next s
  | some p =>
    let s1 := { s with posted := s.posted.filter fun x => x.id != id }.ackWriter p fatal
    .next (if fatal then s1.postedFatal p else s1).retireStopped

/-- INVALIDATION (R348, R349, R257): the package drops its copy of a line, and one that is on its way once it is there, and
acknowledges; its own request is a copy's age. -/
def execInvalidation (srcPkg va : Nat) (s : State) : Host.Outcome State Fault Refusal :=
  let line := peerLine va
  let s1 := { s with
    peerCopies := s.peerCopies.filter fun x => x.1 != line
    misses := s.misses.map fun m => if m.1 = line ∧ srcPkg ≠ s.pkgNo then (m.1, true) else m }
  .next (if srcPkg = s.pkgNo then s1 else s1.send (.invalidateAck srcPkg va))

/-- INVALIDATION_ACK (R349): answers and releases that waited for it go on. -/
def execInvalidationAck (srcPkg va : Nat) (s : State) : Host.Outcome State Fault Refusal :=
  .next (State.retireStopped (State.releaseAcks { s with invalWait := s.invalWait.erase (srcPkg, va) }))

/-! ### Chains (R252, R362, R363) -/

/-- CHAIN_STEP (R362): this package, as an owner, reads and forwards. -/
def execChainStep (pkt : ChainPkt) (s : State) : Host.Outcome State Fault Refusal := .next (s.takeChain pkt)

/-- CHAIN_REPLY (R362). -/
def execChainReply (id attempt : Nat) (result : ChainEnd) (s : State) : Host.Outcome State Fault Refusal :=
  .next (s.chainEnded id attempt true result)

/-- The lane of a tracker is held by a translation fault, so that its timer does not run. -/
def State.trackerHeld (s : State) (t : Tracker) : Bool :=
  match s.wave? t.blk t.wave with
  | some w => w.heldLanes.getLsbD t.lane || w.aborted
  | none => false

/-- CHAIN_TIMEOUT (R362): the chain is issued again; after a number of timeouts it ends poisoned. -/
def execChainTimeout (id : Nat) (s : State) : Host.Outcome State Fault Refusal :=
  let b := id / 32 / 2 ^ 32 / 32
  match (s.core (coreOf b)).trackers.find? fun t => t.id == id && t.result.isNone with
  | none => .next s
  | some t =>
    .next (if s.trackerHeld t || decide (s.now < t.deadline.toNat) then s
      else if 3 ≤ t.timeouts then s.chainEnded id t.attempt true .poisoned
      else s.chainStart { t with attempt := t.attempt + 1, timeouts := t.timeouts + 1 })

end Sys2Proof.Machine
end

