-- ==== Sys2Proof/Machine/Refill.lean ====
section
/-! DEFINITION. The refill tick, batting, and the governor's interval (spec/08_tokens.md R167 to R174;
spec/09_governor.md R183 to R198; R517, R518). -/

namespace Sys2Proof.Machine

/-! ### Dies (R177, R180) -/

/-- The die's clock is stopped (R178). -/
def Die.stopped (d : Die) : Bool := d.phase == 2
/-- The die runs its cores: its clock is not stopped and it is not held in reset. -/
def Die.runs (d : Die) : Bool := !d.stopped && !d.inReset

/-- The eight die numbers. -/
def dieIds : List Nat := upFrom 0 8

/-! ### Refill (R167, R168) -/

/-- A weight of 0 counts as 1. -/
def dieWeight (t : Tok) (d : Nat) : Nat := max 1 (lget 0 t.weights d)

/-- The grant of a die, and whether the package bucket limited it (R167 step 2, R168, R189). -/
def grantOf (t : Tok) (bp sum d : Nat) (x : Die) : Nat × Bool :=
  if !x.runs then (0, false)
  else
    let room := x.tokCap - x.balance
    let share := bp * dieWeight t d / sum
    (min room share, decide (share < room))

/-- Fill of a core at most, in quarter tokens: half while the droop guard is engaged (R167, R194). -/
def fillOf (t : Tok) (x : Die) : Nat := 4 * (if x.droop then t.coreFill / 2 else t.coreFill)

/-- The cores of a die from its pointer on, wrapping (R167 step 3). -/
def coresFrom (d ptr : Nat) : List Nat :=
  (coresOf d).drop ptr ++ (coresOf d).take ptr

/-- What is left after the equal shares goes core by core, each up to its want. -/
def giveRest : Nat → List (Nat × Nat × Nat) → List (Nat × Nat)
  | _, [] => []
  | left, (c, want, got) :: t =>
    let more := min left (want - got)
    (c, got + more) :: giveRest (left - more) t

/-- What each core of a die receives: quarter tokens, from the die's balance in tokens. -/
def shareOut (wants : List (Nat × Nat)) (balance : Nat) : List (Nat × Nat) :=
  let total := (wants.map (·.2)).sum
  if total ≤ 4 * balance then wants
  else
    let each := 4 * balance / 48
    let base := wants.map fun w => (w.1, w.2, min w.2 each)
    giveRest (4 * balance - (base.map fun x => x.2.2).sum) base

/-- Step 3 of R167 for one die; the pointer advances while the clock is stopped, too, and is 0 while the die is held in reset. -/
def State.refillCores (s : State) (d : Nat) : State :=
  let x := s.die d
  let x1 := { x with ptr := if x.inReset then 0 else (x.ptr + 1) % 48 }
  if !x.runs then s.setDie d x1
  else
    let wants := (coresFrom d x.ptr).map fun c => (c, min (fillOf s.tok x) (16384 - (s.core c).bucket))
    let gives := shareOut (wants.filter fun w => w.2 != 0) x.balance
    let spent := ((gives.map (·.2)).sum + 3) / 4
    gives.foldl (fun s g => s.setCore g.1 { s.core g.1 with bucket := (s.core g.1).bucket + g.2 })
      (s.setDie d { x1 with balance := x.balance - spent })

/-- Token limits and prices that take effect at this tick (R169, R171, R173). -/
def Tok.begin (t : Tok) : Tok :=
  let t1 := match t.stagedCfg with
    | some (r, f) => { t with reserve := r, coreFill := f, stagedCfg := none }
    | none => t
  if t1.commit then { t1 with price := t1.priceStaged, opPrice := t1.opPriceStaged, commit := false } else t1

/-- Steps 1 and 2 of R167: the state and whether some die's grant was limited by the package bucket (R189). -/
def State.grantDies (s : State) : State × Bool :=
  let t := s.tok.begin
  let bp := min (t.balance + (s.gov.g - t.reserve) * 1000) t.cap
  let sum := ((dieIds.filter fun d => !(s.die d).inReset).map (dieWeight t)).sum
  let grants := dieIds.map fun d => (d, grantOf t bp sum d (s.die d))
  let s1 := grants.foldl (fun s g => s.setDie g.1 { s.die g.1 with balance := (s.die g.1).balance + g.2.1 })
    { s with tok := { t with balance := bp - (grants.map fun g => g.2.1).sum } }
  (s1, grants.any fun g => g.2.2)

/-! ### Batting (R188 to R192) -/

/-- Lines of a hint queue that a number of prefetches serves, oldest first, and what stays queued. -/
def takeHints : Nat → List HintEntry → Nat × List HintEntry
  | _, [] => (0, [])
  | n, e :: t =>
    if n = 0 then (0, e :: t)
    else if e.lines.length ≤ n then
      let (k, r) := takeHints (n - e.lines.length) t
      (k + e.lines.length, r)
    else (n, { e with lines := e.lines.drop n } :: t)

/-- Prefetches start while Bb covers them; they change only timing (R190). -/
def State.prefetch (s : State) (d : Nat) : State :=
  let cost := max 1 s.gov.batPref
  let (k, rest) := takeHints (s.gov.bb / cost) (s.die d).hints
  { s.setDie d { s.die d with hints := rest } with
    gov := { s.gov with bb := s.gov.bb - k * cost, usedPref := s.gov.usedPref + k } }

/-- Lines of all stacks. -/
def scrubLines : Nat := 2 ^ 34

/-- Scrub lines start while Bb covers them. -/
def State.scrub (s : State) : State :=
  let cost := max 1 s.gov.batScrub
  let k := s.gov.bb / cost
  { s with gov := { s.gov with
      bb := s.gov.bb - k * cost, usedScrub := s.gov.usedScrub + k, scrubNext := (s.gov.scrubNext + k) % scrubLines } }

/-- A core that may run a self-test granule (R190). -/
def State.coreIdle (s : State) (core : Nat) : Bool :=
  let c := s.core core
  let mine := s.blocks.filter fun p => coreOf p.1 == core
  !c.selfTest && (s.die (dieOf core)).runs &&
  (mine.isEmpty || (c.reQueues.all (·.isEmpty) && mine.all fun p =>
    p.2.waves.all (fun w => w.lanes.all fun l => !l.isLive) &&
      match p.2.seq.st with | .absent => true | .ended => true | .waiting _ => true | _ => false))

/-- Tokens of one self-test granule on a die (R192). -/
def State.testCost (s : State) (d : Nat) : Nat := priceAt s.tok.opPrice (s.die d).op (1024 * max 1 s.gov.batTest)

/-- Self-test starts on an idle core while Bb covers it; the granule ends after 1 µs (R190). -/
def State.selfTestOn (s : State) (core : Nat) : State :=
  let cost := s.testCost (dieOf core)
  if cost ≤ s.gov.bb ∧ s.coreIdle core then
    State.later
      { s.setCore core { s.core core with selfTest := true } with
        gov := { s.gov with bb := s.gov.bb - cost, usedTest := s.gov.usedTest + 1 } }
      (s.now + clocksOfUs 1) (.selftestGranuleEnd core false)
  else s

/-- One tick's batting (R188, R189). The sources are tried in their order, each for as many units as Bb covers (log 23). -/
def State.batting (s : State) (limited : Bool) : State :=
  let x := min s.tok.balance (s.gov.bat * 1000)
  let s1 := { s with
    tok := { s.tok with balance := s.tok.balance - x }
    gov := { s.gov with bb := s.gov.bb + x, batHold := if limited then s.tick + 1000 else s.gov.batHold } }
  if limited ∨ s.tick ≤ s1.gov.batHold ∨ s1.gov.bb = 0 then s1
  else
    let s2 := (dieIds.foldl (fun s d => s.prefetch d) s1).scrub
    if dieIds.any fun d => decide (s2.testCost d ≤ s2.gov.bb) then (upFrom 0 384).foldl (fun s c => s.selfTestOn c) s2 else s2

/-- REFILL_TICK (R167). -/
def execRefillTick (s : State) : Host.Outcome State Fault Refusal :=
  let (s1, limited) := s.grantDies
  let s2 := dieIds.foldl (fun s d => s.refillCores d) (s1.batting limited)
  .next { s2 with tick := s.tick + 1 }

/-- SELFTEST_GRANULE_END (R190): waiting work of the core proceeds; a failing self-test is logged. -/
def execSelftestGranuleEnd (core : Nat) (failed : Bool) (s : State) : Host.Outcome State Fault Refusal :=
  let c := s.core core
  .next <|
    if !c.selfTest then s
    else
      let s1 := s.setCore core { c with selfTest := false }
      if failed then s1.logEvent 8 5 core [] else s1

/-! ### The governor (R184, R187, R517, R518) -/

/-- A count of partition-clocks as a fraction of an interval's (R170, R514). -/
def stallFraction (n clocks : Nat) : Nat := if clocks = 0 then 0 else min 0xFFFF (n * 65536 / (192 * clocks))

/-- STALL_RATIO of the interval that ends (R170, R174), and its counters restart. -/
def Die.closeInterval (d : Die) (t : Nat) : Die :=
  { d with
    stallRatio := BitVec.ofNat 64 ((t + 255) % 256 * 2 ^ 56 + stallFraction d.cntBarrier d.cntClocks * 2 ^ 32 +
      stallFraction d.cntToken d.cntClocks * 2 ^ 16 + stallFraction d.cntMemory d.cntClocks)
    cntMemory := 0, cntToken := 0, cntBarrier := 0, cntClocks := 0 }

/-- The token field of STALL_RATIO (R174). -/
def Die.tokenStall (d : Die) : Nat := bits d.stallRatio.toNat 16 16

/-- Clamp(v, lo, hi). -/
def clampTo (v lo hi : Nat) : Nat := max lo (min v hi)

/-- P of R184. -/
def State.govP (s : State) : Nat :=
  let p := (s.gov.paid + (4 * 10 ^ 7 - 1)) / (4 * 10 ^ 7) + s.tok.reserve
  if s.dies.any fun d => decide (s.gov.lim.stallTh ≤ d.tokenStall) then p + s.gov.lim.up else p

/-- The rises that take effect at an interval (R184): admitted intents under Ecolo, else every intent that targets it. -/
def State.risesAt (s : State) (t : Nat) : Nat :=
  ((s.gov.held.filter fun x => x.t == t % 65536 && (x.admitted || !s.ecoloOn)).map (·.rise)).sum

/-- Whether a target modulo 65,536 lies after an interval. -/
def after16 (x t : Nat) : Bool :=
  let d := (x + 65536 - t % 65536) % 65536
  d != 0 && decide (d < 32768)

/-- The new rate before its clamp to the limits (R184). -/
def nextRate (en : Bool) (l : GovLim) (g p rise : Nat) : Nat :=
  if 0 < rise then g + min l.up rise
  else if en then clampTo p (g - l.down) g
  else clampTo p (g - l.down) (g + l.up)

/-- What remains of the rise after the step from g to g2 (R184). -/
def riseAfter (l : GovLim) (g g2 rise : Nat) : Nat :=
  if (g2 : Int) - g < min l.up rise then 0 else rise - (g2 - g)

/-- GOV_STATE.ecolo: the first of 1, 2, 4 and 3 that applies (R187). -/
def ecoloCode (en began deferred held wants : Bool) : Nat :=
  if !en then 0 else if began then 1 else if deferred then 2 else if held then 4 else if wants then 3 else 0

/-- BAT_STAT of the interval that ends (R192, R518). -/
def Gov.batStatNow (g : Gov) : Dword :=
  BitVec.ofNat 64 (min 1023 (g.bb / 10 ^ 7) * 2 ^ 42 + min 16383 g.usedPref * 2 ^ 28 +
    min 16383 (g.usedScrub / 256) * 2 ^ 14 + min 16383 g.usedTest)

/-- GOV_STATE (R187). -/
def State.govStat (s : State) (t p code : Nat) : Dword :=
  BitVec.ofNat 64 (t % 256 * 2 ^ 56 + s.gov.g % 1024 * 2 ^ 46 + min 1023 p * 2 ^ 36 + min 1023 s.gov.bat * 2 ^ 26 +
    code * 2 ^ 23 + s.gov.ptr * 2 ^ 14 + min 127 s.heldClusters.length * 2 ^ 7)

/-- Step 1 of R517 at the start of interval t: the state with g set, P, and the Ecolo code. -/
def State.governRate (s : State) (t : Nat) : State × Nat × Nat :=
  let en := s.ecoloOn
  let l := s.gov.lim
  let p := s.govP
  let rise := s.gov.riseLeft + s.risesAt t
  let g2 := clampTo (nextRate en l s.gov.g p rise) l.floor l.rated
  let left := riseAfter l s.gov.g g2 rise
  let deferred := s.gov.held.any fun x => x.deferred
  let s1 := { s with gov := { s.gov with
    riseLeft := left, bat := g2 - p, g := g2, paid := 0
    held := (s.gov.held.filter fun x => after16 x.t t).map fun x => { x with deferred := false }
    received := s.gov.received.filter fun x => after16 x.t t } }
  let wants := decide (g2 + left < p)
  let near := s1.gov.held.any fun x => x.t == (t + 1) % 65536 || x.t == (t + 2) % 65536
  let s2 := if en && wants && !near then (s1.postIntent (p - g2 - left) ((t + 2) % 65536)).1 else s1
  (s2, p, ecoloCode en (decide (0 < rise)) deferred (s2.gov.held.any fun x => !x.admitted) wants)

/-- GOVERNOR_INTERVAL (R183, R184, R517): stall ratios, limits, g, admission of clusters, GOV_STATE and BAT_STAT; hints that
have waited 4 intervals go (R191). -/
def execGovernorInterval (s : State) : Host.Outcome State Fault Refusal :=
  let t := s.interval
  let s1 := { s with
    dies := s.dies.map fun (d : Die) =>
      { Die.closeInterval d t with hints := d.hints.filter fun h => decide (t < h.interval + 4) }
    gov := { s.gov with lim := s.gov.limNext } }
  let (s2, p, code) := s1.governRate t
  let s3 := State.admitClusters { s2 with gov := { s2.gov with
    batStat := s2.gov.batStatNow, bb := 0, usedTest := 0, usedScrub := 0, usedPref := 0 } }
  .next { s3 with gov := { s3.gov with stat := s3.govStat t p code } }

/-! ### Ecolo (R195 to R197) -/

/-- Q of R196. -/
def ecLimit (e : Dword) : Nat := if ecQ e = 0 then max 1 (ecSize e / 16) else ecQ e

/-- The intent held for t is put off to t + 1: it merges into one held there, else it is multicast again (R196). -/
def State.defer (s : State) (x : Intent) : State :=
  let t1 := (x.t + 1) % 65536
  let rest := s.gov.held.filter fun y => y.t != x.t
  if rest.any fun y => y.t == t1 then
    { s with gov := { s.gov with held := rest.map fun y => if y.t = t1 then { y with rise := max y.rise x.rise, deferred := true } else y } }
  else
    let s1 := { s with gov := { s.gov with held := rest ++ [{ x with t := t1, deferred := true }] } }
    s1.send (.intent s.ecoGroup x.job x.rank x.rise t1)

/-- ECOLO_DECISION (R196): D(t) of the interval t that follows the present one. -/
def execEcoloDecision (s : State) : Host.Outcome State Fault Refusal :=
  let t := (s.interval + 1) % 65536
  let e := s.gov.ecolo
  .next <| match s.ecoloOn, s.gov.held.find? fun x => x.t == t && !x.admitted with
    | true, some x =>
      let below := (s.gov.received.filter fun y => y.t == t && y.job == ecJob e && decide (y.rank < ecRank e)).length
      if below < ecLimit e then
        { s with gov := { s.gov with held := s.gov.held.map fun y => if y.t = t then { y with admitted := true } else y } }
      else s.defer x
    | _, _ => s

/-- ECOLO_INTENT (R195, R196): another job's intent, one whose rank is not below the size, and one that comes after the D
of its target are discarded. -/
def execEcoloIntent (job rank rise t : Nat) (s : State) : Host.Outcome State Fault Refusal :=
  let e := s.gov.ecolo
  let decided := (s.now + 6249) / 12500
  .next <|
    if job = ecJob e ∧ rank < ecSize e ∧ after16 t decided then
      { s with gov := { s.gov with
          received := s.gov.received ++ [{ job, rank, rise, t := t % 65536, admitted := false, deferred := false }] } }
    else s

end Sys2Proof.Machine
end

