-- ==== Sys2Proof/Machine/Place.lean ====
section
/-! DEFINITION. The dispatcher: checks of a created launch, placement of blocks, pre-emption and restoration
(spec/02_execution.md R44 to R48, R57 to R59; spec/03_state.md R84 to R86; spec/15_scheduling.md R329, R335, R337, R338,
R340). -/

namespace Sys2Proof.Machine

/-! ### What a block takes of a core (R44, R45, R47) -/

/-- The L1 size in KiB that a kernel chooses: the largest that leaves its scratchpad (R45, R131, R214). -/
def l1Of (scratch : Nat) : Option Nat :=
  if scratch ≤ 128 * 1024 then some 384 else if scratch ≤ 256 * 1024 then some 256
  else if scratch ≤ 384 * 1024 then some 128 else none

/-- What is taken of a core: block slots, per partition waves and lane registers, scratchpad bytes, accumulator granules. -/
structure CoreUse where
  blocks : Nat
  waves : List Nat
  regs : List Nat
  spad : Nat
  acc : Nat
  deriving DecidableEq, Repr

def CoreUse.none : CoreUse := { blocks := 0, waves := [0, 0, 0, 0], regs := [0, 0, 0, 0], spad := 0, acc := 0 }

/-- The shape of a launch's blocks. -/
structure Shape where
  waves : Nat
  regs : Nat
  spad : Nat
  acc : Nat
  l1 : Option Nat
  deriving DecidableEq, Repr

/-- The shape that a record and its descriptor give (R45, R308). -/
def shapeOf (r d : List Byte) : Shape :=
  { waves := kdWaves d, regs := kdRegsRounded d, spad := kdSpad d
    acc := if (kdStream d).isSome then recAcc r else 0, l1 := l1Of (kdSpad d) }

/-- The partition with the most free wave slots, the lowest of several (R46). -/
def CoreUse.p0 (u : CoreUse) : Nat :=
  (upFrom 1 3).foldl (fun best p => if lget 0 u.waves p < lget 0 u.waves best then p else best) 0

/-- Waves of a block that run on a partition. -/
def shareOf (waves p0 p : Nat) : Nat := ((upFrom 0 waves).filter fun i => (p0 + i) % 4 == p).length

/-- A block of a shape added at a first partition. -/
def CoreUse.plus (u : CoreUse) (h : Shape) (p0 : Nat) : CoreUse :=
  { blocks := u.blocks + 1
    waves := mapIdx (fun p n => n + shareOf h.waves p0 p) 0 u.waves
    regs := mapIdx (fun p n => n + shareOf h.waves p0 p * h.regs) 0 u.regs
    spad := u.spad + h.spad, acc := u.acc + h.acc }

/-- What is taken fits a core whose L1 has a size (R44, R45). -/
def CoreUse.fits (u : CoreUse) (l1 : Nat) : Bool :=
  decide (u.blocks ≤ 16) && u.waves.all (fun n => decide (n ≤ 12)) && u.regs.all (fun n => decide (n ≤ 1024)) &&
  decide (u.spad ≤ (512 - l1) * 1024) && decide (u.acc ≤ 16)

/-- One more block of a shape, if it fits. -/
def CoreUse.add (u : CoreUse) (h : Shape) : Option CoreUse :=
  match h.l1 with
  | some l1 => let v := u.plus h u.p0; if v.fits l1 then some v else Option.none
  | Option.none => Option.none

/-- How many blocks of a shape an empty core holds, at most 16. -/
def roomFor (h : Shape) : Nat → CoreUse → Nat
  | 0, _ => 0
  | n + 1, u => match u.add h with
    | some v => roomFor h n v + 1
    | Option.none => 0

/-- The blocks of a core. -/
def State.blocksOn (s : State) (core : Nat) : List (Nat × Block) := s.blocks.filter fun p => coreOf p.1 == core

/-- The shape of a resident block. -/
def Block.shape (b : Block) (l1 : Option Nat) : Shape :=
  { waves := b.waves.length, regs := b.regs, spad := b.spadSize, acc := b.seq.cols / 32, l1 }

/-- What the resident blocks of a core take. -/
def State.useOf (s : State) (core : Nat) : CoreUse :=
  (s.blocksOn core).foldl (fun u p => u.plus (p.2.shape Option.none) p.2.p0) CoreUse.none

/-! ### Checks at the dispatcher (R58, R77, R132, R205, R207, R308, R329) -/

/-- The byte range of a declared queue. -/
def SpQueue.range (q : SpQueue) : Nat × Nat := (q.base, q.base + q.count * q.size)

/-- Two queues overlap. -/
def queuesOverlap (a b : SpQueue) : Bool := decide (a.range.1 < b.range.2) && decide (b.range.1 < a.range.2)

/-- The declared queues lie inside the scratchpad and do not overlap one another (R77, R132). -/
def queuesOk (spad : Nat) : List SpQueue → Bool
  | [] => true
  | q :: t => decide (q.range.2 ≤ spad) && !(t.any fun x => queuesOverlap q x) && queuesOk spad t

/-- The status with which the dispatcher completes a launch that it does not run: 3 refused, 2 failed; refused where both apply
(DESIGN CHOICE, log 45). -/
def State.dispatchStatus (s : State) (l : Nat) : Option Nat :=
  let x := s.launch l
  let r := x.record
  let d := x.desc
  let aper := (s.ctx x.ctx).aper.toNat
  let size := recStackSize r
  let last := recStack r + recN r * kdWaves d * 32 * size - 1
  let queues := ((upFrom 0 8).map fun k => queueOf (kdQueue d k)).filter fun q => q.count != 0
  let dies := dieIds.filter fun k => recOnDie r k
  let small := (upFrom 0 8).any fun k =>
    let p := lget { bound := false, base := 0, size := 0 } x.params k
    kdMinWindow d k != 0 && (!p.bound || decide (p.size < kdMinWindow d k))
  let refused :=
    kdWaves d == 0 || decide (32 < kdWaves d) || kdRegs d == 0 || decide (256 < kdRegs d) ||
    (recKind r == 1 && decide (dies.length * 48 * roomFor (shapeOf r d) 16 CoreUse.none < recN r)) ||
    (kdFelted d && recKind r != 2) || !queuesOk (kdSpad d) queues || bits aper 0 27 == bits aper 34 27 ||
    (size != 0 && (decide (2 ^ 57 ≤ last) || last / 2 ^ 45 != recStack r / 2 ^ 45)) ||
    ((kdStream d).isSome && recAcc r == 0) || small
  if s.tornDown x.ctx ∨ refused then some 3 else x.early

/-- Completes a launch that runs no block. -/
def State.finishLaunch (s : State) (l st : Nat) : State :=
  let x := s.launch l
  let s1 := s.setLaunch l { x with counter := { x.counter with outstanding := 1 }, dispatched := true, nextBlk := recN x.record }
  (s1.settleAll [.launch l st]).startNodes

/-- LAUNCH_DISPATCH (R58, R329, R335): a created launch is checked once. -/
def execLaunchDispatch (slot : Nat) (s : State) : Host.Outcome State Fault Refusal :=
  let x := s.launch slot
  .next <|
    if !x.alive ∨ x.dispatched then s
    else match s.dispatchStatus slot with
      | some st => (if s.tornDown x.ctx then s.countRefused x.ctx else s).finishLaunch slot st
      | none => s.setLaunch slot { x with dispatched := true }

/-! ### Which context a die runs (R335 to R340) -/

/-- Blocks of a launch that are still to be placed. -/
def LaunchSlot.pending (x : LaunchSlot) : Bool :=
  x.alive && x.dispatched && (!x.rerun.isEmpty || decide (x.nextBlk < recN x.record))

/-- A context has a block that waits for a die: one to be placed or one to be restored. -/
def State.waitsFor (s : State) (d : Nat) : List (Nat × Nat) :=
  (s.launches.filterMap fun p => if p.2.pending && recOnDie p.2.record d then some (p.2.ctx, p.2.order) else none) ++
  s.saved.filterMap fun v => if recOnDie (s.launch v.blk.launch).record d then some (v.blk.ctx, (s.launch v.blk.launch).order) else none

/-- The context that a die runs: that of its resident blocks. -/
def State.occupant (s : State) (d : Nat) : Option Nat := (s.blocks.find? fun p => dieOf (coreOf p.1) == d).map (·.2.ctx)

/-- Of two waiting contexts, whether the first goes before the second on a die: by priority, then one that has not just been
pre-empted there, then by the order of its launch (log 26). -/
def State.goesBefore (s : State) (d : Nat) (a b : Nat × Nat) : Bool :=
  let pa := s.ctxPrio a.1
  let pb := s.ctxPrio b.1
  let out (c : Nat) : Bool := tget 0 s.lastOut d == c + 1
  if pa ≠ pb then decide (pb < pa)
  else if out a.1 != out b.1 then out b.1
  else decide (a.2 < b.2)

/-- The context that an empty die takes next. -/
def State.nextCtx (s : State) (d : Nat) : Option Nat :=
  ((s.waitsFor d).foldl (fun best x => match best with
    | none => some x
    | some y => if s.goesBefore d x y then some x else some y) none).map (·.1)

/-- Whether a die takes blocks of a context now. -/
def State.dieTakes (s : State) (ctx d : Nat) : Bool :=
  !(s.die d).inReset && !s.saving.contains (ctx * 8 + d) &&
  match s.occupant d with
  | some c => c == ctx
  | none => s.nextCtx d == some ctx

/-! ### Placing blocks (R46, R47, R57 to R59, R84) -/

/-- The cores of a cluster. -/
def coresOfCluster (cl : Nat) : List Nat := upFrom (4 * cl) 4

/-- A core takes a block of a launch besides its own: no granule of self-test runs, the split agrees, no felted cluster of
another launch, and for a cluster group no block of another launch in the cluster (R47, R59, R190, R215). -/
def State.coreTakes (s : State) (core l kind : Nat) (l1 : Option Nat) : Bool :=
  let c := s.core core
  !c.selfTest && ((s.blocksOn core).isEmpty || c.l1Kib == l1) &&
  (coresOfCluster (clusterOf core)).all fun k =>
    ((s.core k).felted.isNone || (s.core k).felted == some l) &&
    (kind != 2 || (s.blocksOn k).all fun p => p.2.launch == l)

/-- Whether one more block fits a core. -/
def State.blockFits (s : State) (core l : Nat) (h : Shape) (kind : Nat) : Bool :=
  s.coreTakes core l kind h.l1 && ((s.useOf core).add h).isSome

/-- Blocks resident in a cluster. -/
def State.clusterLoad (s : State) (cl : Nat) : Nat := (s.blocks.filter fun p => clusterOf (coreOf p.1) == cl).length

/-- Of the cores of some dies, the one that takes a block: of the cluster with the fewest blocks, then the core with the
fewest, then the lowest (log 26). -/
def State.bestCore (s : State) (dies : List Nat) (l : Nat) (h : Shape) (kind : Nat) : Option Nat :=
  let key (c : Nat) : Nat × Nat := (s.clusterLoad (clusterOf c), (s.blocksOn c).length)
  ((dies.flatMap coresOf).filter fun c => s.blockFits c l h kind).foldl (fun best c => match best with
    | none => some c
    | some b =>
      if (key c).1 < (key b).1 ∨ ((key c).1 = (key b).1 ∧ (key c).2 < (key b).2) then some c else some b) none

/-- The lowest free block slot of a core. -/
def State.freeSlot (s : State) (core : Nat) : Nat :=
  ((upFrom 0 16).find? fun k => (s.block? (core * 16 + k)).isNone).getD 0

/-- A block at its start (R75 to R78, R84, R298, R308). -/
def State.newBlock (s : State) (l idx core p0 : Nat) : Block :=
  let x := s.launch l
  let r := x.record
  let d := x.desc
  let entry := BitVec.ofNat 57 (kdEntry d)
  { launch := l, index := idx, ctx := x.ctx, prio := x.prio, p0, regs := kdRegsRounded d, spadSize := kdSpad d, entry
    entered := false, age := s.age
    waves := copies { Wave.start entry (s.die (dieOf core)).capqCharge with pendNext := s.pendHigh } (kdWaves d), spad := [], spadTags := []
    bars := copies (Barrier.start (kdWaves d)) 16, queues := (upFrom 0 8).map fun k => queueOf (kdQueue d k)
    params := x.params, trapOnParam := recTrapParam r
    seq := Seq.start ((kdStream d).map (BitVec.ofNat 57)) (if (kdStream d).isSome then recCols r else 0)
    stopped := none, saving := false }

/-- A saved engine entry at its new place: its block's new id, its fences numbered anew. -/
def ReEntry.moved (e : ReEntry) (age b fence : Nat) : ReEntry :=
  { e with
    blk := if e.age = age then b else e.blk
    kind := match e.kind with | .fence m id => .fence m (fence + id) | k => k }

/-- Appends to the tail of request-engine queues (R340). -/
def Core.appendEntries (c : Core) (l : List (Nat × ReEntry)) : Core :=
  { c with
    reQueues := mapIdx (fun q x => x ++ (l.filter fun e => e.1 == q).map (·.2)) 0 c.reQueues
    fenceNext := c.fenceNext + (l.foldl (fun m e => match e.2.kind with | .fence _ id => max m (id + 1) | _ => m) 0) }

/-- Engine entries that a pre-emption took off cores of a die return to the tail of their queues (R340). -/
def State.unpark (s : State) (p : Parked → Bool) : State :=
  let back := s.parked.filter p
  back.foldl (fun s x =>
    let c := s.core x.core
    s.setCore x.core (c.appendEntries [(x.q, x.entry.moved x.entry.age x.entry.blk c.fenceNext)]))
    { s with parked := s.parked.filter fun x => !p x }

/-- Those of a die that no context runs go on. -/
def State.unparkIdle (s : State) : State :=
  if s.parked.isEmpty then s
  else s.unpark fun x => (s.occupant (dieOf x.core)).isNone && !s.saving.any fun k => k % 8 == dieOf x.core

/-- A block becomes resident on a core: the core takes its split, its cluster is felted for a cluster group, the launch
remembers the core (R279), and the context runs on the die from now (R337). -/
def State.settleBlock (s : State) (blk : Block) (core : Nat) : State :=
  let b := core * 16 + s.freeSlot core
  let x := s.launch blk.launch
  let d := dieOf core
  let key := blk.ctx * 8 + d
  let fresh := (s.occupant d).isNone
  let s1 := (s.unpark fun x => x.entry.ctx == blk.ctx && dieOf x.core == d).setBlock b blk
  let s2 := s1.setCore core { s1.core core with l1Kib := l1Of blk.spadSize }
  let s3 := if recKind x.record = 2 then
      (coresOfCluster (clusterOf core)).foldl (fun s k => s.setCore k { s.core k with felted := some blk.launch }) s2
    else s2
  let s4 := s3.setLaunch blk.launch { x with coreOf := x.coreOf.filter (· != (blk.index, core)) ++ [(blk.index, core)] }
  State.acquire { s4 with
    mseq := tdel s4.mseq b, running := if fresh then tput s4.running key s.now else s4.running } (some .sys)

/-- Places one block of a launch on a core. -/
def State.startBlock (s : State) (l idx core : Nat) : State :=
  State.settleBlock { s with age := s.age + 1 } (s.newBlock l idx core (s.useOf core).p0) core

/-- The blocks of a launch that are placed together next: those to be run again first; one block, a whole cooperative
launch, or a group of four (R57 to R59, R342). -/
def LaunchSlot.batch (x : LaunchSlot) : List Nat :=
  let n := recN x.record
  match x.rerun with
  | i :: rest => match recKind x.record with
    | 1 => i :: rest ++ upFrom x.nextBlk (n - x.nextBlk)
    | 2 => (i :: rest).filter fun j => j / 4 == i / 4
    | _ => [i]
  | [] => match recKind x.record with
    | 1 => upFrom x.nextBlk (n - x.nextBlk)
    | 2 => upFrom x.nextBlk (min (n - x.nextBlk) (4 - x.nextBlk % 4))
    | _ => if x.nextBlk < n then [x.nextBlk] else []

/-- The dies that earlier launches waiting to be placed whole keep from a launch (R335). -/
def State.heldBack (s : State) (l : Nat) : List Nat :=
  let x := s.launch l
  let mine (p : Nat × LaunchSlot) : Bool :=
    p.2.pending && (recKind p.2.record == 1 || recKind p.2.record == 2) && p.1 != l &&
    decide (p.2.order < x.order) && decide (x.prio ≤ p.2.prio)
  dieIds.filter fun d => s.launches.any fun p => mine p && recOnDie p.2.record d

/-- The dies on which a launch's blocks may be placed now. -/
def State.diesFor (s : State) (l : Nat) : List Nat :=
  let x := s.launch l
  let back := s.heldBack l
  dieIds.filter fun d => recOnDie x.record d && !back.contains d && s.dieTakes x.ctx d

/-- Places blocks one after another, each on its best core; none if one of them finds no core. -/
def State.placeEach (s : State) (l : Nat) (dies : List Nat) (h : Shape) : List Nat → Option State
  | [] => some s
  | i :: t => match s.bestCore dies l h 0 with
    | none => none
    | some c => State.placeEach (s.startBlock l i c) l dies h t

/-- Places a group on one cluster, one block to each core (R59): the least loaded cluster that takes it whole. -/
def State.placeGroup (s : State) (l : Nat) (dies : List Nat) (h : Shape) (batch : List Nat) : Option State :=
  let clusters := (dies.flatMap fun d => upFrom (12 * d) 12).filter fun cl =>
    batch.all fun i => s.blockFits (4 * cl + i % 4) l h 2
  let best := clusters.foldl (fun b cl => match b with
    | none => some cl
    | some x => if s.clusterLoad cl < s.clusterLoad x then some cl else some x) (none : Option Nat)
  best.map fun cl => batch.foldl (fun s i => s.startBlock l i (4 * cl + i % 4)) s

/-- The launch's account after its batch has been placed. -/
def LaunchSlot.placed (x : LaunchSlot) (batch : List Nat) : LaunchSlot :=
  { x with
    rerun := x.rerun.filter fun i => !batch.contains i
    nextBlk := batch.foldl (fun n i => max n (i + 1)) x.nextBlk }

/-- Places the next blocks of a launch, if they can be placed now. -/
def State.placeNext (s : State) (l : Nat) : Option State :=
  let x := s.launch l
  let h := shapeOf x.record x.desc
  let batch := x.batch
  if !x.pending ∨ batch.isEmpty then none
  else
    let dies := s.diesFor l
    let r := if recKind x.record = 2 then s.placeGroup l dies h batch else s.placeEach l dies h batch
    r.map fun t => t.setLaunch l ((t.launch l).placed batch)

/-- Launches with blocks to place, by priority and then by the order of their creation (R335). -/
def State.placeOrder (s : State) : List Nat :=
  let before (a b : Nat) : Bool :=
    let x := s.launch a
    let y := s.launch b
    if x.prio ≠ y.prio then decide (y.prio < x.prio) else decide (x.order < y.order)
  let ins (l : List Nat) (a : Nat) : List Nat := l.takeWhile (fun b => before b a) ++ a :: l.dropWhile fun b => before b a
  ((s.launches.filter fun p => p.2.pending).map (·.1)).foldl ins []

/-! ### Restoring saved blocks (R86, R340) -/

/-- The saved blocks that are restored together with one: all of a cooperative launch, its group of a cluster-group launch,
or itself. -/
def State.restoreSet (s : State) (v : Saved) : List Saved :=
  let kind := recKind (s.launch v.blk.launch).record
  s.saved.filter fun x => x.blk.launch == v.blk.launch &&
    (kind == 1 || x.blk.index == v.blk.index || (kind == 2 && x.blk.index / 4 == v.blk.index / 4))

/-- A restored block as its new unit resumes it (R85, R86). -/
def Block.resumed (b : Block) (p0 : Nat) (capq : BitVec 16) (high : Nat) : Block :=
  { b with p0, saving := false
           waves := b.waves.map fun w => { w with capqMin := capq, stall := 0, pendNext := max w.pendNext high } }

/-- The lanes of a block that wait in WAITA: wave and lane. -/
def Block.waitaLanes (b : Block) : List (Nat × Nat) :=
  (mapIdxed b.waves).flatMap fun p => laneIds.filterMap fun i =>
    match (p.2.lane i).st with | .blocked (.waita _) => some (p.1, i) | _ => none

/-- Restores one saved block on a core: its entries return to the tail of their queues first, its log entries to the
core's log; lanes in WAITA read again. -/
def State.restoreOne (s : State) (v : Saved) (core : Nat) : State :=
  let b := core * 16 + s.freeSlot core
  let s1 := s.settleBlock (v.blk.resumed (s.useOf core).p0 (s.die (dieOf core)).capqCharge s.pendHigh) core
  let c := s1.core core
  let s2 := s1.setCore core (c.appendEntries (v.entries.map fun e => (e.1, e.2.moved v.blk.age b c.fenceNext)))
  let s3 := v.log.foldl (fun s e =>
    let t := if 64 ≤ (s.core core).log.length then s.evictOldest core else s
    t.setCore core { t.core core with log := (t.core core).log ++ [e] }) s2
  v.blk.waitaLanes.foldl (fun s p => s.soon (.waitaReread b p.1 p.2 none))
    { s3 with saved := s3.saved.filter fun x => x.blk.age != v.blk.age }

/-- Restores saved blocks one after another, or none of them. -/
def State.restoreEach (s : State) (dies : List Nat) : List Saved → Option State
  | [] => some s
  | v :: t =>
    let kind := recKind (s.launch v.blk.launch).record
    match s.bestCore dies v.blk.launch (v.blk.shape (l1Of v.blk.spadSize)) kind with
    | none => none
    | some c => State.restoreEach (s.restoreOne v c) dies t

/-- Restores a felted group on one cluster. -/
def State.restoreGroup (s : State) (dies : List Nat) (l : List Saved) : Option State :=
  let ok (cl : Nat) : Bool := l.all fun v =>
    s.blockFits (4 * cl + v.blk.index % 4) v.blk.launch (v.blk.shape (l1Of v.blk.spadSize)) 2
  ((dies.flatMap fun d => upFrom (12 * d) 12).find? ok).map fun cl =>
    l.foldl (fun s v => s.restoreOne v (4 * cl + v.blk.index % 4)) s

/-- Restores a saved block, and those that go with it, if they can be placed now. -/
def State.restoreNow (s : State) (v : Saved) : Option State :=
  let r := (s.launch v.blk.launch).record
  let dies := dieIds.filter fun d => recOnDie r d && s.dieTakes v.blk.ctx d
  if recKind r = 2 then s.restoreGroup dies (s.restoreSet v) else s.restoreEach dies (s.restoreSet v)

/-- The first saved block that can be restored now: its index. -/
def State.restorable (s : State) : Option Nat :=
  ((mapIdxed s.saved).find? fun p => (s.restoreNow p.2).isSome).map (·.1)

/-- BLOCK_RESTORE (R340). -/
def execBlockRestore (saved : Nat) (s : State) : Host.Outcome State Fault Refusal :=
  .next <| match s.saved[saved]? with
    | some v => (s.restoreNow v).getD s
    | none => s

/-- The launch whose blocks are placed next (R335). -/
def State.placeable (s : State) : Option Nat := s.placeOrder.find? fun l => (s.placeNext l).isSome

/-- BLOCK_PLACE (R45, R335): restored blocks go first, then launches by priority and order. -/
def execBlockPlace (slot : Nat) (s : State) : Host.Outcome State Fault Refusal :=
  .next <|
    if s.restorable.isNone ∧ s.placeable = some slot then (s.placeNext slot).getD s else s

/-! ### Pre-emption (R337, R338) -/

/-- An engine entry that has moved a line, or is moving one. -/
def ReEntry.started (e : ReEntry) : Bool :=
  e.done != 0 || e.counted != 0 || e.step != 0 || e.acks != 0 || e.asked || e.signalled || e.fatal || e.held.isSome ||
  e.paid != 0 || !e.chunk.isEmpty

/-- No queue of a core has a started entry at its head. -/
def Core.drained (c : Core) : Bool :=
  c.reQueues.all fun q => match q with | [] => true | e :: _ => !e.started

/-- A wave stands at an instruction boundary with nothing outstanding (R247, R338 steps 2 and 3). -/
def Wave.quiet (w : Wave) : Bool := w.held.isEmpty && w.pend.all Pending.ready && w.commit.isEmpty

/-- A block can be saved: its waves and sequencer are quiet, an instruction in the sequencer's hand complete (R316), its chains have ended, its writes are visible, and no promotion is
being served at its core (R280). -/
def State.quiet (s : State) (b : Nat) (blk : Block) : Bool :=
  blk.stopped.isNone && blk.waves.all Wave.quiet && !s.logStalled (coreOf b) &&
  !(s.core (coreOf b)).trackers.any (fun t => t.blk == b) && !s.unsettled b &&
  match blk.seq.st with
  | .heldAt _ => false
  | .filling _ => false
  | .homeAway => false
  | .running => !blk.finishing
  | .draining => !blk.finishing
  | _ => true

/-- A wave at a pre-emption: its open region aborts, and no wait follows (R245 steps 1 to 4, R247); a waiting ACQP is withdrawn and
issues again (R280). In trap mode too, lanes with a shadow take their restart PC (R74, log 27). -/
def Wave.preempted (w : Wave) : Wave :=
  let w1 := if w.region.isOpen then w.abortRegion else w
  let w2 := w1.mapLanes fun _ l => match l.st with | .blocked (.acqp _) => { l with st := .live } | _ => l
  { w2 with
    acks := [], held := w2.held.filter fun h => !h.abortWait, pend := w2.pend.map fun p => { p with aborter := false } }

/-- A wave as it is saved (R85, R199): lanes that wait for admission, or for a fetch line of another package, go on at once. -/
def Wave.forSave (w : Wave) : Wave :=
  let w1 := w.landAll
  { w1.mapLanes fun _ l => match l.st with
      | .blocked .admission => { l with st := .live }
      | .blocked (.line _) => { l with st := .live }
      | .blocked .turn => { l with st := .live }
      | _ => l with
    opStore := [], rot := Rot.start, rotKept := Rot.start, stall := 0, clkhi := none, offered := 0, yielded := false }

/-- The blocks of a context on a die. -/
def State.blocksOf (s : State) (ctx d : Nat) : List (Nat × Block) :=
  s.blocks.filter fun p => p.2.ctx == ctx && dieOf (coreOf p.1) == d

/-- The dies that give up a context together: a cooperative launch leaves all of its dies (R58, R337). -/
def State.diesWith (s : State) (ctx : Nat) : Nat → List Nat → List Nat
  | 0, l => l
  | n + 1, l =>
    let coop := s.blocks.filter fun p => p.2.ctx == ctx && s.isCoop p.2.launch && l.contains (dieOf (coreOf p.1))
    let more := s.blocks.filter fun p => p.2.ctx == ctx && coop.any fun q => q.2.launch == p.2.launch
    s.diesWith ctx n (more.foldl (fun l p => sins l (dieOf (coreOf p.1))) l)

/-- Pre-emption begins: no further block is placed, waves stop at an instruction boundary, claims are withdrawn, regions
abort (R338 steps 1 to 3). -/
def State.startPreempt (s : State) (ctx die : Nat) : State :=
  let dies := s.diesWith ctx 8 [die]
  let mine (b : Nat) (x : Block) : Bool := x.ctx == ctx && dies.contains (dieOf (coreOf b))
  let s1 := s.onBlocks fun b x =>
    if mine b x then { x with saving := true, waves := x.waves.map Wave.preempted } else x
  let gone (a : Option Agent) : Bool := match a with
    | some (.wave b _) => (s.block? b).any (mine b)
    | some (.seq b) => (s.block? b).any (mine b)
    | _ => false
  let s2 := (s1.blocks.filter fun p => mine p.1 p.2).foldl (fun s p =>
    (upFrom 0 p.2.waves.length).foldl (fun s i => s.tidyLinks p.1 i) (s.dropPromos p.1)) s1
  { s2 with
    cores := s2.cores.map fun c => (c.1, c.2.withdraw fun k => gone k.agent)
    saving := dies.foldl (fun l d => sins l (ctx * 8 + d)) s2.saving }

/-- What saving a core's block writes to the save area of its context (R336, R338 step 5): bytes within 1,344 KiB for each of the
cores that hold blocks of the context; an address that does not translate takes nothing (log 72). -/
def State.writeSave (s : State) (ctx core : Nat) : State :=
  let cores := (s.blocks.filter fun p => p.2.ctx == ctx).foldl (fun l p => sins l (coreOf p.1)) []
  let share := 1344 * 1024
  let base := (s.ctx ctx).save.toNat % 2 ^ 57 + share * (cores.filter (· < core)).length
  (Config.saveImage s.freeCtr core).foldl (fun s x =>
    let va := base + x.1 % share
    if s.isLocal va then match s.translate ctx va .write with
      | .ok l => s.homeWrite l.sa [x.2]
      | .error _ => s
    else s) s

/-- Saves one block: its core's writes are released at .sys, its log entries and its own unstarted engine entries go with it, and the
save area is written (R338 steps 4 and 5, R274). -/
def State.saveBlock (s : State) (b : Nat) (blk : Block) : State :=
  let core := coreOf b
  let s1 := (s.writeBackAt core .sys).writeSave blk.ctx core
  let c := s1.core core
  let own (e : ReEntry) : Bool := e.blk == b && e.age == blk.age
  let mine (e : LogEntry) : Bool := (e.slot, e.blk) == blk.tagPair
  let v : Saved :=
    { blk := { blk with saving := true, waves := blk.waves.map Wave.forSave }, die := dieOf core
      coop := s.isCoop blk.launch, core
      entries := (mapIdxed c.reQueues).flatMap fun q => (q.2.filter own).map fun e => (q.1, e), log := c.log.filter mine }
  let s2 := s1.setCore core { c with reQueues := c.reQueues.map fun q => q.filter fun e => !own e, log := c.log.filter fun e => !mine e }
  State.freeCore { (s2.delBlock b).unlink b with saved := s2.saved ++ [v] } b

/-- The entries that stay in a core's queues, of blocks that have retired, leave it unstarted (R338 step 4). -/
def State.parkCore (s : State) (core : Nat) : State :=
  let c := s.core core
  let l := (mapIdxed c.reQueues).flatMap fun q => q.2.map fun e => ({ core, q := q.1, entry := e } : Parked)
  if l.isEmpty then s else { s.setCore core { c with reQueues := [[], [], [], []] } with parked := s.parked ++ l }

/-- Pre-emption ends once every block of the context on its dies is quiet and the engines of the dies have drained: they are saved,
and the dies are free for another context (R338 step 6). -/
def State.endPreempt (s : State) (ctx : Nat) : State :=
  let dies := dieIds.filter fun d => s.saving.contains (ctx * 8 + d)
  let l := dies.flatMap fun d => s.blocksOf ctx d
  let cores := dies.flatMap coresOf
  if (l.all fun p => s.quiet p.1 p.2) && cores.all fun c => (s.core c).drained then
    let s1 := cores.foldl (fun s c => s.parkCore c) (l.foldl (fun s p => s.saveBlock p.1 p.2) s)
    { s1 with
      saving := s1.saving.filter fun k => k / 8 != ctx
      running := s1.running.filter fun r => !(r.1 / 8 == ctx && dies.contains (r.1 % 8))
      lastOut := dies.foldl (fun t d => tput t d (ctx + 1)) s1.lastOut }
  else s

/-- PREEMPT (R338): it begins, or ends when everything that it awaits has come. -/
def execPreempt (ctx die : Nat) (s : State) : Host.Outcome State Fault Refusal :=
  .next <|
    if s.saving.contains (ctx * 8 + die) then s.endPreempt ctx
    else if (s.blocksOf ctx die).isEmpty then s
    else s.startPreempt ctx die

/-- CTX_SCHED.quantum in µs (R336). -/
def State.quantum (s : State) (ctx : Nat) : Nat := bits (s.ctx ctx).sched.toNat 42 16

/-- A context's quantum on a die has run out, and another context of equal priority has a block that waits for the die
(R337). -/
def State.quantumOver (s : State) (ctx die : Nat) : Bool :=
  s.quantum ctx != 0 && !(s.blocksOf ctx die).isEmpty &&
  decide (tget 0 s.running (ctx * 8 + die) + clocksOfUs (s.quantum ctx) ≤ s.now) &&
  (s.waitsFor die).any fun w => w.1 != ctx && s.ctxPrio w.1 == s.ctxPrio ctx

/-- QUANTUM_EXPIRY (R337). -/
def execQuantumExpiry (ctx die : Nat) (s : State) : Host.Outcome State Fault Refusal :=
  .next <|
    if s.quantumOver ctx die ∧ !s.saving.contains (ctx * 8 + die) then s.startPreempt ctx die else s

/-- A context of higher priority has a block that waits for a die (R337). -/
def State.outranked (s : State) (ctx die : Nat) : Bool :=
  (s.waitsFor die).any fun w => w.1 != ctx && decide (s.ctxPrio ctx < s.ctxPrio w.1)

end Sys2Proof.Machine
end

