-- ==== Sys2Proof/Machine/Cp.lean ====
section
/-! DEFINITION. The command processor's queues and the scheduler's slots: rings, doorbells, acceptance, the journal,
completion, tear-down, levels and nodes (spec/15_scheduling.md R318 to R324, R326, R331 to R333, R335, R339, R341). -/

namespace Sys2Proof.Machine

/-! ### HWQ_CFG (R319) -/

def Hwq.en (h : Hwq) : Bool := h.cfg0.getLsbD 63
def Hwq.halted (h : Hwq) : Bool := h.cfg0.getLsbD 62
/-- The accepted commands of a queue stand still: halt is set, but not by a refused entry whose queue has then been disabled, which
leaves them to run (R324). -/
def Hwq.stalled (h : Hwq) : Bool := h.halted && !(bits h.cfg0.toNat 40 8 == 1 && !h.en)
def Hwq.prio (h : Hwq) : Nat := bits h.cfg0.toNat 60 2
/-- Entries of the ring: sizes above 12 act as 12. -/
def Hwq.entries (h : Hwq) : Nat := 16 * 2 ^ min 12 (bits h.cfg0.toNat 48 4)
def Hwq.base (h : Hwq) : Nat := bits h.cfg1.toNat 0 57
/-- The address of the entry of a sequence number (R320). -/
def Hwq.entryAt (h : Hwq) (n : Nat) : Nat := h.base + 64 + 32 * (n % h.entries)

/-- Whether a function owns a context or a queue (R385). -/
def fnOwns : Fn → Nat → Bool
  | .pf, n => decide (n < 256)
  | .vf v, n => decide (n < 256) && n / 16 == v

/-- Whether a function that PF0 has enabled owns a context or queue (R385). -/
def State.owns (s : State) (fn : Fn) (n : Nat) : Bool :=
  fnOwns fn n && match fn with | .pf => true | .vf v => s.pkg.vfs.contains v

/-- A ring access waits on a translation fault, or faults at once where it lies in another package (R233, log 14). -/
def State.ringHold (s : State) (q ctx va : Nat) (x : XFault) (kind : Nat) : State :=
  if s.isLocal va then
    let s1 := s.enterFault (s.localFault ioTable ctx va 7 x) (some (.cp q))
    s1.setHwq q { s1.hwq q with ringWait := some (granuleOf va, kind) }
  else s.ringFault q kind

/-- A ring word of this package translates for a write. -/
def State.ringWord (s : State) (ctx va : Nat) : Except XFault Nat :=
  if !s.isLocal va then .error ⟨0, 0⟩
  else match s.translate ctx va .write with
    | .ok l => .ok l.sa
    | .error x => .error x

/-- The ring header is read (R320): accept and done, or the queue waits or halts; one with a reserved byte set is malformed (R10)
and halts it as one that cannot be read (log 71). -/
def State.readHeader (s : State) (q : Nat) : State :=
  let h := s.hwq q
  match if s.isLocal h.base then s.readGlobal h.ctxNo h.base 64 else .error ⟨0, 0⟩ with
  | .error x => s.ringHold q h.ctxNo h.base x 6
  | .ok none => s.ringFault q 6
  | .ok (some b) =>
    if recField b 16 0 384 ≠ 0 then s.ringFault q 6 else
    let a := recField b 0 0 64
    let d := recField b 8 0 64
    s.setHwq q { h with
      accept := some a, announced := a, done := d
      cmds := h.cmds.filter fun c => !c.complete || (decide (d < c.seq) && decide (c.seq ≤ a)) }

/-- Reads the header of an enabled queue that has none yet and may read it. -/
def State.wantHeader (s : State) (q : Nat) : State :=
  let h := s.hwq q
  if h.en ∧ !h.halted ∧ h.accept.isNone ∧ h.ringWait.isNone then s.readHeader q else s

/-- The accept and done words of a ring header that a stack's reset took are written again (R342). -/
def State.rewriteHeader (s : State) (q : Nat) : State :=
  let h := s.hwq q
  match h.accept with
  | none => s.setHwq q { h with rewrite := false }
  | some a => match if s.isLocal h.base then s.translate h.ctxNo h.base .write else .error ⟨0, 0⟩ with
    | .ok l =>
      if s.accessWaits l.sa then s
      else (s.setHwq q { h with rewrite := false }).homeWrite l.sa (bytesOf 8 a ++ bytesOf 8 h.done)
    | .error x => if h.ringWait.isSome ∨ h.ringDead ∨ h.halted then s else s.ringHold q h.ctxNo h.base x 6

/-- HWQ_CFG word 0 after a write: en, prio and size are taken; halt is W1C; a function's write of ctx outside its range is
ignored (R319, R385). -/
def Hwq.cfgAfter (h : Hwq) (fn : Fn) (v : Dword) : Dword :=
  let n := v.toNat
  let ctx := if fnOwns fn (bits n 52 8) then bits n 52 8 else h.ctxNo
  let halt := h.halted && !v.getLsbD 62
  BitVec.ofNat 64 (bits n 63 1 * 2 ^ 63 + (if halt then 2 ^ 62 else 0) + bits n 60 2 * 2 ^ 60 + ctx * 2 ^ 52 +
    bits n 48 4 * 2 ^ 48 + bits h.cfg0.toNat 40 8 * 2 ^ 40)

/-- A write of HWQ_CFG word 0 (R319, R320, R323, R324): setting en zeroes the registers and reads the header; clearing it
abandons what is above accept; clearing halt resumes the queue. -/
def State.writeHwq0 (s : State) (fn : Fn) (q : Nat) (v : Dword) : State :=
  if !s.owns fn q then s
  else
    let h := s.hwq q
    let cfg0 := h.cfgAfter fn v
    let h1 := { h with cfg0, ringDead := h.ringDead && !v.getLsbD 62 }
    let h2 :=
      if !h.en ∧ h1.en then { h1 with w := [], accept := none, ringWait := none, ringDead := false, rewrite := false }
      else if h.en ∧ !h1.en then { h1 with announced := h.accept.getD h.announced }
      else h1
    (s.setHwq q h2).wantHeader q

/-- HWQ_ENABLE (R320): a write of HWQ_CFG word 0. -/
def execHwqEnable (fn : Fn) (q : Nat) (val : Dword) (s : State) : Host.Outcome State Fault Refusal :=
  .next (s.writeHwq0 fn q val)

/-- HWQ_HALT_CLEAR (R319, R324): halt is cleared, every other field written as it stands. -/
def execHwqHaltClear (fn : Fn) (q : Nat) (s : State) : Host.Outcome State Fault Refusal :=
  .next (s.writeHwq0 fn q ((s.hwq q).cfg0 ||| BitVec.ofNat 64 (2 ^ 62)))

/-- DOORBELL (R321): the sequence number with these low bits in accept + 1 to accept + 2^31, if it is news. -/
def execDoorbell (fn : Fn) (q : Nat) (val : Word) (s : State) : Host.Outcome State Fault Refusal :=
  let h := s.hwq q
  .next <| match h.accept with
    | none => s
    | some a =>
      let n := a + 1 + (val.toNat + 2 ^ 32 - (a + 1) % 2 ^ 32) % 2 ^ 32
      if s.owns fn q ∧ h.en ∧ n ≤ a + 2 ^ 31 ∧ h.announced < n then s.setHwq q { h with announced := n } else s

/-! ### The journal and acceptance (R321, R341) -/

/-- The die of a journal region in the die-local view (R217). -/
def jrnDie (j : Dword) : Nat := bits j.toNat 38 3
/-- Records that a region holds. -/
def jrnRoom (j : Dword) : Nat := 4096 * 2 ^ min 10 (bits j.toNat 59 4) / 64
/-- Journal records in use: a command's acceptance until its completion is durable. -/
def State.jrnUsed (s : State) : Nat := s.journal.length

/-- A region's die and stacks answer. -/
def State.jrnUp (s : State) (j : Dword) : Bool :=
  let d := jrnDie j
  !(s.die d).inReset && (upFrom (4 * d) 4).all fun k => !(s.stack k).inReset

/-- The storage address of a byte of a journal region (R217, R341). -/
def jrnAt (j : Dword) (off : Nat) : Nat := storageOf (bits j.toNat 12 30 * 4096 + off)

/-- The first place that no record takes. -/
def State.jrnSlot (s : State) : Nat :=
  ((upFrom 0 (s.journal.length + 1)).find? fun k => !s.journal.any fun r => r.slot == k).getD 0

/-- A journal region that is valid and whose die and stacks answer takes a record (R341); what a region misses is copied from its
twin when it returns (R342). -/
def State.jrnPut (s : State) (j : Dword) (slot : Nat) (bs : List Byte) : State :=
  if j.getLsbD 63 && s.jrnUp j then s.homeWrite (jrnAt j (64 * slot)) bs else s

/-- The 64 bytes of a record. -/
def jrnBytes (done : Bool) (r : JrnRec) : List Byte := (upFrom 0 64).map (Config.jrnByte done r.q r.seq r.entry)

/-- A record goes to both regions (R339, R341). -/
def State.jrnWrite (s : State) (done : Bool) (r : JrnRec) : State :=
  (s.jrnPut s.pkg.jrnA r.slot (jrnBytes done r)).jrnPut s.pkg.jrnB r.slot (jrnBytes done r)

/-- Commands may be accepted (R341). -/
def State.jrnOk (s : State) : Bool :=
  let a := s.pkg.jrnA
  let b := s.pkg.jrnB
  a.getLsbD 63 && b.getLsbD 63 && jrnDie a != jrnDie b && decide (s.jrnUsed < jrnRoom a) &&
  decide (s.jrnUsed < jrnRoom b) && s.jrnUp a && s.jrnUp b

/-- The checks of an entry (R321 step 1). -/
def entryOk (b : List Byte) (n : Nat) : Bool :=
  recField b 0 0 64 == n && recField b 8 57 7 == 0 && pcOk (recField b 8 0 57) && recField b 16 20 12 == 0 &&
  recField b 16 0 20 != 0 && recField b 20 0 32 == 0 && recField b 24 16 47 == 0

/-- A queue can take its next announced entry. -/
def State.canAccept (s : State) (q : Nat) : Bool :=
  let h := s.hwq q
  h.en && !h.halted && h.ringWait.isNone && !h.ringDead && !s.tornDown h.ctxNo && s.jrnOk &&
  match h.accept with
  | some a => decide (a < h.announced)
  | none => false

/-- COMMAND_ACCEPT (R321, R341): the entry is read and checked, journalled, and accept is written. -/
def execCommandAccept (q : Nat) (s : State) : Host.Outcome State Fault Refusal :=
  let h := s.hwq q
  let n := h.accept.getD 0 + 1
  let at_ := h.entryAt n
  .next <|
    if !s.canAccept q then s
    else match if s.isLocal at_ then s.readGlobal h.ctxNo at_ 32 else .error ⟨0, 0⟩ with
      | .error x => s.ringHold q h.ctxNo at_ x 1
      | .ok none => s.ringFault q 1
      | .ok (some b) =>
        if !entryOk b n then s.ringFault q 1
        else match s.ringWord h.ctxNo h.base with
          | .error x => s.ringHold q h.ctxNo h.base x 6
          | .ok sa =>
            let cmd : Cmd := { seq := n, entry := b, started := false, ended := false, fault := 0, live := 0, status := 0
                               complete := false }
            let r : JrnRec := { q, seq := n, entry := b, slot := s.jrnSlot }
            let s1 := State.jrnWrite { s with journal := s.journal ++ [r] } false r
            (s1.setHwq q { h with accept := some n, cmds := h.cmds ++ [cmd] }).homeWrite sa (bytesOf 8 n)

/-! ### Streams and completion (R322, R323, R339) -/

/-- The next accepted command of a queue that runs no stream. -/
def Hwq.nextCmd (h : Hwq) : Option Cmd :=
  if h.cur.isSome ∨ h.stalled then none else h.cmds.find? fun c => !c.started && !c.ended

/-- CONTROL_STREAM_START (R322, R323). -/
def execControlStreamStart (q : Nat) (s : State) : Host.Outcome State Fault Refusal :=
  let h := s.hwq q
  .next <| match h.nextCmd with
    | none => s
    | some c => s.setHwq q { h with
        cur := some c.seq, pc := BitVec.ofNat 57 (recField c.entry 8 0 57), left := recField c.entry 16 0 20, first := true
        wait := .no, cmds := h.cmds.map fun x => if x.seq = c.seq then { x with started := true } else x }

/-- A command whose stream has ended and whose launches have completed (R339). -/
def Hwq.ripe (h : Hwq) : Option Cmd := h.cmds.find? fun c => c.ended && c.live == 0 && !c.complete

/-- done after the completions at hand: the highest contiguous completed number. -/
def contiguous (cmds : List Cmd) : Nat → Nat → Nat
  | 0, d => d
  | f + 1, d => if cmds.any fun c => c.seq == d + 1 && c.complete then contiguous cmds f (d + 1) else d

/-- COMMAND_COMPLETE (R339, R341, R386): the status word, the completion record in the place of the acceptance, then done; its advance
interrupts. -/
def execCommandComplete (q : Nat) (s : State) : Host.Outcome State Fault Refusal :=
  let h := s.hwq q
  .next <| match h.ripe with
    | none => s
    | some c =>
      if h.ringWait.isSome ∨ h.ringDead then s
      else
        let at_ := h.entryAt c.seq + 24
        match s.ringWord h.ctxNo at_ with
        | .error x => s.ringHold q h.ctxNo at_ x 6
        | .ok sa => match s.ringWord h.ctxNo (h.base + 8) with
          | .error x => s.ringHold q h.ctxNo (h.base + 8) x 6
          | .ok sd =>
            let word := 2 ^ 63 + (if c.status = 5 then c.fault * 256 else 0) + c.status
            let cmds := h.cmds.map fun x => if x.seq = c.seq then { x with complete := true } else x
            let d := contiguous cmds cmds.length h.done
            let mine := s.journal.filter fun r => r.q == q && r.seq == c.seq
            let s0 := mine.foldl (fun s r => s.jrnWrite true r) (s.homeWrite sa (bytesOf 8 word))
            let s1 := { s0 with journal := s0.journal.filter fun r => !(r.q == q && r.seq == c.seq) }
            let s2 := s1.setHwq q { s1.hwq q with
              done := d, cmds := cmds.filter fun x => !(x.complete && decide (x.seq ≤ d)) }
            if d = h.done then s2 else (s2.homeWrite sd (bytesOf 8 d)).interrupt (s2.queueVector q false)

/-- WAITV_REREAD (R326, R512): the waiting stream reads its word again; a reply of a peer brings its word, or poison. -/
def execWaitvReread (q : Nat) (peerVal : Option (Option Dword)) (s : State) : Host.Outcome State Fault Refusal :=
  let h := s.hwq q
  .next <| match h.wait with
    | .test w =>
      if s.isLocal w.ea.toNat then s.tryWaitv q h.ctxNo w
      else match peerVal with
        | none => s.request h.ctxNo clsDemand .load w.ea.toNat (4 * regs64 w.w64) [] (cpTag q)
        | some none => s.cpFault q 6
        | some (some v) =>
          if waitTest w.cmp v w.comparand then (s.acquire (some .sys)).setHwq q h.advance
          else s.later (s.now + clocksOfUs 2) (.waitvReread q none)
    | _ => s

/-! ### Tear-down (R335, R336) -/

/-- A queue of a torn-down context: disabled, its streams stop, its accepted commands complete as cancelled. -/
def Hwq.tear (h : Hwq) : Hwq :=
  { h with
    cfg0 := h.cfg0 &&& ~~~(BitVec.ofNat 64 (2 ^ 63)), announced := h.accept.getD h.announced, cur := none, left := 0
    wait := .no, ringWait := none
    cmds := h.cmds.map fun c => if c.ended then c else { c with ended := true, status := worse c.status 1 } }

/-- Everything of a context is cancelled with .hard and its queues are disabled. -/
def State.tearDown (s : State) (ctx : Nat) : State :=
  if s.tornDown ctx then s
  else
    let c := s.ctx ctx
    let stopped := (s.blocks.filter fun p => p.2.ctx == ctx && p.2.stopped.isNone).length
    let s1 := s.setCtx ctx { c with
      sched := c.sched ||| BitVec.ofNat 64 (3 * 2 ^ 60), down := c.down + BitVec.ofNat 64 stopped }
    let s2 := { s1 with
      hwqs := s1.hwqs.map fun (p : Nat × Hwq) => if p.2.ctxNo = ctx then (p.1, p.2.tear) else p
      saving := s1.saving.filter fun k => k / 8 != ctx }
    let graphs := s2.nodes.filterMap fun p => if p.2.st ≠ 0 ∧ p.2.ctx = ctx then some p.2.graph else none
    let s3 := (distinct graphs).foldl (fun s g => s.cancelGraph g true) s2
    let mine := s3.launches.filterMap fun p => if p.2.alive ∧ p.2.ctx = ctx then some p.1 else none
    (s3.cancelTree true 4096 mine).retireStopped.startNodes

/-- TEARDOWN (R335). -/
def execTeardown (fn : Fn) (ctx : Nat) (s : State) : Host.Outcome State Fault Refusal :=
  .next (if s.owns fn ctx then s.tearDown ctx else s)

/-! ### Levels and nodes (R331 to R333) -/

/-- The slot of a level above a launch. -/
def State.levelSlot (s : State) (k : LevelKind) (n : Nat) : LevelSlot :=
  match k with | .graph => s.graph n | .phase => s.phase n | .job => s.job n
def State.setLevelSlot (s : State) (k : LevelKind) (n : Nat) (x : LevelSlot) : State :=
  match k with | .graph => s.setGraph n x | .phase => s.setPhase n x | .job => s.setJob n x
/-- Slots of a level, and the width of its generation (R330). -/
def levelSlots : LevelKind → Nat
  | .graph => 4096 | .phase => 256 | .job => 64
def levelGen : LevelKind → Nat
  | .graph => 18 | .phase => 22 | .job => 24

/-- LEVEL_ARM (R331), PF0 only (R385). -/
def execLevelArm (fn : Fn) (level : LevelKind) (slot : Nat) (val : Dword) (s : State) : Host.Outcome State Fault Refusal :=
  let x := s.levelSlot level slot
  let n := val.toNat
  let members := bits n 0 32
  let x1 := if level = .job then x else { x with parent := bits n 32 12 }
  .next <|
    if fn ≠ .pf ∨ levelSlots level ≤ slot then s
    else if !val.getLsbD 63 ∨ members = 0 ∨ (!x.counter.done ∧ x.counter.outstanding ≠ 0) then s.setLevelSlot level slot x1
    else s.setLevelSlot level slot { x1 with
      gen := nextGen (levelGen level) x.gen, counter := { Counter.reset with outstanding := members } }

/-- The writable fields of word 0 of a node: ctx, graph and nsucc; pred is counted apart. -/
def nodeWord0 (n ctx : Nat) : Dword :=
  BitVec.ofNat 64 (ctx * 2 ^ 52 + bits n 32 12 * 2 ^ 32 + bits n 24 8 * 2 ^ 24)

/-- NODE_ARM (R332, R333, R385): a write of word 0 arms the node, but in states 1 and 2; signals of its clock come after it. -/
def execNodeArm (fn : Fn) (node : Nat) (val : Dword) (s : State) : Host.Outcome State Fault Refusal :=
  let x := s.node node
  let n := val.toNat
  let ctx := if fnOwns fn (bits n 52 8) then bits n 52 8 else x.ctx
  let pred := bits n 0 16
  .next <|
    if 65536 ≤ node ∨ !s.owns fn x.ctx ∨ x.st = 1 ∨ x.st = 2 then s
    else
      let early := s.nodeSignals.filter (· == node)
      let s1 := State.setNode { s with nodeSignals := s.nodeSignals.filter (· != node) } node
        { x with word0 := nodeWord0 n ctx, pred, st := if pred = 0 then 2 else 1 }
      if pred = 0 then s1.settleAll [.start node] else s1.settleAll (early.map .signal)

end Sys2Proof.Machine
end

