-- ==== Sys2Proof/Machine/EvEngine.lean ====
section
/-! DEFINITION. The request engine's lines, its fences and queue slots, and the cycles of the matrix array
(spec/13_engines.md R287 to R293; spec/12_consistency.md R271 to R273; spec/14_matrix.md R307, R309, R316;
spec/16_fabric.md R365; spec/17_collectives.md R369 to R381). -/

namespace Sys2Proof.Machine

/-! ### What an entry still has to do -/

/-- The head entry of a request-engine queue. -/
def State.head? (s : State) (core q : Nat) : Option ReEntry := (lget [] (s.core core).reQueues q).head?

/-- The head entry leaves its queue. -/
def State.popHead (s : State) (core q : Nat) : State :=
  let c := s.core core
  s.setCore core { c with reQueues := lset c.reQueues q ((lget [] c.reQueues q).drop 1) }

def ReEntry.isCopy (e : ReEntry) : Bool := e.kind == .copy
def ReEntry.isFence (e : ReEntry) : Bool := match e.kind with | .fence _ _ => true | _ => false
/-- An op 1 request: a copy into a named queue. -/
def ReEntry.toQueue (e : ReEntry) : Bool := e.isCopy && cpOp e.record == 1
def ReEntry.isFill (e : ReEntry) : Bool := e.isCopy && cpOp e.record == 2
/-- The op of a one-sided record; 0 for any other entry. -/
def ReEntry.op (e : ReEntry) : Nat := match e.kind with | .oneSided => osOp e.record | _ => 0
def ReEntry.isFar (e : ReEntry) : Bool := e.kind == .oneSided && osFar e.record

/-- Source bytes of a request. -/
def ReEntry.total (e : ReEntry) : Nat :=
  match e.kind with
  | .copy => cpRows e.record * cpRowBytes e.record
  | .oneSided => osLen e.record
  | .fence _ _ => 0

/-- Bytes that a request counts on its barrier (R370). -/
def ReEntry.toCount (e : ReEntry) : Nat := if e.op = 5 then targetBytes (osElem e.record) e.total else e.total

/-- The class of an entry's packets (R287, R345). -/
def State.reClass (s : State) (q : Nat) (e : ReEntry) : Nat :=
  if e.inst.isSome || (s.ctx e.ctx).reQcfg.getLsbD (4 * q + 3) then clsColl else clsCopy

/-- The tag of a tagged write (R380). -/
def ReEntry.instTag (e : ReEntry) : Option (Nat × Nat) := e.inst.map fun x => (x.c, x.m)

/-- The submitting block, while it still holds its scratchpad. -/
def State.entryBlock (s : State) (e : ReEntry) : Option Block :=
  match s.block? e.blk with
  | some b => if b.age = e.age then some b else none
  | none => none

/-- Whether every member's latest notice lets a record of an instance leave (R381). -/
def State.instReady (s : State) (e : ReEntry) : Bool :=
  match e.inst with
  | none => true
  | some x => x.members.all fun p =>
      p == s.pkgNo || decide (x.m ≤ 1) || s.collNotices.any fun n => n.1 == p && n.2.1 == x.c && decide (x.m ≤ n.2.2 + 1)

/-! ### One part of a request (R162, R283, R288, R370) -/

/-- A part: where it is read, where it is written, and its source bytes. It lies in one line of each. -/
structure RePart where
  src : Option (Bool × Nat)
  dst : Option (Bool × Nat)
  n : Nat
  deriving DecidableEq, Repr

/-- Bytes from an address to the end of its line. -/
def lineRoom (a : Nat) : Nat := 128 - a % 128

/-- The next part of a copy (R283). -/
def State.copyPart (s : State) (e : ReEntry) : RePart :=
  let r := e.record
  let n := cpRowBytes r
  let row : Nat := e.done / n
  let col := e.done % n
  let src := (((cpSrc r : Int) + row * cpSrcStride r).toNat) + col
  let dst : Bool × Nat :=
    if cpOp r = 1 then
      match s.entryBlock e with
      | some b => (true, (b.queue (cpQueue r)).slotAt (e.slot.getD 0) + e.done)
      | none => (true, 0)
    else (cpDstSpad r, (((cpDst r : Int) + row * cpDstStride r).toNat) + col)
  let m := min (n - col) (lineRoom dst.2)
  if cpOp r = 2 then { src := none, dst := some dst, n := m }
  else { src := some (cpSrcSpad r, src), dst := some dst, n := min m (lineRoom src) }

/-- The next part of a one-sided request (R368, R369, R373). -/
def ReEntry.oneSidedPart (e : ReEntry) : RePart :=
  let r := e.record
  let el := osElem r
  let src := osSrc r + e.done
  let left := e.total - e.done
  let srcAt := (osLocSpad r && e.op != 2, src)
  if e.op = 5 then { src := some srcAt, dst := none, n := min (min left (4096 - e.done % 4096)) (lineRoom src) }
  else
    let dst := osDst r + targetBytes el e.done
    { src := some srcAt, dst := some (osLocSpad r && e.op == 2, dst)
      n := min (min left (lineRoom src)) (lineRoom dst / elemDst el * elemSrc el) }

/-- The next part of the head entry. -/
def State.rePart (s : State) (e : ReEntry) : RePart := if e.isCopy then s.copyPart e else e.oneSidedPart

/-- Claims that a part takes: one read and one write; a fill only the write, and MPUT.red, which writes no line, only the read
(R162). -/
def ReEntry.claims (e : ReEntry) : Nat := if e.isFill ∨ e.op = 5 then 1 else 2

/-- The next claim of the part in hand is for its read (R162). -/
def ReEntry.wantsRead (e : ReEntry) : Bool := e.got.isNone && !e.isFill

/-- A claim of the part in hand has been paid whose line has not moved: lines move in the clock of their payment (R163). -/
def ReEntry.due (e : ReEntry) : Bool := decide ((if e.wantsRead || e.isFill then 0 else 1) < e.paid)

/-- Bytes of a fill: byte j of a row is byte j mod 8 of the pattern (R283). -/
def fillBytes (r : List Byte) (done n : Nat) : List Byte :=
  let pat := bytesOf 8 (cpSrc r)
  (upFrom (done % cpRowBytes r) n).map fun j => lget 0 pat (j % 8)

/-! ### Counting (R289, R292) -/

/-- A count on a byte-count barrier at a scratchpad offset (R289). -/
def countWord (v n : Nat) (poison fault : Bool) : Nat :=
  let left := bits v 0 48
  let flag (k : Nat) (on : Bool) : Nat := if on || v.testBit k then 2 ^ k else 0
  flag 63 poison + flag 62 fault + flag 61 (decide (left < n)) + bits v 48 13 * 2 ^ 48 + (left - n)

/-- Bytes counted in a queue slot: at zero the slot is engine-filled (R292). -/
def SpQueue.countSlot (x : SpQueue) (slot n : Nat) : SpQueue :=
  match lget .free x.slots slot with
  | .filling left =>
    if left ≤ n then { x with filled := x.filled + 1, slots := lset x.slots slot .engineFilled, served := true }
    else { x with slots := lset x.slots slot (.filling (left - n)) }
  | _ => x

/-- Bytes of a request are counted, on its barrier or in its slot, while its block stands. -/
def Block.countFor (b : Block) (e : ReEntry) (n : Nat) (poison fault : Bool) : Block :=
  if e.toQueue then b.setQueue (cpQueue e.record) ((b.queue (cpQueue e.record)).countSlot (e.slot.getD 0) n)
  else
    let at' := if e.isCopy then cpBcb e.record else osBcb e.record
    if at' = noBcb then b
    else b.putSpad at' (bytesOf 8 (countWord (ofBytes (b.spadBytes at' 8)) n poison fault))

/-- The queue of an op 1 request has served its event of the clock: a fill waits for the next (R293). -/
def State.slotServed (s : State) (e : ReEntry) : Bool :=
  e.toQueue && (s.entryBlock e).any fun b => (b.queue (cpQueue e.record)).served

/-- Counts bytes of the head entry of a queue. -/
def State.reCount (s : State) (core q : Nat) (e : ReEntry) (n : Nat) (poison fault : Bool) : State :=
  let s1 := match s.entryBlock e with
    | some b => s.setBlock e.blk (b.countFor e n poison fault)
    | none => s
  s1.onHead core q fun x => { x with counted := x.counted + n }

/-! ### Reading and writing a part -/

/-- What reading a part gives. -/
inductive ReRead where
  | bytes (l : List Byte)
  | poison
  | held (va : Nat) (x : XFault)
  | ask (va : Nat)
  deriving DecidableEq, Repr

/-- Reads the source of a part: the scratchpad, or memory at its home with what the core's own caches hold of it (R271). -/
def State.reRead (s : State) (core : Nat) (e : ReEntry) (p : RePart) : ReRead :=
  match p.src with
  | none => .bytes (fillBytes e.record e.done p.n)
  | some (true, off) =>
    match s.entryBlock e with
    | some b => .bytes (b.spadBytes off p.n)
    | none => .bytes ((upFrom off p.n).map (Config.freeSpad s.freeCtr))
  | some (false, va) =>
    if s.isLocal va then
      match s.translate e.ctx va .read with
      | .error x => .held va x
      | .ok l => match (s.flushBytes core l.sa p.n).readHome l.sa p.n with
        | some bs => .bytes bs
        | none => .poison
    else .ask va

/-- A translation fault of the engine (R288): access 6; the queue waits. -/
def State.reHold (s : State) (core q : Nat) (e : ReEntry) (va : Nat) (x : XFault) : State :=
  (s.enterFault (s.localFault (dieOf core) e.ctx va 6 x) (some (.engine core q))).onHead core q fun e =>
    { e with held := some (granuleOf va) }

/-- The head entry has written, or sent, a part. -/
def ReEntry.moved' (e : ReEntry) (n acks : Nat) (poison : Bool) : ReEntry :=
  { e with done := e.done + n, step := n, acks, poisoned := poison, asked := false, paid := 0, held := none, got := none }

/-- A write of a part at a global address: performed here, or posted to its owner. -/
def State.rePut (s : State) (core q : Nat) (e : ReEntry) (va n : Nat) (data : List Byte) : State :=
  if s.isLocal va then
    match s.translate e.ctx va .write with
    | .error x => s.reHold core q e va x
    | .ok l => ((s.flushBytes core l.sa data.length).homeWrite l.sa data).onHead core q fun e => e.moved' n 0 false
  else
    (s.post core e.blk 0 0 e.ctx .write va data (s.reClass q e) (some q) e.instTag).onHead core q fun e => e.moved' n 1 false

/-- RADD of a part (R371): at the reducer here, or at the owner's. -/
def State.reAdd (s : State) (core q : Nat) (e : ReEntry) (va n : Nat) (data : List Byte) : State :=
  let el := osElem e.record
  if s.isLocal va then
    match s.translate e.ctx va .atomic with
    | .error x => s.reHold core q e va x
    | .ok l =>
      let s1 := s.flushBytes core l.sa (targetBytes el n)
      (s1.raddAt l.sa el data).onHead core q fun e => e.moved' n 0 (s1.isPoisoned l.sa)
  else
    let op : PeerOp := .radd (BitVec.ofNat 3 el) (e.done + n == e.total)
    (s.post core e.blk 0 0 e.ctx op va data (s.reClass q e) (some q) e.instTag).onHead core q fun e => e.moved' n 1 false

/-- The address of an offset in a member's window (R368). -/
def memberAddr (pkg off : Nat) : Nat := pkg * 2 ^ 45 + off

/-- A multicast part (R270, R370): a copy to each member. An ordered copy reaches this package, too, from the group's
sequencer. -/
def State.reCast (s : State) (core q : Nat) (e : ReEntry) (off n : Nat) (data : List Byte) : State :=
  match s.group e.ctx (osGrp e.record) with
  | none => s.onHead core q fun e => { e with fatal := true, paid := 0 }
  | some g =>
    let ord := e.op == 6
    let members := if ord then g.members else g.members.filter (· != s.pkgNo)
    let sent (s : State) : State := members.foldl (fun s p =>
      s.post core e.blk 0 0 e.ctx (.mputWrite ord) (memberAddr p off) data (s.reClass q e) (some q) e.instTag) s
    let own := memberAddr s.pkgNo off
    if ord then (sent s).onHead core q fun e => e.moved' n members.length false
    else match s.translate e.ctx own .write with
      | .error x => s.reHold core q e own x
      | .ok l => (sent ((s.flushBytes core l.sa data.length).homeWrite l.sa data)).onHead core q fun e =>
          e.moved' n members.length false

/-- Whether a chunk takes the endpoint path as far as this package knows (R374, R376). -/
def State.endpointPath (s : State) (ctx : Nat) (g : Group) (grp seq k : Nat) : Bool :=
  (s.ctx ctx).fabric.getLsbD 30 || (s.port g.plane).st != 2 || s.lost.contains (grp, seq, k)

/-- A contribution leaves: to the switches of the group's plane, or to the combining endpoint as a put. -/
def State.sendContribution (s : State) (ctx : Nat) (g : Group) (endpoint : Bool) (m : RedMsg) : State :=
  s.sendCtx ctx (if endpoint then .contribution g.pkg0 m else .reduction m.grp m g.plane)

/-- A part of MPUT.red is gathered; a whole chunk leaves (R373). -/
def State.reGather (s : State) (core q : Nat) (e : ReEntry) (n : Nat) (data : Option (List Byte)) : State :=
  let chunk := e.chunk ++ data.getD (copies 0 n)
  let bad := e.chunkBad || data.isNone
  let done := e.done + n
  if done % 4096 ≠ 0 ∧ done < e.total then
    s.onHead core q fun e => { e with done, chunk, chunkBad := bad, asked := false, paid := 0, held := none }
  else match s.group e.ctx (osGrp e.record) with
    | none => s.onHead core q fun e => { e with fatal := true, paid := 0 }
    | some g =>
      let k := (done - 1) / 4096
      let el := osElem e.record
      let m : RedMsg :=
        { job := (s.ctx e.ctx).fabric.setWidth 16, grp := osGrp e.record, seq := osSeq e.record, chunk := k, rank := g.rank
          len := e.total, elem := BitVec.ofNat 3 el, dst := osDst e.record + targetBytes el (4096 * k), poisoned := bad
          data := chunk }
      (s.sendContribution e.ctx g (s.endpointPath e.ctx g m.grp m.seq.toNat k) m).onHead core q fun e =>
        { e with done, chunk := [], chunkBad := false, sent := e.sent ++ [m], asked := false, paid := 0, held := none }

/-! ### Far requests (R365) -/

/-- An entry of the connection table: its 64 bytes, read in the tables of a context. -/
def State.connEntry (s : State) (ctx conn : Nat) : Option (List Byte) :=
  s.gather ctx (s.pkg.scoBase.toNat % 2 ^ 57 + 64 * conn) 64

/-- An entry of the connection table is well formed: its reserved fields are zero, and its mtu is assigned (R10, R365). -/
def connOk (e : List Byte) : Bool :=
  recField e 0 24 6 == 0 && recField e 4 24 8 == 0 && recField e 31 0 8 == 0 && recField e 32 5 27 == 0 &&
  recField e 32 3 2 != 3 && recField e 36 24 8 == 0 && recField e 48 57 7 == 0 && recField e 56 0 64 == 0

/-- Whether a connection is ready; a malformed entry names none (log 71). -/
def State.connReady (s : State) (ctx conn : Nat) : Bool :=
  match s.connEntry ctx conn with
  | some e => recField e 0 30 2 == 1 && connOk e
  | none => false

/-- A far request leaves, to be acknowledged in its turn (R365). -/
def State.sendFar (s : State) (core q : Nat) (e : ReEntry) (off n : Nat) (imm : Bool) (data : List Byte) : State :=
  let conn := osConn e.record
  { s.send (.far conn e.record off n imm data) with farOut := s.farOut ++ [(conn, core, q)] }

/-- A far part: a PUTS sends its bytes, a GET asks for them. -/
def State.reFar (s : State) (core q : Nat) (e : ReEntry) (n : Nat) (data : List Byte) : State :=
  if s.connReady e.ctx (osConn e.record) then
    if e.op = 1 then (s.sendFar core q e e.done n false data).onHead core q fun e => e.moved' n 1 false
    else (s.sendFar core q e e.done n false []).onHead core q fun e => { e with asked := true }
  else s.onHead core q fun e => { e with fatal := true, paid := 0 }

/-! ### A line (R288) -/

/-- The bytes of a part are at hand: they are written where they go. -/
def State.reWrite (s : State) (core q : Nat) (e : ReEntry) (p : RePart) (data : List Byte) : State :=
  if e.op = 5 then s.reGather core q e p.n (some data)
  else match p.dst with
    | none => s
    | some (true, off) =>
      let s1 := match s.entryBlock e with
        | some b => s.setBlock e.blk (b.putSpad off data)
        | none => s
      s1.onHead core q fun e => e.moved' p.n 0 false
    | some (false, va) =>
      if e.isFar && e.op == 1 then s.reFar core q e p.n data
      else if e.op = 3 then s.reAdd core q e va p.n data
      else if e.op = 4 ∨ e.op = 6 then s.reCast core q e va p.n data
      else s.rePut core q e va p.n data

/-- A poisoned source (R221, R288): no destination byte; the bytes count with poison. -/
def State.rePoison (s : State) (core q : Nat) (e : ReEntry) (n : Nat) : State :=
  if e.op = 5 then s.reGather core q e n none else s.onHead core q fun e => e.moved' n 0 true

/-- The tag under which an engine asks another package for a line. -/
def reTag (core q : Nat) : Nat := 2 ^ 32 + core * 4 + q

/-- The bytes of a part have been read: those of MPUT.red are gathered at once, others wait for the claim of their write. -/
def State.reGot (s : State) (core q : Nat) (e : ReEntry) (p : RePart) (data : List Byte) : State :=
  if e.op = 5 then s.reGather core q e p.n (some data)
  else s.onHead core q fun e => { e with got := some data, asked := false }

/-- Moves the next line, whose claim is paid: the read of the part in hand, then its write (R163). -/
def State.reMove (s : State) (core q : Nat) (e : ReEntry) : State :=
  let p := s.rePart e
  match e.got with
  | some l => s.reWrite core q e p l
  | none =>
    if e.isFill then s.reWrite core q e p (fillBytes e.record e.done p.n)
    else if e.isFar && e.op == 2 then s.reFar core q e p.n []
    else match s.reRead core e p with
      | .bytes l => s.reGot core q e p l
      | .poison => s.rePoison core q e p.n
      | .held va x => s.reHold core q e va x
      | .ask va => (s.request e.ctx (s.reClass q e) .load va p.n [] (reTag core q)).onHead core q fun e => { e with asked := true }

/-- The part that another package was asked for comes in: its bytes, or anything else for a poisoned line. -/
def State.reArrive (s : State) (core q : Nat) (e : ReEntry) (data : List Byte) : State :=
  let p := s.rePart e
  if data.length = p.n then s.reGot core q e p data else s.rePoison core q e p.n

/-- The address of this package that the next line of a part reads or writes, and the right that it needs. -/
def State.reNeed (s : State) (e : ReEntry) (p : RePart) : Option (Nat × Perm) :=
  let here (x : Nat × Perm) : Option (Nat × Perm) := if s.isLocal x.1 then some x else none
  if e.wantsRead then match p.src with | some (false, va) => here (va, .read) | _ => none
  else match p.dst with
    | some (false, va) =>
      if e.isFar && e.op == 1 || e.op == 6 then none
      else if e.op = 3 then here (va, .atomic)
      else if e.op = 4 then some (memberAddr s.pkgNo va, .write)
      else here (va, .write)
    | _ => none

/-- The translation fault of the next line (R288). -/
def State.reFault (s : State) (e : ReEntry) : Option (Nat × XFault) :=
  (s.reNeed e (s.rePart e)).bind fun x => match s.translate e.ctx x.1 x.2 with
    | .error f => some (x.1, f)
    | .ok _ => none

/-- The home of the next line cannot be reached (R181, R200). -/
def State.reAway (s : State) (e : ReEntry) : Bool :=
  (s.reNeed e (s.rePart e)).any fun x => s.addrWaits e.ctx x.1 x.2

/-- The signal of a request at one address (R370): here at the home, elsewhere a posted add. -/
def State.signalAt (s : State) (core q : Nat) (e : ReEntry) (va : Nat) : State :=
  if s.isLocal va then
    match s.translate e.ctx va .atomic with
    | .ok l => (s.flushBytes core l.sa 4).addWord l.sa (BitVec.ofNat 32 (osSigval e.record))
    | .error _ => s
  else (s.post core e.blk 0 0 e.ctx (.red .add false) va (bytesOf 4 (osSigval e.record)) (s.reClass q e) (some q)
    e.instTag).onHead core q fun e => { e with acks := e.acks + 1 }

/-- The signal of a request whose data is all visible (R370). -/
def State.reSignal (s : State) (core q : Nat) (e : ReEntry) : State :=
  let sig := osSig e.record
  let done (s : State) : State := s.onHead core q fun e => { e with signalled := true, held := none }
  if e.isFar then
    (s.sendFar core q e e.total 0 true (bytesOf 4 (osSigval e.record))).onHead core q fun e =>
      { e with signalled := true, acks := 1 }
  else
    let at' : List Nat :=
      if e.op = 4 ∨ e.op = 6 then
        match s.group e.ctx (osGrp e.record) with
        | some g => g.members.map fun p => memberAddr p sig
        | none => []
      else if e.op = 5 then [memberAddr s.pkgNo sig]
      else [sig]
    let fault := at'.findSome? fun va =>
      if s.isLocal va then match s.translate e.ctx va .atomic with | .error x => some (va, x) | .ok _ => none else none
    match fault with
    | some (va, x) => s.reHold core q e va x
    | none => done (at'.foldl (fun s va => s.signalAt core q e va) s)

/-- Whether a request ends with a signal. -/
def ReEntry.wantsSignal (e : ReEntry) : Bool := e.op != 0 && e.op != 2 && osSig e.record != 0 && !e.signalled

/-- The accesses that the submitting lanes made before an entry are performed: its block's earlier posted writes are
acknowledged and its wave's earlier reads of other packages have come (R271). -/
def State.reAfter (s : State) (core : Nat) (e : ReEntry) : Bool :=
  !(s.posted.any fun p => p.core == core && p.blk == e.blk && p.eng.isNone && decide (p.id < e.after)) &&
  (e.pends.isEmpty || !((s.wave? e.blk e.wave).any fun w => w.pend.any fun p => e.pends.contains p.id && p.waiting != 0))

/-- Whether an entry that has not begun may begin: no context is being saved on its die (R338), and what its lanes did before
it is performed (R271). -/
def State.mayStart (s : State) (core : Nat) (e : ReEntry) : Bool :=
  e.started || (!(s.saving.any fun k => k % 8 == dieOf core) && s.reAfter core e)

/-- A hold that the merge table of the core's die no longer knows (R233). -/
def State.reStray (s : State) (core : Nat) (e : ReEntry) : Bool :=
  match e.held with
  | none => true
  | some g => s.ownGranule g && !s.inTable (dieOf core) e.ctx g

/-- The head entry of a queue is to move its next line (R166, R292, R381). -/
def State.reWants (s : State) (core : Nat) (e : ReEntry) : Bool :=
  !e.isFence && !e.fatal && e.acks == 0 && e.step == 0 && !e.asked && decide (e.done < e.total) &&
  (!e.toQueue || e.slot.isSome) && s.instReady e && s.mayStart core e && s.reStray core e

/-- Whether the next line of the head entry can move once its claim is paid; one that a translation fault holds, or whose home
cannot be reached, makes no claim (R162, R163, R288). -/
def State.reReady (s : State) (core : Nat) (e : ReEntry) : Bool :=
  s.reWants core e && (s.reFault e).isNone && !s.reAway e

/-- What the head entry does next when no reply comes: it ends after a fatal answer, counts what is acknowledged, moves a
paid line, is held by a translation fault, signals, or leaves. A payment whose line cannot move any more is returned. -/
def State.reStep (s : State) (core q : Nat) (e : ReEntry) : State :=
  if e.isFence || e.acks != 0 || e.asked then s
  else if (e.fatal || e.step != 0) && s.slotServed e then s
  else if e.fatal then
    (if e.counted < e.toCount then s.reCount core q e (e.toCount - e.counted) false true else s).popHead core q
  else if e.step ≠ 0 then
    (s.reCount core q e e.step e.poisoned false).onHead core q fun e => { e with step := 0, poisoned := false }
  else if e.toQueue && e.slot.isNone && (s.entryBlock e).isNone then s.popHead core q
  else if e.done < e.total then
    if s.reReady core e then (if e.due then s.reMove core q e else s)
    else
      let s1 := if e.due then
          (s.refund core (s.priceOn core (s.cellPrice 11 0))).onHead core q fun e => { e with paid := e.paid - 1 }
        else s
      if s.reWants core e then match s.reFault e with
        | some (va, x) => s1.reHold core q e va x
        | none => s1
      else s1
  else if e.op = 5 ∧ e.counted < e.toCount then s
  else if !s.reStray core e then s
  else if e.wantsSignal then (if s.invalWait.isEmpty then s.reSignal core q e else s)
  else s.popHead core q

/-- RE_LINE (R288): a line that another package was asked for comes in, or the head entry goes on. An empty reply while
acknowledgements are awaited says that a target line was poisoned (R371). -/
def execReLine (core q : Nat) (peerData : Option (List Byte)) (s : State) : Host.Outcome State Fault Refusal :=
  match s.head? core q with
  | none => .next s
  | some e =>
    .next (match peerData with
      | none => s.reStep core q e
      | some l =>
        if e.asked then s.reArrive core q e l
        else if e.acks ≠ 0 then s.onHead core q fun e => { e with poisoned := true }
        else s)

/-- QUEUE_SLOT_TAKE (R292): the op 1 request at the head of a queue takes slot tail. -/
def execQueueSlotTake (core q : Nat) (s : State) : Host.Outcome State Fault Refusal :=
  match s.head? core q with
  | none => .next s
  | some e =>
    match s.entryBlock e with
    | none => .next s
    | some b =>
      let x := b.queue (cpQueue e.record)
      .next (if e.toQueue && e.slot.isNone && decide (0 < x.free) && !x.served && s.mayStart core e then
        let y := { x with free := x.free - 1, tail := (x.tail + 1) % x.count, slots := lset x.slots x.tail (.filling e.total), served := true }
        (s.setBlock e.blk (b.setQueue (cpQueue e.record) y)).onHead core q fun e => { e with slot := some x.tail }
      else s)

/-- The fence at the head of a queue: its mask and number. -/
def Core.fenceAt (c : Core) (q : Nat) : Option (BitVec 4 × Nat) :=
  match (lget [] c.reQueues q).head? with
  | some { kind := .fence mask id, .. } => some (mask, id)
  | _ => none

/-- A fence is at the head of every queue that it names. -/
def Core.fenceDue (c : Core) : Option (BitVec 4 × Nat) :=
  (upFrom 0 4).findSome? fun q => match c.fenceAt q with
    | some f => if (upFrom 0 4).all fun p => !f.1.getLsbD p || c.fenceAt p == some f then some f else none
    | none => none

/-- QFENCE_RELEASE (R273): a fence with nothing ahead of it in any queue that it names leaves them all. -/
def execQfenceRelease (core : Nat) (s : State) : Host.Outcome State Fault Refusal :=
  let c := s.core core
  .next (match c.fenceDue with
    | none => s
    | some f => s.setCore core
        { c with reQueues := mapIdx (fun q l => if f.1.getLsbD q then l.drop 1 else l) 0 c.reQueues })

/-! ### The matrix array (R306, R307, R309, R316) -/

/-- The value of an element of A or B with its zero point and scale (R306). -/
def State.mmaElem (s : State) (b : Nat) (blk : Block) (code zmode : Nat) (const : Byte) (p : Option ElemPlan) : Option MElem :=
  p.map fun p =>
    let z := match zmode with
      | 0 => 0
      | 1 => const.toNat
      | _ => match p.zero with | some y => s.spotNat b blk y | none => 0
    let scale := match p.scale with
      | some y => scaleValue (s.spotNat b blk y)
      | none => .num false 1 0
    mElem (wordFmt code) z (s.spotNat b blk p.el) scale

/-- One column of an MMA: every row's accumulator is updated (R154). -/
def Seq.mmaColumn (q : Seq) (col : Nat) (rows : List (List (Option MElem))) (b : List (Option MElem)) : Seq :=
  (mapIdxed rows).foldl (fun q r =>
    let (x, fl) := mUpdate (q.accAt col r.1) r.2 b
    { q.setAcc col r.1 x with mstat := q.mstat ||| fl, mstatNow := q.mstatNow ||| fl }) q

/-- The spots of a plan's element, for the groups of R304. -/
def elSpots (l : List (Option ElemPlan)) : List Spot := l.filterMap fun p => p.map (·.el)

/-- Column k of a list of rows. -/
def columnOf (rows : List (List (Option ElemPlan))) (k : Nat) : List (Option ElemPlan) := rows.map fun r => lget none r k

/-- The columns of an MMA's next array cycle. -/
def MmaRun.cols (r : MmaRun) : List Nat :=
  upFrom r.col (min (min (wordCols (fwA r.fw)) (wordCols (fwB r.fw))) (r.n - r.col))

/-- The plans of the rows of A, and of the columns of B that the next array cycle takes. -/
def MmaRun.plansA (r : MmaRun) (spadSize : Nat) : List (List (Option ElemPlan)) := (r.rowsA spadSize).map fun l => l.map planOf
def MmaRun.plansB (r : MmaRun) (spadSize : Nat) : List (Nat × List (Option ElemPlan)) :=
  r.cols.map fun j => (j, (r.colB spadSize j).map planOf)

/-- What keeps the next array cycle of an MMA from its operands, none where it can proceed. -/
def State.mmaWait (s : State) (b : Nat) (blk : Block) (r : MmaRun) : Option State :=
  let plans := (r.plansA blk.spadSize).flatten ++ (r.plansB blk.spadSize).flatMap (·.2)
  let spots := (plans.filterMap id).flatMap ElemPlan.spots
  s.spotsWait b blk .read spots spots

/-- One paid array cycle of a block's MMA; it is returned if the cycle cannot proceed any more (R163). -/
def State.mmaCycle (s : State) (core b : Nat) (blk : Block) (r : MmaRun) (price : Nat) : State :=
  let rows := r.plansA blk.spadSize
  let bs := r.plansB blk.spadSize
  match s.mmaWait b blk r with
  | some s1 => (s1.refund core price).onSeq b fun q => { q with paid := false }
  | none =>
    let a := rows.map fun l => l.map (s.mmaElem b blk (fwA r.fw) (fwZa r.fw) r.binds.zca)
    let conflictsA := if r.col = 0 then ((upFrom 0 64).map fun k => bankConflicts (elSpots (columnOf rows k))).foldl (· + ·) 0
      else 0
    let conflictsB := (bs.map fun x => bankConflicts (elSpots x.2)).foldl (· + ·) 0
    let q := bs.foldl (fun q x =>
      q.mmaColumn (r.c0 + x.1) a (x.2.map (s.mmaElem b blk (fwB r.fw) (fwZb r.fw) r.binds.zcb))) blk.seq
    let q1 := { q.addConflicts (conflictsA + conflictsB) with paid := false }
    let next := r.col + r.cols.length
    if r.n ≤ next then
      let c := s.core core
      ((s.setCore core { c with array := none }).onSeq b fun _ => { q1 with mma := none }).seqNext b id
    else s.onSeq b fun _ => { q1 with mma := some { r with col := next } }

/-- ARRAY_CYCLE (R307): one paid cycle of the MMA that the array serves. -/
def execArrayCycle (core : Nat) (s : State) : Host.Outcome State Fault Refusal :=
  match (s.core core).array.bind fun b => (s.block? b).map fun blk => (b, blk) with
  | none => .next s
  | some (b, blk) =>
    match blk.seq.mma with
    | none => .next s
    | some r =>
      let price := s.priceOn core (max (s.cellPrice 9 (fwA r.fw)) (s.cellPrice 9 (fwB r.fw)))
      .next (if blk.seq.paid && blk.seq.st == .mma && blk.runs then
          State.mmaCycle { s with issue := some { agent := .seq b, active := 0, price } } core b blk r price
        else s)

/-- Blocks of a core whose sequencer waits for the array, with the MMA that waits. -/
def State.arrayWaiters (s : State) (core : Nat) : List (Nat × Block × MmaRun) :=
  s.blocks.filterMap fun p => match p.2.seq.mma with
    | some r => if coreOf p.1 = core ∧ p.2.runs ∧ p.2.seq.st = .mma then some (p.1, p.2, r) else none
    | none => none

/-- Whether the array takes the first of two waiting MMAs before the second (R307). -/
def State.arrayBefore (s : State) (x y : Nat × Block × MmaRun) : Bool :=
  let age (z : Nat × Block × MmaRun) : Nat := (s.clk - z.2.2.since).toNat
  let old (z : Nat × Block × MmaRun) : Bool := decide (4096 ≤ age z)
  if old x || old y then (if old x && old y then decide (age y ≤ age x) else old x)
  else if x.2.1.prio ≠ y.2.1.prio then decide (y.2.1.prio < x.2.1.prio)
  else decide (age y ≤ age x)

/-- ARRAY_SELECT (R307): the free array takes the next waiting MMA. -/
def execArraySelect (core : Nat) (s : State) : Host.Outcome State Fault Refusal :=
  let c := s.core core
  .next (if c.array.isSome then s
    else match s.arrayWaiters core with
      | [] => s
      | x :: t =>
        let best := t.foldl (fun a y => if s.arrayBefore a y then a else y) x
        s.setCore core { c with array := some best.1 })

end Sys2Proof.Machine
end

