-- ==== Sys2Proof/Machine/Claims.lean ====
section
/-! DEFINITION. Token claims and their service (spec/08_tokens.md R161 to R166, R176; spec/13_engines.md R287). -/

namespace Sys2Proof.Machine

/-- The price of a claim on its core: the sum of the prices of its instructions (R161, R162). -/
def State.claimPrice (s : State) (core : Nat) (c : Claim) : Nat := (c.cells.map fun l => s.priceOn core (s.dearest l)).foldl (· + ·) 0

/-- The turns of the queues of one class, copy or collective, in their weighted round robin: queue k has 2^prio of them (R287). -/
def State.reTurns (s : State) (core : Nat) (coll : Bool) : List Nat :=
  (upFrom 0 4).flatMap fun q => match s.head? core q with
    | some e => if (s.reClass q e == clsColl) == coll then copies q (2 ^ bits (s.ctx e.ctx).reQcfg.toNat (4 * q) 2) else []
    | none => []

/-- A queue's head has a line to claim. -/
def State.reAsks (s : State) (core q : Nat) : Bool := (s.head? core q).any fun e => s.reReady core e && !e.due

/-- The turns of a class from its rotor's place on, with their places. -/
def State.reOrder (s : State) (core : Nat) (coll : Bool) : List (Nat × Nat) :=
  let l := mapIdxed (s.reTurns core coll)
  let c := s.core core
  let k := if l.isEmpty then 0 else (if coll then c.reRotorColl else c.reRotor) % l.length
  l.drop k ++ l.take k

/-- The queue of a class that is served next (R287). -/
def State.reNextOf (s : State) (core : Nat) (coll : Bool) : Option Nat :=
  ((s.reOrder core coll).find? fun x => s.reAsks core x.2).map (·.2)

/-- The queue for which the request engine claims a line: the classes take turns, and the queues of a class theirs (R287). -/
def State.reChoose (s : State) (core : Nat) : Option Nat :=
  let coll := (s.core core).reTurn == 1
  (s.reNextOf core coll).or (s.reNextOf core !coll)

/-- The request engine's claim stands from clock to clock until it is paid or withdrawn, and a reservation that it holds clears
with it (R163, R166); then it claims for the next queue. -/
def State.standEngine (s : State) (core : Nat) : State :=
  let c := s.core core
  if c.reNext.any (s.reAsks core) then s
  else s.setCore core { c with
    reNext := s.reChoose core, reservation := if c.reservation == some 5 then none else c.reservation }

/-- The places in the round robins after a line of a queue has been served (R287). -/
def State.reServed (s : State) (core q : Nat) : State :=
  let c := s.core core
  let coll := (s.head? core q).any fun e => s.reClass q e == clsColl
  let next := (((s.reOrder core coll).find? fun x => x.2 == q).map fun x => x.1 + 1).getD 0
  s.setCore core (if coll then { c with reNext := none, reRotorColl := next, reTurn := 0 }
    else { c with reNext := none, reRotor := next, reTurn := 1 })

/-- A wave's claim still stands: its block runs, and its lanes are live at one slot and not held (R166). -/
def State.waveClaimStands (s : State) (b i : Nat) (lanes : LaneSet) : Bool :=
  match s.block? b with
  | none => false
  | some blk => match blk.wave? i with
    | none => false
    | some w =>
      let l := lanesOf lanes
      blk.runs && !w.aborted && l.all (fun j => (w.lane j).isLive && (w.lane j).pc == (w.lane (l.headD 0)).pc) &&
      (w.heldLanes &&& lanes) == 0

/-- A sequencer's claim still stands. -/
def State.seqClaimStands (s : State) (b : Nat) : Bool :=
  match s.block? b with
  | none => false
  | some blk => s.seqReady b blk || (blk.runs && blk.seq.st == .mma && (s.core (coreOf b)).array == some b)

/-- Whether a claim stands. -/
def State.claimStands (s : State) (c : Claim) : Bool :=
  match c.agent with
  | some (.wave b i) => s.waveClaimStands b i c.lanes
  | some (.seq b) => s.seqClaimStands b
  | _ => false

/-- The claim that a claimant presents (R162). -/
def State.claimOf (s : State) (core who : Nat) : Option Claim :=
  if who = 5 then (s.core core).reNext.map fun _ => { claimant := 5, agent := none, lanes := 0, cells := [[(11, 0)]] }
  else (s.core core).claims.find? fun c => c.claimant == who

/-- A paid claim is removed; its work proceeds in this clock (R163): the turns that it gets. -/
def State.proceed (s : State) (core : Nat) (c : Claim) : State × List Turn :=
  let x := s.core core
  let s1 := s.setCore core { x with claims := x.claims.filter fun y => y.claimant != c.claimant }
  match c.agent with
  | some (.wave b i) =>
    let pc := ((s.wave? b i).map fun w => (w.lane ((lowLane c.lanes).getD 0)).pc).getD 0
    (s1, match c.cells.map s.dearest with
      | p :: t => .issue (.wave b i) c.lanes p :: t.map fun p2 => .second (.wave b i) c.lanes (succPc pc) p2
      | [] => [])
  | some (.seq b) =>
    if (s.block? b).any fun blk => blk.seq.st == .mma then
      (s1.onSeq b fun q => { q with paid := true }, [.ev (.arrayCycle core)])
    else (s1, [.issue (.seq b) 0 (s.dearest (c.cells.headD []))])
  | _ =>
    match x.reNext with
    | none => (s1, [])
    | some q => ((s1.onHead core q fun e => { e with paid := e.paid + 1 }).reServed core q, [.ev (.reLine core q none)])

/-- Pays a claim that the balance covers: the turns of its claimant. -/
def State.payClaim (s : State) (core : Nat) (c : Claim) : State × List (Nat × Turn) :=
  let (s1, l) := (s.pay core (s.claimPrice core c)).proceed core c
  (s1, l.map fun t => (c.claimant, t))

/-- Serves claimants in order; the first that the balance does not cover takes the reservation (R164 steps 2 and 3). -/
def State.serveClaims (s : State) (core : Nat) : List Nat → State × List (Nat × Turn)
  | [] => (s, [])
  | who :: rest =>
    match s.claimOf core who with
    | none => s.serveClaims core rest
    | some c =>
      if s.claimPrice core c ≤ (s.core core).bucket then
        let (s1, t) := s.payClaim core c
        let (s2, u) := State.serveClaims s1 core rest
        (s2, t ++ u)
      else (s.setCore core { s.core core with reservation := some who }, [])

/-- The claimants in the order of a clock of their die (R164 step 2). -/
def claimOrder (clk : Nat) : List Nat := (upFrom (clk % 6) 6).map fun k => k % 6

/-- Serves all claims of a core in a clock (R164). -/
def State.serveCore (s : State) (core : Nat) : State × List (Nat × Turn) :=
  let c := s.core core
  let order := claimOrder (s.die (dieOf core)).clocks
  match c.reservation with
  | none => s.serveClaims core order
  | some r =>
    match s.claimOf core r with
    | none => (s.setCore core { c with reservation := none }).serveClaims core order
    | some x =>
      if s.claimPrice core x ≤ c.bucket then
        let (s1, t) := (s.setCore core { c with reservation := none }).payClaim core x
        let (s2, u) := s1.serveClaims core (order.filter (· != r))
        (s2, t ++ u)
      else (s, [])

/-- Every wave whose claim stays unpaid counts a token-stall clock (R176). -/
def State.countStalls (s : State) (core : Nat) : State :=
  (s.core core).claims.foldl (fun s c => match c.agent with
    | some (.wave b i) => s.onWave b i fun w => { w with stall := w.stall + 1 }
    | _ => s) s

/-- Whether a core's clock runs and it does not test itself (R178, R190, R393). -/
def State.coreRuns (s : State) (core : Nat) : Bool := (s.die (dieOf core)).runs && !(s.core core).selfTest

/-- The turns of instructions that have been paid for before. -/
def State.freeTurns (s : State) (core : Nat) : List (Nat × Turn) :=
  ((s.core core).claims.filter (·.free)).filterMap fun c =>
    c.agent.map fun a => (c.claimant, .issue a c.lanes (s.dearest (c.cells.headD [])))

/-- The turns of a clock are taken in this order: the engine's, those of the partitions ascending, the array's and the sequencers'
(R293, R295). -/
def turnOrder (l : List (Nat × Turn)) : List Turn :=
  [5, 0, 1, 2, 3, 4].flatMap fun w => (l.filter fun x => x.1 == w).map (·.2)

/-- TOKEN_CLAIM_SERVICE (R164): claims that no longer stand are withdrawn (R166), the others are served. -/
def execTokenClaimService (core : Nat) (s : State) : Host.Outcome State Fault Refusal :=
  if !s.coreRuns core then .next s
  else
    let s1 := s.setCore core ((s.core core).withdraw fun c => !s.claimStands c)
    let paid := s1.freeTurns core
    let s2 := s1.setCore core { s1.core core with claims := (s1.core core).claims.filter fun c => !c.free }
    let (s3, turns) := (s2.standEngine core).serveCore core
    let s4 := s3.countStalls core
    .next { s4 with agenda := turnOrder (paid ++ turns) ++ s4.agenda }

end Sys2Proof.Machine
end

