-- ==== Sys2Proof/Machine/EvColl.lean ====
section
/-! DEFINITION. Collectives as messages of other packages reach this one: notices, tagged writes, results and contributions
of reductions (spec/07_arithmetic.md R155, R156; spec/16_fabric.md R343; spec/17_collectives.md R373 to R381). -/

namespace Sys2Proof.Machine

/-! ### Instances (R379 to R381) -/

/-- Sends a refused write again, in a new packet (R380). -/
def State.resendPosted (s : State) (p : Posted) : State :=
  s.request p.ctx p.cls p.op p.va p.data.length p.data p.id p.inst

/-- PCOLL_NOTICE (R380, R381): a member has started an instance; records that waited for it may leave, and the writes that it
had refused are sent again. -/
def execPcollNotice (srcPkg c m : Nat) (refused : List Nat) (s : State) : Host.Outcome State Fault Refusal :=
  let others := s.collNotices.filter fun x => !(x.1 == srcPkg && x.2.1 == c)
  let again := s.posted.filter fun p => refused.contains p.id && p.inst.isSome && ownerOf p.va == srcPkg
  .next (again.foldl State.resendPosted { s with collNotices := others ++ [(srcPkg, c, m)] })

/-- PCOLL_TAGGED_WRITE (R380): it comes in as its package's packets do, and is performed, held or refused. -/
def execPcollTaggedWrite (req : PeerReq) (s : State) : Host.Outcome State Fault Refusal :=
  .next (if req.inst.isSome then s.takePeer req else s)

/-! ### Elements of a reduction (R155, R373) -/

/-- A BF16 element in FP32, exactly; a NaN is the canonical one (R139, R151). -/
def widenBf16 (v : Nat) : Nat := if 0x7F80 < v % 2 ^ 15 then 0x7FC00000 else v * 2 ^ 16

/-- The FP32 or INT32 words of a contribution: BF16 is widened. -/
def redWords (elem : Nat) : Nat → List Byte → List Word
  | 0, _ => []
  | n + 1, l =>
    let z := elemSrc elem
    let v := ofBytes (l.take z)
    BitVec.ofNat 32 (if z = 2 then widenBf16 v else v) :: redWords elem n (l.drop z)

/-- One addition of R155. -/
def redAdd (elem : Nat) (a b : Word) : Word := if elem = 3 then a + b else addF32 a b

/-- Two partial sums added, the earlier one first; an empty one is none. -/
def redJoin (elem : Nat) (a b : List Word) : List Word :=
  if a.isEmpty then b else if b.isEmpty then a else List.zipWith (redAdd elem) a b

/-- The bytes that a result delivers: elem 4 is rounded once to BF16 (R369). -/
def redBytes (elem : Nat) (l : List Word) : List Byte :=
  l.flatMap fun w => if elem = 4 then bytesOf 2 (ffBf16.deliver .rn false (ffF32.value w.toNat)).1 else bytesOf 4 w.toNat

/-! ### The order of the fold (R156, R343, R374) -/

/-- The leaf of a package. -/
def leafOf (pkg : Nat) : Nat := pkg / 64

/-- The different leaves of a list of members, by their lowest rank. -/
def leavesOf (members : List Nat) : List Nat := (distinct (members.reverse.map leafOf)).reverse

/-- Ranks in the order of the fold: leaves by lowest rank, in each its ranks ascending; with each, whether its leaf ends. -/
def foldOrder (members : List Nat) : List (Nat × Bool) :=
  (leavesOf members).flatMap fun f =>
    let l := ((mapIdxed members).filter fun x => leafOf x.2 == f).map (·.1)
    (mapIdxed l).map fun x => (x.2, x.1 + 1 == l.length)

/-! ### Results (R373, R375) -/

/-- The queue whose head is the MPUT.red of a key: core, queue and entry. -/
def State.redEntry (s : State) (grp : Nat) (seq : Word) : Option (Nat × Nat × ReEntry) :=
  s.cores.findSome? fun c => (upFrom 0 4).findSome? fun q =>
    match s.head? c.1 q with
    | some e => if e.op = 5 ∧ osGrp e.record = grp ∧ osSeq e.record = seq then some (c.1, q, e) else none
    | none => none

/-- Bytes at an address cut into their lines. -/
def cutLines : Nat → Nat → List Byte → List (Nat × List Byte)
  | 0, _, _ => []
  | n + 1, va, l => if l.isEmpty then [] else (va, l.take (lineRoom va)) :: cutLines n (va + lineRoom va) (l.drop (lineRoom va))

/-- The pieces of a delivery with their storage addresses, or the first failed translation. -/
def State.placePieces (s : State) (ctx : Nat) : List (Nat × List Byte) → Except (Nat × XFault) (List (Nat × List Byte))
  | [] => .ok []
  | (va, l) :: t =>
    match s.translate ctx va .write, s.placePieces ctx t with
    | .error x, _ => .error (va, x)
    | _, .error x => .error x
    | .ok leaf, .ok r => .ok ((leaf.sa, l) :: r)

/-- Writes pieces at their homes. -/
def State.putPieces (s : State) (l : List (Nat × List Byte)) : State := l.foldl (fun s x => s.homeWrite x.1 x.2) s

/-- The chunk of an entry is counted, and its contribution need not be kept. -/
def State.redCounted (s : State) (core q : Nat) (e : ReEntry) (k n : Nat) (poison : Bool) : State :=
  (s.reCount core q e n poison false).onHead core q fun e =>
    { e with delivered := sins e.delivered k, sent := e.sent.filter fun m => m.chunk != k }

/-- A result whose bytes this member has counted already, or whose request has left its queue (R375). -/
def State.redAgain (s : State) (msg : RedMsg) (pieces : List (Nat × List Byte)) : State :=
  match s.ctxOfJob msg.job with
  | none => s
  | some ctx => match s.placePieces ctx pieces with
    | .ok l => if msg.poisoned then s else s.putPieces l
    | .error _ => s

/-- REDUCTION_RESULT (R373, R375): a chunk's result, in the bytes that it delivers, reaches this member. A translation fault
holds it with its queue (R288). -/
def execReductionResult (msg : RedMsg) (s : State) : Host.Outcome State Fault Refusal :=
  let pieces := cutLines 129 (memberAddr s.pkgNo msg.dst) msg.data
  let s0 := { s with lost := s.lost.filter (· != (msg.grp, msg.seq.toNat, msg.chunk)) }
  .next (match s.redEntry msg.grp msg.seq with
    | none => s0.redAgain msg pieces
    | some (core, q, e) =>
      if e.delivered.contains msg.chunk then s0.redAgain msg pieces
      else match e.sent.find? fun m => m.chunk == msg.chunk with
        | none => s0
        | some own =>
          let n := targetBytes (osElem e.record) own.data.length
          if msg.poisoned then s0.redCounted core q e msg.chunk n true
          else if !s.reStray core e then s.later (s.now + clocksOfUs 1) (.reductionResult msg)
          else match s.placePieces e.ctx pieces with
            | .error (va, x) => (s.reHold core q e va x).later (s.now + clocksOfUs 1) (.reductionResult msg)
            | .ok l => ((s0.putPieces l).redCounted core q e msg.chunk n false).onHead core q fun e => { e with held := none })

/-! ### The endpoint path (R374, R376) -/

/-- The kept contribution of a chunk, with its queue, entry and group. -/
def State.keptContribution (s : State) (grp : Nat) (seq : Word) (chunk : Nat) : Option (Nat × Group × RedMsg) :=
  match s.redEntry grp seq with
  | none => none
  | some (_, _, e) =>
    match e.sent.find? (fun m => m.chunk == chunk), s.group e.ctx grp with
    | some m, some g => some (e.ctx, g, m)
    | _, _ => none

/-- LOST_NOTICE (R374, R376): the chunk takes the endpoint path, at once if it has left already. -/
def execLostNotice (grp : Nat) (seq : Word) (chunk : Nat) (s : State) : Host.Outcome State Fault Refusal :=
  let key := (grp, seq.toNat, chunk)
  let s1 := { s with lost := if s.lost.contains key then s.lost else s.lost ++ [key] }
  .next (match s.keptContribution grp seq chunk with
    | some (ctx, g, m) => s1.sendContribution ctx g true m
    | none => s1)

/-- CONTRIBUTION_RESEND (R374): a refused contribution goes to the endpoint again. -/
def execContributionResend (grp : Nat) (seq : Word) (chunk : Nat) (s : State) : Host.Outcome State Fault Refusal :=
  .next (match s.keptContribution grp seq chunk with
    | some (ctx, g, m) => s.sendContribution ctx g true m
    | none => s)

/-- The stack in whose combine area a contribution would wait: that of its target here. -/
def State.combineStack (s : State) (ctx : Nat) (m : RedMsg) : Nat :=
  match s.translate ctx (memberAddr s.pkgNo m.dst) .write with
  | .ok l => stackOf l.sa
  | .error _ => 0

/-- Bytes that wait in the combine area of a stack. -/
def State.combineBytes (s : State) (ctx k : Nat) : Nat :=
  ((s.combine.flatMap (·.held)).filter fun m => s.combineStack ctx m == k).foldl (fun n m => n + m.data.length) 0

/-- One contribution joins the fold. -/
def Combine.fold (c : Combine) (last : Bool) (m : RedMsg) : Combine :=
  let el := m.elem.toNat
  let same := c.first.len == m.len && c.first.elem == m.elem && c.first.dst == m.dst
  let leaf := redJoin el c.leaf (redWords el (m.data.length / elemSrc el) m.data)
  let c1 := { c with folded := c.folded + 1, poisoned := c.poisoned || m.poisoned || !same }
  if last then { c1 with leaf := [], sum := redJoin el c.sum leaf } else { c1 with leaf }

/-- Folds the contributions that are there, in their turn. -/
def Combine.drain (c : Combine) : List (Nat × Bool) → Combine
  | [] => c
  | (rank, last) :: t =>
    match c.held.find? fun m => m.rank == rank with
    | some m => Combine.drain ({ c with held := c.held.filter (· != m) }.fold last m) t
    | none => c

/-- The endpoint's result goes to every member (R374). -/
def State.sendResult (s : State) (ctx : Nat) (g : Group) (c : Combine) : State :=
  let el := c.first.elem.toNat
  let msg : RedMsg := { c.first with poisoned := c.poisoned, data := if c.poisoned then [] else redBytes el c.sum }
  let s1 := (g.members.filter (· != s.pkgNo)).foldl (fun s p => s.sendCtx ctx (.redResult p msg)) s
  s1.soon (.reductionResult msg)

/-- A contribution at the combining endpoint: in its turn it is folded, else it is held, or refused with a full area. -/
def State.takeContribution (s : State) (ctx : Nat) (g : Group) (msg : RedMsg) : State :=
  let mine (c : Combine) : Bool := c.grp == msg.grp && c.seq == msg.seq && c.chunk == msg.chunk
  let c : Combine := (s.combine.find? mine).getD
    { grp := msg.grp, seq := msg.seq, chunk := msg.chunk, first := msg, folded := 0, leaf := [], sum := [], held := []
      poisoned := false }
  let order := foldOrder g.members
  let left := order.drop c.folded
  let inTurn := left.head?.any fun x => x.1 == msg.rank
  let known := !(left.any fun x => x.1 == msg.rank) || c.held.any fun m => m.rank == msg.rank
  let k := s.combineStack ctx msg
  if known then s
  else if !inTurn && (!s.pkg.eaBase.getLsbD 63 || decide (65536 < s.combineBytes ctx k + msg.data.length)) then
    s.sendCtx ctx (.contributionRefused (lget 0 g.members msg.rank) msg)
  else
    let c1 := Combine.drain { c with held := c.held ++ [msg] } left
    let s1 := { s with combine := s.combine.filter fun c => !mine c }
    if order.length ≤ c1.folded then s1.sendResult ctx g c1 else { s1 with combine := s1.combine ++ [c1] }

/-- ENDPOINT_CONTRIBUTION (R374): a member's contribution reaches this package as rank 0. -/
def execEndpointContribution (msg : RedMsg) (s : State) : Host.Outcome State Fault Refusal :=
  .next (match s.ctxOfJob msg.job with
    | none => s
    | some ctx => match s.group ctx msg.grp with
      | some g => if g.pkg0 = s.pkgNo then s.takeContribution ctx g msg else s
      | none => s)

end Sys2Proof.Machine
end

