-- ==== Sys2Proof/Machine/EvSco.lean ====
section
/-! DEFINITION. The scale-out ports: incoming RDMA requests, and acknowledgements of this package's own (spec/16_fabric.md
R365, R366). -/

namespace Sys2Proof.Machine

/-! ### Connections -/

def connLqpn (e : List Byte) : Nat := recField e 0 0 24
def connCtx (e : List Byte) : Nat := recField e 30 0 8
def connPort (e : List Byte) : Nat := recField e 32 0 3
def connLkey (e : List Byte) : Nat := recField e 44 0 32
def connSig (e : List Byte) : Nat := recField e 48 0 57

/-- The ready connection that a packet belongs to (R366): its index and entry. The table is read in context 0 (log 22). -/
def State.connOf (s : State) (m : ScoMsg) : Option (Nat × List Byte) :=
  (upFrom 0 4096).findSome? fun i => match s.connEntry 0 i with
    | some e =>
      if recField e 0 30 2 = 1 ∧ connOk e ∧ connLqpn e = m.qpn.toNat ∧ connPort e = m.port then some (i, e) else none
    | none => none

/-- Whether a scale-out port takes a packet: it is enabled, and the packet is addressed to it (R366). -/
def State.scoTakes (s : State) (m : ScoMsg) : Bool :=
  m.macOk && decide (m.port < 8) && (lget 0 (lget [] s.pkg.sco m.port) 0).getLsbD 63

/-- A connection enters state error (R365, R366). -/
def State.connError (s : State) (ctx conn : Nat) : State :=
  match s.connEntry ctx conn, s.translate ctx (s.pkg.scoBase.toNat % 2 ^ 57 + 64 * conn) .write with
  | some e, .ok l => s.homeWrite l.sa (bytesOf 4 (recField e 0 0 30 + 2 * 2 ^ 30))
  | _, _ => s

/-- A remote access error: the request is answered so, and the connection enters state error (R366). -/
def State.scoNak (s : State) (m : ScoMsg) (conn : Nat) : State :=
  (s.send (.scoReply m.port m.qpn.toNat false [])).connError 0 conn

/-! ### Incoming requests (R366) -/

/-- The key and address checks. -/
def State.scoChecks (s : State) (m : ScoMsg) (e : List Byte) : Bool :=
  m.key.toNat == connLkey e && decide (m.va.toNat < 2 ^ 57) && (ownerOf m.va.toNat == 0 || ownerOf m.va.toNat == s.pkgNo)

/-- Pieces of an access with their storage addresses, under a permission, or the first failed translation. -/
def State.scoPieces (s : State) (ctx : Nat) (need : Perm) :
    List (Nat × List Byte) → Except (Nat × XFault) (List (Nat × List Byte))
  | [] => .ok []
  | (va, l) :: t =>
    match s.translate ctx va need, s.scoPieces ctx need t with
    | .error x, _ => .error (va, x)
    | _, .error x => .error x
    | .ok leaf, .ok r => .ok ((leaf.sa, l) :: r)

/-- A failed translation (R366): a permission fault is a remote access error; an absent page emits one record with access 8,
and the access is dropped without acknowledgement. -/
def State.scoFault (s : State) (m : ScoMsg) (conn ctx va : Nat) (x : XFault) : State :=
  if x.kind = 1 ∨ x.kind = 2 then s.scoNak m conn
  else s.enterFault (s.localFault ioTable ctx va 8 x) none

/-- What the incoming requests share: acceptance and checks, then translation of bytes of this package's window. A granule
that the driver answered as fatal makes the resend a remote access error. -/
def State.scoIn (s : State) (self : Instr) (m : ScoMsg) (need : Perm) (bytes : List Byte)
    (go : Nat → List Byte → List (Nat × List Byte) → State) : State :=
  if !s.scoTakes m then s
  else match s.connOf m with
    | none => s
    | some (conn, e) =>
      let ctx := connCtx e
      let va := memberAddr s.pkgNo (m.va.toNat % 2 ^ 45)
      let pieces := cutLines (bytes.length + 1) va bytes
      let dead := pieces.find? fun p => s.scoFatal.contains (ctx, granuleOf p.1)
      if !s.scoChecks m e then s.scoNak m conn
      else match dead with
        | some p => ({ s with scoFatal := s.scoFatal.filter (· != (ctx, granuleOf p.1)) }).scoNak m conn
        | none => match s.scoPieces ctx need pieces with
          | .error (a, x) => s.scoFault m conn ctx a x
          | .ok l => match l.find? fun x => s.accessWaits x.1 with
            | some x => s.waitAtHome (homeDie x.1) self
            | none => go conn e l

/-- SCO_RDMA_WRITE (R366). -/
def execScoRdmaWrite (msg : ScoMsg) (s : State) : Host.Outcome State Fault Refusal :=
  .next (s.scoIn (.scoRdmaWrite msg) msg .write msg.data fun _ _ l => (s.putPieces l).send (.scoReply msg.port msg.qpn.toNat true []))

/-- SCO_WRITE_IMMEDIATE (R365, R366): its data, then its add to the signal word, which waits until every copy of what was
written is gone (R349). -/
def execScoWriteImmediate (msg : ScoMsg) (imm : Word) (s : State) : Host.Outcome State Fault Refusal :=
  .next (s.scoIn (.scoWriteImmediate msg imm) msg .write msg.data fun conn e l =>
    let sig := memberAddr s.pkgNo (connSig e % 2 ^ 45)
    match s.translate (connCtx e) sig .atomic with
    | .error x => s.scoFault msg conn (connCtx e) sig x
    | .ok leaf =>
      let s1 := s.putPieces l
      if s1.invalWait.isEmpty then (s1.addWord leaf.sa imm).send (.scoReply msg.port msg.qpn.toNat true [])
      else s1.later (s.now + 1) (.scoWriteImmediate { msg with data := [] } imm))

/-- SCO_RDMA_READ (R366); a poisoned line is answered as an error. -/
def execScoRdmaRead (msg : ScoMsg) (s : State) : Host.Outcome State Fault Refusal :=
  .next (s.scoIn (.scoRdmaRead msg) msg .read (copies 0 msg.len) fun _ _ l =>
    let bad := l.any fun x => s.isPoisoned x.1
    s.send (.scoReply msg.port msg.qpn.toNat (!bad) (if bad then [] else l.flatMap fun x => s.homeBytes x.1 x.2.length)))

/-! ### This package's own far requests (R365) -/

/-- The oldest far request of a connection that is not acknowledged, and the list without it. -/
def takeFar (conn : Nat) : List (Nat × Nat × Nat) → Option ((Nat × Nat) × List (Nat × Nat × Nat))
  | [] => none
  | (c, x) :: t =>
    if c = conn then some (x, t)
    else match takeFar conn t with
      | some (y, r) => some (y, (c, x) :: r)
      | none => none

/-- SCO_ACK (R365): the remote side has acknowledged a connection's oldest request; a GET's bytes come with it. -/
def execScoAck (conn : Nat) (data : List Byte) (s : State) : Host.Outcome State Fault Refusal :=
  match takeFar conn s.farOut with
  | none => .next s
  | some ((core, q), rest) =>
    let s1 := { s with farOut := rest }
    .next (match s1.head? core q with
      | none => s1
      | some e =>
        if e.asked then s1.reArrive core q e data
        else s1.onHead core q fun e => { e with acks := e.acks - 1 })

/-- SCO_RETRY_EXHAUSTED (R365): the connection enters state error, and its outstanding requests end with the fault flag. -/
def execScoRetryExhausted (conn : Nat) (s : State) : Host.Outcome State Fault Refusal :=
  let mine := s.farOut.filter fun x => x.1 == conn
  let ctx := match mine.head? with
    | some x => match s.head? x.2.1 x.2.2 with | some e => e.ctx | none => 0
    | none => 0
  let s1 := { s with farOut := s.farOut.filter fun x => x.1 != conn }.connError ctx conn
  .next (mine.foldl (fun s x => s.onHead x.2.1 x.2.2 fun e => { e with acks := 0, asked := false, fatal := true }) s1)

end Sys2Proof.Machine
end

