-- ==== Sys2Proof/Machine/EvLink.lean ====
section
/-! DEFINITION. Swiul links, the package number and time alignment (spec/16_fabric.md R344, R350 to R354). -/

namespace Sys2Proof.Machine

/-! ### Link states (R351, R353) -/

def stDown : Nat := 0
def stTraining : Nat := 1
def stActive : Nat := 2
def stRetraining : Nat := 3
def stMisplaced : Nat := 4
def stRetired : Nat := 5

/-- SWL_ID.valid. -/
def State.idValid (s : State) : Bool := s.pkg.swlId.getLsbD 31

/-- A port leaves a state whose condition for leaving holds: Active or Misplaced without en goes Down, Down with en and a
valid package number trains (R351). -/
def Port.settle (p : Port) (valid : Bool) : Port :=
  let p1 := if !p.en && (p.st == stActive || p.st == stMisplaced) then { p with st := stDown } else p
  if p1.st = stDown ∧ p1.en ∧ valid then { p1 with st := stTraining, attempts := 0, rxNext := 0, rxFails := 0 } else p1

/-- A change to a port that exists; Milliner logs a port that retires (R392), and what has not left by a port that carries no more
traffic leaves by others. -/
def State.onPort (s : State) (p : Nat) (f : Port → Port) : State :=
  if p < 48 then
    let x := (f (s.port p)).settle s.idValid
    let s0 := s.setPort p x
    let s1 := if (x.st == stDown || x.st == stRetired) && !x.tx.isEmpty then s0.reroute p else s0
    if x.st = stRetired ∧ (s.port p).st ≠ stRetired then s1.logEvent 9 3 p [] else s1
  else s

/-- A counter of LINK_STAT saturates (R353). -/
def sat16 (n : Nat) : Nat := min 0xFFFF n

/-- An entry to Retraining: it adds one to the bucket, or retires the port where the bucket is full (R352). -/
def Port.retrain (p : Port) : Port :=
  if 6 ≤ p.bucket then { p with st := stRetired }
  else { p with st := stRetraining, bucket := p.bucket + 1, retrains := sat16 (p.retrains + 1), attempts := 0 }

/-- LINK_RETRAIN (R350, R352): an Active port goes to Retraining. -/
def execLinkRetrain (port : Nat) (s : State) : Host.Outcome State Fault Refusal :=
  .next (s.onPort port fun p => if p.st = stActive then p.retrain else p)

/-- One attempt at training has failed; the third retires the port (R351). -/
def Port.failed (p : Port) : Port :=
  if 2 ≤ p.attempts then { p with st := stRetired, attempts := 0 } else { p with attempts := p.attempts + 1 }

/-- Once it is Active again the sender sends again from the oldest flit that is not acknowledged (R350). -/
def Port.resend (p : Port) : Port := p.replay 0

/-- LINK_TRAINING_DONE (R344, R351). -/
def execLinkTrainingDone (port : Nat) (result : TrainEnd) (s : State) : Host.Outcome State Fault Refusal :=
  .next (s.onPort port fun p =>
    if p.st = stTraining ∨ p.st = stRetraining then
      match result with
      | .trained => { p with st := stActive, attempts := 0, rxFails := 0 }.resend
      | .mismatch => if p.st = stTraining then { p with st := stMisplaced } else p.failed
      | .failed => p.failed
    else p)

/-- LINK_CTL_EN (R351). -/
def execLinkCtlEn (port : Nat) (en : Bool) (s : State) : Host.Outcome State Fault Refusal :=
  .next (s.onPort port fun p => { p with en })

/-- LINK_CTL_REVIVE (R351, R353). -/
def execLinkCtlRevive (port : Nat) (s : State) : Host.Outcome State Fault Refusal :=
  .next (s.onPort port fun p => if p.st = stRetired then { p with st := stDown, bucket := 0 } else p)

/-- LINK_CTL_CLR (R353). -/
def execLinkCtlClr (port : Nat) (s : State) : Host.Outcome State Fault Refusal :=
  .next (s.onPort port fun p => { p with retrains := 0, replays := 0, crc := 0 })

/-- RETRAIN_BUCKET_LEAK (R352). -/
def execRetrainBucketLeak (s : State) : Host.Outcome State Fault Refusal :=
  .next { s with ports := s.ports.map fun p => { p with bucket := p.bucket - 1 } }

/-! ### Flits (R350) -/

/-- A flit at an Active port: delivered in its turn, and what it says of the flits sent is followed; one with an error is counted and asked for again; any other is
discarded. -/
def Port.receive (p : Port) (seq : Nat) (flit : List Byte) : Port :=
  if flitOk flit then
    if seq = p.rxNext then
      { p with delivered := p.delivered ++ [flit.take 252], rxNext := p.rxNext + 1, rxFails := 0 }.heard (flit.take 252)
    else p
  else if seq = p.rxNext then
    { p with crc := sat16 (p.crc + 1), replays := sat16 (p.replays + 1), rxFails := p.rxFails + 1 }
  else { p with crc := sat16 (p.crc + 1) }

/-- FLIT_RECEIVE (R350): the third failed replay of one flit retrains the link. -/
def execFlitReceive (port seq : Nat) (flit : List Byte) (s : State) : Host.Outcome State Fault Refusal :=
  .next (if (s.port port).st ≠ stActive then s
    else
      let s1 := s.onPort port fun p => p.receive seq flit
      if 4 ≤ (s1.port port).rxFails then (s1.onPort port fun p => { p with rxFails := 0 }).soon (.linkRetrain port) else s1)

/-! ### The package number (R344) -/

/-- Whether SWL_ID can be written: every port is Down, and no launch lives. -/
def State.idWritable (s : State) : Bool :=
  (s.ports.all fun p => p.st == stDown) && !(s.launches.any fun l => l.2.alive)

/-- SWL_ID (R344): ports that are enabled begin to train once the number is valid. -/
def execSwlId (val : Word) (s : State) : Host.Outcome State Fault Refusal :=
  .next (if !s.idWritable then s
    else
      let id := val &&& 0x8FFFFFFF
      { s with pkg := { s.pkg with swlId := id }, ports := s.ports.map fun p => p.settle (id.getLsbD 31) })

/-! ### Time (R354) -/

/-- The first refill tick after a clock: tick n falls at clock ⌊1.25 n⌋ (R167). -/
def tickAfter (clk : Nat) : Nat := (4 * clk + 8) / 5

/-- SWL_TIME_SET (R354): the counter's low half is written and its high half cleared, unless it slews. Ticks, pending
events, the age of dirty bytes and chains' timers keep their distance. -/
def execSwlTimeSet (val : Word) (s : State) : Host.Outcome State Fault Refusal :=
  .next (if s.pkg.timeEn then s
    else
      let n := tickAfter val.toNat
      { s with
        clk := val.setWidth 64, tick := n
        inbox := s.inbox.map fun x => (val.toNat + (x.1 - s.now), x.2)
        dirty := s.dirty.map fun d => { d with birth := val.setWidth 64 - (s.clk - d.birth) }
        cores := s.cores.map fun (c : Nat × Core) => (c.1, { c.2 with
          trackers := c.2.trackers.map fun t => { t with deadline := val.setWidth 64 + (t.deadline - s.clk) } })
        supplyOut := s.supplyOut.map fun x => (x.1, x.2.map fun t => val.toNat - (s.now - t))
        gov := { s.gov with batHold := n + (s.gov.batHold - s.tick) } })

/-- TIME_MESSAGE (R354): with en set, time messages are exchanged with ref, whose answer gives the estimated offset; that says how
far the counter slews until the next. Another package's message is answered; a package that names itself only answers. -/
def execTimeMessage (msg : TimeMsg) (s : State) : Host.Outcome State Fault Refusal :=
  .next (if !s.pkg.timeEn then s
    else if msg.src = s.pkg.timeRef ∧ s.pkg.timeRef ≠ s.pkgNo then
      let d : Int := (msg.count - s.clk).toInt
      let off := clampInt (-32768) 32767 d
      { s with pkg := { s.pkg with timeOffset := BitVec.ofInt 16 off, timeLocked := decide (d.natAbs ≤ 250), slew := d } }
    else s.send (.time msg.src s.clk))

end Sys2Proof.Machine
end

