-- ==== Sys2Proof/Machine/Power.lean ====
section
/-! DEFINITION. Operating points, capacitor banks, sensors, supplies, HBM states, and Milliner's register writes
(spec/01_package.md R26, R32, R33; spec/08_tokens.md R171 to R173; spec/09_governor.md R177 to R202; R515, R516). -/

namespace Sys2Proof.Machine

/-! ### Operating points (R177 to R180, R515) -/

/-- Voltage of an operating point in mV (R177). -/
def opMv (op : Nat) : Nat := lget 0 [550, 590, 635, 680, 720, 765, 805, 850] op
/-- Nominal charge in µC: 40 mF × the voltage (R177). -/
def opCharge (op : Nat) : Nat := 40 * opMv op
/-- Always-on clocks in which a voltage moves between two points: 25 mV per µs (R178). -/
def rampClocks (a b : Nat) : Nat := ((opMv a - opMv b) + (opMv b - opMv a)) * 50
/-- Clocks of a clock stop (R178). -/
def stopClocks : Nat := 250

/-- Some hold applies (R180). -/
def Holds.any (h : Holds) : Bool := h.volt || h.coolant || h.caseTemp || h.capacitor || h.sensor
/-- The cap (R180). -/
def Die.capNow (d : Die) : Nat := min (if d.holds.any then 2 else 7) d.thermalCap

/-- Starts the change to a point (R178): up, the voltage rises and settles first; down, the clock stops first. -/
def State.startChange (s : State) (d b : Nat) : State :=
  let x := s.die d
  if b = x.op then s.setDie d { x with target := b }
  else if x.op < b then
    (s.setDie d { x with target := b, phase := 1 }).later (s.now + rampClocks x.op b + 625) (.opVoltageRiseDone d)
  else (s.setDie d { x with target := b, phase := 2 }).later (s.now + stopClocks) (.opClockStopDone d)

/-- The end of a change: a request that waited is performed within the cap (R178), and a die above its cap changes to it
(R180). -/
def State.endChange (s : State) (d : Nat) : State :=
  let x := s.die d
  let s1 := s.setDie d { x with phase := 0, waiting := none }
  match x.waiting with
  | some (t, _) => s1.startChange d (min t x.capNow)
  | none => if x.capNow < x.op then s1.startChange d x.capNow else s1

/-- The cap is set anew after its causes changed (R180): a die above it changes at once, or after the change in progress; a
driver's request that waits for more is then replaced (R179). -/
def State.recap (s : State) (d : Nat) : State :=
  let x := s.die d
  let cap := x.capNow
  let s1 := s.setDie d { x with cap }
  if x.inReset then s1
  else if x.phase = 0 then if cap < x.op then s1.startChange d cap else s1
  else match x.waiting with
    | some (t, driver) =>
      if cap < t then s.setDie d { x with cap, waiting := some (cap, false), status := if driver then 6 else x.status } else s1
    | none => if cap < x.target then s.setDie d { x with cap, waiting := some (cap, false) } else s1

/-- What a write to OP_REQ asks for (R179, R182): a target, or the status of a refusal. -/
def opAsked (x : Die) (v : Word) : Except Nat Nat :=
  let n := v.toNat
  match bits n 29 2 with
  | 0 => if bits n 0 4 ≤ 7 then .ok (bits n 0 4) else .error 4
  | 1 =>
    let t : Int := (x.target : Int) + (if bits n 8 4 < 8 then (bits n 8 4 : Int) else (bits n 8 4 : Int) - 16)
    if t < 0 then .error 2 else if 7 < t then .error 3 else .ok t.toNat
  | _ => .error 4

/-- OP_REQ (R179, R516). A request that waits for a change in progress and is replaced by this one is reported (R178, R179). -/
def execOpReq (die : Nat) (val : Word) (s : State) : Host.Outcome State Fault Refusal :=
  let x := s.die die
  .next <|
    if 8 ≤ die ∨ !val.getLsbD 31 then s
    else match opAsked x val with
      | .error st => s.setDie die { x with status := st }
      | .ok t =>
        let x1 := { x with status := if t ≤ x.capNow then 1 else 5 }
        let b := min t x.capNow
        if x.phase = 0 ∧ !x.inReset then (s.setDie die x1).startChange die b
        else
          let replaced := x.waiting.any fun w => w.2
          s.setDie die { x1 with waiting := some (b, true), status := if replaced then 6 else x1.status }

/-- OP_VOLTAGE_RISE_DONE (R178, R515): the clock stops. -/
def execOpVoltageRiseDone (die : Nat) (s : State) : Host.Outcome State Fault Refusal :=
  let x := s.die die
  .next <|
    if x.phase = 1 then (s.setDie die { x with phase := 2 }).later (s.now + stopClocks) (.opClockStopDone die) else s

/-- OP_CLOCK_STOP_DONE (R178, R181, R515): the die runs at its new point, its voltage falls if it was lowered, and what
waited in its inbound FIFO is performed. -/
def execOpClockStopDone (die : Nat) (s : State) : Host.Outcome State Fault Refusal :=
  let x := s.die die
  .next <|
    if x.phase = 2 then
      let x1 := { x with op := x.target }
      let s1 :=
        if x.target < x.op then
          (s.setDie die { x1 with phase := 3 }).later (s.now + rampClocks x.op x.target) (.opVoltageFallDone die)
        else (s.setDie die x1).endChange die
      if (s1.die die).stopped then s1 else s1.drainFifo die
    else s

/-- OP_VOLTAGE_FALL_DONE (R178): the change ends. -/
def execOpVoltageFallDone (die : Nat) (s : State) : Host.Outcome State Fault Refusal :=
  .next <| if (s.die die).phase = 3 then s.endChange die else s

/-! ### Capacitor banks (R193, R194) -/

/-- The droop guard after a sample: engaged below the low threshold, released from the high one on, as it was between; a
failed report engages it. The reference is the lower point of a change (R194). -/
def droopAfter (g : Gov) (x : Die) (q : Nat) : Bool :=
  let ref := opCharge (min x.op x.target)
  if q = 65535 then true
  else if q * 256 < ref * g.capLow then true
  else if ref * g.capHigh ≤ q * 256 then false
  else x.droop

/-- CAPQ_SAMPLE (R193, R194). Valid samples lower CAPQ.min and the minimum of every wave of the die (R83). -/
def execCapqSample (die : Nat) (charge : BitVec 16) (s : State) : Host.Outcome State Fault Refusal :=
  let x := s.die die
  let valid := charge != 65535
  let low (m : BitVec 16) : BitVec 16 := if valid && charge < m then charge else m
  let x1 := { x with
    capqCharge := charge, capqMin := low x.capqMin, droop := droopAfter s.gov x charge.toNat
    failCount := if valid then 0 else min 8 (x.failCount + 1)
    validSince := if valid then min (10 ^ 7) (x.validSince + 1) else 0 }
  let s1 := (s.setDie die x1).onBlocks fun b k =>
    if dieOf (coreOf b) = die then { k with waves := k.waves.map fun w => { w with capqMin := low w.capqMin } } else k
  .next <|
    if 8 ≤ die then s
    else if x1.failCount = 8 ∧ !x.holds.capacitor then s1.soon (.capacitorHold die)
    else if x1.validSince = 10 ^ 7 ∧ x.holds.capacitor then s1.soon (.capacitorHoldEnd die)
    else s1

/-- CAPACITOR_HOLD (R194): after eight consecutive failed reports; the hold is logged. -/
def execCapacitorHold (die : Nat) (s : State) : Host.Outcome State Fault Refusal :=
  let x := s.die die
  .next <|
    if x.failCount = 8 ∧ !x.holds.capacitor ∧ die < 8 then
      ((s.setDie die { x with holds := { x.holds with capacitor := true } }).logEvent 6 1 die []).recap die
    else s

/-- CAPACITOR_HOLD_END (R194): after 1 s of valid samples, 10^7 of them. -/
def execCapacitorHoldEnd (die : Nat) (s : State) : Host.Outcome State Fault Refusal :=
  let x := s.die die
  .next <|
    if x.validSince = 10 ^ 7 ∧ x.holds.capacitor ∧ die < 8 then
      (s.setDie die { x with holds := { x.holds with capacitor := false } }).recap die
    else s

/-- CAPQ of a die (R194). -/
def Die.capq (d : Die) : Word := d.capqMin ++ d.capqCharge

/-- CAPQ_READ (R193): PF0's read returns the register and clears min. -/
def execCapqRead (die : Nat) (s : State) : Host.Outcome State Fault Refusal :=
  let x := s.die die
  .next ((s.setDie die { x with capqMin := 65535 }).send (.hostReply (some (bytesOf 4 x.capq.toNat))))

/-! ### Sensors (R201, R202) -/

/-- The neighbours of a sensor: row s / 4, column s mod 4. -/
def neighbours (i : Nat) : List Nat :=
  (if 4 ≤ i then [i - 4] else []) ++ (if i < 12 then [i + 4] else []) ++
  (if i % 4 = 0 then [] else [i - 1]) ++ (if i % 4 = 3 then [] else [i + 1])

/-- Sorted insertion. -/
def insInt (x : Int) : List Int → List Int
  | [] => [x]
  | y :: t => if x ≤ y then x :: y :: t else y :: insInt x t

/-- The median, the upper of the two middle values for an even count; none of nothing. -/
def medianOf (l : List Int) : Option Int := (l.foldl (fun a x => insInt x a) [])[l.length / 2]?

/-- A reading in range: −40 °C to 150 °C in units of 1/16 °C. -/
def inRange (t : Int) : Bool := decide (-640 ≤ t) && decide (t ≤ 2400)

/-- A sensor's history with a new reading and the median of its neighbours: what stands unchanged counts from its last change, and so
does the median's movement (DEDUCED, log 24). -/
def Sensor.follow (x : Sensor) (t : Int) (med : Option Int) : Sensor :=
  let same := t == x.reading
  let dev := med.map fun m => (t - m).natAbs
  { x with
    reading := t
    inRange := if Machine.inRange t then min 8 (x.inRange + 1) else 0
    unchanged := if same then min 64 (x.unchanged + 1) else 0
    medRef := if same then (if x.medRef.isSome then x.medRef else med) else med
    far := match dev with | some k => if 160 < k then min 8 (x.far + 1) else 0 | none => x.far
    near := match dev with | some k => if 160 < k then 0 else min 64 (x.near + 1) | none => x.near }

/-- The class of R201 from the old class and the new history; the first rule that applies decides. -/
def Sensor.classify (old : Nat) (x : Sensor) (med : Option Int) : Nat :=
  let invalid := !Machine.inRange x.reading || (old == 3 && decide (x.inRange < 8))
  let moved := match med, x.medRef with | some m, some r => decide (32 < (m - r).natAbs) | _, _ => false
  let stuck := x.unchanged != 0 && (old == 2 || (decide (64 ≤ x.unchanged) && moved))
  let suspect := if old = 1 then decide (x.near < 64) else decide (8 ≤ x.far)
  if invalid then 3 else if stuck then 2 else if suspect then 1 else 0

/-- One sensor after a sample. A neighbour counts as flagged if its reading is out of range or it was flagged before this
sample (log 24). -/
def sampleOne (old : List Sensor) (rs : List Int) (i : Nat) : Sensor :=
  let x := lget Sensor.reset old i
  let flagged (j : Nat) : Bool := (lget Sensor.reset old j).cls != 0 || !inRange (lget 0 rs j)
  let med := medianOf (((neighbours i).filter fun j => !flagged j).map fun j => lget 0 rs j)
  let y := x.follow (lget 0 rs i) med
  { y with cls := Sensor.classify x.cls y med }

/-- The greatest of a list of readings. -/
def hottest : List Int → Option Int
  | [] => none
  | x :: t => match hottest t with | none => some x | some y => some (if x < y then y else x)

/-- The effective value of a sensor (R201): its reading, or a substitute while it is flagged. -/
def effective (l : List Sensor) (i : Nat) : Sensor :=
  let x := lget Sensor.reset l i
  if x.cls = 0 then { x with subst := false, temp := x.reading }
  else
    let good := ((neighbours i).map fun j => lget Sensor.reset l j).filter fun y => y.cls == 0
    let v : Int := match medianOf (good.map (·.reading)) with
      | some m => m + 80
      | none => match hottest ((l.filter fun y => y.cls == 0).map (·.reading)) with
        | some h => h + 80
        | none => 2400
    { x with subst := true, temp := v }

/-- The thermal limit falls by one below the cap (R201); each change is logged. -/
def State.thermalFall (s : State) (d : Nat) : State :=
  let x := s.die d
  if x.capNow = 0 then s
  else ((s.setDie d { x with thermalCap := x.capNow - 1 }).logEvent 5 1 d []).recap d

/-- SENSOR_SAMPLE (R201, R202): classes, effective values, the sensor hold and the thermal limit. -/
def execSensorSample (die : Nat) (readings : List Int) (s : State) : Host.Outcome State Fault Refusal :=
  let x := s.die die
  let cls := (upFrom 0 16).map fun i => sampleOne x.sensors readings i
  let now := (upFrom 0 16).map fun i => effective cls i
  let changed := (upFrom 0 16).filter fun i => (lget Sensor.reset now i).cls != (lget Sensor.reset x.sensors i).cls
  let few := decide ((now.filter fun y => y.cls != 0).length < 3)
  let hot := now.any fun y => decide (1680 < y.temp)
  let cool := now.all fun y => decide (y.temp ≤ 1600)
  let x1 := { x with
    sensors := now
    fewFlagged := if few then min 1000 (x.fewFlagged + 1) else 0
    coolSamples := if cool then x.coolSamples + 1 else 0
    holds := if few then x.holds else { x.holds with sensor := true } }
  let s1 := changed.foldl (fun s i => s.logEvent 3 4 (16 * die + i) []) (s.setDie die x1)
  let s2 := if !few ∧ !x.holds.sensor then (s1.logEvent 4 1 die []).recap die else s1
  let s3 := if hot then s2.thermalFall die else s2
  let s4 := if x1.coolSamples = 100 then s3.soon (.thermalCapRise die) else s3
  .next <|
    if 8 ≤ die then s
    else if x1.fewFlagged = 1000 ∧ x.holds.sensor then s4.soon (.sensorHoldEnd die) else s4

/-- SENSOR_HOLD_END (R201): after 1,000 consecutive samples with fewer than three flagged. -/
def execSensorHoldEnd (die : Nat) (s : State) : Host.Outcome State Fault Refusal :=
  let x := s.die die
  .next <|
    if x.fewFlagged = 1000 ∧ x.holds.sensor ∧ die < 8 then
      (s.setDie die { x with holds := { x.holds with sensor := false } }).recap die
    else s

/-- THERMAL_CAP_RISE (R201): after 100 consecutive cool samples the thermal limit rises by one; a change is logged. -/
def execThermalCapRise (die : Nat) (s : State) : Host.Outcome State Fault Refusal :=
  let x := s.die die
  .next <|
    if 100 ≤ x.coolSamples ∧ die < 8 then
      let s1 := s.setDie die { x with coolSamples := 0, thermalCap := min 7 (x.thermalCap + 1) }
      if x.thermalCap < 7 then (s1.logEvent 5 1 die []).recap die else s1
    else s

/-! ### Supplies (R32, R33) -/

/-- A reading is within its range: 46 V to 54 V, at most 40 °C; the limits of a rail and of the case are the package's. -/
def supplyInRange : Supply → Bool
  | .voltage mV => decide (46000 ≤ mV) && decide (mV ≤ 54000)
  | .current _ => true
  | .coolant t => decide (t ≤ 640)
  | .rail n mV => Config.railOk n mV
  | .caseTemp t => decide (t ≤ Config.caseLimit)

/-- What a reading is of: 0 the input voltage, 1 the input current, 2 the coolant, 3 the case, 4 + n rail n. -/
def supplyKey : Supply → Nat
  | .voltage _ => 0
  | .current _ => 1
  | .coolant _ => 2
  | .caseTemp _ => 3
  | .rail n _ => 4 + n

/-- The holds of the readings that are listed as out of range, or not back for 1 s. -/
def Holds.supply (h : Holds) (l : List (Nat × Option Nat)) : Holds :=
  { h with
    volt := l.any fun x => x.1 == 0 || decide (4 ≤ x.1)
    coolant := l.any fun x => x.1 == 2
    caseTemp := l.any fun x => x.1 == 3 }

/-- The list of readings that hold the dies is set, and every die's holds and cap follow. -/
def State.holdSupply (s : State) (l : List (Nat × Option Nat)) : State :=
  dieIds.foldl (fun s d => (s.setDie d { s.die d with holds := (s.die d).holds.supply l }).recap d) { s with supplyOut := l }

/-- Always-on clocks of a second. -/
def clocksOfSecond : Nat := 1250000000

/-- A reading is within range: if it holds the dies and was not back before, its second begins (R32). -/
def State.supplyBack (s : State) (what : Supply) : State :=
  if s.supplyOut.contains (supplyKey what, none) then
    State.later { s with supplyOut := s.supplyOut.map fun x => if x.1 = supplyKey what then (x.1, some s.now) else x }
      (s.now + clocksOfSecond) (.supplyHoldRelease what)
  else s

/-- SUPPLY_OUT_OF_RANGE (R32, R33): a reading outside its range is logged, and every die is held at OP2; one inside it begins
the second after which the hold ends. -/
def execSupplyOutOfRange (what : Supply) (s : State) : Host.Outcome State Fault Refusal :=
  .next (if supplyInRange what then s.supplyBack what
    else (s.logEvent 7 0 0 []).holdSupply ((s.supplyOut.filter fun x => x.1 != supplyKey what) ++ [(supplyKey what, none)]))

/-- SUPPLY_HOLD_RELEASE (R32, R33): the reading has been back in range for 1 s, and its hold ends. -/
def execSupplyHoldRelease (what : Supply) (s : State) : Host.Outcome State Fault Refusal :=
  .next (if !supplyInRange what then s
    else if s.supplyOut.any fun x => x.1 == supplyKey what && x.2.any fun t => decide (t + clocksOfSecond ≤ s.now) then
      s.holdSupply (s.supplyOut.filter fun x => x.1 != supplyKey what)
    else s.supplyBack what)

/-! ### HBM (R200) -/

/-- Clocks of one group's retraining: 1.8 µs. -/
def retrainClocks : Nat := 2250

/-- HBM_CTL (R200): a request during a change is refused as busy; another retrains the groups in order. -/
def execHbmCtl (stack : Nat) (val : Word) (s : State) : Host.Outcome State Fault Refusal :=
  let x := s.stack stack
  .next <|
    if 32 ≤ stack ∨ !val.getLsbD 31 then s
    else if x.group ≠ 15 then s.setStack stack { x with status := 2 }
    else
      (s.setStack stack { x with status := 1, target := bits val.toNat 24 2, group := 0 }).later (s.now + retrainClocks)
        (.hbmGroupRetrainDone stack)

/-- HBM_GROUP_RETRAIN_DONE (R200): the next group begins; after group 7 the stack is in its new state. -/
def execHbmGroupRetrainDone (stack : Nat) (s : State) : Host.Outcome State Fault Refusal :=
  let x := s.stack stack
  .next <|
    if 7 < x.group then s
    else if x.group = 7 then (s.setStack stack { x with group := 15, hbmState := x.target }).drainFifo (stack / 4)
    else ((s.setStack stack { x with group := x.group + 1 }).drainFifo (stack / 4)).later (s.now + retrainClocks) (.hbmGroupRetrainDone stack)

/-! ### Token and governor registers (R171 to R173, R185, R192, R194) -/

/-- TOK_CFG_COMMIT (R171): a driver's write of TOK_CFG acts only as the commit. -/
def execTokCfgCommit (val : Dword) (s : State) : Host.Outcome State Fault Refusal :=
  .next { s with tok := { s.tok with commit := s.tok.commit || val.getLsbD 63 } }

/-- Slew limits clamped to the rated rate (R185). -/
def GovLim.reclamp (l : GovLim) : GovLim :=
  { l with up := clampTo l.up 1 (l.rated * 4 / 100), down := clampTo l.down 1 (l.rated * 2 / 100) }

/-- Limits that Milliner writes to GOV_CFG (R185, R186). -/
def GovLim.ofCfg (l : GovLim) (reserve n : Nat) : GovLim :=
  let rated := clampTo (bits n 42 10) (reserve + 1) 900
  GovLim.reclamp { l with
    rated, floor := clampTo (bits n 32 10) reserve rated, stallTh := bits n 16 16, cluCost := bits n 8 8 }

/-- Limits that Milliner writes to GOV_SLEW (R185, R186). -/
def GovLim.ofSlew (l : GovLim) (n : Nat) : GovLim := GovLim.reclamp { l with down := bits n 16 10, up := bits n 0 10 }

/-- MILLINER_REGISTER_WRITE: each register with its clamp or refusal (R171 to R173, R185, R186, R192, R194). -/
def execMillinerRegisterWrite (reg : MilReg) (idx : Nat) (val : Dword) (s : State) : Host.Outcome State Fault Refusal :=
  let n := val.toNat
  let reserve := match s.tok.stagedCfg with | some (r, _) => r | none => s.tok.reserve
  .next <| match reg with
    | .tokCfg =>
      { s with tok := { s.tok with
          stagedCfg := some (bits n 32 12, clampTo (bits n 16 13) 256 4096), commit := s.tok.commit || val.getLsbD 63 } }
    | .tokWeight => { s with tok := { s.tok with weights := (upFrom 0 8).map fun d => bits n (4 * d) 4 } }
    | .priceTab => { s with tok := { s.tok with priceStaged := lset s.tok.priceStaged idx (bits n 0 12) } }
    | .opPrice => { s with tok := { s.tok with opPriceStaged := (upFrom 0 8).map fun k => bits n (8 * k) 8 } }
    | .govCfg => { s with gov := { s.gov with limNext := s.gov.limNext.ofCfg reserve n } }
    | .govSlew => { s with gov := { s.gov with limNext := s.gov.limNext.ofSlew n } }
    | .batCost => { s with gov := { s.gov with batTest := bits n 32 16, batScrub := bits n 16 16, batPref := bits n 0 16 } }
    | .capCfg =>
      if bits n 8 8 < bits n 0 8 then s else { s with gov := { s.gov with capHigh := bits n 8 8, capLow := bits n 0 8 } }

/-! ### Scrub (R190, R221) -/

/-- The tags of a line's quads other than the corrected one are cleared (R225). -/
def State.scrubTags (s : State) (line : Nat) : State :=
  let kept := line * 8 + Config.scrubQuad s.freeCtr line % 8
  { s with tags := s.tags.filter fun q => q / 8 != line || q == kept }

/-- SCRUB_READ_COMPLETE (R190): a corrected single-bit error changes no value, and clears the tags of other quads of its line (R225);
an uncorrectable line is logged and poisoned. Both kinds of error are logged (R392). -/
def execScrubReadComplete (line : Nat) (result : ScrubEnd) (s : State) : Host.Outcome State Fault Refusal :=
  let stack := stackOf (128 * line)
  .next <| if scrubLines ≤ line then s else match result with
    | .clean => s
    | .corrected => (s.scrubTags line).logEvent 1 2 stack []
    | .uncorrectable => (s.hurt line).logEvent 2 2 stack []

end Sys2Proof.Machine
end

