-- ==== Sys2Proof/Machine/Bar0.lean ====
section
/-! DEFINITION. The register space of BAR0: what each register reads as, what a write does, and the readback space
(spec/18_host.md R383 to R386, R391, R393, R395, R396, and the register maps of the other chapters). -/

namespace Sys2Proof.Machine

/-! ### What registers read as -/

/-- A register from its fields: value and lowest bit. -/
def packed (l : List (Nat × Nat)) : Dword := BitVec.ofNat 64 ((l.map fun f => f.1 * 2 ^ f.2).foldl (· + ·) 0)

/-- One bit of a field. -/
def flag (b : Bool) : Nat := if b then 1 else 0

/-- SWL_TIME (R354). -/
def Pkg.swlTime (p : Pkg) : Dword :=
  packed [(flag p.timeEn, 63), (flag p.timeLocked, 62), (p.timeRef, 48), (p.timeOffset.toNat, 32)]

/-- The registers of the package at BAR0 offsets 0 to 0xFF (R384); WO fields read zero. -/
def State.pkgReg (s : State) (off : Nat) : Dword :=
  let p := s.pkg
  let t := s.tok
  let g := s.gov
  match off / 8 with
  | 0 => p.shape
  | 1 => p.swlId.setWidth 64
  | 2 => p.swlTime
  | 3 => p.chainCfg.setWidth 64
  | 4 => p.scoBase
  | 5 => p.mcgBase
  | 6 => p.collBase
  | 7 => p.eaBase
  | 8 => p.fltRing
  | 9 => packed [(p.fltHead.toNat, 32), (p.fltTail.toNat, 0)]
  | 10 => 0
  | 11 => packed [(flag p.invalDone, 62)]
  | 12 => p.jrnA
  | 13 => p.jrnB
  | 14 => packed [(flag s.mil.busy, 62), (s.mil.status, 48)]
  | 15 => packed [(flag p.rstBusy, 30), (bits p.rstCtl.toNat 27 3, 27), (bits p.rstCtl.toNat 0 6, 0)]
  | 16 => packed [(t.reserve, 32), (t.coreFill, 16)]
  | 17 => packed ((mapIdxed t.weights).map fun w => (w.2, 4 * w.1))
  | 18 => packed [(t.cap, 32), (t.balance, 0)]
  | 19 => packed ((mapIdxed t.opPrice).map fun f => (f.2, 8 * f.1))
  | 20 => packed [(g.limNext.rated, 42), (g.limNext.floor, 32), (g.limNext.stallTh, 16), (g.limNext.cluCost, 8)]
  | 21 => packed [(g.limNext.down, 16), (g.limNext.up, 0)]
  | 22 => g.stat
  | 23 => g.ecolo
  | 24 => packed [(g.batTest, 32), (g.batScrub, 16), (g.batPref, 0)]
  | 25 => g.batStat
  | 26 => packed [(g.capHigh, 8), (g.capLow, 0)]
  | 27 => p.rbPage.setWidth 64
  | 28 => p.bar2Win
  | _ => 0

/-- OP_STAT (R182). -/
def Die.opStat (d : Die) : Dword :=
  packed [(d.status, 28), (d.phase, 16), (d.cap, 12), (d.target, 8), (d.op, 0)]

/-- LINK_STAT (R353). -/
def Port.linkStat (p : Port) : Dword :=
  packed [(p.st, 61), (p.bucket, 58), (p.retrains, 32), (p.replays, 16), (p.crc, 0)]

/-- HBM_CTL (R200). -/
def Stack.hbmCtl (k : Stack) : Dword := packed [(k.group, 8), (k.status, 6), (k.hbmState, 0)]

/-- Four price entries, 2 bytes each (R173). -/
def Tok.prices (t : Tok) (first : Nat) : Dword :=
  packed ((upFrom 0 4).map fun i => (lget 0 t.price (first + i), 16 * i))

/-- CTX_SCHED.run (R336): torn down, saving, running or idle. -/
def State.ctxRun (s : State) (c : Nat) : Nat :=
  if s.tornDown c then 3
  else if s.saving.any fun k => k / 8 == c then 2
  else if s.blocks.any fun b => b.2.ctx == c then 1
  else 0

/-- CTX_DOWN.done (R336): a torn-down context has no block and no launch left. -/
def State.ctxDone (s : State) (c : Nat) : Bool :=
  s.tornDown c && !(s.blocks.any fun b => b.2.ctx == c) && !(s.launches.any fun l => l.2.alive && l.2.ctx == c)

/-- The registers of a context, 8 bytes each (R384). -/
def State.ctxReg (s : State) (c k : Nat) : Dword :=
  let x := s.ctx c
  match k with
  | 0 => x.aper
  | 1 => x.trnRoot
  | 2 => x.reQcfg.setWidth 64
  | 3 => packed [(s.ctxRun c, 60), (bits x.sched.toNat 58 2, 58), (bits x.sched.toNat 42 16, 42)]
  | 4 => x.save
  | 5 => packed [(flag (s.ctxDone c), 63), (bits x.down.toNat 0 63, 0)]
  | 6 => x.fabric.setWidth 64
  | _ => x.trap

/-- The words of a graph node slot (R332). -/
def Node.word (n : Node) (k : Nat) : Dword :=
  match k with
  | 0 => packed [(n.st, 62), (bits n.word0.toNat 16 44, 16), (n.pred, 0)]
  | 1 => n.word1
  | 2 => n.word2
  | _ => 0

/-- Eight bytes of a buffer. -/
def buffer8 (l : List Byte) (off : Nat) : Dword := BitVec.ofNat 64 (ofBytes ((l.drop off).take 8))

/-- The first MSI-X vector of a function, and how many it has (R386). -/
def fnVector : Fn → Nat
  | .pf => 0
  | .vf v => 272 + 17 * v
def fnVectors : Fn → Nat
  | .pf => 272
  | .vf _ => 17

/-- The MSI-X table and pending bits of a function, laid out as PCI Express lays them out (log 28). -/
def State.msixReg (s : State) (fn : Fn) (off : Nat) : Dword :=
  let base := fnVector fn
  if off < 0xF8000 then
    let n := (off - 0xF0000) / 16
    let v := base + n
    if fnVectors fn ≤ n then 0
    else if off % 16 = 0 then tget 0 s.pkg.msixTab (2 * v)
    else packed [(flag (!s.pkg.msixOpen.contains v), 32), ((tget 0 s.pkg.msixTab (2 * v + 1)).toNat % 2 ^ 32, 0)]
  else
    let first := (off - 0xF8000) * 8
    packed ((upFrom 0 64).map fun i =>
      (flag (decide (first + i < fnVectors fn) && s.pkg.msixPend.contains (base + first + i)), i))

/-- The slot of a level register (R384): its level and number. -/
def levelAt (off : Nat) : Option (LevelKind × Nat) :=
  if 0x30000 ≤ off ∧ off < 0x38000 then some (.graph, (off - 0x30000) / 8)
  else if 0x38000 ≤ off ∧ off < 0x38800 then some (.phase, (off - 0x38000) / 8)
  else if 0x38800 ≤ off ∧ off < 0x38A00 then some (.job, (off - 0x38800) / 8)
  else none

/-- The registers of PF0 below the readback window, by an offset that is a multiple of 8. -/
def State.pfReg (s : State) (off : Nat) : Dword :=
  if off < 0x100 then s.pkgReg off
  else if off < 0x140 then let d := s.die ((off - 0x100) / 8); packed [(d.tokCap, 32), (d.balance, 0)]
  else if off < 0x180 then (s.die ((off - 0x140) / 8)).stallRatio
  else if off < 0x1C0 then (s.die ((off - 0x180) / 8)).capq.setWidth 64
  else if off < 0x200 then 0
  else if off < 0x240 then (s.die ((off - 0x200) / 8)).opStat
  else if off < 0x400 then 0
  else if off < 0x580 then s.tok.prices ((off - 0x400) / 2)
  else if off < 0x600 then 0
  else if off < 0x700 then (s.stack ((off - 0x600) / 8)).hbmCtl
  else if off < 0x800 then 0
  else if off < 0x980 then packed [(flag (s.port ((off - 0x800) / 8)).en, 0)]
  else if off < 0xA00 then 0
  else if off < 0xB80 then (s.port ((off - 0xA00) / 8)).linkStat
  else if off < 0xC00 then 0
  else if off < 0xD00 then lget 0 (lget [] s.pkg.sco ((off - 0xC00) / 32)) (off % 32 / 8)
  else if off < 0x10000 then 0
  else if off < 0x14000 then s.ctxReg ((off - 0x10000) / 64) (off % 64 / 8)
  else if off < 0x20000 then 0
  else if off < 0x21000 then
    let h := s.hwq ((off - 0x20000) / 16)
    if off % 16 = 0 then h.cfg0 else h.cfg1
  else match levelAt off with
    | some (k, n) => if k = .job then 0 else packed [((s.levelSlot k n).parent, 32)]
    | none =>
      if off < 0xF0000 then 0
      else if off < 0xF8100 then s.msixReg .pf off
      else if off < 0x100000 then 0
      else if off < 0x101000 then buffer8 s.mil.request (off - 0x100000)
      else if off < 0x102000 then buffer8 s.mil.response (off - 0x101000)
      else if off < 0x200000 then 0
      else if off < 0x400000 then (s.node ((off - 0x200000) / 32)).word (off % 32 / 8)
      else 0

/-! ### The readback space (R395, R396) -/

/-- The counter of a level slot, by its index in the order launch, graph, phase, job (R62). -/
def State.counterAt (s : State) (n : Nat) : Counter :=
  if n < 4096 then (s.launch n).counter
  else if n < 8192 then (s.graph (n - 4096)).counter
  else if n < 8448 then (s.phase (n - 8192)).counter
  else (s.job (n - 8448)).counter

/-- An entry of PROMO_LOG (R276). -/
def LogEntry.encode (e : LogEntry) : Dword :=
  packed [(1, 63), (e.scope.code, 60), (e.slot.toNat, 48), (e.blk.toNat, 32), (e.gen.toNat, 0)]

/-- A merge entry in four words (R233, R395): valid and reported in bits 0 and 1 and the context in bits 15 to 8 of the
first, then the granule, then the counts of local and of remote waiters (log 29). -/
def MergeEntry.word (e : MergeEntry) (k : Nat) : Dword :=
  let remote (w : Waiter) : Bool := match w with | .remote _ => true | .posted _ => true | _ => false
  match k with
  | 0 => packed [(1, 0), (flag e.reported, 1), (e.ctx, 8)]
  | 1 => BitVec.ofNat 64 e.granule
  | 2 => BitVec.ofNat 64 (e.waiters.filter fun w => !remote w).length
  | 3 => BitVec.ofNat 64 (e.waiters.filter remote).length
  | _ => 0

/-- SENS_T (R202). -/
def Sensor.encode (x : Sensor) : Nat := x.cls * 2 ^ 14 + flag x.subst * 2 ^ 13 + (BitVec.ofInt 13 x.temp).toNat

/-- The 32 bytes of an event record (R392). -/
def EvRec.bytes (r : EvRec) : List Byte :=
  bytesOf 8 r.seq ++ bytesOf 8 r.time.toNat ++ bytesOf 2 r.kind ++ bytesOf 1 r.unit ++ bytesOf 1 r.index ++
    ((r.data ++ copies 0 12).take 12)

/-- A numbered barrier (R75). -/
def Barrier.encode (b : Barrier) : Dword :=
  packed [(b.format.toNat, 32), (flag b.latched, 31), (flag b.phase, 30), (b.arrived, 12), (b.expected, 0)]

/-- Slot size code of a queue: 16 × 2^n bytes. -/
def sizeCode (size : Nat) : Nat := ((upFrom 0 15).find? fun n => 16 * 2 ^ n == size).getD 0

/-- A queue descriptor (R76). -/
def SpQueue.encode (x : SpQueue) : Dword :=
  if x.count = 0 then 0
  else packed [(x.tail, 52), (x.head, 46), (x.free, 39), (x.filled, 32), (x.count, 23), (sizeCode x.size, 19), (x.base, 0)]

/-- What a block slot shows (R395): the handle of its launch with its block index, MSEQ_STAT, barriers, queues, FPSTAT. -/
def State.blockWord (s : State) (b off : Nat) : Dword :=
  match s.block? b with
  | none => if off = 8 then tget 0 s.mseq b else 0
  | some x =>
    if off = 0 then packed [(x.index, 32), (launchHandle x.launch (s.launch x.launch).gen, 0)]
    else if off = 8 then tget 0 s.mseq b
    else if 0x40 ≤ off ∧ off < 0xC0 then (lget (Barrier.start 0) x.bars ((off - 0x40) / 8)).encode
    else if 0xC0 ≤ off ∧ off < 0x100 then (lget SpQueue.none x.queues ((off - 0xC0) / 8)).encode
    else if 0x100 ≤ off ∧ off < 0x180 then
      let fp (i : Nat) : Nat := match x.wave? i with | some w => w.fpstat.toNat | none => 0
      let i := (off - 0x100) / 4
      packed [(fp (i + 1), 32), (fp i, 0)]
    else 0

/-- Eight bytes of the readback space, at an address that is a multiple of 8; reading changes nothing (R396). -/
def State.readback (s : State) (a : Nat) : Dword :=
  if a < 0x100000 then s.pfReg a
  else if a < 0x102000 then
    let h := s.hwq ((a - 0x100000) / 32)
    match a % 32 / 8 with
    | 0 => BitVec.ofNat 64 (h.accept.getD 0)
    | 1 => BitVec.ofNat 64 h.done
    | 2 => BitVec.ofNat 64 h.announced
    | _ => h.cfg0
  else if a < 0x200000 then 0
  else if a < 0x200000 + 8 * 8512 then (s.counterAt ((a - 0x200000) / 8)).encode
  else if a < 0x400000 then 0
  else if a < 0x600000 then (s.node ((a - 0x400000) / 32)).word (a % 32 / 8)
  else if a < 0x600000 + 384 * 1024 then
    let c := s.core ((a - 0x600000) / 1024)
    let off := a % 1024
    if off = 0 then BitVec.ofNat 64 c.bucket
    else if 0x200 ≤ off then (match c.log[(off - 0x200) / 8]? with | some e => e.encode | none => 0)
    else 0
  else if a < 0x700000 then 0
  else if a < 0x700000 + 64 * 4160 then
    let n := (a - 0x700000) / 64
    (match (s.mergeTable (n / 512))[n % 512]? with | some e => e.word (a % 64 / 8) | none => 0)
  else if a < 0x800000 then 0
  else if a < 0x800100 then
    packed ((upFrom 0 4).map fun i =>
      let n := (a - 0x800000) / 2 + i
      ((lget Sensor.reset (s.die (n / 16)).sensors (n % 16)).encode, 16 * i))
  else if a < 0x900000 then 0
  else if a < 0x900000 + 32 * 4096 then
    let n := (a - 0x900000) / 32
    (match s.mil.log.find? fun r => r.seq % 4096 == n with | some r => buffer8 r.bytes (a % 32) | none => 0)
  else if a < 0x1000000 then 0
  else if a < 0x1000000 + 1024 * 6144 then s.blockWord ((a - 0x1000000) / 1024) (a % 1024)
  else 0

/-- Eight bytes of a function's BAR0 (R384, R385). -/
def State.bar0 (s : State) (fn : Fn) (off : Nat) : Dword :=
  match fn with
  | .pf => if 0x3000000 ≤ off then s.readback (bits s.pkg.rbPage.toNat 0 6 * 2 ^ 24 + (off - 0x3000000) % 2 ^ 24) else s.pfReg off
  | .vf v =>
    if !s.pkg.vfs.contains v then 0
    else if off < 8 ∨ (0x200 ≤ off ∧ off < 0x240) then s.pfReg off
    else if 0x10000 ≤ off ∧ off < 0x14000 then (if fnOwns (.vf v) ((off - 0x10000) / 64) then s.pfReg off else 0)
    else if 0x20000 ≤ off ∧ off < 0x21000 then (if fnOwns (.vf v) ((off - 0x20000) / 16) then s.pfReg off else 0)
    else if 0xF0000 ≤ off ∧ off < 0xF8100 then s.msixReg (.vf v) off
    else if 0x200000 ≤ off ∧ off < 0x400000 then
      (if fnOwns (.vf v) (s.node ((off - 0x200000) / 32)).ctx then s.pfReg off else 0)
    else 0

/-! ### What writes do -/

/-- The value of a field mask: bits of v where the mask has ones, of old elsewhere. -/
def merged (mask : Nat) (v : Dword) : Dword := v &&& BitVec.ofNat 64 mask

/-- Ones in bits lo to hi. -/
def ones (hi lo : Nat) : Nat := 2 ^ (hi + 1) - 2 ^ lo

/-- An event that a write of a register is: it happens next. -/
def State.act (s : State) (i : Instr) : State := { s with agenda := .ev i :: s.agenda }

/-- The event of a mailbox command (R391). -/
def mailboxEvent (cmd : Nat) (request : List Byte) : Option Instr :=
  match cmd with
  | 1 => some .readEventRecords
  | 2 => some .stageFirmwareChunk
  | 3 => some .commitFirmware
  | 4 => some .mailboxPackageReset
  | 5 => some (.spdmMessage (Config.spdmParse request))
  | _ => none

/-- A write of MIL_MBOX (R391): go submits the command unless one is in progress; an unknown one has status 1. -/
def State.writeMbox (s : State) (v : Dword) : State :=
  if !v.getLsbD 63 || s.mil.busy then s
  else match mailboxEvent (bits v.toNat 0 16) s.mil.request with
    | some i => State.act { s with mil := { s.mil with busy := true } } i
    | none => State.interrupt { s with mil := { s.mil with status := 1 } } 3

/-- A write of RST_CTL (R393). -/
def State.writeRst (s : State) (v : Dword) : State :=
  let s1 := { s with pkg := { s.pkg with rstCtl := BitVec.ofNat 32 (bits v.toNat 27 3 * 2 ^ 27 + bits v.toNat 0 6) } }
  let n := bits v.toNat 0 6
  if !v.getLsbD 31 || s.pkg.rstBusy then s1
  else match bits v.toNat 27 3 with
    | 1 => if n < 8 then s1.act (.rstCtlDie n) else s1
    | 2 => if n < 32 then s1.act (.rstCtlStack n) else s1
    | 3 => if n < 48 then s1.act (.rstCtlPort n) else s1
    | _ => s1

/-- A write of a package register below 0x100; low says that the low four bytes are written. -/
def State.writePkg (s : State) (off : Nat) (low : Bool) (v : Dword) : State :=
  let p := s.pkg
  let n := v.toNat
  match off / 8 with
  | 1 => s.act (.swlId (v.setWidth 32))
  | 2 =>
    let s1 := { s with pkg := { p with timeEn := v.getLsbD 63, timeRef := bits n 48 12, slew := if v.getLsbD 63 then p.slew else 0, timeSince := if v.getLsbD 63 then p.timeSince else 0 } }
    if low then s1.act (.swlTimeSet (v.setWidth 32)) else s1
  | 3 => { s with pkg := { p with chainCfg := BitVec.ofNat 32 (bits n 0 16) } }
  | 4 => { s with pkg := { p with scoBase := merged (ones 56 6) v } }
  | 5 => { s with pkg := { p with mcgBase := merged (ones 56 5) v } }
  | 6 => { s with pkg := { p with collBase := merged (ones 56 6) v } }
  | 7 => { s with pkg := { p with eaBase := merged (ones 63 63 + ones 28 0) v } }
  | 8 => { s with pkg := { p with fltRing := merged (ones 57 54 + ones 41 12) v } }
  | 9 => { s with pkg := { p with fltHead := BitVec.ofNat 32 (bits n 32 32) } }
  | 10 => s.act (.trnResolve v)
  | 11 => s.act (.trnInval v)
  | 12 => { s with pkg := { p with jrnA := merged (ones 63 59 + ones 41 12) v } }
  | 13 => { s with pkg := { p with jrnB := merged (ones 63 59 + ones 41 12) v } }
  | 14 => s.writeMbox v
  | 15 => s.writeRst v
  | 16 => s.act (.tokCfgCommit v)
  | 23 => { s with gov := { s.gov with ecolo := merged (ones 63 63 + ones 59 48 + ones 47 35 + ones 31 20 + ones 15 0) v } }
  | 27 => { s with pkg := { p with rbPage := BitVec.ofNat 32 (bits n 0 6) } }
  | 28 => { s with pkg := { p with bar2Win := merged (ones 11 0) v } }
  | _ => s

/-- A write of a word of a SCO_PORT record, while its en is 0 (R366). -/
def State.writeSco (s : State) (p k : Nat) (v : Dword) : State :=
  let rec' := lget [] s.pkg.sco p
  let keep := match k with | 0 => ones 63 63 + ones 59 0 | 1 => ones 5 0 | _ => ones 63 0
  if (lget 0 rec' 0).getLsbD 63 then s
  else { s with pkg := { s.pkg with sco := lset s.pkg.sco p (lset rec' k (merged keep v)) } }

/-- A write of a context's register (R205, R231, R287, R336, R356, R496). -/
def State.writeCtx (s : State) (fn : Fn) (c k : Nat) (v : Dword) : State :=
  let x := s.ctx c
  let n := v.toNat
  match k with
  | 0 => s.setCtx c { x with aper := merged (ones 60 34 + ones 26 0) v }
  | 1 => s.setCtx c { x with trnRoot := merged (ones 41 12 + ones 0 0) v }
  | 2 => s.setCtx c { x with reQcfg := BitVec.ofNat 32 (bits n 0 16 &&& 0xBBBB) }
  | 3 =>
    let s1 := s.setCtx c { x with
      sched := packed [(bits x.sched.toNat 60 2, 60), (bits n 58 2, 58), (bits n 42 16, 42)] }
    let s2 := if v.getLsbD 62 then
        { s1 with agenda := (dieIds.map fun d => Turn.ev (.preempt c d)) ++ s1.agenda } else s1
    if v.getLsbD 63 then s2.act (.teardown fn c) else s2
  | 4 => s.setCtx c { x with save := merged (ones 56 0) v }
  | 6 => s.setCtx c { x with fabric := BitVec.ofNat 32 (bits n 30 2 * 2 ^ 30 + bits n 0 22) }
  | 7 => s.setCtx c { x with trap := merged (ones 56 6 + ones 0 0) v }
  | _ => s

/-- A write of a queue's configuration words (R319): word 0 enables, disables, or clears halt. -/
def State.writeHwqCfg (s : State) (fn : Fn) (q k : Nat) (v : Dword) : State :=
  if k = 0 then s.act (.hwqEnable fn q v) else s.setHwq q { s.hwq q with cfg1 := merged (ones 56 0) v }

/-- A write of a word of a node slot (R332): word 0 arms it. -/
def State.writeNode (s : State) (fn : Fn) (node k : Nat) (v : Dword) : State :=
  let x := s.node node
  match k with
  | 0 => s.act (.nodeArm fn node v)
  | 1 => s.setNode node { x with word1 := merged (ones 56 0) v }
  | 2 => s.setNode node { x with word2 := merged (ones 56 0) v }
  | _ => s

/-- A write of an MSI-X table entry: unmasking a pending vector sends it (R386, log 28). -/
def State.writeMsix (s : State) (fn : Fn) (off : Nat) (v : Dword) : State :=
  let n := (off - 0xF0000) / 16
  let vec := fnVector fn + n
  if fnVectors fn ≤ n ∨ 0xF8000 ≤ off then s
  else if off % 16 = 0 then { s with pkg := { s.pkg with msixTab := tset 0 s.pkg.msixTab (2 * vec) v } }
  else
    let p := { s.pkg with
      msixTab := tset 0 s.pkg.msixTab (2 * vec + 1) (merged (ones 31 0) v)
      msixOpen := sput s.pkg.msixOpen vec (!v.getLsbD 32) }
    if !v.getLsbD 32 && s.pkg.msixPend.contains vec then
      State.send { s with pkg := { p with msixPend := sdel p.msixPend vec } } (.msix vec)
    else { s with pkg := p }

/-- A write of a register that PF0 alone has. -/
def State.writePf (s : State) (off : Nat) (low : Bool) (v : Dword) : State :=
  if off < 0x100 then s.writePkg off low v
  else if 0x1C0 ≤ off ∧ off < 0x200 then s.act (.opReq ((off - 0x1C0) / 8) (v.setWidth 32))
  else if 0x600 ≤ off ∧ off < 0x700 then s.act (.hbmCtl ((off - 0x600) / 8) (v.setWidth 32))
  else if 0x800 ≤ off ∧ off < 0x980 then
    let p := (off - 0x800) / 8
    let s1 := s.act (.linkCtlEn p (v.getLsbD 0))
    let s2 := if v.getLsbD 1 then s1.act (.linkCtlClr p) else s1
    if v.getLsbD 2 then s2.act (.linkCtlRevive p) else s2
  else if 0xC00 ≤ off ∧ off < 0xD00 then s.writeSco ((off - 0xC00) / 32) (off % 32 / 8) v
  else if 0x100000 ≤ off ∧ off < 0x101000 then
    let l := s.mil.request ++ copies 0 (4096 - s.mil.request.length)
    { s with mil := { s.mil with request := l.take (off - 0x100000) ++ bytesOf 8 v.toNat ++ l.drop (off - 0x100000 + 8) } }
  else match levelAt off with
    | some (k, n) => s.act (.levelArm .pf k n v)
    | none => s

/-- Whether a function is there: PF0, or a virtual function that PF0 has enabled. -/
def State.fnOn (s : State) (fn : Fn) : Bool := match fn with | .pf => true | .vf v => s.pkg.vfs.contains v

/-- A write of eight bytes of a function's BAR0 (R384, R385), low saying that the low four are among them. -/
def State.write8 (s : State) (fn : Fn) (off : Nat) (low : Bool) (v : Dword) : State :=
  if 0x10000 ≤ off ∧ off < 0x14000 then
    (if s.owns fn ((off - 0x10000) / 64) then s.writeCtx fn ((off - 0x10000) / 64) (off % 64 / 8) v else s)
  else if 0x20000 ≤ off ∧ off < 0x21000 then
    (if s.owns fn ((off - 0x20000) / 16) then s.writeHwqCfg fn ((off - 0x20000) / 16) (off % 16 / 8) v else s)
  else if 0xF0000 ≤ off ∧ off < 0xF8100 then (if s.fnOn fn then s.writeMsix fn off v else s)
  else if 0x200000 ≤ off ∧ off < 0x400000 then
    let n := (off - 0x200000) / 32
    (if s.owns fn (s.node n).ctx then s.writeNode fn n (off % 32 / 8) v else s)
  else if 0x2000000 ≤ off ∧ off < 0x3000000 then
    (if off % 65536 = 0 ∧ low then s.act (.doorbell fn ((off - 0x2000000) / 65536) (v.setWidth 32)) else s)
  else if fn = .pf then s.writePf off low v
  else s

/-- The register after a write of some of its bytes: the others keep what they read as. -/
def mergeBytes (old : Dword) (at' size : Nat) (v : Dword) : Dword :=
  let l := bytesOf 8 old.toNat
  BitVec.ofNat 64 (ofBytes (l.take at' ++ bytesOf size v.toNat ++ l.drop (at' + size)))

/-- HWQ_CFG word 0, whose halt bit is W1C: bytes that are not written write no 1 there (R16, R319). -/
def hasHalt (off : Nat) : Bool := decide (0x20000 ≤ off) && decide (off < 0x21000) && off % 16 == 0

/-- REGISTER_WRITE (R16, R384, R385): a write of 1, 2, 4 or 8 aligned bytes of BAR0. A register with an event of its own takes
that event next. -/
def execRegisterWrite (fn : Fn) (off size : Nat) (val : Dword) (s : State) : Host.Outcome State Fault Refusal :=
  let base := off / 8 * 8
  let old := s.bar0 fn base
  .next (if (size = 1 ∨ size = 2 ∨ size = 4 ∨ size = 8) ∧ off % size = 0 then
      s.write8 fn base (off % 8 == 0) (mergeBytes (if hasHalt base then old &&& ~~~(BitVec.ofNat 64 (2 ^ 62)) else old) (off % 8) size val)
    else s)

end Sys2Proof.Machine
end

