-- ==== Sys2Proof/Machine/EvHost.lean ====
section
/-! DEFINITION. What the host and Milliner do besides register writes: accesses through BAR2, function-level resets, the
mailbox, SPDM and firmware, and the resets of the package and of its units (spec/15_scheduling.md R342; spec/18_host.md R383,
R385 to R394). -/

namespace Sys2Proof.Machine

/-! ### BAR2 (R258, R267, R269, R383) -/

/-- Pieces of a window access with their storage addresses: physical for PF0, translated in the VF's first context, none
where a translation fails. -/
def State.bar2Pieces (s : State) (fn : Fn) (need : Perm) : List (Nat × List Byte) → Option (List (Nat × List Byte))
  | [] => some []
  | (a, l) :: t =>
    let sa := match fn with
      | .pf => some (storageOf (a % 2 ^ 42))
      | .vf v => match s.translate (16 * v) a need with
        | .ok leaf => some leaf.sa
        | .error _ => none
    match sa, s.bar2Pieces fn need t with
    | some sa, some r => some ((sa, l) :: r)
    | _, _ => none

/-- The address that a window offset reaches: physical for PF0, local and global for a VF. -/
def State.bar2Addr (s : State) (fn : Fn) (off : Nat) : Nat :=
  match fn with
  | .pf => bits s.pkg.bar2Win.toNat 0 12 * 2 ^ 30 + off
  | .vf _ => s.pkgNo * 2 ^ 45 + off % 2 ^ 45

/-- What an access needs of a leaf. -/
def hostNeed : HostOp → Perm
  | .read => .read
  | .write _ _ => .write
  | _ => .atomic

/-- The new value of a host AtomicOp (R269, R382). -/
def hostNew (op : HostOp) (old : Nat) : Nat :=
  match op with
  | .fetchAdd v => old + v.toNat
  | .swap v => v.toNat
  | .cas cmp v => if old = cmp.toNat then v.toNat else old
  | _ => old

/-- The bytes of pieces at their homes, none if a line is poisoned. -/
def State.piecesRead (s : State) (l : List (Nat × List Byte)) : Option (List Byte) :=
  if l.any fun x => s.isPoisoned x.1 then none else some (l.flatMap fun x => s.homeBytes x.1 x.2.length)

/-- An access whose pieces are known, performed at their homes. -/
def State.bar2Do (s : State) (size : Nat) (op : HostOp) (l : List (Nat × List Byte)) : State :=
  match op with
  | .read => s.send (.hostReply (s.piecesRead l))
  | .write _ _ => s.putPieces l
  | op => match s.piecesRead l, l with
    | some old, [(sa, _)] =>
      (s.homeWrite sa (bytesOf size (hostNew op (ofBytes old)))).send (.hostReply (some old))
    | _, _ => s.send (.hostReply none)

/-- The die in whose FIFO an earlier host write waits, behind which a host access waits too; a write with relaxed ordering passes it
(R267, PCI Express ordering). -/
def State.hostBehind (s : State) (op : HostOp) : Option Nat :=
  let isWrite : Instr → Bool := fun i => match i with | .hostBar2Access _ _ _ (.write _ _) => true | _ => false
  match op with
  | .write _ true => none
  | _ => (upFrom 0 8).find? fun d => (s.die d).fifo.any isWrite

/-- HOST_BAR2_ACCESS (R383): it waits while its home cannot be reached (R181, R200, R393), and behind earlier host writes that do
(R267); a failed translation answers a read with Unsupported Request, drops a write, and makes no fault record. -/
def execHostBar2Access (fn : Fn) (off size : Nat) (op : HostOp) (s : State) : Host.Outcome State Fault Refusal :=
  let n := match op with | .write d _ => d.length | _ => size
  let data := match op with | .write d _ => d | _ => copies 0 size
  let a := s.bar2Addr fn off
  .next <|
    if !s.fnOn fn ∨ 2 ^ 41 < off + n then s
    else match s.bar2Pieces fn (hostNeed op) (cutLines (n / 128 + 2) a data) with
      | none => match op with
        | .write _ _ => s
        | _ => s.send (.hostReply none)
      | some l => match s.hostBehind op, l.find? fun x => s.accessWaits x.1 with
        | some d, _ => s.waitAtHome d (.hostBar2Access fn off size op)
        | none, some x => s.waitAtHome (homeDie x.1) (.hostBar2Access fn off size op)
        | none, none => s.bar2Do size op l

/-! ### Function-level resets (R385) -/

/-- VF_ENABLE: PF0 enables a virtual function in its SR-IOV capability (R385). -/
def execVfEnable (v : Nat) (s : State) : Host.Outcome State Fault Refusal :=
  .next (if v < 16 then { s with pkg := { s.pkg with vfs := sins s.pkg.vfs v } } else s)

/-- Contexts are torn down and the queues of the same numbers disabled. -/
def State.resetOwned (s : State) (l : List Nat) : State :=
  l.foldl (fun s n =>
    let t := s.tearDown n
    let h := t.hwq n
    t.setHwq n { h with cfg0 := h.cfg0 &&& ~~~(BitVec.ofNat 64 (2 ^ 63)), announced := h.accept.getD h.announced }) s

/-- The package registers that the driver writes, at reset. -/
def Pkg.driverReset (p : Pkg) : Pkg :=
  let r := Pkg.reset
  { p with
    swlId := r.swlId, timeEn := r.timeEn, timeRef := r.timeRef, timeLocked := r.timeLocked, slew := r.slew, slewPhase := r.slewPhase, timeSince := r.timeSince
    chainCfg := r.chainCfg, scoBase := r.scoBase, mcgBase := r.mcgBase, collBase := r.collBase, eaBase := r.eaBase
    fltRing := r.fltRing, fltHead := r.fltHead, jrnA := r.jrnA, jrnB := r.jrnB, rstCtl := r.rstCtl, rbPage := r.rbPage
    bar2Win := r.bar2Win, sco := r.sco, msixOpen := r.msixOpen, msixTab := r.msixTab }

/-- Every driver-written register of R384 at its reset value: those of the package, the contexts, the queues, the levels'
parents, nodes that are not at work, and the ports' enables (log 29). -/
def State.driverReset (s : State) : State :=
  { s with
    pkg := s.pkg.driverReset
    gov := { s.gov with ecolo := Gov.reset.ecolo }
    mil := { s.mil with request := [] }
    ctxs := s.ctxs.filterMap fun c =>
      let x := { Ctx.reset with down := c.2.down }
      if x = Ctx.reset then none else some (c.1, x)
    hwqs := s.hwqs.map fun (h : Nat × Hwq) => (h.1, { h.2 with cfg0 := Hwq.reset.cfg0, cfg1 := Hwq.reset.cfg1 })
    graphs := s.graphs.map fun g => (g.1, { g.2 with parent := 0 })
    phases := s.phases.map fun g => (g.1, { g.2 with parent := 0 })
    nodes := s.nodes.filter fun n => n.2.st == 1 || n.2.st == 2
    ports := s.ports.map fun p => Port.settle { p with en := false } false }

/-- FUNCTION_LEVEL_RESET (R385): neither dies nor stacks nor links are reset. -/
def execFunctionLevelReset (fn : Fn) (s : State) : Host.Outcome State Fault Refusal :=
  .next <| match fn with
    | .vf v => if v < 16 then s.resetOwned (upFrom (16 * v) 16) else s
    | .pf => (s.resetOwned (upFrom 0 256)).driverReset

/-! ### The mailbox (R389 to R391) -/

/-- A command has ended: its status and response are there, and busy falls (R391); vector 3 fires (R386). -/
def State.mailDone (s : State) (status : Nat) (response : List Byte) : State :=
  State.interrupt { s with mil := { s.mil with busy := false, status, response := response.take 4096 } } 3

/-- READ_EVENT_RECORDS: mailbox command 1 (R391, R392), as many records as the response buffer holds. -/
def execReadEventRecords (s : State) : Host.Outcome State Fault Refusal :=
  let r := s.mil.request
  let l := (s.mil.log.dropWhile fun e => decide (e.seq < Config.recordFrom r)).take (min 128 (Config.recordCount r))
  .next (if Config.mailOk 1 r then s.mailDone 0 (l.flatMap EvRec.bytes) else s.mailDone 2 [])

/-- The inactive firmware slot, and the machine with it changed (R389). -/
def Mil.spare (m : Mil) : FwSlot := if m.activeB then m.slotA else m.slotB
def Mil.setSpare (m : Mil) (x : FwSlot) : Mil := if m.activeB then { m with slotA := x } else { m with slotB := x }

/-- STAGE_FIRMWARE_CHUNK: mailbox command 2 (R389); the slot that it stages into is not valid. -/
def execStageFirmwareChunk (s : State) : Host.Outcome State Fault Refusal :=
  let r := s.mil.request
  let m := s.mil
  let old := m.spare.image
  let at' := Config.chunkAt r
  let bytes := Config.chunkBytes r
  let image := old.take at' ++ copies 0 (at' - old.length) ++ bytes ++ old.drop (at' + bytes.length)
  .next (if Config.mailOk 2 r then
      State.mailDone { s with mil :=
        { m.setSpare { image, valid := false, version := 0 } with nextB := m.activeB, newImage := false } } 0 []
    else s.mailDone 2 [])

/-- COMMIT_FIRMWARE: mailbox command 3 (R389): signature and security version are checked; a valid slot becomes active at the
next package reset, and a failed check leaves the slot invalid. -/
def execCommitFirmware (s : State) : Host.Outcome State Fault Refusal :=
  let m := s.mil
  let x := m.spare
  .next (if x.image.isEmpty then s.mailDone 4 []
    else if Config.signatureOk x.image && decide (m.rollback ≤ Config.imageVersion x.image) then
      State.mailDone { s with mil :=
        { m.setSpare { x with valid := true, version := Config.imageVersion x.image } with
          nextB := !m.activeB, newImage := true, failedBoots := 0 } } 0 []
    else State.mailDone { s with mil :=
      { m.setSpare { x with valid := false } with nextB := m.activeB, newImage := false } } 3 [])

/-- Packets that waited for a key of a slot go out under it. -/
def State.sendWaiting (s : State) (slot : Nat) : State :=
  let l := s.keyWait.filter fun x => x.1 == slot
  l.foldl (fun s x => s.sendKeyed slot x.2) { s with keyWait := s.keyWait.filter fun x => x.1 != slot }

/-- SPDM_MESSAGE: mailbox command 5 (R390): keys are installed only inside a session, and a new key starts its counter
again (R356). -/
def execSpdmMessage (msg : SpdmMsg) (s : State) : Host.Outcome State Fault Refusal :=
  let m := s.mil
  let answer := Config.spdmAnswer m.request
  .next <| match msg with
    | .startSession => State.mailDone { s with mil := { m with spdm := true } } 0 answer
    | .endSession => State.mailDone { s with mil := { m with spdm := false } } 0 answer
    | .installKey slot key =>
      if m.spdm then
        let k := slot.toNat
        (State.sendWaiting { s with mil := { m with keys := tput m.keys k key, keyCount := tset 0 m.keyCount k 0 } } k).mailDone 0
          answer
      else s.mailDone 4 []
    | .other _ => s.mailDone 0 answer

/-- MCTP_MESSAGE (R387): PLDM from the facility, answered. -/
def execMctpMessage (bytes : List Byte) (s : State) : Host.Outcome State Fault Refusal :=
  .next (s.send (.mctp (Config.pldmAnswer bytes)))

/-! ### Package resets (R388, R389, R393, R394) -/

/-- Milliner after a package reset: the firmware slots and the rollback counter stay, the log and its numbers stay short of
power loss, and the slot chosen for the next boot is active. -/
def Mil.rebooted (m : Mil) (powerLoss : Bool) : Mil :=
  { Mil.reset with
    slotA := m.slotA, slotB := m.slotB, activeB := m.nextB, nextB := m.nextB, newImage := m.newImage, rollback := m.rollback
    failedBoots := m.failedBoots, log := if powerLoss then [] else m.log, logSeq := if powerLoss then 0 else m.logSeq }

/-- The package after a reset (R393, R394): bring-up is done; without a valid store every die stays in reset, which is
reported over PLDM (R388). CAPQ.charge is kept (R17, R194). Messages that have left stay sent, and a boot that fails is still to
fail (log 30). -/
def State.rebooted (s : State) (powerLoss : Bool) : State :=
  let r := { State.reset with
    freeCtr := s.freeCtr, out := s.out, outDone := s.out.length, seals := s.seals, egress := s.egress.filter (·.port.isSome), mil := s.mil.rebooted powerLoss
    inbox := s.inbox.filter fun x => x.2 == .firmwareReadyTimeout
    dies := mapIdx (fun d x => { x with capqCharge := (s.die d).capqCharge }) 0 State.reset.dies }
  let r1 := if Config.storeOk then r else
    State.send { r with dies := r.dies.map fun d => { d with inReset := true } } (.mctp Config.storeReport)
  r1.logEvent 12 0 0 []

/-- PACKAGE_RESET (R393). -/
def execPackageReset (cause : ResetCause) (s : State) : Host.Outcome State Fault Refusal :=
  .next (s.rebooted (cause == .powerOn))

/-- MAILBOX_PACKAGE_RESET: mailbox command 4 (R391, R393). -/
def execMailboxPackageReset (s : State) : Host.Outcome State Fault Refusal := .next (s.rebooted false)

/-- The new image has been booted and its 10 s have passed without a failure or not begun to: it reaches ready (R389). -/
def State.bootReady (s : State) : State :=
  let m := s.mil
  if m.newImage && m.activeB == m.nextB && !(s.inbox.any fun x => x.2 == .firmwareReadyTimeout) then
    let v := (if m.activeB then m.slotB else m.slotA).version
    { s with mil := { m with newImage := false, failedBoots := 0, rollback := max m.rollback v } }
  else s

/-- FIRMWARE_READY_TIMEOUT (R389): a new image did not reach ready in 10 s; it is booted again, and after three failures in a
row Milliner boots the other slot and logs it. -/
def execFirmwareReadyTimeout (s : State) : Host.Outcome State Fault Refusal :=
  let m := s.mil
  .next <|
    if !m.newImage || m.activeB != m.nextB then s
    else if m.failedBoots < 2 then State.rebooted { s with mil := { m with failedBoots := m.failedBoots + 1 } } false
    else
      State.rebooted (State.logEvent { s with mil := { m with nextB := !m.activeB, newImage := false, failedBoots := 0 } } 11 0 0 []) false

/-! ### Resets of dies, stacks and ports (R342, R393) -/

/-- The 20 ms in which a die or a stack returns (R393). -/
def returnClocks : Nat := clocksOfUs 20000

/-- A reset of a unit through RST_CTL has begun: busy until the unit has returned. -/
def State.rstBegin (s : State) (kind idx : Nat) (i : Instr) : State :=
  State.soon { s with pkg := { s.pkg with rstBusy := true, rstUnit := some (kind, idx) } } i

/-- RST_CTL_DIE (R393): ignored while busy. -/
def execRstCtlDie (die : Nat) (s : State) : Host.Outcome State Fault Refusal :=
  .next (if s.pkg.rstBusy ∨ 8 ≤ die then s else s.rstBegin 1 die (.computeDieReset die))

/-- RST_CTL_STACK (R393). -/
def execRstCtlStack (stack : Nat) (s : State) : Host.Outcome State Fault Refusal :=
  .next (if s.pkg.rstBusy ∨ 32 ≤ stack then s else s.rstBegin 2 stack (.stackReset stack))

/-- RST_CTL_PORT (R352, R393): an Active port enters Retraining. -/
def execRstCtlPort (port : Nat) (s : State) : Host.Outcome State Fault Refusal :=
  .next (if s.pkg.rstBusy ∨ 48 ≤ port then s
    else (s.onPort port fun p => if p.st = stActive then p.retrain else p).rstBegin 3 port (.resetReturn .port port))

/-- A restartable launch places a block again (R342): it is no longer resident. -/
def State.rerunBlock (s : State) (b : Nat) (blk : Block) : State :=
  let x := s.launch blk.launch
  (((s.delBlock b).unlink b).freeCore b).setLaunch blk.launch { x with rerun := x.rerun ++ [blk.index] }

/-- A restartable cooperative launch is run again whole (R342); the launches that its blocks have created stay its members (R61). -/
def State.rerunWhole (s : State) (l : Nat) : State :=
  let mine := s.blocks.filter fun p => p.2.launch == l
  let s1 := mine.foldl (fun s p => ((s.writeBackAt (coreOf p.1) .sys).delBlock p.1 |>.unlink p.1).freeCore p.1) s
  let x := s1.launch l
  { s1 with saved := s1.saved.filter fun v => v.blk.launch != l }.setLaunch l { x with
    nextBlk := 0, rerun := [], barPhase := false, barArrived := 0
    counter := { x.counter with
      outstanding := recN x.record + (s1.launches.filter fun (p : Nat × LaunchSlot) => p.2.alive && p.2.creator == some l).length } }

/-- A cooperative launch that may not run again ends: its resident and saved blocks are recorded failed-not-run-twice. -/
def State.failWhole (s : State) (l : Nat) : State :=
  let mine := s.blocks.filter fun p => p.2.launch == l
  let n := (s.saved.filter fun v => v.blk.launch == l).length
  let s1 := mine.foldl (fun s p => s.retire p.1 .notRunTwice)
    { s with saved := s.saved.filter fun v => v.blk.launch != l }
  if n = 0 then s1
  else (s1.setLaunch l { s1.launch l with notRunTwice := true }).settleAll (copies (.launch l 2) n)

/-- One block that was resident on a die which is reset (R342). -/
def State.loseBlock (s : State) (p : Nat × Block) : State :=
  match s.block? p.1 with
  | none => s
  | some blk =>
    let l := blk.launch
    let restart := recRestart (s.launch l).record
    match blk.stopped with
    | some e => s.retire p.1 e
    | none =>
      if s.isCoop l then (if restart then s.rerunWhole l else s.failWhole l)
      else if restart then s.rerunBlock p.1 blk
      else s.retire p.1 .notRunTwice

/-- The launches that stop with a die: entries of their blocks are discarded on every die. -/
def State.stopsWith (s : State) (d l : Nat) : Bool :=
  s.isCoop l && s.blocks.any fun p => p.2.launch == l && dieOf (coreOf p.1) == d && p.2.stopped.isNone

/-- What a die's reset takes of its caches and home slices: dirty bytes of its cores are lost and their lines poisoned; which
lines its slices held dirty is a free value (R342, log 3). -/
def State.loseCaches (s : State) (d : Nat) : State :=
  let mine := s.dirty.filter fun x => dieOf x.core == d
  let k := s.freeCtr
  let kept := s.journal.flatMap fun r => [s.pkg.jrnA, s.pkg.jrnB].map fun j => lineOf (jrnAt j (64 * r.slot))
  let s1 := { s with
    dirty := s.dirty.filter fun x => dieOf x.core != d
    peerCopies := s.peerCopies.filter fun x => copyDie (x.1 * 128) != d
    sound := s.sound.filter fun line => kept.contains line || !(homeDie (line * 128) == d && Config.sliceDirty k line)
    lostSlices := s.lostSlices ++ [(d, k)] }
  mine.foldl (fun s x => s.hurt (lineOf x.sa)) s1

/-- An event of a die's change of operating point, which its reset ends. -/
def ofChange (d : Nat) : Instr → Bool
  | .opVoltageRiseDone k | .opClockStopDone k | .opVoltageFallDone k => k == d
  | _ => false

/-- The cores of a die after its reset: as R169 gives, and the scheduler answers what was aimed at them (R342). -/
def State.resetCores (s : State) (d : Nat) : State :=
  let mine (c : Nat) : Bool := dieOf c == d
  let promos := (s.cores.filter fun c => mine c.1).flatMap fun c => c.2.promos
  promos.foldl (fun s p => s.promoAck p) { s with
    cores := s.cores.filter fun c => !mine c.1
    fetchAsks := s.fetchAsks.filter fun x => !mine x.1, fetchBad := s.fetchBad.filter fun x => !mine x.1 }

/-- COMPUTE_DIE_RESET (R342, R393). -/
def execComputeDieReset (die : Nat) (s : State) : Host.Outcome State Fault Refusal :=
  let s1 := (s.loseCaches die).dropEntries fun e => dieOf (coreOf e.blk) == die || s.stopsWith die e.launch
  let s2 := (s.blocks.filter fun p => dieOf (coreOf p.1) == die).foldl (fun s p => s.loseBlock p) s1
  let s3 := s2.resetCores die
  let x := s3.die die
  let s4 := { s3 with
    inbox := s3.inbox.filter fun e => !ofChange die e.2
    heldClusters := s3.heldClusters.filter fun c => c / 12 != die
    saving := s3.saving.filter fun k => k % 8 != die
    running := s3.running.filter fun r => r.1 % 8 != die }
  .next <|
    if 8 ≤ die then s
    else
      (((s4.setDie die { x with phase := 0, target := x.op, hints := [], inReset := true }).logEvent 12 1 die []).startNodes).later
        (s.now + returnClocks) (.resetReturn .die die)

/-- STACK_RESET (R342, R393): its lines read as poisoned until written whole. -/
def execStackReset (stack : Nat) (s : State) : Host.Outcome State Fault Refusal :=
  let here (line : Nat) : Bool := stackOf (line * 128) == stack
  let s1 := { s with
    lostStacks := sins s.lostStacks stack, poison := s.poison.filter fun l => !here l, sound := s.sound.filter fun l => !here l }
  .next <|
    if 32 ≤ stack then s
    else ((s1.setStack stack { s1.stack stack with inReset := true }).logEvent 12 2 stack []).later (s.now + returnClocks)
      (.resetReturn .stack stack)

/-- The command processor rewrites the accept and done words of a ring header on a stack (R342): of each queue whose header lies
there, or may. -/
def State.rewriteHeaders (s : State) (stack : Nat) : State :=
  let hit (h : Hwq) : Bool := h.accept.isSome && s.isLocal h.base && match s.translate h.ctxNo h.base .write with
    | .ok l => stackOf l.sa == stack
    | .error _ => h.en || !h.cmds.isEmpty
  s.hwqs.foldl (fun s p => if hit p.2 then (s.setHwq p.1 { s.hwq p.1 with rewrite := true }).rewriteHeader p.1 else s) s

/-- The lines of one journal region on a stack are copied from its twin (R342). -/
def State.recopyJournal (s : State) (stack : Nat) (j twin : Dword) : State :=
  if !j.getLsbD 63 || !twin.getLsbD 63 then s
  else (upFrom 0 (jrnRoom j / 2)).foldl (fun s i =>
    if stackOf (jrnAt j (128 * i)) = stack then match s.readHome (jrnAt twin (128 * i)) 128 with
      | some bs => s.homeWrite (jrnAt j (128 * i)) bs
      | none => s
    else s) s

/-- RST_CTL's reset is over once its unit has returned. -/
def State.rstEnd (s : State) (kind idx : Nat) : State :=
  if s.pkg.rstUnit = some (kind, idx) then { s with pkg := { s.pkg with rstBusy := false, rstUnit := none } }
  else s

/-- A die returns at its former operating point within its cap, and a request that waited begins (R393, R178). -/
def State.dieReturn (s : State) (d : Nat) : State :=
  let x := s.die d
  let op := min x.op x.capNow
  ((s.setDie d { x with inReset := false, op, target := op }).endChange d).drainFifo d

/-- RESET_RETURN (R393): the unit has returned, and what waited for it is performed. -/
def execResetReturn (what : Unit3) (idx : Nat) (s : State) : Host.Outcome State Fault Refusal :=
  .next <| match what with
    | .die => if (s.die idx).inReset && Config.storeOk then (s.dieReturn idx).rstEnd 1 idx else s
    | .stack =>
      if (s.stack idx).inReset then
        let s1 := s.setStack idx { s.stack idx with inReset := false }
        let s2 := (s1.recopyJournal idx s1.pkg.jrnA s1.pkg.jrnB).recopyJournal idx s1.pkg.jrnB s1.pkg.jrnA
        ((s2.rewriteHeaders idx).drainFifo (idx / 4)).rstEnd 2 idx
      else s
    | .port =>
      if (s.port idx).st = stRetraining then s.later (s.now + 1) (.resetReturn .port idx) else s.rstEnd 3 idx

end Sys2Proof.Machine
end

