-- ==== Sys2Proof/Machine/Packed.lean ====
section
/-! DEFINITION. Class 0x4, packed arithmetic and conversion (spec/19_ref_a_c.md R419 to R421; spec/22_ref_n_r.md R477,
R486). -/

namespace Sys2Proof.Machine

/-- Both halves of a packed instruction, their flags combined (R477, R81). -/
def halves (f : Nat → Nat → Nat → Nat × Flags) (x y z : Word) : Quad × Flags :=
  let lo := f (bits x.toNat 0 16) (bits y.toNat 0 16) (bits z.toNat 0 16)
  let hi := f (bits x.toNat 16 16) (bits y.toNat 16 16) (bits z.toNat 16 16)
  (BitVec.ofNat 128 (lo.1 + 65536 * hi.1), lo.2 ||| hi.2)

/-- A packed instruction (R477). -/
def packedOp (k : Ctl) (fmt : PFmt) (a b c' d : Opnd) (s : State) (f : Nat → Nat → Nat → Nat × Flags) :
    Host.Outcome State Fault Refusal :=
  regOp k a 1 1 b c' d s fun c i =>
    let r (o : Opnd) : Word := (s.rd c (.fpPacked fmt) 1 o i).setWidth 32
    halves f (r b) (r c') (r d)

/-- PADD (R477). -/
def execPadd (k : Ctl) (fmt : PFmt) (rnd : Rnd4) (a b c' : Opnd) (s : State) : Host.Outcome State Fault Refusal :=
  packedOp k fmt a b c' .zero s fun x y _ => (pfOf fmt).add (rndMode4 rnd) x y

/-- PMUL (R477). -/
def execPmul (k : Ctl) (fmt : PFmt) (rnd : Rnd4) (a b c' : Opnd) (s : State) : Host.Outcome State Fault Refusal :=
  packedOp k fmt a b c' .zero s fun x y _ => (pfOf fmt).mul (rndMode4 rnd) x y

/-- PFMA (R477). -/
def execPfma (k : Ctl) (fmt : PFmt) (rnd : Rnd4) (a b c' d : Opnd) (s : State) : Host.Outcome State Fault Refusal :=
  packedOp k fmt a b c' d s ((pfOf fmt).fma (rndMode4 rnd))

/-- PMIN (R477). -/
def execPmin (k : Ctl) (fmt : PFmt) (a b c' : Opnd) (s : State) : Host.Outcome State Fault Refusal :=
  packedOp k fmt a b c' .zero s fun x y _ => (pfOf fmt).pick false false x y

/-- PMAX (R477). -/
def execPmax (k : Ctl) (fmt : PFmt) (a b c' : Opnd) (s : State) : Host.Outcome State Fault Refusal :=
  packedOp k fmt a b c' .zero s fun x y _ => (pfOf fmt).pick true false x y

/-! ### Conversion (R419 to R421) -/

/-- Registers of an operand of a format (R419). -/
def fmtRegs : Fmt → Nat
  | .i64 | .n64 => 2
  | _ => 1

/-- The counter address of .rs (R421): byte address and whether the element goes to bits [7:4]. -/
def rsDraw (y seed : Dword) : Nat := rsHash (y.toNat % 2 ^ 57) (y.getLsbD 63) seed

/-- One conversion (R419): source bits, zero points, address pair, seed. -/
def convertOne (sat : Bool) (dst src : Fmt) (rnd : Rnd) (x z y seed : Dword) : Quad × Flags :=
  codeOut (fmtDeliver dst (z.toNat / 256) (rndMode (rsDraw y seed) rnd) sat (fmtValue src z.toNat x.toNat))

/-- CVT (R419). -/
def execCvt (k : Ctl) (dst src : Fmt) (rnd : Rnd) (a b c' d : Opnd) (s : State) : Host.Outcome State Fault Refusal :=
  regOp k a (fmtRegs dst) 1 b c' d s fun c i =>
    convertOne false dst src rnd (s.rd c .int (fmtRegs src) b i) (s.rd c .int 1 c' i) (s.rd64 c d i) (s.launchSeed c)

/-- CVTS (R419). -/
def execCvts (k : Ctl) (dst src : Fmt) (rnd : Rnd) (a b c' d : Opnd) (s : State) : Host.Outcome State Fault Refusal :=
  regOp k a (fmtRegs dst) 1 b c' d s fun c i =>
    convertOne true dst src rnd (s.rd c .int (fmtRegs src) b i) (s.rd c .int 1 c' i) (s.rd64 c d i) (s.launchSeed c)

/-! ### QSCAL (R486) -/

/-- The largest finite magnitude of a destination of QSCAL. -/
def largestOf : Fmt → Nat × Int
  | .e4m3 => (448, 0)
  | .e5m2 => (57344, 0)
  | _ => lnsL 31

/-- The least scale field at or above n, of those left, that lets a magnitude fit. -/
def leastScale (mx : Nat) (e : Int) (top : Nat × Int) : Nat → Nat → Nat
  | 0, n => n
  | left + 1, n =>
    if magLt (top.1 * (4 + n % 4)) (top.2 + (n / 4 : Nat) - 129) mx e then leastScale mx e top left (n + 1) else n

/-- The greater of two magnitudes. -/
def maxMag (a b : Nat × Int) : Nat × Int := if magLt a.1 a.2 b.1 b.2 then b else a

/-- The scale of a block of values (R486). -/
def blockScale (fmt : Fmt) (vs : List Val) : Nat × Flags :=
  if vs.any fun v => v.isNan || v.isInf then (0x3FC, fInvalid)
  else
    let mx := vs.foldl (fun m v => match v with | .num _ x e => maxMag m (x, e) | _ => m) (0, 0)
    (if mx.1 = 0 then 0x1FC else leastScale mx.1 mx.2 (largestOf fmt) 1019 0, 0)

/-- QSCAL (R486): one scale for all the participating lanes. -/
def execQscal (k : Ctl) (fmt : Fmt) (a b : Opnd) (s : State) : Host.Outcome State Fault Refusal :=
  onCur s fun c =>
    let p := s.parts c k
    let r := blockScale fmt ((lanesOf p).map fun i => ffF32.value (s.rd32 c b i).toNat)
    s.complete c k b .zero .zero
      { writes := writesOf a 1 p fun _ => BitVec.ofNat 128 r.1, flags := if p = 0 then 0 else r.2 }

end Sys2Proof.Machine
end

