-- ==== Sys2Proof/Machine/Dispatch.lean ====
section
/-! DEFINITION. One arm for each instruction and event of spec/opcode_table.json: a direct call of its meaning. -/

namespace Sys2Proof.Machine

/-- The meaning of every instruction and event. -/
def exec (i : Instr) (s : State) : Host.Outcome State Fault Refusal :=
  match i with
  | .nop k => Sys2Proof.Machine.execNop k s
  | .bra k off => Sys2Proof.Machine.execBra k off s
  | .brx k b => Sys2Proof.Machine.execBrx k b s
  | .call k a off => Sys2Proof.Machine.execCall k a off s
  | .callx k a b => Sys2Proof.Machine.execCallx k a b s
  | .ret k b => Sys2Proof.Machine.execRet k b s
  | .exit k => Sys2Proof.Machine.execExit k s
  | .yieldI k => Sys2Proof.Machine.execYieldI k s
  | .sleep k b => Sys2Proof.Machine.execSleep k b s
  | .trap k code => Sys2Proof.Machine.execTrap k code s
  | .rtt k skip => Sys2Proof.Machine.execRtt k skip s
  | .bkpt k => Sys2Proof.Machine.execBkpt k s
  | .iadd k ty sat a b c => Sys2Proof.Machine.execIadd k ty sat a b c s
  | .iaddt k ty sat a b c d => Sys2Proof.Machine.execIaddt k ty sat a b c d s
  | .iaddc k sub a b c d => Sys2Proof.Machine.execIaddc k sub a b c d s
  | .isub k ty sat a b c => Sys2Proof.Machine.execIsub k ty sat a b c s
  | .imul k ty a b c => Sys2Proof.Machine.execImul k ty a b c s
  | .imulh k ty a b c => Sys2Proof.Machine.execImulh k ty a b c s
  | .imad k ty a b c d => Sys2Proof.Machine.execImad k ty a b c d s
  | .imadw k ty a b c d => Sys2Proof.Machine.execImadw k ty a b c d s
  | .imin k ty a b c => Sys2Proof.Machine.execImin k ty a b c s
  | .imax k ty a b c => Sys2Proof.Machine.execImax k ty a b c s
  | .iabs k ty sat a b => Sys2Proof.Machine.execIabs k ty sat a b s
  | .icmp k cmp ty a b c => Sys2Proof.Machine.execIcmp k cmp ty a b c s
  | .sel k w64 a b c d => Sys2Proof.Machine.execSel k w64 a b c d s
  | .lea k signed n w a b c => Sys2Proof.Machine.execLea k signed n w a b c s
  | .mov k w64 a b => Sys2Proof.Machine.execMov k w64 a b s
  | .movi k a lit => Sys2Proof.Machine.execMovi k a lit s
  | .logt k w64 a b c d tab => Sys2Proof.Machine.execLogt k w64 a b c d tab s
  | .shl k ty a b c => Sys2Proof.Machine.execShl k ty a b c s
  | .shr k ty a b c => Sys2Proof.Machine.execShr k ty a b c s
  | .sha k ty a b c => Sys2Proof.Machine.execSha k ty a b c s
  | .shd k m32 dn a b c d => Sys2Proof.Machine.execShd k m32 dn a b c d s
  | .bfx k ty a b c => Sys2Proof.Machine.execBfx k ty a b c s
  | .bfi k w64 a b c => Sys2Proof.Machine.execBfi k w64 a b c s
  | .brev k w64 a b => Sys2Proof.Machine.execBrev k w64 a b s
  | .clz k w64 a b => Sys2Proof.Machine.execClz k w64 a b s
  | .popc k w64 a b => Sys2Proof.Machine.execPopc k w64 a b s
  | .rdlane k w64 a b c => Sys2Proof.Machine.execRdlane k w64 a b c s
  | .hrnd k useK a b c => Sys2Proof.Machine.execHrnd k useK a b c s
  | .cnarrow k a b c d => Sys2Proof.Machine.execCnarrow k a b c d s
  | .cperm k a b c => Sys2Proof.Machine.execCperm k a b c s
  | .cget k a b => Sys2Proof.Machine.execCget k a b s
  | .cchk k perm size a b c => Sys2Proof.Machine.execCchk k perm size a b c s
  | .cclr k a => Sys2Proof.Machine.execCclr k a s
  | .fadd k fmt rnd a b c => Sys2Proof.Machine.execFadd k fmt rnd a b c s
  | .fsub k fmt rnd a b c => Sys2Proof.Machine.execFsub k fmt rnd a b c s
  | .fmul k fmt rnd a b c => Sys2Proof.Machine.execFmul k fmt rnd a b c s
  | .ffma k fmt rnd a b c d => Sys2Proof.Machine.execFfma k fmt rnd a b c d s
  | .fmin k fmt nan a b c => Sys2Proof.Machine.execFmin k fmt nan a b c s
  | .fmax k fmt nan a b c => Sys2Proof.Machine.execFmax k fmt nan a b c s
  | .fcmp k cmp fmt a b c => Sys2Proof.Machine.execFcmp k cmp fmt a b c s
  | .fclass k fmt a b => Sys2Proof.Machine.execFclass k fmt a b s
  | .frnd k fmt rnd x a b => Sys2Proof.Machine.execFrnd k fmt rnd x a b s
  | .fdot2 k fmt rnd a b c d => Sys2Proof.Machine.execFdot2 k fmt rnd a b c d s
  | .frcp k fmt rnd a b => Sys2Proof.Machine.execFrcp k fmt rnd a b s
  | .frsq k fmt rnd a b => Sys2Proof.Machine.execFrsq k fmt rnd a b s
  | .fsqrt k fmt rnd a b => Sys2Proof.Machine.execFsqrt k fmt rnd a b s
  | .fex2 k fmt a b => Sys2Proof.Machine.execFex2 k fmt a b s
  | .flg2 k fmt a b => Sys2Proof.Machine.execFlg2 k fmt a b s
  | .fsin k fmt a b => Sys2Proof.Machine.execFsin k fmt a b s
  | .fcos k fmt a b => Sys2Proof.Machine.execFcos k fmt a b s
  | .ftanh k fmt a b => Sys2Proof.Machine.execFtanh k fmt a b s
  | .padd k fmt rnd a b c => Sys2Proof.Machine.execPadd k fmt rnd a b c s
  | .pmul k fmt rnd a b c => Sys2Proof.Machine.execPmul k fmt rnd a b c s
  | .pfma k fmt rnd a b c d => Sys2Proof.Machine.execPfma k fmt rnd a b c d s
  | .pmin k fmt a b c => Sys2Proof.Machine.execPmin k fmt a b c s
  | .pmax k fmt a b c => Sys2Proof.Machine.execPmax k fmt a b c s
  | .cvt k dst src rnd a b c d => Sys2Proof.Machine.execCvt k dst src rnd a b c d s
  | .cvts k dst src rnd a b c d => Sys2Proof.Machine.execCvts k dst src rnd a b c d s
  | .qscal k fmt a b => Sys2Proof.Machine.execQscal k fmt a b s
  | .part k b => Sys2Proof.Machine.execPart k b s
  | .shfl k w64 mode a b c => Sys2Proof.Machine.execShfl k w64 mode a b c s
  | .vote k fn a b => Sys2Proof.Machine.execVote k fn a b s
  | .redt k op ty a b => Sys2Proof.Machine.execRedt k op ty a b s
  | .scant k excl op ty a b => Sys2Proof.Machine.execScant k excl op ty a b s
  | .matchT k all w64 a b => Sys2Proof.Machine.execMatchT k all w64 a b s
  | .elect k off => Sys2Proof.Machine.execElect k off s
  | .elend k => Sys2Proof.Machine.execElend k s
  | .ld k size acq cap xfer a b c => Sys2Proof.Machine.execLd k size acq cap xfer a b c s
  | .st k size rel cap xfer b c d => Sys2Proof.Machine.execSt k size rel cap xfer b c d s
  | .ldp k w64 win a b => Sys2Proof.Machine.execLdp k w64 win a b s
  | .ldchain k nf cap a b c d => Sys2Proof.Machine.execLdchain k nf cap a b c d s
  | .prf k cap b c => Sys2Proof.Machine.execPrf k cap b c s
  | .waita k cmp w64 acq cap b c d => Sys2Proof.Machine.execWaita k cmp w64 acq cap b c d s
  | .cctl k op scope b c => Sys2Proof.Machine.execCctl k op scope b c s
  | .rgn k => Sys2Proof.Machine.execRgn k s
  | .rgnc k => Sys2Proof.Machine.execRgnc k s
  | .atom k op w64 signed scope order cap a b c d e => Sys2Proof.Machine.execAtom k op w64 signed scope order cap a b c d e s
  | .red k op w64 signed scope rel cap b c d => Sys2Proof.Machine.execRed k op w64 signed scope rel cap b c d s
  | .fence k scope => Sys2Proof.Machine.execFence k scope s
  | .acqp k scope b c => Sys2Proof.Machine.execAcqp k scope b c s
  | .acqpCap k scope b c => Sys2Proof.Machine.execAcqpCap k scope b c s
  | .qfence k mask => Sys2Proof.Machine.execQfence k mask s
  | .bar k n b => Sys2Proof.Machine.execBar k n b s
  | .bara k n b => Sys2Proof.Machine.execBara k n b s
  | .barw k n => Sys2Proof.Machine.execBarw k n s
  | .barLaunch k => Sys2Proof.Machine.execBarLaunch k s
  | .baraLaunch k => Sys2Proof.Machine.execBaraLaunch k s
  | .barwLaunch k => Sys2Proof.Machine.execBarwLaunch k s
  | .mbar k n b c => Sys2Proof.Machine.execMbar k n b c s
  | .mbwait k n => Sys2Proof.Machine.execMbwait k n s
  | .bcw k a b => Sys2Proof.Machine.execBcw k a b s
  | .qpush k q b => Sys2Proof.Machine.execQpush k q b s
  | .qpop k q a => Sys2Proof.Machine.execQpop k q a s
  | .qtry k q a => Sys2Proof.Machine.execQtry k q a s
  | .ckick k q b c => Sys2Proof.Machine.execCkick k q b c s
  | .puts k q b c => Sys2Proof.Machine.execPuts k q b c s
  | .get k q b c => Sys2Proof.Machine.execGet k q b c s
  | .radd k q b c => Sys2Proof.Machine.execRadd k q b c s
  | .mput k q b c => Sys2Proof.Machine.execMput k q b c s
  | .mputRed k q b c => Sys2Proof.Machine.execMputRed k q b c s
  | .mputOrd k q b c => Sys2Proof.Machine.execMputOrd k q b c s
  | .pcoll k q b => Sys2Proof.Machine.execPcoll k q b s
  | .mlay k a b => Sys2Proof.Machine.execMlay k a b s
  | .mma k a b c d => Sys2Proof.Machine.execMma k a b c d s
  | .mzero k a b => Sys2Proof.Machine.execMzero k a b s
  | .mst k fmt sat sc b c d e => Sys2Proof.Machine.execMst k fmt sat sc b c d e s
  | .mld k a b c => Sys2Proof.Machine.execMld k a b c s
  | .mscl k tgt b => Sys2Proof.Machine.execMscl k tgt b s
  | .mwait k n => Sys2Proof.Machine.execMwait k n s
  | .msig k n b => Sys2Proof.Machine.execMsig k n b s
  | .mjmp k off => Sys2Proof.Machine.execMjmp k off s
  | .mloop k a off => Sys2Proof.Machine.execMloop k a off s
  | .madd k a b c => Sys2Proof.Machine.execMadd k a b c s
  | .maddR k a b => Sys2Proof.Machine.execMaddR k a b s
  | .maddC k a b => Sys2Proof.Machine.execMaddC k a b s
  | .mmov k a b => Sys2Proof.Machine.execMmov k a b s
  | .mmovW k a lit => Sys2Proof.Machine.execMmovW k a lit s
  | .mbcnt k clr a => Sys2Proof.Machine.execMbcnt k clr a s
  | .mend k => Sys2Proof.Machine.execMend k s
  | .launch k a b => Sys2Proof.Machine.execLaunch k a b s
  | .gsig k b => Sys2Proof.Machine.execGsig k b s
  | .cancel k hard a b => Sys2Proof.Machine.execCancel k hard a b s
  | .cntr k a b => Sys2Proof.Machine.execCntr k a b s
  | .waitv k cmp w64 b c => Sys2Proof.Machine.execWaitv k cmp w64 b c s
  | .sigv k op w64 done b c => Sys2Proof.Machine.execSigv k op w64 done b c s
  | .tkrd k sel a b => Sys2Proof.Machine.execTkrd k sel a b s
  | .pint k n a b => Sys2Proof.Machine.execPint k n a b s
  | .rhint k b c => Sys2Proof.Machine.execRhint k b c s
  | .srd k a b => Sys2Proof.Machine.execSrd k a b s
  | .swr k b c => Sys2Proof.Machine.execSwr k b c s
  | .rotationSweep blk wave => Sys2Proof.Machine.execRotationSweep blk wave s
  | .lookaheadResultWrite blk wave id vals fill => Sys2Proof.Machine.execLookaheadResultWrite blk wave id vals fill s
  | .lineRefetch core ctx va => Sys2Proof.Machine.execLineRefetch core ctx va s
  | .waitResume blk wave => Sys2Proof.Machine.execWaitResume blk wave s
  | .waitaReread blk wave lane peerVal => Sys2Proof.Machine.execWaitaReread blk wave lane peerVal s
  | .sleepWake blk wave lane => Sys2Proof.Machine.execSleepWake blk wave lane s
  | .acqpComplete blk wave => Sys2Proof.Machine.execAcqpComplete blk wave s
  | .promote core remote => Sys2Proof.Machine.execPromote core remote s
  | .promoLogAgeEvict core => Sys2Proof.Machine.execPromoLogAgeEvict core s
  | .faultRecordEmit => Sys2Proof.Machine.execFaultRecordEmit s
  | .translationRetry blk wave => Sys2Proof.Machine.execTranslationRetry blk wave s
  | .trnResolve val => Sys2Proof.Machine.execTrnResolve val s
  | .trnInval val => Sys2Proof.Machine.execTrnInval val s
  | .trnInvalDone => Sys2Proof.Machine.execTrnInvalDone s
  | .faultPendingReply blk wave lanes granule => Sys2Proof.Machine.execFaultPendingReply blk wave lanes granule s
  | .faultNotice srcPkg granule fatal => Sys2Proof.Machine.execFaultNotice srcPkg granule fatal s
  | .tokenClaimService core => Sys2Proof.Machine.execTokenClaimService core s
  | .selftestGranuleEnd core failed => Sys2Proof.Machine.execSelftestGranuleEnd core failed s
  | .ecoloIntent job rank rise t => Sys2Proof.Machine.execEcoloIntent job rank rise t s
  | .capqSample die charge => Sys2Proof.Machine.execCapqSample die charge s
  | .capacitorHold die => Sys2Proof.Machine.execCapacitorHold die s
  | .capacitorHoldEnd die => Sys2Proof.Machine.execCapacitorHoldEnd die s
  | .capqRead die => Sys2Proof.Machine.execCapqRead die s
  | .sensorSample die readings => Sys2Proof.Machine.execSensorSample die readings s
  | .sensorHoldEnd die => Sys2Proof.Machine.execSensorHoldEnd die s
  | .thermalCapRise die => Sys2Proof.Machine.execThermalCapRise die s
  | .supplyOutOfRange what => Sys2Proof.Machine.execSupplyOutOfRange what s
  | .supplyHoldRelease what => Sys2Proof.Machine.execSupplyHoldRelease what s
  | .opReq die val => Sys2Proof.Machine.execOpReq die val s
  | .opVoltageRiseDone die => Sys2Proof.Machine.execOpVoltageRiseDone die s
  | .opClockStopDone die => Sys2Proof.Machine.execOpClockStopDone die s
  | .opVoltageFallDone die => Sys2Proof.Machine.execOpVoltageFallDone die s
  | .hbmCtl stack val => Sys2Proof.Machine.execHbmCtl stack val s
  | .hbmGroupRetrainDone stack => Sys2Proof.Machine.execHbmGroupRetrainDone stack s
  | .tokCfgCommit val => Sys2Proof.Machine.execTokCfgCommit val s
  | .millinerRegisterWrite reg idx val => Sys2Proof.Machine.execMillinerRegisterWrite reg idx val s
  | .registerWrite fn off size val => Sys2Proof.Machine.execRegisterWrite fn off size val s
  | .doorbell fn q val => Sys2Proof.Machine.execDoorbell fn q val s
  | .commandAccept q => Sys2Proof.Machine.execCommandAccept q s
  | .hwqEnable fn q val => Sys2Proof.Machine.execHwqEnable fn q val s
  | .hwqHaltClear fn q => Sys2Proof.Machine.execHwqHaltClear fn q s
  | .controlStreamStart q => Sys2Proof.Machine.execControlStreamStart q s
  | .commandComplete q => Sys2Proof.Machine.execCommandComplete q s
  | .levelArm fn level slot val => Sys2Proof.Machine.execLevelArm fn level slot val s
  | .nodeArm fn node val => Sys2Proof.Machine.execNodeArm fn node val s
  | .launchDispatch slot => Sys2Proof.Machine.execLaunchDispatch slot s
  | .blockPlace slot => Sys2Proof.Machine.execBlockPlace slot s
  | .teardown fn ctx => Sys2Proof.Machine.execTeardown fn ctx s
  | .preempt ctx die => Sys2Proof.Machine.execPreempt ctx die s
  | .quantumExpiry ctx die => Sys2Proof.Machine.execQuantumExpiry ctx die s
  | .blockRestore saved => Sys2Proof.Machine.execBlockRestore saved s
  | .reLine core q peerData => Sys2Proof.Machine.execReLine core q peerData s
  | .queueSlotTake core q => Sys2Proof.Machine.execQueueSlotTake core q s
  | .qfenceRelease core => Sys2Proof.Machine.execQfenceRelease core s
  | .arrayCycle core => Sys2Proof.Machine.execArrayCycle core s
  | .arraySelect core => Sys2Proof.Machine.execArraySelect core s
  | .lineWritebackDeadline core => Sys2Proof.Machine.execLineWritebackDeadline core s
  | .peerAccess req => Sys2Proof.Machine.execPeerAccess req s
  | .postedWriteAck id fatal => Sys2Proof.Machine.execPostedWriteAck id fatal s
  | .invalidation srcPkg va => Sys2Proof.Machine.execInvalidation srcPkg va s
  | .chainStep pkt => Sys2Proof.Machine.execChainStep pkt s
  | .chainReply id attempt result => Sys2Proof.Machine.execChainReply id attempt result s
  | .chainTimeout id => Sys2Proof.Machine.execChainTimeout id s
  | .pcollNotice srcPkg c m refused => Sys2Proof.Machine.execPcollNotice srcPkg c m refused s
  | .pcollTaggedWrite req => Sys2Proof.Machine.execPcollTaggedWrite req s
  | .reductionResult msg => Sys2Proof.Machine.execReductionResult msg s
  | .lostNotice grp seq chunk => Sys2Proof.Machine.execLostNotice grp seq chunk s
  | .endpointContribution msg => Sys2Proof.Machine.execEndpointContribution msg s
  | .contributionResend grp seq chunk => Sys2Proof.Machine.execContributionResend grp seq chunk s
  | .scoRdmaWrite msg => Sys2Proof.Machine.execScoRdmaWrite msg s
  | .scoWriteImmediate msg imm => Sys2Proof.Machine.execScoWriteImmediate msg imm s
  | .scoRdmaRead msg => Sys2Proof.Machine.execScoRdmaRead msg s
  | .scoAck conn data => Sys2Proof.Machine.execScoAck conn data s
  | .scoRetryExhausted conn => Sys2Proof.Machine.execScoRetryExhausted conn s
  | .flitReceive port seq flit => Sys2Proof.Machine.execFlitReceive port seq flit s
  | .linkRetrain port => Sys2Proof.Machine.execLinkRetrain port s
  | .linkTrainingDone port result => Sys2Proof.Machine.execLinkTrainingDone port result s
  | .linkCtlEn port en => Sys2Proof.Machine.execLinkCtlEn port en s
  | .linkCtlRevive port => Sys2Proof.Machine.execLinkCtlRevive port s
  | .linkCtlClr port => Sys2Proof.Machine.execLinkCtlClr port s
  | .swlId val => Sys2Proof.Machine.execSwlId val s
  | .swlTimeSet val => Sys2Proof.Machine.execSwlTimeSet val s
  | .timeMessage refCount => Sys2Proof.Machine.execTimeMessage refCount s
  | .hostBar2Access fn off size op => Sys2Proof.Machine.execHostBar2Access fn off size op s
  | .functionLevelReset fn => Sys2Proof.Machine.execFunctionLevelReset fn s
  | .spdmMessage msg => Sys2Proof.Machine.execSpdmMessage msg s
  | .mctpMessage bytes => Sys2Proof.Machine.execMctpMessage bytes s
  | .packageReset cause => Sys2Proof.Machine.execPackageReset cause s
  | .rstCtlDie die => Sys2Proof.Machine.execRstCtlDie die s
  | .rstCtlStack stack => Sys2Proof.Machine.execRstCtlStack stack s
  | .rstCtlPort port => Sys2Proof.Machine.execRstCtlPort port s
  | .computeDieReset die => Sys2Proof.Machine.execComputeDieReset die s
  | .stackReset stack => Sys2Proof.Machine.execStackReset stack s
  | .resetReturn what idx => Sys2Proof.Machine.execResetReturn what idx s
  | .waitvReread q peerVal => Sys2Proof.Machine.execWaitvReread q peerVal s
  | .invalidationAck srcPkg va => Sys2Proof.Machine.execInvalidationAck srcPkg va s
  | .accessPerformed blk wave => Sys2Proof.Machine.execAccessPerformed blk wave s
  | .scrubReadComplete line result => Sys2Proof.Machine.execScrubReadComplete line result s
  | .vfEnable v => Sys2Proof.Machine.execVfEnable v s
  | .refillTick => Sys2Proof.Machine.execRefillTick s
  | .governorInterval => Sys2Proof.Machine.execGovernorInterval s
  | .ecoloDecision => Sys2Proof.Machine.execEcoloDecision s
  | .retrainBucketLeak => Sys2Proof.Machine.execRetrainBucketLeak s
  | .readEventRecords => Sys2Proof.Machine.execReadEventRecords s
  | .stageFirmwareChunk => Sys2Proof.Machine.execStageFirmwareChunk s
  | .commitFirmware => Sys2Proof.Machine.execCommitFirmware s
  | .mailboxPackageReset => Sys2Proof.Machine.execMailboxPackageReset s
  | .firmwareReadyTimeout => Sys2Proof.Machine.execFirmwareReadyTimeout s

end Sys2Proof.Machine
end

