-- ==== Sys2Proof/Decode.lean ====
section
/-! DEFINITION. The decoder, total on every 96-bit word and every stream, and the encoder
(spec/04_encoding.md R98 to R107, R115; spec/05_opcode_map.md R116 to R121). -/

namespace Sys2Proof

/-- The fields of an instruction word (R98). -/
structure Fields where
  yieldBit : Bool
  holdD : Bool
  holdC : Bool
  holdB : Bool
  hint : BitVec 3
  la : BitVec 4
  e : BitVec 9
  d : BitVec 9
  c : BitVec 9
  b : BitVec 9
  a : BitVec 9
  neg2 : Bool
  neg1 : Bool
  comb : BitVec 2
  g2 : BitVec 5
  g1 : BitVec 5
  greg : BitVec 9
  md : BitVec 7
  op : BitVec 10
  deriving DecidableEq, Repr

/-- The layout of R98, read. -/
def Fields.ofWord (w : IWord) : Fields :=
  { yieldBit := w.getLsbD 95, holdD := w.getLsbD 94, holdC := w.getLsbD 93, holdB := w.getLsbD 92
    hint := w.extractLsb' 89 3, la := w.extractLsb' 85 4
    e := w.extractLsb' 76 9, d := w.extractLsb' 67 9, c := w.extractLsb' 58 9
    b := w.extractLsb' 49 9, a := w.extractLsb' 40 9
    neg2 := w.getLsbD 39, neg1 := w.getLsbD 38, comb := w.extractLsb' 36 2
    g2 := w.extractLsb' 31 5, g1 := w.extractLsb' 26 5, greg := w.extractLsb' 17 9
    md := w.extractLsb' 10 7, op := w.extractLsb' 0 10 }

/-- The layout of R98, written: the fields joined from bit 95 down to bit 0. -/
def Fields.toWord (f : Fields) : IWord :=
  BitVec.ofBool f.yieldBit ++ BitVec.ofBool f.holdD ++ BitVec.ofBool f.holdC ++ BitVec.ofBool f.holdB ++
  f.hint ++ f.la ++ f.e ++ f.d ++ f.c ++ f.b ++ f.a ++ BitVec.ofBool f.neg2 ++ BitVec.ofBool f.neg1 ++
  f.comb ++ f.g2 ++ f.g1 ++ f.greg ++ f.md ++ f.op

/-- A decode trap of checks 1 to 3 (R115): illegal-instruction, or illegal-operand with the field as detail (R123). -/
inductive DecodeTrap where
  | illegalInstr
  | illegalOperand (detail : BitVec 8)
  deriving DecidableEq, Repr

/-! ### Operand codes -/

/-- The 18 bits that stand in fields D and E (R104). -/
def Fields.imm18 (f : Fields) : BitVec 18 := f.e ++ f.d
/-- The literal of MOVI and MMOV.w (R106, R467). -/
def Fields.lit32 (f : Fields) : Word := f.e.extractLsb' 0 5 ++ f.d ++ f.c ++ f.b

/-- The operand that a field code names (R100, R107, R299). -/
def opndOf (st : Stream) (f : Fields) (code : BitVec 9) : Option Opnd :=
  let n := code.toNat
  match st with
  | .matrix =>
    if n < 0x20 then some (.m (code.setWidth 5))
    else if n < 0x28 then some (.x (code.setWidth 3))
    else if n = 0x140 then some .zero
    else if n = 0x1FE then some (.param (f.imm18.extractLsb' 15 3) (f.imm18.setWidth 15))
    else if n = 0x1FF then some (.imm f.imm18)
    else none
  | _ =>
    if n < 0x100 then some (.lane (code.setWidth 8))
    else if n < 0x140 then some (.uni (code.setWidth 6))
    else if n = 0x140 then some .zero
    else if n = 0x141 then some .ones
    else if n = 0x142 then some .laneIdx
    else if n = 0x143 then some .tileIdx
    else if n = 0x1FE then some (.param (f.imm18.extractLsb' 15 3) (f.imm18.setWidth 15))
    else if n = 0x1FF then some (.imm f.imm18)
    else none

/-- The field code of an operand. -/
def Opnd.code : Opnd → BitVec 9
  | .lane n => n.setWidth 9
  | .uni n => 0x100 + n.setWidth 9
  | .m n => n.setWidth 9
  | .x n => 0x20 + n.setWidth 9
  | .zero => 0x140
  | .ones => 0x141
  | .laneIdx => 0x142
  | .tileIdx => 0x143
  | .param _ _ => 0x1FE
  | .imm _ => 0x1FF

/-- The 18 bits that an operand puts into D and E (R104, R107). -/
def Opnd.payload : Opnd → Option (BitVec 18)
  | .imm v => some v
  | .param w o => some (w ++ o)
  | _ => none

/-! ### Modifiers from their codes (R117 to R119) -/

def ITy.ofCode : Nat → Option ITy
  | 0 => some .i32 | 1 => some .n32 | 2 => some .i64 | 3 => some .n64 | 4 => some .i16 | 5 => some .n16 | _ => none
def Fmt.ofCode : Nat → Option Fmt
  | 0 => some .f32 | 1 => some .f16 | 2 => some .bf16 | 3 => some .e4m3 | 4 => some .e5m2 | 5 => some .lns6
  | 6 => some .ob8 | 7 => some .ob4 | 8 => some .i8 | 9 => some .n8 | 10 => some .i16 | 11 => some .n16
  | 12 => some .i32 | 13 => some .n32 | 14 => some .i64 | 15 => some .n64 | _ => none
def FFmt.ofCode : Nat → Option FFmt
  | 0 => some .f32 | 1 => some .f16 | 2 => some .bf16 | _ => none
def PFmt.ofCode : Nat → Option PFmt
  | 1 => some .f16 | 2 => some .bf16 | _ => none
def Rnd.ofCode : Nat → Option Rnd
  | 0 => some .rn | 1 => some .rz | 2 => some .rd | 3 => some .ru | 4 => some .rs | _ => none
def Rnd4.ofCode : Nat → Option Rnd4
  | 0 => some .rn | 1 => some .rz | 2 => some .rd | 3 => some .ru | _ => none
def Scope.ofCode : Nat → Option Scope
  | 1 => some .blk | 2 => some .clu | 3 => some .die | 4 => some .pkg | 5 => some .sys | _ => none
def Order.ofCode : Nat → Option Order
  | 0 => some .relaxed | 1 => some .acq | 2 => some .rel | _ => none
def ICmp.ofCode : Nat → Option ICmp
  | 0 => some .eq | 1 => some .ne | 2 => some .lt | 3 => some .le | 4 => some .gt | 5 => some .ge | _ => none
def FCmp.ofCode : Nat → Option FCmp
  | 0 => some .eq | 1 => some .ne | 2 => some .lt | 3 => some .le | 4 => some .gt | 5 => some .ge | 6 => some .un
  | 7 => some .or | _ => none
def WCmp.ofCode : Nat → Option WCmp
  | 0 => some .eq | 1 => some .ne | 2 => some .ge | 3 => some .lt | 4 => some .mask | _ => none
def ShTy.ofCode : Nat → Option ShTy
  | 1 => some .w32 | 3 => some .w64 | 5 => some .p16 | _ => none
def XTy.ofCode : Nat → Option XTy
  | 0 => some .n32 | 1 => some .i32 | 2 => some .f32 | 3 => some .n64 | _ => none
def XOp.ofCode : Nat → Option XOp
  | 0 => some .add | 1 => some .min | 2 => some .max | 3 => some .and | 4 => some .or | 5 => some .xor | _ => none
def ShflMode.ofCode : Nat → Option ShflMode
  | 0 => some .idx | 1 => some .up | 2 => some .down | 3 => some .xor | _ => none
def VoteFn.ofCode : Nat → Option VoteFn
  | 0 => some .any | 1 => some .all | 2 => some .eq | 3 => some .ballot | _ => none
def LdSize.ofCode : Nat → Option LdSize
  | 0 => some .n8 | 1 => some .i8 | 2 => some .n16 | 3 => some .i16 | 4 => some .n32 | 5 => some .n64
  | 6 => some .quad | _ => none
def StSize.ofCode : Nat → Option StSize
  | 0 => some .n8 | 1 => some .n16 | 2 => some .n32 | 3 => some .n64 | 4 => some .quad | _ => none
def AOp.ofCode : Nat → Option AOp
  | 0 => some .add | 1 => some .min | 2 => some .max | 3 => some .and | 4 => some .or | 5 => some .xor
  | 6 => some .exch | 7 => some .cas | _ => none
def ROp.ofCode : Nat → Option ROp
  | 0 => some .add | 1 => some .min | 2 => some .max | 3 => some .and | 4 => some .or | 5 => some .xor | _ => none
def CctlOp.ofCode : Nat → Option CctlOp
  | 0 => some .ii | 1 => some .wb | 2 => some .wbi | _ => none
def CapPerm.ofCode : Nat → Option CapPerm
  | 0 => some .read | 1 => some .write | 2 => some .atomic | 3 => some .chain | _ => none
def CapSize.ofCode : Nat → Option CapSize
  | 0 => some .b1 | 1 => some .b4 | 2 => some .b8 | 3 => some .b16 | _ => none
def SigOp.ofCode : Nat → Option SigOp
  | 0 => some .set | 1 => some .add | 2 => some .max | _ => none
def TkSel.ofCode : Nat → Option TkSel
  | 0 => some .core | 1 => some .die | 2 => some .rate | 3 => some .price | 4 => some .stall | _ => none
def MsclT.ofCode : Nat → Option MsclT
  | 0 => some .sa | 1 => some .sb | 2 => some .za | 3 => some .zb | 4 => some .zca | 5 => some .zcb
  | 6 => some .zst | _ => none
def MFmt.ofCode : Nat → Option MFmt
  | 0 => some .f32 | 1 => some .f16 | 2 => some .bf16 | 3 => some .e4m3 | 4 => some .e5m2 | 5 => some .lns6
  | 6 => some .ob8 | 7 => some .ob4 | _ => none

/-- Scope and order of a load, store or wait (R119): relaxed only with scope 000, the given order with 001 to 101. -/
def scopeOrdOf (m ord : Nat) : Option (Option Scope) :=
  if m / 4 = 0 then some none
  else if m / 4 % 4 = ord then (Scope.ofCode (m / 16)).map some
  else none

/-- What check 1 finds for a word: how the instruction is built from its operands. -/
abbrev Mk := Ctl → Opnd → Opnd → Opnd → Opnd → Opnd → Instr

/-- The 18-bit immediate of an operand. -/
def Opnd.immVal : Opnd → BitVec 18
  | .imm v => v
  | _ => 0

/-- A condition of check 1. -/
def need (c : Bool) (mk : Mk) : Option Mk := if c then some mk else none
/-- Type code 1 or 3 with operation bits zero (R118). -/
def w64Of (m : Nat) (mk : Bool → Mk) : Option Mk :=
  if m = 16 then some (mk false) else if m = 48 then some (mk true) else none
/-- A type code with operation bits zero. -/
def tyOf (m : Nat) (mk : ITy → Mk) : Option Mk :=
  if m % 16 = 0 then (ITy.ofCode (m / 16)).map mk else none
/-- A type code with .sat in bit 10. -/
def tySatOf (m : Nat) (mk : ITy → Bool → Mk) : Option Mk :=
  if m % 16 < 2 then (ITy.ofCode (m / 16)).map fun t => mk t (m % 2 == 1) else none
/-- Format and rounding of class 0x3 with operation bits zero. -/
def fmtRndOf (m : Nat) (mk : FFmt → Rnd4 → Mk) : Option Mk :=
  if m % 4 = 0 then
    (FFmt.ofCode (m / 16)).bind fun f => (Rnd4.ofCode (m / 4 % 4)).map fun r => mk f r
  else none
/-- A format of class 0x3 with bits [13:10] zero. -/
def fmt0Of (m : Nat) (mk : FFmt → Mk) : Option Mk :=
  if m % 16 = 0 then (FFmt.ofCode (m / 16)).map mk else none
/-- A format of class 0x3 with .nan in bit 10. -/
def fmtNanOf (m : Nat) (mk : FFmt → Bool → Mk) : Option Mk :=
  if m % 16 < 2 then (FFmt.ofCode (m / 16)).map fun f => mk f (m % 2 == 1) else none
/-- Rounding and format of the packed instructions. -/
def pkOf (m : Nat) (mk : PFmt → Rnd4 → Mk) : Option Mk :=
  (PFmt.ofCode (m % 16)).bind fun f => (Rnd4.ofCode (m / 16)).map fun r => mk f r

/-- Class 0x0 (R116). -/
def row0 (idx m : Nat) : Option Mk :=
  match idx with
  | 0 => need (m == 0) fun k _ _ _ _ _ => .nop k
  | 1 => need (m == 0) fun k _ b _ _ _ => .bra k b.immVal
  | 2 => need (m == 0) fun k _ b _ _ _ => .brx k b
  | 3 => need (m == 0) fun k a b _ _ _ => .call k a b.immVal
  | 4 => need (m == 0) fun k a b _ _ _ => .callx k a b
  | 5 => need (m == 0) fun k _ b _ _ _ => .ret k b
  | 6 => need (m == 0) fun k _ _ _ _ _ => .exit k
  | 7 => need (m == 0) fun k _ _ _ _ _ => .yieldI k
  | 8 => need (m == 0) fun k _ b _ _ _ => .sleep k b
  | 9 => need (m == 0) fun k _ b _ _ _ => .trap k (b.immVal.setWidth 8)
  | 10 => need (decide (m < 2)) fun k _ _ _ _ _ => .rtt k (m % 2 == 1)
  | 11 => need (m == 0) fun k _ _ _ _ _ => .bkpt k
  | _ => none

/-- Class 0x1 (R116). -/
def row1 (idx m : Nat) : Option Mk :=
  match idx with
  | 0 => tySatOf m fun t s k a b c _ _ => .iadd k t s a b c
  | 1 => tySatOf m fun t s k a b c d _ => .iaddt k t s a b c d
  | 2 => need (m / 16 == 1 && decide (m % 16 < 2)) fun k a b c d _ => .iaddc k (m % 2 == 1) a b c d
  | 3 => tySatOf m fun t s k a b c _ _ => .isub k t s a b c
  | 4 => tyOf m fun t k a b c _ _ => .imul k t a b c
  | 5 => tyOf m fun t k a b c _ _ => .imulh k t a b c
  | 6 => tyOf m fun t k a b c d _ => .imad k t a b c d
  | 7 => tyOf m fun t k a b c d _ => .imadw k t a b c d
  | 8 => tyOf m fun t k a b c _ _ => .imin k t a b c
  | 9 => tyOf m fun t k a b c _ _ => .imax k t a b c
  | 10 => tySatOf m fun t s k a b _ _ _ => .iabs k t s a b
  | 11 => (ITy.ofCode (m / 16)).bind fun t => (ICmp.ofCode (m % 16)).map fun o => fun k a b c _ _ => .icmp k o t a b c
  | 12 => w64Of m fun w k a b c d _ => .sel k w a b c d
  | 13 => need (decide (m / 16 < 2)) fun k a b c _ _ =>
      .lea k (m / 16 == 0) (BitVec.ofNat 3 (m % 16 / 2)) (m % 2 == 1) a b c
  | _ => none

/-- Class 0x2 (R116). -/
def row2 (idx m : Nat) (f : Fields) : Option Mk :=
  match idx with
  | 0 => w64Of m fun w k a b _ _ _ => .mov k w a b
  | 1 => need (m == 16 && f.e.extractLsb' 5 4 == 0) fun k a _ _ _ _ => .movi k a f.lit32
  | 2 => if f.e.getLsbD 8 then none else w64Of m fun w k a b c d _ => .logt k w a b c d (f.e.setWidth 8)
  | 3 => if m % 16 = 0 then (ShTy.ofCode (m / 16)).map fun t => fun k a b c _ _ => .shl k t a b c else none
  | 4 => if m % 16 = 0 then (ShTy.ofCode (m / 16)).map fun t => fun k a b c _ _ => .shr k t a b c else none
  | 5 => if m % 16 = 0 then (ShTy.ofCode (m / 16 + 1)).map fun t => fun k a b c _ _ => .sha k t a b c else none
  | 6 => need (m / 16 == 1 && decide (m % 16 < 4)) fun k a b c d _ => .shd k (m / 2 % 2 == 1) (m % 2 == 1) a b c d
  | 7 => tyOf m fun t k a b c _ _ => .bfx k t a b c
  | 8 => w64Of m fun w k a b c _ _ => .bfi k w a b c
  | 9 => w64Of m fun w k a b _ _ _ => .brev k w a b
  | 10 => w64Of m fun w k a b _ _ _ => .clz k w a b
  | 11 => w64Of m fun w k a b _ _ _ => .popc k w a b
  | 12 => w64Of m fun w k a b c _ _ => .rdlane k w a b c
  | 13 => need (m / 16 == 1 && decide (m % 16 < 2)) fun k a b c _ _ => .hrnd k (m % 2 == 1) a b c
  | 16 => need (m == 16) fun k a b c d _ => .cnarrow k a b c d
  | 17 => need (m == 16) fun k a b c _ _ => .cperm k a b c
  | 18 => need (m == 16) fun k a b _ _ _ => .cget k a b
  | 19 =>
    if m / 16 = 1 then
      (CapPerm.ofCode (m / 4 % 4)).bind fun p => (CapSize.ofCode (m % 4)).map fun z => fun k a b c _ _ => .cchk k p z a b c
    else none
  | 20 => need (m == 16) fun k a _ _ _ _ => .cclr k a
  | _ => none

/-- Class 0x3 (R116). -/
def row3 (idx m : Nat) : Option Mk :=
  match idx with
  | 0 => fmtRndOf m fun f r k a b c _ _ => .fadd k f r a b c
  | 1 => fmtRndOf m fun f r k a b c _ _ => .fsub k f r a b c
  | 2 => fmtRndOf m fun f r k a b c _ _ => .fmul k f r a b c
  | 3 => fmtRndOf m fun f r k a b c d _ => .ffma k f r a b c d
  | 4 => fmtNanOf m fun f n k a b c _ _ => .fmin k f n a b c
  | 5 => fmtNanOf m fun f n k a b c _ _ => .fmax k f n a b c
  | 6 => (FFmt.ofCode (m / 16)).bind fun f => (FCmp.ofCode (m % 16)).map fun o => fun k a b c _ _ => .fcmp k o f a b c
  | 7 => fmt0Of m fun f k a b _ _ _ => .fclass k f a b
  | 8 =>
    if m % 4 < 2 then
      (FFmt.ofCode (m / 16)).bind fun f => (Rnd4.ofCode (m / 4 % 4)).map fun r => fun k a b _ _ _ => .frnd k f r (m % 2 == 1) a b
    else none
  | 9 =>
    if m % 4 = 0 then
      (PFmt.ofCode (m / 16)).bind fun f => (Rnd4.ofCode (m / 4 % 4)).map fun r => fun k a b c d _ => .fdot2 k f r a b c d
    else none
  | 16 => fmtRndOf m fun f r k a b _ _ _ => .frcp k f r a b
  | 17 => fmtRndOf m fun f r k a b _ _ _ => .frsq k f r a b
  | 18 => fmtRndOf m fun f r k a b _ _ _ => .fsqrt k f r a b
  | 19 => fmt0Of m fun f k a b _ _ _ => .fex2 k f a b
  | 20 => fmt0Of m fun f k a b _ _ _ => .flg2 k f a b
  | 21 => fmt0Of m fun f k a b _ _ _ => .fsin k f a b
  | 22 => fmt0Of m fun f k a b _ _ _ => .fcos k f a b
  | 23 => fmt0Of m fun f k a b _ _ _ => .ftanh k f a b
  | _ => none

/-- A conversion: rounding, destination and, in field E, the source format (R419). -/
def cvtOf (m : Nat) (f : Fields) (mk : Fmt → Fmt → Rnd → Mk) : Option Mk :=
  (Rnd.ofCode (m / 16)).bind fun r =>
  (Fmt.ofCode (m % 16)).bind fun d =>
  (Fmt.ofCode f.e.toNat).bind fun s =>
  if r != .rs || d.takesRs then some (mk d s r) else none

/-- Class 0x4 (R116). -/
def row4 (idx m : Nat) (f : Fields) : Option Mk :=
  match idx with
  | 0 => pkOf m fun p r k a b c _ _ => .padd k p r a b c
  | 1 => pkOf m fun p r k a b c _ _ => .pmul k p r a b c
  | 2 => pkOf m fun p r k a b c d _ => .pfma k p r a b c d
  | 3 => if m / 16 = 0 then (PFmt.ofCode (m % 16)).map fun p => fun k a b c _ _ => .pmin k p a b c else none
  | 4 => if m / 16 = 0 then (PFmt.ofCode (m % 16)).map fun p => fun k a b c _ _ => .pmax k p a b c else none
  | 8 => cvtOf m f fun d s r k a b c dd _ => .cvt k d s r a b c dd
  | 9 => cvtOf m f fun d s r k a b c dd _ => .cvts k d s r a b c dd
  | 10 =>
    if m / 16 = 0 then
      (Fmt.ofCode (m % 16)).bind fun q => need (q == .e4m3 || q == .e5m2 || q == .lns6) fun k a b _ _ _ => .qscal k q a b
    else none
  | _ => none

/-- Class 0x5 (R116). -/
def row5 (idx m : Nat) : Option Mk :=
  match idx with
  | 0 => need (m == 0) fun k _ b _ _ _ => .part k b
  | 1 => if m / 16 = 0 ∨ m / 16 = 3 then
      (ShflMode.ofCode (m % 16)).map fun o => fun k a b c _ _ => .shfl k (m / 16 == 3) o a b c else none
  | 2 => if m / 16 = 0 then (VoteFn.ofCode (m % 16)).map fun o => fun k a b _ _ _ => .vote k o a b else none
  | 3 => (XTy.ofCode (m / 16)).bind fun t => (XOp.ofCode (m % 16)).bind fun o =>
      need (o.okFor t) fun k a b _ _ _ => .redt k o t a b
  | 4 => (XTy.ofCode (m / 16)).bind fun t => (XOp.ofCode (m % 8)).bind fun o =>
      need (o.okFor t) fun k a b _ _ _ => .scant k (m / 8 % 2 == 1) o t a b
  | 5 => need ((m / 16 == 0 || m / 16 == 3) && decide (m % 16 < 2)) fun k a b _ _ _ => .matchT k (m % 2 == 1) (m / 16 == 3) a b
  | 6 => need (m == 0) fun k _ b _ _ _ => .elect k b.immVal
  | 7 => need (m == 0) fun k _ _ _ _ _ => .elend k
  | _ => none

/-- Class 0x6 (R116). -/
def row6 (idx m : Nat) (f : Fields) : Option Mk :=
  if idx < 7 then
    (LdSize.ofCode idx).bind fun z => (scopeOrdOf m 1).bind fun o =>
      need (m % 2 == 0 || z == .quad) fun k a b c _ _ => .ld k z o (m / 2 % 2 == 1) (m % 2 == 1) a b c
  else if 8 ≤ idx ∧ idx < 13 then
    (StSize.ofCode (idx - 8)).bind fun z => (scopeOrdOf m 2).bind fun o =>
      need (m % 2 == 0 || z == .quad) fun k _ b c d _ => .st k z o (m / 2 % 2 == 1) (m % 2 == 1) b c d
  else if 0x20 ≤ idx ∧ idx < 0x28 then
    (AOp.ofCode (idx - 0x20)).bind fun o => (Scope.ofCode (m / 16)).bind fun s => (Order.ofCode (m / 4 % 4)).bind fun r =>
      let mm := o == .min || o == .max
      need (!mm || decide (f.e.toNat < 2)) fun k a b c d e =>
        .atom k o (m % 2 == 1) (mm && f.e.toNat == 1) s r (m / 2 % 2 == 1) a b c d (if mm then .lane 0 else e)
  else if 0x30 ≤ idx ∧ idx < 0x36 then
    (ROp.ofCode (idx - 0x30)).bind fun o => (Scope.ofCode (m / 16)).bind fun s =>
      let mm := o == .min || o == .max
      need ((m / 4 % 4 == 0 || m / 4 % 4 == 2) && (!mm || decide (f.e.toNat < 2))) fun k _ b c d _ =>
        .red k o (m % 2 == 1) (mm && f.e.toNat == 1) s (m / 4 % 4 == 2) (m / 2 % 2 == 1) b c d
  else
    match idx with
    | 0x10 => need (decide (m < 2) && f.c.extractLsb' 3 6 == 0) fun k a b _ _ _ => .ldp k (m % 2 == 1) (f.c.setWidth 3) a b
    | 0x11 => need (decide (m < 4)) fun k a b c d _ => .ldchain k (m % 2 == 1) (m / 2 % 2 == 1) a b c d
    | 0x12 => need (m == 0 || m == 2) fun k _ b c _ _ => .prf k (m == 2) b c
    | 0x13 => (WCmp.ofCode f.e.toNat).bind fun o => (scopeOrdOf m 1).map fun s => fun k _ b c d _ =>
        .waita k o (m % 2 == 1) s (m / 2 % 2 == 1) b c d
    | 0x14 => (Scope.ofCode (m / 16)).bind fun s => (CctlOp.ofCode (m % 16)).map fun o => fun k _ b c _ _ => .cctl k o s b c
    | 0x15 => need (m == 0) fun k _ _ _ _ _ => .rgn k
    | 0x16 => need (m == 0) fun k _ _ _ _ _ => .rgnc k
    | _ => none

/-- Class 0x7 (R116). -/
def row7 (idx m : Nat) : Option Mk :=
  match idx with
  | 0 => if m % 16 = 0 then (Scope.ofCode (m / 16)).map fun s => fun k _ _ _ _ _ => .fence k s else none
  | 1 => (Scope.ofCode (m / 16)).bind fun s =>
      if s = .blk then none
      else if m % 16 = 0 then some fun k _ b c _ _ => .acqp k s b c
      else if m % 16 = 1 then some fun k _ b c _ _ => .acqpCap k s b c
      else none
  | 2 => need (decide (0 < m) && decide (m < 16)) fun k _ _ _ _ _ => .qfence k (BitVec.ofNat 4 m)
  | 8 => if m < 16 then some fun k _ b _ _ _ => .bar k (BitVec.ofNat 4 m) b
         else if m = 0x60 then some fun k _ _ _ _ _ => .barLaunch k else none
  | 9 => if m < 16 then some fun k _ b _ _ _ => .bara k (BitVec.ofNat 4 m) b
         else if m = 0x60 then some fun k _ _ _ _ _ => .baraLaunch k else none
  | 10 => if m < 16 then some fun k _ _ _ _ _ => .barw k (BitVec.ofNat 4 m)
         else if m = 0x60 then some fun k _ _ _ _ _ => .barwLaunch k else none
  | 11 => need (decide (m < 16)) fun k _ b c _ _ => .mbar k (BitVec.ofNat 4 m) b c
  | 12 => need (decide (m < 16)) fun k _ _ _ _ _ => .mbwait k (BitVec.ofNat 4 m)
  | 13 => need (m == 0) fun k a b _ _ _ => .bcw k a b
  | 16 => need (decide (m < 8)) fun k _ b _ _ _ => .qpush k (BitVec.ofNat 3 m) b
  | 17 => need (decide (m < 8)) fun k a _ _ _ _ => .qpop k (BitVec.ofNat 3 m) a
  | 18 => need (decide (m < 8)) fun k a _ _ _ _ => .qtry k (BitVec.ofNat 3 m) a
  | _ => none

/-- Class 0x8 (R116): the queue in [13:12]. -/
def row8 (idx m : Nat) : Option Mk :=
  if 16 ≤ m then none
  else
    let q := BitVec.ofNat 2 (m / 4)
    match idx, m % 4 with
    | 0, 0 => some fun k _ b c _ _ => .ckick k q b c
    | 1, 0 => some fun k _ b c _ _ => .puts k q b c
    | 2, 0 => some fun k _ b c _ _ => .get k q b c
    | 3, 0 => some fun k _ b c _ _ => .radd k q b c
    | 4, 0 => some fun k _ b c _ _ => .mput k q b c
    | 4, 1 => some fun k _ b c _ _ => .mputRed k q b c
    | 4, 2 => some fun k _ b c _ _ => .mputOrd k q b c
    | 5, 0 => some fun k _ b _ _ _ => .pcoll k q b
    | _, _ => none

/-- Class 0x9 (R300). -/
def row9 (idx m : Nat) (f : Fields) : Option Mk :=
  match idx with
  | 0 => need (m == 0) fun k a b _ _ _ => .mlay k a b
  | 1 => need (m == 0) fun k a b c d _ => .mma k a b c d
  | 2 => need (m == 0) fun k a b _ _ _ => .mzero k a b
  | 3 => if m < 64 then (MFmt.ofCode (m % 16)).map fun q => fun k _ b c d e =>
      .mst k q (m / 16 % 2 == 1) (m / 32 % 2 == 1) b c d e else none
  | 4 => need (m == 0) fun k a b c _ _ => .mld k a b c
  | 5 => (MsclT.ofCode m).map fun t => fun k _ b _ _ _ => .mscl k t b
  | 6 => need (decide (m < 16)) fun k _ _ _ _ _ => .mwait k (BitVec.ofNat 4 m)
  | 7 => need (decide (m < 16)) fun k _ b _ _ _ => .msig k (BitVec.ofNat 4 m) b
  | 8 => need (m == 0) fun k _ b _ _ _ => .mjmp k b.immVal
  | 9 => need (m == 0) fun k a b _ _ _ => .mloop k a b.immVal
  | 10 => if m = 0 then some fun k a b c _ _ => .madd k a b c
          else if m = 1 then some fun k a b _ _ _ => .maddR k a b
          else if m = 2 then some fun k a b _ _ _ => .maddC k a b else none
  | 11 => if m = 0 then some fun k a b _ _ _ => .mmov k a b
          else if m = 1 ∧ f.e.extractLsb' 5 4 = 0 then some fun k a _ _ _ _ => .mmovW k a f.lit32 else none
  | 12 => need (decide (m < 2)) fun k a _ _ _ _ => .mbcnt k (m % 2 == 1) a
  | 13 => need (m == 0) fun k _ _ _ _ _ => .mend k
  | _ => none

/-- Class 0xA (R116). -/
def rowA (idx m : Nat) : Option Mk :=
  match idx with
  | 0 => need (m == 0) fun k a b _ _ _ => .launch k a b
  | 1 => need (m == 0) fun k _ b _ _ _ => .gsig k b
  | 2 => need (decide (m < 2)) fun k a b _ _ _ => .cancel k (m % 2 == 1) a b
  | 3 => need (m == 0) fun k a b _ _ _ => .cntr k a b
  | 4 => if m < 16 then (WCmp.ofCode (m % 8)).map fun o => fun k _ b c _ _ => .waitv k o (m / 8 == 1) b c else none
  | 5 => if m < 32 ∧ m / 4 % 2 = 0 then (SigOp.ofCode (m % 4)).map fun o => fun k _ b c _ _ =>
      .sigv k o (m / 8 % 2 == 1) (m / 16 == 1) b c else none
  | 8 => (TkSel.ofCode m).map fun s => fun k a b _ _ _ => .tkrd k s a b
  | 9 => need (decide (2 ≤ m) && decide (m < 16)) fun k a b _ _ _ => .pint k (BitVec.ofNat 4 m) a b
  | 10 => need (m == 0) fun k _ b c _ _ => .rhint k b c
  | 12 => need (m == 0) fun k a b _ _ _ => .srd k a b
  | 13 => need (m == 0) fun k _ b c _ _ => .swr k b c
  | _ => none

/-- Check 1 of R115: the opcode is assigned, its class runs in the stream, and the modifier value is assigned. The data
bits that stand in operand fields (LOGT, CVT, LDP, WAITA, ATOM, MOVI, MMOV.w) are judged here too: check 2 has the
same fate (R121). -/
def row (st : Stream) (f : Fields) : Option Mk :=
  let op := f.op.toNat
  let m := f.md.toNat
  let idx := op % 64
  if opInStream st op then
    match op / 64 with
    | 0 => row0 idx m
    | 1 => row1 idx m
    | 2 => row2 idx m f
    | 3 => row3 idx m
    | 4 => row4 idx m f
    | 5 => row5 idx m
    | 6 => row6 idx m f
    | 7 => row7 idx m
    | 8 => row8 idx m
    | 9 => row9 idx m f
    | 10 => rowA idx m
    | _ => none
  else none

/-! ### Checks 2 and 3 -/

/-- A field as the stream's operand table reads it; a reserved code names no operand. -/
def slotOf (st : Stream) (f : Fields) (use : Slot) (code : BitVec 9) : Option Slot :=
  match use with
  | .reg s _ => (opndOf st f code).map (.reg s)
  | .blank _ => (opndOf st f code).map .blank
  | u => some u

/-- The code stands for an immediate or a parameter operand (R102). -/
def isPayload (code : BitVec 9) : Bool := code == 0x1FE || code == 0x1FF

/-- Whether field B or C of an operand-carrying form holds an immediate or a parameter operand (R102). -/
def dataInDE (fm : Form) (f : Fields) : Bool :=
  (match fm.b with | .reg _ _ => isPayload f.b | _ => false) ||
  (match fm.c with | .reg _ _ => isPayload f.c | _ => false)

/-- A field that the form leaves unused is 0x000 (R99). -/
def zeroIfUnused (use : Slot) (code : BitVec 9) : Bool :=
  match use with
  | .unused => code == 0
  | .blank _ => code == 0
  | _ => true

/-- A field that names a lane or uniform register read by the instruction (R99). -/
def holdableCode (use : Slot) (code : BitVec 9) : Bool :=
  match use with
  | .reg _ _ => decide (code.toNat < 0x140)
  | _ => false

/-- The guard as it stands in the word. -/
def guardOf (st : Stream) (f : Fields) : Option Guard :=
  (opndOf st { f with d := 0, e := 0 } f.greg).map fun o => ⟨f.comb, o, f.g1, f.g2, f.neg1, f.neg2⟩

/-- Check 2 of R115: the canonical form of R99. -/
def check2 (st : Stream) (fm : Form) (f : Fields) : Bool :=
  let data := dataInDE fm f
  zeroIfUnused fm.a f.a && zeroIfUnused fm.b f.b && zeroIfUnused fm.c f.c &&
  (data || (zeroIfUnused fm.d f.d && zeroIfUnused fm.e f.e)) &&
  (f.comb != 0 || (f.greg == 0 && f.g1 == 0 && f.g2 == 0 && !f.neg1 && !f.neg2)) &&
  (f.comb != 1 || (f.g2 == 0 && !f.neg2)) &&
  (!alwaysOp f.op.toNat || f.comb == 0) &&
  (f.la == 0 || (st != .matrix && longLatOp f.op.toNat)) &&
  (f.hint == 0 || (hintOp st f.op.toNat && decide (f.hint.toNat < 6))) &&
  (!f.holdB || (st != .matrix && holdableCode fm.b f.b)) &&
  (!f.holdC || (st != .matrix && holdableCode fm.c f.c)) &&
  (!f.holdD || (st != .matrix && !data && holdableCode fm.d f.d)) &&
  (!f.yieldBit || st != .matrix)

/-- A lane register, with the registers that follow it in a pair or quad, lies below the wave's count (R68). -/
def Opnd.below (nregs width : Nat) : Opnd → Bool
  | .lane n => decide (n.toNat + width ≤ nregs)
  | _ => true

/-- Whether one field's code is legal, in a wave of nregs lane registers (R68, R100, R102, R120, R299). -/
def fieldOk (nregs : Nat) (st : Stream) (f : Fields) (use : Slot) (code : BitVec 9) : Bool :=
  match use with
  | .reg s _ =>
    match opndOf st f code with
    | some o => s.admits o && o.inStream st && o.below nregs s.width
    | none => false
  | _ => true

/-- Check 3 of R115: operand and guard codes and register limits; the detail is the lowest field that fails (log 6). -/
def check3 (nregs : Nat) (st : Stream) (fm : Form) (f : Fields) : Option (BitVec 8) :=
  let data := dataInDE fm f
  if !fieldOk nregs st f fm.a f.a then some 0
  else if !fieldOk nregs st f fm.b f.b then some 1
  else if !fieldOk nregs st f fm.c f.c || (isPayload f.b && isPayload f.c && data) then some 2
  else if !data && !fieldOk nregs st f fm.d f.d then some 3
  else if !data && !fieldOk nregs st f fm.e f.e then some 4
  else if f.comb == 0 then none
  else
    match guardOf st f with
    | some g => if g.regOk st && g.greg.below nregs 1 then none else some 5
    | none => some 5

/-- The scheduling controls of a word. -/
def ctlOf (st : Stream) (f : Fields) : Ctl :=
  { guard := (guardOf st f).getD (Guard.always st), yieldBit := f.yieldBit, holdB := f.holdB, holdC := f.holdC
    holdD := f.holdD, hint := f.hint, la := f.la }

/-- The operand in a field, code 0 where a field holds data or names none. -/
def opndAt (st : Stream) (f : Fields) (use : Slot) (code : BitVec 9) : Opnd :=
  match use with
  | .reg _ _ => (opndOf st f code).getD st.code0
  | _ => st.code0

/-- Decode checks 1 to 3 of R115 in their order, on the fields of a word, in a wave of nregs lane registers. -/
def decodeFields (nregs : Nat) (st : Stream) (f : Fields) : Except DecodeTrap Instr :=
  match row st f with
  | none => .error .illegalInstr
  | some mk =>
    let z := st.code0
    let plain := mk (Ctl.plain st) z z z z z
    match plain.form with
    | none => .error .illegalInstr
    | some fm =>
      if plain.modOk && check2 st fm f then
        match check3 nregs st fm f with
        | some d => .error (.illegalOperand d)
        | none =>
          .ok (mk (ctlOf st f) (opndAt st f fm.a f.a) (opndAt st f fm.b f.b) (opndAt st f fm.c f.c)
            (opndAt st f fm.d f.d) (opndAt st f fm.e f.e))
      else .error .illegalInstr

/-- The decoder: total on every word of every stream; the lane registers of a wave are limited to nregs (R68). -/
def decodeIn (nregs : Nat) (st : Stream) (w : IWord) : Except DecodeTrap Instr := decodeFields nregs st (Fields.ofWord w)

/-- The decoder of a stream with all 256 lane registers, or with none. -/
def decode (st : Stream) (w : IWord) : Except DecodeTrap Instr := decodeIn 256 st w

/-! ### The encoder -/

/-- The code in a field. -/
def Slot.code : Slot → BitVec 9
  | .unused => 0
  | .raw v => v
  | .blank o => o.code
  | .reg _ o => o.code

/-- The data bits that an immediate or parameter operand of B or C puts into D and E (R104, R107). -/
def Form.data (fm : Form) : Option (BitVec 18) :=
  match fm.b, fm.c with
  | .reg _ o, c => o.payload.or (match c with | .reg _ p => p.payload | _ => none)
  | _, .reg _ p => p.payload
  | _, _ => none

/-- The fields of a form. -/
def Form.fields (fm : Form) : Fields :=
  { yieldBit := fm.k.yieldBit, holdD := fm.k.holdD, holdC := fm.k.holdC, holdB := fm.k.holdB
    hint := fm.k.hint, la := fm.k.la
    e := match fm.data with | some v => v.extractLsb' 9 9 | none => fm.e.code
    d := match fm.data with | some v => v.extractLsb' 0 9 | none => fm.d.code
    c := fm.c.code, b := fm.b.code, a := fm.a.code
    neg2 := fm.k.guard.neg2, neg1 := fm.k.guard.neg1, comb := fm.k.guard.comb
    g2 := fm.k.guard.g2, g1 := fm.k.guard.g1, greg := fm.k.guard.greg.code
    md := BitVec.ofNat 7 fm.md, op := BitVec.ofNat 10 fm.op }

/-- The word of an instruction; none for an event. -/
def encode (i : Instr) : Option IWord := i.form.map fun fm => fm.fields.toWord

/-! ### The host's reading of an opcode-table word -/

/-- The stream that executes an opcode: class 0x9 the matrix sequencer, WAITV and SIGV the command processor, every
other class a wave (R120). -/
def streamOf (w : IWord) : Stream :=
  let op := (Fields.ofWord w).op.toNat
  if op / 64 = 9 then .matrix else if op = 0x284 ∨ op = 0x285 then .control else .wave

/-- What the decoder reads from an instruction whose bits are w; every instruction is one 96-bit word (R98). -/
def decodeTableWord (nbits w : Nat) : Option Instr :=
  let x : IWord := BitVec.ofNat 96 (w % 2 ^ nbits)
  match decode (streamOf x) x with
  | .ok i => some i
  | .error _ => none

end Sys2Proof
end

