-- ==== Sys2Proof/Machine/Issue.lean ====
section
/-! DEFINITION. What happens in an always-on clock, and how an agent comes to issue an instruction: the choice of a wave in each
partition, fetch, decode, claims, pairs, the command processor's turn, and the events that the machine brings about by itself
(spec/02_execution.md R35, R49 to R52; spec/04_encoding.md R93 to R97, R115; spec/05_opcode_map.md R121; spec/08_tokens.md
R162, R170; spec/15_scheduling.md R322; log 2). -/

namespace Sys2Proof.Machine

/-! ### Fetch and decode of a wave's instruction -/

/-- What a fetch and its decode come to: the instruction, its line, and the state with the line cached; or the state after a
trap, a hold, or the start of a refetch. -/
inductive Fetched where
  | instr (s : State) (l : FetchLine) (i : Instr)
  | none (s : State)

/-- The block's entry line has been fetched (R93). -/
def State.markEntered (s : State) (b : Nat) : State := s.onBlock b fun x => { x with entered := true }

/-- A fetch whose translation fails holds the run at the slot, unpaid (R97). -/
def State.holdFetch (s : State) (b i : Nat) (lanes : LaneSet) (ctx va : Nat) (x : XFault) : State :=
  let s1 := s.enterFault (s.localFault (dieOf (coreOf b)) ctx va 3 x) (some (.wave b i))
  s1.onWave b i fun w =>
    { w with held := w.held ++ [{ lanes, ctx, granule := granuleOf va, remote := false, abortWait := false }] }

/-- Some lanes of a run wait for a fetch line of another package (R97, R209). -/
def State.awaitLine (s : State) (b i : Nat) (lanes : LaneSet) (ctx pc : Nat) : State :=
  (s.askLine (coreOf b) ctx b i ((lowLane lanes).getD 0) pc).onWave b i fun w =>
    w.mapLanes fun j l => if lanes.getLsbD j then { l with st := .blocked (.line (lineAt (pc % 2 ^ 57))) } else l

/-- The next instruction of some lanes of a wave: the checks of R94 and checks 1 to 3 of R115 (R115, R121), with the price
already paid, which a trap returns (R166). The target bit is checked of a block's entry, and of an implicit entry whose line
could not be read before (R93). -/
def State.fetchWave (s : State) (b i : Nat) (blk : Block) (w : Wave) (lanes : LaneSet) (price : Nat) : Fetched :=
  let core := coreOf b
  let pc := (w.lane ((lowLane lanes).getD 0)).pc
  let late := (lanesOf lanes).any fun j => (w.lane j).check
  match if blk.entered then s.fetch core blk.ctx pc.toNat late else s.transfer core blk.ctx pc.toNat with
  | .held x => .none ((s.refund core price).holdFetch b i lanes blk.ctx pc.toNat x)
  | .away => .none ((s.refund core price).awaitLine b i lanes blk.ctx pc.toNat)
  | .refetch sa => .none ((s.refund core price).startRefetch core blk.ctx pc.toNat sa)
  | .trap kind detail => .none (((s.dropBad core pc.toNat).markEntered b).takeTrap b i lanes kind detail price)
  | .ok sa l =>
    let s0 := (s.markEntered b).keepLine core sa l
    let s1 := if late then
        s0.onWave b i fun w => w.mapLanes fun j x => if lanes.getLsbD j then { x with check := false } else x
      else s0
    match decodeIn blk.regs .wave (slotWord l (slotOfPc pc.toNat)) with
    | .error .illegalInstr => .none (s1.takeTrap b i lanes 0x01 0 price)
    | .error (.illegalOperand d) => .none (s1.takeTrap b i lanes 0x02 d.toNat price)
    | .ok ins => .instr s1 l ins

/-! ### Pairs (R50) -/

/-- The pipe of an opcode (R50): 0 vector, 1 special function, 2 cross-lane, 3 memory, 4 control. -/
def pipeOf (op : Nat) : Nat :=
  match op / 64 with
  | 1 => 0
  | 2 => if op = 0x08D then 1 else 0
  | 3 => if 0x0D0 ≤ op then 1 else 0
  | 4 => 0
  | 5 => 2
  | 6 => 3
  | 8 => 3
  | _ => 4

/-- The price cells of the instruction in the next slot, if R50 lets it issue with the one at pc. -/
def pairCells (blk : Block) (w : Wave) (lanes : LaneSet) (pc : Pc) (l : FetchLine) (first : Instr) : Option (List (Nat × Nat)) :=
  let k := slotOfPc pc.toNat
  let next := succPc pc
  match first.form, decodeIn blk.regs .wave (slotWord l (k + 1)) with
  | some f, .ok ins =>
    match ins.form with
    | none => none
    | some g =>
      let otherRun := laneIds.any fun j => !lanes.getLsbD j && (w.lane j).isLive && (w.lane j).pc == next
      let window := w.pend.any fun p => p.left.any fun x => lanes.getLsbD x.1 && decide (x.2 ≤ 1)
      if k < 4 && pairBit l k && f.op / 64 != 0 && f.op / 64 != 7 && !f.k.yieldBit && pipeOf f.op != pipeOf g.op && !otherRun &&
        !window && (!longLatOp f.op || f.k.la != 0) then some (cellOf ins) else none
  | _, _ => none

/-! ### The turn of a wave -/

/-- Every lane of a set has paid for the instruction at its slot. -/
def Wave.allPaid (w : Wave) (lanes : LaneSet) : Bool := (lanesOf lanes).all fun j => (w.lane j).paid

/-- A wave issues an instruction: rotation and waiting times are counted, and the instruction is in hand (R35, R38, R49). A
sweep that is due begins after the instruction, and after its pair's second. -/
def State.beginIssue (s : State) (b i : Nat) (lanes : LaneSet) (price : Nat) (pairs : Bool) (ins : Instr) : State :=
  match s.block? b with
  | none => s
  | some blk => match blk.wave? i with
    | none => s
    | some w =>
      let w1 := { w.settled.counted lanes with offered := 0 }
      let s1 := s.setBlock b (blk.setWave i w1)
      { s1 with
        issue := some { agent := .wave b i, active := lanes, price, yields := yieldsOf ins }
        issuedParts := sins s1.issuedParts (coreOf b * 4 + blk.partOf i)
        agenda := if w1.sweepDue && !pairs then .ev (.rotationSweep b i) :: s1.agenda else s1.agenda }

/-- A claim is made (R162), one for each claimant. -/
def State.claim (s : State) (core : Nat) (c : Claim) : State :=
  let x := s.core core
  if !c.free && x.claims.any fun y => y.claimant == c.claimant then s else s.setCore core { x with claims := x.claims ++ [c] }

/-- The turn of the wave that a partition has chosen: its instruction is fetched and decoded; it issues again where it is paid for,
or claims its price, or that of a pair. -/
def State.waveTurn (s : State) (b i : Nat) : State × Option Instr :=
  match s.block? b with
  | none => (s, none)
  | some blk => match blk.wave? i with
    | none => (s, none)
    | some w0 =>
      let w := w0.settled
      match if blk.runs then w.selected else none with
      | none => (s, none)
      | some lanes => match s.fetchWave b i blk w lanes 0 with
        | .none s1 => (s1, none)
        | .instr s1 l ins =>
          let core := coreOf b
          if w.mustFollow lanes ins then (s1.onWave b i fun w => w.follow lanes, none)
          else if w.allPaid lanes then
            (s1.claim core { claimant := blk.partOf i, agent := some (.wave b i), lanes, cells := [cellOf ins], free := true }, none)
          else
            let pc := (w.lane ((lowLane lanes).getD 0)).pc
            (s1.claim core { claimant := blk.partOf i, agent := some (.wave b i), lanes
                             cells := cellOf ins :: (pairCells blk w lanes pc l ins).toList }, none)

/-- A wave's paid turn: the instruction issues in the lanes of its claim; where they no longer stand, the price is returned. -/
def State.wavePaid (s : State) (b i : Nat) (lanes : LaneSet) (base : Nat) : State × Option Instr :=
  let price := s.priceOn (coreOf b) base
  match s.block? b with
  | none => (s.refund (coreOf b) price, none)
  | some blk => match blk.wave? i with
    | none => (s.refund (coreOf b) price, none)
    | some w =>
      if !s.waveClaimStands b i lanes then (s.refund (coreOf b) price, none)
      else match s.fetchWave b i blk w.settled lanes price with
        | .none s1 => (s1.onWave b i fun w => w.mapLanes fun j l => if lanes.getLsbD j then { l with paid := false } else l, none)
        | .instr s1 _ ins =>
          if w.mustFollow lanes ins then ((s1.refund (coreOf b) price).onWave b i fun w => w.follow lanes, none)
          else (s1.beginIssue b i lanes price (pairFollows b i s1.agenda) ins, some ins)

/-- Lanes of a pair that stand at its second slot. -/
def Wave.atPc (w : Wave) (lanes : LaneSet) (pc : Pc) : LaneSet :=
  lanesWhere fun j => lanes.getLsbD j && (w.lane j).isLive && (w.lane j).pc == pc && !w.heldLanes.getLsbD j && !w.windowShut j

/-- The second instruction of a pair (R50, R51): it issues in the lanes that the first has brought to it; with none, its price
is returned. -/
def State.waveSecond (s : State) (b i : Nat) (lanes : LaneSet) (pc : Pc) (base : Nat) : State × Option Instr :=
  let m := ((s.wave? b i).map fun w => w.atPc lanes pc).getD 0
  if m = 0 then
    let s1 := s.refund (coreOf b) (s.priceOn (coreOf b) base)
    match s1.wave? b i with
    | some w => (if w.sweepDue then s1.act (.rotationSweep b i) else s1, none)
    | none => (s1, none)
  else s.wavePaid b i m base

/-! ### The turn of a sequencer (R93, R121, R162, R314, R315) -/

/-- The next instruction of a sequencer, or the state after a fault or a hold. -/
def State.fetchSeq (s : State) (b : Nat) (blk : Block) : Fetched :=
  let core := coreOf b
  let pc := blk.seq.pc.toNat
  match if blk.seq.entered then s.fetch core blk.ctx pc false else s.transfer core blk.ctx pc with
  | .held x =>
    let s1 := s.enterFault (s.localFault (dieOf core) blk.ctx pc 3 x) (some (.seq b))
    .none (s1.onSeq b fun q => { q with st := .heldAt [granuleOf pc] })
  | .refetch sa => .none (s.startRefetch core blk.ctx pc sa)
  | .away => .none ((s.askLine core blk.ctx b 0 0 pc).onSeq b fun q => { q with st := .filling [peerFetchKey pc] })
  | .trap kind _ => .none (s.seqFault b (if kind = 0x0D then 8 else 1))
  | .ok sa l =>
    match decode .matrix (slotWord l (slotOfPc pc)) with
    | .error _ => .none (s.seqFault b 1)
    | .ok ins => .instr ((s.keepLine core sa l).onSeq b fun q => { q with entered := true }) l ins

/-- A sequencer's instruction is in hand. -/
def State.beginSeq (s : State) (b price : Nat) : State := { s with issue := some { agent := .seq b, active := 0, price } }

/-- The price cells of an array cycle of an MMA (R162): those of its formats, of which the dearer counts. -/
def MmaRun.cells (r : MmaRun) : List (Nat × Nat) := [(9, fwA r.fw), (9, fwB r.fw)]

/-- An MMA whose guard is true claims nothing to issue: its array cycles are its price (R126, R162). -/
def Seq.issuesFree (q : Seq) (i : Instr) : Bool :=
  match i with
  | .mma k _ _ _ _ => q.guardOn k.guard
  | _ => false

/-- The turn of a block's sequencer: it issues or claims its next instruction; while the array serves its MMA, it claims the
next array cycle, once the operands can be read. -/
def State.seqTurn (s : State) (b : Nat) : State × Option Instr :=
  match s.block? b with
  | none => (s, none)
  | some blk =>
    let core := coreOf b
    match blk.seq.mma with
    | some r =>
      if blk.runs && blk.seq.st == .mma && (s.core core).array == some b then
        if blk.seq.paid then (s.act (.arrayCycle core), none)
        else match s.mmaWait b blk r with
          | some s1 => (s1.onSeq b fun q => { q with paid := false }, none)
          | none => (s.claim core { claimant := 4, agent := some (.seq b), lanes := 0, cells := [r.cells] }, none)
      else (s, none)
    | none =>
      if !s.seqReady b blk then (s, none)
      else match s.fetchSeq b blk with
        | .none s1 => (s1, none)
        | .instr s1 _ ins =>
          if blk.seq.issuesFree ins then (s1.beginSeq b 0, some ins)
          else (s1.claim core
            { claimant := 4, agent := some (.seq b), lanes := 0, cells := [cellOf ins], free := blk.seq.paid }, none)

/-- A sequencer's paid turn. -/
def State.seqPaid (s : State) (b base : Nat) : State × Option Instr :=
  let price := s.priceOn (coreOf b) base
  match s.block? b with
  | none => (s.refund (coreOf b) price, none)
  | some blk =>
    if !s.seqReady b blk then (s.refund (coreOf b) price, none)
    else match s.fetchSeq (b := b) (blk := blk) with
      | .none s1 => (s1.refund (coreOf b) price, none)
      | .instr s1 _ ins => (s1.beginSeq b price, some ins)

/-! ### The turn of the command processor (R121, R322 to R324) -/

/-- Whether a stream is ready: what it waits for has come. -/
def State.cpReady (s : State) (h : Hwq) : Bool :=
  h.cur.isSome && !h.stalled && match h.wait with
  | .no => true
  | .slot => s.freeLaunch.isSome
  | .done => !(h.cmds.any fun c => some c.seq == h.cur && c.live != 0)
  | .order => s.invalWait.isEmpty
  | _ => false

/-- The queue whose stream issues (R322): the highest priority, then the rotation from the queue after the last. -/
def State.cpChoice (s : State) : Option Nat :=
  let ready := s.hwqs.filter fun h => s.cpReady h.2
  let turn (q : Nat) : Nat := (q + 256 - s.cpRotor) % 256
  (ready.foldl (fun best x => match best with
    | none => some x
    | some y => if y.2.prio < x.2.prio ∨ (x.2.prio = y.2.prio ∧ turn x.1 < turn y.1) then some x else some y) none).map (·.1)

/-- The line of a control stream: the checks of R94 raise CP fault 4; a line of another package CP fault 6 (log 14). -/
def State.cpLine (s : State) (q : Nat) (h : Hwq) : State ⊕ FetchLine :=
  let pc := h.pc.toNat
  if !s.isLocal pc then .inl (s.cpFault q 6)
  else match s.translate h.ctxNo (lineAt pc) .exec with
    | .error x =>
      let s1 := s.enterFault (s.localFault ioTable h.ctxNo pc 7 x) (some (.cp q))
      .inl (s1.setHwq q { s1.hwq q with wait := .held (granuleOf pc) })
    | .ok leaf =>
      if s.accessWaits leaf.sa then .inl (s.setHwq q { h with wait := .home })
      else match s.readHome leaf.sa 64 with
      | none => .inl (s.cpFault q 4)
      | some bytes =>
        let l := lineOfBytes bytes
        if lineIllegal l || (parityBad l).isSome || (h.first && !targetBit l (slotOfPc pc)) then .inl (s.cpFault q 4) else .inr l

/-- The turn of a control stream: one instruction (R322). -/
def State.cpTurn (s : State) (q : Nat) : State × Option Instr :=
  let h := s.hwq q
  if !s.cpReady h then (s, none)
  else match s.cpLine q h with
    | .inl s1 => (s1, none)
    | .inr l => match decode .control (slotWord l (slotOfPc h.pc.toNat)) with
      | .error .illegalInstr => (s.cpFault q 2, none)
      | .error (.illegalOperand _) => (s.cpFault q 3, none)
      | .ok ins =>
        ({ s.setHwq q { h with wait := .no } with
            issue := some { agent := .cp q, active := 1, price := 0 }, cpRotor := (q + 1) % 256 }, some ins)

/-! ### One turn of the agenda -/

/-- The next turn: the state in which its instruction or event is performed, and that instruction; or the state alone where
nothing issues. The instruction in hand is the turn's. -/
def State.turn (s : State) : Turn → State × Option Instr
  | .ev i => (s, some i)
  | .agent (.wave b i) => if s.coreRuns (coreOf b) then s.waveTurn b i else (s, none)
  | .agent (.seq b) => if s.coreRuns (coreOf b) then s.seqTurn b else (s, none)
  | .agent (.cp q) => s.cpTurn q
  | .issue (.wave b i) lanes base => s.wavePaid b i lanes base
  | .issue (.seq b) _ base => s.seqPaid b base
  | .issue (.cp q) _ _ => s.cpTurn q
  | .second (.wave b i) lanes pc base => s.waveSecond b i lanes pc base
  | .second _ _ _ _ => (s, none)

/-! ### The choice of a wave (R49, R52) -/

/-- A wave that offers a ready run: its block and index, the block, the wave. -/
structure Offer where
  blk : Nat
  wave : Nat
  prio : Nat
  age : Nat
  offered : Nat
  yielded : Bool

/-- The waves of a core that offer a ready run, by partition. -/
def State.offersOf (s : State) (core : Nat) : List (Nat × Offer) :=
  (s.blocksOn core).flatMap fun p => (mapIdxed p.2.waves).filterMap fun x =>
    if p.2.runs && x.2.settled.selected.isSome then
      some (p.2.partOf x.1, { blk := p.1, wave := x.1, prio := p.2.prio, age := p.2.age, offered := x.2.offered, yielded := x.2.yielded })
    else none

/-- The first of a list under an order. -/
def firstBy {α : Type} (before : α → α → Bool) : List α → Option α
  | [] => none
  | x :: t => some (t.foldl (fun a y => if before y a then y else a) x)

/-- The wave that a partition chooses (R49): a yielded wave only if no other offers (R52). -/
def chooseOffer (l : List Offer) : Option Offer :=
  let fresh := l.filter fun x => !x.yielded
  let l := if fresh.isEmpty then l else fresh
  let longest (a b : Offer) : Bool := decide (b.offered < a.offered)
  let old := l.filter fun x => decide (4096 ≤ x.offered)
  if !old.isEmpty then firstBy longest old
  else
    let top := l.foldl (fun m x => max m x.prio) 0
    let best := l.filter fun x => x.prio == top
    let waiting := best.filter fun x => decide (256 ≤ x.offered)
    if !waiting.isEmpty then firstBy longest waiting
    else firstBy (fun a b => decide (a.age < b.age) || (a.age == b.age && decide (a.wave < b.wave))) best

/-- The turns of a core in a clock: each partition without a claim, then the sequencers in rotation (R162). -/
def State.coreTurns (s : State) (core : Nat) : List Turn :=
  if !s.coreRuns core then []
  else
    let offers := s.offersOf core
    let busy (k : Nat) : Bool := (s.core core).claims.any fun c => c.claimant == k
    let waves := (upFrom 0 4).filterMap fun k =>
      if busy k then none
      else (chooseOffer ((offers.filter fun x => x.1 == k).map (·.2))).map fun x => Turn.agent (.wave x.blk x.wave)
    let seqs := ((s.blocksOn core).filter fun p => s.seqReady p.1 p.2 || p.2.seq.mma.isSome).map fun p => Turn.agent (.seq p.1)
    let k := if seqs.isEmpty then 0 else (s.die (dieOf core)).clocks % seqs.length
    waves ++ (if busy 4 then [] else seqs.drop k ++ seqs.take k)

/-! ### What each partition did (R170, R176, R514) -/

/-- A lane waits for memory: for chain trackers, a fetch line, or a word. -/
def Lane.onMemory (l : Lane) : Bool :=
  match l.st with
  | .blocked .reply => true
  | .blocked (.line _) => true
  | _ => false

/-- A lane of the wave waits on a long-latency result, or on an access that a translation fault holds (R170, log 66). -/
def Wave.awaitsResult (w : Wave) : Bool :=
  !w.held.isEmpty || laneIds.any fun j => ((w.lane j).isLive && w.windowShut j) || (w.lane j).onMemory

/-- The class of a partition of a core in the clock that ends: 1 memory, 2 token, 3 barrier, 0 any other (R170). -/
def State.partClass (s : State) (core k : Nat) : Nat :=
  let waves := (s.blocksOn core).flatMap fun p => (mapIdxed p.2.waves).filterMap fun x =>
    if p.2.partOf x.1 = k ∧ !x.2.lanes.all Lane.isExited then some x.2 else none
  if s.issuedParts.contains (core * 4 + k) then 0
  else if (s.core core).claims.any fun c => c.claimant == k then 2
  else if waves.any Wave.awaitsResult then 1
  else if !waves.isEmpty && waves.all (fun w => !w.lanes.any Lane.isLive) then 3
  else 0

/-- The cores on which a block is resident. -/
def State.busyCores (s : State) : List Nat := s.blocks.foldl (fun l p => sins l (coreOf p.1)) []

/-- The clock that ends is counted for every die whose clock is not stopped (R170, R514). -/
def State.classify (s : State) : State :=
  let classes := s.busyCores.flatMap fun c => (upFrom 0 4).map fun k => (dieOf c, s.partClass c k)
  let count (d n : Nat) : Nat := (classes.filter fun x => x.1 == d && x.2 == n).length
  { s with
    issuedParts := []
    dies := mapIdx (fun d x => if x.stopped then x else { x with
      clocks := if x.inReset then 0 else x.clocks + 1, cntClocks := x.cntClocks + 1, cntMemory := x.cntMemory + count d 1, cntToken := x.cntToken + count d 2
      cntBarrier := x.cntBarrier + count d 3 }) 0 s.dies }

/-! ### The always-on count (R183, R354) -/

/-- One clock: the count advances by one, and once in 1,000 clocks by two or not at all while it slews, en being set. -/
def State.tickClock (s : State) : State :=
  let p := s.pkg
  if !p.timeEn || p.slew == 0 then { s with clk := s.clk + 1, pkg := { p with slewPhase := 0 } }
  else if p.slewPhase < 999 then { s with clk := s.clk + 1, pkg := { p with slewPhase := p.slewPhase + 1 } }
  else if 0 < p.slew then { s with clk := s.clk + 2, pkg := { p with slewPhase := 0, slew := p.slew - 1 } }
  else { s with pkg := { p with slewPhase := 0, slew := p.slew + 1 } }

/-- While en is set a time message leaves for ref every 1 ms; none leaves for the package itself. -/
def State.serveTime (s : State) : State :=
  let p := s.pkg
  if !p.timeEn || p.timeRef == s.pkgNo then s
  else if p.timeSince + 1 < clocksOfUs 1000 then { s with pkg := { p with timeSince := p.timeSince + 1 } }
  else { s with pkg := { p with timeSince := 0 } }.send (.time p.timeRef s.clk)

/-- Whether a multiple of n lies after clock a and not after clock b. -/
def crosses (n a b : Nat) : Bool := decide (a / n < b / n)

/-- The refill ticks due by a clock, by number (R167). -/
def ticksDue (clk : Nat) : Nat → Nat → List Nat
  | 0, _ => []
  | f + 1, n => if 5 * n / 4 ≤ clk then n :: ticksDue clk f (n + 1) else []

/-- Events that the count itself brings: refill ticks, interval starts and decision instants (R183, R195), the leak of the
retrain buckets (R352). A tick that falls at or after the start of an interval comes after it (R183). -/
def State.clockEvents (s : State) (before : Nat) : List Turn :=
  let ticks := ticksDue s.now 4 s.tick
  let old := if crosses 12500 before s.now then ticks.filter fun n => decide (5 * n / 4 < s.now / 12500 * 12500) else ticks
  old.map (fun _ => .ev .refillTick) ++
  (if crosses 12500 before s.now then [.ev .governorInterval] else []) ++
  (ticks.drop old.length).map (fun _ => .ev .refillTick) ++
  (if crosses 12500 (before + 6250) (s.now + 6250) then [.ev .ecoloDecision] else []) ++
  (if crosses (1125 * 10 ^ 9) before s.now then [.ev .retrainBucketLeak] else [])

/-! ### Events that a state brings about -/

/-- A lane's wait is for a count, room, a queue or a launch slot. -/
def Lane.awaitsEvent (l : Lane) : Bool :=
  match l.st with
  | .blocked (.bcw _) => true
  | .blocked (.room _ _) => true
  | .blocked (.queue _ _ _ _ _ _) => true
  | .blocked .launchSlot => true
  | _ => false

/-- A lane waits for earlier writes; for a promotion. -/
def Lane.awaitsOrder (l : Lane) : Bool := match l.st with | .blocked (.order _) => true | _ => false
def Lane.awaitsAcqp (l : Lane) : Bool := match l.st with | .blocked (.acqp _) => true | _ => false

/-- The events of one lane: its deadline has come; it reads its word of this package again (R326, R504, R511). -/
def State.laneEvents (s : State) (b i : Nat) (blk : Block) (x : Nat × Lane) : List Turn :=
  match x.2.st with
  | .blocked (.sleep t) => if t.toNat ≤ s.now then [.ev (.sleepWake b i x.1)] else []
  | .blocked (.waita w) =>
    let here := match s.steer blk i x.1 (w.ea.toNat : Int) (4 * regs64 w.w64) with
      | .spad _ _ => true
      | .stack va _ => s.isLocal va
      | .global va => s.isLocal va
    if here then [.ev (.waitaReread b i x.1 none)] else []
  | _ => []

/-- The events of one wave. -/
def State.waveEvents (s : State) (b : Nat) (blk : Block) (x : Nat × Wave) : List Turn :=
  let i := x.1
  let w := x.2
  (w.pend.filterMap fun p =>
    if p.ready && p.left.any (fun y => y.2 == 0) then some (Turn.ev (.lookaheadResultWrite b i p.id [] none)) else none) ++
  (if w.lanes.any Lane.awaitsEvent then [.ev (.waitResume b i)] else []) ++
  (if w.lanes.any Lane.awaitsOrder || !w.commit.isEmpty || (i == 0 && blk.seq.st == .draining) then [.ev (.accessPerformed b i)] else []) ++
  (mapIdxed w.lanes).flatMap (s.laneEvents b i blk) ++
  (if w.lanes.any Lane.awaitsAcqp && w.acks.isEmpty && !s.promoOut b i then [.ev (.acqpComplete b ⟨i, none⟩)] else []) ++
  (if w.held.any (fun h => s.stray b h.ctx h.granule h.remote) || w.pend.any (w.canPerform) ||
      (i == 0 && match blk.seq.st with | .heldAt gs => gs.any fun g => s.stray b blk.ctx g (!s.ownGranule g) | _ => false)
    then [.ev (.translationRetry b i)] else [])

/-- The events of one core besides its claims. -/
def State.coreEvents (s : State) (core : Nat) : List Turn :=
  let c := s.core core
  (if c.promos.isEmpty then [] else [.ev (.promote core none)]) ++
  (if c.log.any fun e => e.old c.writeGen then [.ev (.promoLogAgeEvict core)] else []) ++
  (if s.dirty.any fun d => d.core == core && d.old s.clk then [.ev (.lineWritebackDeadline core)] else []) ++
  (if c.array.isNone && !(s.arrayWaiters core).isEmpty then [.ev (.arraySelect core)] else []) ++
  ((upFrom 0 4).filterMap fun q => match s.head? core q with
    | some e => if e.held.any fun g => s.strayAt (dieOf core) e.ctx g then some (Turn.ev (.translationRetry (core * 16) (64 + q))) else none
    | none => none) ++
  (if c.fenceDue.isSome then [.ev (.qfenceRelease core)] else [])

/-- What the request engine of a core does before any wave in a clock (R293): its queues' heads go on, filling slots, then op 1
requests take slots. -/
def State.engineEvents (s : State) (core : Nat) : List Turn :=
  ((upFrom 0 4).filterMap fun q => match s.head? core q with
    | some e => if e.isFence then none else some (Turn.ev (.reLine core q none))
    | none => none) ++
  ((upFrom 0 4).filterMap fun q => match s.head? core q with
    | some e => if e.toQueue && e.slot.isNone then some (Turn.ev (.queueSlotTake core q)) else none
    | none => none)

/-- The events of one hardware queue. -/
def State.hwqEvents (s : State) (q : Nat) (h : Hwq) : List Turn :=
  (if s.canAccept q then [.ev (.commandAccept q)] else []) ++
  (if h.nextCmd.isSome then [.ev (.controlStreamStart q)] else []) ++
  (if h.ripe.isSome && h.ringWait.isNone && !h.ringDead then [.ev (.commandComplete q)] else []) ++
  (if h.heldGranules.any fun g => s.strayAt ioTable h.ctxNo g then [.ev (.translationRetry 0 (128 + q))] else []) ++
  (match h.wait with
    | .test w => if s.isLocal w.ea.toNat then [.ev (.waitvReread q none)] else []
    | _ => [])

/-- The events of the scheduler: dispatch, one placement, pre-emptions (R335 to R340). -/
def State.scheduleEvents (s : State) : List Turn :=
  (s.launches.filterMap fun l => if l.2.alive && !l.2.dispatched then some (Turn.ev (.launchDispatch l.1)) else none) ++
  (match s.restorable, s.placeable with
    | some k, _ => [.ev (.blockRestore k)]
    | none, some l => [.ev (.blockPlace l)]
    | none, none => []) ++
  ((distinct (s.saving.map (· / 8))).filterMap fun c =>
    (s.saving.find? fun k => k / 8 == c).map fun k => Turn.ev (.preempt c (k % 8))) ++
  (dieIds.filterMap fun d => match s.occupant d with
    | some c =>
      if s.saving.contains (c * 8 + d) then none
      else if s.outranked c d then some (Turn.ev (.preempt c d))
      else if s.quantumOver c d then some (Turn.ev (.quantumExpiry c d))
      else none
    | none => none)

/-- Cores that have blocks, claims, engine entries or anything else of their own. -/
def State.liveCores (s : State) : List Nat := s.cores.foldl (fun l c => sins l c.1) s.busyCores

/-- The events that a state brings about by itself, in the order in which they are performed. -/
def State.ownEvents (s : State) : List Turn :=
  (if s.faultWait.isEmpty || s.ringFull then [] else [.ev .faultRecordEmit]) ++
  (s.blocks.flatMap fun p => (mapIdxed p.2.waves).flatMap (s.waveEvents p.1 p.2)) ++
  s.liveCores.flatMap s.coreEvents ++
  (s.hwqs.flatMap fun h => s.hwqEvents h.1 h.2) ++
  s.scheduleEvents

/-! ### A clock begins -/

/-- A node in state 2 waits for a slot or for its launch record (R329). -/
def State.nodeWaits (s : State) : Bool :=
  s.nodes.any fun p => p.2.st == 2 && !(s.launches.any fun l => l.2.alive && l.2.node == some p.1)

/-- What the machine does at the start of a clock besides events: a new image is ready (R389), queues without a header read it
(R320) and write again one that a stack's reset took (R342), entries of retired blocks return to a die that no context runs
(R340), a time message leaves (R354), packets leave (R346), nodes that wait start (R329). -/
def State.upkeep (s : State) : State :=
  let s1 := s.hwqs.foldl (fun s h => (if (s.hwq h.1).rewrite then s.rewriteHeader h.1 else s).wantHeader h.1)
    { s.bootReady with nodeSignals := [] }.unparkIdle.serveTime.serveEgress
  if s1.nodeWaits then s1.startNodes else s1

/-- Waves that offer a run have waited one clock more, and a turn that was yielded is over (R49, R52). -/
def State.countOffers (s : State) : State :=
  s.onBlocks fun b x =>
    if s.coreRuns (coreOf b) && x.runs then
      { x with waves := x.waves.map fun w =>
          { w with offered := if w.settled.selected.isSome then min 65536 (w.offered + 1) else 0, yielded := false } }
    else x

/-- A core has work for its token service: claims, turns or engine entries. -/
def State.wantsService (s : State) (core : Nat) : Bool :=
  let c := s.core core
  !c.claims.isEmpty || c.reservation.isSome || (upFrom 0 4).any (fun q => (s.head? core q).isSome) || !(s.coreTurns core).isEmpty

/-- A block in a new clock: the flags set in the last may be cleared from here on (R81), its queues may serve again, and lanes that
wait for that try again (R293). -/
def Block.newClock (b : Block) : Block :=
  { b with
    seq := { b.seq with mstatNow := 0 }
    queues := b.queues.map fun x => { x with served := false }
    waves := b.waves.map fun w => w.mapLanes fun _ l => match l.st with | .blocked .turn => { l with st := .live } | _ => l }

/-- A clock begins: the last is classified, the count advances, and the agenda holds the events that have come due, the request
engines' steps, the other events that the machine brings about, the turns of the agents, and the service of claims. -/
def State.startClock (s : State) : State :=
  let s1 := (s.classify.tickClock.onBlocks fun _ x => x.newClock).upkeep
  let due := s1.inbox.filter fun x => decide (x.1 ≤ s1.now)
  let cores := s1.liveCores
  let cp := match s1.cpChoice with | some q => [Turn.agent (.cp q)] | none => []
  { s1.countOffers with
    inbox := s1.inbox.filter fun x => !decide (x.1 ≤ s1.now)
    agenda := due.map (fun x => Turn.ev x.2) ++ s1.clockEvents s.now ++ cores.flatMap s1.engineEvents ++ s1.ownEvents ++ cp ++
      s1.busyCores.flatMap s1.coreTurns ++
      ((cores.filter s1.wantsService).map fun c => Turn.ev (.tokenClaimService c)) }

end Sys2Proof.Machine
end

