-- ==== Sys2Proof/Machine/Step.lean ====
section
/-! DEFINITION. One step of the machine: the next turn of the agenda, or the start of the next clock when it is empty (log 2);
and the state with an instruction placed where the next step fetches it. -/

namespace Sys2Proof.Machine

/-- One step. An empty agenda starts a clock; else its first turn is taken: an event is performed, and an agent's turn fetches,
decodes, claims, and performs what it issues. The step first settles the rotation of the wave that issued last (R38). -/
def step (s : State) : Host.Outcome State Fault Refusal :=
  let s0 := { s.afterIssue with freeCtr := s.freeCtr + 1, issue := none }
  match s.agenda with
  | [] => .next s0.startClock
  | t :: rest =>
    match State.turn { s0 with agenda := rest } t with
    | (s1, none) => .next s1
    | (s1, some i) => exec i s1

/-! ### An instruction placed for the next step -/

/-- Bytes stored at home, whatever caches held of them. -/
def State.placeBytes (s : State) (sa : Nat) (l : List Byte) : State :=
  let s1 := s.heal (lineOf sa)
  { s1 with
    mem := putBytes s1.mem sa l
    dirty := s1.dirty.filter fun d => !(decide (sa ≤ d.sa) && decide (d.sa < sa + l.length)) }

/-- Where the placed line stands: an offset in this package's window, its physical address, and that of the context's root
table. -/
def placedOffset : Nat := 0x200000
def placedRoot : Nat := 0x400000

/-- The leaf of the first GiB of the window: frame 0, system-atomic, executable, writable, readable. -/
def placedLeaf : Nat := 2 ^ 59 + 2 ^ 57 + 2 ^ 56 + 2 ^ 55 + 2

/-- A fetch line with an instruction in slot 0, a target there, and NOPs after it (R87 to R90). -/
def placedLine (x : IWord) : List Byte :=
  let lo := if oddOnes 48 (x.toNat % 2 ^ 48) then 2 ^ 9 else 0
  let hi := if oddOnes 48 (x.toNat / 2 ^ 48) then 2 ^ 10 else 0
  bytesOf 64 (x.toNat + (1 + lo + hi) * 2 ^ 480)

/-- A block of one wave whose lanes, and whose sequencer, stand at a PC. -/
def placedBlock (pc : Pc) (cols : Nat) : Block :=
  { launch := 0, index := 0, ctx := 0, prio := 0, p0 := 0, regs := 256, spadSize := 65536, entry := pc, entered := false, age := 0
    waves := [Wave.start pc 65535], spad := [], spadTags := [], bars := copies (Barrier.start 1) 16
    queues := copies SpQueue.none 8, params := copies { bound := false, base := 0, size := 0 } 8, trapOnParam := false
    seq := if cols = 0 then Seq.start none 0 else Seq.start (some pc) cols, stopped := none, saving := false }

/-- The state with a line of one instruction in memory, mapped for context 0, and core 0 and its die at work. -/
def State.withLine (s : State) (x : IWord) : State :=
  let s1 := (s.placeBytes (storageOf placedOffset) (placedLine x)).placeBytes (storageOf placedRoot) (bytesOf 8 placedLeaf)
  let s2 := s1.setCtx 0 { s1.ctx 0 with trnRoot := BitVec.ofNat 64 (placedRoot + 1) }
  (s2.setCore 0 Core.reset).setDie 0 { s2.die 0 with phase := 0, inReset := false }

/-- The state in which the very next step fetches and runs an instruction whose bits are w: a resident block's wave, or its
sequencer, whose claim has just been paid, or queue 0's control stream (R120; log 2 says how a program comes to run). -/
def State.withFetchWord (s : State) (nbits w : Nat) : State :=
  let x : IWord := BitVec.ofNat 96 (w % 2 ^ nbits)
  let st := streamOf x
  let pc : Pc := BitVec.ofNat 57 (s.pkgNo * 2 ^ 45 + placedOffset)
  let base := match decode st x with | .ok i => s.basePrice i | .error _ => 0
  let s1 := s.withLine x
  match st with
  | .wave => { s1.setBlock 0 (placedBlock pc 0) with agenda := [.issue (.wave 0 0) allLanes base] }
  | .matrix => { s1.setBlock 0 (placedBlock pc 128) with agenda := [.issue (.seq 0) 0 base] }
  | .control =>
    { s1.setHwq 0 { Hwq.reset with cfg0 := BitVec.ofNat 64 (2 ^ 63), cur := some 1, pc, left := 1, first := true } with
      agenda := [.agent (.cp 0)] }

end Sys2Proof.Machine
end

