-- ==== Sys2Proof/Safety.lean ====
section
/-! DEFINITION. What the statements speak of: a step that answers a next state, a run of such steps, the shape that the
state keeps, and what an instruction leaves in the wave or the queue that issues it. -/

namespace Sys2Proof

open Machine

/-! ### Steps -/

/-- A step answers a next state: no fault and no refusal. -/
def SafeStep (s : State) : Prop := ∃ t, step s = .next t

/-- The first n steps from a state all answer. -/
def SafeFor : Nat → State → Prop
  | 0, _ => True
  | n + 1, s => ∃ t, step s = .next t ∧ SafeFor n t

/-- An instruction completes in a state: exec answers a next state. -/
def Completes (i : Instr) (s : State) : Prop := ∃ t, exec i s = .next t

/-- The package is whole: memory is in canonical form, and each of its 8 compute dies, 32 stacks and 48 ports is there. -/
def Whole (s : State) : Prop :=
  Memory.wf s.mem = true ∧ s.dies.length = 8 ∧ s.hbms.length = 32 ∧ s.ports.length = 48

/-! ### The issuer -/

/-- The state with nothing changed but the wave that issues, or the issuing queue's uniform registers and its move to the
next slot of its stream (R323). -/
def Placed (s t : State) (c : Cur) (w : Wave) : Prop :=
  match c.agent with
  | .wave b i => t = s.setWave b i w
  | .cp q => t = { s with hwqs := t.hwqs } ∧ t.hwq q = { s.hwq q with w := w.w }.advance ∧ ∀ q', q' ≠ q → t.hwq q' = s.hwq q'
  | .seq _ => False

/-! ### Registers -/

/-- What register r of lane i, which held x, holds after a destination a of n registers is written in the lanes p: lane i
receives f i (R100); a uniform destination and 0x140 leave lane registers alone. -/
def laneAfter (a : Opnd) (n : Nat) (p : LaneSet) (f : Nat → Quad) (i r : Nat) (x : Word) : Word :=
  match a with
  | .lane m => if p.getLsbD i = true ∧ m.toNat ≤ r ∧ r < m.toNat + n then wordAt (f i) (r - m.toNat) else x
  | _ => x

/-- What uniform register r, which held x, holds then: the value of the highest of the lanes (R69). -/
def uniAfter (a : Opnd) (n : Nat) (p : LaneSet) (f : Nat → Quad) (r : Nat) (x : Word) : Word :=
  match a, highLane p with
  | .uni m, some i => if m.toNat ≤ r ∧ r < m.toNat + n then wordAt (f i) (r - m.toNat) else x
  | _, _ => x

/-- What the tag of quad q of lane i, which was x, is then: a quad that the lane's write touches takes tag i (R71). -/
def tagAfter (a : Opnd) (n : Nat) (p : LaneSet) (tag : Nat → Bool) (i q : Nat) (x : Bool) : Bool :=
  match a with
  | .lane m => if p.getLsbD i = true ∧ ∃ j < n, (m.toNat + j) / 4 = q then tag i else x
  | _ => x

/-- From w to w', a destination a of n registers is written in the lanes p, and no other register or tag changes. -/
structure Wrote (w w' : Wave) (a : Opnd) (n : Nat) (p : LaneSet) (f : Nat → Quad) (tag : Nat → Bool) : Prop where
  lane : ∀ i < 32, ∀ r, (w'.lane i).reg r = laneAfter a n p f i r ((w.lane i).reg r)
  uni : ∀ r, w'.ureg r = uniAfter a n p f r (w.ureg r)
  tags : ∀ i < 32, ∀ q < 64, (w'.lane i).tags.getLsbD q = tagAfter a n p tag i q ((w.lane i).tags.getLsbD q)

/-- The active lanes move to the next slot, and every lane keeps its state, its restart PC, %chain and fence (R88). -/
structure Moved (w w' : Wave) (active : LaneSet) : Prop where
  pc : ∀ i < 32, (w'.lane i).pc = if active.getLsbD i = true then succPc (w.lane i).pc else (w.lane i).pc
  kept : ∀ i < 32, (w'.lane i).st = (w.lane i).st ∧ (w'.lane i).restart = (w.lane i).restart ∧
    (w'.lane i).chain = (w.lane i).chain ∧ (w'.lane i).fenced = (w.lane i).fenced

/-- What an instruction that computes into registers leaves of its wave: its lanes move on, its flags join %fpstat, and its
result stands in its destination, at once or, under lookahead, when its window closes (R112). Everything else of the wave is
as before but for the operand store (R110) and the windows' counts. -/
structure RanWave (w w' : Wave) (k : Ctl) (active : LaneSet) (a : Opnd) (n : Nat) (p : LaneSet) (f : Nat → Quad)
    (tag : Nat → Bool) (fl : Flags) : Prop where
  moved : Moved w w' active
  rest : w' = { w with
    lanes := w'.lanes, w := w'.w, opStore := w'.opStore, pend := w'.pend, pendNext := w'.pendNext
    fpstat := w.fpstat ||| fl, yielded := w.yielded || k.yieldBit }
  now : k.la = 0 → Wrote w w' a n p f tag ∧ w'.pend = (w.countIssue active).pend ∧ w'.pendNext = w.pendNext
  later : k.la ≠ 0 → Wrote w w' .zero 0 p f tag ∧ w'.pendNext = w.pendNext + 1 ∧
    ∃ e, w'.pend = (w.countIssue active).pend ++ [e] ∧ e.id = w.pendNext ∧ e.lanes = active ∧ e.waiting = 0 ∧
      e.left = (lanesOf active).map (fun i => (i, k.la.toNat)) ∧ Wrote w' (w'.land e) a n p f tag

/-- What an instruction that computes into registers leaves of the whole machine. -/
def Ran (s t : State) (c : Cur) (k : Ctl) (a : Opnd) (n : Nat) (p : LaneSet) (f : Nat → Quad) (tag : Nat → Bool)
    (fl : Flags) : Prop :=
  ∃ w, Placed s t c w ∧ RanWave c.wave w k c.active a n p f tag fl

/-- No quad that the destination touches keeps its tag (R71). -/
def noTag : Nat → Bool := fun _ => false

/-- The instruction in hand is c's, and no parameter operand of it, of n registers, traps (R226). -/
def Ready (s : State) (c : Cur) (k : Ctl) (n : Nat) (srcs : List Opnd) : Prop :=
  s.cur? = some c ∧ s.paramTrap c (s.parts c k) n srcs = none

/-- The instruction completes: each participating lane j leaves in its destination a of n registers some r, and sets flags
g, of which v says what they are; FPSTAT.param_bound is set for a parameter operand of pn registers out of bounds. -/
def Computes (i : Instr) (s : State) (c : Cur) (k : Ctl) (a : Opnd) (n pn : Nat) (srcs : List Opnd)
    (v : Nat → Quad → Flags → Prop) : Prop :=
  ∃ t f g, exec i s = .next t ∧
    Ran s t c k a n (s.parts c k) f noTag
      (orFlags ((lanesOf (s.parts c k)).map g) ||| s.paramFlags c (s.parts c k) pn srcs) ∧
    ∀ j < 32, (s.parts c k).getLsbD j = true → v j (f j) (g j)

/-- No register and no tag of a wave changes. -/
def KeepsRegs (w w' : Wave) : Prop :=
  (∀ i < 32, (∀ r, (w'.lane i).reg r = (w.lane i).reg r) ∧ (w'.lane i).tags = (w.lane i).tags) ∧ ∀ r, w'.ureg r = w.ureg r

/-- The instruction is a wave's, and carries no lookahead (R111: only long-latency instructions may). -/
def ByWave (s : State) (c : Cur) (k : Ctl) : Prop := s.cur? = some c ∧ c.agent = .wave c.bid c.wid ∧ k.la = 0

/-- The lowest lane of a set in the tile of lane i, of s lanes (R41, R53). -/
def IsLeader (s : Nat) (p : LaneSet) (i j : Nat) : Prop :=
  j < 32 ∧ p.getLsbD j = true ∧ j / s = i / s ∧ ∀ n < j, p.getLsbD n = true → n / s ≠ i / s

/-! ### Memory as lanes reach it -/

/-- Byte o of a block's scratchpad. -/
def spadAt (s : State) (b o : Nat) : Byte := match s.block? b with | none => 0 | some x => x.spadByte o

/-- The instruction answers a next state, in which the destination a of n registers is written in the participating lanes and
nothing else of the machine changes but the lanes' move and FPSTAT. -/
def Done (i : Instr) (s : State) (c : Cur) (k : Ctl) (a : Opnd) (n : Nat) : Prop :=
  ∃ t f g, exec i s = .next t ∧ Ran s t c k a n (s.parts c k) f noTag g

/-- No byte of memory changes: at home, as the lanes of any core read it, and in the scratchpads. -/
def KeepsBytes (s t : State) : Prop :=
  (∀ a, t.homeByte a = s.homeByte a) ∧ (∀ n a, t.viewByte n a = s.viewByte n a) ∧ ∀ b o, spadAt t b o = spadAt s b o

/-- What a core and its die hold has been written back to the home: the core reads every byte as before, the home holds it so, and
another core reads it as before or as the core does. -/
def WroteBack (s t : State) (core : Nat) : Prop :=
  (∀ a, t.viewByte core a = s.viewByte core a ∧ t.homeByte a = s.viewByte core a) ∧
  (∀ n a, t.viewByte n a = s.viewByte n a ∨ t.viewByte n a = s.viewByte core a) ∧ ∀ b o, spadAt t b o = spadAt s b o

/-- The issuing wave afterwards: its registers and tags are unchanged, the lanes of a set have moved to the next slot and the
others have not moved. -/
def Went (t : State) (c : Cur) (moved : LaneSet) : Prop :=
  ∃ w, t.wave? c.bid c.wid = some w ∧ KeepsRegs c.wave w ∧ ∀ i < 32,
    (w.lane i).pc = if moved.getLsbD i = true then succPc (c.wave.lane i).pc else (c.wave.lane i).pc

/-- The lanes of a set wait. -/
def Waits (t : State) (c : Cur) (p : LaneSet) (why : Nat → Wait) : Prop :=
  ∃ w, t.wave? c.bid c.wid = some w ∧ ∀ i < 32, p.getLsbD i = true → (w.lane i).st = .blocked (why i)

/-- An instruction of a wave of a resident block. -/
def OfWave (s : State) (c : Cur) (blk : Block) : Prop :=
  s.cur? = some c ∧ c.agent = .wave c.bid c.wid ∧ s.block? c.bid = some blk

/-- Every participating lane's access of z bytes passes its checks and is translated: the lanes with their places. -/
def Reaches (s : State) (c : Cur) (blk : Block) (p : LaneSet) (cap : Bool) (perm : Quad → Bool) (b off : Opnd) (z : Nat)
    (need : Perm) (l : List (Nat × At)) : Prop :=
  ∃ t, s.checkAccess c blk p cap perm b off z = .ok t ∧ s.locateAll c.ctx need t = .ok l

/-- No lane's place is on another package. -/
def AllHere (l : List (Nat × At)) : Prop := ∀ x ∈ l, ∀ va, x.2 ≠ .peer va

/-- No lane uses a poisoned line (R221). -/
def Unpoisoned (s : State) (c : Cur) (z : Nat) (l : List (Nat × At)) : Prop :=
  ∀ x ∈ l, s.readsPoison c.core c.wave z x.2 = false

/-- Every home that the lanes must read can be reached (R181, R200, R393). -/
def HomesAnswer (s : State) (c : Cur) (z : Nat) (l : List (Nat × At)) : Prop :=
  ∀ x ∈ l, s.readWaits c.core c.wave z x.2 = false

/-- A release by some lanes goes on at once: once its write-backs are made, no acknowledgement that it needs is missing (R256, R266,
R349). -/
def Released (s : State) (c : Cur) (p : LaneSet) (sc : Scope) : Prop :=
  (s.writeBackAt c.core sc).mustWait c.bid sc (c.wave.waitsTo p) = false

/-- The wave has issued an instruction whose lanes await something: it stands last among the pending ones, with a window of la
instructions for each active lane (R112, R524). -/
def Pends (t : State) (c : Cur) (k : Ctl) (waiting : LaneSet) (again : Bool) : Prop :=
  ∃ w e, t.wave? c.bid c.wid = some w ∧ w.pend = (c.wave.countIssue c.active).pend ++ [e] ∧ e.id = c.wave.pendNext ∧
    e.active = c.active ∧ e.pc = c.pc ∧ e.waiting = waiting ∧ e.again.isSome = again ∧
    e.left = (lanesOf c.active).map fun i => (i, k.la.toNat)

/-- Byte j at a place, as a lane of the wave reads it: the scratchpad's, or the open region's latest store of it, or memory's. -/
def byteAt (s : State) (c : Cur) (blk : Block) (a : At) (j : Nat) : Byte :=
  match a with
  | .spad o => blk.spadByte (o + j)
  | .home _ leaf _ => (c.wave.buffered (.home (leaf.sa + j))).getD (s.viewByte c.core (leaf.sa + j))
  | .peer _ => 0

/-- A place of z bytes holds the byte at a storage address, or at an offset of the scratchpad. -/
def CoversHome (z : Nat) (a : At) (sa : Nat) : Prop :=
  match a with | .home _ leaf _ => leaf.sa ≤ sa ∧ sa < leaf.sa + z | _ => False
def CoversSpad (z : Nat) (a : At) (o : Nat) : Prop :=
  match a with | .spad o' => o' ≤ o ∧ o < o' + z | _ => False

/-! ### Results -/

/-- The low 64 bits of a result. -/
def low64 (r : Quad) : Dword := r.setWidth 64
/-- The low 32 bits of a result. -/
def low32 (r : Quad) : Word := r.setWidth 32

/-- An element read as its type reads it is an exact integer, clamped to the type's range under .sat, else modulo 2 to the
element's width (R438, R440). -/
def Delivers (ty : ITy) (sat : Bool) (got exact : Int) : Prop :=
  if sat then got = max (intRange (widthOf ty) (signedTy ty)).1 (min (intRange (widthOf ty) (signedTy ty)).2 exact)
  else (got - exact) % (2 ^ widthOf ty : Nat) = 0

/-- Every element of a result of a type, without flags, by its index. -/
def EachElem (ty : ITy) (r : Quad) (g : Flags) (v : Nat → Int → Prop) : Prop :=
  g = 0 ∧ ∀ e < elemsOf ty, v e (elemInt ty (low64 r) e)

/-! ### Floating-point values -/

/-- The rational number of a finite value. -/
def ratOf : Val → Rat
  | .num neg m e => (if neg then -1 else 1) * m * (2 : Rat) ^ e
  | _ => 0

/-- A value is finite. -/
def Finite : Val → Prop
  | .num _ _ _ => True
  | _ => False

/-- a ≤ b for values that are no NaN (R428). -/
def AtMost : Val → Val → Prop
  | .inf true, _ => True
  | _, .inf false => True
  | .num s m e, .num s' m' e' => ratOf (.num s m e) ≤ ratOf (.num s' m' e')
  | _, _ => False

/-- The real number of a magnitude code of a format, and of the code past its largest (R137, R144). -/
noncomputable def magOf (f : FF) (k : Nat) : ℝ :=
  if k < 2 ^ f.fbits then k * (2 : ℝ) ^ f.qmin
  else (2 ^ f.fbits + k % 2 ^ f.fbits : Nat) * (2 : ℝ) ^ (f.qmin + (k / 2 ^ f.fbits : Nat) - 1)

/-- A magnitude code is the rounding of a positive magnitude x under a mode (R144): x itself, or the one of its two
neighbours that the mode chooses. -/
def IsRound (f : FF) (md : Rnd4) (neg : Bool) (x : ℝ) (code : Nat) : Prop :=
  magOf f code = x ∨ ∃ lo, magOf f lo < x ∧ x < magOf f (lo + 1) ∧
    ((code = lo + 1 ∧ match md with
        | .rn => magOf f lo + magOf f (lo + 1) < 2 * x ∨ (magOf f lo + magOf f (lo + 1) = 2 * x ∧ lo % 2 = 1)
        | .rz => False | .rd => neg = true | .ru => neg = false) ∨
     (code = lo ∧ match md with
        | .rn => 2 * x < magOf f lo + magOf f (lo + 1) ∨ (magOf f lo + magOf f (lo + 1) = 2 * x ∧ lo % 2 = 0)
        | .rz => True | .rd => neg = false | .ru => neg = true))

/-- The result and flags of a value that is rounded once (R144, R145, R152). -/
def Rounds (f : FF) (md : Rnd4) (v : Val) (r : Quad) (g : Flags) : Prop :=
  r = BitVec.ofNat 128 (f.deliver (rndMode4 md) false v).1 ∧ g = (f.deliver (rndMode4 md) false v).2

/-- The canonical NaN, with the invalid flag or not (R139). -/
def IsNaN (f : FF) (invalid : Bool) (r : Quad) (g : Flags) : Prop :=
  r = BitVec.ofNat 128 f.canon ∧ g = if invalid then fInvalid else 0

/-- An infinity, without flags. -/
def IsInf (f : FF) (neg : Bool) (r : Quad) (g : Flags) : Prop := r = BitVec.ofNat 128 (f.inf neg) ∧ g = 0

/-- A sum of two values as one floating-point addition gives it (R426): the NaN cases in order, infinities, and the exact sum
rounded once, an exact zero with the sign of the zero rule. -/
def Adds (f : FF) (md : Rnd4) (x y : Val) (r : Quad) (g : Flags) : Prop :=
  (x.isNan ∨ y.isNan → IsNaN f (x.isSig || y.isSig) r g) ∧
  (∀ sx sy, x = .inf sx → y = .inf sy → if sx = sy then IsInf f sx r g else IsNaN f true r g) ∧
  (∀ sx, x = .inf sx → Finite y → IsInf f sx r g) ∧
  (∀ sy, Finite x → y = .inf sy → IsInf f sy r g) ∧
  (Finite x → Finite y → ∃ neg m e, ratOf (.num neg m e) = ratOf x + ratOf y ∧ Rounds f md (.num neg m e) r g ∧
    (m = 0 → neg = if x.isZero && y.isZero && x.neg == y.neg then x.neg else md == .rd))

/-- 0 × ∞ (R426). -/
def ZeroTimesInf (x y : Val) : Prop := (x.isInf ∧ y.isZero) ∨ (x.isZero ∧ y.isInf)

/-- A product that is an infinity: an infinite factor and one that is no NaN and no zero (R426). -/
def InfProduct (x y : Val) : Prop :=
  x.isInf ∧ y.isInf ∨ x.isInf ∧ Finite y ∧ y.isZero = false ∨ Finite x ∧ x.isZero = false ∧ y.isInf

/-- A product of two values as one multiplication gives it (R426). -/
def Multiplies (f : FF) (md : Rnd4) (x y : Val) (r : Quad) (g : Flags) : Prop :=
  (x.isNan ∨ y.isNan → IsNaN f (x.isSig || y.isSig) r g) ∧
  (ZeroTimesInf x y → IsNaN f true r g) ∧
  (InfProduct x y → IsInf f (x.neg != y.neg) r g) ∧
  (Finite x → Finite y → ∃ m e, ratOf (.num (x.neg != y.neg) m e) = ratOf x * ratOf y ∧
    Rounds f md (.num (x.neg != y.neg) m e) r g)

/-- The value x × y + z as one fused operation gives it (R426): a NaN factor, 0 × ∞ and a NaN addend in that order, infinities, and
the exact value rounded once, an exact zero with the sign of the zero rule. -/
def Fuses (f : FF) (md : Rnd4) (x y z : Val) (r : Quad) (g : Flags) : Prop :=
  let sig := x.isSig || y.isSig || z.isSig
  let neg := x.neg != y.neg
  (x.isNan ∨ y.isNan → IsNaN f sig r g) ∧
  (ZeroTimesInf x y → IsNaN f true r g) ∧
  (InfProduct x y ∨ Finite x ∧ Finite y → z.isNan → IsNaN f sig r g) ∧
  (InfProduct x y → (Finite z ∨ z = .inf neg → IsInf f neg r g) ∧ (z = .inf (!neg) → IsNaN f true r g)) ∧
  (Finite x → Finite y → ∀ sz, z = .inf sz → IsInf f sz r g) ∧
  (Finite x → Finite y → Finite z → ∃ s m e, ratOf (.num s m e) = ratOf x * ratOf y + ratOf z ∧ Rounds f md (.num s m e) r g ∧
    (m = 0 → s = if (x.isZero || y.isZero) && z.isZero && neg == z.neg then neg else md == .rd))

/-- The smaller or larger of two codes of a format, +0 above −0, with the NaN rules of R433. -/
def Picks (f : FF) (least nan : Bool) (u v : Nat) (r : Quad) (g : Flags) : Prop :=
  let p := f.value u
  let q := f.value v
  g = (if p.isSig || q.isSig then fInvalid else 0) ∧
  ((p.isNan ∧ q.isNan) ∨ (nan = true ∧ (p.isNan ∨ q.isNan)) → r = BitVec.ofNat 128 f.canon) ∧
  (nan = false → p.isNan → q.isNan = false → r = BitVec.ofNat 128 v) ∧
  (nan = false → p.isNan = false → q.isNan → r = BitVec.ofNat 128 u) ∧
  (p.isNan = false → q.isNan = false →
    (AtMost p q → ¬ AtMost q p → r = BitVec.ofNat 128 (if least then u else v)) ∧
    (AtMost q p → ¬ AtMost p q → r = BitVec.ofNat 128 (if least then v else u)) ∧
    (AtMost p q → AtMost q p → r = BitVec.ofNat 128 u ∨ r = BitVec.ofNat 128 v) ∧
    (p.isZero → q.isZero → p.neg ≠ q.neg → (r.getLsbD f.mbits = least)))

/-- A real magnitude x > 0 rounded once to a format (R144, R145, R152): its code in the format with an unbounded exponent, delivered
as that code or, past the largest one, as R145 gives. A code below the normal ones is tiny. -/
def RoundsReal (f : FF) (md : Rnd4) (neg : Bool) (x : ℝ) (r : Quad) (g : Flags) : Prop :=
  ∃ code, IsRound f md neg x code ∧
    (f.maxCode < code → r = BitVec.ofNat 128 (f.overflowed (rndMode4 md) neg) ∧ g = fOverflow ||| fInexact) ∧
    (code ≤ f.maxCode → r = BitVec.ofNat 128 (f.sign neg + code) ∧
      (magOf f code = x → g = 0) ∧
      (magOf f code ≠ x → (code < 2 ^ f.fbits → g = fInexact ||| fUnderflow) ∧
        (magOf f (2 ^ f.fbits) ≤ x → g = fInexact) ∧ (g = fInexact ∨ g = fInexact ||| fUnderflow)))

/-! ### Formats and reductions -/

/-- The binary formats of R137 that CVT and CVTS deliver (R419). -/
def binaryOf : Fmt → Option FF
  | .f32 => some ffF32 | .f16 => some ffF16 | .bf16 => some ffBf16 | .e4m3 => some ffE4m3 | .e5m2 => some ffE5m2 | _ => none

/-- Width and sign of the integer formats of R118. -/
def integerOf : Fmt → Option (Nat × Bool)
  | .i8 => some (8, true) | .n8 => some (8, false) | .i16 => some (16, true) | .n16 => some (16, false)
  | .i32 => some (32, true) | .n32 => some (32, false) | .i64 => some (64, true) | .n64 => some (64, false) | _ => none

/-- One step of REDT and SCANT on two integers of a type (R491). -/
def intStep (op : XOp) (ty : XTy) (r x : Dword) : Dword :=
  match op, ty with
  | .and, _ => r &&& x
  | .or, _ => r ||| x
  | .xor, _ => r ^^^ x
  | .add, .n64 => r + x
  | .min, .n64 => if x < r then x else r
  | .max, .n64 => if r < x then x else r
  | .add, _ => (r.setWidth 32 + x.setWidth 32).setWidth 64
  | .min, .i32 => if (x.setWidth 32).slt (r.setWidth 32) then x else r
  | .max, .i32 => if (r.setWidth 32).slt (x.setWidth 32) then x else r
  | .min, _ => if x < r then x else r
  | .max, _ => if r < x then x else r

end Sys2Proof
end

