-- ==== Sys2Proof/Certificates/Slice0/Obligations.lean ====
section
/-! DEFINITION. The statements for the provers, each from numbered rules of spec/. -/

open Sys2Proof Sys2Proof.Machine

/-! ### Class 0x1: integer -/

/-- R438, R440, R445, R446: IADD, ISUB, IMUL, IMULH, IMIN and IMAX compute each element of their type exactly and deliver it
modulo 2 to its width, clamped under .sat; nothing else of the machine changes but the lanes' move. -/
def Obligations.IntegerOfTwo : Prop :=
  ∀ (s : State) (c : Cur) (k : Ctl) (ty : ITy) (sat : Bool) (a b d : Opnd), Ready s c k (regsOf ty) [b, d] →
    let x (j e : Nat) : Int := elemInt ty (s.rd c (immOf ty) (regsOf ty) b j) e
    let y (j e : Nat) : Int := elemInt ty (s.rd c (immOf ty) (regsOf ty) d j) e
    let gives (i : Instr) (v : Nat → Nat → Int → Prop) : Prop :=
      Computes i s c k a (regsOf ty) (regsOf ty) [b, d] fun j r g => EachElem ty r g (v j)
    gives (.iadd k ty sat a b d) (fun j e z => Delivers ty sat z (x j e + y j e)) ∧
    gives (.isub k ty sat a b d) (fun j e z => Delivers ty sat z (x j e - y j e)) ∧
    gives (.imul k ty a b d) (fun j e z => Delivers ty false z (x j e * y j e)) ∧
    gives (.imulh k ty a b d) (fun j e z => z = x j e * y j e / (2 ^ widthOf ty : Nat)) ∧
    gives (.imin k ty a b d) (fun j e z => z = min (x j e) (y j e)) ∧
    gives (.imax k ty a b d) (fun j e z => z = max (x j e) (y j e))

/-- R439, R442, R443, R444: IABS, IADDT, IMAD and ICMP. -/
def Obligations.IntegerOfOneAndThree : Prop :=
  ∀ (s : State) (c : Cur) (k : Ctl) (ty : ITy) (sat : Bool) (cmp : ICmp) (a b d e : Opnd), Ready s c k (regsOf ty) [b, d] →
    let x (j n : Nat) : Int := elemInt ty (s.rd c (immOf ty) (regsOf ty) b j) n
    let y (j n : Nat) : Int := elemInt ty (s.rd c (immOf ty) (regsOf ty) d j) n
    let z (j n : Nat) : Int := elemInt ty (s.rd c (immOf ty) (regsOf ty) e j) n
    let gives (i : Instr) (v : Nat → Nat → Int → Prop) : Prop :=
      Computes i s c k a (regsOf ty) (regsOf ty) [b, d] fun j r g => EachElem ty r g (v j)
    let holds (p q : Int) : Prop := match cmp with
      | .eq => p = q | .ne => p ≠ q | .lt => p < q | .le => p ≤ q | .gt => q < p | .ge => q ≤ p
    (s.paramTrap c (s.parts c k) (regsOf ty) [b, .zero] = none →
      Computes (.iabs k ty sat a b) s c k a (regsOf ty) (regsOf ty) [b, .zero] fun j r g =>
        EachElem ty r g fun n v => Delivers ty sat v (if x j n < 0 then -(x j n) else x j n)) ∧
    gives (.iaddt k ty sat a b d e) (fun j n v => Delivers ty sat v (x j n + y j n + z j n)) ∧
    gives (.imad k ty a b d e) (fun j n v => Delivers ty false v (x j n * y j n + z j n)) ∧
    gives (.icmp k cmp ty a b d) (fun j n v =>
      (holds (x j n) (y j n) → Delivers ty false v (-1)) ∧ (¬ holds (x j n) (y j n) → v = 0))

/-- R441, R444, R454, R499: IADDC and its borrow, IMADW, LEA and SEL. -/
def Obligations.IntegerWide : Prop :=
  ∀ (s : State) (c : Cur) (k : Ctl) (sub signed w64 : Bool) (n : BitVec 3) (ty : ITy) (a b d e : Opnd), Ready s c k 1 [b, d] →
    let x (j : Nat) : Word := s.rd32 c b j
    let y (j : Nat) : Word := s.rd32 c d j
    let ci (j : Nat) : Nat := if (s.rd32 c e j).getLsbD 0 then 1 else 0
    let int (v : Word) : Int := if signedTy ty then v.toInt else v.toNat
    Computes (.iaddc k sub a b d e) s c k a 2 1 [b, d] (fun j r g => g = 0 ∧
      low32 r = (if sub then x j - y j - BitVec.ofNat 32 (ci j) else x j + y j + BitVec.ofNat 32 (ci j)) ∧
      ((low64 r).extractLsb' 32 32 = 1 ∨ (low64 r).extractLsb' 32 32 = 0) ∧
      ((low64 r).extractLsb' 32 32 = 1 ↔
        if sub then (x j).toNat < (y j).toNat + ci j else 2 ^ 32 ≤ (x j).toNat + (y j).toNat + ci j)) ∧
    Computes (.imadw k ty a b d e) s c k a 2 1 [b, d] (fun j r g => g = 0 ∧
      low64 r = BitVec.ofInt 64 (int (x j) * int (y j) + (s.rd64 c e j).toInt)) ∧
    Computes (.lea k signed n false a b d) s c k a 1 1 [b, d] (fun j r g => g = 0 ∧
      low32 r = x j + BitVec.ofNat 32 ((y j).toNat * 2 ^ n.toNat)) ∧
    Computes (.lea k signed n true a b d) s c k a 2 1 [b, d] (fun j r g => g = 0 ∧
      low64 r = s.rd64 c b j + BitVec.ofInt 64 ((if signed then (y j).toInt else (y j).toNat) * 2 ^ n.toNat)) ∧
    (∀ m, m = (if w64 then 2 else 1) → s.paramTrap c (s.parts c k) m [b, d] = none →
      Computes (.sel k w64 a b d e) s c k a m m [b, d] (fun j r g => g = 0 ∧
        low64 r = if s.rd c .int m e j = 0 then s.rd c .int m d j else s.rd c .int m b j))

/-! ### Class 0x2: moves, logic, shifts, bit fields, capabilities -/

/-- R406, R455, R468, R469: MOV, MOVI, LOGT and BREV, bit by bit. -/
def Obligations.MovesAndLogic : Prop :=
  ∀ (s : State) (c : Cur) (k : Ctl) (w64 : Bool) (lit : Word) (tab : BitVec 8) (a b d e : Opnd) (w : Nat),
    w = (if w64 then 2 else 1) → s.cur? = some c →
    let x (o : Opnd) (j : Nat) : Dword := s.rd c .int w o j
    (Ready s c k w [b, .zero] → Computes (.mov k w64 a b) s c k a w w [b, .zero] fun j r g => g = 0 ∧ low64 r = x b j) ∧
    Computes (.movi k a lit) s c k a 1 1 [.zero, .zero] (fun _ r g => g = 0 ∧ low32 r = lit) ∧
    (Ready s c k w [b, d] → Computes (.logt k w64 a b d e tab) s c k a w w [b, d] fun j r g => g = 0 ∧
      ∀ n < 32 * w, r.getLsbD n = tab.getLsbD
        ((if (x b j).getLsbD n then 1 else 0) + (if (x d j).getLsbD n then 2 else 0) + (if (x e j).getLsbD n then 4 else 0))) ∧
    (Ready s c k w [b, .zero] → Computes (.brev k w64 a b) s c k a w w [b, .zero] fun j r g => g = 0 ∧
      ∀ n < 32 * w, r.getLsbD n = (x b j).getLsbD (32 * w - 1 - n))

/-- R500, R501: SHL, SHR and SHA shift each element by bits [7:0] of its own count, SHD keeps one word of a shifted joint. -/
def Obligations.Shifts : Prop :=
  ∀ (s : State) (c : Cur) (k : Ctl) (ty : ShTy) (m32 dn : Bool) (a b d e : Opnd) (w : Nat), w = (shTy ty false).regs →
    s.cur? = some c →
    let x (o : Opnd) (j n z : Nat) : BitVec z := (s.rd c (immOf (shTy ty false)) w o j).extractLsb' (z * n) z
    let count (j n z : Nat) : Nat := ((s.rd c (immOf (shTy ty false)) w d j).extractLsb' (z * n) 8).toNat
    let each (i : Instr) (v : (z : Nat) → BitVec z → Nat → BitVec z) : Prop :=
      Ready s c k w [b, d] → Computes i s c k a w w [b, d] fun j r g => g = 0 ∧
        ∀ n < elemsOf (shTy ty false), let z := widthOf (shTy ty false)
          r.extractLsb' (z * n) z = v z (x b j n z) (count j n z)
    each (.shl k ty a b d) (fun _ y n => y <<< n) ∧
    each (.shr k ty a b d) (fun _ y n => y >>> n) ∧
    each (.sha k ty a b d) (fun _ y n => y.sshiftRight n) ∧
    (Ready s c k 1 [b, d] → Computes (.shd k m32 dn a b d e) s c k a 1 1 [b, d] fun j r g => g = 0 ∧
      let joint : Dword := s.rd32 c d j ++ s.rd32 c b j
      let n := (s.rd32 c e j).toNat % 256
      let n' := if m32 then n % 32 else if n ≤ 32 then n else 32
      low32 r = if dn then (joint >>> n').setWidth 32 else ((joint <<< n') >>> 32).setWidth 32)

/-- R403, R415, R481: BFX and BFI move a field of a position and a length, CLZ and POPC count. -/
def Obligations.BitFields : Prop :=
  ∀ (s : State) (c : Cur) (k : Ctl) (ty : ITy) (w64 : Bool) (a b d : Opnd), s.cur? = some c → elemsOf ty = 1 →
    let field (w : Nat) (ctl : Dword) : Nat × Nat :=
      let p := ctl.toNat % 64
      (p, if w ≤ p then 0 else min (ctl.toNat / 256 % 128) (w - p))
    let w : Nat := if w64 then 2 else 1
    (Ready s c k (regsOf ty) [b, d] → Computes (.bfx k ty a b d) s c k a (regsOf ty) (regsOf ty) [b, d] fun j r g => g = 0 ∧
      let x := s.rd c .int (regsOf ty) b j
      let f := field (widthOf ty) (s.rd c .int (regsOf ty) d j)
      ∀ n < widthOf ty, r.getLsbD n =
        if n < f.2 then x.getLsbD (f.1 + n) else signedTy ty && decide (0 < f.2) && x.getLsbD (f.1 + f.2 - 1)) ∧
    (Ready s c k w [b, d] → Computes (.bfi k w64 a b d) s c k a w w [b, d] fun j r g => g = 0 ∧
      let f := field (32 * w) (s.rd c .int w d j)
      ∀ n < 32 * w, r.getLsbD n =
        if f.1 ≤ n ∧ n < f.1 + f.2 then (s.rd c .int w b j).getLsbD (n - f.1) else (s.rd c .int w a j).getLsbD n) ∧
    (Ready s c k w [b, .zero] → Computes (.clz k w64 a b) s c k a w w [b, .zero] fun j r g => g = 0 ∧
      let x := s.rd c .int w b j
      (low64 r).toNat ≤ 32 * w ∧ (∀ n < 32 * w, 32 * w - (low64 r).toNat ≤ n → x.getLsbD n = false) ∧
      ((low64 r).toNat < 32 * w → x.getLsbD (32 * w - 1 - (low64 r).toNat) = true)) ∧
    (Ready s c k w [b, .zero] → Computes (.popc k w64 a b) s c k a w w [b, .zero] fun j r g => g = 0 ∧
      (low64 r).toNat = ((List.range (32 * w)).filter fun n => (s.rd c .int w b j).getLsbD n).length)

/-- R437, R146, R488: RDLANE gives every participating lane the register of one lane, and refuses an index above 31; HRND is
four rounds of the hash. -/
def Obligations.LaneReadAndHash : Prop :=
  ∀ (s : State) (c : Cur) (k : Ctl) (w64 useK : Bool) (a b d : Opnd) (w : Nat), w = (if w64 then 2 else 1) →
    s.cur? = some c →
    let round (p : Dword × Dword) : Dword × Dword :=
      let x1 := p.1 ^^^ p.2
      let x2 := (x1 ^^^ (x1 >>> 32)) * 0xD6E8FEB86659FD93#64
      (x2 ^^^ (x2 >>> 29), p.2 + 0x9E3779B97F4A7C15#64)
    ((s.rd32 c d 0).toNat ≤ 31 → ∃ t, exec (.rdlane k w64 a b d) s = .next t ∧
      Ran s t c k a w (s.parts c k) (fun _ => q64 (s.rd c .int w b (s.rd32 c d 0).toNat)) noTag 0) ∧
    (31 < (s.rd32 c d 0).toNat → s.parts c k ≠ 0 → exec (.rdlane k w64 a b d) s = .next (s.raise c 0x02 2)) ∧
    (Ready s c k 2 [b, d] → Computes (.hrnd k useK a b d) s c k a 1 2 [b, d] fun j r g => g = 0 ∧
      low32 r = ((round (round (round (round
        (s.rd64 c b j, if useK then s.rd64 c d j else s.launchSeed c))))).1 >>> 32).setWidth 32)

/-- R410, R411, R413, R416, R418, R222, R223: the capability instructions. CNARROW, CPERM and CGET leave a tagged quad, or
raise a capability fault (an illegal operand, CGET) if a lane fails a check; CCHK reports the first check that fails; CCLR
clears tags and changes no register. -/
def Obligations.Capabilities : Prop :=
  ∀ (s : State) (c : Cur) (k : Ctl) (perm : CapPerm) (size : CapSize) (a b d e : Opnd), s.cur? = some c →
    (∀ m, a = .lane m → m.toNat % 4 = 0) →
    let p := s.parts c k
    let q (j : Nat) : Quad := c.quad b j
    let part (j : Nat) : Prop := j < 32 ∧ p.getLsbD j = true
    let base (v : Quad) : Nat := v.toNat % 2 ^ 57
    let len (v : Quad) : Nat := v.toNat / 2 ^ 57 % 2 ^ 48
    let derives (j : Nat) : Prop := (q j).getLsbD 111 = true ∧ (q j).toNat / 2 ^ 112 = 0
    let nb (j : Nat) : Nat := (s.rd64 c d j).toNat % 2 ^ 57
    let nl (j : Nat) : Nat := (s.rd64 c e j).toNat
    let fits (j : Nat) : Prop := nl j ≤ 2 ^ 48 - 1 ∧ base (q j) ≤ nb j ∧ nb j + nl j ≤ base (q j) + len (q j)
    let caps := match s.block? c.bid with | none => [] | some x => (s.launch x.launch).caps
    let makes (i : Instr) (f : Nat → Quad) : Prop := ∃ t, exec i s = .next t ∧ Ran s t c k a 4 p f (fun _ => true) 0
    ((∀ j, part j → c.tag b j = true ∧ fits j ∧ derives j) →
      makes (.cnarrow k a b d e) fun j =>
        BitVec.ofNat 128 ((q j).toNat / 2 ^ 105 * 2 ^ 105 + nl j * 2 ^ 57 + nb j)) ∧
    ((∃ j, part j ∧ c.tag b j = false) → exec (.cnarrow k a b d e) s = .next (s.raise c 0x06 0) ∧
      exec (.cperm k a b d) s = .next (s.raise c 0x06 0)) ∧
    ((∀ j, part j → c.tag b j = true) → (∃ j, part j ∧ ¬ fits j) →
      exec (.cnarrow k a b d e) s = .next (s.raise c 0x06 1)) ∧
    ((∀ j, part j → c.tag b j = true) → (∃ j, part j ∧ ¬ derives j) →
      ((∀ j, part j → fits j) → exec (.cnarrow k a b d e) s = .next (s.raise c 0x06 2)) ∧
      exec (.cperm k a b d) s = .next (s.raise c 0x06 2)) ∧
    ((∀ j, part j → c.tag b j = true ∧ derives j) →
      makes (.cperm k a b d) fun j => q j &&& ~~~((127#128 &&& ~~~(s.rd32 c d j).setWidth 128) <<< 105)) ∧
    ((∀ j, part j → (s.rd32 c b j).toNat < caps.length) →
      makes (.cget k a b) fun j => lget 0 caps (s.rd32 c b j).toNat) ∧
    ((∃ j, part j ∧ caps.length ≤ (s.rd32 c b j).toNat) → exec (.cget k a b) s = .next (s.raise c 0x02 1)) ∧
    (Ready s c k 1 [b, d] → Computes (.cchk k perm size a b d) s c k a 1 1 [b, d] fun j r g => g = 0 ∧
      let z : Nat := match size with | .b1 => 1 | .b4 => 4 | .b8 => 8 | .b16 => 16
      let bit : Nat := match perm with | .read => 105 | .write => 106 | .atomic => 107 | .chain => 108
      let at' : Int := base (q j) + (s.rd32 c d j).toInt
      (c.tag b j = false → low32 r = 1) ∧
      (c.tag b j = true → ¬ (base (q j) ≤ at' ∧ at' + z ≤ base (q j) + len (q j)) → low32 r = 2) ∧
      (c.tag b j = true → base (q j) ≤ at' → at' + z ≤ base (q j) + len (q j) →
        low32 r = if (q j).getLsbD bit then 0 else 3)) ∧
    (∃ t w, exec (.cclr k a) s = .next t ∧ Placed s t c w ∧ Moved c.wave w c.active ∧
      (k.la = 0 → ∀ j < 32, (∀ n, (w.lane j).reg n = (c.wave.lane j).reg n) ∧
        ∀ n < 64, (w.lane j).tags.getLsbD n = match a with
          | .lane m => if p.getLsbD j = true ∧ m.toNat / 4 = n then false else (c.wave.lane j).tags.getLsbD n
          | _ => (c.wave.lane j).tags.getLsbD n))

/-! ### Class 0x3: floating point -/

/-- R426: FADD, FSUB and FMUL give the exact sum, difference or product rounded once, with the NaN, infinity and zero rules of the
entry. Every other form of classes 0x3 to 0x5 that computes into registers completes on every operand that decodes, whatever its
value: it writes its destination and nothing else (the result is stated by the next statements). -/
def Obligations.FloatAddMul : Prop :=
  ∀ (s : State) (c : Cur) (k : Ctl) (fmt : FFmt) (md : Rnd4) (a b d e : Opnd), s.cur? = some c →
    let f := ffOf fmt
    let x (j : Nat) : Val := f.value (s.rd c (.fp fmt) 1 b j).toNat
    let y (j : Nat) : Val := f.value (s.rd c (.fp fmt) 1 d j).toNat
    let w (w64 : Bool) : Nat := if w64 then 2 else 1
    (Ready s c k 1 [b, d] →
      Computes (.fadd k fmt md a b d) s c k a 1 1 [b, d] (fun j r g => Adds f md (x j) (y j) r g) ∧
      Computes (.fsub k fmt md a b d) s c k a 1 1 [b, d] (fun j r g => Adds f md (x j) (y j).flip r g) ∧
      Computes (.fmul k fmt md a b d) s c k a 1 1 [b, d] (fun j r g => Multiplies f md (x j) (y j) r g)) ∧
    (Ready s c k 1 [b, d] → ∀ (pf : PFmt) (dst src : Fmt) (rnd : Rnd) (mode : ShflMode) (w64 : Bool),
      Done (.ffma k fmt md a b d e) s c k a 1 ∧ Done (.fdot2 k pf md a b d e) s c k a 1 ∧
      Done (.padd k pf md a b d) s c k a 1 ∧ Done (.pmul k pf md a b d) s c k a 1 ∧ Done (.pfma k pf md a b d e) s c k a 1 ∧
      Done (.pmin k pf a b d) s c k a 1 ∧ Done (.pmax k pf a b d) s c k a 1 ∧
      Done (.cvt k dst src rnd a b d e) s c k a (fmtRegs dst) ∧ Done (.cvts k dst src rnd a b d e) s c k a (fmtRegs dst) ∧
      Done (.shfl k w64 mode a b d) s c k a (w w64)) ∧
    (Ready s c k 1 [b, .zero] → ∀ fn : VoteFn,
      Done (.frcp k fmt md a b) s c k a 1 ∧ Done (.frsq k fmt md a b) s c k a 1 ∧ Done (.fsqrt k fmt md a b) s c k a 1 ∧
      Done (.fex2 k fmt a b) s c k a 1 ∧ Done (.flg2 k fmt a b) s c k a 1 ∧ Done (.fsin k fmt a b) s c k a 1 ∧
      Done (.fcos k fmt a b) s c k a 1 ∧ Done (.ftanh k fmt a b) s c k a 1 ∧ Done (.vote k fn a b) s c k a 1) ∧
    (∀ n ∈ [2, 4, 8, 16, 32], (∀ j < 32, (s.parts c k).getLsbD j = true → (s.rd32 c b j).toNat = n) →
      ∃ t, exec (.part k b) s = .next t) ∧
    (∀ fm : Fmt, Done (.qscal k fm a b) s c k a 1) ∧
    (∀ (all w64 : Bool), Ready s c k (w w64) [b, .zero] → Done (.matchT k all w64 a b) s c k a 1) ∧
    (∀ (excl : Bool) (op : XOp) (ty : XTy), Ready s c k (xregs ty) [b, .zero] → op.okFor ty = true →
      Done (.redt k op ty a b) s c k a (xregs ty) ∧ Done (.scant k excl op ty a b) s c k a (xregs ty))

/-- R426, R431: FFMA rounds B × C + D once; FDOT2 rounds the sum of two products and an FP32 addend once. The NaN cases stand in the
order of R426, infinities that cancel give a NaN with invalid, others an infinity, and an exact zero has the sign of the zero rule. -/
def Obligations.FloatFused : Prop :=
  ∀ (s : State) (c : Cur) (k : Ctl) (fmt : FFmt) (pf : PFmt) (md : Rnd4) (a b d e : Opnd), Ready s c k 1 [b, d] →
    let f := ffOf fmt
    let src (o : Opnd) (j : Nat) : Val := f.value (s.rd c (.fp fmt) 1 o j).toNat
    let half (o : Opnd) (j n : Nat) : Val := (pfOf pf).value ((s.rd32 c o j).toNat / 2 ^ (16 * n))
    Computes (.ffma k fmt md a b d e) s c k a 1 1 [b, d] (fun j r g => Fuses f md (src b j) (src d j) (src e j) r g) ∧
    Computes (.fdot2 k pf md a b d e) s c k a 1 1 [b, d] (fun j r g =>
      let x := half b j
      let y := half d j
      let z : Val := ffF32.value (s.rd32 c e j).toNat
      let sig := (x 0).isSig || (x 1).isSig || (y 0).isSig || (y 1).isSig || z.isSig
      let noNan := ∀ n < 2, (x n).isNan = false ∧ (y n).isNan = false
      let bad := ∃ n < 2, ZeroTimesInf (x n) (y n)
      let infinite (neg : Bool) : Prop := (∃ n < 2, InfProduct (x n) (y n) ∧ ((x n).neg != (y n).neg) = neg) ∨ z = .inf neg
      let zeros (neg : Bool) : Prop :=
        (∀ n < 2, ((x n).isZero ∨ (y n).isZero) ∧ ((x n).neg != (y n).neg) = neg) ∧ z.isZero ∧ z.neg = neg
      (¬ noNan → IsNaN ffF32 sig r g) ∧
      (noNan → bad → IsNaN ffF32 true r g) ∧
      (noNan → ¬ bad → z.isNan → IsNaN ffF32 sig r g) ∧
      (noNan → ¬ bad → z.isNan = false → (infinite true → infinite false → IsNaN ffF32 true r g) ∧
        ∀ neg, infinite neg → ¬ infinite (!neg) → IsInf ffF32 neg r g) ∧
      ((∀ n < 2, Finite (x n) ∧ Finite (y n)) → Finite z → ∃ neg m q,
        ratOf (.num neg m q) = ratOf (x 0) * ratOf (y 0) + ratOf (x 1) * ratOf (y 1) + ratOf z ∧
        Rounds ffF32 md (.num neg m q) r g ∧
        (m = 0 → (∀ sg, zeros sg → neg = sg) ∧ ((∀ sg, ¬ zeros sg) → neg = (md == .rd)))))

/-- R427, R428, R433, R434: FMIN, FMAX, FCMP, FCLASS and FRND. -/
def Obligations.FloatOrderAndClass : Prop :=
  ∀ (s : State) (c : Cur) (k : Ctl) (fmt : FFmt) (md : Rnd4) (cmp : FCmp) (nan x : Bool) (a b d : Opnd), Ready s c k 1 [b, d] →
    let f := ffOf fmt
    let u (j : Nat) : Nat := (s.rd c (.fp fmt) 1 b j).toNat % 2 ^ (f.mbits + 1)
    let v (j : Nat) : Nat := (s.rd c (.fp fmt) 1 d j).toNat % 2 ^ (f.mbits + 1)
    let holds (p q : Val) : Prop :=
      let ordered := p.isNan = false ∧ q.isNan = false
      match cmp with
      | .eq => ordered ∧ AtMost p q ∧ AtMost q p
      | .ne => ¬ (ordered ∧ AtMost p q ∧ AtMost q p)
      | .lt => ordered ∧ ¬ AtMost q p
      | .le => ordered ∧ AtMost p q
      | .gt => ordered ∧ ¬ AtMost p q
      | .ge => ordered ∧ AtMost q p
      | .un => ¬ ordered
      | .or => ordered
    let quietBad : Bool := match cmp with | .lt => true | .le => true | .gt => true | .ge => true | _ => false
    Computes (.fmin k fmt nan a b d) s c k a 1 1 [b, d] (fun j r g => Picks f true nan (u j) (v j) r g) ∧
    Computes (.fmax k fmt nan a b d) s c k a 1 1 [b, d] (fun j r g => Picks f false nan (u j) (v j) r g) ∧
    Computes (.fcmp k cmp fmt a b d) s c k a 1 1 [b, d] (fun j r g =>
      let p := f.value (u j)
      let q := f.value (v j)
      (holds p q → low32 r = 0xFFFFFFFF) ∧ (¬ holds p q → low32 r = 0) ∧
      g = if p.isSig || q.isSig || (quietBad && (p.isNan || q.isNan)) then fInvalid else 0) ∧
    (Ready s c k 1 [b, .zero] →
      Computes (.fclass k fmt a b) s c k a 1 1 [b, .zero] (fun j r g => g = 0 ∧
        let neg := 2 ^ f.mbits ≤ u j
        let ex := u j / 2 ^ f.fbits % 2 ^ f.ebits
        let fr := u j % 2 ^ f.fbits
        let bit : Nat :=
          if ex = 2 ^ f.ebits - 1 then
            if fr = 0 then (if neg then 0 else 7) else if fr < 2 ^ (f.fbits - 1) then 8 else 9
          else if ex ≠ 0 then (if neg then 1 else 6)
          else if fr ≠ 0 then (if neg then 2 else 5)
          else if neg then 3 else 4
        r = BitVec.ofNat 128 (2 ^ bit)) ∧
      Computes (.frnd k fmt md x a b) s c k a 1 1 [b, .zero] (fun j r g =>
        let p := f.value (u j)
        (p.isNan → IsNaN f p.isSig r g) ∧
        (∀ sp, p = .inf sp → IsInf f sp r g) ∧
        (Finite p → ∃ n : Nat, ratOf (f.value r.toNat) = (if p.neg then -(n : Rat) else n) ∧
          r.getLsbD f.mbits = p.neg ∧ |ratOf p - ratOf (f.value r.toNat)| < 1 ∧
          g = (if x ∧ ratOf (f.value r.toNat) ≠ ratOf p then fInexact else 0) ∧
          match md with
          | .rn => 2 * |ratOf p - ratOf (f.value r.toNat)| ≤ 1 ∧ (2 * |ratOf p - ratOf (f.value r.toNat)| = 1 → n % 2 = 0)
          | .rz => |ratOf (f.value r.toNat)| ≤ |ratOf p|
          | .rd => ratOf (f.value r.toNat) ≤ ratOf p
          | .ru => ratOf p ≤ ratOf (f.value r.toNat))))

/-- R429, R430: the special functions complete, with the results and flags of R430 for special inputs. FRCP, FRSQ and FSQRT of other
inputs are rounded once. FEX2, FLG2, FSIN, FCOS and FTANH give what the format holds exactly; of other inputs they give one of the
two members that R429 allows, as the model's series names them, the same every time. -/
def Obligations.SpecialFunctions : Prop :=
  ∀ (s : State) (c : Cur) (k : Ctl) (fmt : FFmt) (md : Rnd4) (a b : Opnd), Ready s c k 1 [b, .zero] →
    let f := ffOf fmt
    let x (j : Nat) : Val := f.value (s.rd c (.fp fmt) 1 b j).toNat
    let special (i : Instr) (v : Val → Quad → Flags → Prop) : Prop :=
      Computes i s c k a 1 1 [b, .zero] fun j r g => ((x j).isNan → IsNaN f (x j).isSig r g) ∧ v (x j) r g
    let code (n : Nat) (fl : Flags) (r : Quad) (g : Flags) : Prop := r = BitVec.ofNat 128 n ∧ g = fl
    let exactly (v : Val) (r : Quad) (g : Flags) : Prop := Rounds f .rn v r g ∧ g = 0
    let one (neg : Bool) : Quad → Flags → Prop := exactly (.num neg 1 0)
    let mag (m : Nat) (e : Int) : ℝ := m * (2 : ℝ) ^ e
    special (.frcp k fmt md a b) (fun v r g =>
      (∀ n e, v = .num n 0 e → code (f.inf n) fDivzero r g) ∧ (∀ n, v = .inf n → code (f.sign n) 0 r g) ∧
      (∀ n m e, v = .num n m e → m ≠ 0 → RoundsReal f md n (1 / mag m e) r g)) ∧
    special (.frsq k fmt md a b) (fun v r g =>
      (∀ n e, v = .num n 0 e → code (f.inf n) fDivzero r g) ∧ (v = .inf false → code 0 0 r g) ∧
      (v.neg = true → v.isZero = false → IsNaN f true r g) ∧
      (∀ m e, v = .num false m e → m ≠ 0 → RoundsReal f md false (1 / Real.sqrt (mag m e)) r g)) ∧
    special (.fsqrt k fmt md a b) (fun v r g =>
      (∀ n e, v = .num n 0 e → code (f.sign n) 0 r g) ∧ (v = .inf false → code (f.inf false) 0 r g) ∧
      (v.neg = true → v.isZero = false → IsNaN f true r g) ∧
      (∀ m e, v = .num false m e → m ≠ 0 → RoundsReal f md false (Real.sqrt (mag m e)) r g)) ∧
    special (.fex2 k fmt a b) (fun v r g =>
      (v.isZero → one false r g) ∧ (v = .inf true → code 0 0 r g) ∧ (v = .inf false → code (f.inf false) 0 r g) ∧
      (∀ z : Int, Finite v → ratOf v = z → (f.qmin ≤ z → z ≤ f.bias → exactly (.num false 1 z) r g) ∧
        (f.bias < z → code (f.inf false) (fOverflow ||| fInexact) r g)) ∧
      (∀ n m e, v = .num n m e → ∃ up, code (f.ex2 up n m e).1 (f.ex2 up n m e).2 r g)) ∧
    special (.flg2 k fmt a b) (fun v r g =>
      (v.isZero → code (f.inf true) fDivzero r g) ∧ (v = .inf false → code (f.inf false) 0 r g) ∧
      (v.neg = true → v.isZero = false → IsNaN f true r g) ∧
      (∀ z : Int, ratOf v = (2 : Rat) ^ z → exactly (Val.ofInt z) r g) ∧
      (∀ m e, v = .num false m e → m ≠ 0 → ∃ up, code (f.lg2 up m e).1 (f.lg2 up m e).2 r g)) ∧
    special (.fsin k fmt a b) (fun v r g =>
      (v.isInf → IsNaN f true r g) ∧
      (∀ z : Int, ratOf v = z + 1 / 2 → one (z % 2 == 1) r g) ∧
      (∀ n m e, v = .num n m e → ((∃ z : Int, ratOf v = z) → code (f.sign n) 0 r g) ∧
        ∃ up, code (f.sinPi up n m e).1 (f.sinPi up n m e).2 r g)) ∧
    special (.fcos k fmt a b) (fun v r g =>
      (v.isInf → IsNaN f true r g) ∧
      (∀ z : Int, ratOf v = z + 1 / 2 → code 0 0 r g) ∧
      (∀ n m e, v = .num n m e → (∀ z : Int, ratOf v = z → one (z % 2 == 1) r g) ∧
        ∃ up, code (f.cosPi up m e).1 (f.cosPi up m e).2 r g)) ∧
    special (.ftanh k fmt a b) (fun v r g =>
      (∀ n, v = .inf n → one n r g) ∧ (∀ n e, v = .num n 0 e → code (f.sign n) 0 r g) ∧
      (∀ n m e, v = .num n m e → m ≠ 0 → ∃ up, code (f.tanh up n m e).1 (f.tanh up n m e).2 r g))

/-- R144, R145: what a finite value is delivered as. Without overflow, its magnitude code is the rounding of the exact
magnitude by the mode, and inexact is set exactly when the two differ. -/
def Obligations.RoundingIsExact : Prop :=
  ∀ (fmt : FFmt) (md : Rnd4) (neg : Bool) (m : Nat) (e : Int), m ≠ 0 →
    let f := ffOf fmt
    let x : ℝ := m * (2 : ℝ) ^ e
    let r := f.deliver (rndMode4 md) false (.num neg m e)
    r.2.getLsbD 2 = false →
      IsRound f md neg x (r.1 % 2 ^ f.mbits) ∧ r.1 / 2 ^ f.mbits = (if neg then 1 else 0) ∧
      (r.2.getLsbD 4 = true ↔ magOf f (r.1 % 2 ^ f.mbits) ≠ x)

/-- R429: FRCP, FRSQ and FSQRT of a finite positive magnitude are correctly rounded in every mode. -/
def Obligations.RootsAreRounded : Prop :=
  ∀ (fmt : FFmt) (md : Rnd4) (code m : Nat) (neg : Bool) (e : Int),
    let f := ffOf fmt
    let x : ℝ := m * (2 : ℝ) ^ e
    let fn (g : Sfn) : Nat × Flags := sfn g fmt (rndMode4 md) code
    f.value code = .num neg m e → m ≠ 0 →
      ((fn .rcp).2.getLsbD 2 = false → IsRound f md neg (1 / x) ((fn .rcp).1 % 2 ^ f.mbits)) ∧
      (neg = false → IsRound f md false (Real.sqrt x) ((fn .sqrt).1 % 2 ^ f.mbits)) ∧
      (neg = false → IsRound f md false (1 / Real.sqrt x) ((fn .rsq).1 % 2 ^ f.mbits))

/-! ### Class 0x4: packed arithmetic and conversion -/

/-- R477, R426, R433: the packed instructions give in each half what the unpacked one gives of that half, and the OR of the two
halves' flags. -/
def Obligations.PackedHalves : Prop :=
  ∀ (s : State) (c : Cur) (k : Ctl) (fmt : PFmt) (md : Rnd4) (a b d e : Opnd), Ready s c k 1 [b, d] →
    let f := pfOf fmt
    let half (o : Opnd) (j n : Nat) : Nat := (s.rd c (.fpPacked fmt) 1 o j).toNat / 2 ^ (16 * n) % 2 ^ 16
    let both (i : Instr) (v : Nat → Nat → Quad → Flags → Prop) : Prop :=
      Computes i s c k a 1 1 [b, d] fun j r g => ∃ g0 g1, g = g0 ||| g1 ∧
        v j 0 (BitVec.ofNat 128 (r.toNat % 2 ^ 16)) g0 ∧ v j 1 (BitVec.ofNat 128 (r.toNat / 2 ^ 16)) g1
    both (.padd k fmt md a b d) (fun j n r g => Adds f md (f.value (half b j n)) (f.value (half d j n)) r g) ∧
    both (.pmul k fmt md a b d) (fun j n r g => Multiplies f md (f.value (half b j n)) (f.value (half d j n)) r g) ∧
    both (.pfma k fmt md a b d e) (fun j n r g =>
      Fuses f md (f.value (half b j n)) (f.value (half d j n)) (f.value (half e j n)) r g) ∧
    both (.pmin k fmt a b d) (fun j n r g => Picks f true false (half b j n) (half d j n) r g) ∧
    both (.pmax k fmt a b d) (fun j n r g => Picks f false false (half b j n) (half d j n) r g)

/-- R419, R420, R148, R150: CVT and CVTS. A NaN becomes the canonical NaN, or 0 with invalid in an integer format; an infinity
saturates, overflows or stays; an integer source is exact; an integer destination is clamped, with invalid. CVT and CVTS
differ only where the value exceeds the destination's range. -/
def Obligations.Conversions : Prop :=
  ∀ (s : State) (c : Cur) (k : Ctl) (dst src : Fmt) (md : Rnd) (a b d e : Opnd), Ready s c k 1 [b, d] →
    let v (j : Nat) : Val := fmtValue src (s.rd c .int 1 d j).toNat (s.rd c .int (fmtRegs src) b j).toNat
    let any (sat : Bool) (j : Nat) (r : Quad) (g : Flags) : Prop :=
      (∀ f, binaryOf dst = some f →
        ((v j).isNan → r = BitVec.ofNat 128 f.canon ∧ g = if (v j).isSig then fInvalid else 0) ∧
        (∀ n, v j = .inf n → if sat then r = BitVec.ofNat 128 (f.sign n + f.maxCode) ∧ g = fOverflow ||| fInexact
          else if f.hasInf then r = BitVec.ofNat 128 (f.inf n) ∧ g = 0
          else r = BitVec.ofNat 128 f.canon ∧ g = fOverflow ||| fInexact) ∧
        (∀ n q, v j = .num n 0 q → r = BitVec.ofNat 128 (f.sign n) ∧ g = 0) ∧
        (∀ m4, rndMode 0 md = rndMode4 m4 → Finite (v j) → (f.deliver (rndMode4 m4) false (v j)).2.getLsbD 2 = false →
          Rounds f m4 (v j) r g)) ∧
      (∀ w, (dst = .ob8 ∧ w = 8) ∨ (dst = .ob4 ∧ w = 4) →
        let zero : Int := ((s.rd c .int 1 d j).toNat / 256 % 2 ^ w : Nat)
        ((v j).isNan → r = BitVec.ofInt 128 zero ∧ g = fInvalid) ∧
        (∀ z : Int, v j = Val.ofInt z → r = BitVec.ofInt 128 (max 0 (min (2 ^ w - 1) (z + zero))) ∧
          g = if 0 ≤ z + zero ∧ z + zero ≤ 2 ^ w - 1 then 0 else fOverflow ||| fInexact)) ∧
      (dst = .lns6 → ((v j).isNan → r = 0x20 ∧ g = if (v j).isSig then fInvalid else 0) ∧
        (∀ n q, v j = .num n 0 q → r = 0 ∧ g = 0)) ∧
      (∀ w sg, integerOf dst = some (w, sg) →
        ((v j).isNan → r = 0 ∧ g = fInvalid) ∧
        (∀ n, v j = .inf n → low64 r = BitVec.ofInt 64 (if n then (intRange w sg).1 else (intRange w sg).2) ∧ g = fInvalid) ∧
        (∀ z : Int, v j = Val.ofInt z →
          low64 r = BitVec.ofInt 64 (max (intRange w sg).1 (min (intRange w sg).2 z)) ∧
          g = if (intRange w sg).1 ≤ z ∧ z ≤ (intRange w sg).2 then 0 else fInvalid))
    Computes (.cvt k dst src md a b d e) s c k a (fmtRegs dst) 1 [b, d] (fun j r g => any false j r g) ∧
    Computes (.cvts k dst src md a b d e) s c k a (fmtRegs dst) 1 [b, d] (fun j r g => any true j r g)

/-- R486: QSCAL gives all its lanes the least scale under which the largest magnitude fits the format; a NaN or infinity gives
the NaN scale with invalid, all zeros the scale of one. -/
def Obligations.BlockScale : Prop :=
  ∀ (s : State) (c : Cur) (k : Ctl) (fmt : Fmt) (a b : Opnd), s.cur? = some c →
    let p := s.parts c k
    let v (j : Nat) : Val := ffF32.value (s.rd32 c b j).toNat
    let part (j : Nat) : Prop := j < 32 ∧ p.getLsbD j = true
    let top : Rat := (largestOf fmt).1 * (2 : Rat) ^ (largestOf fmt).2
    ∃ t n g, exec (.qscal k fmt a b) s = .next t ∧ Ran s t c k a 1 p (fun _ => BitVec.ofNat 128 n) noTag g ∧
      ((∃ j, part j ∧ ¬ Finite (v j)) → n = 0x3FC ∧ g = fInvalid) ∧
      ((∀ j, part j → Finite (v j)) → g = 0 ∧
        ((∀ j, part j → ratOf (v j) = 0) → n = 0x1FC) ∧
        ((∃ j, part j ∧ ratOf (v j) ≠ 0) → n < 1020 ∧
          (∀ j, part j → |ratOf (v j)| ≤ top * ratOf (scaleValue n)) ∧
          (∀ m < n, ∃ j, part j ∧ top * ratOf (scaleValue m) < |ratOf (v j)|)))

/-! ### Class 0x5: cross-lane -/

/-- R42, R43, R458, R478, R502, R510: PART, SHFL, VOTE and MATCH within tiles of s lanes; only participating lanes count, and a
source lane that does not participate gives what its register holds. -/
def Obligations.CrossLane : Prop :=
  ∀ (s : State) (c : Cur) (k : Ctl) (w64 all : Bool) (mode : ShflMode) (fn : VoteFn) (a b d : Opnd) (w : Nat),
    w = (if w64 then 2 else 1) → s.cur? = some c → 0 < c.wave.s →
    let p := s.parts c k
    let n := c.wave.s
    let mate (i j : Nat) : Prop := j < 32 ∧ p.getLsbD j = true ∧ j / n = i / n
    let x (j : Nat) : Word := s.rd32 c b j
    let y (j : Nat) : Nat := (s.rd32 c d j).toNat
    (Ready s c k 1 [b, d] → Computes (.shfl k w64 mode a b d) s c k a w 1 [b, d] fun i r g => g = 0 ∧
      let l := i % n
      let from' : Nat := match mode with
        | .idx => i - l + y i % n
        | .up => if y i ≤ l then i - y i else i
        | .down => if l + y i < n then i + y i else i
        | .xor => i - l + (l ^^^ (y i % n))
      low64 r = s.rd c .int w b from') ∧
    (Ready s c k 1 [b, .zero] → Computes (.vote k fn a b) s c k a 1 1 [b, .zero] fun i r g => g = 0 ∧
      match fn with
      | .any => low32 r = 0xFFFFFFFF ∧ (∃ j, mate i j ∧ x j ≠ 0) ∨ low32 r = 0 ∧ ∀ j, mate i j → x j = 0
      | .all => low32 r = 0xFFFFFFFF ∧ (∀ j, mate i j → x j ≠ 0) ∨ low32 r = 0 ∧ ∃ j, mate i j ∧ x j = 0
      | .eq => low32 r = 0xFFFFFFFF ∧ ((∀ j, mate i j → x j ≠ 0) ∨ ∀ j, mate i j → x j = 0) ∨
          low32 r = 0 ∧ (∃ j, mate i j ∧ x j = 0) ∧ ∃ j, mate i j ∧ x j ≠ 0
      | .ballot => ∀ j < 32, (low32 r).getLsbD j = true ↔ mate i j ∧ x j ≠ 0) ∧
    (Ready s c k w [b, .zero] → Computes (.matchT k all w64 a b) s c k a 1 w [b, .zero] fun i r g => g = 0 ∧
      let v (j : Nat) : Dword := s.rd c .int w b j
      (all = false → ∀ j < 32, (low32 r).getLsbD j = true ↔ mate i j ∧ v j = v i) ∧
      (all = true → ((∀ j, mate i j → v j = v i) → ∀ j < 32, (low32 r).getLsbD j = true ↔ mate i j) ∧
        ((∃ j, mate i j ∧ v j ≠ v i) → low32 r = 0))) ∧
    (ByWave s c k →
      (∀ v, (∀ i < 32, p.getLsbD i = true → (x i).toNat = v) → v = 2 ∨ v = 4 ∨ v = 8 ∨ v = 16 ∨ v = 32 →
        ∃ u, exec (.part k b) s = .next (s.setWave c.bid c.wid u) ∧ Moved c.wave u c.active ∧ KeepsRegs c.wave u ∧
          u.s = if p = 0 then n else v) ∧
      ((∃ i j, i < 32 ∧ p.getLsbD i = true ∧ j < 32 ∧ p.getLsbD j = true ∧ x i ≠ x j) ∨
        (∃ i < 32, p.getLsbD i = true ∧ x i ∉ [2#32, 4#32, 8#32, 16#32, 32#32]) →
        exec (.part k b) s = .next (s.raise c 0x02 1)))

/-- R43, R491, R498: REDT folds the participating lanes of a tile in ascending order and gives the result to each of them;
SCANT gives each the fold up to itself or, under .excl, up to the lane before it, the lowest receiving the identity. In FP32
each addition is rounded to nearest. -/
def Obligations.Reductions : Prop :=
  ∀ (s : State) (c : Cur) (k : Ctl) (excl : Bool) (op : XOp) (ty : XTy) (a b : Opnd) (w : Nat), w = xregs ty →
    Ready s c k w [b, .zero] → 0 < c.wave.s → op.okFor ty = true →
    let p := s.parts c k
    let tile (i : Nat) : List Nat := (List.range 32).filter fun j => p.getLsbD j && j / c.wave.s == i / c.wave.s
    let v (j : Nat) : Dword := s.rd c .int w b j
    let step (r x : Dword) : Dword := match ty, op with
      | .f32, .add => BitVec.ofNat 64 (ffF32.add .rn r.toNat x.toNat).1
      | .f32, .min => BitVec.ofNat 64 (ffF32.pick false false r.toNat x.toNat).1
      | .f32, .max => BitVec.ofNat 64 (ffF32.pick true false r.toNat x.toNat).1
      | _, _ => intStep op ty r x
    let fold (l : List Nat) (z : Dword) : Prop := ∃ h t, l = h :: t ∧ z = (t.map v).foldl step (v h)
    let least : Dword := match op, ty with
      | .min, .n64 => BitVec.allOnes 64 | .min, .n32 => 0xFFFFFFFF | .min, .i32 => 0x7FFFFFFF | .min, .f32 => 0x7F800000
      | .max, .i32 => 0x80000000 | .max, .f32 => 0xFF800000 | .and, .n64 => BitVec.allOnes 64 | .and, _ => 0xFFFFFFFF
      | _, _ => 0
    Computes (.redt k op ty a b) s c k a w w [b, .zero] (fun i r g => (ty ≠ .f32 → g = 0) ∧ fold (tile i) (low64 r)) ∧
    Computes (.scant k excl op ty a b) s c k a w w [b, .zero] (fun i r g => (ty ≠ .f32 → g = 0) ∧
      (excl = false → fold ((tile i).filter (· ≤ i)) (low64 r)) ∧
      (excl = true → ((tile i).filter (· < i) ≠ [] → fold ((tile i).filter (· < i)) (low64 r)) ∧
        ((tile i).filter (· < i) = [] → low64 r = least)))

/-- R53, R54, R422, R423: ELECT makes the lowest participating lane of each tile its leader and puts the others to sleep on it
at the target, which must have its target bit; ELEND wakes the sleepers of its participating lanes that stand at the slot after
it. No register changes. -/
def Obligations.LeaderSections : Prop :=
  ∀ (s : State) (c : Cur) (k : Ctl) (off : BitVec 18), ByWave s c k → 0 < c.wave.s →
    let p := s.parts c k
    let slot : Int := 5 * (c.pc.toNat / 64 : Nat) + (c.pc.toNat % 64 / 12 : Nat) + off.toInt
    let goal : Int := 64 * (slot / 5) + 12 * (slot % 5)
    (p ≠ 0 → (slot < 0 ∨ 2 ^ 57 ≤ goal) → exec (.elect k off) s = .next (s.raise c 0x05 0xFF)) ∧
    (p ≠ 0 → 0 ≤ slot → goal < 2 ^ 57 → (∀ n, s.entryBad c (BitVec.ofInt 57 goal) = some n →
      exec (.elect k off) s = .next (s.raise c 0x05 n))) ∧
    ((p = 0 ∨ 0 ≤ slot ∧ goal < 2 ^ 57 ∧ s.entryBad c (BitVec.ofInt 57 goal) = none) →
      ∃ u, exec (.elect k off) s = .next (s.setWave c.bid c.wid u) ∧ KeepsRegs c.wave u ∧
        ∀ i < 32,
          (∀ j, p.getLsbD i = true → IsLeader c.wave.s p i j → i ≠ j →
            (u.lane i).pc = BitVec.ofInt 57 goal ∧ (u.lane i).st = .sleeping j) ∧
          (p.getLsbD i = false ∨ IsLeader c.wave.s p i i → (u.lane i).st = (c.wave.lane i).st ∧
            (u.lane i).pc = if c.active.getLsbD i = true then succPc (c.wave.lane i).pc else (c.wave.lane i).pc)) ∧
    (∃ u, exec (.elend k) s = .next (s.setWave c.bid c.wid u) ∧ KeepsRegs c.wave u ∧ ∀ i < 32,
      (u.lane i).pc = (if c.active.getLsbD i = true then succPc (c.wave.lane i).pc else (c.wave.lane i).pc) ∧
      (∀ j, (c.wave.lane i).st = .sleeping j → c.active.getLsbD i = false →
        (u.lane i).st = if p.getLsbD j = true ∧ (c.wave.lane i).pc = succPc c.pc then .live else .sleeping j) ∧
      ((∀ j, (c.wave.lane i).st ≠ .sleeping j) → (u.lane i).st = (c.wave.lane i).st))

/-! ### Class 0x0: control -/

/-- R14, R37, R88, R301, R405, R407, R408, R492: BRA, BRX, CALL, CALLX and RET. When every participating lane's target can be
fetched, those lanes stand there and the other active lanes at the next slot; CALL and CALLX leave the link. A target out of the
address space traps and moves no lane. -/
def Obligations.Transfers : Prop :=
  ∀ (s : State) (c : Cur) (k : Ctl) (a b : Opnd) (off : BitVec 18), ByWave s c k →
    let p := s.parts c k
    let slot : Int := 5 * (c.pc.toNat / 64 : Nat) + (c.pc.toNat % 64 / 12 : Nat) + off.toInt
    let goal : Int := 64 * (slot / 5) + 12 * (slot % 5)
    let held (dest : Nat → Pc) : Prop := ∀ i < 32, p.getLsbD i = true → ∃ sa l, s.transfer c.core c.ctx (dest i).toNat = .ok sa l
    let goes (i : Instr) (dest : Nat → Pc) (link : Bool) : Prop := ∃ (t : State) (u : Wave),
      exec i s = .next (t.setWave c.bid c.wid u) ∧
      t = { s with cores := t.cores } ∧ (∀ n, t.core n = { s.core n with icache := (t.core n).icache }) ∧
      Wrote c.wave u (if link then a else .zero) 2 p (fun i => q64 ((succPc (c.wave.lane i).pc).setWidth 64)) noTag ∧
      ∀ i < 32, (u.lane i).st = (c.wave.lane i).st ∧
        (u.lane i).pc = if p.getLsbD i = true then dest i
          else if c.active.getLsbD i = true then succPc (c.wave.lane i).pc else (c.wave.lane i).pc
    let reg (i : Nat) : Pc := (s.rd64 c b i).setWidth 57
    (0 ≤ slot → goal < 2 ^ 57 → held (fun _ => BitVec.ofInt 57 goal) →
      goes (.bra k off) (fun _ => BitVec.ofInt 57 goal) false ∧ goes (.call k a off) (fun _ => BitVec.ofInt 57 goal) true) ∧
    (p ≠ 0 → slot < 0 ∨ 2 ^ 57 ≤ goal → exec (.bra k off) s = .next (s.raise c 0x05 0xFF) ∧
      exec (.call k a off) s = .next (s.raise c 0x05 0xFF)) ∧
    (held reg → goes (.brx k b) reg false ∧ goes (.ret k b) reg false ∧ goes (.callx k a b) reg true)

/-- R34, R52, R54, R424, R476, R504, R513: NOP, YIELD, SLEEP and EXIT outside a region. EXIT ends its lanes and wakes their
sleepers while another lane of the block is left. -/
def Obligations.NopYieldSleepExit : Prop :=
  ∀ (s : State) (c : Cur) (k : Ctl) (b : Opnd), ByWave s c k →
    let p := s.parts c k
    (∃ u, exec (.nop k) s = .next (s.setWave c.bid c.wid u) ∧ Moved c.wave u c.active ∧ KeepsRegs c.wave u) ∧
    (∃ u, exec (.yieldI k) s = .next (s.setWave c.bid c.wid u) ∧ Moved c.wave u c.active ∧ KeepsRegs c.wave u ∧
      (p ≠ 0 → u.yielded = true)) ∧
    (Ready s c k 1 [b] → ∃ u, exec (.sleep k b) s = .next (s.setWave c.bid c.wid u) ∧ KeepsRegs c.wave u ∧ ∀ i < 32,
      (u.lane i).pc = (if c.active.getLsbD i = true then succPc (c.wave.lane i).pc else (c.wave.lane i).pc) ∧
      (u.lane i).st = if p.getLsbD i = true ∧ s.rd32 c b i ≠ 0
        then .blocked (.sleep (s.clk + (s.rd32 c b i).setWidth 64)) else (c.wave.lane i).st) ∧
    (c.wave.inRegion = false → (∃ i < 32, p.getLsbD i = false ∧ (c.wave.lane i).isExited = false) →
      ∃ u, exec (.exit k) s = .next (s.setWave c.bid c.wid u) ∧ KeepsRegs c.wave u ∧ ∀ i < 32,
        (p.getLsbD i = true → (u.lane i).st = .exited ∧ (u.lane i).pc = (c.wave.lane i).pc) ∧
        (p.getLsbD i = false →
          (u.lane i).pc = (if c.active.getLsbD i = true then succPc (c.wave.lane i).pc else (c.wave.lane i).pc) ∧
          (∀ j, (c.wave.lane i).st = .sleeping j → (u.lane i).st = if p.getLsbD j = true then .live else .sleeping j) ∧
          ((∀ j, (c.wave.lane i).st ≠ .sleeping j) → (u.lane i).st = (c.wave.lane i).st)))

/-! ### Traps -/

/-- R15, R123, R496, R166: a wave that takes a trap outside trap mode, under an enabled handler, stands in the handler in its
trapped lanes, with cause and PC saved and the price returned; else its block fails. -/
def Obligations.TrapEntry : Prop :=
  ∀ (s : State) (b i : Nat) (blk : Block) (w : Wave) (active : LaneSet) (kind detail price : Nat) (at? : Option Pc),
    s.block? b = some blk → blk.wave? i = some w →
    let pc : Pc := at?.getD (w.lane ((lowLane active).getD 0)).pc
    let t := s.takeTrap b i active kind detail price at?
    let entry : Pc := BitVec.ofNat 57 ((s.ctx blk.ctx).trap.toNat / 64 % 2 ^ 51 * 64)
    let saves (u : Wave) : Prop := u.trapped = active ∧ u.trapPc = pc ∧ u.opStore = [] ∧
      u.trapCause = BitVec.ofNat 32 (detail % 256 * 256 + kind) ∧ (w.pend = [] → KeepsRegs w u)
    ((s.ctx blk.ctx).trap.getLsbD 0 = true → w.trapMode = false → ∃ u, t.wave? b i = some u ∧ saves u ∧ u.trapMode = true ∧
      (∀ j < 32, (u.lane j).st = (w.lane j).st ∧
        (u.lane j).pc = if active.getLsbD j = true then entry else (w.lane j).pc) ∧
      (t.core (coreOf b)).bucket = min 16384 ((s.core (coreOf b)).bucket + price) ∧
      t.gov.paid = s.gov.paid - price ∧ KeepsBytes s t) ∧
    ((s.ctx blk.ctx).trap.getLsbD 0 = false ∨ w.trapMode = true →
      ∃ (s1 : State) (u : Wave), t = s1.failBlock b ∧ s1.wave? b i = some u ∧ saves u ∧ u.trapMode = w.trapMode ∧ ∀ j < 32,
        (u.lane j).st = (w.lane j).st ∧ (u.lane j).pc = (w.lane j).pc)

/-- R404, R497, R509: TRAP and BKPT trap if a lane participates, else pass; RTT outside trap mode is illegal, and in trap mode
its trapped live lanes go on at the saved PC, or at the slot after it, whose line is fetched. -/
def Obligations.TrapInstructions : Prop :=
  ∀ (s : State) (c : Cur) (k : Ctl) (blk : Block) (code : BitVec 8) (skip : Bool), OfWave s c blk → k.la = 0 →
    let p := s.parts c k
    (p ≠ 0 → exec (.trap k code) s = .next (s.takeTrap c.bid c.wid c.active 0x0B code.toNat c.price) ∧
      exec (.bkpt k) s = .next (s.takeTrap c.bid c.wid c.active 0x0C 0 c.price)) ∧
    (p = 0 → (∃ t, exec (.trap k code) s = .next t ∧ Went t c c.active) ∧ ∃ t, exec (.bkpt k) s = .next t ∧ Went t c c.active) ∧
    (c.wave.trapMode = false → exec (.rtt k skip) s = .next (s.takeTrap c.bid c.wid c.active 0x01 0 c.price)) ∧
    (c.wave.trapMode = true →
      let ret : Pc := if skip then succPc c.wave.trapPc else c.wave.trapPc
      (∃ sa l, s.transfer c.core c.ctx ret.toNat = .ok sa l) →
      ∃ (t : State) (w : Wave), exec (.rtt k skip) s = .next (t.setWave c.bid c.wid w) ∧
        t = { s with cores := t.cores } ∧ (∀ n, t.core n = { s.core n with icache := (t.core n).icache }) ∧
        KeepsRegs c.wave w ∧ w.trapMode = false ∧ w.trapped = 0 ∧
        ∀ i < 32, (w.lane i).st = (c.wave.lane i).st ∧
          (w.lane i).pc = if c.wave.trapped.getLsbD i = true ∧ (c.wave.lane i).st = .live then ret else (c.wave.lane i).pc)

/-! ### Class 0x6: memory -/

/-- R204, R226, R227, R453: LDP, and a parameter operand of MOV. A read that fits its window gives the window's bytes, each aligned
word one of those that R227 allows; in an aperture LDP gives what stands there. One out of bounds traps with the window's number, or
gives zero and sets param_bound. LDP checks alignment first, the apertures' bounds last. -/
def Obligations.ParameterReads : Prop :=
  ∀ (s : State) (c : Cur) (k : Ctl) (w64 : Bool) (win : BitVec 3) (off : BitVec 15) (a b : Opnd) (n : Nat),
    n = (if w64 then 2 else 1) → s.cur? = some c →
    let p := s.parts c k
    let part (j : Nat) : Prop := j < 32 ∧ p.getLsbD j = true
    let window : Param := lget { bound := false, base := 0, size := 0 } c.params win.toNat
    let fits (o : Nat) : Prop := window.bound = true ∧ o + 4 * n ≤ window.size
    let here (o : Nat) (y : Nat → Byte) : Prop := ∀ j < 4 * n, let va := window.base + o + j
      s.paramByte c.ctx va = some (y j) ∧ (s.isLocal va = true → ∃ leaf, s.translate c.ctx va .read = .ok leaf ∧
        window.frameOf va = some leaf.sa ∧ tget 0 window.held va = y j)
    let reads (o : Nat) (r : Quad) : Prop :=
      (∀ y, here o y → ∀ j < 4 * n, r.extractLsb' (8 * j) 8 = y j) ∧
      ∀ j < n, let may := s.paramMay c.ctx window (window.base + o + 4 * j)
        wordAt r j ∈ may ∨ may = [] ∧ wordAt r j = 0
    let at' (j : Nat) : Nat := (s.rd32 c b j).toNat
    (∀ blk, OfWave s c blk →
      let place (j : Nat) : Steer := s.steer blk c.wid j (window.base + at' j : Nat) (4 * n)
      ((∃ j, part j ∧ at' j % (4 * n) ≠ 0) → exec (.ldp k w64 win a b) s = .next (s.raise c 0x07 0)) ∧
      ((∀ j, part j → at' j % (4 * n) = 0) →
        ((∃ j, part j ∧ ¬ fits (at' j)) → c.trapOnParam = true →
          exec (.ldp k w64 win a b) s = .next (s.raise c 0x0A win.toNat)) ∧
        ((∀ j, part j → fits (at' j)) ∨ c.trapOnParam = false →
          ((∃ j, part j ∧ fits (at' j) ∧ (place j).inside = false) → exec (.ldp k w64 win a b) s = .next (s.raise c 0x06 1)) ∧
          ((∀ j, part j → fits (at' j) → (place j).inside = true) →
            (∀ j, part j → s.ldpPoison c blk win.toNat (at' j) (4 * n) j = false) →
            s.wordStop c ((lanesOf p).flatMap fun j => s.ldpWords c blk win.toNat (at' j) (4 * n) j) = none →
            ∃ t f g, exec (.ldp k w64 win a b) s = .next t ∧ Ran s t c k a n p f noTag g ∧
              (∀ j, part j → fits (at' j) → match place j with
                | .global _ => reads (at' j) (f j)
                | .spad o _ => ∀ i < 4 * n, (f j).extractLsb' (8 * i) 8 = blk.spadByte (o + i)
                | .stack va _ => ∀ x, s.atOf c.ctx .read (.stack va true) = .ok x → (∀ va', x ≠ .peer va') →
                    ∀ i < 4 * n, (f j).extractLsb' (8 * i) 8 = byteAt s c blk x i) ∧
              (∀ j, part j → ¬ fits (at' j) → f j = 0) ∧
              ((∀ j, part j → fits (at' j)) → g = 0) ∧ ((∃ j, part j ∧ ¬ fits (at' j)) → g = fParamBound))))) ∧
    (p ≠ 0 → c.trapOnParam = true → ¬ fits off.toNat →
      exec (.mov k w64 a (.param win off)) s = .next (s.raise c 0x0A win.toNat)) ∧
    (fits off.toNat ∨ c.trapOnParam = false ∨ p = 0 → s.wordStop c (c.paramWords n (.param win off)) = none →
      ∃ t f g, exec (.mov k w64 a (.param win off)) s = .next t ∧ Ran s t c k a n p f noTag g ∧
        (∀ j, part j → if fits off.toNat then reads off.toNat (f j) else f j = 0) ∧
        (fits off.toNat → g = 0) ∧ (p ≠ 0 → ¬ fits off.toNat → g = fParamBound))

/-- R206, R207, R211, R223, R399, R451, R507, R511: the checks that LD, ST, ATOM, RED, WAITA and ACQP.cap make first, over all
participating lanes and in this order: the capability (tag, then bounds, then permission), alignment, the bounds of the
scratchpad and of the lane's stack. -/
def Obligations.AccessChecks : Prop :=
  ∀ (s : State) (c : Cur) (k : Ctl) (blk : Block) (size : LdSize) (ssize : StSize) (sc : Option Scope) (x : Scope) (xfer : Bool)
    (op : AOp) (rop : ROp) (w64 sg rel : Bool) (o : Order) (cmp : WCmp) (a b d e f : Opnd),
    s.cur? = some c → s.block? c.bid = some blk → s.paramTrap c (s.parts c k) 1 [d] = none →
    let part (j : Nat) : Prop := j < 32 ∧ (s.parts c k).getLsbD j = true
    let q (j : Nat) : Quad := c.quad b j
    let disp (j : Nat) : Int := (s.rd32 c d j).toInt
    let ea (cap : Bool) (j : Nat) : Int :=
      if cap then (q j).toNat % 2 ^ 57 + disp j else ((s.rd64 c b j) + BitVec.ofInt 64 (disp j)).toNat
    let within (z j : Nat) : Prop :=
      ((q j).toNat % 2 ^ 57 : Nat) ≤ ea true j ∧
        ea true j + z ≤ ((q j).toNat % 2 ^ 57 + (q j).toNat / 2 ^ 57 % 2 ^ 48 : Nat) ∧ ea true j + z ≤ 2 ^ 57
    let aper := (s.ctx blk.ctx).aper.toNat
    let inside (cap : Bool) (z j : Nat) : Prop :=
      let va := (ea cap j % 2 ^ 57).toNat
      if va / 2 ^ 30 = aper % 2 ^ 27 then va % 2 ^ 30 + z ≤ blk.spadSize
      else if va / 2 ^ 30 = aper / 2 ^ 34 % 2 ^ 27 then va % 2 ^ 30 + z ≤ recStackSize (s.launch blk.launch).record
      else True
    let checks (i : Instr) (cap : Bool) (bit z : Nat) : Prop :=
      let untagged := ∃ j, part j ∧ c.tag b j = false
      let outside := ∃ j, part j ∧ ¬ within z j
      let denied := ∃ j, part j ∧ (q j).getLsbD bit = false
      (cap = true → untagged → exec i s = .next (s.raise c 0x06 0)) ∧
      (cap = true → ¬ untagged → outside → exec i s = .next (s.raise c 0x06 1)) ∧
      (cap = true → ¬ untagged → ¬ outside → denied → exec i s = .next (s.raise c 0x06 2)) ∧
      ((cap = true → ¬ untagged ∧ ¬ outside ∧ ¬ denied) →
        ((∃ j, part j ∧ ea cap j % z ≠ 0) → exec i s = .next (s.raise c 0x07 0)) ∧
        ((∀ j, part j → ea cap j % z = 0) → (∃ j, part j ∧ ¬ inside cap z j) → exec i s = .next (s.raise c 0x06 1)))
    ∀ cap : Bool, checks (.ld k size sc cap xfer a b d) cap 105 (ldBytes size) ∧
      checks (.st k ssize sc cap xfer b d e) cap 106 (stBytes ssize) ∧
      checks (.atom k op w64 sg x o cap a b d e f) cap 107 (if w64 then 8 else 4) ∧
      checks (.red k rop w64 sg x rel cap b d e) cap 107 (if w64 then 8 else 4) ∧
      checks (.waita k cmp w64 sc cap b d e) cap 105 (if w64 then 8 else 4) ∧
      checks (.acqpCap k x b d) true 109 16

/-- R229, R241, R449, R450: LD of lanes whose places are in this package leaves in each lane the bytes at its place, extended
as its type says, and under capability transfer the tag of the quad; .acq.sys drops the copies of other packages' lines. -/
def Obligations.LoadReads : Prop :=
  ∀ (s : State) (c : Cur) (k : Ctl) (blk : Block) (size : LdSize) (acq : Option Scope) (cap xfer : Bool) (a b d : Opnd)
    (l : List (Nat × At)), OfWave s c blk → s.paramTrap c (s.parts c k) 1 [d] = none →
    Reaches s c blk (s.parts c k) cap capRead b d (ldBytes size) .read l → AllHere l → HomesAnswer s c (ldBytes size) l →
    Unpoisoned s c (ldBytes size) l →
    (xfer = true → size = .quad ∧ ∀ m, a = .lane m → m.toNat % 4 = 0) →
    ∃ t f tag, exec (.ld k size acq cap xfer a b d) s = .next t ∧
      Ran { s with peerCopies := if acq = some .sys then [] else s.peerCopies } t c k a (ldRegs size) (s.parts c k) f tag
        (s.paramFlags c (s.parts c k) 1 [d]) ∧
      ∀ i x, (i, x) ∈ l →
        (∀ j < ldBytes size, (f i).extractLsb' (8 * j) 8 = byteAt s c blk x j) ∧
        f i = (match size with
          | .i8 => (((f i).setWidth 8).signExtend 32).setWidth 128
          | .i16 => (((f i).setWidth 16).signExtend 32).setWidth 128
          | _ => ((f i).setWidth (8 * ldBytes size)).setWidth 128) ∧
        tag i = (xfer && match x with
          | .spad o => blk.spadTags.contains (o / 16)
          | .home _ leaf _ => leaf.tagged && s.viewTag c.core leaf.sa &&
              (List.range 16).all fun j => (c.wave.buffered (.home (leaf.sa + j))).isNone
          | .peer _ => false)

/-- R71, R210, R212, R225, R256, R506: ST outside a region, in this package. Every byte that a lane stores reads, for the lanes
of its core, as the data of the highest lane that stores it; every other byte reads as before; registers keep. A plain store
clears the tag of each quad that it touches, a transfer keeps the register quad's where R225 allows. -/
def Obligations.StoresWrite : Prop :=
  ∀ (s : State) (c : Cur) (k : Ctl) (blk : Block) (size : StSize) (rel : Option Scope) (cap xfer : Bool) (b d e : Opnd)
    (l : List (Nat × At)), OfWave s c blk → k.la = 0 → s.paramTrap c (s.parts c k) 1 [d] = none → c.wave.inRegion = false →
    Reaches s c blk (s.parts c k) cap capWrite b d (stBytes size) .write l → AllHere l → (xfer = true → size = .quad) →
    (∀ sc, rel = some sc → Released s c (s.parts c k) sc) →
    let z := stBytes size
    let data (i j : Nat) : Byte := lget 0 (s.stData c size e i) j
    ∃ t, exec (.st k size rel cap xfer b d e) s = .next t ∧ Went t c c.active ∧
      (∀ o, (∀ x ∈ l, ¬ CoversSpad z x.2 o) → spadAt t c.bid o = blk.spadByte o) ∧
      (∀ l1 i o l2, l = l1 ++ (i, .spad o) :: l2 → ∀ j < z, (∀ x ∈ l2, ¬ CoversSpad z x.2 (o + j)) →
        spadAt t c.bid (o + j) = data i j) ∧
      (∀ sa, (∀ x ∈ l, ¬ CoversHome z x.2 sa) → t.viewByte c.core sa = s.viewByte c.core sa) ∧
      (∀ n sa, (∀ x ∈ l, ¬ CoversHome z x.2 sa) →
        (t.viewByte n sa = s.viewByte n sa ∨ t.viewByte n sa = s.viewByte c.core sa) ∧
        (t.homeByte sa = s.homeByte sa ∨ t.homeByte sa = s.viewByte c.core sa)) ∧
      (∀ l1 i va leaf st l2, l = l1 ++ (i, .home va leaf st) :: l2 →
        (∀ j < z, (∀ x ∈ l2, ¬ CoversHome z x.2 (leaf.sa + j)) → t.viewByte c.core (leaf.sa + j) = data i j) ∧
        (xfer = false → ∀ j < z, t.viewTag c.core (leaf.sa + j) = false) ∧
        (xfer = true → (∀ y ∈ l, ∀ va' leaf' st', y.2 = .home va' leaf' st' → leaf'.sa % 16 = 0) →
          (∀ x ∈ l2, ¬ CoversHome z x.2 leaf.sa) →
          t.viewTag c.core leaf.sa = (c.tag e i && leaf.tagged && (c.quad e i).getLsbD 110)))

/-- R240 to R243, R493: RGN opens a region whose restart PC is the slot after it; in a region ST changes no memory, and every
load of the wave finds the latest buffered byte; RGNC performs the buffered stores in program order and closes the region. -/
def Obligations.Regions : Prop :=
  ∀ (s : State) (c : Cur) (k : Ctl) (blk : Block), OfWave s c blk → k.la = 0 → c.wave.trapMode = false →
    (∀ n, s.entryBad c (succPc c.pc) = some n → exec (.rgn k) s = .next (s.raise c 0x05 n)) ∧
    (c.wave.region.isOpen = false →
      (s.entryBad c (succPc c.pc) = none → ∃ t w, exec (.rgn k) s = .next t ∧ t = s.setWave c.bid c.wid w ∧ Went t c c.active ∧
        w.region = { isOpen := true, stores := [] } ∧ ∀ i < 32,
          (w.lane i).restart = if c.active.getLsbD i = true then some (succPc c.pc) else none) ∧
      ∃ t w, exec (.rgnc k) s = .next t ∧ t = s.setWave c.bid c.wid w ∧ Went t c c.active) ∧
    (c.wave.region.isOpen = true →
      (∀ size cap xfer b d e l, s.paramTrap c (s.parts c k) 1 [d] = none →
        Reaches s c blk (s.parts c k) cap capWrite b d (stBytes size) .write l →
        (∀ x ∈ l, ∃ va leaf st, x.2 = .home va leaf st) →
        (distinctLines (c.wave.region.lines ++ l.map fun x => match x.2 with
          | .home _ leaf _ => (false, leaf.sa / 128) | _ => (false, 0))).length ≤ 8 →
        ∃ t w, exec (.st k size none cap xfer b d e) s = .next t ∧ t = s.setWave c.bid c.wid w ∧ Went t c c.active ∧
          (∀ sa, (∀ x ∈ l, ¬ CoversHome (stBytes size) x.2 sa) → w.buffered (.home sa) = c.wave.buffered (.home sa)) ∧
          ∀ l1 i va leaf st l2, l = l1 ++ (i, .home va leaf st) :: l2 → ∀ j < stBytes size,
            (∀ x ∈ l2, ¬ CoversHome (stBytes size) x.2 (leaf.sa + j)) →
            w.buffered (.home (leaf.sa + j)) = some (lget 0 (s.stData c size e i) j)) ∧
      (c.wave.commit = [] → (∀ x ∈ c.wave.region.stores, x.rel = none ∧ x.isFence = false ∧ x.data.length ≤ 16 ∧ ∃ sa, x.loc = .home sa) →
        ∃ t w, exec (.rgnc k) s = .next t ∧ t.wave? c.bid c.wid = some w ∧ Went t c c.active ∧
          w.region = { isOpen := false, stores := [] } ∧ (∀ i < 32, (w.lane i).restart = none) ∧
          ∀ sa, t.viewByte c.core sa = (c.wave.buffered (.home sa)).getD (s.viewByte c.core sa)))

/-- R268, R399, R400, R489: ATOM and RED of lanes in this package, outside a region. The lanes of one word are performed one
after another in ascending order: each finds what the one before it left, the last one's word stays, and ATOM returns what
each found. -/
def Obligations.AtomicsInOrder : Prop :=
  ∀ (s : State) (c : Cur) (k : Ctl) (blk : Block) (op : AOp) (rop : ROp) (w64 signed rel cap : Bool) (sc : Scope) (o : Order)
    (a b d e f : Opnd) (l : List (Nat × At)) (z : Nat), z = (if w64 then 8 else 4) → OfWave s c blk → k.la = 0 →
    c.wave.inRegion = false → Reaches s c blk (s.parts c k) cap capAtomic b d z .atomic l → AllHere l → Unpoisoned s c z l →
    (∀ x ∈ l, ∀ va leaf st, x.2 = .home va leaf st → leaf.sa % z = 0) → (∀ x ∈ l, s.atomWaits x.2 = false) →
    Released s c (s.parts c k) sc →
    let value (v : Opnd) (i : Nat) : Nat := (s.rd c .int (if w64 then 2 else 1) v i).toNat
    let same (x y : At) : Bool := match x, y with
      | .spad m, .spad n => m == n | .home _ m _, .home _ n _ => m.sa == n.sa | _, _ => false
    let first (x : At) : Nat := ofBytes ((List.range z).map (byteAt s c blk x))
    let after (op : AOp) (l1 : List (Nat × At)) (x : At) : Nat :=
      (l1.filter fun y => same y.2 x).foldl
        (fun old y => (atomNew op signed z old (value e y.1) (value f y.1)).getD old) (first x)
    let holds (t : State) (x : At) (v : Nat) : Prop := ∀ j < z, match x with
      | .spad n => (spadAt t c.bid (n + j)).toNat = v / 2 ^ (8 * j) % 256
      | .home _ leaf _ => (t.viewByte c.core (leaf.sa + j)).toNat = v / 2 ^ (8 * j) % 256
      | .peer _ => False
    let others (t : State) : Prop :=
      (∀ n, (∀ x ∈ l, ¬ CoversSpad z x.2 n) → spadAt t c.bid n = blk.spadByte n) ∧
      ∀ sa, (∀ x ∈ l, ¬ CoversHome z x.2 sa) → t.viewByte c.core sa = s.viewByte c.core sa
    (∃ (t : State) (w : Wave) (g : Nat → Nat), exec (.atom k op w64 signed sc o cap a b d e f) s = .next t ∧ t.wave? c.bid c.wid = some w ∧
      Wrote c.wave w a (if w64 then 2 else 1) (s.parts c k) (fun i => BitVec.ofNat 128 (g i)) noTag ∧
      (∀ i < 32, (w.lane i).pc = if c.active.getLsbD i = true then succPc (c.wave.lane i).pc else (c.wave.lane i).pc) ∧
      others t ∧ ∀ l1 x l2, l = l1 ++ x :: l2 → g x.1 = after op l1 x.2 ∧ holds t x.2 (after op l x.2)) ∧
    (∃ t, exec (.red k rop w64 signed sc rel cap b d e) s = .next t ∧ Went t c c.active ∧ others t ∧
      (∀ x ∈ l, holds t x.2 (after (match rop with
        | .add => .add | .min => .min | .max => .max | .and => .and | .or => .or | .xor => .xor) l x.2)))

/-- R399, R489: what the operations of ATOM and RED leave. -/
def Obligations.AtomicOperations : Prop :=
  ∀ (signed : Bool) (z old x cmp : Nat), old < 2 ^ (8 * z) → x < 2 ^ (8 * z) →
    let int (v : Nat) : Int := if signed ∧ 2 ^ (8 * z) ≤ 2 * v then (v : Int) - 2 ^ (8 * z) else v
    atomNew .add signed z old x cmp = some ((old + x) % 2 ^ (8 * z)) ∧
    (0 < z → ∃ n, atomNew .min signed z old x cmp = some n ∧ int n = min (int old) (int x)) ∧
    (0 < z → ∃ n, atomNew .max signed z old x cmp = some n ∧ int n = max (int old) (int x)) ∧
    (∃ n, atomNew .and signed z old x cmp = some n ∧ ∀ j, n.testBit j = (old.testBit j && x.testBit j)) ∧
    (∃ n, atomNew .or signed z old x cmp = some n ∧ ∀ j, n.testBit j = (old.testBit j || x.testBit j)) ∧
    (∃ n, atomNew .xor signed z old x cmp = some n ∧ ∀ j, n.testBit j = (old.testBit j ^^ x.testBit j)) ∧
    atomNew .exch signed z old x cmp = some x ∧
    atomNew .cas signed z old x cmp = if old = cmp then some x else none

/-- R204, R357 to R361, R452: LDCHAIN of one lane in memory of this package. A null start gives zero and reports null at step
0; else each hop reads 8 bytes at the pointer plus its entry's offset and masks what it read, and the last pointer plus the
field offset gives the result, with complete and the number of steps in %chain. -/
def Obligations.ChainedLoads : Prop :=
  ∀ (s : State) (c : Cur) (k : Ctl) (blk : Block) (nf : Bool) (a b d e : Opnd) (i : Nat) (desc : FetchLine), OfWave s c blk →
    s.parts c k = BitVec.ofNat 32 (2 ^ i) → i < 32 → c.wid < 32 → c.wave.pendNext < 2 ^ 32 → c.wave.pend = [] →
    (s.core c.core).trackers = [] → s.dirty = [] → c.core = coreOf c.bid →
    let off := (s.rd32 c e i).toNat
    let field (lo n : Nat) : Nat := desc.toNat / 2 ^ lo % 2 ^ n
    let n := field 0 3
    let z := 4 * 2 ^ field 5 2
    off % 64 = 0 → off + 64 ≤ blk.spadSize → desc = lineOfBytes (blk.spadBytes off 64) → chBad desc = false → field 7 1 = 0 →
    (∀ m, a = .lane m → m.toNat % (z / 4) = 0 ∧ m.toNat + z / 4 ≤ blk.regs) →
    let sext (lo : Nat) : Dword := (BitVec.ofNat 32 (field lo 32)).signExtend 64
    let start : Dword := s.rd64 c b i + (s.rd32 c d i).signExtend 64
    let ends (v : Quad) (status : Nat) : Prop := ∃ t w, exec (.ldchain k nf false a b d e) s = .next t ∧
      t.wave? c.bid c.wid = some w ∧ Wrote c.wave w a (z / 4) (s.parts c k) (fun _ => v) noTag ∧
      (w.lane i).chain = BitVec.ofNat 32 status ∧ (w.lane i).pc = succPc (c.wave.lane i).pc
    (start.toNat % 2 ^ 57 = 0 → ends 0 (1 * 2 ^ 28)) ∧
    (∀ (ptr : Nat → Dword) (leaf : Nat → Leaf), ptr 0 = start →
      let at' (j : Nat) : Nat := (ptr j + sext (128 + 64 * j)).toNat / 8 * 8 % 2 ^ 57
      let last : Nat := (ptr n + sext 64).toNat / z * z % 2 ^ 57
      let reads (va : Nat) (x : Leaf) : Prop :=
        s.isLocal va = true ∧ s.translate blk.ctx va .read = .ok x ∧ s.accessWaits x.sa = false ∧
          s.isPoisoned x.sa = false
      (∀ j < n, (ptr j).toNat % 2 ^ 57 ≠ 0 ∧ reads (at' j) (leaf j) ∧
        (ptr (j + 1)).toNat = s.homeNat (leaf j).sa 8 % 2 ^ (64 - field (128 + 64 * j + 40) 6) /
          2 ^ field (128 + 64 * j + 32) 6 * 2 ^ field (128 + 64 * j + 32) 6) →
      (ptr n).toNat % 2 ^ 57 ≠ 0 → reads last (leaf n) →
      (let aper := (s.ctx blk.ctx).aper.toNat
       at' 0 / 2 ^ 30 ≠ aper % 2 ^ 27 ∧ at' 0 / 2 ^ 30 ≠ aper / 2 ^ 34 % 2 ^ 27) →
      ends (BitVec.ofNat 128 (s.homeNat (leaf n).sa z)) (n * 2 ^ 25))

/-- R412, R482, R511: PRF and CCTL change no register and, where no byte is dirty in a cache, no memory; CCTL of one lane leaves
no byte of the line dirty below the level of its scope. WAITA lets the lanes pass whose test holds, and blocks the others. -/
def Obligations.HintsAndWaits : Prop :=
  ∀ (s : State) (c : Cur) (k : Ctl) (blk : Block) (cap w64 : Bool) (op : CctlOp) (sc : Scope) (acq : Option Scope) (cmp : WCmp)
    (b d e : Opnd), OfWave s c blk → k.la = 0 →
    let p := s.parts c k
    (s.paramTrap c p 1 [d] = none → ∃ t, exec (.prf k cap b d) s = .next t ∧ Went t c c.active ∧ KeepsBytes s t) ∧
    (∃ t, exec (.cctl k op sc b d) s = .next t ∧ Went t c c.active ∧ (∀ n, spadAt t c.bid n = blk.spadByte n) ∧
      (s.dirty = [] ∨ sc = .blk → KeepsBytes s t) ∧
      (∀ i va leaf st, p = BitVec.ofNat 32 (2 ^ i) → i < 32 →
        s.atOf c.ctx .read (s.steer blk c.wid i (s.addr c false b d i) 1) = .ok (.home va leaf st) →
        (sc = .die → ∀ x ∈ t.dirty, x.lvl = 0 → dieOf x.core = dieOf c.core → lineOf x.sa ≠ lineOf leaf.sa) ∧
        (sc = .pkg ∨ sc = .sys → ∀ x ∈ t.dirty, x.lvl = 0 ∨ x.lvl = 1 → lineOf x.sa ≠ lineOf leaf.sa))) ∧
    (∀ l, s.paramTrap c p 1 [d] = none → Reaches s c blk p cap capRead b d (if w64 then 8 else 4) .read l → AllHere l →
      HomesAnswer s c (if w64 then 8 else 4) l → Unpoisoned s c (if w64 then 8 else 4) l →
      let got (x : At) : Nat := ofBytes ((List.range (if w64 then 8 else 4)).map (byteAt s c blk x))
      let want (i : Nat) : Nat := (s.rd c .int (if w64 then 2 else 1) e i).toNat
      let passes (x : Nat × At) : Prop := match cmp with
        | .eq => got x.2 = want x.1 | .ne => got x.2 ≠ want x.1 | .ge => want x.1 ≤ got x.2 | .lt => got x.2 < want x.1
        | .mask => got x.2 &&& want x.1 ≠ 0
      ∃ t w, exec (.waita k cmp w64 acq cap b d e) s = .next t ∧ t.wave? c.bid c.wid = some w ∧ KeepsRegs c.wave w ∧
        KeepsBytes s t ∧
        (∀ i < 32, c.active.getLsbD i = true → p.getLsbD i = false → (w.lane i).pc = succPc (c.wave.lane i).pc) ∧
        ∀ x ∈ l, (passes x → (w.lane x.1).pc = succPc (c.wave.lane x.1).pc ∧ (w.lane x.1).st = (c.wave.lane x.1).st) ∧
          (¬ passes x → (w.lane x.1).pc = (c.wave.lane x.1).pc ∧ ∃ y, (w.lane x.1).st = .blocked (.waita y)))

/-- R208, R239, R251, R266, R347, R524: a place on another package. ST and RED post a write to its owner, LD and ATOM ask the
owner; the lanes go on, those of LD and ATOM within their window, and no memory here changes. A translation fault outside a region
holds the instruction for each granule that faulted: it has issued, or as the first of a pair stands at its slot. -/
def Obligations.PeersAndFaults : Prop :=
  ∀ (s : State) (c : Cur) (k : Ctl) (blk : Block) (size : LdSize) (ssize : StSize) (op : AOp) (rop : ROp)
    (w64 signed cap : Bool) (sc : Scope) (a b d e f : Opnd), OfWave s c blk → c.wave.inRegion = false →
    s.paramTrap c (s.parts c k) 1 [d] = none → (s.ctx c.ctx).fabric.getLsbD 30 = false →
    let p := s.parts c k
    let n : Nat := if w64 then 2 else 1
    let peers (perm : Quad → Bool) (z : Nat) (need : Perm) (l : List (Nat × At)) : Prop :=
      Reaches s c blk p cap perm b d z need l ∧ ∀ x ∈ l, ∃ va, x.2 = .peer va
    let sent (t : State) (va : Nat) (o : PeerOp) : Prop :=
      ∃ n r, .swiul (va / 2 ^ 45 % 4096) 1 n r ∈ t.out ∧ r.op = o ∧ r.addr = va % 2 ^ 57
    (∀ l, peers capRead (ldBytes size) .read l → (∀ x ∈ l, ∀ va, x.2 = .peer va → tfind s.peerCopies (peerLine va) = none) →
      p ≠ 0 → ∃ t, exec (.ld k size none cap false a b d) s = .next t ∧ Went t c c.active ∧ Pends t c k p false ∧ KeepsBytes s t ∧
        ∀ x ∈ l, ∀ va, x.2 = .peer va → sent t va .load) ∧
    (k.la = 0 → ∀ l, peers capWrite (stBytes ssize) .write l →
      ∃ t, exec (.st k ssize none cap false b d e) s = .next t ∧ Went t c c.active ∧ (s.dirty = [] → KeepsBytes s t) ∧
        ∀ l1 i va l2, l = l1 ++ (i, At.peer va) :: l2 → (∀ y ∈ l2, y.2 ≠ .peer va) → sent t va .write) ∧
    (∀ l, peers capAtomic (4 * n) .atomic l → p ≠ 0 →
      ∃ t, exec (.atom k op w64 signed sc .relaxed cap a b d e f) s = .next t ∧ Went t c c.active ∧ Pends t c k p false ∧
        (s.dirty = [] → KeepsBytes s t) ∧
        ∀ i va, (i, At.peer va) ∈ l → sent t va (.atom op signed (s.rd c .int n f i))) ∧
    (k.la = 0 → ∀ l, peers capAtomic (4 * n) .atomic l →
      ∃ t, exec (.red k rop w64 signed sc false cap b d e) s = .next t ∧ Went t c c.active ∧ (s.dirty = [] → KeepsBytes s t) ∧
        ∀ x ∈ l, ∀ va, x.2 = .peer va → sent t va (.red rop signed)) ∧
    (∀ l, (∃ t, s.checkAccess c blk p cap capRead b d (ldBytes size) = .ok t ∧ s.locateAll c.ctx .read t = .held l) →
      ∃ t w, exec (.ld k size none cap false a b d) s = .next t ∧ t.wave? c.bid c.wid = some w ∧
        (pairFollows c.bid c.wid s.agenda = false → Went t c c.active ∧ Pends t c k 0 true ∧
          ∀ x ∈ l, ∃ h ∈ w.held, h.granule = x.2.1 % 2 ^ 57 / 2 ^ 16 ∧ h.lanes = p ∧ h.pend = some c.wave.pendNext) ∧
        (pairFollows c.bid c.wid s.agenda = true → Went t c 0 ∧
          ∀ x ∈ l, ∃ h ∈ w.held, h.granule = x.2.1 % 2 ^ 57 / 2 ^ 16 ∧ h.lanes = c.active ∧ h.pend = none))

/-! ### Class 0x7: ordering and synchronisation -/

/-- R243, R256, R266, R278, R279, R397, R398, R432, R484: outside a region FENCE leaves every byte as its core sees it, at
.pkg and .sys also at home, and waits where an acknowledgement that its scope needs is missing; ACQP with
no target is FENCE, with a target its lanes wait; QFENCE puts one fence entry at the tail of each named queue. -/
def Obligations.FencesAndPromotions : Prop :=
  ∀ (s : State) (c : Cur) (k : Ctl) (blk : Block) (sc : Scope) (mask : BitVec 4) (b d : Opnd), OfWave s c blk → k.la = 0 →
    let p := s.parts c k
    let handles (hs : Nat → Dword × Word) (i : Instr) : Prop :=
      let part (j : Nat) : Prop := j < 32 ∧ p.getLsbD j = true
      let upper (h : Dword) : Nat := h.toNat / 2 ^ 32
      let bad (h : Dword) : Prop := if upper h / 2 ^ 31 = 1 then upper h / 2 ^ 12 % 2 ^ 19 ≠ 0 else upper h ≠ 0
      ((∃ j, part j ∧ bad (hs j).1) → exec i s = .next (s.raise c 0x02 1)) ∧
      ((∀ j, part j → ¬ bad (hs j).1) → c.wave.inRegion = false → s.mustWait c.bid .sys (c.wave.waitsTo p) = false →
        ((∀ j, part j → (upper (hs j).1 / 2 ^ 31 = 0 ∨ upper (hs j).1 % 2 ^ 12 = s.pkgNo) ∧
          s.resolve c.ctx ((hs j).1.setWidth 32) = none) → exec i s = exec (.fence k sc) s ∧
          (p = 0 ∨ Released s c p sc → ∃ t, exec i s = .next t ∧ Went t c c.active)) ∧
        ((∃ j, part j ∧ s.promoTargets c.ctx (hs j).1 (hs j).2 ≠ []) →
          ∃ t, exec i s = .next t ∧ Went t c (c.active &&& ~~~p) ∧ Waits t c p (fun _ => .acqp sc) ∧ KeepsBytes s t))
    (p = 0 → ∃ t, exec (.fence k sc) s = .next t ∧ Went t c c.active ∧ KeepsBytes s t) ∧
    (p ≠ 0 → c.wave.inRegion = true → ∃ t, exec (.fence k sc) s = .next t ∧ Went t c c.active ∧ KeepsBytes s t) ∧
    (p ≠ 0 → c.wave.inRegion = false → Released s c p sc →
      ∃ t, exec (.fence k sc) s = .next t ∧ Went t c c.active ∧ (∀ a, t.viewByte c.core a = s.viewByte c.core a) ∧
        (sc = .pkg ∨ sc = .sys → ∀ a, t.homeByte a = s.viewByte c.core a) ∧
        (sc = .sys → t.peerCopies = [])) ∧
    (p ≠ 0 → c.wave.inRegion = false → ¬ Released s c p sc →
      ∃ t, exec (.fence k sc) s = .next t ∧ Went t c (c.active &&& ~~~p) ∧ Waits t c p (fun _ => .order sc) ∧
        ∀ a, t.viewByte c.core a = s.viewByte c.core a) ∧
    handles (fun j => (s.rd64 c b j, s.rd32 c d j)) (.acqp k sc b d) ∧
    (∀ off : Nat → Nat, s.checkAccess c blk p true capPromote b d 16 = .ok ((lanesOf p).map fun j => (j, .spad (off j) true)) →
      (∀ j, p.getLsbD j = true → blk.spadBytes (off j + 12) 4 = [0, 0, 0, 0]) →
      handles (fun j => (BitVec.ofNat 64 (ofBytes (blk.spadBytes (off j) 8)),
        BitVec.ofNat 32 (ofBytes (blk.spadBytes (off j + 8) 4)))) (.acqpCap k sc b d)) ∧
    (let x := s.core c.core
     let queue (t : State) (q : Nat) : List ReEntry := lget [] (t.core c.core).reQueues q
     x.reQueues.length = 4 →
      (p = 0 ∨ (∀ q < 4, mask.getLsbD q = true → (queue s q).length < 64) →
        ∃ t, exec (.qfence k mask) s = .next t ∧ Went t c c.active ∧ KeepsBytes s t ∧
          (p ≠ 0 → ∀ q < 4, ∃ e : ReEntry, e.kind = .fence mask x.fenceNext ∧ e.blk = c.bid ∧
            queue t q = if mask.getLsbD q = true then queue s q ++ [e] else queue s q)) ∧
      (p ≠ 0 → (∃ q < 4, mask.getLsbD q = true ∧ 64 ≤ (queue s q).length) →
        ∃ t, exec (.qfence k mask) s = .next t ∧ Went t c (c.active &&& ~~~p) ∧ Waits t c p (fun _ => .room mask 1)))

/-- R294, R295, R296, R305, R401, R459, R461: the arrivals BAR, BARA and MBAR and the waits BARW and MBWAIT at a numbered barrier,
outside a region. An arrival counts one for the wave; the one that completes the count flips the phase; the lanes of BAR
wait for that. MBAR also latches its format word. -/
def Obligations.NumberedBarriers : Prop :=
  ∀ (s : State) (c : Cur) (k : Ctl) (blk : Block) (n : BitVec 4) (b d : Opnd), OfWave s c blk → k.la = 0 →
    blk.bars.length = 16 →
    let p := s.parts c k
    let part (j : Nat) : Prop := j < 32 ∧ p.getLsbD j = true
    let bar (x : Block) (m : Nat) : Barrier := lget (Barrier.start 0) x.bars m
    let old := bar blk n.toNat
    let count (o : Opnd) (v : Nat) : Prop := v ≤ 33 ∧ ∀ j, part j → (s.rd32 c o j).toNat = v
    let noCount (o : Opnd) : Prop := ∃ j, part j ∧ (33 < (s.rd32 c o j).toNat ∨ ∃ j', part j' ∧ s.rd32 c o j' ≠ s.rd32 c o j)
    let arrives (i : Instr) (v : Nat) (format : Word) (latched : Bool) (st : Bool → LaneSt) : Prop :=
      let expected := if old.arrived = 0 ∧ v ≠ 0 then v else old.expected
      let done : Bool := decide (expected ≤ old.arrived + 1)
      ∃ t w x, exec i s = .next t ∧ t.block? c.bid = some x ∧ x.wave? c.wid = some w ∧ Went t c c.active ∧
        (∀ a, t.viewByte c.core a = s.viewByte c.core a) ∧ (∀ m < 16, m ≠ n.toNat → bar x m = bar blk m) ∧
        bar x n.toNat = (if done then { format, latched := false, phase := !old.phase, arrived := 0, expected, released := format }
          else { format, latched, phase := old.phase, arrived := old.arrived + 1, expected, released := old.released }) ∧
        w.phases.getLsbD n.toNat = old.phase ∧
        ∀ j, part j → (c.wave.lane j).st = .live → (w.lane j).st = st done
    let waits (i : Instr) (why : Wait) : Prop :=
      (old.phase = c.wave.phases.getLsbD n.toNat →
        ∃ t, exec i s = .next t ∧ Went t c c.active ∧ Waits t c p (fun _ => why) ∧ KeepsBytes s t) ∧
      (old.phase ≠ c.wave.phases.getLsbD n.toNat →
        ∃ t w, exec i s = .next t ∧ t = s.setWave c.bid c.wid w ∧ Went t c c.active ∧
          ∀ j < 32, (w.lane j).st = (c.wave.lane j).st)
    (noCount b → exec (.bar k n b) s = .next (s.raise c 0x02 1) ∧ exec (.bara k n b) s = .next (s.raise c 0x02 1)) ∧
    waits (.barw k n) (.barrier n (c.wave.phases.getLsbD n.toNat)) ∧
    waits (.mbwait k n) (.mbarrier n (c.wave.phases.getLsbD n.toNat)) ∧
    ((∃ j, part j ∧ formatValid (s.rd32 c b j) = false) → exec (.mbar k n b d) s = .next (s.raise c 0x02 1)) ∧
    ((∀ j, part j → formatValid (s.rd32 c b j) = true) → noCount d → exec (.mbar k n b d) s = .next (s.raise c 0x02 2)) ∧
    (p = 0 → ∀ i ∈ [Instr.bar k n b, .bara k n b, .mbar k n b d],
      ∃ t w, exec i s = .next t ∧ t = s.setWave c.bid c.wid w ∧ Went t c c.active) ∧
    (c.wave.inRegion = false →
      (p ≠ 0 → (∀ v, count b v →
          arrives (.bar k n b) v old.format old.latched (fun done => if done then .live else .blocked (.barrier n old.phase)) ∧
          arrives (.bara k n b) v old.format old.latched (fun _ => .live)) ∧
        ∀ v, count d v → (∀ j, part j → formatValid (s.rd32 c b j) = true) →
          (∀ word, (∀ j, part j → s.rd32 c b j = word) → old.latched = false ∨ old.format = word →
            arrives (.mbar k n b d) v word true (fun _ => .live)) ∧
          ((∃ j, part j ∧ (old.latched = true ∧ s.rd32 c b j ≠ old.format ∨ ∃ j', part j' ∧ s.rd32 c b j' ≠ s.rd32 c b j)) →
            exec (.mbar k n b d) s = .next (s.raise c 0x09 n.toNat))))

/-- R58, R198, R274, R295, R401: the launch-wide barrier, of cooperative launches only. BAR.launch and BARA.launch release at
.pkg and count one arrival of the launch's waves; the last flips the phase, and the waiters then stay until their clusters are
admitted. BARW.launch waits while the phase is the one that the wave recorded. -/
def Obligations.LaunchBarriers : Prop :=
  ∀ (s : State) (c : Cur) (k : Ctl) (blk : Block), OfWave s c blk → k.la = 0 →
    let p := s.parts c k
    let x := s.launch blk.launch
    let coop : Prop := recKind x.record = 1
    let all := recN x.record * kdWaves x.desc
    let counts (i : Instr) (st : LaneSt → Prop) : Prop :=
      ∃ t w, exec i s = .next t ∧ t.wave? c.bid c.wid = some w ∧ Went t c c.active ∧
        (∀ a, t.homeByte a = s.viewByte c.core a) ∧ w.launchPhase = x.barPhase ∧
        (t.launch blk.launch).barArrived = (if all ≤ x.barArrived + 1 then 0 else x.barArrived + 1) ∧
        (t.launch blk.launch).barPhase = (if all ≤ x.barArrived + 1 then !x.barPhase else x.barPhase) ∧
        ∀ j < 32, p.getLsbD j = true → (c.wave.lane j).st = .live → st (w.lane j).st
    (p = 0 → ∀ i ∈ [Instr.barLaunch k, .baraLaunch k, .barwLaunch k], ∃ t w, exec i s = .next t ∧
      t = s.setWave c.bid c.wid w ∧ Went t c c.active) ∧
    (¬ coop → p ≠ 0 → ∀ i ∈ [Instr.barLaunch k, .baraLaunch k, .barwLaunch k], exec i s = .next (s.raise c 0x01 0)) ∧
    (coop → c.wave.inRegion = false →
      (p ≠ 0 → counts (.barLaunch k) (fun st => if all ≤ x.barArrived + 1 then st = .live ∨ st = .blocked .admission
          else st = .blocked (.launchBar x.barPhase)) ∧
        counts (.baraLaunch k) (fun st => st = .live))) ∧
    (coop → ∃ t w, exec (.barwLaunch k) s = .next t ∧ t = s.setWave c.bid c.wid w ∧ Went t c c.active ∧
      (x.barPhase = c.wave.launchPhase → Waits t c p (fun _ => .launchBar c.wave.launchPhase)) ∧
      (x.barPhase ≠ c.wave.launchPhase → ∀ j < 32, (w.lane j).st = (c.wave.lane j).st))

/-- R76, R292, R293, R402, R485: QPUSH, QPOP and QTRY on a named queue, outside a region, and BCW. Slots are taken in ascending
lane order; a push or pop that finds too few, or earlier ones waiting, or comes second in a clock, blocks; a failed QTRY writes the success register
alone; BCW waits until every barrier named reads zero. -/
def Obligations.ScratchpadQueues : Prop :=
  ∀ (s : State) (c : Cur) (k : Ctl) (blk : Block) (q : BitVec 3) (a b : Opnd), OfWave s c blk → k.la = 0 →
    blk.queues.length = 8 → c.wave.popped.length = 8 →
    let p := s.parts c k
    let ls := lanesOf p
    let m := ls.length
    let x := blk.queue q
    let queue (t : State) : SpQueue := match t.block? c.bid with | some y => y.queue q | none => SpQueue.none
    let state (y : SpQueue) (j : Nat) : SlotSt := lget .free y.slots (j % x.count)
    let ready (j : Nat) : Prop := state x j = .pushed ∨ state x j = .engineFilled
    let handle (j : Nat) : Word := BitVec.ofNat 32 (if state x (x.head + j) = .pushed
      then ofBytes (blk.spadBytes (x.base + (x.head + j) % x.count * x.size) 4) else x.base + (x.head + j) % x.count * x.size)
    let takes (i : Instr) (n : Nat) (v : Nat → Quad → Prop) : Prop :=
      ∃ (t : State) (w : Wave) (f : Nat → Quad), exec i s = .next t ∧ t.wave? c.bid c.wid = some w ∧ Wrote c.wave w a n p f noTag ∧
        (∀ j < 32, (w.lane j).pc = if c.active.getLsbD j = true then succPc (c.wave.lane j).pc else (c.wave.lane j).pc) ∧
        (∀ j i, ls[j]? = some i → v j (f i)) ∧ w.popped = lset c.wave.popped q.toNat m ∧
        (queue t).filled = x.filled - m ∧ (queue t).head = (x.head + m) % x.count ∧
        (queue t).free = x.free + lget 0 c.wave.popped q.toNat ∧ (queue t).tail = x.tail
    let stands (i : Instr) (push : Bool) (dst : Opnd) (v : Nat → Word) : Prop :=
      ∃ t, exec i s = .next t ∧ Went t c (c.active &&& ~~~p) ∧ KeepsBytes s t ∧
        Waits t c p fun j => .queue q push m s.freeCtr dst (v j)
    (p ≠ 0 → x.count = 0 → ∀ i ∈ [Instr.qpush k q b, .qpop k q a, .qtry k q a], exec i s = .next (s.raise c 0x02 6)) ∧
    (0 < x.count → x.count < m → exec (.qpush k q b) s = .next (s.raise c 0x02 1) ∧
      exec (.qpop k q a) s = .next (s.raise c 0x02 0) ∧ exec (.qtry k q a) s = .next (s.raise c 0x02 0)) ∧
    (c.wave.inRegion = false →
      (p = 0 → ∀ i ∈ [Instr.qpush k q b, .qpop k q a, .qtry k q a],
        ∃ t w, exec i s = .next t ∧ t = s.setWave c.bid c.wid w ∧ Went t c c.active) ∧
      (p ≠ 0 → m ≤ x.count → x.slots.length = x.count → x.head < x.count → x.tail < x.count →
        (x.free < m ∨ x.served = true ∨ blk.queueWaits q true ≠ [] → stands (.qpush k q b) true .zero (s.rd32 c b)) ∧
        (m ≤ x.free → x.served = false → blk.queueWaits q true = [] → 4 ≤ x.size →
          ∃ t, exec (.qpush k q b) s = .next t ∧ Went t c c.active ∧ (queue t).free = x.free - m ∧
            (queue t).filled = x.filled + m ∧ (queue t).tail = (x.tail + m) % x.count ∧ (queue t).head = x.head ∧
            ∀ j i, ls[j]? = some i → state (queue t) (x.tail + j) = .pushed ∧
              ∀ n < 4, (spadAt t c.bid (x.base + (x.tail + j) % x.count * x.size + n)) =
                (s.rd32 c b i).extractLsb' (8 * n) 8) ∧
        (x.served = true → ∃ t, exec (.qtry k q a) s = .next t ∧ Went t c (c.active &&& ~~~p) ∧ Waits t c p (fun _ => .turn) ∧
          KeepsBytes s t) ∧
        ((∃ j < m, ¬ ready (x.head + j)) → stands (.qpop k q a) false a (fun _ => 0) ∧ (x.served = false →
          ∃ (t : State) (w : Wave), exec (.qtry k q a) s = .next t ∧ t = (s.setBlock c.bid (blk.serve q)).setWave c.bid c.wid w ∧
            (∀ r, a = .lane r → r.toNat % 2 = 0 → ∀ j < 32, p.getLsbD j = true →
              (w.lane j).reg (r.toNat + 1) = 0 ∧ ∀ g, g ≠ r.toNat + 1 → (w.lane j).reg g = (c.wave.lane j).reg g) ∧
            (∀ r, a = .uni r → r.toNat % 2 = 0 → w.ureg (r.toNat + 1) = 0 ∧
              ∀ g, g ≠ r.toNat + 1 → w.ureg g = c.wave.ureg g) ∧
            ∀ j < 32, (w.lane j).pc = if c.active.getLsbD j = true then succPc (c.wave.lane j).pc else (c.wave.lane j).pc)) ∧
        (x.served = true ∨ blk.queueWaits q false ≠ [] → stands (.qpop k q a) false a (fun _ => 0)) ∧
        ((∀ j < m, ready (x.head + j)) → x.served = false →
          (blk.queueWaits q false = [] → takes (.qpop k q a) 1 (fun j r => low32 r = handle j)) ∧
          takes (.qtry k q a) 2 (fun j r => low64 r = 1#32 ++ handle j)))) ∧
    (let off (j : Nat) : Nat := (s.rd32 c b j).toNat
     let part (j : Nat) : Prop := j < 32 ∧ p.getLsbD j = true
     let inside : Prop := ∀ j, part j → off j % 8 = 0 ∧ off j + 8 ≤ blk.spadSize
     let zero (j : Nat) : Prop := ofBytes (blk.spadBytes (off j) 6) = 0
     ((∃ j, part j ∧ off j % 8 ≠ 0) → exec (.bcw k a b) s = .next (s.raise c 0x07 0)) ∧
     ((∀ j, part j → off j % 8 = 0) → (∃ j, part j ∧ blk.spadSize < off j + 8) →
       exec (.bcw k a b) s = .next (s.raise c 0x06 1)) ∧
     (inside → (∀ j, part j → zero j) → ∃ t f, exec (.bcw k a b) s = .next t ∧
       Ran { s with peerCopies := if p = 0 then s.peerCopies else [] } t c k a 1 p f noTag 0 ∧
       ∀ j, part j → low32 (f j) = BitVec.ofNat 32 (ofBytes (blk.spadBytes (off j + 4) 4))) ∧
     (inside → (∃ j, part j ∧ ¬ zero j) → ∃ t, exec (.bcw k a b) s = .next t ∧ Went t c (c.active &&& ~~~p) ∧
       Waits t c p (fun j => .bcw (off j)) ∧ KeepsBytes s t))

/-! ### Class 0x8: engines -/

/-- R283 to R286, R367, R368: CKICK, PUTS, GET, RADD and the three MPUTs submit every record of every lane. They check, in
this order, alignment, bounds, the counts and the records; outside a region and with room, the records stand at the tail of
the queue, in order, what the core has written stands at the home, and nothing else of memory or registers changes. -/
def Obligations.EngineSubmissions : Prop :=
  ∀ (s : State) (c : Cur) (k : Ctl) (blk : Block) (q : BitVec 2) (b d : Opnd), OfWave s c blk → k.la = 0 →
    s.paramTrap c (s.parts c k) 1 [b, d] = none →
    let p := s.parts c k
    let part (j : Nat) : Prop := j < 32 ∧ p.getLsbD j = true
    let off (j : Nat) : Nat := (s.rd32 c b j).toNat
    let n (j : Nat) : Nat := (s.rd32 c d j).toNat
    let records : List (List Byte) := (lanesOf p).flatMap fun j => (List.range (n j)).map fun m => blk.spadBytes (off j + 64 * m) 64
    let queue (t : State) : List ReEntry := lget [] (t.core c.core).reQueues q.toNat
    let bounded (j : Nat) : Prop := off j + 64 * max 1 (min (n j) 16) ≤ blk.spadSize
    let counted : Prop := (∀ j, part j → 1 ≤ n j ∧ n j ≤ 16) ∧ records.length ≤ 64
    let submits (i : Instr) (kind : ReKind) (bad : List Byte → Bool) : Prop :=
      ((∃ j, part j ∧ off j % 64 ≠ 0) → exec i s = .next (s.raise c 0x07 0)) ∧
      ((∀ j, part j → off j % 64 = 0) →
        ((∃ j, part j ∧ ¬ bounded j) → exec i s = .next (s.raise c 0x06 1)) ∧
        ((∀ j, part j → bounded j) →
          (¬ counted → exec i s = .next (s.raise c 0x02 2)) ∧
          (counted → (∃ r ∈ records, bad r = true) → exec i s = .next (s.raise c 0x02 1)) ∧
          (counted → (∀ r ∈ records, bad r = false) → c.wave.inRegion = false → (s.core c.core).reQueues.length = 4 →
            (p = 0 ∨ (queue s).length + records.length ≤ 64 → ∃ t es, exec i s = .next t ∧ Went t c c.active ∧ WroteBack s t c.core ∧
              queue t = queue s ++ es ∧ es.map ReEntry.record = records ∧ ∀ e ∈ es, e.kind = kind ∧ e.blk = c.bid ∧
                e.ctx = blk.ctx ∧ e.done = 0) ∧
            (p ≠ 0 → 64 < (queue s).length + records.length → ∃ t, exec i s = .next t ∧ Went t c (c.active &&& ~~~p) ∧
              Waits t c p (fun _ => .room (BitVec.ofNat 4 (2 ^ q.toNat)) records.length) ∧ queue t = queue s))))
    let one (op : Nat) : List Byte → Bool := s.oneSidedBad blk.ctx blk.spadSize [op]
    submits (.ckick k q b d) .copy (copyBad blk) ∧ submits (.puts k q b d) .oneSided (one 1) ∧
    submits (.get k q b d) .oneSided (one 2) ∧ submits (.radd k q b d) .oneSided (one 3) ∧
    submits (.mput k q b d) .oneSided (one 4) ∧ submits (.mputRed k q b d) .oneSided (one 5) ∧
    submits (.mputOrd k q b d) .oneSided (one 6)

/-- R377 to R379, R479: PCOLL refuses a collective whose entry does not serve its context; else, outside a region and with room,
the instance number in memory advances, the group is told, and the entry's records stand at the tail of the queue. -/
def Obligations.Collectives : Prop :=
  ∀ (s : State) (c : Cur) (k : Ctl) (blk : Block) (q : BitVec 2) (b : Opnd), OfWave s c blk → k.la = 0 →
    s.paramTrap c (s.parts c k) 1 [b] = none →
    let p := s.parts c k
    let no (j : Nat) : Nat := (s.rd32 c b j).toNat
    let queue (t : State) : List ReEntry := lget [] (t.core c.core).reQueues q.toNat
    let s1 := s.toHome c.core
    ((∃ j < 32, p.getLsbD j = true ∧ s1.coll c.ctx blk.spadSize (no j) = none) →
      exec (.pcoll k q b) s = .next (s1.raise c 0x02 1)) ∧
    (p = 0 → c.wave.inRegion = false → ∃ t, exec (.pcoll k q b) s = .next t ∧ Went t c c.active ∧ KeepsBytes s t) ∧
    (∀ i x, p = BitVec.ofNat 32 (2 ^ i) → i < 32 → s1.coll c.ctx blk.spadSize (no i) = some x → c.wave.inRegion = false →
      s.early = [] → (s.ctx c.ctx).fabric.getLsbD 30 = false → (s.core c.core).reQueues.length = 4 → (queue s).length + x.records.length ≤ 64 →
      ∃ t es, exec (.pcoll k q b) s = .next t ∧ Went t c c.active ∧ t.homeNat x.instSa 8 = (x.inst + 1) % 2 ^ 64 ∧
        (∀ a, a < x.instSa ∨ x.instSa + 8 ≤ a → t.homeByte a = s.viewByte c.core a) ∧
        .collNotice x.grp (no i) ((x.inst + 1) % 2 ^ 64) ∈ t.out ∧
        queue t = queue s ++ es ∧ es.map ReEntry.record = x.records)

/-! ### Class 0x9: the matrix sequencer -/

/-- R299, R304, R305, R308, R456, R457, R460, R464, R467, R471, R475: the instructions of a matrix stream on its own registers.
A false guard only moves the stream on. -/
def Obligations.MatrixRegisters : Prop :=
  ∀ (s : State) (k : Ctl) (b : Nat) (blk : Block) (a b' c' d e : Opnd) (lit : Word) (tgt : MsclT) (clr sat sc : Bool) (fmt : MFmt)
    (n : BitVec 4) (off : BitVec 18), s.seq? = some (b, blk) → blk.seq.m.length = 32 → blk.seq.x.length = 8 →
    let q := blk.seq
    let moves (i : Instr) (f : Seq → Prop) : Prop := ∃ q', exec i s = .next (s.setBlock b { blk with seq := q' }) ∧
      q'.pc = succPc q.pc ∧ q'.st = .running ∧ q'.paid = false ∧ f q'
    let fault (i : Instr) (kind : Nat) : Prop := exec i s = .next (s.seqFault b kind)
    let setsM (q' : Seq) (v : Word) : Prop :=
      q' = { q with m := q'.m, bankCount := q'.bankCount, pc := q'.pc, st := q'.st, paid := q'.paid } ∧
      ∀ j : BitVec 5, q'.mreg (.m j) = if a = .m j then v else q.mreg (.m j)
    let setsX (q' : Seq) (v : LayReg) : Prop :=
      q' = { q with x := q'.x, pc := q'.pc, st := q'.st, paid := q'.paid } ∧
      ∀ j : BitVec 3, q'.xreg (.x j) = if a = .x j then v else q.xreg (.x j)
    let binds (q' : Seq) (f : Binds) : Prop := q' = { q with binds := f, pc := q'.pc, st := q'.st, paid := q'.paid }
    let wrap (z : Int) (v : Word) : Int := (BitVec.ofInt 32 (z + v.toInt)).toInt
    (q.guardOn k.guard = false → ∀ i ∈ [Instr.mlay k a b', .mma k a b' c' d, .mzero k a b', .mst k fmt sat sc b' c' d e,
        .mld k a b' c', .mscl k tgt b', .mwait k n, .msig k n b', .mjmp k off, .mloop k a off, .madd k a b' c', .maddR k a b',
        .maddC k a b', .mmov k a b', .mmovW k a lit, .mbcnt k clr a, .mend k],
      moves i fun q' => q' = { q with pc := q'.pc, st := q'.st, paid := q'.paid }) ∧
    (q.guardOn k.guard = true →
      moves (.mmovW k a lit) (fun q' => setsM q' lit ∧ q'.bankCount = q.bankCount) ∧
      moves (.mbcnt k clr a) (fun q' => setsM q' q.bankCount ∧ q'.bankCount = if clr then 0 else q.bankCount) ∧
      (∀ v, s.seqSrc blk b' = .ok v → s.srcAway blk b' = [] →
        moves (.mmov k a b') (fun q' => setsM q' v ∧ q'.bankCount = q.bankCount) ∧
        (∀ j, a = .x j → moves (.maddR k a b') (fun q' => setsX q' { q.xreg a with orow := wrap (q.xreg a).orow v }) ∧
          moves (.maddC k a b') (fun q' => setsX q' { q.xreg a with ocol := wrap (q.xreg a).ocol v })) ∧
        (let x : LayReg := { record := BitVec.ofNat 256 (ofBytes (blk.spadBytes v.toNat 32)), orow := 0, ocol := 0, hint := k.hint }
         (v.toNat % 32 = 0 ∧ v.toNat + 32 ≤ blk.spadSize ∧ x.bad = false → moves (.mlay k a b') (fun q' => setsX q' x)) ∧
         (v.toNat % 32 ≠ 0 ∨ blk.spadSize < v.toNat + 32 ∨ x.bad = true → fault (.mlay k a b') 2)) ∧
        moves (.mscl k .zca b') (fun q' => binds q' { q.binds with zca := v.setWidth 8 }) ∧
        moves (.mscl k .zcb b') (fun q' => binds q' { q.binds with zcb := v.setWidth 8 }) ∧
        moves (.mscl k .zst b') (fun q' => binds q' { q.binds with zst := v.setWidth 8 })) ∧
      (∀ v, s.seqSrc blk c' = .ok v → s.srcAway blk c' = [] →
        moves (.madd k a b' c') (fun q' => setsM q' (q.mreg b' + v) ∧ q'.bankCount = q.bankCount)) ∧
      (∀ kind, s.seqSrc blk b' = .error kind → s.srcAway blk b' = [] → ∀ i ∈ [Instr.mmov k a b', .maddR k a b', .maddC k a b', .mlay k a b',
        .mscl k .zca b', .mscl k .zcb b', .mscl k .zst b', .msig k n b'], fault i kind) ∧
      (let r : Option (BitVec 3) := match b' with | .x j => some j | _ => none
       moves (.mscl k .sa b') (fun q' => binds q' { q.binds with sa := r }) ∧
       moves (.mscl k .sb b') (fun q' => binds q' { q.binds with sb := r }) ∧
       moves (.mscl k .za b') (fun q' => binds q' { q.binds with za := r }) ∧
       moves (.mscl k .zb b') (fun q' => binds q' { q.binds with zb := r })) ∧
      (let c0 := (q.mreg a).toNat
       let cn := (q.mreg b').toNat
       (cn = 0 ∨ 512 < cn ∨ q.cols < c0 + cn → fault (.mzero k a b') 4) ∧
       (1 ≤ cn → cn ≤ 512 → c0 + cn ≤ q.cols → moves (.mzero k a b') fun q' =>
         q' = { q with acc := q'.acc, pc := q'.pc, st := q'.st, paid := q'.paid } ∧
         ∀ col row, row < 128 → q'.accAt col row = if c0 ≤ col ∧ col < c0 + cn then 0 else q.accAt col row)))

/-- R295, R301, R312, R313, R462, R463, R472, R474: MJMP and MLOOP, MWAIT, MSIG and MEND, under a true guard. -/
def Obligations.MatrixControl : Prop :=
  ∀ (s : State) (k : Ctl) (b : Nat) (blk : Block) (a b' : Opnd) (n : BitVec 4) (off : BitVec 18), s.seq? = some (b, blk) →
    blk.seq.m.length = 32 → blk.bars.length = 16 → blk.seq.guardOn k.guard = true →
    let q := blk.seq
    let core := coreOf b
    let fault (i : Instr) (kind : Nat) : Prop := exec i s = .next (s.seqFault b kind)
    let slot : Int := 5 * (q.pc.toNat / 64 : Nat) + (q.pc.toNat % 64 / 12 : Nat) + off.toInt
    let goal : Int := 64 * (slot / 5) + 12 * (slot % 5)
    let next (i : Instr) (f : State → Block → Seq → Prop) : Prop :=
      ∃ (t : State) (x : Block), exec i s = .next t ∧ t.block? b = some x ∧ x.waves.length = blk.waves.length ∧ KeepsBytes s t ∧ f t x x.seq
    let jumps (i : Instr) (v : Word) : Prop :=
      (slot < 0 ∨ 2 ^ 57 ≤ goal → fault i 1) ∧
      (0 ≤ slot → goal < 2 ^ 57 →
        (∀ kind detail, s.transfer core blk.ctx goal.toNat = .trap kind detail → fault i (if kind = 0x0D then 8 else 1)) ∧
        ∀ sa l, s.transfer core blk.ctx goal.toNat = .ok sa l → next i fun _ _ q' =>
          q'.pc = BitVec.ofInt 57 goal ∧ q'.st = .running ∧ q'.paid = false ∧
          ∀ j : BitVec 5, q'.mreg (.m j) = if a = .m j then v else q.mreg (.m j))
    let bar (x : Block) (m : Nat) : Barrier := lget (Barrier.start 0) x.bars m
    let old := bar blk n.toNat
    let out : Bool := s.posted.any fun p => p.blk == b && p.eng == some 4
    jumps (.mjmp k off) (q.mreg a) ∧
    ((∃ j, a = .m j) → q.mreg a ≠ 1 → jumps (.mloop k a off) (q.mreg a - 1)) ∧
    (q.mreg a = 1 → next (.mloop k a off) fun _ _ q' => q'.pc = succPc q.pc ∧ q'.st = .running ∧
      ∀ j : BitVec 5, q'.mreg (.m j) = if a = .m j then 0 else q.mreg (.m j)) ∧
    (q.passed = none → old.phase = q.phases.getLsbD n.toNat →
      next (.mwait k n) fun _ _ q' => q' = { q with st := .waiting n, paid := true }) ∧
    (q.passed ≠ none ∨ old.phase ≠ q.phases.getLsbD n.toNat → next (.mwait k n) fun _ _ q' => q'.pc = succPc q.pc ∧ q'.st = .running ∧
      q'.fw = q.passed.getD old.released ∧ q'.passed = none ∧
      ∀ m < 16, q'.phases.getLsbD m = if m = n.toNat then !q.phases.getLsbD m else q.phases.getLsbD m) ∧
    (∀ v, s.seqSrc blk b' = .ok v → s.srcAway blk b' = [] →
      (33 < v.toNat → fault (.msig k n b') 1) ∧
      (v.toNat ≤ 33 → out = true → next (.msig k n b') fun _ _ q' => q' = { q with st := .draining, paid := true }) ∧
      (v.toNat ≤ 33 → out = false → next (.msig k n b') fun _ x q' =>
        let expected := if old.arrived = 0 ∧ v ≠ 0 then v.toNat else old.expected
        q'.pc = succPc q.pc ∧ q'.st = .running ∧
        (∀ m < 16, q'.phases.getLsbD m = if m = n.toNat then old.phase else q.phases.getLsbD m) ∧
        (∀ m < 16, m ≠ n.toNat → bar x m = bar blk m) ∧
        bar x n.toNat = if expected ≤ old.arrived + 1
          then { format := old.format, latched := false, phase := !old.phase, arrived := 0, expected, released := old.format }
          else { format := old.format, latched := old.latched, phase := old.phase, arrived := old.arrived + 1, expected
                 released := old.released })) ∧
    (out = true → next (.mend k) fun _ _ q' => q' = { q with st := .draining, paid := true }) ∧
    (out = false → (∃ w ∈ blk.waves, (∃ l ∈ w.lanes, l.st ≠ .exited) ∨ ∃ x ∈ w.pend, x.again ≠ none) →
      next (.mend k) fun _ _ q' => q' = { q with st := .ended }) ∧
    (out = false → (∀ w ∈ blk.waves, (∀ l ∈ w.lanes, l.st = .exited) ∧ ∀ x ∈ w.pend, x.again = none) →
      exec (.mend k) s = .next ((s.setBlock b { blk with seq := { q with st := .ended } }).retire b .ok))

/-- R302, R303, R306 to R311, R456, R465, R466, R473: the data instructions of a matrix stream, under a true guard. MMA whose
checks pass is captured and takes the array if it is free and none waits for it; MLD puts the word at each located position into its accumulator,
0 outside; MST writes each located element's code, with the flags in MSTAT. Each faults as its entry says. -/
def Obligations.MatrixData : Prop :=
  ∀ (s : State) (k : Ctl) (b : Nat) (blk : Block) (a b' c' d e : Opnd) (fmt : MFmt) (sat sc : Bool), s.seq? = some (b, blk) →
    blk.seq.guardOn k.guard = true →
    let q := blk.seq
    let fault (i : Instr) (kind : Nat) : Prop := exec i s = .next (s.seqFault b kind)
    let cols (x y : Opnd) : Prop :=
      1 ≤ (q.mreg y).toNat ∧ (q.mreg y).toNat ≤ 512 ∧ (q.mreg x).toNat + (q.mreg y).toNat ≤ q.cols
    let spot (x : LayReg) (i j : Nat) : Except Nat (Option Spot) := x.locate blk.spadSize i j
    let global (y : Spot) (l : Leaf) : Prop := y.spad = false ∧ s.isLocal y.byte = true ∧
      s.translate blk.ctx y.byte .read = .ok l ∧ s.accessWaits l.sa = false ∧ s.isPoisoned l.sa = false
    let located (x : LayReg) (n : Nat) (f : Nat → Nat → Option Spot) : Prop :=
      ∀ j < n, ∀ i < 128, spot x i j = .ok (f i j) ∧ ∀ y, f i j = some y → y.spad = true
    let moves (i : Instr) (f : State → Seq → Prop) : Prop := ∃ (t : State) (x : Block), exec i s = .next t ∧ t.block? b = some x ∧
      x.waves = blk.waves ∧ x.seq.pc = succPc q.pc ∧ x.seq.st = .running ∧ (∀ sa, t.homeByte sa = s.homeByte sa) ∧ f t x.seq
    (let la := q.xreg b'
     let lb := q.xreg c'
     let c0 := (q.mreg a).toNat
     let n := (q.mreg d).toNat
     let run := q.capture k c0 n la lb s.clk
     (n % 16 ≠ 0 ∨ ¬ cols a d → fault (.mma k a b' c' d) 4) ∧
     (n % 16 = 0 → cols a d →
       (la.bad = true ∨ lb.bad = true → fault (.mma k a b' c' d) 2) ∧
       (la.bad = false → lb.bad = false →
         (la.esize ≠ wordEsize (q.fw.toNat % 16) ∨ lb.esize ≠ wordEsize (q.fw.toNat / 16 % 16) → fault (.mma k a b' c' d) 3) ∧
         (la.esize = wordEsize (q.fw.toNat % 16) → lb.esize = wordEsize (q.fw.toNat / 16 % 16) →
           (∀ kind, run.fault blk.spadSize = some kind → fault (.mma k a b' c' d) kind) ∧
           (run.fault blk.spadSize = none → ∃ t x, exec (.mma k a b' c' d) s = .next t ∧ t.block? b = some x ∧
             x = { blk with seq := { q with st := .mma, mma := some run, paid := false } } ∧ KeepsBytes s t ∧
             ((s.core (coreOf b)).array = none → (∀ y ∈ s.blocks, coreOf y.1 = coreOf b → y.2.seq.st ≠ .mma) →
               (t.core (coreOf b)).array = some b) ∧
             ((s.core (coreOf b)).array ≠ none ∨ (∃ y ∈ s.blocks, coreOf y.1 = coreOf b ∧ y.2.seq.st = .mma) →
               (t.core (coreOf b)).array = (s.core (coreOf b)).array)))))) ∧
    (let x := q.xreg b'
     let c0 := (q.mreg a).toNat
     (x.bad = true → fault (.mld k a b' c') 2) ∧
     (x.bad = false → x.esize ≠ 3 → fault (.mld k a b' c') 3) ∧
     (x.bad = false → x.esize = 3 → (¬ cols a c' → fault (.mld k a b' c') 4) ∧
       (cols a c' → (∃ j < (q.mreg c').toNat, ∃ i < 128, ∃ err, spot x i j = .error err) → fault (.mld k a b' c') 6) ∧
       (cols a c' → ∀ f : Nat → Nat → Option Spot, (∀ j < (q.mreg c').toNat, ∀ i < 128, spot x i j = .ok (f i j) ∧
           ∀ y, f i j = some y → y.spad = true ∨ ∃ l, global y l) → moves (.mld k a b' c') fun _ q' =>
         ∀ col row, row < 128 → q'.accAt col row =
           if c0 ≤ col ∧ col < c0 + (q.mreg c').toNat then
             match f row (col - c0) with
             | some y => BitVec.ofNat 32 (ofBytes (if y.spad then blk.spadBytes y.byte y.n
                 else match s.translate blk.ctx y.byte .read with
                   | .ok l => (List.range y.n).map fun m => s.dieByte (coreOf b) (l.sa + m)
                   | .error _ => []))
             | none => 0
           else q.accAt col row))) ∧
    (let x := q.xreg b'
     let c0 := (q.mreg c').toNat
     let i := Instr.mst k fmt sat sc b' c' d e
     (q.fw.toNat / 2 ^ 16 % 16 = 4 → takesRs fmt = false → fault i 5) ∧
     (q.fw.toNat / 2 ^ 16 % 16 ≠ 4 ∨ takesRs fmt = true →
       (x.bad = true → fault i 2) ∧
       (x.bad = false → x.esize ≠ mEsize fmt → fault i 3) ∧
       (x.bad = false → x.esize = mEsize fmt → (¬ cols c' d → fault i 4) ∧
         (cols c' d → (∃ j < (q.mreg d).toNat, ∃ r < 128, ∃ err, spot x r j = .error err) → fault i 6) ∧
         (cols c' d → ∀ f, located x (q.mreg d).toNat f → moves i fun t q' =>
           let code (r j : Nat) (y : Spot) : Nat × Flags :=
             s.stElem blk fmt sat (if sc then some (q.mreg e) else none) (q.accAt (c0 + j) r) y
           (∀ o, (∀ j < (q.mreg d).toNat, ∀ r < 128, ∀ y, f r j = some y → o < y.byte ∨ y.byte + y.n ≤ o) →
             spadAt t b o = blk.spadByte o) ∧
           (∀ j < (q.mreg d).toNat, ∀ r < 128, ∀ y, f r j = some y → y.nib = none →
             (∀ j' < (q.mreg d).toNat, ∀ r' < 128, ∀ y', f r' j' = some y' → (r', j') ≠ (r, j) →
               y'.byte + y'.n ≤ y.byte ∨ y.byte + y.n ≤ y'.byte) →
             ∀ m < y.n, (spadAt t b (y.byte + m)).toNat = (code r j y).1 / 2 ^ (8 * m) % 256) ∧
           (∀ j < (q.mreg d).toNat, ∀ r < 128, ∀ y h, f r j = some y → y.nib = some h →
             (∀ j' < (q.mreg d).toNat, ∀ r' < 128, ∀ y', f r' j' = some y' → (r', j') ≠ (r, j) →
               y'.byte ≠ y.byte ∨ ∃ h', y'.nib = some h' ∧ h' ≠ h) →
             (spadAt t b y.byte).toNat / (if h then 16 else 1) % 16 = (code r j y).1 % 16) ∧
           (∀ m, q'.mstat.getLsbD m = true ↔ q.mstat.getLsbD m = true ∨ ∃ j < (q.mreg d).toNat, ∃ r < 128, ∃ y,
             f r j = some y ∧ (mstatOf (code r j y).2).getLsbD m = true) ∧
           ∀ col row, q'.accAt col row = q.accAt col row))))

/-! ### Class 0xA: scheduling, power, system -/

/-- R61 to R63, R329, R330, R333, R334, R409, R417, R436, R447: LAUNCH, GSIG, CANCEL and CNTR of a wave outside a region, one
lane at a time. LAUNCH takes the lowest free slot and gives handle and status 0, or waits for a slot, or gives all ones and 3;
GSIG counts down the node's predecessors; CANCEL gives 2 for a handle that names nothing, 1 for a level that is done, and else
cancels; CNTR reads the counter, all ones for no level. -/
def Obligations.LaunchesAndLevels : Prop :=
  ∀ (s : State) (c : Cur) (k : Ctl) (blk : Block) (a b : Opnd) (hard : Bool) (i : Nat), OfWave s c blk → k.la = 0 →
    s.parts c k = BitVec.ofNat 32 (2 ^ i) → i < 32 → c.wave.inRegion = false → Released s c (s.parts c k) .sys →
    s.paramTrap c (s.parts c k) 1 [b] = none →
    let p := s.parts c k
    let s0 := s.writeBackAt c.core .sys
    let gives (j : Instr) (n : Nat) (v : Dword) (f : State → Prop) : Prop :=
      ∃ (t : State) (w : Wave), exec j s = .next t ∧ t.wave? c.bid c.wid = some w ∧
        Wrote c.wave w a n p (fun _ => v.setWidth 128) noTag ∧
        (∀ j < 32, (w.lane j).pc = if c.active.getLsbD j = true then succPc (c.wave.lane j).pc else (c.wave.lane j).pc) ∧ f t
    let h := s.rd32 c b i
    let va := (s0.rd64 c b i).toNat % 2 ^ 57
    let no := h.toNat
    (s0.readLaunch c.ctx va = .malformed → exec (.launch k a b) s = .next (s0.raise c 0x02 1 7)) ∧
    (s0.readLaunch c.ctx va = .poisoned → exec (.launch k a b) s = .next (s0.raise c 0x0D 0 7)) ∧
    (∀ r d, s0.readLaunch c.ctx va = .ok r d →
      (recNode r ≠ none → exec (.launch k a b) s = .next (s0.raise c 0x02 1 7)) ∧
      (recNode r = none → s0.launchRefused c = true → gives (.launch k a b) 2 (3#32 ++ 0xFFFFFFFF#32) fun _ => True) ∧
      (recNode r = none → s0.launchRefused c = false →
        (s0.freeLaunch = none → ∃ t, exec (.launch k a b) s = .next t ∧ Went t c (c.active &&& ~~~p) ∧
          Waits t c p (fun _ => .launchSlot)) ∧
        (∀ l, s0.freeLaunch = some l → l ≠ blk.launch → gives (.launch k a b) 2
          (0#32 ++ BitVec.ofNat 32 ((if (s.launch l).record = [] then (s.launch l).gen else nextGen 18 (s.launch l).gen) * 4096 + l))
          fun t => (t.launch l).alive = true ∧ (t.launch l).record = r ∧ (t.launch l).desc = d ∧ (t.launch l).ctx = c.ctx ∧
            (t.launch l).counter.outstanding = recN r ∧ (t.launch l).counter.done = false ∧
            (t.launch l).prio = min (recPrio r) blk.prio ∧
            (t.launch blk.launch).counter.outstanding = (s.launch blk.launch).counter.outstanding + 1))) ∧
    (65536 ≤ no → exec (.gsig k b) s = .next (s.raise c 0x02 1)) ∧
    (no < 65536 → (∀ x ∈ s.nodes, x.2.st ≠ 2) → (s.node no).st = 1 → 1 < (s.node no).pred →
      ∃ t, exec (.gsig k b) s = .next t ∧ Went t c c.active ∧
        t.node no = if (s.node no).ctx = c.ctx then { s.node no with pred := (s.node no).pred - 1 } else s.node no) ∧
    ((∀ x ∈ s.blocks, x.2.stopped = none) →
      (s.resolve c.ctx h = none → gives (.cancel k hard a b) 1 2 fun t => t.launches = s.launches) ∧
      (∀ lv, s.resolve c.ctx h = some lv → (s.counter lv).done = true →
        gives (.cancel k hard a b) 1 1 fun t => t.launches = s.launches)) ∧
    (∀ l, s.resolve c.ctx h = some (.launch l) → (s.launch l).counter.done = false → (s.launch l).alive = true →
      recN (s.launch l).record ≤ (s.launch l).nextBlk → (s.launch l).rerun = [] → (∀ v ∈ s.saved, v.blk.launch ≠ l) →
      (∀ x ∈ s.launches, x.2.alive = true → x.2.creator ≠ some l) →
      let s1 := s.cancel (.launch l) hard
      (s1.launch l).counter.cancel = true ∧ (hard = true → (s1.launch l).counter.hard = true) ∧
      (∀ b' x, s.block? b' = some x → s1.block? b' = some (if x.launch = l
        then { x with stopped := some (x.stopped.getD .cancelled) } else x)) ∧
      exec (.cancel k hard a b) s = .next ((s1.complete (s1.recur c) k b .zero .zero
        { writes := writesOf a 1 p fun _ => 0, flags := s.paramFlags c p 1 [b] }).retireStopped)) ∧
    ∃ t f, exec (.cntr k a b) s = .next t ∧
      Ran { s with peerCopies := if s.levelDone c.ctx h then [] else s.peerCopies } t c k a 2 p f noTag (s.paramFlags c p 1 [b]) ∧
      (s.resolve c.ctx h = none → low64 (f i) = BitVec.allOnes 64) ∧
      ∀ lv, s.resolve c.ctx h = some lv → let x := s.counter lv
        low64 (f i) = BitVec.ofNat 64 (x.status * 2 ^ 62 + (if x.done then 2 ^ 61 else 0) + (if x.cancel then 2 ^ 60 else 0) +
          (if x.hard then 2 ^ 59 else 0) + x.outstanding % 2 ^ 32)

/-- R120, R254, R323 to R326, R503, R512: WAITV and SIGV run in a control stream alone. WAITV of a word of this package goes on
if its test holds, else waits; SIGV writes, adds or takes the maximum at home, its .done form after the command's launches;
of another package's word they ask its owner; a misaligned or poisoned word is a CP fault. -/
def Obligations.ControlStreams : Prop :=
  ∀ (s : State) (c : Cur) (k : Ctl) (q : Nat) (cmp : WCmp) (op : SigOp) (w64 done : Bool) (b d : Opnd), s.cur? = some c →
    k.la = 0 →
    let z := if w64 then 8 else 4
    let h := s.hwq q
    let va := (s.rd64 c b 0).toNat
    let y := (s.rd c .int (if w64 then 2 else 1) d 0).toNat
    (c.agent = .wave c.bid c.wid → exec (.waitv k cmp w64 b d) s = .next (s.raise c 0x01 0) ∧
      exec (.sigv k op w64 done b d) s = .next (s.raise c 0x01 0)) ∧
    (c.agent = .cp q → s.parts c k = 0 → ∀ i ∈ [Instr.waitv k cmp w64 b d, .sigv k op w64 done b d],
      ∃ t, exec i s = .next t ∧ t.hwq q = h.advance ∧ KeepsBytes s t) ∧
    (c.agent = .cp q → s.parts c k ≠ 0 →
      (va % z ≠ 0 → exec (.waitv k cmp w64 b d) s = .next (s.cpFault q 5) ∧
        exec (.sigv k op w64 done b d) s = .next (s.cpFault q 5)) ∧
      (va % z = 0 → s.isLocal va = true →
        (∀ l, s.translate c.ctx (va % 2 ^ 57) .read = .ok l →
          let x := s.homeNat l.sa z
          let passes : Prop := match cmp with
            | .eq => x = y | .ne => x ≠ y | .ge => y ≤ x | .lt => x < y | .mask => x &&& y ≠ 0
          (s.accessWaits l.sa = false → s.isPoisoned l.sa = true → exec (.waitv k cmp w64 b d) s = .next (s.cpFault q 6)) ∧
          (s.accessWaits l.sa = false → s.isPoisoned l.sa = false → passes →
            exec (.waitv k cmp w64 b d) s = .next ({ s with peerCopies := [] }.setHwq q h.advance)) ∧
          (s.accessWaits l.sa = true ∨ s.isPoisoned l.sa = false ∧ ¬ passes → ∃ w, exec (.waitv k cmp w64 b d) s = .next (s.setHwq q { h with wait := .test w }) ∧
            w.ea.toNat = va ∧ w.comparand.toNat = y)) ∧
        (done = true → h.liveLaunches ≠ 0 →
          exec (.sigv k op w64 done b d) s = .next (s.setHwq q { h with wait := .done })) ∧
        ((done = true → h.liveLaunches = 0) → s.invalWait = [] →
          ∀ l, s.translate c.ctx va (if op = .set then .write else .atomic) = .ok l → s.accessWaits l.sa = false →
            ∃ t, exec (.sigv k op w64 done b d) s = .next t ∧ t.hwq q = h.advance ∧
              (∀ a, a < l.sa ∨ l.sa + z ≤ a → t.homeByte a = s.homeByte a) ∧
              t.homeNat l.sa z = match op with
                | .set => y | .add => (s.homeNat l.sa z + y) % 2 ^ (8 * z) | .max => max (s.homeNat l.sa z) y)) ∧
      (va % z = 0 → s.isLocal va = false →
        (∃ t w, exec (.waitv k cmp w64 b d) s = .next t ∧ t.hwq q = { h with wait := .test w } ∧ w.ea.toNat = va ∧
          w.comparand.toNat = y ∧ KeepsBytes s t) ∧
        ((done = true → h.liveLaunches = 0) → s.invalWait = [] →
          ∃ t x, exec (.sigv k op w64 done b d) s = .next t ∧ t.hwq q = { h with wait := .ack } ∧ KeepsBytes s t ∧
            t.posted = s.posted ++ [x] ∧ x.va = va ∧ x.data = bytesOf z y ∧ x.op = match op with
              | .set => .write | .add => .red .add false | .max => .red .max false)))

/-- R161, R175, R191, R195, R480, R495: TKRD reads the bucket, the die's balance, the governor's rate, the wave's stall clocks
or a price; PINT posts the largest rise of its lanes and gives its status; RHINT enters a range, with its resident lines, in its
die's queue, whose oldest gives way. -/
def Obligations.TokensAndHints : Prop :=
  ∀ (s : State) (c : Cur) (k : Ctl) (sel : TkSel) (n : BitVec 4) (a b d : Opnd), s.cur? = some c →
    s.paramTrap c (s.parts c k) 1 [b] = none → s.paramTrap c (s.parts c k) 1 [b, .zero] = none →
    let p := s.parts c k
    let die := s.die (dieOf c.core)
    Computes (.tkrd k sel a b) s c k a 1 1 [b, .zero] (fun j r g => g = 0 ∧ low32 r = match sel with
      | .core => BitVec.ofNat 32 (s.core c.core).bucket
      | .die => BitVec.ofNat 32 (min die.balance (2 ^ 32 - 1))
      | .rate => BitVec.ofNat 32 s.gov.g
      | .stall => c.wave.stall
      | .price =>
        let y := (s.rd32 c b j).toNat
        if y < 256 ∧ y % 16 ≤ 11 then
          let base := lget 0 s.tok.price (16 * (y % 16) + y / 16)
          BitVec.ofNat 32 (if base = 0 then 0 else (base * (lget 0 s.tok.opPrice die.op + 1) + 255) / 256)
        else 0xFFFFFFFF) ∧
    (p = 0 → ∃ t, exec (.pint k n a b) s = .next t ∧ Ran s t c k a 1 0 (fun _ => 0) noTag 0) ∧
    (p ≠ 0 → ∀ rise : Nat, (∀ j < 32, p.getLsbD j = true → min 1023 (s.rd32 c b j).toNat ≤ rise) →
      (∃ j < 32, p.getLsbD j = true ∧ min 1023 (s.rd32 c b j).toNat = rise) →
      let t0 := (s.clk.toNat / 12500 + n.toNat) % 65536
      ∃ t s1 st, exec (.pint k n a b) s = .next t ∧
        Ran s1 t c k a 1 p (fun _ => BitVec.ofNat 128 st) noTag (s.paramFlags c p 1 [b]) ∧
        s1 = { s with gov := { s.gov with held := s1.gov.held }, out := s1.out } ∧
        (rise = 0 → st = 3 ∧ s1 = s) ∧
        (rise ≠ 0 → (∃ x ∈ s.gov.held, x.t = t0) → st = 1 ∧ s1.out = s.out ∧
          s1.gov.held = s.gov.held.map fun x => if x.t = t0 then { x with rise := max x.rise rise } else x) ∧
        (rise ≠ 0 → (∀ x ∈ s.gov.held, x.t ≠ t0) → (st = 0 ∨ st = 2) ∧ ∃ x : Intent, s1.gov.held = s.gov.held ++ [x] ∧
          x.rise = rise ∧ x.t = t0 ∧ x.admitted = false ∧ (st = 0 → ∃ m, s1.out = s.out ++ [m]) ∧ (st = 2 → s1.out = s.out))) ∧
    (∀ blk, OfWave s c blk → k.la = 0 →
      (∃ t, exec (.rhint k b d) s = .next t ∧ Went t c c.active ∧ KeepsBytes s t) ∧
      ∀ i, p = BitVec.ofNat 32 (2 ^ i) → i < 32 → dieOf c.core < s.dies.length → (s.rd32 c d i).toNat ≠ 0 →
        let line := (s.rd64 c b i).toNat % 2 ^ 57 / 128 * 128
        let aper := (s.ctx c.ctx).aper.toNat
        line / 2 ^ 30 ≠ aper % 2 ^ 27 → line / 2 ^ 30 ≠ aper / 2 ^ 34 % 2 ^ 27 → s.isLocal line = true →
        let n := min (s.rd32 c d i).toNat 64
        let lines := (List.range n).filterMap fun j => match s.translate c.ctx (line + 128 * j) .read with
          | .ok l => if s.isLocal (line + 128 * j) then some (l.sa / 128) else none
          | .error _ => none
        ∃ t, exec (.rhint k b d) s = .next t ∧ (t.die (dieOf c.core)).hints =
          (if die.hints.length < 64 then die.hints else die.hints.drop 1) ++
            [({ line := line / 128, count := n, interval := s.clk.toNat / 12500, lines } : HintEntry)])

/-- R82, R83, R505, R508: SRD gives the special register that each lane names, and traps on an index that is not assigned; a read
of %clklo latches %clkhi, a read of %capq clears the wave's minimum. SWR clears the bits of %fpstat or %mstat that its lanes
name, but for flags of %mstat set in this clock, and traps on any other index or on two different ones. -/
def Obligations.SpecialRegisters : Prop :=
  ∀ (s : State) (c : Cur) (k : Ctl) (blk : Block) (a b d : Opnd), OfWave s c blk → k.la = 0 →
    s.paramTrap c (s.parts c k) 1 [b, d] = none → s.paramFlags c (s.parts c k) 1 [b, d] = 0 →
    let p := s.parts c k
    let part (j : Nat) : Prop := j < 32 ∧ p.getLsbD j = true
    let idx (j : Nat) : Nat := (s.rd32 c b j).toNat
    let launch := s.launch blk.launch
    let die := s.die (dieOf c.core)
    let seed := recSeed launch.record
    let value (j : Nat) : List Word :=
      [BitVec.ofNat 32 j, BitVec.ofNat 32 c.wid, BitVec.ofNat 32 blk.index, BitVec.ofNat 32 (recN launch.record),
       BitVec.ofNat 32 c.core, BitVec.ofNat 32 s.pkgNo, BitVec.ofNat 32 c.wave.s, BitVec.ofNat 32 blk.prio,
       BitVec.ofNat 32 (launch.gen * 4096 + blk.launch), c.wave.fpstat.setWidth 32, blk.seq.mstat.setWidth 32,
       BitVec.ofNat 32 ((if c.wave.region.isOpen then 1 else 0) + 2 * c.wave.region.lines.length),
       (c.wave.lane j).chain, c.wave.capqMin ++ die.capqCharge, BitVec.ofNat 32 (s.core c.core).bucket,
       BitVec.ofNat 32 die.op, s.clk.setWidth 32, c.wave.clkhi.getD (s.clk.extractLsb' 32 32), seed.setWidth 32,
       seed.extractLsb' 32 32, c.wave.trapCause, c.wave.trapPc.setWidth 32]
    ((∃ j, part j ∧ 22 ≤ idx j) → exec (.srd k a b) s = .next (s.raise c 0x02 1)) ∧
    ((∀ j, part j → idx j < 22) → ∃ (t : State) (w : Wave) (f : Nat → Quad), exec (.srd k a b) s = .next t ∧
      t = s.setWave c.bid c.wid w ∧ Wrote c.wave w a 1 p f noTag ∧
      (∀ j < 32, (w.lane j).pc = if c.active.getLsbD j = true then succPc (c.wave.lane j).pc else (c.wave.lane j).pc) ∧
      (∀ j, part j → low32 (f j) = lget 0 (value j) (idx j)) ∧
      ((∃ j, part j ∧ idx j = 16) → w.clkhi = some (s.clk.extractLsb' 32 32)) ∧
      ((∃ j, part j ∧ idx j = 13) → w.capqMin = 0xFFFF) ∧
      ((∀ j, part j → idx j ≠ 13) → w.capqMin = c.wave.capqMin)) ∧
    (((∃ j, part j ∧ idx j ≠ 9 ∧ idx j ≠ 10) ∨ ∃ j j', part j ∧ part j' ∧ idx j ≠ idx j') →
      exec (.swr k b d) s = .next (s.raise c 0x02 1)) ∧
    (p ≠ 0 → ∀ m, (∀ j, part j → idx j = m) → m = 9 ∨ m = 10 →
      ∃ (t : State) (w : Wave) (x : Block), exec (.swr k b d) s = .next t ∧ t.block? c.bid = some x ∧ x.wave? c.wid = some w ∧
        Went t c c.active ∧ KeepsBytes s t ∧
        (∀ n < 6, w.fpstat.getLsbD n = (c.wave.fpstat.getLsbD n &&
          !(m == 9 && (List.range 32).any fun j => p.getLsbD j && (s.rd32 c d j).getLsbD n))) ∧
        ∀ n < 5, x.seq.mstat.getLsbD n = ((blk.seq.mstat.getLsbD n &&
          !(m == 10 && (List.range 32).any fun j => p.getLsbD j && (s.rd32 c d j).getLsbD n)) ||
          m == 10 && blk.seq.mstatNow.getLsbD n))

/-! ### Decoding, the step and reset -/

/-- R394 step 3 (every storage line is written to zero, with tags and poison clear, before the package is released), R169, R172,
R173, R186, R394 step 4 (every die at OP7) and R319 (no queue is enabled): what reset leaves where the spec gives it. -/
def Obligations.ResetState : Prop :=
  let s := State.reset
  (∀ sa, s.homeByte sa = 0 ∧ s.homeTag sa = false ∧ s.isPoisoned sa = false ∧ ∀ core, s.viewByte core sa = 0) ∧
  (∀ b, s.block? b = none) ∧ (∀ q, (s.hwq q).cfg0 = 0 ∧ (s.hwq q).cmds = [] ∧ s.cpReady (s.hwq q) = false) ∧
  (∀ d < 8, (s.die d).op = 7 ∧ (s.die d).cap = 7 ∧ (s.die d).tokCap = 262144 ∧ (s.die d).balance = 262144) ∧
  (∀ c, (s.core c).bucket = 16384 ∧ (s.core c).log = [] ∧ (s.core c).icache = []) ∧
  s.clk = 0 ∧ s.pkgNo = 0 ∧ s.gov.g = 900 ∧ s.gov.lim.floor = 250 ∧ s.tok.cap = 900000 ∧
  (∀ c va p, (s.ctx c).trap = 0 ∧ s.translate c va p = .error ⟨0, 2⟩) ∧
  s.agenda = [] ∧ step s = .next { s with freeCtr := 1 }.startClock

/-- R35, R94, R115, R120, R323: what a step runs. An event that is due is performed. A wave that has paid, a block's sequencer
that has paid and the chosen control stream each run the instruction that their stream's decoder reads in the slot at their PC,
with that agent as the issuer; nothing else changes first but the issue itself, a cached line, what counts issues and a target
check now done, beside the end of service that the issue before brought (R38). An access that must follow earlier ones of its
lanes is no such issue yet (R239). With nothing left to do in a clock, the next begins. -/
def Obligations.StepRunsDecoded : Prop :=
  ∀ (s : State) (rest : List Turn),
    let s0 := { s.afterIssue with freeCtr := s.freeCtr + 1, issue := none, agenda := rest }
    (s.agenda = [] → rest = [] → step s = .next s0.startClock) ∧
    (∀ i, s.agenda = .ev i :: rest → step s = exec i s0) ∧
    (∀ b i lanes base blk w sa l ins, s.agenda = .issue (.wave b i) lanes base :: rest → s0.block? b = some blk →
      blk.wave? i = some w → s0.waveClaimStands b i lanes = true →
      let pc := (w.lane ((lowLane lanes).getD 0)).pc
      let late := (lanesOf lanes).any fun j => (w.lane j).check
      (if blk.entered then s0.fetch (coreOf b) blk.ctx pc.toNat late else s0.transfer (coreOf b) blk.ctx pc.toNat) = .ok sa l →
      decodeIn blk.regs .wave (slotWord l (slotOfPc pc.toNat)) = .ok ins → w.settled.mustFollow lanes ins = false →
      ∃ s1 c, step s = exec ins s1 ∧ s1.cur? = some c ∧ c.agent = .wave b i ∧ c.bid = b ∧ c.wid = i ∧ c.active = lanes ∧
        c.price = s0.priceOn (coreOf b) base ∧ c.wave = { w with rot := c.wave.rot, lanes := c.wave.lanes, offered := 0 } ∧
        (∀ j < 32, c.wave.lane j = { w.lane j with check := (w.lane j).check && !lanes.getLsbD j }) ∧
        (s1.agenda = rest ∨ s1.agenda = .ev (.rotationSweep b i) :: rest) ∧
        s1 = { s0 with
          issue := s1.issue, issuedParts := s1.issuedParts, cores := s1.cores, blocks := s1.blocks, agenda := s1.agenda } ∧
        ∀ b', b' ≠ b → s1.block? b' = s0.block? b') ∧
    (∀ b lanes base blk sa l ins, s.agenda = .issue (.seq b) lanes base :: rest → s0.block? b = some blk →
      s0.seqReady b blk = true →
      (if blk.seq.entered then s0.fetch (coreOf b) blk.ctx blk.seq.pc.toNat false
        else s0.transfer (coreOf b) blk.ctx blk.seq.pc.toNat) = .ok sa l →
      decode .matrix (slotWord l (slotOfPc blk.seq.pc.toNat)) = .ok ins →
      ∃ s1, step s = exec ins s1 ∧ s1.seq? = some (b, { blk with seq := { blk.seq with entered := true } }) ∧
        s1 = { s0 with issue := s1.issue, cores := s1.cores, blocks := s1.blocks }) ∧
    ∀ q l ins, s.agenda = .agent (.cp q) :: rest → s0.cpReady (s.hwq q) = true → s0.cpLine q (s.hwq q) = .inr l →
      decode .control (slotWord l (slotOfPc (s.hwq q).pc.toNat)) = .ok ins →
      step s = exec ins { s0.setHwq q { s.hwq q with wait := .no } with
        issue := some { agent := .cp q, active := 1, price := 0 }, cpRotor := (q + 1) % 256 }

/-- R98, R102, R104, R116 and the worked encodings of R175, R299, R306, R325, R357, R405, R407, R414, R424, R427, R432, R449,
R455, R467, R481, R489, R505, R506, R509, R511: words that the spec writes out decode to the instructions that it says. -/
def Obligations.DecodeWords : Prop :=
  let kw := Ctl.plain .wave
  let km := Ctl.plain .matrix
  let kc := Ctl.plain .control
  decode .wave 0x101FFFDFFC160AA494060040 = .ok (.iadd
    { kw with guard := ⟨2, .lane 3, 5, 9, false, true⟩, holdB := true } .i32 false (.lane 10) (.lane 11) (.imm 0x3FFFB)) ∧
  decode .wave 0x00000027FA84010000000040 = .ok (.iadd kw .i32 false (.lane 1) .laneIdx (.param 0 4)) ∧
  decode .wave 0x000000000000000000000006 = .ok (.exit kw) ∧
  decode .wave 0x0000002803FE000000000009 = .ok (.trap kw 5) ∧
  decode .wave 0x00004027FC0E030000004087 = .ok (.bfx kw .n32 (.lane 3) (.lane 7) (.imm 0x804)) ∧
  decode .wave 0x000960200C04010000004082 = .ok (.logt kw false (.lane 1) (.lane 2) (.lane 3) (.lane 4) 0x96) ∧
  decode .wave 0x00007F800000070000004081 = .ok (.movi kw (.lane 7) 0x3FC00000) ∧
  decode .wave 0x000000401C0C0C00000010C3 = .ok (.ffma kw .f32 .rz (.lane 12) (.lane 6) (.lane 7) (.lane 8)) ∧
  decode .wave 0x00000000180A040000000900 = .ok (.padd kw .bf16 .rn (.lane 4) (.lane 5) (.lane 6)) ∧
  decode .wave 0x00400087FC04140000000184 = .ok (.ld { kw with la := 2 } .n32 none false false (.lane 20) (.lane 2) (.imm 16)) ∧
  decode .wave 0x0000001D00040000000101B0 = .ok (.red kw .add false false .pkg false false (.lane 2) .zero (.lane 3)) ∧
  decode .wave 0x00000055000C00000001618A = .ok (.st kw .n32 (some .sys) false false (.lane 6) .zero (.lane 10)) ∧
  decode .wave 0x00002825000C000000015193 = .ok (.waita kw .ge false (some .sys) false (.lane 6) .zero (.uni 4)) ∧
  decode .wave 0x000000401808140000000591 = .ok (.ldchain kw true false (.lane 20) (.lane 4) (.lane 6) (.lane 8)) ∧
  decode .wave 0x0000000000000000000141C0 = .ok (.fence kw .sys) ∧
  decode .wave 0x0000000500140000000141C1 = .ok (.acqp kw .sys (.lane 10) .zero) ∧
  decode .wave 0x000000000000000000000DC2 = .ok (.qfence kw 3) ∧
  decode .wave 0x0000001FFC08000000001200 = .ok (.ckick kw 1 (.lane 4) (.imm 3)) ∧
  decode .wave 0x00000017FC0C000000000604 = .ok (.mputRed kw 0 (.lane 6) (.imm 2)) ∧
  decode .wave 0x0000006803FE01000000028C = .ok (.srd kw (.lane 1) (.imm 13)) ∧
  decode .wave 0x000000000001000000000288 = .ok (.tkrd kw .core (.uni 0) (.lane 0)) ∧
  decode .matrix 0x000000088440000000000241 = .ok (.mma km (.m 0) (.x 0) (.x 1) (.m 1)) ∧
  decode .matrix 0x001FFFE803FE020000000249 = .ok (.mloop km (.m 2) 0x3FFFD) ∧
  decode .control 0x0000000FFE04000000004685 = .ok (.sigv kc .add false true (.uni 2) (.imm 1)) ∧
  decode .wave 0x00000000000000000000000C = .error .illegalInstr ∧
  decode .wave 0x0020000000000000000000C0 = .error .illegalInstr ∧
  decode .control 0x0000002803FE000000000009 = .error .illegalInstr

/-- R98 to R107, R116 to R121, R299, R300: every instruction that has an encoding in a stream has one word, and that stream's
decoder reads the word as that instruction, with every operand, modifier, guard and control as it was. -/
def Obligations.EncodeRoundTrip : Prop :=
  ∀ (st : Stream) (i : Instr), i.wf st = true → ∃ w, encode i = some w ∧ decode st w = .ok i

/-- The model's own invariant holds at reset: memory is in canonical form and every die, stack and port is there. -/
def Obligations.WholeAtReset : Prop := Whole State.reset

/-- The model's own invariant: from every state in which memory is in canonical form and every die, stack and port is there, no
step loses that. -/
def Obligations.WholeKept : Prop :=
  ∀ s t : State, Whole s → step s = .next t → Whole t

/-- R228 to R232: translation of an address of this package's window. The walk reads the root's entry by VA[44:30], then level 1's
by VA[29:21], then level 0's by VA[20:16]; an invalid entry, a malformed one, a poisoned one and a leaf without the permission
fault with the level they stand at; a leaf gives its frame and the offset within its page. -/
def Obligations.Translation : Prop :=
  ∀ (s : State) (ctx va : Nat) (need : Perm),
    let root := (s.ctx ctx).trnRoot.toNat
    (root.testBit 0 = false → s.translate ctx va need = .error ⟨0, 2⟩) ∧
    (root.testBit 0 = true → s.translate ctx va need = s.walk va need 2 (root / 4096 % 2 ^ 30 * 4096)) ∧
    ∀ level table, level ≤ 2 →
      let sa := storageOf (table + 8 * (match level with
        | 0 => va / 2 ^ 16 % 2 ^ 5 | 1 => va / 2 ^ 21 % 2 ^ 9 | _ => va / 2 ^ 30 % 2 ^ 15))
      let e := s.homeNat sa 8
      let frame := e / 4096 % 2 ^ 30 * 4096
      let page := match level with | 0 => 2 ^ 16 | 1 => 2 ^ 21 | _ => 2 ^ 30
      let reserved : Prop := e / 2 ^ 60 ≠ 0 ∨ e / 2 ^ 42 % 2 ^ 13 ≠ 0 ∨ e / 4 % 2 ^ 10 ≠ 0
      (s.isPoisoned sa = true → s.walk va need level table = .error ⟨5, level⟩) ∧
      (s.isPoisoned sa = false →
        (reserved → s.walk va need level table = .error ⟨4, level⟩) ∧
        (¬ reserved →
          (e % 4 = 0 → s.walk va need level table = .error ⟨0, level⟩) ∧
          (e % 4 = 1 → s.walk va need level table =
            match level with | 0 => .error ⟨4, 0⟩ | l + 1 => s.walk va need l frame) ∧
          (e % 4 = 3 → s.walk va need level table = .error ⟨4, level⟩) ∧
          (e % 4 = 2 → frame % page ≠ 0 → s.walk va need level table = .error ⟨4, level⟩) ∧
          (e % 4 = 2 → frame % page = 0 →
            ((need = .read ∨ (need = .atomic ∧ e.testBit 56 = true)) → e.testBit 55 = false →
              s.walk va need level table = .error ⟨1, level⟩) ∧
            (need = .atomic → e.testBit 55 = false → e.testBit 56 = false →
              ∃ n, (n = 1 ∨ n = 2) ∧ s.walk va need level table = .error ⟨n, level⟩) ∧
            ((need = .write ∨ (need = .atomic ∧ e.testBit 55 = true)) → e.testBit 56 = false →
              s.walk va need level table = .error ⟨2, level⟩) ∧
            (need = .exec → e.testBit 57 = false → s.walk va need level table = .error ⟨3, level⟩) ∧
            ((match need with
                | .read => e.testBit 55 = true | .write => e.testBit 56 = true
                | .atomic => e.testBit 55 = true ∧ e.testBit 56 = true | .exec => e.testBit 57 = true) →
              s.walk va need level table = .ok { sa := storageOf (frame + va % page), tagged := e.testBit 58, sysatom := e.testBit 59 }))))

/-! ### Events -/

/-- R38, R95, R112, R237, R250, R266, R278, R290, R329, R504, R511, R519: what happens to a wave between its instructions. A due
sweep takes its snapshot; a complete result is written; a sleeper wakes at its deadline; lanes that wait for room, a count or
a launch slot issue again; those that wait for earlier writes go on; an ACQP ends; WAITA reads its word of this package
again; holds that no merge table knows are dropped; one package's acknowledgement of a promotion leaves the others awaited; a fault-pending reply holds lanes; a line is fetched afresh. -/
def Obligations.WaveEvents : Prop :=
  ∀ (s : State) (b i : Nat) (blk : Block) (w : Wave), s.block? b = some blk → blk.wave? i = some w → w.lanes.length = 32 →
    let gives (e : Instr) (w' : Wave) : Prop := exec e s = .next (s.setWave b i w')
    let wakes (e : Instr) (p : Nat → Prop) (f : Lane → Lane) : Prop :=
      ∃ t w', exec e s = .next t ∧ t.wave? b i = some w' ∧ w'.held = w.held ∧
        ∀ j < 32, (p j → w'.lane j = f (w.lane j)) ∧ (¬ p j → w'.lane j = w.lane j)
    let up (l : Lane) : Lane := { l with st := .live }
    let pass (l : Lane) : Lane := { l with st := .live, pc := succPc l.pc, paid := false, waitsTo := none }
    let going : Prop := ∃ j < 32, (w.lane j).isExited = false
    (64 ≤ w.rot.count → w.rot.snap = [] → ∃ r, gives (.rotationSweep b i) { w with rot := r } ∧
      r.snap = w.readyRuns.filter (fun m => m &&& w.rot.last == 0) ∧ r.served = 0 ∧ r.last = 0) ∧
    (w.rot.count < 64 → gives (.rotationSweep b i) w) ∧
    (∀ id p, going → w.pend.find? (fun x => x.id == id) = some p → p.waiting = 0 → p.again = none → p.acq = none →
      gives (.lookaheadResultWrite b i id [] none) (Wave.land
        { w with pend := w.pend.filter fun x => x.id != id, held := w.held.filter fun h => h.pend != some id } p)) ∧
    (∀ j < 32, ∀ t, (w.lane j).st = .blocked (.sleep t) →
      wakes (.sleepWake b i j) (fun n => n = j ∧ t.toNat ≤ s.clk.toNat) up) ∧
    (w.queueNumbers = [] → wakes (.waitResume b i) (fun j => match (w.lane j).st with
      | .blocked .launchSlot => s.freeLaunch ≠ none
      | .blocked (.room m n) => ∀ q < 4, m.getLsbD q = true → (lget [] (s.core (coreOf b)).reQueues q).length + n ≤ 64
      | .blocked (.bcw _) => ∀ j' < 32, ∀ off, (w.lane j').st = .blocked (.bcw off) → (w.lane j').pc = (w.lane j).pc →
          blk.bcZero off = true
      | _ => False) up) ∧
    (w.commit = [] → (∀ x ∈ s.blocks, x.2.stopped = none) → wakes (.accessPerformed b i) (fun j =>
      ∃ sc, (w.lane j).st = .blocked (.order sc) ∧ s.mustWait b sc (w.lane j).waitsTo = false) up) ∧
    ((∀ x ∈ s.cores, ∀ p ∈ x.2.promos, p.local? ≠ some (b, i)) → w.acks = [] →
      wakes (.acqpComplete b ⟨i, none⟩) (fun j => ∃ sc, (w.lane j).st = .blocked (.acqp sc)) pass) ∧
    (∀ n, w.acks.filter (· != n) ≠ [] → gives (.acqpComplete b ⟨i, some n⟩) { w with acks := w.acks.filter (· != n) }) ∧
    (∀ j < 32, ∀ x va leaf, (w.lane j).st = .blocked (.waita x) →
      let z := if x.w64 then 8 else 4
      s.steer blk i j x.ea.toNat z = .global va → s.isLocal va = true → s.translate blk.ctx va .read = .ok leaf →
      w.inRegion = false → s.isPoisoned leaf.sa = false → s.accessWaits leaf.sa = false →
      let v := ofBytes ((List.range z).map fun n => s.viewByte (coreOf b) (leaf.sa + n))
      let y := x.comparand.toNat
      wakes (.waitaReread b i j none) (fun n => n = j ∧ match x.cmp with
        | .eq => v = y | .ne => v ≠ y | .ge => y ≤ v | .lt => v < y | .mask => v &&& y ≠ 0) pass) ∧
    (i < 64 → going → w.pend = [] → ∃ t w', exec (.translationRetry b i) s = .next t ∧ t.wave? b i = some w' ∧
      w' = { w with held := w'.held } ∧
      w'.held = w.held.filter fun h => h.remote || (s.mergeTable (dieOf (coreOf b))).any fun e => e.ctx == h.ctx && e.granule == h.granule) ∧
    (∀ (m : LaneSet) g, i < 64 → m ≠ 0 → (∀ p ∈ w.pend, p.waiting &&& m = 0) →
      (∀ j < 32, m.getLsbD j = true → ∃ x, (w.lane j).st = .blocked (.waita x)) → w.inRegion = false →
      ∃ w', gives (.faultPendingReply b i m g) w' ∧ (∀ j < 32, m.getLsbD j = true → w'.lane j = up (w.lane j)) ∧
        w'.held = w.held ++ [({ lanes := m, ctx := blk.ctx, granule := g, remote := true, abortWait := false } : Held)]) ∧
    ∀ ctx va leaf, s.translate ctx (lineAt va) .exec = .ok leaf →
      let l := lineOfBytes (s.viewBytes (coreOf b) leaf.sa 64)
      ∃ t, exec (.lineRefetch (coreOf b) ctx va) s = .next t ∧
        tfind (t.core (coreOf b)).icache (leaf.sa / 64) =
          if (parityBad l).isSome || s.isPoisoned leaf.sa then none else some l

/-- R163, R164, R176, R190, R235, R236, R249, R250, R257, R273, R277, R278, R288, R289, R292, R306, R307: what a core, its engine
queues, its array and the merge tables do. Claims are paid or stall; a promotion or an aged log entry is served; a fence
leaves its queues; an op 1 request takes a slot; a copy reads a line, writes it, counts it and leaves; an array cycle updates its columns;
old writes go home; fault records reach the ring; the driver's answers and invalidations take their effect. -/
def Obligations.CoreEvents : Prop :=
  ∀ (s : State) (core q : Nat),
    let c := s.core core
    let stays (e : Instr) : Prop := exec e s = .next s
    let leads (e : Instr) (f : State → Prop) : Prop := ∃ t, exec e s = .next t ∧ f t
    let alone (x : Nat) : Prop := s.dies.length = 8 ∧ (∀ p ∈ s.blocks, p.2.ctx ≠ x) ∧
      ∀ n < 9, ∀ e ∈ s.mergeTable n, e.ctx = x → e.waiters = []
    (c.promos = [] → stays (.promote core none)) ∧
    (∀ p rest, c.promos = p :: rest → p.remote = none → p.scope ≠ .sys → leads (.promote core none) fun t =>
      (t.core core).promos = rest ∧ ∀ e ∈ (t.core core).log, e ∈ c.log) ∧
    (∀ r, s.ctxOfJob r.job = none → exec (.promote core (some r)) s = .next (s.send (.promoteAck r.srcPkg r.id))) ∧
    ((∀ e ∈ c.log, (c.writeGen - e.gen).toNat < 2 ^ 30) → stays (.promoLogAgeEvict core)) ∧
    (∀ e rest, c.log = e :: rest → 2 ^ 30 ≤ (c.writeGen - e.gen).toNat → leads (.promoLogAgeEvict core) fun t =>
      (t.core core).log = rest.filter fun x => x != e) ∧
    (∀ k b i l w, s.coreRuns core = true → c.reservation = none → c.claims = [k] → k.claimant < 5 → (∀ n, lget [] c.reQueues n = []) →
      k.agent = some (.wave b i) → k.free = false → k.cells = [l] → s.waveClaimStands b i k.lanes = true → s.wave? b i = some w →
      let p := s.dearest l
      (s.priceOn core p ≤ c.bucket → leads (.tokenClaimService core) fun t =>
        (t.core core).bucket = c.bucket - s.priceOn core p ∧ (t.core core).claims = [] ∧ t.gov.paid = s.gov.paid + s.priceOn core p ∧
        t.agenda = .issue (.wave b i) k.lanes p :: s.agenda) ∧
      (c.bucket < s.priceOn core p → leads (.tokenClaimService core) fun t =>
        (t.core core).bucket = c.bucket ∧ (t.core core).claims = [k] ∧ (t.core core).reservation = some k.claimant ∧
        t.agenda = s.agenda ∧ t.wave? b i = some { w with stall := w.stall + 1 })) ∧
    (c.selfTest = true → ∀ failed, leads (.selftestGranuleEnd core failed) fun t => (t.core core).selfTest = false ∧
      (failed = false → t.mil = s.mil) ∧ (failed = true → t.mil.logSeq = (s.mil.logSeq + 1) % 2 ^ 32)) ∧
    (∀ m id, m ≠ 0 → (∀ n < 4, m.getLsbD n = true → ∃ e rest, lget [] c.reQueues n = e :: rest ∧ e.kind = .fence m id) →
      (∀ n < 4, m.getLsbD n = false → ∀ e rest, lget [] c.reQueues n = e :: rest → e.isFence = false) →
      leads (.qfenceRelease core) fun t => ∀ n < 4, lget [] (t.core core).reQueues n =
        if m.getLsbD n = true then (lget [] c.reQueues n).drop 1 else lget [] c.reQueues n) ∧
    (∀ e b, s.head? core q = some e → s.entryBlock e = some b → b.queues.length = 8 → e.toQueue = true → e.slot = none →
      s.mayStart core e = true →
      let x := b.queue (cpQueue e.record)
      (x.free = 0 ∨ x.served = true → stays (.queueSlotTake core q)) ∧
      (0 < x.free → x.served = false → leads (.queueSlotTake core q) fun t => t.head? core q = some { e with slot := some x.tail } ∧
        ∃ b', t.block? e.blk = some b' ∧ b'.queue (cpQueue e.record) =
          { x with free := x.free - 1, tail := (x.tail + 1) % x.count, slots := lset x.slots x.tail (.filling e.total)
                   served := true })) ∧
    (∀ e, s.head? core q = some e → e.isFence = false → e.acks = 0 → e.asked = false → e.fatal = false →
      (e.step ≠ 0 → s.slotServed e = false → leads (.reLine core q none) fun t =>
        t.head? core q = some { e with counted := e.counted + e.step, step := 0, poisoned := false }) ∧
      (e.isCopy = true → e.step = 0 → e.toQueue = false → e.done = e.total → e.held = none →
        leads (.reLine core q none) fun t => lget [] (t.core core).reQueues q = (lget [] c.reQueues q).drop 1) ∧
      (e.isCopy = true → s.reReady core e = true → let p := s.rePart e
        (∀ va l, e.got = none → 0 < e.paid → p.src = some (false, va) → s.isLocal va = true →
          s.translate e.ctx va .read = .ok l → s.isPoisoned l.sa = false → s.dirty = [] → leads (.reLine core q none) fun t =>
            t.mem = s.mem ∧ t.head? core q = some { e with got := some (s.homeBytes l.sa p.n) }) ∧
        ∀ data off b, e.got = some data → 1 < e.paid → p.dst = some (true, off) → s.entryBlock e = some b →
          leads (.reLine core q none) fun t =>
            (∀ o, spadAt t e.blk o = if off ≤ o ∧ o < off + data.length then lget 0 data (o - off) else b.spadByte o) ∧
            t.head? core q = some { e with
              done := e.done + p.n, step := p.n, acks := 0, poisoned := false, asked := false, paid := 0, held := none
              got := none })) ∧
    (c.array = none → stays (.arrayCycle core)) ∧
    (∀ b blk r, c.array = some b → s.block? b = some blk → blk.seq.mma = some r → blk.seq.paid = true → blk.seq.st = .mma →
      blk.runs = true → r.col < r.n →
      let last := min r.n (r.col + min (wordCols (fwA r.fw)) (wordCols (fwB r.fw)))
      let pa (i k : Nat) := planOf (r.planA blk.spadSize i k)
      let pb (k j : Nat) := planOf (r.planB blk.spadSize k j)
      (∀ i < 128, ∀ k < 64, ∀ p, pa i k = some p → ∀ y ∈ p.spots, y.spad = true) →
      (∀ j, r.col ≤ j → j < last → ∀ k < 64, ∀ p, pb k j = some p → ∀ y ∈ p.spots, y.spad = true) →
      leads (.arrayCycle core) fun t => ∃ x, t.block? b = some x ∧ x.waves = blk.waves ∧
        (∀ j, r.col ≤ j → j < last → ∀ i < 128, x.seq.accAt (r.c0 + j) i = (mUpdate (blk.seq.accAt (r.c0 + j) i)
          ((List.range 64).map fun k => s.mmaElem b blk (fwA r.fw) (fwZa r.fw) r.binds.zca (pa i k))
          ((List.range 64).map fun k => s.mmaElem b blk (fwB r.fw) (fwZb r.fw) r.binds.zcb (pb k j))).1) ∧
        (last = r.n → x.seq.mma = none ∧ x.seq.st = .running ∧ x.seq.pc = succPc blk.seq.pc ∧ (t.core core).array = none) ∧
        (last < r.n → x.seq.mma = some { r with col := last } ∧ x.seq.paid = false)) ∧
    (c.array ≠ none → stays (.arraySelect core)) ∧
    (∀ x, c.array = none → s.arrayWaiters core = [x] → leads (.arraySelect core) fun t => (t.core core).array = some x.1) ∧
    (let near (x : DirtyByte) : Prop := x.core = core ∧ (x.lvl = 1 ∨ (x.lvl = 0 ∧ s.sees core x = true))
     leads (.lineWritebackDeadline core) fun t => (∀ x ∈ t.dirty, near x → (s.clk - x.birth).toNat < 25000) ∧
      ∀ d, s.dirty = [d] → near d → 25000 ≤ (s.clk - d.birth).toNat → t.dirty = [] ∧ t.homeByte d.sa = d.val) ∧
    (s.faultWait = [] ∨ s.ringFull = true → stays .faultRecordEmit) ∧
    (∀ r rest, s.faultWait = r :: rest → s.ringFull = false → leads .faultRecordEmit fun t =>
      t.faultWait = rest ∧ t.pkg.fltTail = s.pkg.fltTail + 1 ∧
      let pa := s.pkg.fltRing.toNat / 2 ^ 12 % 2 ^ 30 * 4096 + 16 * (s.pkg.fltTail.toNat % s.ringCap)
      t.homeNat (storageOf pa) 16 = (r.va % 2 ^ 57 * 2 ^ 71 + s.pkg.fltTail.toNat * 2 ^ 32 + r.srcPkg * 2 ^ 20 + r.ctx * 2 ^ 12 +
        r.kind * 2 ^ 8 + r.access * 2 ^ 4 + r.level * 4 + (if r.remote then 2 else 0)) % 2 ^ 128) ∧
    (∀ v : Dword, let g := v.toNat / 2 ^ 16 % 2 ^ 41
      let x := v.toNat / 2 ^ 8 % 2 ^ 8
      (2 ≤ v.toNat / 2 ^ 62 → stays (.trnResolve v)) ∧
      (v.toNat / 2 ^ 62 < 2 → (∀ n < 9, ∀ e ∈ s.mergeTable n, e.ctx = x → e.granule = g → e.waiters = []) →
        (∀ d, (s.die d).fifo = []) → s.reorder = [] → s.blocks = [] → s.dies.length = 8 → leads (.trnResolve v) fun t =>
          ∀ n < 9, t.mergeTable n = (s.mergeTable n).filter fun e => !(e.ctx == x && e.granule == g)) ∧
      (v.getLsbD 63 = false ∨ s.pkg.invalDone = false → stays (.trnInval v)) ∧
      (v.getLsbD 63 = true → s.pkg.invalDone = true → alone x → exec (.trnInval v) s = .next
        { s with pkg := { s.pkg with invalDone := false, inval := v }, inbox := s.inbox ++ [(s.clk.toNat, Instr.trnInvalDone)] })) ∧
    (s.pkg.invalDone = true → stays .trnInvalDone) ∧
    (s.pkg.invalDone = false → alone (s.pkg.inval.toNat / 2 ^ 8 % 2 ^ 8) →
      exec .trnInvalDone s = .next { s with pkg := { s.pkg with invalDone := true } }) ∧
    ∀ src (n : NoticeOf) fatal, let g := n.granule
      let serves (ctx : Nat) : Prop := (s.ctx ctx).fabric.setWidth 16 = n.job
      (g * 65536 / 2 ^ 45 % 4096 ≠ src ∨ src = s.pkgNo → stays (.faultNotice src n fatal)) ∧
      (g * 65536 / 2 ^ 45 % 4096 = src → src ≠ s.pkgNo → s.hwqs = [] →
        (s.blocks = [] → ∀ e, s.head? core q = some e → e.held = some g → serves e.ctx →
          leads (.faultNotice src n fatal) fun t => t.head? core q = some { e with held := none, fatal := e.fatal || fatal }) ∧
        (∀ b x w, fatal = false → s.cores = [] → s.blocks = [(b, x)] → x.waves = [w] → x.seq.st = .absent → x.stopped = none →
          serves x.ctx → w.pend = [] → (∃ l ∈ w.lanes, l.isExited = false) → leads (.faultNotice src n fatal) fun t =>
            ∃ w', t.wave? b 0 = some w' ∧ w' = { w with held := w'.held } ∧
              ∀ h, h ∈ w'.held ↔ h ∈ w.held ∧ ¬ (h.remote = true ∧ h.granule = g ∧ serves h.ctx)))

/-- R32, R33, R167, R171 to R173, R178 to R181, R184 to R186, R190, R192 to R197, R200 to R202, R515 to R518: charge samples,
sensors, supplies, operating points and HBM states, Milliner's registers, the refill tick, the governor's interval and Ecolo. -/
def Obligations.PowerEvents : Prop :=
  ∀ (s : State) (d : Nat), d < 8 → s.dies.length = 8 → s.hbms.length = 32 →
    let x := s.die d
    let stays (e : Instr) : Prop := exec e s = .next s
    let leads (e : Instr) (f : State → Prop) : Prop := ∃ t, exec e s = .next t ∧ f t
    let holdOf (h : Holds) (w : Supply) : Bool := match w with
      | .voltage _ | .rail _ _ => h.volt | .coolant _ => h.coolant | .caseTemp _ => h.caseTemp | .current _ => false
    let astray (w : Supply) : Prop := match w with
      | .voltage mV => mV < 46000 ∨ 54000 < mV | .coolant t => 640 < t | .rail n mV => Config.railOk n mV = false
      | .caseTemp t => Config.caseLimit < t | .current _ => False
    let idle : Prop := s.reorder = [] ∧ s.blocks = []
    -- charge (R193, R194)
    (∀ q, leads (.capqSample d q) fun t => (t.die d).capqCharge = q ∧
      (t.die d).capqMin = (if q ≠ 65535 ∧ q < x.capqMin then q else x.capqMin) ∧ (q = 65535 → (t.die d).droop = true)) ∧
    (x.failCount = 8 → x.holds.capacitor = false → leads (.capacitorHold d) fun t =>
      (t.die d).holds = { x.holds with capacitor := true } ∧ (t.die d).cap ≤ 2) ∧
    (x.failCount ≠ 8 → stays (.capacitorHold d)) ∧
    (x.validSince = 10 ^ 7 → x.holds.capacitor = true → leads (.capacitorHoldEnd d) fun t =>
      (t.die d).holds = { x.holds with capacitor := false } ∧ (t.die d).op = x.op) ∧
    exec (.capqRead d) s = .next { s with
      dies := lset s.dies d { x with capqMin := 65535 }
      out := s.out ++ [OutMsg.hostReply (some (bytesOf 4 (x.capqMin.toNat * 65536 + x.capqCharge.toNat)))] } ∧
    -- sensors and supplies (R32, R33, R201)
    (∀ rs : List Int, leads (.sensorSample d rs) fun t =>
      let y (i : Nat) : Sensor := lget Sensor.reset (t.die d).sensors i
      (∀ i < 16, (lget 0 rs i < -640 ∨ 2400 < lget 0 rs i → (y i).cls = 3) ∧ (y i).subst = decide ((y i).cls ≠ 0) ∧
        ((y i).cls = 0 → (y i).temp = lget 0 rs i)) ∧
      (3 ≤ ((t.die d).sensors.filter fun z => z.cls != 0).length → (t.die d).holds.sensor = true) ∧
      ((∃ i < 16, 1680 < (y i).temp) → (t.die d).thermalCap = 0 ∨ (t.die d).thermalCap < x.thermalCap)) ∧
    (x.fewFlagged = 1000 → x.holds.sensor = true → leads (.sensorHoldEnd d) fun t =>
      (t.die d).holds = { x.holds with sensor := false }) ∧
    (100 ≤ x.coolSamples → leads (.thermalCapRise d) fun t =>
      (t.die d).thermalCap = min 7 (x.thermalCap + 1) ∧ (t.die d).coolSamples = 0) ∧
    (∀ w, (astray w → stays (.supplyHoldRelease w) ∧ leads (.supplyOutOfRange w) fun t =>
        t.mil.logSeq = (s.mil.logSeq + 1) % 2 ^ 32 ∧ ∀ n < 8, holdOf (t.die n).holds w = true ∧ (t.die n).cap ≤ 2) ∧
      (¬ astray w →
        ((supplyKey w, none) ∉ s.supplyOut → stays (.supplyOutOfRange w)) ∧
        ((supplyKey w, none) ∈ s.supplyOut → leads (.supplyOutOfRange w) fun t =>
          t.dies = s.dies ∧ (s.clk.toNat + 1250000000, .supplyHoldRelease w) ∈ t.inbox) ∧
        ∀ since, s.supplyOut = [(supplyKey w, some since)] →
          (s.clk.toNat < since + 1250000000 → stays (.supplyHoldRelease w)) ∧
          (since + 1250000000 ≤ s.clk.toNat → leads (.supplyHoldRelease w) fun t => t.supplyOut = [] ∧
            ∀ n < 8, holdOf (t.die n).holds w = false ∧ (t.die n).op = (s.die n).op))) ∧
    -- operating points (R178, R179, R515)
    (∀ v : Word, v.getLsbD 31 = true → v.toNat / 2 ^ 29 % 4 = 0 → v.toNat % 16 ≤ 7 → x.phase = 0 → x.inReset = false →
      leads (.opReq d v) fun t => (t.die d).target = min (v.toNat % 16) x.capNow ∧ (t.die d).op = x.op ∧
        (t.die d).status = (if v.toNat % 16 ≤ x.capNow then 1 else 5) ∧
        (t.die d).phase = if min (v.toNat % 16) x.capNow = x.op then 0 else if x.op < min (v.toNat % 16) x.capNow then 1 else 2) ∧
    (∀ v : Word, v.getLsbD 31 = false → stays (.opReq d v)) ∧
    (x.phase = 1 → exec (.opVoltageRiseDone d) s = .next { s with
      dies := lset s.dies d { x with phase := 2 }, inbox := s.inbox ++ [(s.clk.toNat + 250, Instr.opClockStopDone d)] }) ∧
    (x.phase = 2 → x.waiting = none → x.fifo = [] → idle → x.target ≤ x.capNow → leads (.opClockStopDone d) fun t =>
      (t.die d).op = x.target ∧ (t.die d).phase = if x.target < x.op then 3 else 0) ∧
    (x.phase = 3 → x.waiting = none → x.op ≤ x.capNow → leads (.opVoltageFallDone d) fun t =>
      (t.die d).op = x.op ∧ (t.die d).phase = 0) ∧
    -- HBM (R200)
    (∀ k < 32, ∀ v : Word, v.getLsbD 31 = true → ((s.stack k).group = 15 → leads (.hbmCtl k v) fun t => t.stack k =
          { s.stack k with status := 1, target := v.toNat / 2 ^ 24 % 4, group := 0 }) ∧
        ((s.stack k).group ≠ 15 → leads (.hbmCtl k v) fun t => t.stack k = { s.stack k with status := 2 })) ∧
    (∀ k < 32, (7 < (s.stack k).group → stays (.hbmGroupRetrainDone k)) ∧
      ((s.stack k).group ≤ 7 → (s.die (k / 4)).fifo = [] → idle → leads (.hbmGroupRetrainDone k) fun t => t.stack k = if (s.stack k).group = 7
        then { s.stack k with group := 15, hbmState := (s.stack k).target } else { s.stack k with group := (s.stack k).group + 1 })) ∧
    -- Milliner's registers (R171 to R173, R185, R186, R192, R194)
    (∀ v : Dword, exec (.tokCfgCommit v) s = .next { s with tok := { s.tok with commit := s.tok.commit || v.getLsbD 63 } }) ∧
    (∀ (i : Nat) (v : Dword), let n := v.toNat
      (leads (.millinerRegisterWrite .tokCfg i v) fun t => t.tok.reserve = s.tok.reserve ∧
        t.tok.stagedCfg = some (n / 2 ^ 32 % 4096, max 256 (min (n / 2 ^ 16 % 8192) 4096))) ∧
      (leads (.millinerRegisterWrite .tokWeight i v) fun t => ∀ k < 8, lget 0 t.tok.weights k = n / 16 ^ k % 16) ∧
      (i < s.tok.priceStaged.length → leads (.millinerRegisterWrite .priceTab i v) fun t =>
        lget 0 t.tok.priceStaged i = n % 4096 ∧ t.tok.price = s.tok.price) ∧
      (leads (.millinerRegisterWrite .opPrice i v) fun t =>
        (∀ k < 8, lget 0 t.tok.opPriceStaged k = n / 256 ^ k % 256) ∧ t.tok.opPrice = s.tok.opPrice) ∧
      (leads (.millinerRegisterWrite .govCfg i v) fun t => t.gov.lim = s.gov.lim ∧
        let r := match s.tok.stagedCfg with | some p => p.1 | none => s.tok.reserve
        t.gov.limNext.rated = max (r + 1) (min (n / 2 ^ 42 % 1024) 900) ∧
        t.gov.limNext.floor = max r (min (n / 2 ^ 32 % 1024) t.gov.limNext.rated)) ∧
      (leads (.millinerRegisterWrite .govSlew i v) fun t => t.gov.lim = s.gov.lim ∧
        t.gov.limNext.up = max 1 (min (n % 1024) (s.gov.limNext.rated * 4 / 100)) ∧
        t.gov.limNext.down = max 1 (min (n / 2 ^ 16 % 1024) (s.gov.limNext.rated * 2 / 100))) ∧
      exec (.millinerRegisterWrite .batCost i v) s = .next { s with gov := { s.gov with
        batTest := n / 2 ^ 32 % 65536, batScrub := n / 2 ^ 16 % 65536, batPref := n % 65536 } } ∧
      exec (.millinerRegisterWrite .capCfg i v) s = .next (if n / 256 % 256 < n % 256 then s else
        { s with gov := { s.gov with capHigh := n / 256 % 256, capLow := n % 256 } })) ∧
    -- tick, interval and Ecolo (R167, R184, R195, R196, R517)
    (leads .refillTick fun t => t.tick = s.tick + 1 ∧ t.tok.balance ≤ s.tok.cap ∧
      (∀ n < 384, (s.core n).bucket ≤ (t.core n).bucket ∧ ((s.core n).bucket ≤ 16384 → (t.core n).bucket ≤ 16384) ∧
        (dieOf n = d → x.phase = 2 → (t.core n).bucket = (s.core n).bucket)) ∧
      (x.balance ≤ x.tokCap → (t.die d).balance ≤ x.tokCap)) ∧
    (leads .governorInterval fun t => t.gov.lim = s.gov.limNext ∧ s.gov.limNext.floor ≤ t.gov.g ∧
      (s.gov.limNext.floor ≤ s.gov.limNext.rated → t.gov.g ≤ s.gov.limNext.rated) ∧ t.gov.paid = 0 ∧ t.gov.bb = 0 ∧
      (t.die d).cntMemory = 0 ∧ (t.die d).cntToken = 0 ∧ (t.die d).cntBarrier = 0 ∧ (t.die d).cntClocks = 0) ∧
    (s.ecoloOn = false → stays .ecoloDecision) ∧
    (∀ h : Intent, s.ecoloOn = true → s.gov.held = [h] → h.t = (s.clk.toNat / 12500 + 1) % 65536 → h.admitted = false →
      let below := (s.gov.received.filter fun y => y.t == h.t && y.job == ecJob s.gov.ecolo && decide (y.rank < ecRank s.gov.ecolo)).length
      (below < ecLimit s.gov.ecolo → exec .ecoloDecision s =
        .next { s with gov := { s.gov with held := [{ h with admitted := true }] } }) ∧
      (ecLimit s.gov.ecolo ≤ below → exec .ecoloDecision s = .next { s with
        gov := { s.gov with held := [{ h with t := (h.t + 1) % 65536, deferred := true }] }
        out := s.out ++ [OutMsg.intent s.ecoGroup h.job h.rank h.rise ((h.t + 1) % 65536)] })) ∧
    (∀ job rank rise t, (job ≠ ecJob s.gov.ecolo ∨ ecSize s.gov.ecolo ≤ rank → stays (.ecoloIntent job rank rise t)) ∧
      (job = ecJob s.gov.ecolo → rank < ecSize s.gov.ecolo → after16 t ((s.clk.toNat + 6249) / 12500) = true →
        exec (.ecoloIntent job rank rise t) s = .next { s with gov := { s.gov with received := s.gov.received ++
          [({ job, rank, rise, t := t % 65536, admitted := false, deferred := false } : Intent)] } })) ∧
    -- scrub (R190)
    ∀ line < 2 ^ 34, stays (.scrubReadComplete line .clean) ∧
      (leads (.scrubReadComplete line .corrected) fun t => t.mil.logSeq = (s.mil.logSeq + 1) % 2 ^ 32 ∧
        t.poison = s.poison ∧ t.mem = s.mem ∧ ∀ y ∈ t.tags, y ∈ s.tags) ∧
      leads (.scrubReadComplete line .uncorrectable) fun t => t.isPoisoned (128 * line) = true ∧ t.mem = s.mem

/-- R319 to R323, R326, R331, R332, R335, R337 to R341, R384: the host's register writes, the hardware queues, and the
scheduler's slots, blocks and contexts. -/
def Obligations.QueueEvents : Prop :=
  ∀ (s : State) (q : Nat) (v : Dword), q < 256 →
    let h := s.hwq q
    let stays (e : Instr) : Prop := exec e s = .next s
    let leads (e : Instr) (f : State → Prop) : Prop := ∃ t, exec e s = .next t ∧ f t
    let apart (x m y n : Nat) : Prop := x + m ≤ y ∨ y + n ≤ x
    -- queues (R319 to R323, R339, R341)
    (∀ (w : Word) a n, h.accept = some a → h.en = true → n % 2 ^ 32 = w.toNat → a < n → n ≤ a + 2 ^ 31 →
      (h.announced < n → exec (.doorbell .pf q w) s = .next (s.setHwq q { h with announced := n })) ∧
      (n ≤ h.announced → stays (.doorbell .pf q w))) ∧
    (h.en = false → ∀ w, stays (.doorbell .pf q w)) ∧
    (∀ a b l, s.canAccept q = true → h.accept = some a →
      s.isLocal (h.base + 64 + 32 * ((a + 1) % h.entries)) = true →
      s.readGlobal h.ctxNo (h.base + 64 + 32 * ((a + 1) % h.entries)) 32 = .ok (some b) →
      (entryOk b (a + 1) = true → s.isLocal h.base = true → s.translate h.ctxNo h.base .write = .ok l →
        leads (.commandAccept q) fun t => (t.hwq q).accept = some (a + 1) ∧ t.journal = s.journal ++ [({ q, seq := a + 1, entry := b, slot := s.jrnSlot } : JrnRec)] ∧
          (t.hwq q).cmds = h.cmds ++ [({ seq := a + 1, entry := b, started := false, ended := false, fault := 0, live := 0
                                         status := 0, complete := false } : Cmd)] ∧
          t.homeNat l.sa 8 = (a + 1) % 2 ^ 64 ∧
          let copy (j : Dword) : Nat := jrnAt j (64 * s.jrnSlot)
          let written (j : Dword) : Prop := ∀ i < 64, t.homeByte (copy j + i) = Config.jrnByte false q (a + 1) b i
          (apart l.sa 8 (copy s.pkg.jrnB) 64 → written s.pkg.jrnB) ∧
          (apart l.sa 8 (copy s.pkg.jrnA) 64 → apart (copy s.pkg.jrnA) 64 (copy s.pkg.jrnB) 64 → written s.pkg.jrnA)) ∧
      (entryOk b (a + 1) = false → leads (.commandAccept q) fun t =>
        (t.hwq q).halted = true ∧ (t.hwq q).accept = some a ∧ t.journal = s.journal)) ∧
    (s.canAccept q = false → stays (.commandAccept q)) ∧
    (∀ b, h.en = false → h.halted = false → v.getLsbD 63 = true → s.isLocal h.base = true →
      s.readGlobal (v.toNat / 2 ^ 52 % 256) h.base 64 = .ok (some b) → recField b 16 0 384 = 0 → leads (.hwqEnable .pf q v) fun t =>
        (t.hwq q).en = true ∧ (t.hwq q).ctxNo = v.toNat / 2 ^ 52 % 256 ∧ (t.hwq q).w = [] ∧
        (t.hwq q).accept = some (ofBytes (b.take 8)) ∧ (t.hwq q).done = ofBytes ((b.drop 8).take 8)) ∧
    (∀ a, h.halted = true → h.accept = some a → leads (.hwqHaltClear .pf q) fun t =>
      (t.hwq q).halted = false ∧ (t.hwq q).en = h.en ∧ (t.hwq q).accept = some a ∧ (t.hwq q).cmds = h.cmds) ∧
    (h.cur ≠ none → stays (.controlStreamStart q)) ∧
    (∀ c, h.cur = none → h.halted = false ∨ (h.cfg0.toNat / 2 ^ 40 % 2 ^ 8 = 1 ∧ h.en = false) → h.cmds.find? (fun c => !c.started && !c.ended) = some c →
      leads (.controlStreamStart q) fun t => (t.hwq q).cur = some c.seq ∧ (t.hwq q).pc.toNat = ofBytes (c.entry.drop 8) % 2 ^ 57 ∧
        (t.hwq q).left = ofBytes (c.entry.drop 16) % 2 ^ 20 ∧ (t.hwq q).w = h.w) ∧
    (∀ c la ld, h.cmds = [c] → c.ended = true → c.live = 0 → c.complete = false → h.ringWait = none → h.ringDead = false →
      c.seq = h.done + 1 → s.isLocal (h.base + 64 + 32 * (c.seq % h.entries) + 24) = true → s.isLocal (h.base + 8) = true →
      s.translate h.ctxNo (h.base + 64 + 32 * (c.seq % h.entries) + 24) .write = .ok la →
      s.translate h.ctxNo (h.base + 8) .write = .ok ld → apart la.sa 8 ld.sa 8 →
      (∀ r ∈ s.journal, ∀ j ∈ [s.pkg.jrnA, s.pkg.jrnB], apart la.sa 8 (jrnAt j (64 * r.slot)) 64) →
      leads (.commandComplete q) fun t => (t.hwq q).done = c.seq ∧ (t.hwq q).cmds = [] ∧ t.homeNat ld.sa 8 = c.seq % 2 ^ 64 ∧
        t.homeNat la.sa 8 = (2 ^ 63 + (if c.status = 5 then c.fault * 256 else 0) + c.status) % 2 ^ 64 ∧
        t.journal = s.journal.filter fun r => !(r.q == q && r.seq == c.seq)) ∧
    (∀ w bs, h.wait = .test w → s.isLocal w.ea.toNat = true →
      s.addrWaits h.ctxNo (w.ea.toNat % 2 ^ 57) .read = false →
      s.readGlobal h.ctxNo (w.ea.toNat % 2 ^ 57) (if w.w64 then 8 else 4) = .ok (some bs) →
      leads (.waitvReread q none) fun t =>
        t.hwq q = if waitTest w.cmp (BitVec.ofNat 64 (ofBytes bs)) w.comparand then h.advance else h) ∧
    -- levels, nodes and launches (R58, R331, R332)
    (∀ (k : LevelKind) (n : Nat), (∀ f, stays (.levelArm (.vf f) k n v)) ∧
      (n < levelSlots k → (s.levelSlot k n).counter.done = false → (s.levelSlot k n).counter.outstanding ≠ 0 →
        leads (.levelArm .pf k n v) fun t => (t.levelSlot k n).counter = (s.levelSlot k n).counter) ∧
      (n < levelSlots k → v.getLsbD 63 = true → v.toNat % 2 ^ 32 ≠ 0 →
        (s.levelSlot k n).counter.done = true ∨ (s.levelSlot k n).counter.outstanding = 0 →
        leads (.levelArm .pf k n v) fun t => (t.levelSlot k n).gen = nextGen (levelGen k) (s.levelSlot k n).gen ∧
          (t.levelSlot k n).parent = (if k = .job then (s.levelSlot k n).parent else v.toNat / 2 ^ 32 % 4096) ∧
          (t.levelSlot k n).counter = { status := 0, done := false, cancel := false, hard := false, outstanding := v.toNat % 2 ^ 32 })) ∧
    (∀ n < 65536, ((s.node n).st = 1 ∨ (s.node n).st = 2 → stays (.nodeArm .pf n v)) ∧
      ((s.node n).st = 0 ∨ (s.node n).st = 3 → v.toNat % 65536 ≠ 0 → n ∉ s.nodeSignals → leads (.nodeArm .pf n v) fun t =>
        (t.node n).st = 1 ∧ (t.node n).pred = v.toNat % 65536 ∧ (t.node n).ctx = v.toNat / 2 ^ 52 % 256 ∧
        (t.node n).graph = v.toNat / 2 ^ 32 % 4096 ∧ (t.node n).word1 = (s.node n).word1)) ∧
    (∀ l, ((s.launch l).alive = false ∨ (s.launch l).dispatched = true → stays (.launchDispatch l)) ∧
      ((s.launch l).alive = true → (s.launch l).dispatched = false → s.dispatchStatus l = none → leads (.launchDispatch l) fun t =>
        t.launch l = { s.launch l with dispatched := true } ∧ t.blocks = s.blocks) ∧
      (s.restorable = none → s.placeable = some l → recKind (s.launch l).record = 0 → (s.launch l).rerun = [] →
        leads (.blockPlace l) fun t => (t.launch l).nextBlk = (s.launch l).nextBlk + 1 ∧ ∃ b x, t.block? b = some x ∧
          x.launch = l ∧ x.index = (s.launch l).nextBlk ∧ x.ctx = (s.launch l).ctx ∧
          x.waves.length = kdWaves (s.launch l).desc ∧ ∀ b', b' ≠ b → t.block? b' = s.block? b') ∧
      (s.placeable ≠ some l → stays (.blockPlace l))) ∧
    -- contexts (R335, R337, R338, R340)
    (∀ ctx < 256, (s.tornDown ctx = true → stays (.teardown .pf ctx)) ∧
      (s.tornDown ctx = false → s.blocks = [] → s.launches = [] → s.nodes = [] → leads (.teardown .pf ctx) fun t =>
        t.tornDown ctx = true ∧ ∀ n, (s.hwq n).ctxNo = ctx → (t.hwq n).en = false ∧ (t.hwq n).cur = none)) ∧
    (∀ ctx d, d < 8 → s.saving.contains (ctx * 8 + d) = false →
      let begins (e : Instr) : Prop := leads e fun t => t.saving.contains (ctx * 8 + d) = true ∧
        ∀ p ∈ s.blocks, p.2.ctx = ctx → dieOf (coreOf p.1) = d → ∃ x, (p.1, x) ∈ t.blocks ∧ x.saving = true ∧ x.launch = p.2.launch
      ((∃ p ∈ s.blocks, p.2.ctx = ctx ∧ dieOf (coreOf p.1) = d) → begins (.preempt ctx d)) ∧
      ((∀ p ∈ s.blocks, ¬ (p.2.ctx = ctx ∧ dieOf (coreOf p.1) = d)) → stays (.preempt ctx d)) ∧
      (s.quantumOver ctx d = true → begins (.quantumExpiry ctx d)) ∧
      (s.quantumOver ctx d = false → stays (.quantumExpiry ctx d))) ∧
    (∀ ctx d b x, d < 8 → s.saving = [ctx * 8 + d] → s.blocks = [(b, x)] → x.ctx = ctx → dieOf (coreOf b) = d →
      (s.quiet b x = false → stays (.preempt ctx d)) ∧
      (s.quiet b x = true → (∀ c, dieOf c = d → (s.core c).drained = true) → leads (.preempt ctx d) fun t => t.blocks = [] ∧ t.saving = [] ∧
        ∃ y : Saved, t.saved = s.saved ++ [y] ∧ y.die = d ∧ y.blk = { x with saving := true, waves := x.waves.map Wave.forSave })) ∧
    (∀ y, s.saved = [y] → (s.restoreNow y = none → stays (.blockRestore 0)) ∧
      (s.restoreNow y ≠ none → leads (.blockRestore 0) fun t => t.saved = [] ∧ ∃ b x, t.block? b = some x ∧ x.saving = false ∧
        x.launch = y.blk.launch ∧ x.index = y.blk.index ∧ x.waves.length = y.blk.waves.length)) ∧
    -- register writes (R16, R384)
    (∀ fn off size, off % size ≠ 0 → stays (.registerWrite fn off size v)) ∧
    (∀ c < 256, exec (.registerWrite .pf (0x10000 + 64 * c + 56) 8 v) s =
      .next (s.setCtx c { s.ctx c with trap := v &&& BitVec.ofNat 64 (2 ^ 57 - 2 ^ 6 + 1) })) ∧
    exec (.registerWrite .pf 0x80 8 v) s = .next { s with agenda := .ev (.tokCfgCommit v) :: s.agenda }

/-- R250, R251, R266, R343, R344, R346 to R354, R360, R362, R365, R366, R373 to R376, R379, R380: other packages' accesses,
answers and chains, collectives and reductions, scale-out requests, the links, the package number and its time. -/
def Obligations.FabricEvents : Prop :=
  ∀ (s : State) (p : Nat), p < 48 → s.ports.length = 48 →
    let stays (e : Instr) : Prop := exec e s = .next s
    let leads (e : Instr) (f : State → Prop) : Prop := ∃ t, exec e s = .next t ∧ f t
    let plain (ctx : Nat) : Prop := (s.ctx ctx).fabric.getLsbD 30 = false
    let noCopies (sa : Nat) : Prop := s.invalWait = [] ∧ tfind s.dir (lineOf sa) = none
    let numberedTo (a : Nat) (k : ChainPkt) : ChainPkt :=
      { k with via := s.pkgNo, seq := some (tget 0 s.seqOut (ownerOf a * 8 + clsDemand)) }
    let holds (t : State) (sa : Nat) (l : List Byte) : Prop := ∀ i < l.length, t.homeByte (sa + i) = lget 0 l i
    -- accesses of other packages (R346, R349, R355, R380)
    (∀ (r : PeerReq) ctx l, r.seq = tget 0 s.seqIn (r.srcPkg * 8 + r.cls) → s.reorder = [] → s.reorderChains = [] → r.enc = false →
      s.ctxOfJob r.job = some ctx → s.translate ctx r.addr (peerNeed r.op) = .ok l → s.accessWaits l.sa = false → plain ctx →
      (r.inst = none → r.op = .write → noCopies l.sa → leads (.peerAccess r) fun t => holds t l.sa r.data ∧
        t.out = s.out ++ [OutMsg.ack r.srcPkg r.tag r.cls] ∧ tget 0 t.seqIn (r.srcPkg * 8 + r.cls) = (r.seq + 1) % 2 ^ 24) ∧
      (r.inst = none → r.op = .load → leads (.peerAccess r) fun t => t.mem = s.mem ∧ t.out = s.out ++
        [OutMsg.reply r.srcPkg r.tag (if s.isPoisoned l.sa then none else some (s.homeBytes l.sa r.size)) r.cls]) ∧
      (∀ c m i, r.inst = some (c, m) → r.op = .write → s.instOf ctx c = some i →
        (m ≤ i → noCopies l.sa → leads (.pcollTaggedWrite r) fun t => holds t l.sa r.data ∧ t.out = s.out ++ [OutMsg.ack r.srcPkg r.tag r.cls]) ∧
        (i + 1 < m → leads (.pcollTaggedWrite r) fun t => t.mem = s.mem ∧ t.out = s.out ++ [OutMsg.collRefused r.srcPkg c m r.tag]) ∧
        (m = i + 1 → s.pkg.eaBase.getLsbD 63 = true → c ≤ 62 → s.earlyBytes c (stackOf l.sa) + r.data.length ≤ 65536 →
          leads (.pcollTaggedWrite r) fun t => t.mem = s.mem ∧ t.out = s.out ∧
            t.early = s.early ++ [({ c, m, ctx, sa := l.sa, req := r } : Early)]))) ∧
    (∀ r : PeerReq, 2 ^ 23 ≤ (r.seq + 2 ^ 24 - tget 0 s.seqIn (r.srcPkg * 8 + r.cls)) % 2 ^ 24 → stays (.peerAccess r)) ∧
    -- acknowledgements and invalidations (R251, R266, R348, R349)
    (∀ x, s.posted = [x] → x.eng = none → s.blocks = [] →
      exec (.postedWriteAck x.id false) s = .next { s with posted := [] } ∧
      (s.launches = [] → s.ringFull = true → exec (.postedWriteAck x.id true) s = .next { s with
        posted := []
        faultWait := s.faultWait ++ [({ table := 9, va := x.va, srcPkg := s.pkgNo, ctx := x.ctx, kind := 0, access := 5, level := 0
                                        remote := false } : FaultRec)] })) ∧
    (∀ src va, src ≠ s.pkgNo → exec (.invalidation src va) s = .next { s with
      peerCopies := s.peerCopies.filter fun x => x.1 != peerLine va
      misses := s.misses.map fun m => if m.1 = peerLine va then (m.1, true) else m
      out := s.out ++ [OutMsg.invalidateAck src va] }) ∧
    (∀ src va, s.invalWait = [(src, va)] → s.blocks = [] →
      (s.ackWait = [] → exec (.invalidationAck src va) s = .next { s with invalWait := [] }) ∧
      ∀ line ctx dst tag cls, s.ackWait = [(line, ctx, .ack dst tag cls)] → plain ctx → exec (.invalidationAck src va) s =
        .next { s with invalWait := [], ackWait := [], out := s.out ++ [OutMsg.ack dst tag cls] }) ∧
    -- chains (R360, R362)
    (∀ (k : ChainPkt) (e : ChainEnd), k.srcPkg ≠ s.pkgNo → k.seq = none → (∀ ctx, s.ctxOfJob k.job = some ctx → plain ctx) →
      chainMove k.desc k.p k.step k.final = .stop e →
      exec (.chainStep k) s = .next (s.send (.chainReply k.srcPkg k.id k.attempt e))) ∧
    (∀ (k : ChainPkt) a z ctx, k.srcPkg ≠ s.pkgNo → k.seq = none → chainMove k.desc k.p k.step k.final = .last a z →
      s.ctxOfJob k.job = some ctx → plain ctx →
      (∀ l, s.isLocal a = true → s.translate ctx a .read = .ok l → s.isPoisoned l.sa = false → s.accessWaits l.sa = false →
        exec (.chainStep k) s =
          .next (s.send (.chainReply k.srcPkg k.id k.attempt (.complete (BitVec.ofNat 128 (s.homeNat l.sa z)) k.step)))) ∧
      (s.isLocal a = false → leads (.chainStep k) fun t => t.out = s.out ++ [OutMsg.chain (ownerOf a) (numberedTo a k)])) ∧
    (∀ (x : Tracker) w y v st, coreOf x.blk = coreOf (x.id / 32 / 2 ^ 32 / 32) → (s.core (coreOf x.blk)).trackers = [x] →
      x.result = none → s.wave? x.blk x.wave = some w → w.lanes.length = 32 → x.lane < 32 →
      w.pend.find? (fun z => z.id == x.pend) = some y → y.again = none → y.acq = none →
      leads (.chainReply x.id x.attempt (.complete v st)) fun t =>
        (t.core (coreOf x.blk)).trackers = [] ∧ ∃ w', t.wave? x.blk x.wave = some w' ∧
          w'.pend = w.pend.filter (fun z => z.id != x.pend) ∧ (w'.lane x.lane).chain = BitVec.ofNat 32 (st * 2 ^ 25) ∧
          (w'.lane x.lane).pc = (w.lane x.lane).pc) ∧
    (∀ (x : Tracker) blk a va, x.blk = x.id / 32 / 2 ^ 32 / 32 → (s.core (coreOf x.blk)).trackers = [x] → x.result = none →
      (s.clk.toNat < x.deadline.toNat → stays (.chainTimeout x.id)) ∧
      (x.deadline.toNat ≤ s.clk.toNat → s.trackerHeld x = false → x.timeouts < 3 → s.block? x.blk = some blk → s.awaits x = true →
        chainMove x.desc x.start 0 false = .read a → s.steer blk x.wave x.lane a 8 = .global va → s.isLocal a = false →
        plain blk.ctx → leads (.chainTimeout x.id) fun t =>
          t.out = s.out ++ [OutMsg.chain (ownerOf a) (numberedTo a
            { id := x.id, attempt := x.attempt + 1, srcPkg := s.pkgNo, job := (s.ctx blk.ctx).fabric.setWidth 16, nf := x.nf
              desc := x.desc, p := x.start, step := 0, final := false })] ∧
          (t.core (coreOf x.blk)).trackers = [{ x with
            attempt := x.attempt + 1, timeouts := x.timeouts + 1
            deadline := BitVec.ofNat 64 (s.clk.toNat + max 1 (s.pkg.chainCfg.toNat % 2 ^ 16) * 1250) }])) ∧
    -- collectives and reductions (R374 to R376, R380)
    (∀ src c m refused, s.posted = [] → exec (.pcollNotice src c m refused) s = .next { s with
      collNotices := (s.collNotices.filter fun x => !(x.1 == src && x.2.1 == c)) ++ [(src, c, m)] }) ∧
    (∀ (m own : RedMsg) core q e, s.redEntry m.grp m.seq = some (core, q, e) → m.chunk ∉ e.delivered → e.sent = [own] →
      own.chunk = m.chunk →
      let counted := { e with
        counted := e.counted + targetBytes (osElem e.record) own.data.length, delivered := sins e.delivered m.chunk, sent := [] }
      (m.poisoned = true → leads (.reductionResult m) fun t => t.mem = s.mem ∧ t.head? core q = some counted) ∧
      (∀ l, m.poisoned = false → s.reStray core e = true → m.data ≠ [] →
        m.data.length ≤ lineRoom (memberAddr s.pkgNo m.dst) → s.translate e.ctx (memberAddr s.pkgNo m.dst) .write = .ok l →
        leads (.reductionResult m) fun t => holds t l.sa m.data ∧ t.head? core q = some { counted with held := none })) ∧
    (∀ grp seq chunk, (s.keptContribution grp seq chunk = none →
        (leads (.lostNotice grp seq chunk) fun t => (grp, seq.toNat, chunk) ∈ t.lost ∧ t.out = s.out) ∧
        stays (.contributionResend grp seq chunk)) ∧
      ∀ ctx g m, s.keptContribution grp seq chunk = some (ctx, g, m) → plain ctx →
        (leads (.lostNotice grp seq chunk) fun t =>
          (grp, seq.toNat, chunk) ∈ t.lost ∧ t.out = s.out ++ [OutMsg.contribution g.pkg0 m]) ∧
        exec (.contributionResend grp seq chunk) s = .next (s.send (.contribution g.pkg0 m))) ∧
    (∀ (m : RedMsg) ctx g rest, s.ctxOfJob m.job = some ctx → s.group ctx m.grp = some g → g.pkg0 = s.pkgNo → s.combine = [] →
      foldOrder g.members = (m.rank, false) :: rest → rest ≠ [] → leads (.endpointContribution m) fun t => t.combine =
        [{ grp := m.grp, seq := m.seq, chunk := m.chunk, first := m, folded := 1
           leaf := redWords m.elem.toNat (m.data.length / elemSrc m.elem.toNat) m.data, sum := [], held := []
           poisoned := m.poisoned }]) ∧
    (∀ m : RedMsg, s.ctxOfJob m.job = none → stays (.endpointContribution m)) ∧
    -- scale-out (R365, R366)
    (∀ (m : ScoMsg) (imm : Word), s.scoTakes m = false →
      stays (.scoRdmaWrite m) ∧ stays (.scoWriteImmediate m imm) ∧ stays (.scoRdmaRead m)) ∧
    (∀ (m : ScoMsg) conn e, s.scoTakes m = true → s.connOf m = some (conn, e) → s.scoChecks m e = true → s.scoFatal = [] →
      s.dir = [] → s.invalWait = [] → let va := memberAddr s.pkgNo (m.va.toNat % 2 ^ 45)
      let sig := memberAddr s.pkgNo (connSig e % 2 ^ 45)
      (∀ l, m.data ≠ [] → m.data.length ≤ lineRoom va → s.translate (connCtx e) va .write = .ok l → s.accessWaits l.sa = false →
        (leads (.scoRdmaWrite m) fun t => holds t l.sa m.data ∧ t.out = s.out ++ [OutMsg.scoReply m.port m.qpn.toNat true []]) ∧
        ∀ (imm : Word) y, s.translate (connCtx e) sig .atomic = .ok y → s.isPoisoned y.sa = false →
          l.sa + m.data.length ≤ y.sa ∨ y.sa + 4 ≤ l.sa →
          leads (.scoWriteImmediate m imm) fun t => holds t l.sa m.data ∧
            t.homeNat y.sa 4 = (s.homeNat y.sa 4 + imm.toNat) % 2 ^ 32 ∧ t.out = s.out ++ [OutMsg.scoReply m.port m.qpn.toNat true []]) ∧
      (∀ l, 0 < m.len → m.len ≤ lineRoom va → s.translate (connCtx e) va .read = .ok l → s.isPoisoned l.sa = false →
        s.accessWaits l.sa = false →
        exec (.scoRdmaRead m) s = .next (s.send (.scoReply m.port m.qpn.toNat true (s.homeBytes l.sa m.len))))) ∧
    (∀ conn core q e data, s.farOut = [(conn, core, q)] → s.head? core q = some e →
      (e.asked = false → leads (.scoAck conn data) fun t => t.farOut = [] ∧ t.head? core q = some { e with acks := e.acks - 1 }) ∧
      (leads (.scoRetryExhausted conn) fun t =>
        t.farOut = [] ∧ t.head? core q = some { e with acks := 0, asked := false, fatal := true })) ∧
    -- links (R344, R350 to R353)
    (let x := s.port p
     let quitted (y : Port) : Port := { y with tx := [], txNext := if x.tx = [] then x.txNext else 0 }
     (x.st ≠ 2 → ∀ n f, stays (.flitReceive p n f)) ∧
     (∀ f, x.st = 2 → x.en = true → (flitOk f = true → leads (.flitReceive p x.rxNext f) fun t =>
          let y := t.port p
          y = { x with delivered := x.delivered ++ [f.take 252], rxNext := x.rxNext + 1, rxFails := 0, tx := y.tx, sent := y.sent } ∧
          y.tx = (match Config.flitAck (f.take 252) with | some n => x.tx.filter fun z => decide (n < z.no) | none => x.tx) ∧
          y.sent = match Config.flitReplay (f.take 252) with
            | some n => x.sent ++ (y.tx.filter fun z => decide (n ≤ z.no)).map (·.bytes) | none => x.sent) ∧
        (flitOk f = false → x.rxFails < 3 → leads (.flitReceive p x.rxNext f) fun t => t.port p = { x with
          crc := min 65535 (x.crc + 1), replays := min 65535 (x.replays + 1), rxFails := x.rxFails + 1 })) ∧
     (x.st = 2 → x.en = true → leads (.linkRetrain p) fun t => t.port p = if 6 ≤ x.bucket then quitted { x with st := 5 } else
        { x with st := 3, bucket := x.bucket + 1, retrains := min 65535 (x.retrains + 1), attempts := 0 }) ∧
     (x.st = 1 → x.en = true →
        (leads (.linkTrainingDone p .trained) fun t => t.port p =
          { x with st := 2, attempts := 0, rxFails := 0, sent := x.sent ++ x.tx.map (·.bytes) }) ∧
        (leads (.linkTrainingDone p .mismatch) fun t => t.port p = { x with st := 4 }) ∧
        leads (.linkTrainingDone p .failed) fun t => t.port p =
          if 2 ≤ x.attempts then quitted { x with st := 5, attempts := 0 } else { x with attempts := x.attempts + 1 }) ∧
     (x.st = 0 → s.idValid = true → leads (.linkCtlEn p true) fun t => (t.port p).st = 1 ∧ (t.port p).en = true) ∧
     (x.st = 2 → leads (.linkCtlEn p false) fun t => t.port p = quitted { x with en := false, st := 0 }) ∧
     (x.st = 5 → leads (.linkCtlRevive p) fun t =>
        (t.port p).bucket = 0 ∧ (t.port p).st = if x.en && s.idValid then 1 else 0) ∧
     leads (.linkCtlClr p) fun t => (t.port p).retrains = 0 ∧ (t.port p).replays = 0 ∧ (t.port p).crc = 0 ∧
        (t.port p).bucket = x.bucket) ∧
    exec .retrainBucketLeak s = .next { s with ports := s.ports.map fun x => { x with bucket := x.bucket - 1 } } ∧
    -- the package number and time (R344, R354)
    (∀ v : Word, (s.idWritable = false → stays (.swlId v)) ∧
      (s.idWritable = true → leads (.swlId v) fun t => t.pkg.swlId = v &&& 0x8FFFFFFF) ∧
      (s.pkg.timeEn = true → stays (.swlTimeSet v)) ∧
      (s.pkg.timeEn = false → leads (.swlTimeSet v) fun t => t.clk = v.setWidth 64 ∧ t.pkg = s.pkg)) ∧
    ∀ m : TimeMsg, (s.pkg.timeEn = false → stays (.timeMessage m)) ∧
      (s.pkg.timeEn = true → m.src = s.pkg.timeRef → s.pkg.timeRef ≠ s.pkgNo → leads (.timeMessage m) fun t =>
        let d := (m.count - s.clk).toInt
        t.clk = s.clk ∧ t.out = s.out ∧ t.pkg = { s.pkg with
          timeOffset := BitVec.ofInt 16 (max (-32768) (min 32767 d)), timeLocked := decide (d.natAbs ≤ 250), slew := d }) ∧
      (s.pkg.timeEn = true → m.src ≠ s.pkg.timeRef ∨ s.pkg.timeRef = s.pkgNo → exec (.timeMessage m) s =
        .next (s.send (.time m.src s.clk)))

/-- R181, R342, R383, R385, R387 to R394: the host's accesses through BAR2, virtual functions, Milliner's mailbox, and the
resets of functions, of the package and of its units. What the store, a signature and a buffer's layout say are free values
(log 3): the clauses hold whatever they are. -/
def Obligations.HostEvents : Prop :=
  ∀ (s : State) (d k p v : Nat), d < 8 → k < 32 → p < 48 → v < 16 → s.dies.length = 8 → s.hbms.length = 32 →
    s.ports.length = 48 →
    let stays (e : Instr) : Prop := exec e s = .next s
    let leads (e : Instr) (f : State → Prop) : Prop := ∃ t, exec e s = .next t ∧ f t
    let mailed (t : State) (status : Nat) : Prop := t.mil.busy = false ∧ t.mil.status = status
    let quiet : Prop := s.blocks = [] ∧ s.launches = [] ∧ s.nodes = []
    let idle : Prop := s.blocks = [] ∧ s.reorder = []
    let free : Prop := ∀ n < 8, ∀ fn o z l ro, Instr.hostBar2Access fn o z (.write l ro) ∉ (s.die n).fifo
    -- BAR2 (R181, R383)
    (∀ off size, let a := s.pkg.bar2Win.toNat % 2 ^ 12 * 2 ^ 30 + off
      let sa := storageOf (a % 2 ^ 42)
      0 < size → size ≤ lineRoom a → off + size ≤ 2 ^ 41 →
      (free → s.accessWaits sa = false →
        (∀ l ro, l.length = size → leads (.hostBar2Access .pf off 0 (.write l ro)) fun t =>
          (∀ i < size, t.homeByte (sa + i) = lget 0 l i) ∧ t.blocks = s.blocks) ∧
        (exec (.hostBar2Access .pf off size .read) s =
          .next (s.send (.hostReply (if s.isPoisoned sa then none else some (s.homeBytes sa size))))) ∧
        ∀ x, s.isPoisoned sa = false → tfind s.dir (lineOf sa) = none → leads (.hostBar2Access .pf off size (.fetchAdd x)) fun t =>
          t.homeNat sa size = (s.homeNat sa size + x.toNat) % 2 ^ (8 * size) ∧
          t.out = s.out ++ [OutMsg.hostReply (some (s.homeBytes sa size))]) ∧
      (((free ∧ s.accessWaits sa = true ∧ homeDie sa = d) ∨
          ((∀ n < 8, n ≠ d → (s.die n).fifo = []) ∧ ∃ o z l ro, (s.die d).fifo = [.hostBar2Access .pf o z (.write l ro)])) →
        leads (.hostBar2Access .pf off size .read) fun t =>
          (t.die d).fifo = (s.die d).fifo ++ [Instr.hostBar2Access .pf off size .read] ∧ t.out = s.out)) ∧
    (∀ off size op, v ∉ s.pkg.vfs → stays (.hostBar2Access (.vf v) off size op)) ∧
    -- functions (R385)
    (leads (.vfEnable v) fun t => (∀ n, n ∈ t.pkg.vfs ↔ n = v ∨ n ∈ s.pkg.vfs) ∧ t.blocks = s.blocks) ∧
    (quiet → (leads (.functionLevelReset (.vf v)) fun t => t.dies = s.dies ∧ t.hbms = s.hbms ∧ t.ports = s.ports ∧
        ∀ n, n / 16 = v → t.tornDown n = true ∧ (t.hwq n).en = false) ∧
      leads (.functionLevelReset .pf) fun t => t.dies = s.dies ∧ t.hbms = s.hbms ∧ t.pkg.swlId = 0 ∧ t.pkg.fltRing = 0 ∧
        (∀ n, (t.hwq n).en = false ∧ (t.ctx n).trnRoot = 0 ∧ (t.ctx n).aper = 0) ∧ (t.port p).en = false) ∧
    -- SPDM and MCTP (R387, R390)
    (leads (.spdmMessage .startSession) fun t => mailed t 0 ∧ t.mil.spdm = true ∧ t.mil.keys = s.mil.keys) ∧
    (leads (.spdmMessage .endSession) fun t => mailed t 0 ∧ t.mil.spdm = false ∧ t.mil.keys = s.mil.keys) ∧
    (∀ slot key, s.keyWait = [] → leads (.spdmMessage (.installKey slot key)) fun t =>
      mailed t (if s.mil.spdm then 0 else 4) ∧ (s.mil.spdm = false → t.mil.keys = s.mil.keys) ∧
      (s.mil.spdm = true → tfind t.mil.keys slot.toNat = some key ∧ tget 0 t.mil.keyCount slot.toNat = 0)) ∧
    (∀ l, leads (.spdmMessage (.other l)) fun t => mailed t 0 ∧ t.mil.keys = s.mil.keys ∧ t.mil.spdm = s.mil.spdm) ∧
    (∀ l, exec (.mctpMessage l) s = .next (s.send (.mctp (Config.pldmAnswer l)))) ∧
    -- the package (R388, R393, R394)
    (∀ cause, leads (.packageReset cause) fun t => t.blocks = [] ∧ t.mem = [] ∧ t.clk = 0 ∧ t.gov = Gov.reset ∧
      t.tok = Tok.reset ∧ t.hwqs = [] ∧ t.ctxs = [] ∧ t.mil.slotA = s.mil.slotA ∧ t.mil.slotB = s.mil.slotB ∧
      t.mil.activeB = s.mil.nextB ∧ t.mil.rollback = s.mil.rollback ∧
      t.mil.logSeq = ((if cause = .powerOn then 0 else s.mil.logSeq) + 1) % 2 ^ 32 ∧ (t.die d).inReset = (!Config.storeOk) ∧
      (t.die d).capqCharge = (s.die d).capqCharge) ∧
    exec .mailboxPackageReset s = exec (.packageReset .mailbox) s ∧
    -- units (R342, R393)
    (s.pkg.rstBusy = true → stays (.rstCtlDie d) ∧ stays (.rstCtlStack k) ∧ stays (.rstCtlPort p)) ∧
    (s.pkg.rstBusy = false →
      (exec (.rstCtlDie d) s = .next { s with
        pkg := { s.pkg with rstBusy := true, rstUnit := some (1, d) }, inbox := s.inbox ++ [(s.clk.toNat, Instr.computeDieReset d)] }) ∧
      (exec (.rstCtlStack k) s = .next { s with
        pkg := { s.pkg with rstBusy := true, rstUnit := some (2, k) }, inbox := s.inbox ++ [(s.clk.toNat, Instr.stackReset k)] }) ∧
      leads (.rstCtlPort p) fun t => t.pkg.rstBusy = true ∧ (s.clk.toNat, .resetReturn .port p) ∈ t.inbox ∧
        ((s.port p).st = 2 → (s.port p).en = true → (t.port p).st = if 6 ≤ (s.port p).bucket then 5 else 3)) ∧
    (quiet → leads (.computeDieReset d) fun t => (t.die d).inReset = true ∧ (t.die d).phase = 0 ∧
      (t.die d).target = (s.die d).op ∧ (∀ n, dieOf n = d → t.core n = Core.reset) ∧ (∀ x ∈ t.dirty, dieOf x.core ≠ d) ∧
      (∀ x ∈ s.dirty, dieOf x.core = d → t.isPoisoned x.sa = true) ∧
      (s.clk.toNat + 25000000, .resetReturn .die d) ∈ t.inbox) ∧
    (leads (.stackReset k) fun t => (t.stack k).inReset = true ∧ (∀ sa, stackOf sa = k → t.isPoisoned sa = true) ∧
      (s.clk.toNat + 25000000, .resetReturn .stack k) ∈ t.inbox) ∧
    ((s.die d).inReset = true → (s.die d).waiting = none → (s.die d).fifo = [] → idle → leads (.resetReturn .die d) fun t =>
      (t.die d).inReset = (!Config.storeOk) ∧
      (Config.storeOk = true → (t.die d).op = min (s.die d).op (s.die d).capNow ∧ (t.die d).phase = 0)) ∧
    ((s.die d).inReset = false → stays (.resetReturn .die d)) ∧
    ((s.stack k).inReset = true → s.hwqs = [] → (s.die (k / 4)).fifo = [] → idle → leads (.resetReturn .stack k) fun t =>
      t.stack k = { s.stack k with inReset := false } ∧
      (s.pkg.rstUnit = some (2, k) → t.pkg.rstBusy = false)) ∧
    ((s.port p).st ≠ 3 → leads (.resetReturn .port p) fun t => t.ports = s.ports ∧
      (s.pkg.rstUnit = some (3, p) → t.pkg.rstBusy = false)) ∧
    -- the mailbox and firmware (R389 to R392)
    (leads .readEventRecords fun t => mailed t (if Config.mailOk 1 s.mil.request then 0 else 2) ∧ t.mil.log = s.mil.log) ∧
    (leads .stageFirmwareChunk fun t => mailed t (if Config.mailOk 2 s.mil.request then 0 else 2) ∧ t.mil.activeB = s.mil.activeB ∧
      (Config.mailOk 2 s.mil.request = true → t.mil.spare.valid = false ∧ t.mil.nextB = s.mil.activeB ∧
        (t.mil.spare.image.drop (Config.chunkAt s.mil.request)).take (Config.chunkBytes s.mil.request).length =
          Config.chunkBytes s.mil.request)) ∧
    (let x := s.mil.spare
     let good := Config.signatureOk x.image && decide (s.mil.rollback ≤ Config.imageVersion x.image)
     (x.image = [] → leads .commitFirmware fun t => mailed t 4 ∧ t.mil.slotA = s.mil.slotA ∧ t.mil.slotB = s.mil.slotB) ∧
     (x.image ≠ [] → leads .commitFirmware fun t => mailed t (if good then 0 else 3) ∧ t.mil.activeB = s.mil.activeB ∧
       t.mil.spare.valid = good ∧ t.mil.nextB = (if good then !s.mil.activeB else s.mil.activeB))) ∧
    (s.mil.newImage = false ∨ s.mil.activeB ≠ s.mil.nextB → stays .firmwareReadyTimeout) ∧
    (s.mil.newImage = true → s.mil.activeB = s.mil.nextB → leads .firmwareReadyTimeout fun t => t.blocks = [] ∧
      if s.mil.failedBoots < 2 then t.mil.failedBoots = s.mil.failedBoots + 1 ∧ t.mil.activeB = s.mil.activeB
      else t.mil.failedBoots = 0 ∧ t.mil.activeB = (!s.mil.activeB))
end

