-- ==== Sys2Proof/Laws/Table.lean ====
section
/-! SUPPORT. What the sparse tables and the lists of the state answer after an update, and that a table keeps its canonical
form. -/

namespace Sys2Proof.Machine

variable {α : Type}

/-! ### Reading after an update -/

theorem tget_tput (d : α) (t : Tbl α) (n m : Nat) (x : α) : tget d (tput t n x) m = if m = n then x else tget d t m := by
  induction t with
  | nil => simp [tput, tget]
  | cons p t ih => obtain ⟨k, v⟩ := p; simp only [tput]; split_ifs <;> simp_all [tget]

theorem tget_tdel (d : α) (t : Tbl α) (n m : Nat) : tget d (tdel t n) m = if m = n then d else tget d t m := by
  induction t with
  | nil => simp [tdel, tget]
  | cons p t ih => obtain ⟨k, v⟩ := p; simp only [tdel]; split_ifs <;> simp_all [tget]

@[simp] theorem tget_tset [DecidableEq α] (d : α) (t : Tbl α) (n m : Nat) (x : α) :
    tget d (tset d t n x) m = if m = n then x else tget d t m := by
  unfold tset; split_ifs with h h' <;> simp [tget_tput, tget_tdel, *]

@[simp] theorem tfind_tput (t : Tbl α) (n m : Nat) (x : α) : tfind (tput t n x) m = if m = n then some x else tfind t m := by
  induction t with
  | nil => simp [tput, tfind]
  | cons p t ih => obtain ⟨k, v⟩ := p; simp only [tput]; split_ifs <;> simp_all [tfind]

@[simp] theorem tfind_tdel (t : Tbl α) (n m : Nat) : tfind (tdel t n) m = if m = n then none else tfind t m := by
  induction t with
  | nil => simp [tdel, tfind]
  | cons p t ih => obtain ⟨k, v⟩ := p; simp only [tdel]; split_ifs <;> simp_all [tfind]

theorem tfind_map (f : Nat → α → α) (t : Tbl α) (n : Nat) :
    tfind (t.map fun p => (p.1, f p.1 p.2)) n = (tfind t n).map (f n) := by
  induction t with
  | nil => rfl
  | cons p t ih => obtain ⟨k, v⟩ := p; simp only [List.map_cons, tfind]; split_ifs <;> simp_all

/-! ### The canonical form -/

theorem tsortedFrom_mono (t : Tbl α) {a b : Nat} (h : a ≤ b) (hb : tsortedFrom b t = true) : tsortedFrom a t = true := by
  cases t with
  | nil => rfl
  | cons p t => obtain ⟨k, v⟩ := p; simp only [tsortedFrom, Bool.and_eq_true, decide_eq_true_eq] at *; exact ⟨by omega, hb.2⟩

theorem tsortedFrom_tput (t : Tbl α) (lo n : Nat) (x : α) (h : tsortedFrom lo t = true) (hn : lo ≤ n) :
    tsortedFrom lo (tput t n x) = true := by
  induction t generalizing lo with
  | nil => simp [tput, tsortedFrom, hn]
  | cons p t ih =>
    obtain ⟨k, v⟩ := p
    simp only [tsortedFrom, Bool.and_eq_true, decide_eq_true_eq] at h
    simp only [tput]
    split_ifs with h1 h2
    · simp only [tsortedFrom, Bool.and_eq_true, decide_eq_true_eq]; exact ⟨hn, by omega, h.2⟩
    · subst h2; simp [tsortedFrom, hn, h.2]
    · simp only [tsortedFrom, Bool.and_eq_true, decide_eq_true_eq]; exact ⟨h.1, ih _ h.2 (by omega)⟩

theorem tsortedFrom_tdel (t : Tbl α) (lo n : Nat) (h : tsortedFrom lo t = true) : tsortedFrom lo (tdel t n) = true := by
  induction t generalizing lo with
  | nil => rfl
  | cons p t ih =>
    obtain ⟨k, v⟩ := p
    simp only [tsortedFrom, Bool.and_eq_true, decide_eq_true_eq] at h
    simp only [tdel]
    split_ifs with h1
    · exact tsortedFrom_mono _ (by omega) (ih _ h.2)
    · simp only [tsortedFrom, Bool.and_eq_true, decide_eq_true_eq]; exact ⟨h.1, ih _ h.2⟩

theorem tput_all (t : Tbl α) (n : Nat) (x : α) (p : Nat × α → Bool) (h : t.all p = true) (hx : p (n, x) = true) :
    (tput t n x).all p = true := by
  induction t with
  | nil => simp [tput, hx]
  | cons q t ih =>
    obtain ⟨k, v⟩ := q
    simp only [List.all_cons, Bool.and_eq_true] at h
    simp only [tput]; split_ifs <;> simp_all

theorem tdel_all (t : Tbl α) (n : Nat) (p : Nat × α → Bool) (h : t.all p = true) : (tdel t n).all p = true := by
  induction t with
  | nil => rfl
  | cons q t ih =>
    obtain ⟨k, v⟩ := q
    simp only [List.all_cons, Bool.and_eq_true] at h
    simp only [tdel]; split_ifs <;> simp_all

/-- Setting a key keeps the canonical form. -/
theorem twf_tset [DecidableEq α] (d : α) (t : Tbl α) (n : Nat) (x : α) (h : twf d t = true) : twf d (tset d t n x) = true := by
  simp only [twf, Bool.and_eq_true] at *
  unfold tset
  split_ifs with hx
  · exact ⟨tsortedFrom_tdel _ _ _ h.1, tdel_all _ _ _ h.2⟩
  · exact ⟨tsortedFrom_tput _ _ _ _ h.1 (by omega), tput_all _ _ _ _ h.2 (by simp [hx])⟩

theorem tsortedFrom_filter (t : Tbl α) (lo : Nat) (p : Nat × α → Bool) (h : tsortedFrom lo t = true) :
    tsortedFrom lo (t.filter p) = true := by
  induction t generalizing lo with
  | nil => rfl
  | cons q t ih =>
    obtain ⟨k, v⟩ := q
    simp only [tsortedFrom, Bool.and_eq_true, decide_eq_true_eq] at h
    simp only [List.filter_cons]
    split_ifs
    · simp only [tsortedFrom, Bool.and_eq_true, decide_eq_true_eq]; exact ⟨h.1, ih _ h.2⟩
    · exact tsortedFrom_mono _ (by omega) (ih _ h.2)

/-- Dropping keys keeps the canonical form. -/
theorem twf_filter [DecidableEq α] (d : α) (t : Tbl α) (p : Nat × α → Bool) (h : twf d t = true) :
    twf d (t.filter p) = true := by
  simp only [twf, Bool.and_eq_true] at *
  refine ⟨tsortedFrom_filter _ _ _ h.1, ?_⟩
  simp only [List.all_eq_true] at *
  exact fun x hx => h.2 x (List.mem_filter.1 hx).1

/-! ### Lists by index -/

@[simp] theorem lset_length (l : List α) (n : Nat) (x : α) : (lset l n x).length = l.length := by
  induction l generalizing n with
  | nil => rfl
  | cons y t ih => cases n <;> simp [lset, ih]

theorem lget_lset (d : α) (l : List α) (n m : Nat) (x : α) (h : n < l.length) :
    lget d (lset l n x) m = if m = n then x else lget d l m := by
  induction l generalizing n m with
  | nil => simp at h
  | cons y t ih =>
    cases n <;> cases m <;> simp [lset, lget]
    rename_i n m; exact ih n m (by simpa using h)

theorem lget_lset_ne (d : α) (l : List α) (n m : Nat) (x : α) (h : m ≠ n) : lget d (lset l n x) m = lget d l m := by
  induction l generalizing n m with
  | nil => rfl
  | cons y t ih => cases n <;> cases m <;> simp_all [lset, lget]

@[simp] theorem lget_lput (d : α) (l : List α) (n m : Nat) (x : α) : lget d (lput d l n x) m = if m = n then x else lget d l m := by
  induction l generalizing n m with
  | nil =>
    induction n generalizing m with
    | zero => cases m <;> simp [lput, lget]
    | succ n ih => cases m <;> simp [lput, lget, ih]
  | cons y t ih => cases n <;> cases m <;> simp [lput, lget, ih]

theorem lget_mapTo (d : α) (f : Nat → α → α) (i n m : Nat) (l : List α) :
    lget d (mapTo d f i n l) m = if m < n then f (i + m) (lget d l m) else d := by
  induction n generalizing i m l with
  | zero => simp [mapTo, lget]
  | succ n ih =>
    cases l <;> cases m <;> simp [mapTo, lget, ih, Nat.add_assoc, Nat.add_comm 1]

theorem lset_getElem? (l : List α) (n m : Nat) (x : α) : (lset l n x)[m]? = if m = n ∧ n < l.length then some x else l[m]? := by
  induction l generalizing n m with
  | nil => simp [lset]
  | cons y t ih => cases n <;> cases m <;> simp [lset, ih]

theorem mem_upFrom (lo n k : Nat) : k ∈ upFrom lo n ↔ lo ≤ k ∧ k < lo + n := by
  induction n generalizing lo with
  | zero => simp [upFrom]
  | succ n ih => simp [upFrom, ih]; omega

@[simp] theorem upFrom_length (lo n : Nat) : (upFrom lo n).length = n := by
  induction n generalizing lo with
  | zero => rfl
  | succ n ih => simp [upFrom, ih]

end Sys2Proof.Machine
end

