-- ==== Sys2Proof/Laws/State.lean ====
section
/-! SUPPORT. One lemma for each field of the state and each of its update functions, and for the parts of a block, a wave and a
lane; and what each part reads after an update of it. -/

namespace Sys2Proof.Machine

/-! ### State.setCore -/

@[simp] theorem State.setCore_clk (s : State) (c : Nat) (x : Core) : (s.setCore c x).clk = s.clk := rfl
@[simp] theorem State.setCore_tick (s : State) (c : Nat) (x : Core) : (s.setCore c x).tick = s.tick := rfl
@[simp] theorem State.setCore_agenda (s : State) (c : Nat) (x : Core) : (s.setCore c x).agenda = s.agenda := rfl
@[simp] theorem State.setCore_inbox (s : State) (c : Nat) (x : Core) : (s.setCore c x).inbox = s.inbox := rfl
@[simp] theorem State.setCore_freeCtr (s : State) (c : Nat) (x : Core) : (s.setCore c x).freeCtr = s.freeCtr := rfl
@[simp] theorem State.setCore_issue (s : State) (c : Nat) (x : Core) : (s.setCore c x).issue = s.issue := rfl
@[simp] theorem State.setCore_issuedParts (s : State) (c : Nat) (x : Core) : (s.setCore c x).issuedParts = s.issuedParts := rfl
@[simp] theorem State.setCore_mem (s : State) (c : Nat) (x : Core) : (s.setCore c x).mem = s.mem := rfl
@[simp] theorem State.setCore_tags (s : State) (c : Nat) (x : Core) : (s.setCore c x).tags = s.tags := rfl
@[simp] theorem State.setCore_poison (s : State) (c : Nat) (x : Core) : (s.setCore c x).poison = s.poison := rfl
@[simp] theorem State.setCore_lostStacks (s : State) (c : Nat) (x : Core) : (s.setCore c x).lostStacks = s.lostStacks := rfl
@[simp] theorem State.setCore_lostSlices (s : State) (c : Nat) (x : Core) : (s.setCore c x).lostSlices = s.lostSlices := rfl
@[simp] theorem State.setCore_sound (s : State) (c : Nat) (x : Core) : (s.setCore c x).sound = s.sound := rfl
@[simp] theorem State.setCore_dirty (s : State) (c : Nat) (x : Core) : (s.setCore c x).dirty = s.dirty := rfl
@[simp] theorem State.setCore_dir (s : State) (c : Nat) (x : Core) : (s.setCore c x).dir = s.dir := rfl
@[simp] theorem State.setCore_peerCopies (s : State) (c : Nat) (x : Core) : (s.setCore c x).peerCopies = s.peerCopies := rfl
@[simp] theorem State.setCore_invalWait (s : State) (c : Nat) (x : Core) : (s.setCore c x).invalWait = s.invalWait := rfl
@[simp] theorem State.setCore_misses (s : State) (c : Nat) (x : Core) : (s.setCore c x).misses = s.misses := rfl
@[simp] theorem State.setCore_ackWait (s : State) (c : Nat) (x : Core) : (s.setCore c x).ackWait = s.ackWait := rfl
@[simp] theorem State.setCore_posted (s : State) (c : Nat) (x : Core) : (s.setCore c x).posted = s.posted := rfl
@[simp] theorem State.setCore_postedNext (s : State) (c : Nat) (x : Core) : (s.setCore c x).postedNext = s.postedNext := rfl
@[simp] theorem State.setCore_out (s : State) (c : Nat) (x : Core) : (s.setCore c x).out = s.out := rfl
@[simp] theorem State.setCore_outDone (s : State) (c : Nat) (x : Core) : (s.setCore c x).outDone = s.outDone := rfl
@[simp] theorem State.setCore_seals (s : State) (c : Nat) (x : Core) : (s.setCore c x).seals = s.seals := rfl
@[simp] theorem State.setCore_egress (s : State) (c : Nat) (x : Core) : (s.setCore c x).egress = s.egress := rfl
@[simp] theorem State.setCore_seqOut (s : State) (c : Nat) (x : Core) : (s.setCore c x).seqOut = s.seqOut := rfl
@[simp] theorem State.setCore_seqIn (s : State) (c : Nat) (x : Core) : (s.setCore c x).seqIn = s.seqIn := rfl
@[simp] theorem State.setCore_reorder (s : State) (c : Nat) (x : Core) : (s.setCore c x).reorder = s.reorder := rfl
@[simp] theorem State.setCore_reorderChains (s : State) (c : Nat) (x : Core) : (s.setCore c x).reorderChains = s.reorderChains := rfl
@[simp] theorem State.setCore_blocks (s : State) (c : Nat) (x : Core) : (s.setCore c x).blocks = s.blocks := rfl
@[simp] theorem State.setCore_pendHigh (s : State) (c : Nat) (x : Core) : (s.setCore c x).pendHigh = s.pendHigh := rfl
@[simp] theorem State.setCore_fetchAsks (s : State) (c : Nat) (x : Core) : (s.setCore c x).fetchAsks = s.fetchAsks := rfl
@[simp] theorem State.setCore_fetchBad (s : State) (c : Nat) (x : Core) : (s.setCore c x).fetchBad = s.fetchBad := rfl
@[simp] theorem State.setCore_mseq (s : State) (c : Nat) (x : Core) : (s.setCore c x).mseq = s.mseq := rfl
@[simp] theorem State.setCore_cores (s : State) (c : Nat) (x : Core) : (s.setCore c x).cores = tset Core.reset s.cores c x := rfl
@[simp] theorem State.setCore_dies (s : State) (c : Nat) (x : Core) : (s.setCore c x).dies = s.dies := rfl
@[simp] theorem State.setCore_stacks (s : State) (c : Nat) (x : Core) : (s.setCore c x).hbms = s.hbms := rfl
@[simp] theorem State.setCore_ports (s : State) (c : Nat) (x : Core) : (s.setCore c x).ports = s.ports := rfl
@[simp] theorem State.setCore_ioMerge (s : State) (c : Nat) (x : Core) : (s.setCore c x).ioMerge = s.ioMerge := rfl
@[simp] theorem State.setCore_faultWait (s : State) (c : Nat) (x : Core) : (s.setCore c x).faultWait = s.faultWait := rfl
@[simp] theorem State.setCore_ctxs (s : State) (c : Nat) (x : Core) : (s.setCore c x).ctxs = s.ctxs := rfl
@[simp] theorem State.setCore_hwqs (s : State) (c : Nat) (x : Core) : (s.setCore c x).hwqs = s.hwqs := rfl
@[simp] theorem State.setCore_journal (s : State) (c : Nat) (x : Core) : (s.setCore c x).journal = s.journal := rfl
@[simp] theorem State.setCore_launches (s : State) (c : Nat) (x : Core) : (s.setCore c x).launches = s.launches := rfl
@[simp] theorem State.setCore_launchOrder (s : State) (c : Nat) (x : Core) : (s.setCore c x).launchOrder = s.launchOrder := rfl
@[simp] theorem State.setCore_age (s : State) (c : Nat) (x : Core) : (s.setCore c x).age = s.age := rfl
@[simp] theorem State.setCore_graphs (s : State) (c : Nat) (x : Core) : (s.setCore c x).graphs = s.graphs := rfl
@[simp] theorem State.setCore_phases (s : State) (c : Nat) (x : Core) : (s.setCore c x).phases = s.phases := rfl
@[simp] theorem State.setCore_jobs (s : State) (c : Nat) (x : Core) : (s.setCore c x).jobs = s.jobs := rfl
@[simp] theorem State.setCore_nodes (s : State) (c : Nat) (x : Core) : (s.setCore c x).nodes = s.nodes := rfl
@[simp] theorem State.setCore_saved (s : State) (c : Nat) (x : Core) : (s.setCore c x).saved = s.saved := rfl
@[simp] theorem State.setCore_saving (s : State) (c : Nat) (x : Core) : (s.setCore c x).saving = s.saving := rfl
@[simp] theorem State.setCore_lastOut (s : State) (c : Nat) (x : Core) : (s.setCore c x).lastOut = s.lastOut := rfl
@[simp] theorem State.setCore_heldClusters (s : State) (c : Nat) (x : Core) : (s.setCore c x).heldClusters = s.heldClusters := rfl
@[simp] theorem State.setCore_cpRotor (s : State) (c : Nat) (x : Core) : (s.setCore c x).cpRotor = s.cpRotor := rfl
@[simp] theorem State.setCore_gov (s : State) (c : Nat) (x : Core) : (s.setCore c x).gov = s.gov := rfl
@[simp] theorem State.setCore_tok (s : State) (c : Nat) (x : Core) : (s.setCore c x).tok = s.tok := rfl
@[simp] theorem State.setCore_mil (s : State) (c : Nat) (x : Core) : (s.setCore c x).mil = s.mil := rfl
@[simp] theorem State.setCore_pkg (s : State) (c : Nat) (x : Core) : (s.setCore c x).pkg = s.pkg := rfl
@[simp] theorem State.setCore_supplyOut (s : State) (c : Nat) (x : Core) : (s.setCore c x).supplyOut = s.supplyOut := rfl
@[simp] theorem State.setCore_keyWait (s : State) (c : Nat) (x : Core) : (s.setCore c x).keyWait = s.keyWait := rfl
@[simp] theorem State.setCore_collNotices (s : State) (c : Nat) (x : Core) : (s.setCore c x).collNotices = s.collNotices := rfl
@[simp] theorem State.setCore_early (s : State) (c : Nat) (x : Core) : (s.setCore c x).early = s.early := rfl
@[simp] theorem State.setCore_combine (s : State) (c : Nat) (x : Core) : (s.setCore c x).combine = s.combine := rfl
@[simp] theorem State.setCore_lost (s : State) (c : Nat) (x : Core) : (s.setCore c x).lost = s.lost := rfl
@[simp] theorem State.setCore_farOut (s : State) (c : Nat) (x : Core) : (s.setCore c x).farOut = s.farOut := rfl
@[simp] theorem State.setCore_scoFatal (s : State) (c : Nat) (x : Core) : (s.setCore c x).scoFatal = s.scoFatal := rfl
@[simp] theorem State.setCore_nodeSignals (s : State) (c : Nat) (x : Core) : (s.setCore c x).nodeSignals = s.nodeSignals := rfl
@[simp] theorem State.setCore_parked (s : State) (c : Nat) (x : Core) : (s.setCore c x).parked = s.parked := rfl
@[simp] theorem State.setCore_running (s : State) (c : Nat) (x : Core) : (s.setCore c x).running = s.running := rfl

/-! ### State.setDie -/

@[simp] theorem State.setDie_clk (s : State) (d : Nat) (x : Die) : (s.setDie d x).clk = s.clk := rfl
@[simp] theorem State.setDie_tick (s : State) (d : Nat) (x : Die) : (s.setDie d x).tick = s.tick := rfl
@[simp] theorem State.setDie_agenda (s : State) (d : Nat) (x : Die) : (s.setDie d x).agenda = s.agenda := rfl
@[simp] theorem State.setDie_inbox (s : State) (d : Nat) (x : Die) : (s.setDie d x).inbox = s.inbox := rfl
@[simp] theorem State.setDie_freeCtr (s : State) (d : Nat) (x : Die) : (s.setDie d x).freeCtr = s.freeCtr := rfl
@[simp] theorem State.setDie_issue (s : State) (d : Nat) (x : Die) : (s.setDie d x).issue = s.issue := rfl
@[simp] theorem State.setDie_issuedParts (s : State) (d : Nat) (x : Die) : (s.setDie d x).issuedParts = s.issuedParts := rfl
@[simp] theorem State.setDie_mem (s : State) (d : Nat) (x : Die) : (s.setDie d x).mem = s.mem := rfl
@[simp] theorem State.setDie_tags (s : State) (d : Nat) (x : Die) : (s.setDie d x).tags = s.tags := rfl
@[simp] theorem State.setDie_poison (s : State) (d : Nat) (x : Die) : (s.setDie d x).poison = s.poison := rfl
@[simp] theorem State.setDie_lostStacks (s : State) (d : Nat) (x : Die) : (s.setDie d x).lostStacks = s.lostStacks := rfl
@[simp] theorem State.setDie_lostSlices (s : State) (d : Nat) (x : Die) : (s.setDie d x).lostSlices = s.lostSlices := rfl
@[simp] theorem State.setDie_sound (s : State) (d : Nat) (x : Die) : (s.setDie d x).sound = s.sound := rfl
@[simp] theorem State.setDie_dirty (s : State) (d : Nat) (x : Die) : (s.setDie d x).dirty = s.dirty := rfl
@[simp] theorem State.setDie_dir (s : State) (d : Nat) (x : Die) : (s.setDie d x).dir = s.dir := rfl
@[simp] theorem State.setDie_peerCopies (s : State) (d : Nat) (x : Die) : (s.setDie d x).peerCopies = s.peerCopies := rfl
@[simp] theorem State.setDie_invalWait (s : State) (d : Nat) (x : Die) : (s.setDie d x).invalWait = s.invalWait := rfl
@[simp] theorem State.setDie_misses (s : State) (d : Nat) (x : Die) : (s.setDie d x).misses = s.misses := rfl
@[simp] theorem State.setDie_ackWait (s : State) (d : Nat) (x : Die) : (s.setDie d x).ackWait = s.ackWait := rfl
@[simp] theorem State.setDie_posted (s : State) (d : Nat) (x : Die) : (s.setDie d x).posted = s.posted := rfl
@[simp] theorem State.setDie_postedNext (s : State) (d : Nat) (x : Die) : (s.setDie d x).postedNext = s.postedNext := rfl
@[simp] theorem State.setDie_out (s : State) (d : Nat) (x : Die) : (s.setDie d x).out = s.out := rfl
@[simp] theorem State.setDie_outDone (s : State) (d : Nat) (x : Die) : (s.setDie d x).outDone = s.outDone := rfl
@[simp] theorem State.setDie_seals (s : State) (d : Nat) (x : Die) : (s.setDie d x).seals = s.seals := rfl
@[simp] theorem State.setDie_egress (s : State) (d : Nat) (x : Die) : (s.setDie d x).egress = s.egress := rfl
@[simp] theorem State.setDie_seqOut (s : State) (d : Nat) (x : Die) : (s.setDie d x).seqOut = s.seqOut := rfl
@[simp] theorem State.setDie_seqIn (s : State) (d : Nat) (x : Die) : (s.setDie d x).seqIn = s.seqIn := rfl
@[simp] theorem State.setDie_reorder (s : State) (d : Nat) (x : Die) : (s.setDie d x).reorder = s.reorder := rfl
@[simp] theorem State.setDie_reorderChains (s : State) (d : Nat) (x : Die) : (s.setDie d x).reorderChains = s.reorderChains := rfl
@[simp] theorem State.setDie_blocks (s : State) (d : Nat) (x : Die) : (s.setDie d x).blocks = s.blocks := rfl
@[simp] theorem State.setDie_pendHigh (s : State) (d : Nat) (x : Die) : (s.setDie d x).pendHigh = s.pendHigh := rfl
@[simp] theorem State.setDie_fetchAsks (s : State) (d : Nat) (x : Die) : (s.setDie d x).fetchAsks = s.fetchAsks := rfl
@[simp] theorem State.setDie_fetchBad (s : State) (d : Nat) (x : Die) : (s.setDie d x).fetchBad = s.fetchBad := rfl
@[simp] theorem State.setDie_mseq (s : State) (d : Nat) (x : Die) : (s.setDie d x).mseq = s.mseq := rfl
@[simp] theorem State.setDie_cores (s : State) (d : Nat) (x : Die) : (s.setDie d x).cores = s.cores := rfl
@[simp] theorem State.setDie_dies (s : State) (d : Nat) (x : Die) : (s.setDie d x).dies = lset s.dies d x := rfl
@[simp] theorem State.setDie_stacks (s : State) (d : Nat) (x : Die) : (s.setDie d x).hbms = s.hbms := rfl
@[simp] theorem State.setDie_ports (s : State) (d : Nat) (x : Die) : (s.setDie d x).ports = s.ports := rfl
@[simp] theorem State.setDie_ioMerge (s : State) (d : Nat) (x : Die) : (s.setDie d x).ioMerge = s.ioMerge := rfl
@[simp] theorem State.setDie_faultWait (s : State) (d : Nat) (x : Die) : (s.setDie d x).faultWait = s.faultWait := rfl
@[simp] theorem State.setDie_ctxs (s : State) (d : Nat) (x : Die) : (s.setDie d x).ctxs = s.ctxs := rfl
@[simp] theorem State.setDie_hwqs (s : State) (d : Nat) (x : Die) : (s.setDie d x).hwqs = s.hwqs := rfl
@[simp] theorem State.setDie_journal (s : State) (d : Nat) (x : Die) : (s.setDie d x).journal = s.journal := rfl
@[simp] theorem State.setDie_launches (s : State) (d : Nat) (x : Die) : (s.setDie d x).launches = s.launches := rfl
@[simp] theorem State.setDie_launchOrder (s : State) (d : Nat) (x : Die) : (s.setDie d x).launchOrder = s.launchOrder := rfl
@[simp] theorem State.setDie_age (s : State) (d : Nat) (x : Die) : (s.setDie d x).age = s.age := rfl
@[simp] theorem State.setDie_graphs (s : State) (d : Nat) (x : Die) : (s.setDie d x).graphs = s.graphs := rfl
@[simp] theorem State.setDie_phases (s : State) (d : Nat) (x : Die) : (s.setDie d x).phases = s.phases := rfl
@[simp] theorem State.setDie_jobs (s : State) (d : Nat) (x : Die) : (s.setDie d x).jobs = s.jobs := rfl
@[simp] theorem State.setDie_nodes (s : State) (d : Nat) (x : Die) : (s.setDie d x).nodes = s.nodes := rfl
@[simp] theorem State.setDie_saved (s : State) (d : Nat) (x : Die) : (s.setDie d x).saved = s.saved := rfl
@[simp] theorem State.setDie_saving (s : State) (d : Nat) (x : Die) : (s.setDie d x).saving = s.saving := rfl
@[simp] theorem State.setDie_lastOut (s : State) (d : Nat) (x : Die) : (s.setDie d x).lastOut = s.lastOut := rfl
@[simp] theorem State.setDie_heldClusters (s : State) (d : Nat) (x : Die) : (s.setDie d x).heldClusters = s.heldClusters := rfl
@[simp] theorem State.setDie_cpRotor (s : State) (d : Nat) (x : Die) : (s.setDie d x).cpRotor = s.cpRotor := rfl
@[simp] theorem State.setDie_gov (s : State) (d : Nat) (x : Die) : (s.setDie d x).gov = s.gov := rfl
@[simp] theorem State.setDie_tok (s : State) (d : Nat) (x : Die) : (s.setDie d x).tok = s.tok := rfl
@[simp] theorem State.setDie_mil (s : State) (d : Nat) (x : Die) : (s.setDie d x).mil = s.mil := rfl
@[simp] theorem State.setDie_pkg (s : State) (d : Nat) (x : Die) : (s.setDie d x).pkg = s.pkg := rfl
@[simp] theorem State.setDie_supplyOut (s : State) (d : Nat) (x : Die) : (s.setDie d x).supplyOut = s.supplyOut := rfl
@[simp] theorem State.setDie_keyWait (s : State) (d : Nat) (x : Die) : (s.setDie d x).keyWait = s.keyWait := rfl
@[simp] theorem State.setDie_collNotices (s : State) (d : Nat) (x : Die) : (s.setDie d x).collNotices = s.collNotices := rfl
@[simp] theorem State.setDie_early (s : State) (d : Nat) (x : Die) : (s.setDie d x).early = s.early := rfl
@[simp] theorem State.setDie_combine (s : State) (d : Nat) (x : Die) : (s.setDie d x).combine = s.combine := rfl
@[simp] theorem State.setDie_lost (s : State) (d : Nat) (x : Die) : (s.setDie d x).lost = s.lost := rfl
@[simp] theorem State.setDie_farOut (s : State) (d : Nat) (x : Die) : (s.setDie d x).farOut = s.farOut := rfl
@[simp] theorem State.setDie_scoFatal (s : State) (d : Nat) (x : Die) : (s.setDie d x).scoFatal = s.scoFatal := rfl
@[simp] theorem State.setDie_nodeSignals (s : State) (d : Nat) (x : Die) : (s.setDie d x).nodeSignals = s.nodeSignals := rfl
@[simp] theorem State.setDie_parked (s : State) (d : Nat) (x : Die) : (s.setDie d x).parked = s.parked := rfl
@[simp] theorem State.setDie_running (s : State) (d : Nat) (x : Die) : (s.setDie d x).running = s.running := rfl

/-! ### State.setStack -/

@[simp] theorem State.setStack_clk (s : State) (k : Nat) (x : Stack) : (s.setStack k x).clk = s.clk := rfl
@[simp] theorem State.setStack_tick (s : State) (k : Nat) (x : Stack) : (s.setStack k x).tick = s.tick := rfl
@[simp] theorem State.setStack_agenda (s : State) (k : Nat) (x : Stack) : (s.setStack k x).agenda = s.agenda := rfl
@[simp] theorem State.setStack_inbox (s : State) (k : Nat) (x : Stack) : (s.setStack k x).inbox = s.inbox := rfl
@[simp] theorem State.setStack_freeCtr (s : State) (k : Nat) (x : Stack) : (s.setStack k x).freeCtr = s.freeCtr := rfl
@[simp] theorem State.setStack_issue (s : State) (k : Nat) (x : Stack) : (s.setStack k x).issue = s.issue := rfl
@[simp] theorem State.setStack_issuedParts (s : State) (k : Nat) (x : Stack) : (s.setStack k x).issuedParts = s.issuedParts := rfl
@[simp] theorem State.setStack_mem (s : State) (k : Nat) (x : Stack) : (s.setStack k x).mem = s.mem := rfl
@[simp] theorem State.setStack_tags (s : State) (k : Nat) (x : Stack) : (s.setStack k x).tags = s.tags := rfl
@[simp] theorem State.setStack_poison (s : State) (k : Nat) (x : Stack) : (s.setStack k x).poison = s.poison := rfl
@[simp] theorem State.setStack_lostStacks (s : State) (k : Nat) (x : Stack) : (s.setStack k x).lostStacks = s.lostStacks := rfl
@[simp] theorem State.setStack_lostSlices (s : State) (k : Nat) (x : Stack) : (s.setStack k x).lostSlices = s.lostSlices := rfl
@[simp] theorem State.setStack_sound (s : State) (k : Nat) (x : Stack) : (s.setStack k x).sound = s.sound := rfl
@[simp] theorem State.setStack_dirty (s : State) (k : Nat) (x : Stack) : (s.setStack k x).dirty = s.dirty := rfl
@[simp] theorem State.setStack_dir (s : State) (k : Nat) (x : Stack) : (s.setStack k x).dir = s.dir := rfl
@[simp] theorem State.setStack_peerCopies (s : State) (k : Nat) (x : Stack) : (s.setStack k x).peerCopies = s.peerCopies := rfl
@[simp] theorem State.setStack_invalWait (s : State) (k : Nat) (x : Stack) : (s.setStack k x).invalWait = s.invalWait := rfl
@[simp] theorem State.setStack_misses (s : State) (k : Nat) (x : Stack) : (s.setStack k x).misses = s.misses := rfl
@[simp] theorem State.setStack_ackWait (s : State) (k : Nat) (x : Stack) : (s.setStack k x).ackWait = s.ackWait := rfl
@[simp] theorem State.setStack_posted (s : State) (k : Nat) (x : Stack) : (s.setStack k x).posted = s.posted := rfl
@[simp] theorem State.setStack_postedNext (s : State) (k : Nat) (x : Stack) : (s.setStack k x).postedNext = s.postedNext := rfl
@[simp] theorem State.setStack_out (s : State) (k : Nat) (x : Stack) : (s.setStack k x).out = s.out := rfl
@[simp] theorem State.setStack_outDone (s : State) (k : Nat) (x : Stack) : (s.setStack k x).outDone = s.outDone := rfl
@[simp] theorem State.setStack_seals (s : State) (k : Nat) (x : Stack) : (s.setStack k x).seals = s.seals := rfl
@[simp] theorem State.setStack_egress (s : State) (k : Nat) (x : Stack) : (s.setStack k x).egress = s.egress := rfl
@[simp] theorem State.setStack_seqOut (s : State) (k : Nat) (x : Stack) : (s.setStack k x).seqOut = s.seqOut := rfl
@[simp] theorem State.setStack_seqIn (s : State) (k : Nat) (x : Stack) : (s.setStack k x).seqIn = s.seqIn := rfl
@[simp] theorem State.setStack_reorder (s : State) (k : Nat) (x : Stack) : (s.setStack k x).reorder = s.reorder := rfl
@[simp] theorem State.setStack_reorderChains (s : State) (k : Nat) (x : Stack) : (s.setStack k x).reorderChains = s.reorderChains := rfl
@[simp] theorem State.setStack_blocks (s : State) (k : Nat) (x : Stack) : (s.setStack k x).blocks = s.blocks := rfl
@[simp] theorem State.setStack_pendHigh (s : State) (k : Nat) (x : Stack) : (s.setStack k x).pendHigh = s.pendHigh := rfl
@[simp] theorem State.setStack_fetchAsks (s : State) (k : Nat) (x : Stack) : (s.setStack k x).fetchAsks = s.fetchAsks := rfl
@[simp] theorem State.setStack_fetchBad (s : State) (k : Nat) (x : Stack) : (s.setStack k x).fetchBad = s.fetchBad := rfl
@[simp] theorem State.setStack_mseq (s : State) (k : Nat) (x : Stack) : (s.setStack k x).mseq = s.mseq := rfl
@[simp] theorem State.setStack_cores (s : State) (k : Nat) (x : Stack) : (s.setStack k x).cores = s.cores := rfl
@[simp] theorem State.setStack_dies (s : State) (k : Nat) (x : Stack) : (s.setStack k x).dies = s.dies := rfl
@[simp] theorem State.setStack_stacks (s : State) (k : Nat) (x : Stack) : (s.setStack k x).hbms = lset s.hbms k x := rfl
@[simp] theorem State.setStack_ports (s : State) (k : Nat) (x : Stack) : (s.setStack k x).ports = s.ports := rfl
@[simp] theorem State.setStack_ioMerge (s : State) (k : Nat) (x : Stack) : (s.setStack k x).ioMerge = s.ioMerge := rfl
@[simp] theorem State.setStack_faultWait (s : State) (k : Nat) (x : Stack) : (s.setStack k x).faultWait = s.faultWait := rfl
@[simp] theorem State.setStack_ctxs (s : State) (k : Nat) (x : Stack) : (s.setStack k x).ctxs = s.ctxs := rfl
@[simp] theorem State.setStack_hwqs (s : State) (k : Nat) (x : Stack) : (s.setStack k x).hwqs = s.hwqs := rfl
@[simp] theorem State.setStack_journal (s : State) (k : Nat) (x : Stack) : (s.setStack k x).journal = s.journal := rfl
@[simp] theorem State.setStack_launches (s : State) (k : Nat) (x : Stack) : (s.setStack k x).launches = s.launches := rfl
@[simp] theorem State.setStack_launchOrder (s : State) (k : Nat) (x : Stack) : (s.setStack k x).launchOrder = s.launchOrder := rfl
@[simp] theorem State.setStack_age (s : State) (k : Nat) (x : Stack) : (s.setStack k x).age = s.age := rfl
@[simp] theorem State.setStack_graphs (s : State) (k : Nat) (x : Stack) : (s.setStack k x).graphs = s.graphs := rfl
@[simp] theorem State.setStack_phases (s : State) (k : Nat) (x : Stack) : (s.setStack k x).phases = s.phases := rfl
@[simp] theorem State.setStack_jobs (s : State) (k : Nat) (x : Stack) : (s.setStack k x).jobs = s.jobs := rfl
@[simp] theorem State.setStack_nodes (s : State) (k : Nat) (x : Stack) : (s.setStack k x).nodes = s.nodes := rfl
@[simp] theorem State.setStack_saved (s : State) (k : Nat) (x : Stack) : (s.setStack k x).saved = s.saved := rfl
@[simp] theorem State.setStack_saving (s : State) (k : Nat) (x : Stack) : (s.setStack k x).saving = s.saving := rfl
@[simp] theorem State.setStack_lastOut (s : State) (k : Nat) (x : Stack) : (s.setStack k x).lastOut = s.lastOut := rfl
@[simp] theorem State.setStack_heldClusters (s : State) (k : Nat) (x : Stack) : (s.setStack k x).heldClusters = s.heldClusters := rfl
@[simp] theorem State.setStack_cpRotor (s : State) (k : Nat) (x : Stack) : (s.setStack k x).cpRotor = s.cpRotor := rfl
@[simp] theorem State.setStack_gov (s : State) (k : Nat) (x : Stack) : (s.setStack k x).gov = s.gov := rfl
@[simp] theorem State.setStack_tok (s : State) (k : Nat) (x : Stack) : (s.setStack k x).tok = s.tok := rfl
@[simp] theorem State.setStack_mil (s : State) (k : Nat) (x : Stack) : (s.setStack k x).mil = s.mil := rfl
@[simp] theorem State.setStack_pkg (s : State) (k : Nat) (x : Stack) : (s.setStack k x).pkg = s.pkg := rfl
@[simp] theorem State.setStack_supplyOut (s : State) (k : Nat) (x : Stack) : (s.setStack k x).supplyOut = s.supplyOut := rfl
@[simp] theorem State.setStack_keyWait (s : State) (k : Nat) (x : Stack) : (s.setStack k x).keyWait = s.keyWait := rfl
@[simp] theorem State.setStack_collNotices (s : State) (k : Nat) (x : Stack) : (s.setStack k x).collNotices = s.collNotices := rfl
@[simp] theorem State.setStack_early (s : State) (k : Nat) (x : Stack) : (s.setStack k x).early = s.early := rfl
@[simp] theorem State.setStack_combine (s : State) (k : Nat) (x : Stack) : (s.setStack k x).combine = s.combine := rfl
@[simp] theorem State.setStack_lost (s : State) (k : Nat) (x : Stack) : (s.setStack k x).lost = s.lost := rfl
@[simp] theorem State.setStack_farOut (s : State) (k : Nat) (x : Stack) : (s.setStack k x).farOut = s.farOut := rfl
@[simp] theorem State.setStack_scoFatal (s : State) (k : Nat) (x : Stack) : (s.setStack k x).scoFatal = s.scoFatal := rfl
@[simp] theorem State.setStack_nodeSignals (s : State) (k : Nat) (x : Stack) : (s.setStack k x).nodeSignals = s.nodeSignals := rfl
@[simp] theorem State.setStack_parked (s : State) (k : Nat) (x : Stack) : (s.setStack k x).parked = s.parked := rfl
@[simp] theorem State.setStack_running (s : State) (k : Nat) (x : Stack) : (s.setStack k x).running = s.running := rfl

/-! ### State.setPort -/

@[simp] theorem State.setPort_clk (s : State) (p : Nat) (x : Port) : (s.setPort p x).clk = s.clk := rfl
@[simp] theorem State.setPort_tick (s : State) (p : Nat) (x : Port) : (s.setPort p x).tick = s.tick := rfl
@[simp] theorem State.setPort_agenda (s : State) (p : Nat) (x : Port) : (s.setPort p x).agenda = s.agenda := rfl
@[simp] theorem State.setPort_inbox (s : State) (p : Nat) (x : Port) : (s.setPort p x).inbox = s.inbox := rfl
@[simp] theorem State.setPort_freeCtr (s : State) (p : Nat) (x : Port) : (s.setPort p x).freeCtr = s.freeCtr := rfl
@[simp] theorem State.setPort_issue (s : State) (p : Nat) (x : Port) : (s.setPort p x).issue = s.issue := rfl
@[simp] theorem State.setPort_issuedParts (s : State) (p : Nat) (x : Port) : (s.setPort p x).issuedParts = s.issuedParts := rfl
@[simp] theorem State.setPort_mem (s : State) (p : Nat) (x : Port) : (s.setPort p x).mem = s.mem := rfl
@[simp] theorem State.setPort_tags (s : State) (p : Nat) (x : Port) : (s.setPort p x).tags = s.tags := rfl
@[simp] theorem State.setPort_poison (s : State) (p : Nat) (x : Port) : (s.setPort p x).poison = s.poison := rfl
@[simp] theorem State.setPort_lostStacks (s : State) (p : Nat) (x : Port) : (s.setPort p x).lostStacks = s.lostStacks := rfl
@[simp] theorem State.setPort_lostSlices (s : State) (p : Nat) (x : Port) : (s.setPort p x).lostSlices = s.lostSlices := rfl
@[simp] theorem State.setPort_sound (s : State) (p : Nat) (x : Port) : (s.setPort p x).sound = s.sound := rfl
@[simp] theorem State.setPort_dirty (s : State) (p : Nat) (x : Port) : (s.setPort p x).dirty = s.dirty := rfl
@[simp] theorem State.setPort_dir (s : State) (p : Nat) (x : Port) : (s.setPort p x).dir = s.dir := rfl
@[simp] theorem State.setPort_peerCopies (s : State) (p : Nat) (x : Port) : (s.setPort p x).peerCopies = s.peerCopies := rfl
@[simp] theorem State.setPort_invalWait (s : State) (p : Nat) (x : Port) : (s.setPort p x).invalWait = s.invalWait := rfl
@[simp] theorem State.setPort_misses (s : State) (p : Nat) (x : Port) : (s.setPort p x).misses = s.misses := rfl
@[simp] theorem State.setPort_ackWait (s : State) (p : Nat) (x : Port) : (s.setPort p x).ackWait = s.ackWait := rfl
@[simp] theorem State.setPort_posted (s : State) (p : Nat) (x : Port) : (s.setPort p x).posted = s.posted := rfl
@[simp] theorem State.setPort_postedNext (s : State) (p : Nat) (x : Port) : (s.setPort p x).postedNext = s.postedNext := rfl
@[simp] theorem State.setPort_out (s : State) (p : Nat) (x : Port) : (s.setPort p x).out = s.out := rfl
@[simp] theorem State.setPort_outDone (s : State) (p : Nat) (x : Port) : (s.setPort p x).outDone = s.outDone := rfl
@[simp] theorem State.setPort_seals (s : State) (p : Nat) (x : Port) : (s.setPort p x).seals = s.seals := rfl
@[simp] theorem State.setPort_egress (s : State) (p : Nat) (x : Port) : (s.setPort p x).egress = s.egress := rfl
@[simp] theorem State.setPort_seqOut (s : State) (p : Nat) (x : Port) : (s.setPort p x).seqOut = s.seqOut := rfl
@[simp] theorem State.setPort_seqIn (s : State) (p : Nat) (x : Port) : (s.setPort p x).seqIn = s.seqIn := rfl
@[simp] theorem State.setPort_reorder (s : State) (p : Nat) (x : Port) : (s.setPort p x).reorder = s.reorder := rfl
@[simp] theorem State.setPort_reorderChains (s : State) (p : Nat) (x : Port) : (s.setPort p x).reorderChains = s.reorderChains := rfl
@[simp] theorem State.setPort_blocks (s : State) (p : Nat) (x : Port) : (s.setPort p x).blocks = s.blocks := rfl
@[simp] theorem State.setPort_pendHigh (s : State) (p : Nat) (x : Port) : (s.setPort p x).pendHigh = s.pendHigh := rfl
@[simp] theorem State.setPort_fetchAsks (s : State) (p : Nat) (x : Port) : (s.setPort p x).fetchAsks = s.fetchAsks := rfl
@[simp] theorem State.setPort_fetchBad (s : State) (p : Nat) (x : Port) : (s.setPort p x).fetchBad = s.fetchBad := rfl
@[simp] theorem State.setPort_mseq (s : State) (p : Nat) (x : Port) : (s.setPort p x).mseq = s.mseq := rfl
@[simp] theorem State.setPort_cores (s : State) (p : Nat) (x : Port) : (s.setPort p x).cores = s.cores := rfl
@[simp] theorem State.setPort_dies (s : State) (p : Nat) (x : Port) : (s.setPort p x).dies = s.dies := rfl
@[simp] theorem State.setPort_stacks (s : State) (p : Nat) (x : Port) : (s.setPort p x).hbms = s.hbms := rfl
@[simp] theorem State.setPort_ports (s : State) (p : Nat) (x : Port) : (s.setPort p x).ports = lset s.ports p x := rfl
@[simp] theorem State.setPort_ioMerge (s : State) (p : Nat) (x : Port) : (s.setPort p x).ioMerge = s.ioMerge := rfl
@[simp] theorem State.setPort_faultWait (s : State) (p : Nat) (x : Port) : (s.setPort p x).faultWait = s.faultWait := rfl
@[simp] theorem State.setPort_ctxs (s : State) (p : Nat) (x : Port) : (s.setPort p x).ctxs = s.ctxs := rfl
@[simp] theorem State.setPort_hwqs (s : State) (p : Nat) (x : Port) : (s.setPort p x).hwqs = s.hwqs := rfl
@[simp] theorem State.setPort_journal (s : State) (p : Nat) (x : Port) : (s.setPort p x).journal = s.journal := rfl
@[simp] theorem State.setPort_launches (s : State) (p : Nat) (x : Port) : (s.setPort p x).launches = s.launches := rfl
@[simp] theorem State.setPort_launchOrder (s : State) (p : Nat) (x : Port) : (s.setPort p x).launchOrder = s.launchOrder := rfl
@[simp] theorem State.setPort_age (s : State) (p : Nat) (x : Port) : (s.setPort p x).age = s.age := rfl
@[simp] theorem State.setPort_graphs (s : State) (p : Nat) (x : Port) : (s.setPort p x).graphs = s.graphs := rfl
@[simp] theorem State.setPort_phases (s : State) (p : Nat) (x : Port) : (s.setPort p x).phases = s.phases := rfl
@[simp] theorem State.setPort_jobs (s : State) (p : Nat) (x : Port) : (s.setPort p x).jobs = s.jobs := rfl
@[simp] theorem State.setPort_nodes (s : State) (p : Nat) (x : Port) : (s.setPort p x).nodes = s.nodes := rfl
@[simp] theorem State.setPort_saved (s : State) (p : Nat) (x : Port) : (s.setPort p x).saved = s.saved := rfl
@[simp] theorem State.setPort_saving (s : State) (p : Nat) (x : Port) : (s.setPort p x).saving = s.saving := rfl
@[simp] theorem State.setPort_lastOut (s : State) (p : Nat) (x : Port) : (s.setPort p x).lastOut = s.lastOut := rfl
@[simp] theorem State.setPort_heldClusters (s : State) (p : Nat) (x : Port) : (s.setPort p x).heldClusters = s.heldClusters := rfl
@[simp] theorem State.setPort_cpRotor (s : State) (p : Nat) (x : Port) : (s.setPort p x).cpRotor = s.cpRotor := rfl
@[simp] theorem State.setPort_gov (s : State) (p : Nat) (x : Port) : (s.setPort p x).gov = s.gov := rfl
@[simp] theorem State.setPort_tok (s : State) (p : Nat) (x : Port) : (s.setPort p x).tok = s.tok := rfl
@[simp] theorem State.setPort_mil (s : State) (p : Nat) (x : Port) : (s.setPort p x).mil = s.mil := rfl
@[simp] theorem State.setPort_pkg (s : State) (p : Nat) (x : Port) : (s.setPort p x).pkg = s.pkg := rfl
@[simp] theorem State.setPort_supplyOut (s : State) (p : Nat) (x : Port) : (s.setPort p x).supplyOut = s.supplyOut := rfl
@[simp] theorem State.setPort_keyWait (s : State) (p : Nat) (x : Port) : (s.setPort p x).keyWait = s.keyWait := rfl
@[simp] theorem State.setPort_collNotices (s : State) (p : Nat) (x : Port) : (s.setPort p x).collNotices = s.collNotices := rfl
@[simp] theorem State.setPort_early (s : State) (p : Nat) (x : Port) : (s.setPort p x).early = s.early := rfl
@[simp] theorem State.setPort_combine (s : State) (p : Nat) (x : Port) : (s.setPort p x).combine = s.combine := rfl
@[simp] theorem State.setPort_lost (s : State) (p : Nat) (x : Port) : (s.setPort p x).lost = s.lost := rfl
@[simp] theorem State.setPort_farOut (s : State) (p : Nat) (x : Port) : (s.setPort p x).farOut = s.farOut := rfl
@[simp] theorem State.setPort_scoFatal (s : State) (p : Nat) (x : Port) : (s.setPort p x).scoFatal = s.scoFatal := rfl
@[simp] theorem State.setPort_nodeSignals (s : State) (p : Nat) (x : Port) : (s.setPort p x).nodeSignals = s.nodeSignals := rfl
@[simp] theorem State.setPort_parked (s : State) (p : Nat) (x : Port) : (s.setPort p x).parked = s.parked := rfl
@[simp] theorem State.setPort_running (s : State) (p : Nat) (x : Port) : (s.setPort p x).running = s.running := rfl

/-! ### State.setCtx -/

@[simp] theorem State.setCtx_clk (s : State) (c : Nat) (x : Ctx) : (s.setCtx c x).clk = s.clk := rfl
@[simp] theorem State.setCtx_tick (s : State) (c : Nat) (x : Ctx) : (s.setCtx c x).tick = s.tick := rfl
@[simp] theorem State.setCtx_agenda (s : State) (c : Nat) (x : Ctx) : (s.setCtx c x).agenda = s.agenda := rfl
@[simp] theorem State.setCtx_inbox (s : State) (c : Nat) (x : Ctx) : (s.setCtx c x).inbox = s.inbox := rfl
@[simp] theorem State.setCtx_freeCtr (s : State) (c : Nat) (x : Ctx) : (s.setCtx c x).freeCtr = s.freeCtr := rfl
@[simp] theorem State.setCtx_issue (s : State) (c : Nat) (x : Ctx) : (s.setCtx c x).issue = s.issue := rfl
@[simp] theorem State.setCtx_issuedParts (s : State) (c : Nat) (x : Ctx) : (s.setCtx c x).issuedParts = s.issuedParts := rfl
@[simp] theorem State.setCtx_mem (s : State) (c : Nat) (x : Ctx) : (s.setCtx c x).mem = s.mem := rfl
@[simp] theorem State.setCtx_tags (s : State) (c : Nat) (x : Ctx) : (s.setCtx c x).tags = s.tags := rfl
@[simp] theorem State.setCtx_poison (s : State) (c : Nat) (x : Ctx) : (s.setCtx c x).poison = s.poison := rfl
@[simp] theorem State.setCtx_lostStacks (s : State) (c : Nat) (x : Ctx) : (s.setCtx c x).lostStacks = s.lostStacks := rfl
@[simp] theorem State.setCtx_lostSlices (s : State) (c : Nat) (x : Ctx) : (s.setCtx c x).lostSlices = s.lostSlices := rfl
@[simp] theorem State.setCtx_sound (s : State) (c : Nat) (x : Ctx) : (s.setCtx c x).sound = s.sound := rfl
@[simp] theorem State.setCtx_dirty (s : State) (c : Nat) (x : Ctx) : (s.setCtx c x).dirty = s.dirty := rfl
@[simp] theorem State.setCtx_dir (s : State) (c : Nat) (x : Ctx) : (s.setCtx c x).dir = s.dir := rfl
@[simp] theorem State.setCtx_peerCopies (s : State) (c : Nat) (x : Ctx) : (s.setCtx c x).peerCopies = s.peerCopies := rfl
@[simp] theorem State.setCtx_invalWait (s : State) (c : Nat) (x : Ctx) : (s.setCtx c x).invalWait = s.invalWait := rfl
@[simp] theorem State.setCtx_misses (s : State) (c : Nat) (x : Ctx) : (s.setCtx c x).misses = s.misses := rfl
@[simp] theorem State.setCtx_ackWait (s : State) (c : Nat) (x : Ctx) : (s.setCtx c x).ackWait = s.ackWait := rfl
@[simp] theorem State.setCtx_posted (s : State) (c : Nat) (x : Ctx) : (s.setCtx c x).posted = s.posted := rfl
@[simp] theorem State.setCtx_postedNext (s : State) (c : Nat) (x : Ctx) : (s.setCtx c x).postedNext = s.postedNext := rfl
@[simp] theorem State.setCtx_out (s : State) (c : Nat) (x : Ctx) : (s.setCtx c x).out = s.out := rfl
@[simp] theorem State.setCtx_outDone (s : State) (c : Nat) (x : Ctx) : (s.setCtx c x).outDone = s.outDone := rfl
@[simp] theorem State.setCtx_seals (s : State) (c : Nat) (x : Ctx) : (s.setCtx c x).seals = s.seals := rfl
@[simp] theorem State.setCtx_egress (s : State) (c : Nat) (x : Ctx) : (s.setCtx c x).egress = s.egress := rfl
@[simp] theorem State.setCtx_seqOut (s : State) (c : Nat) (x : Ctx) : (s.setCtx c x).seqOut = s.seqOut := rfl
@[simp] theorem State.setCtx_seqIn (s : State) (c : Nat) (x : Ctx) : (s.setCtx c x).seqIn = s.seqIn := rfl
@[simp] theorem State.setCtx_reorder (s : State) (c : Nat) (x : Ctx) : (s.setCtx c x).reorder = s.reorder := rfl
@[simp] theorem State.setCtx_reorderChains (s : State) (c : Nat) (x : Ctx) : (s.setCtx c x).reorderChains = s.reorderChains := rfl
@[simp] theorem State.setCtx_blocks (s : State) (c : Nat) (x : Ctx) : (s.setCtx c x).blocks = s.blocks := rfl
@[simp] theorem State.setCtx_pendHigh (s : State) (c : Nat) (x : Ctx) : (s.setCtx c x).pendHigh = s.pendHigh := rfl
@[simp] theorem State.setCtx_fetchAsks (s : State) (c : Nat) (x : Ctx) : (s.setCtx c x).fetchAsks = s.fetchAsks := rfl
@[simp] theorem State.setCtx_fetchBad (s : State) (c : Nat) (x : Ctx) : (s.setCtx c x).fetchBad = s.fetchBad := rfl
@[simp] theorem State.setCtx_mseq (s : State) (c : Nat) (x : Ctx) : (s.setCtx c x).mseq = s.mseq := rfl
@[simp] theorem State.setCtx_cores (s : State) (c : Nat) (x : Ctx) : (s.setCtx c x).cores = s.cores := rfl
@[simp] theorem State.setCtx_dies (s : State) (c : Nat) (x : Ctx) : (s.setCtx c x).dies = s.dies := rfl
@[simp] theorem State.setCtx_stacks (s : State) (c : Nat) (x : Ctx) : (s.setCtx c x).hbms = s.hbms := rfl
@[simp] theorem State.setCtx_ports (s : State) (c : Nat) (x : Ctx) : (s.setCtx c x).ports = s.ports := rfl
@[simp] theorem State.setCtx_ioMerge (s : State) (c : Nat) (x : Ctx) : (s.setCtx c x).ioMerge = s.ioMerge := rfl
@[simp] theorem State.setCtx_faultWait (s : State) (c : Nat) (x : Ctx) : (s.setCtx c x).faultWait = s.faultWait := rfl
@[simp] theorem State.setCtx_ctxs (s : State) (c : Nat) (x : Ctx) : (s.setCtx c x).ctxs = tset Ctx.reset s.ctxs c x := rfl
@[simp] theorem State.setCtx_hwqs (s : State) (c : Nat) (x : Ctx) : (s.setCtx c x).hwqs = s.hwqs := rfl
@[simp] theorem State.setCtx_journal (s : State) (c : Nat) (x : Ctx) : (s.setCtx c x).journal = s.journal := rfl
@[simp] theorem State.setCtx_launches (s : State) (c : Nat) (x : Ctx) : (s.setCtx c x).launches = s.launches := rfl
@[simp] theorem State.setCtx_launchOrder (s : State) (c : Nat) (x : Ctx) : (s.setCtx c x).launchOrder = s.launchOrder := rfl
@[simp] theorem State.setCtx_age (s : State) (c : Nat) (x : Ctx) : (s.setCtx c x).age = s.age := rfl
@[simp] theorem State.setCtx_graphs (s : State) (c : Nat) (x : Ctx) : (s.setCtx c x).graphs = s.graphs := rfl
@[simp] theorem State.setCtx_phases (s : State) (c : Nat) (x : Ctx) : (s.setCtx c x).phases = s.phases := rfl
@[simp] theorem State.setCtx_jobs (s : State) (c : Nat) (x : Ctx) : (s.setCtx c x).jobs = s.jobs := rfl
@[simp] theorem State.setCtx_nodes (s : State) (c : Nat) (x : Ctx) : (s.setCtx c x).nodes = s.nodes := rfl
@[simp] theorem State.setCtx_saved (s : State) (c : Nat) (x : Ctx) : (s.setCtx c x).saved = s.saved := rfl
@[simp] theorem State.setCtx_saving (s : State) (c : Nat) (x : Ctx) : (s.setCtx c x).saving = s.saving := rfl
@[simp] theorem State.setCtx_lastOut (s : State) (c : Nat) (x : Ctx) : (s.setCtx c x).lastOut = s.lastOut := rfl
@[simp] theorem State.setCtx_heldClusters (s : State) (c : Nat) (x : Ctx) : (s.setCtx c x).heldClusters = s.heldClusters := rfl
@[simp] theorem State.setCtx_cpRotor (s : State) (c : Nat) (x : Ctx) : (s.setCtx c x).cpRotor = s.cpRotor := rfl
@[simp] theorem State.setCtx_gov (s : State) (c : Nat) (x : Ctx) : (s.setCtx c x).gov = s.gov := rfl
@[simp] theorem State.setCtx_tok (s : State) (c : Nat) (x : Ctx) : (s.setCtx c x).tok = s.tok := rfl
@[simp] theorem State.setCtx_mil (s : State) (c : Nat) (x : Ctx) : (s.setCtx c x).mil = s.mil := rfl
@[simp] theorem State.setCtx_pkg (s : State) (c : Nat) (x : Ctx) : (s.setCtx c x).pkg = s.pkg := rfl
@[simp] theorem State.setCtx_supplyOut (s : State) (c : Nat) (x : Ctx) : (s.setCtx c x).supplyOut = s.supplyOut := rfl
@[simp] theorem State.setCtx_keyWait (s : State) (c : Nat) (x : Ctx) : (s.setCtx c x).keyWait = s.keyWait := rfl
@[simp] theorem State.setCtx_collNotices (s : State) (c : Nat) (x : Ctx) : (s.setCtx c x).collNotices = s.collNotices := rfl
@[simp] theorem State.setCtx_early (s : State) (c : Nat) (x : Ctx) : (s.setCtx c x).early = s.early := rfl
@[simp] theorem State.setCtx_combine (s : State) (c : Nat) (x : Ctx) : (s.setCtx c x).combine = s.combine := rfl
@[simp] theorem State.setCtx_lost (s : State) (c : Nat) (x : Ctx) : (s.setCtx c x).lost = s.lost := rfl
@[simp] theorem State.setCtx_farOut (s : State) (c : Nat) (x : Ctx) : (s.setCtx c x).farOut = s.farOut := rfl
@[simp] theorem State.setCtx_scoFatal (s : State) (c : Nat) (x : Ctx) : (s.setCtx c x).scoFatal = s.scoFatal := rfl
@[simp] theorem State.setCtx_nodeSignals (s : State) (c : Nat) (x : Ctx) : (s.setCtx c x).nodeSignals = s.nodeSignals := rfl
@[simp] theorem State.setCtx_parked (s : State) (c : Nat) (x : Ctx) : (s.setCtx c x).parked = s.parked := rfl
@[simp] theorem State.setCtx_running (s : State) (c : Nat) (x : Ctx) : (s.setCtx c x).running = s.running := rfl

/-! ### State.setHwq -/

@[simp] theorem State.setHwq_clk (s : State) (q : Nat) (x : Hwq) : (s.setHwq q x).clk = s.clk := rfl
@[simp] theorem State.setHwq_tick (s : State) (q : Nat) (x : Hwq) : (s.setHwq q x).tick = s.tick := rfl
@[simp] theorem State.setHwq_agenda (s : State) (q : Nat) (x : Hwq) : (s.setHwq q x).agenda = s.agenda := rfl
@[simp] theorem State.setHwq_inbox (s : State) (q : Nat) (x : Hwq) : (s.setHwq q x).inbox = s.inbox := rfl
@[simp] theorem State.setHwq_freeCtr (s : State) (q : Nat) (x : Hwq) : (s.setHwq q x).freeCtr = s.freeCtr := rfl
@[simp] theorem State.setHwq_issue (s : State) (q : Nat) (x : Hwq) : (s.setHwq q x).issue = s.issue := rfl
@[simp] theorem State.setHwq_issuedParts (s : State) (q : Nat) (x : Hwq) : (s.setHwq q x).issuedParts = s.issuedParts := rfl
@[simp] theorem State.setHwq_mem (s : State) (q : Nat) (x : Hwq) : (s.setHwq q x).mem = s.mem := rfl
@[simp] theorem State.setHwq_tags (s : State) (q : Nat) (x : Hwq) : (s.setHwq q x).tags = s.tags := rfl
@[simp] theorem State.setHwq_poison (s : State) (q : Nat) (x : Hwq) : (s.setHwq q x).poison = s.poison := rfl
@[simp] theorem State.setHwq_lostStacks (s : State) (q : Nat) (x : Hwq) : (s.setHwq q x).lostStacks = s.lostStacks := rfl
@[simp] theorem State.setHwq_lostSlices (s : State) (q : Nat) (x : Hwq) : (s.setHwq q x).lostSlices = s.lostSlices := rfl
@[simp] theorem State.setHwq_sound (s : State) (q : Nat) (x : Hwq) : (s.setHwq q x).sound = s.sound := rfl
@[simp] theorem State.setHwq_dirty (s : State) (q : Nat) (x : Hwq) : (s.setHwq q x).dirty = s.dirty := rfl
@[simp] theorem State.setHwq_dir (s : State) (q : Nat) (x : Hwq) : (s.setHwq q x).dir = s.dir := rfl
@[simp] theorem State.setHwq_peerCopies (s : State) (q : Nat) (x : Hwq) : (s.setHwq q x).peerCopies = s.peerCopies := rfl
@[simp] theorem State.setHwq_invalWait (s : State) (q : Nat) (x : Hwq) : (s.setHwq q x).invalWait = s.invalWait := rfl
@[simp] theorem State.setHwq_misses (s : State) (q : Nat) (x : Hwq) : (s.setHwq q x).misses = s.misses := rfl
@[simp] theorem State.setHwq_ackWait (s : State) (q : Nat) (x : Hwq) : (s.setHwq q x).ackWait = s.ackWait := rfl
@[simp] theorem State.setHwq_posted (s : State) (q : Nat) (x : Hwq) : (s.setHwq q x).posted = s.posted := rfl
@[simp] theorem State.setHwq_postedNext (s : State) (q : Nat) (x : Hwq) : (s.setHwq q x).postedNext = s.postedNext := rfl
@[simp] theorem State.setHwq_out (s : State) (q : Nat) (x : Hwq) : (s.setHwq q x).out = s.out := rfl
@[simp] theorem State.setHwq_outDone (s : State) (q : Nat) (x : Hwq) : (s.setHwq q x).outDone = s.outDone := rfl
@[simp] theorem State.setHwq_seals (s : State) (q : Nat) (x : Hwq) : (s.setHwq q x).seals = s.seals := rfl
@[simp] theorem State.setHwq_egress (s : State) (q : Nat) (x : Hwq) : (s.setHwq q x).egress = s.egress := rfl
@[simp] theorem State.setHwq_seqOut (s : State) (q : Nat) (x : Hwq) : (s.setHwq q x).seqOut = s.seqOut := rfl
@[simp] theorem State.setHwq_seqIn (s : State) (q : Nat) (x : Hwq) : (s.setHwq q x).seqIn = s.seqIn := rfl
@[simp] theorem State.setHwq_reorder (s : State) (q : Nat) (x : Hwq) : (s.setHwq q x).reorder = s.reorder := rfl
@[simp] theorem State.setHwq_reorderChains (s : State) (q : Nat) (x : Hwq) : (s.setHwq q x).reorderChains = s.reorderChains := rfl
@[simp] theorem State.setHwq_blocks (s : State) (q : Nat) (x : Hwq) : (s.setHwq q x).blocks = s.blocks := rfl
@[simp] theorem State.setHwq_pendHigh (s : State) (q : Nat) (x : Hwq) : (s.setHwq q x).pendHigh = s.pendHigh := rfl
@[simp] theorem State.setHwq_fetchAsks (s : State) (q : Nat) (x : Hwq) : (s.setHwq q x).fetchAsks = s.fetchAsks := rfl
@[simp] theorem State.setHwq_fetchBad (s : State) (q : Nat) (x : Hwq) : (s.setHwq q x).fetchBad = s.fetchBad := rfl
@[simp] theorem State.setHwq_mseq (s : State) (q : Nat) (x : Hwq) : (s.setHwq q x).mseq = s.mseq := rfl
@[simp] theorem State.setHwq_cores (s : State) (q : Nat) (x : Hwq) : (s.setHwq q x).cores = s.cores := rfl
@[simp] theorem State.setHwq_dies (s : State) (q : Nat) (x : Hwq) : (s.setHwq q x).dies = s.dies := rfl
@[simp] theorem State.setHwq_stacks (s : State) (q : Nat) (x : Hwq) : (s.setHwq q x).hbms = s.hbms := rfl
@[simp] theorem State.setHwq_ports (s : State) (q : Nat) (x : Hwq) : (s.setHwq q x).ports = s.ports := rfl
@[simp] theorem State.setHwq_ioMerge (s : State) (q : Nat) (x : Hwq) : (s.setHwq q x).ioMerge = s.ioMerge := rfl
@[simp] theorem State.setHwq_faultWait (s : State) (q : Nat) (x : Hwq) : (s.setHwq q x).faultWait = s.faultWait := rfl
@[simp] theorem State.setHwq_ctxs (s : State) (q : Nat) (x : Hwq) : (s.setHwq q x).ctxs = s.ctxs := rfl
@[simp] theorem State.setHwq_hwqs (s : State) (q : Nat) (x : Hwq) : (s.setHwq q x).hwqs = tset Hwq.reset s.hwqs q x := rfl
@[simp] theorem State.setHwq_journal (s : State) (q : Nat) (x : Hwq) : (s.setHwq q x).journal = s.journal := rfl
@[simp] theorem State.setHwq_launches (s : State) (q : Nat) (x : Hwq) : (s.setHwq q x).launches = s.launches := rfl
@[simp] theorem State.setHwq_launchOrder (s : State) (q : Nat) (x : Hwq) : (s.setHwq q x).launchOrder = s.launchOrder := rfl
@[simp] theorem State.setHwq_age (s : State) (q : Nat) (x : Hwq) : (s.setHwq q x).age = s.age := rfl
@[simp] theorem State.setHwq_graphs (s : State) (q : Nat) (x : Hwq) : (s.setHwq q x).graphs = s.graphs := rfl
@[simp] theorem State.setHwq_phases (s : State) (q : Nat) (x : Hwq) : (s.setHwq q x).phases = s.phases := rfl
@[simp] theorem State.setHwq_jobs (s : State) (q : Nat) (x : Hwq) : (s.setHwq q x).jobs = s.jobs := rfl
@[simp] theorem State.setHwq_nodes (s : State) (q : Nat) (x : Hwq) : (s.setHwq q x).nodes = s.nodes := rfl
@[simp] theorem State.setHwq_saved (s : State) (q : Nat) (x : Hwq) : (s.setHwq q x).saved = s.saved := rfl
@[simp] theorem State.setHwq_saving (s : State) (q : Nat) (x : Hwq) : (s.setHwq q x).saving = s.saving := rfl
@[simp] theorem State.setHwq_lastOut (s : State) (q : Nat) (x : Hwq) : (s.setHwq q x).lastOut = s.lastOut := rfl
@[simp] theorem State.setHwq_heldClusters (s : State) (q : Nat) (x : Hwq) : (s.setHwq q x).heldClusters = s.heldClusters := rfl
@[simp] theorem State.setHwq_cpRotor (s : State) (q : Nat) (x : Hwq) : (s.setHwq q x).cpRotor = s.cpRotor := rfl
@[simp] theorem State.setHwq_gov (s : State) (q : Nat) (x : Hwq) : (s.setHwq q x).gov = s.gov := rfl
@[simp] theorem State.setHwq_tok (s : State) (q : Nat) (x : Hwq) : (s.setHwq q x).tok = s.tok := rfl
@[simp] theorem State.setHwq_mil (s : State) (q : Nat) (x : Hwq) : (s.setHwq q x).mil = s.mil := rfl
@[simp] theorem State.setHwq_pkg (s : State) (q : Nat) (x : Hwq) : (s.setHwq q x).pkg = s.pkg := rfl
@[simp] theorem State.setHwq_supplyOut (s : State) (q : Nat) (x : Hwq) : (s.setHwq q x).supplyOut = s.supplyOut := rfl
@[simp] theorem State.setHwq_keyWait (s : State) (q : Nat) (x : Hwq) : (s.setHwq q x).keyWait = s.keyWait := rfl
@[simp] theorem State.setHwq_collNotices (s : State) (q : Nat) (x : Hwq) : (s.setHwq q x).collNotices = s.collNotices := rfl
@[simp] theorem State.setHwq_early (s : State) (q : Nat) (x : Hwq) : (s.setHwq q x).early = s.early := rfl
@[simp] theorem State.setHwq_combine (s : State) (q : Nat) (x : Hwq) : (s.setHwq q x).combine = s.combine := rfl
@[simp] theorem State.setHwq_lost (s : State) (q : Nat) (x : Hwq) : (s.setHwq q x).lost = s.lost := rfl
@[simp] theorem State.setHwq_farOut (s : State) (q : Nat) (x : Hwq) : (s.setHwq q x).farOut = s.farOut := rfl
@[simp] theorem State.setHwq_scoFatal (s : State) (q : Nat) (x : Hwq) : (s.setHwq q x).scoFatal = s.scoFatal := rfl
@[simp] theorem State.setHwq_nodeSignals (s : State) (q : Nat) (x : Hwq) : (s.setHwq q x).nodeSignals = s.nodeSignals := rfl
@[simp] theorem State.setHwq_parked (s : State) (q : Nat) (x : Hwq) : (s.setHwq q x).parked = s.parked := rfl
@[simp] theorem State.setHwq_running (s : State) (q : Nat) (x : Hwq) : (s.setHwq q x).running = s.running := rfl

/-! ### State.setLaunch -/

@[simp] theorem State.setLaunch_clk (s : State) (l : Nat) (x : LaunchSlot) : (s.setLaunch l x).clk = s.clk := rfl
@[simp] theorem State.setLaunch_tick (s : State) (l : Nat) (x : LaunchSlot) : (s.setLaunch l x).tick = s.tick := rfl
@[simp] theorem State.setLaunch_agenda (s : State) (l : Nat) (x : LaunchSlot) : (s.setLaunch l x).agenda = s.agenda := rfl
@[simp] theorem State.setLaunch_inbox (s : State) (l : Nat) (x : LaunchSlot) : (s.setLaunch l x).inbox = s.inbox := rfl
@[simp] theorem State.setLaunch_freeCtr (s : State) (l : Nat) (x : LaunchSlot) : (s.setLaunch l x).freeCtr = s.freeCtr := rfl
@[simp] theorem State.setLaunch_issue (s : State) (l : Nat) (x : LaunchSlot) : (s.setLaunch l x).issue = s.issue := rfl
@[simp] theorem State.setLaunch_issuedParts (s : State) (l : Nat) (x : LaunchSlot) : (s.setLaunch l x).issuedParts = s.issuedParts := rfl
@[simp] theorem State.setLaunch_mem (s : State) (l : Nat) (x : LaunchSlot) : (s.setLaunch l x).mem = s.mem := rfl
@[simp] theorem State.setLaunch_tags (s : State) (l : Nat) (x : LaunchSlot) : (s.setLaunch l x).tags = s.tags := rfl
@[simp] theorem State.setLaunch_poison (s : State) (l : Nat) (x : LaunchSlot) : (s.setLaunch l x).poison = s.poison := rfl
@[simp] theorem State.setLaunch_lostStacks (s : State) (l : Nat) (x : LaunchSlot) : (s.setLaunch l x).lostStacks = s.lostStacks := rfl
@[simp] theorem State.setLaunch_lostSlices (s : State) (l : Nat) (x : LaunchSlot) : (s.setLaunch l x).lostSlices = s.lostSlices := rfl
@[simp] theorem State.setLaunch_sound (s : State) (l : Nat) (x : LaunchSlot) : (s.setLaunch l x).sound = s.sound := rfl
@[simp] theorem State.setLaunch_dirty (s : State) (l : Nat) (x : LaunchSlot) : (s.setLaunch l x).dirty = s.dirty := rfl
@[simp] theorem State.setLaunch_dir (s : State) (l : Nat) (x : LaunchSlot) : (s.setLaunch l x).dir = s.dir := rfl
@[simp] theorem State.setLaunch_peerCopies (s : State) (l : Nat) (x : LaunchSlot) : (s.setLaunch l x).peerCopies = s.peerCopies := rfl
@[simp] theorem State.setLaunch_invalWait (s : State) (l : Nat) (x : LaunchSlot) : (s.setLaunch l x).invalWait = s.invalWait := rfl
@[simp] theorem State.setLaunch_misses (s : State) (l : Nat) (x : LaunchSlot) : (s.setLaunch l x).misses = s.misses := rfl
@[simp] theorem State.setLaunch_ackWait (s : State) (l : Nat) (x : LaunchSlot) : (s.setLaunch l x).ackWait = s.ackWait := rfl
@[simp] theorem State.setLaunch_posted (s : State) (l : Nat) (x : LaunchSlot) : (s.setLaunch l x).posted = s.posted := rfl
@[simp] theorem State.setLaunch_postedNext (s : State) (l : Nat) (x : LaunchSlot) : (s.setLaunch l x).postedNext = s.postedNext := rfl
@[simp] theorem State.setLaunch_out (s : State) (l : Nat) (x : LaunchSlot) : (s.setLaunch l x).out = s.out := rfl
@[simp] theorem State.setLaunch_outDone (s : State) (l : Nat) (x : LaunchSlot) : (s.setLaunch l x).outDone = s.outDone := rfl
@[simp] theorem State.setLaunch_seals (s : State) (l : Nat) (x : LaunchSlot) : (s.setLaunch l x).seals = s.seals := rfl
@[simp] theorem State.setLaunch_egress (s : State) (l : Nat) (x : LaunchSlot) : (s.setLaunch l x).egress = s.egress := rfl
@[simp] theorem State.setLaunch_seqOut (s : State) (l : Nat) (x : LaunchSlot) : (s.setLaunch l x).seqOut = s.seqOut := rfl
@[simp] theorem State.setLaunch_seqIn (s : State) (l : Nat) (x : LaunchSlot) : (s.setLaunch l x).seqIn = s.seqIn := rfl
@[simp] theorem State.setLaunch_reorder (s : State) (l : Nat) (x : LaunchSlot) : (s.setLaunch l x).reorder = s.reorder := rfl
@[simp] theorem State.setLaunch_reorderChains (s : State) (l : Nat) (x : LaunchSlot) : (s.setLaunch l x).reorderChains = s.reorderChains := rfl
@[simp] theorem State.setLaunch_blocks (s : State) (l : Nat) (x : LaunchSlot) : (s.setLaunch l x).blocks = s.blocks := rfl
@[simp] theorem State.setLaunch_pendHigh (s : State) (l : Nat) (x : LaunchSlot) : (s.setLaunch l x).pendHigh = s.pendHigh := rfl
@[simp] theorem State.setLaunch_fetchAsks (s : State) (l : Nat) (x : LaunchSlot) : (s.setLaunch l x).fetchAsks = s.fetchAsks := rfl
@[simp] theorem State.setLaunch_fetchBad (s : State) (l : Nat) (x : LaunchSlot) : (s.setLaunch l x).fetchBad = s.fetchBad := rfl
@[simp] theorem State.setLaunch_mseq (s : State) (l : Nat) (x : LaunchSlot) : (s.setLaunch l x).mseq = s.mseq := rfl
@[simp] theorem State.setLaunch_cores (s : State) (l : Nat) (x : LaunchSlot) : (s.setLaunch l x).cores = s.cores := rfl
@[simp] theorem State.setLaunch_dies (s : State) (l : Nat) (x : LaunchSlot) : (s.setLaunch l x).dies = s.dies := rfl
@[simp] theorem State.setLaunch_stacks (s : State) (l : Nat) (x : LaunchSlot) : (s.setLaunch l x).hbms = s.hbms := rfl
@[simp] theorem State.setLaunch_ports (s : State) (l : Nat) (x : LaunchSlot) : (s.setLaunch l x).ports = s.ports := rfl
@[simp] theorem State.setLaunch_ioMerge (s : State) (l : Nat) (x : LaunchSlot) : (s.setLaunch l x).ioMerge = s.ioMerge := rfl
@[simp] theorem State.setLaunch_faultWait (s : State) (l : Nat) (x : LaunchSlot) : (s.setLaunch l x).faultWait = s.faultWait := rfl
@[simp] theorem State.setLaunch_ctxs (s : State) (l : Nat) (x : LaunchSlot) : (s.setLaunch l x).ctxs = s.ctxs := rfl
@[simp] theorem State.setLaunch_hwqs (s : State) (l : Nat) (x : LaunchSlot) : (s.setLaunch l x).hwqs = s.hwqs := rfl
@[simp] theorem State.setLaunch_journal (s : State) (l : Nat) (x : LaunchSlot) : (s.setLaunch l x).journal = s.journal := rfl
@[simp] theorem State.setLaunch_launches (s : State) (l : Nat) (x : LaunchSlot) : (s.setLaunch l x).launches = tset LaunchSlot.reset s.launches l x := rfl
@[simp] theorem State.setLaunch_launchOrder (s : State) (l : Nat) (x : LaunchSlot) : (s.setLaunch l x).launchOrder = s.launchOrder := rfl
@[simp] theorem State.setLaunch_age (s : State) (l : Nat) (x : LaunchSlot) : (s.setLaunch l x).age = s.age := rfl
@[simp] theorem State.setLaunch_graphs (s : State) (l : Nat) (x : LaunchSlot) : (s.setLaunch l x).graphs = s.graphs := rfl
@[simp] theorem State.setLaunch_phases (s : State) (l : Nat) (x : LaunchSlot) : (s.setLaunch l x).phases = s.phases := rfl
@[simp] theorem State.setLaunch_jobs (s : State) (l : Nat) (x : LaunchSlot) : (s.setLaunch l x).jobs = s.jobs := rfl
@[simp] theorem State.setLaunch_nodes (s : State) (l : Nat) (x : LaunchSlot) : (s.setLaunch l x).nodes = s.nodes := rfl
@[simp] theorem State.setLaunch_saved (s : State) (l : Nat) (x : LaunchSlot) : (s.setLaunch l x).saved = s.saved := rfl
@[simp] theorem State.setLaunch_saving (s : State) (l : Nat) (x : LaunchSlot) : (s.setLaunch l x).saving = s.saving := rfl
@[simp] theorem State.setLaunch_lastOut (s : State) (l : Nat) (x : LaunchSlot) : (s.setLaunch l x).lastOut = s.lastOut := rfl
@[simp] theorem State.setLaunch_heldClusters (s : State) (l : Nat) (x : LaunchSlot) : (s.setLaunch l x).heldClusters = s.heldClusters := rfl
@[simp] theorem State.setLaunch_cpRotor (s : State) (l : Nat) (x : LaunchSlot) : (s.setLaunch l x).cpRotor = s.cpRotor := rfl
@[simp] theorem State.setLaunch_gov (s : State) (l : Nat) (x : LaunchSlot) : (s.setLaunch l x).gov = s.gov := rfl
@[simp] theorem State.setLaunch_tok (s : State) (l : Nat) (x : LaunchSlot) : (s.setLaunch l x).tok = s.tok := rfl
@[simp] theorem State.setLaunch_mil (s : State) (l : Nat) (x : LaunchSlot) : (s.setLaunch l x).mil = s.mil := rfl
@[simp] theorem State.setLaunch_pkg (s : State) (l : Nat) (x : LaunchSlot) : (s.setLaunch l x).pkg = s.pkg := rfl
@[simp] theorem State.setLaunch_supplyOut (s : State) (l : Nat) (x : LaunchSlot) : (s.setLaunch l x).supplyOut = s.supplyOut := rfl
@[simp] theorem State.setLaunch_keyWait (s : State) (l : Nat) (x : LaunchSlot) : (s.setLaunch l x).keyWait = s.keyWait := rfl
@[simp] theorem State.setLaunch_collNotices (s : State) (l : Nat) (x : LaunchSlot) : (s.setLaunch l x).collNotices = s.collNotices := rfl
@[simp] theorem State.setLaunch_early (s : State) (l : Nat) (x : LaunchSlot) : (s.setLaunch l x).early = s.early := rfl
@[simp] theorem State.setLaunch_combine (s : State) (l : Nat) (x : LaunchSlot) : (s.setLaunch l x).combine = s.combine := rfl
@[simp] theorem State.setLaunch_lost (s : State) (l : Nat) (x : LaunchSlot) : (s.setLaunch l x).lost = s.lost := rfl
@[simp] theorem State.setLaunch_farOut (s : State) (l : Nat) (x : LaunchSlot) : (s.setLaunch l x).farOut = s.farOut := rfl
@[simp] theorem State.setLaunch_scoFatal (s : State) (l : Nat) (x : LaunchSlot) : (s.setLaunch l x).scoFatal = s.scoFatal := rfl
@[simp] theorem State.setLaunch_nodeSignals (s : State) (l : Nat) (x : LaunchSlot) : (s.setLaunch l x).nodeSignals = s.nodeSignals := rfl
@[simp] theorem State.setLaunch_parked (s : State) (l : Nat) (x : LaunchSlot) : (s.setLaunch l x).parked = s.parked := rfl
@[simp] theorem State.setLaunch_running (s : State) (l : Nat) (x : LaunchSlot) : (s.setLaunch l x).running = s.running := rfl

/-! ### State.setGraph -/

@[simp] theorem State.setGraph_clk (s : State) (g : Nat) (x : LevelSlot) : (s.setGraph g x).clk = s.clk := rfl
@[simp] theorem State.setGraph_tick (s : State) (g : Nat) (x : LevelSlot) : (s.setGraph g x).tick = s.tick := rfl
@[simp] theorem State.setGraph_agenda (s : State) (g : Nat) (x : LevelSlot) : (s.setGraph g x).agenda = s.agenda := rfl
@[simp] theorem State.setGraph_inbox (s : State) (g : Nat) (x : LevelSlot) : (s.setGraph g x).inbox = s.inbox := rfl
@[simp] theorem State.setGraph_freeCtr (s : State) (g : Nat) (x : LevelSlot) : (s.setGraph g x).freeCtr = s.freeCtr := rfl
@[simp] theorem State.setGraph_issue (s : State) (g : Nat) (x : LevelSlot) : (s.setGraph g x).issue = s.issue := rfl
@[simp] theorem State.setGraph_issuedParts (s : State) (g : Nat) (x : LevelSlot) : (s.setGraph g x).issuedParts = s.issuedParts := rfl
@[simp] theorem State.setGraph_mem (s : State) (g : Nat) (x : LevelSlot) : (s.setGraph g x).mem = s.mem := rfl
@[simp] theorem State.setGraph_tags (s : State) (g : Nat) (x : LevelSlot) : (s.setGraph g x).tags = s.tags := rfl
@[simp] theorem State.setGraph_poison (s : State) (g : Nat) (x : LevelSlot) : (s.setGraph g x).poison = s.poison := rfl
@[simp] theorem State.setGraph_lostStacks (s : State) (g : Nat) (x : LevelSlot) : (s.setGraph g x).lostStacks = s.lostStacks := rfl
@[simp] theorem State.setGraph_lostSlices (s : State) (g : Nat) (x : LevelSlot) : (s.setGraph g x).lostSlices = s.lostSlices := rfl
@[simp] theorem State.setGraph_sound (s : State) (g : Nat) (x : LevelSlot) : (s.setGraph g x).sound = s.sound := rfl
@[simp] theorem State.setGraph_dirty (s : State) (g : Nat) (x : LevelSlot) : (s.setGraph g x).dirty = s.dirty := rfl
@[simp] theorem State.setGraph_dir (s : State) (g : Nat) (x : LevelSlot) : (s.setGraph g x).dir = s.dir := rfl
@[simp] theorem State.setGraph_peerCopies (s : State) (g : Nat) (x : LevelSlot) : (s.setGraph g x).peerCopies = s.peerCopies := rfl
@[simp] theorem State.setGraph_invalWait (s : State) (g : Nat) (x : LevelSlot) : (s.setGraph g x).invalWait = s.invalWait := rfl
@[simp] theorem State.setGraph_misses (s : State) (g : Nat) (x : LevelSlot) : (s.setGraph g x).misses = s.misses := rfl
@[simp] theorem State.setGraph_ackWait (s : State) (g : Nat) (x : LevelSlot) : (s.setGraph g x).ackWait = s.ackWait := rfl
@[simp] theorem State.setGraph_posted (s : State) (g : Nat) (x : LevelSlot) : (s.setGraph g x).posted = s.posted := rfl
@[simp] theorem State.setGraph_postedNext (s : State) (g : Nat) (x : LevelSlot) : (s.setGraph g x).postedNext = s.postedNext := rfl
@[simp] theorem State.setGraph_out (s : State) (g : Nat) (x : LevelSlot) : (s.setGraph g x).out = s.out := rfl
@[simp] theorem State.setGraph_outDone (s : State) (g : Nat) (x : LevelSlot) : (s.setGraph g x).outDone = s.outDone := rfl
@[simp] theorem State.setGraph_seals (s : State) (g : Nat) (x : LevelSlot) : (s.setGraph g x).seals = s.seals := rfl
@[simp] theorem State.setGraph_egress (s : State) (g : Nat) (x : LevelSlot) : (s.setGraph g x).egress = s.egress := rfl
@[simp] theorem State.setGraph_seqOut (s : State) (g : Nat) (x : LevelSlot) : (s.setGraph g x).seqOut = s.seqOut := rfl
@[simp] theorem State.setGraph_seqIn (s : State) (g : Nat) (x : LevelSlot) : (s.setGraph g x).seqIn = s.seqIn := rfl
@[simp] theorem State.setGraph_reorder (s : State) (g : Nat) (x : LevelSlot) : (s.setGraph g x).reorder = s.reorder := rfl
@[simp] theorem State.setGraph_reorderChains (s : State) (g : Nat) (x : LevelSlot) : (s.setGraph g x).reorderChains = s.reorderChains := rfl
@[simp] theorem State.setGraph_blocks (s : State) (g : Nat) (x : LevelSlot) : (s.setGraph g x).blocks = s.blocks := rfl
@[simp] theorem State.setGraph_pendHigh (s : State) (g : Nat) (x : LevelSlot) : (s.setGraph g x).pendHigh = s.pendHigh := rfl
@[simp] theorem State.setGraph_fetchAsks (s : State) (g : Nat) (x : LevelSlot) : (s.setGraph g x).fetchAsks = s.fetchAsks := rfl
@[simp] theorem State.setGraph_fetchBad (s : State) (g : Nat) (x : LevelSlot) : (s.setGraph g x).fetchBad = s.fetchBad := rfl
@[simp] theorem State.setGraph_mseq (s : State) (g : Nat) (x : LevelSlot) : (s.setGraph g x).mseq = s.mseq := rfl
@[simp] theorem State.setGraph_cores (s : State) (g : Nat) (x : LevelSlot) : (s.setGraph g x).cores = s.cores := rfl
@[simp] theorem State.setGraph_dies (s : State) (g : Nat) (x : LevelSlot) : (s.setGraph g x).dies = s.dies := rfl
@[simp] theorem State.setGraph_stacks (s : State) (g : Nat) (x : LevelSlot) : (s.setGraph g x).hbms = s.hbms := rfl
@[simp] theorem State.setGraph_ports (s : State) (g : Nat) (x : LevelSlot) : (s.setGraph g x).ports = s.ports := rfl
@[simp] theorem State.setGraph_ioMerge (s : State) (g : Nat) (x : LevelSlot) : (s.setGraph g x).ioMerge = s.ioMerge := rfl
@[simp] theorem State.setGraph_faultWait (s : State) (g : Nat) (x : LevelSlot) : (s.setGraph g x).faultWait = s.faultWait := rfl
@[simp] theorem State.setGraph_ctxs (s : State) (g : Nat) (x : LevelSlot) : (s.setGraph g x).ctxs = s.ctxs := rfl
@[simp] theorem State.setGraph_hwqs (s : State) (g : Nat) (x : LevelSlot) : (s.setGraph g x).hwqs = s.hwqs := rfl
@[simp] theorem State.setGraph_journal (s : State) (g : Nat) (x : LevelSlot) : (s.setGraph g x).journal = s.journal := rfl
@[simp] theorem State.setGraph_launches (s : State) (g : Nat) (x : LevelSlot) : (s.setGraph g x).launches = s.launches := rfl
@[simp] theorem State.setGraph_launchOrder (s : State) (g : Nat) (x : LevelSlot) : (s.setGraph g x).launchOrder = s.launchOrder := rfl
@[simp] theorem State.setGraph_age (s : State) (g : Nat) (x : LevelSlot) : (s.setGraph g x).age = s.age := rfl
@[simp] theorem State.setGraph_graphs (s : State) (g : Nat) (x : LevelSlot) : (s.setGraph g x).graphs = tset LevelSlot.reset s.graphs g x := rfl
@[simp] theorem State.setGraph_phases (s : State) (g : Nat) (x : LevelSlot) : (s.setGraph g x).phases = s.phases := rfl
@[simp] theorem State.setGraph_jobs (s : State) (g : Nat) (x : LevelSlot) : (s.setGraph g x).jobs = s.jobs := rfl
@[simp] theorem State.setGraph_nodes (s : State) (g : Nat) (x : LevelSlot) : (s.setGraph g x).nodes = s.nodes := rfl
@[simp] theorem State.setGraph_saved (s : State) (g : Nat) (x : LevelSlot) : (s.setGraph g x).saved = s.saved := rfl
@[simp] theorem State.setGraph_saving (s : State) (g : Nat) (x : LevelSlot) : (s.setGraph g x).saving = s.saving := rfl
@[simp] theorem State.setGraph_lastOut (s : State) (g : Nat) (x : LevelSlot) : (s.setGraph g x).lastOut = s.lastOut := rfl
@[simp] theorem State.setGraph_heldClusters (s : State) (g : Nat) (x : LevelSlot) : (s.setGraph g x).heldClusters = s.heldClusters := rfl
@[simp] theorem State.setGraph_cpRotor (s : State) (g : Nat) (x : LevelSlot) : (s.setGraph g x).cpRotor = s.cpRotor := rfl
@[simp] theorem State.setGraph_gov (s : State) (g : Nat) (x : LevelSlot) : (s.setGraph g x).gov = s.gov := rfl
@[simp] theorem State.setGraph_tok (s : State) (g : Nat) (x : LevelSlot) : (s.setGraph g x).tok = s.tok := rfl
@[simp] theorem State.setGraph_mil (s : State) (g : Nat) (x : LevelSlot) : (s.setGraph g x).mil = s.mil := rfl
@[simp] theorem State.setGraph_pkg (s : State) (g : Nat) (x : LevelSlot) : (s.setGraph g x).pkg = s.pkg := rfl
@[simp] theorem State.setGraph_supplyOut (s : State) (g : Nat) (x : LevelSlot) : (s.setGraph g x).supplyOut = s.supplyOut := rfl
@[simp] theorem State.setGraph_keyWait (s : State) (g : Nat) (x : LevelSlot) : (s.setGraph g x).keyWait = s.keyWait := rfl
@[simp] theorem State.setGraph_collNotices (s : State) (g : Nat) (x : LevelSlot) : (s.setGraph g x).collNotices = s.collNotices := rfl
@[simp] theorem State.setGraph_early (s : State) (g : Nat) (x : LevelSlot) : (s.setGraph g x).early = s.early := rfl
@[simp] theorem State.setGraph_combine (s : State) (g : Nat) (x : LevelSlot) : (s.setGraph g x).combine = s.combine := rfl
@[simp] theorem State.setGraph_lost (s : State) (g : Nat) (x : LevelSlot) : (s.setGraph g x).lost = s.lost := rfl
@[simp] theorem State.setGraph_farOut (s : State) (g : Nat) (x : LevelSlot) : (s.setGraph g x).farOut = s.farOut := rfl
@[simp] theorem State.setGraph_scoFatal (s : State) (g : Nat) (x : LevelSlot) : (s.setGraph g x).scoFatal = s.scoFatal := rfl
@[simp] theorem State.setGraph_nodeSignals (s : State) (g : Nat) (x : LevelSlot) : (s.setGraph g x).nodeSignals = s.nodeSignals := rfl
@[simp] theorem State.setGraph_parked (s : State) (g : Nat) (x : LevelSlot) : (s.setGraph g x).parked = s.parked := rfl
@[simp] theorem State.setGraph_running (s : State) (g : Nat) (x : LevelSlot) : (s.setGraph g x).running = s.running := rfl

/-! ### State.setPhase -/

@[simp] theorem State.setPhase_clk (s : State) (p : Nat) (x : LevelSlot) : (s.setPhase p x).clk = s.clk := rfl
@[simp] theorem State.setPhase_tick (s : State) (p : Nat) (x : LevelSlot) : (s.setPhase p x).tick = s.tick := rfl
@[simp] theorem State.setPhase_agenda (s : State) (p : Nat) (x : LevelSlot) : (s.setPhase p x).agenda = s.agenda := rfl
@[simp] theorem State.setPhase_inbox (s : State) (p : Nat) (x : LevelSlot) : (s.setPhase p x).inbox = s.inbox := rfl
@[simp] theorem State.setPhase_freeCtr (s : State) (p : Nat) (x : LevelSlot) : (s.setPhase p x).freeCtr = s.freeCtr := rfl
@[simp] theorem State.setPhase_issue (s : State) (p : Nat) (x : LevelSlot) : (s.setPhase p x).issue = s.issue := rfl
@[simp] theorem State.setPhase_issuedParts (s : State) (p : Nat) (x : LevelSlot) : (s.setPhase p x).issuedParts = s.issuedParts := rfl
@[simp] theorem State.setPhase_mem (s : State) (p : Nat) (x : LevelSlot) : (s.setPhase p x).mem = s.mem := rfl
@[simp] theorem State.setPhase_tags (s : State) (p : Nat) (x : LevelSlot) : (s.setPhase p x).tags = s.tags := rfl
@[simp] theorem State.setPhase_poison (s : State) (p : Nat) (x : LevelSlot) : (s.setPhase p x).poison = s.poison := rfl
@[simp] theorem State.setPhase_lostStacks (s : State) (p : Nat) (x : LevelSlot) : (s.setPhase p x).lostStacks = s.lostStacks := rfl
@[simp] theorem State.setPhase_lostSlices (s : State) (p : Nat) (x : LevelSlot) : (s.setPhase p x).lostSlices = s.lostSlices := rfl
@[simp] theorem State.setPhase_sound (s : State) (p : Nat) (x : LevelSlot) : (s.setPhase p x).sound = s.sound := rfl
@[simp] theorem State.setPhase_dirty (s : State) (p : Nat) (x : LevelSlot) : (s.setPhase p x).dirty = s.dirty := rfl
@[simp] theorem State.setPhase_dir (s : State) (p : Nat) (x : LevelSlot) : (s.setPhase p x).dir = s.dir := rfl
@[simp] theorem State.setPhase_peerCopies (s : State) (p : Nat) (x : LevelSlot) : (s.setPhase p x).peerCopies = s.peerCopies := rfl
@[simp] theorem State.setPhase_invalWait (s : State) (p : Nat) (x : LevelSlot) : (s.setPhase p x).invalWait = s.invalWait := rfl
@[simp] theorem State.setPhase_misses (s : State) (p : Nat) (x : LevelSlot) : (s.setPhase p x).misses = s.misses := rfl
@[simp] theorem State.setPhase_ackWait (s : State) (p : Nat) (x : LevelSlot) : (s.setPhase p x).ackWait = s.ackWait := rfl
@[simp] theorem State.setPhase_posted (s : State) (p : Nat) (x : LevelSlot) : (s.setPhase p x).posted = s.posted := rfl
@[simp] theorem State.setPhase_postedNext (s : State) (p : Nat) (x : LevelSlot) : (s.setPhase p x).postedNext = s.postedNext := rfl
@[simp] theorem State.setPhase_out (s : State) (p : Nat) (x : LevelSlot) : (s.setPhase p x).out = s.out := rfl
@[simp] theorem State.setPhase_outDone (s : State) (p : Nat) (x : LevelSlot) : (s.setPhase p x).outDone = s.outDone := rfl
@[simp] theorem State.setPhase_seals (s : State) (p : Nat) (x : LevelSlot) : (s.setPhase p x).seals = s.seals := rfl
@[simp] theorem State.setPhase_egress (s : State) (p : Nat) (x : LevelSlot) : (s.setPhase p x).egress = s.egress := rfl
@[simp] theorem State.setPhase_seqOut (s : State) (p : Nat) (x : LevelSlot) : (s.setPhase p x).seqOut = s.seqOut := rfl
@[simp] theorem State.setPhase_seqIn (s : State) (p : Nat) (x : LevelSlot) : (s.setPhase p x).seqIn = s.seqIn := rfl
@[simp] theorem State.setPhase_reorder (s : State) (p : Nat) (x : LevelSlot) : (s.setPhase p x).reorder = s.reorder := rfl
@[simp] theorem State.setPhase_reorderChains (s : State) (p : Nat) (x : LevelSlot) : (s.setPhase p x).reorderChains = s.reorderChains := rfl
@[simp] theorem State.setPhase_blocks (s : State) (p : Nat) (x : LevelSlot) : (s.setPhase p x).blocks = s.blocks := rfl
@[simp] theorem State.setPhase_pendHigh (s : State) (p : Nat) (x : LevelSlot) : (s.setPhase p x).pendHigh = s.pendHigh := rfl
@[simp] theorem State.setPhase_fetchAsks (s : State) (p : Nat) (x : LevelSlot) : (s.setPhase p x).fetchAsks = s.fetchAsks := rfl
@[simp] theorem State.setPhase_fetchBad (s : State) (p : Nat) (x : LevelSlot) : (s.setPhase p x).fetchBad = s.fetchBad := rfl
@[simp] theorem State.setPhase_mseq (s : State) (p : Nat) (x : LevelSlot) : (s.setPhase p x).mseq = s.mseq := rfl
@[simp] theorem State.setPhase_cores (s : State) (p : Nat) (x : LevelSlot) : (s.setPhase p x).cores = s.cores := rfl
@[simp] theorem State.setPhase_dies (s : State) (p : Nat) (x : LevelSlot) : (s.setPhase p x).dies = s.dies := rfl
@[simp] theorem State.setPhase_stacks (s : State) (p : Nat) (x : LevelSlot) : (s.setPhase p x).hbms = s.hbms := rfl
@[simp] theorem State.setPhase_ports (s : State) (p : Nat) (x : LevelSlot) : (s.setPhase p x).ports = s.ports := rfl
@[simp] theorem State.setPhase_ioMerge (s : State) (p : Nat) (x : LevelSlot) : (s.setPhase p x).ioMerge = s.ioMerge := rfl
@[simp] theorem State.setPhase_faultWait (s : State) (p : Nat) (x : LevelSlot) : (s.setPhase p x).faultWait = s.faultWait := rfl
@[simp] theorem State.setPhase_ctxs (s : State) (p : Nat) (x : LevelSlot) : (s.setPhase p x).ctxs = s.ctxs := rfl
@[simp] theorem State.setPhase_hwqs (s : State) (p : Nat) (x : LevelSlot) : (s.setPhase p x).hwqs = s.hwqs := rfl
@[simp] theorem State.setPhase_journal (s : State) (p : Nat) (x : LevelSlot) : (s.setPhase p x).journal = s.journal := rfl
@[simp] theorem State.setPhase_launches (s : State) (p : Nat) (x : LevelSlot) : (s.setPhase p x).launches = s.launches := rfl
@[simp] theorem State.setPhase_launchOrder (s : State) (p : Nat) (x : LevelSlot) : (s.setPhase p x).launchOrder = s.launchOrder := rfl
@[simp] theorem State.setPhase_age (s : State) (p : Nat) (x : LevelSlot) : (s.setPhase p x).age = s.age := rfl
@[simp] theorem State.setPhase_graphs (s : State) (p : Nat) (x : LevelSlot) : (s.setPhase p x).graphs = s.graphs := rfl
@[simp] theorem State.setPhase_phases (s : State) (p : Nat) (x : LevelSlot) : (s.setPhase p x).phases = tset LevelSlot.reset s.phases p x := rfl
@[simp] theorem State.setPhase_jobs (s : State) (p : Nat) (x : LevelSlot) : (s.setPhase p x).jobs = s.jobs := rfl
@[simp] theorem State.setPhase_nodes (s : State) (p : Nat) (x : LevelSlot) : (s.setPhase p x).nodes = s.nodes := rfl
@[simp] theorem State.setPhase_saved (s : State) (p : Nat) (x : LevelSlot) : (s.setPhase p x).saved = s.saved := rfl
@[simp] theorem State.setPhase_saving (s : State) (p : Nat) (x : LevelSlot) : (s.setPhase p x).saving = s.saving := rfl
@[simp] theorem State.setPhase_lastOut (s : State) (p : Nat) (x : LevelSlot) : (s.setPhase p x).lastOut = s.lastOut := rfl
@[simp] theorem State.setPhase_heldClusters (s : State) (p : Nat) (x : LevelSlot) : (s.setPhase p x).heldClusters = s.heldClusters := rfl
@[simp] theorem State.setPhase_cpRotor (s : State) (p : Nat) (x : LevelSlot) : (s.setPhase p x).cpRotor = s.cpRotor := rfl
@[simp] theorem State.setPhase_gov (s : State) (p : Nat) (x : LevelSlot) : (s.setPhase p x).gov = s.gov := rfl
@[simp] theorem State.setPhase_tok (s : State) (p : Nat) (x : LevelSlot) : (s.setPhase p x).tok = s.tok := rfl
@[simp] theorem State.setPhase_mil (s : State) (p : Nat) (x : LevelSlot) : (s.setPhase p x).mil = s.mil := rfl
@[simp] theorem State.setPhase_pkg (s : State) (p : Nat) (x : LevelSlot) : (s.setPhase p x).pkg = s.pkg := rfl
@[simp] theorem State.setPhase_supplyOut (s : State) (p : Nat) (x : LevelSlot) : (s.setPhase p x).supplyOut = s.supplyOut := rfl
@[simp] theorem State.setPhase_keyWait (s : State) (p : Nat) (x : LevelSlot) : (s.setPhase p x).keyWait = s.keyWait := rfl
@[simp] theorem State.setPhase_collNotices (s : State) (p : Nat) (x : LevelSlot) : (s.setPhase p x).collNotices = s.collNotices := rfl
@[simp] theorem State.setPhase_early (s : State) (p : Nat) (x : LevelSlot) : (s.setPhase p x).early = s.early := rfl
@[simp] theorem State.setPhase_combine (s : State) (p : Nat) (x : LevelSlot) : (s.setPhase p x).combine = s.combine := rfl
@[simp] theorem State.setPhase_lost (s : State) (p : Nat) (x : LevelSlot) : (s.setPhase p x).lost = s.lost := rfl
@[simp] theorem State.setPhase_farOut (s : State) (p : Nat) (x : LevelSlot) : (s.setPhase p x).farOut = s.farOut := rfl
@[simp] theorem State.setPhase_scoFatal (s : State) (p : Nat) (x : LevelSlot) : (s.setPhase p x).scoFatal = s.scoFatal := rfl
@[simp] theorem State.setPhase_nodeSignals (s : State) (p : Nat) (x : LevelSlot) : (s.setPhase p x).nodeSignals = s.nodeSignals := rfl
@[simp] theorem State.setPhase_parked (s : State) (p : Nat) (x : LevelSlot) : (s.setPhase p x).parked = s.parked := rfl
@[simp] theorem State.setPhase_running (s : State) (p : Nat) (x : LevelSlot) : (s.setPhase p x).running = s.running := rfl

/-! ### State.setJob -/

@[simp] theorem State.setJob_clk (s : State) (j : Nat) (x : LevelSlot) : (s.setJob j x).clk = s.clk := rfl
@[simp] theorem State.setJob_tick (s : State) (j : Nat) (x : LevelSlot) : (s.setJob j x).tick = s.tick := rfl
@[simp] theorem State.setJob_agenda (s : State) (j : Nat) (x : LevelSlot) : (s.setJob j x).agenda = s.agenda := rfl
@[simp] theorem State.setJob_inbox (s : State) (j : Nat) (x : LevelSlot) : (s.setJob j x).inbox = s.inbox := rfl
@[simp] theorem State.setJob_freeCtr (s : State) (j : Nat) (x : LevelSlot) : (s.setJob j x).freeCtr = s.freeCtr := rfl
@[simp] theorem State.setJob_issue (s : State) (j : Nat) (x : LevelSlot) : (s.setJob j x).issue = s.issue := rfl
@[simp] theorem State.setJob_issuedParts (s : State) (j : Nat) (x : LevelSlot) : (s.setJob j x).issuedParts = s.issuedParts := rfl
@[simp] theorem State.setJob_mem (s : State) (j : Nat) (x : LevelSlot) : (s.setJob j x).mem = s.mem := rfl
@[simp] theorem State.setJob_tags (s : State) (j : Nat) (x : LevelSlot) : (s.setJob j x).tags = s.tags := rfl
@[simp] theorem State.setJob_poison (s : State) (j : Nat) (x : LevelSlot) : (s.setJob j x).poison = s.poison := rfl
@[simp] theorem State.setJob_lostStacks (s : State) (j : Nat) (x : LevelSlot) : (s.setJob j x).lostStacks = s.lostStacks := rfl
@[simp] theorem State.setJob_lostSlices (s : State) (j : Nat) (x : LevelSlot) : (s.setJob j x).lostSlices = s.lostSlices := rfl
@[simp] theorem State.setJob_sound (s : State) (j : Nat) (x : LevelSlot) : (s.setJob j x).sound = s.sound := rfl
@[simp] theorem State.setJob_dirty (s : State) (j : Nat) (x : LevelSlot) : (s.setJob j x).dirty = s.dirty := rfl
@[simp] theorem State.setJob_dir (s : State) (j : Nat) (x : LevelSlot) : (s.setJob j x).dir = s.dir := rfl
@[simp] theorem State.setJob_peerCopies (s : State) (j : Nat) (x : LevelSlot) : (s.setJob j x).peerCopies = s.peerCopies := rfl
@[simp] theorem State.setJob_invalWait (s : State) (j : Nat) (x : LevelSlot) : (s.setJob j x).invalWait = s.invalWait := rfl
@[simp] theorem State.setJob_misses (s : State) (j : Nat) (x : LevelSlot) : (s.setJob j x).misses = s.misses := rfl
@[simp] theorem State.setJob_ackWait (s : State) (j : Nat) (x : LevelSlot) : (s.setJob j x).ackWait = s.ackWait := rfl
@[simp] theorem State.setJob_posted (s : State) (j : Nat) (x : LevelSlot) : (s.setJob j x).posted = s.posted := rfl
@[simp] theorem State.setJob_postedNext (s : State) (j : Nat) (x : LevelSlot) : (s.setJob j x).postedNext = s.postedNext := rfl
@[simp] theorem State.setJob_out (s : State) (j : Nat) (x : LevelSlot) : (s.setJob j x).out = s.out := rfl
@[simp] theorem State.setJob_outDone (s : State) (j : Nat) (x : LevelSlot) : (s.setJob j x).outDone = s.outDone := rfl
@[simp] theorem State.setJob_seals (s : State) (j : Nat) (x : LevelSlot) : (s.setJob j x).seals = s.seals := rfl
@[simp] theorem State.setJob_egress (s : State) (j : Nat) (x : LevelSlot) : (s.setJob j x).egress = s.egress := rfl
@[simp] theorem State.setJob_seqOut (s : State) (j : Nat) (x : LevelSlot) : (s.setJob j x).seqOut = s.seqOut := rfl
@[simp] theorem State.setJob_seqIn (s : State) (j : Nat) (x : LevelSlot) : (s.setJob j x).seqIn = s.seqIn := rfl
@[simp] theorem State.setJob_reorder (s : State) (j : Nat) (x : LevelSlot) : (s.setJob j x).reorder = s.reorder := rfl
@[simp] theorem State.setJob_reorderChains (s : State) (j : Nat) (x : LevelSlot) : (s.setJob j x).reorderChains = s.reorderChains := rfl
@[simp] theorem State.setJob_blocks (s : State) (j : Nat) (x : LevelSlot) : (s.setJob j x).blocks = s.blocks := rfl
@[simp] theorem State.setJob_pendHigh (s : State) (j : Nat) (x : LevelSlot) : (s.setJob j x).pendHigh = s.pendHigh := rfl
@[simp] theorem State.setJob_fetchAsks (s : State) (j : Nat) (x : LevelSlot) : (s.setJob j x).fetchAsks = s.fetchAsks := rfl
@[simp] theorem State.setJob_fetchBad (s : State) (j : Nat) (x : LevelSlot) : (s.setJob j x).fetchBad = s.fetchBad := rfl
@[simp] theorem State.setJob_mseq (s : State) (j : Nat) (x : LevelSlot) : (s.setJob j x).mseq = s.mseq := rfl
@[simp] theorem State.setJob_cores (s : State) (j : Nat) (x : LevelSlot) : (s.setJob j x).cores = s.cores := rfl
@[simp] theorem State.setJob_dies (s : State) (j : Nat) (x : LevelSlot) : (s.setJob j x).dies = s.dies := rfl
@[simp] theorem State.setJob_stacks (s : State) (j : Nat) (x : LevelSlot) : (s.setJob j x).hbms = s.hbms := rfl
@[simp] theorem State.setJob_ports (s : State) (j : Nat) (x : LevelSlot) : (s.setJob j x).ports = s.ports := rfl
@[simp] theorem State.setJob_ioMerge (s : State) (j : Nat) (x : LevelSlot) : (s.setJob j x).ioMerge = s.ioMerge := rfl
@[simp] theorem State.setJob_faultWait (s : State) (j : Nat) (x : LevelSlot) : (s.setJob j x).faultWait = s.faultWait := rfl
@[simp] theorem State.setJob_ctxs (s : State) (j : Nat) (x : LevelSlot) : (s.setJob j x).ctxs = s.ctxs := rfl
@[simp] theorem State.setJob_hwqs (s : State) (j : Nat) (x : LevelSlot) : (s.setJob j x).hwqs = s.hwqs := rfl
@[simp] theorem State.setJob_journal (s : State) (j : Nat) (x : LevelSlot) : (s.setJob j x).journal = s.journal := rfl
@[simp] theorem State.setJob_launches (s : State) (j : Nat) (x : LevelSlot) : (s.setJob j x).launches = s.launches := rfl
@[simp] theorem State.setJob_launchOrder (s : State) (j : Nat) (x : LevelSlot) : (s.setJob j x).launchOrder = s.launchOrder := rfl
@[simp] theorem State.setJob_age (s : State) (j : Nat) (x : LevelSlot) : (s.setJob j x).age = s.age := rfl
@[simp] theorem State.setJob_graphs (s : State) (j : Nat) (x : LevelSlot) : (s.setJob j x).graphs = s.graphs := rfl
@[simp] theorem State.setJob_phases (s : State) (j : Nat) (x : LevelSlot) : (s.setJob j x).phases = s.phases := rfl
@[simp] theorem State.setJob_jobs (s : State) (j : Nat) (x : LevelSlot) : (s.setJob j x).jobs = tset LevelSlot.reset s.jobs j x := rfl
@[simp] theorem State.setJob_nodes (s : State) (j : Nat) (x : LevelSlot) : (s.setJob j x).nodes = s.nodes := rfl
@[simp] theorem State.setJob_saved (s : State) (j : Nat) (x : LevelSlot) : (s.setJob j x).saved = s.saved := rfl
@[simp] theorem State.setJob_saving (s : State) (j : Nat) (x : LevelSlot) : (s.setJob j x).saving = s.saving := rfl
@[simp] theorem State.setJob_lastOut (s : State) (j : Nat) (x : LevelSlot) : (s.setJob j x).lastOut = s.lastOut := rfl
@[simp] theorem State.setJob_heldClusters (s : State) (j : Nat) (x : LevelSlot) : (s.setJob j x).heldClusters = s.heldClusters := rfl
@[simp] theorem State.setJob_cpRotor (s : State) (j : Nat) (x : LevelSlot) : (s.setJob j x).cpRotor = s.cpRotor := rfl
@[simp] theorem State.setJob_gov (s : State) (j : Nat) (x : LevelSlot) : (s.setJob j x).gov = s.gov := rfl
@[simp] theorem State.setJob_tok (s : State) (j : Nat) (x : LevelSlot) : (s.setJob j x).tok = s.tok := rfl
@[simp] theorem State.setJob_mil (s : State) (j : Nat) (x : LevelSlot) : (s.setJob j x).mil = s.mil := rfl
@[simp] theorem State.setJob_pkg (s : State) (j : Nat) (x : LevelSlot) : (s.setJob j x).pkg = s.pkg := rfl
@[simp] theorem State.setJob_supplyOut (s : State) (j : Nat) (x : LevelSlot) : (s.setJob j x).supplyOut = s.supplyOut := rfl
@[simp] theorem State.setJob_keyWait (s : State) (j : Nat) (x : LevelSlot) : (s.setJob j x).keyWait = s.keyWait := rfl
@[simp] theorem State.setJob_collNotices (s : State) (j : Nat) (x : LevelSlot) : (s.setJob j x).collNotices = s.collNotices := rfl
@[simp] theorem State.setJob_early (s : State) (j : Nat) (x : LevelSlot) : (s.setJob j x).early = s.early := rfl
@[simp] theorem State.setJob_combine (s : State) (j : Nat) (x : LevelSlot) : (s.setJob j x).combine = s.combine := rfl
@[simp] theorem State.setJob_lost (s : State) (j : Nat) (x : LevelSlot) : (s.setJob j x).lost = s.lost := rfl
@[simp] theorem State.setJob_farOut (s : State) (j : Nat) (x : LevelSlot) : (s.setJob j x).farOut = s.farOut := rfl
@[simp] theorem State.setJob_scoFatal (s : State) (j : Nat) (x : LevelSlot) : (s.setJob j x).scoFatal = s.scoFatal := rfl
@[simp] theorem State.setJob_nodeSignals (s : State) (j : Nat) (x : LevelSlot) : (s.setJob j x).nodeSignals = s.nodeSignals := rfl
@[simp] theorem State.setJob_parked (s : State) (j : Nat) (x : LevelSlot) : (s.setJob j x).parked = s.parked := rfl
@[simp] theorem State.setJob_running (s : State) (j : Nat) (x : LevelSlot) : (s.setJob j x).running = s.running := rfl

/-! ### State.setNode -/

@[simp] theorem State.setNode_clk (s : State) (n : Nat) (x : Node) : (s.setNode n x).clk = s.clk := rfl
@[simp] theorem State.setNode_tick (s : State) (n : Nat) (x : Node) : (s.setNode n x).tick = s.tick := rfl
@[simp] theorem State.setNode_agenda (s : State) (n : Nat) (x : Node) : (s.setNode n x).agenda = s.agenda := rfl
@[simp] theorem State.setNode_inbox (s : State) (n : Nat) (x : Node) : (s.setNode n x).inbox = s.inbox := rfl
@[simp] theorem State.setNode_freeCtr (s : State) (n : Nat) (x : Node) : (s.setNode n x).freeCtr = s.freeCtr := rfl
@[simp] theorem State.setNode_issue (s : State) (n : Nat) (x : Node) : (s.setNode n x).issue = s.issue := rfl
@[simp] theorem State.setNode_issuedParts (s : State) (n : Nat) (x : Node) : (s.setNode n x).issuedParts = s.issuedParts := rfl
@[simp] theorem State.setNode_mem (s : State) (n : Nat) (x : Node) : (s.setNode n x).mem = s.mem := rfl
@[simp] theorem State.setNode_tags (s : State) (n : Nat) (x : Node) : (s.setNode n x).tags = s.tags := rfl
@[simp] theorem State.setNode_poison (s : State) (n : Nat) (x : Node) : (s.setNode n x).poison = s.poison := rfl
@[simp] theorem State.setNode_lostStacks (s : State) (n : Nat) (x : Node) : (s.setNode n x).lostStacks = s.lostStacks := rfl
@[simp] theorem State.setNode_lostSlices (s : State) (n : Nat) (x : Node) : (s.setNode n x).lostSlices = s.lostSlices := rfl
@[simp] theorem State.setNode_sound (s : State) (n : Nat) (x : Node) : (s.setNode n x).sound = s.sound := rfl
@[simp] theorem State.setNode_dirty (s : State) (n : Nat) (x : Node) : (s.setNode n x).dirty = s.dirty := rfl
@[simp] theorem State.setNode_dir (s : State) (n : Nat) (x : Node) : (s.setNode n x).dir = s.dir := rfl
@[simp] theorem State.setNode_peerCopies (s : State) (n : Nat) (x : Node) : (s.setNode n x).peerCopies = s.peerCopies := rfl
@[simp] theorem State.setNode_invalWait (s : State) (n : Nat) (x : Node) : (s.setNode n x).invalWait = s.invalWait := rfl
@[simp] theorem State.setNode_misses (s : State) (n : Nat) (x : Node) : (s.setNode n x).misses = s.misses := rfl
@[simp] theorem State.setNode_ackWait (s : State) (n : Nat) (x : Node) : (s.setNode n x).ackWait = s.ackWait := rfl
@[simp] theorem State.setNode_posted (s : State) (n : Nat) (x : Node) : (s.setNode n x).posted = s.posted := rfl
@[simp] theorem State.setNode_postedNext (s : State) (n : Nat) (x : Node) : (s.setNode n x).postedNext = s.postedNext := rfl
@[simp] theorem State.setNode_out (s : State) (n : Nat) (x : Node) : (s.setNode n x).out = s.out := rfl
@[simp] theorem State.setNode_outDone (s : State) (n : Nat) (x : Node) : (s.setNode n x).outDone = s.outDone := rfl
@[simp] theorem State.setNode_seals (s : State) (n : Nat) (x : Node) : (s.setNode n x).seals = s.seals := rfl
@[simp] theorem State.setNode_egress (s : State) (n : Nat) (x : Node) : (s.setNode n x).egress = s.egress := rfl
@[simp] theorem State.setNode_seqOut (s : State) (n : Nat) (x : Node) : (s.setNode n x).seqOut = s.seqOut := rfl
@[simp] theorem State.setNode_seqIn (s : State) (n : Nat) (x : Node) : (s.setNode n x).seqIn = s.seqIn := rfl
@[simp] theorem State.setNode_reorder (s : State) (n : Nat) (x : Node) : (s.setNode n x).reorder = s.reorder := rfl
@[simp] theorem State.setNode_reorderChains (s : State) (n : Nat) (x : Node) : (s.setNode n x).reorderChains = s.reorderChains := rfl
@[simp] theorem State.setNode_blocks (s : State) (n : Nat) (x : Node) : (s.setNode n x).blocks = s.blocks := rfl
@[simp] theorem State.setNode_pendHigh (s : State) (n : Nat) (x : Node) : (s.setNode n x).pendHigh = s.pendHigh := rfl
@[simp] theorem State.setNode_fetchAsks (s : State) (n : Nat) (x : Node) : (s.setNode n x).fetchAsks = s.fetchAsks := rfl
@[simp] theorem State.setNode_fetchBad (s : State) (n : Nat) (x : Node) : (s.setNode n x).fetchBad = s.fetchBad := rfl
@[simp] theorem State.setNode_mseq (s : State) (n : Nat) (x : Node) : (s.setNode n x).mseq = s.mseq := rfl
@[simp] theorem State.setNode_cores (s : State) (n : Nat) (x : Node) : (s.setNode n x).cores = s.cores := rfl
@[simp] theorem State.setNode_dies (s : State) (n : Nat) (x : Node) : (s.setNode n x).dies = s.dies := rfl
@[simp] theorem State.setNode_stacks (s : State) (n : Nat) (x : Node) : (s.setNode n x).hbms = s.hbms := rfl
@[simp] theorem State.setNode_ports (s : State) (n : Nat) (x : Node) : (s.setNode n x).ports = s.ports := rfl
@[simp] theorem State.setNode_ioMerge (s : State) (n : Nat) (x : Node) : (s.setNode n x).ioMerge = s.ioMerge := rfl
@[simp] theorem State.setNode_faultWait (s : State) (n : Nat) (x : Node) : (s.setNode n x).faultWait = s.faultWait := rfl
@[simp] theorem State.setNode_ctxs (s : State) (n : Nat) (x : Node) : (s.setNode n x).ctxs = s.ctxs := rfl
@[simp] theorem State.setNode_hwqs (s : State) (n : Nat) (x : Node) : (s.setNode n x).hwqs = s.hwqs := rfl
@[simp] theorem State.setNode_journal (s : State) (n : Nat) (x : Node) : (s.setNode n x).journal = s.journal := rfl
@[simp] theorem State.setNode_launches (s : State) (n : Nat) (x : Node) : (s.setNode n x).launches = s.launches := rfl
@[simp] theorem State.setNode_launchOrder (s : State) (n : Nat) (x : Node) : (s.setNode n x).launchOrder = s.launchOrder := rfl
@[simp] theorem State.setNode_age (s : State) (n : Nat) (x : Node) : (s.setNode n x).age = s.age := rfl
@[simp] theorem State.setNode_graphs (s : State) (n : Nat) (x : Node) : (s.setNode n x).graphs = s.graphs := rfl
@[simp] theorem State.setNode_phases (s : State) (n : Nat) (x : Node) : (s.setNode n x).phases = s.phases := rfl
@[simp] theorem State.setNode_jobs (s : State) (n : Nat) (x : Node) : (s.setNode n x).jobs = s.jobs := rfl
@[simp] theorem State.setNode_nodes (s : State) (n : Nat) (x : Node) : (s.setNode n x).nodes = tset Node.reset s.nodes n x := rfl
@[simp] theorem State.setNode_saved (s : State) (n : Nat) (x : Node) : (s.setNode n x).saved = s.saved := rfl
@[simp] theorem State.setNode_saving (s : State) (n : Nat) (x : Node) : (s.setNode n x).saving = s.saving := rfl
@[simp] theorem State.setNode_lastOut (s : State) (n : Nat) (x : Node) : (s.setNode n x).lastOut = s.lastOut := rfl
@[simp] theorem State.setNode_heldClusters (s : State) (n : Nat) (x : Node) : (s.setNode n x).heldClusters = s.heldClusters := rfl
@[simp] theorem State.setNode_cpRotor (s : State) (n : Nat) (x : Node) : (s.setNode n x).cpRotor = s.cpRotor := rfl
@[simp] theorem State.setNode_gov (s : State) (n : Nat) (x : Node) : (s.setNode n x).gov = s.gov := rfl
@[simp] theorem State.setNode_tok (s : State) (n : Nat) (x : Node) : (s.setNode n x).tok = s.tok := rfl
@[simp] theorem State.setNode_mil (s : State) (n : Nat) (x : Node) : (s.setNode n x).mil = s.mil := rfl
@[simp] theorem State.setNode_pkg (s : State) (n : Nat) (x : Node) : (s.setNode n x).pkg = s.pkg := rfl
@[simp] theorem State.setNode_supplyOut (s : State) (n : Nat) (x : Node) : (s.setNode n x).supplyOut = s.supplyOut := rfl
@[simp] theorem State.setNode_keyWait (s : State) (n : Nat) (x : Node) : (s.setNode n x).keyWait = s.keyWait := rfl
@[simp] theorem State.setNode_collNotices (s : State) (n : Nat) (x : Node) : (s.setNode n x).collNotices = s.collNotices := rfl
@[simp] theorem State.setNode_early (s : State) (n : Nat) (x : Node) : (s.setNode n x).early = s.early := rfl
@[simp] theorem State.setNode_combine (s : State) (n : Nat) (x : Node) : (s.setNode n x).combine = s.combine := rfl
@[simp] theorem State.setNode_lost (s : State) (n : Nat) (x : Node) : (s.setNode n x).lost = s.lost := rfl
@[simp] theorem State.setNode_farOut (s : State) (n : Nat) (x : Node) : (s.setNode n x).farOut = s.farOut := rfl
@[simp] theorem State.setNode_scoFatal (s : State) (n : Nat) (x : Node) : (s.setNode n x).scoFatal = s.scoFatal := rfl
@[simp] theorem State.setNode_nodeSignals (s : State) (n : Nat) (x : Node) : (s.setNode n x).nodeSignals = s.nodeSignals := rfl
@[simp] theorem State.setNode_parked (s : State) (n : Nat) (x : Node) : (s.setNode n x).parked = s.parked := rfl
@[simp] theorem State.setNode_running (s : State) (n : Nat) (x : Node) : (s.setNode n x).running = s.running := rfl

/-! ### State.setBlock -/

@[simp] theorem State.setBlock_clk (s : State) (b : Nat) (x : Block) : (s.setBlock b x).clk = s.clk := rfl
@[simp] theorem State.setBlock_tick (s : State) (b : Nat) (x : Block) : (s.setBlock b x).tick = s.tick := rfl
@[simp] theorem State.setBlock_agenda (s : State) (b : Nat) (x : Block) : (s.setBlock b x).agenda = s.agenda := rfl
@[simp] theorem State.setBlock_inbox (s : State) (b : Nat) (x : Block) : (s.setBlock b x).inbox = s.inbox := rfl
@[simp] theorem State.setBlock_freeCtr (s : State) (b : Nat) (x : Block) : (s.setBlock b x).freeCtr = s.freeCtr := rfl
@[simp] theorem State.setBlock_issue (s : State) (b : Nat) (x : Block) : (s.setBlock b x).issue = s.issue := rfl
@[simp] theorem State.setBlock_issuedParts (s : State) (b : Nat) (x : Block) : (s.setBlock b x).issuedParts = s.issuedParts := rfl
@[simp] theorem State.setBlock_mem (s : State) (b : Nat) (x : Block) : (s.setBlock b x).mem = s.mem := rfl
@[simp] theorem State.setBlock_tags (s : State) (b : Nat) (x : Block) : (s.setBlock b x).tags = s.tags := rfl
@[simp] theorem State.setBlock_poison (s : State) (b : Nat) (x : Block) : (s.setBlock b x).poison = s.poison := rfl
@[simp] theorem State.setBlock_lostStacks (s : State) (b : Nat) (x : Block) : (s.setBlock b x).lostStacks = s.lostStacks := rfl
@[simp] theorem State.setBlock_lostSlices (s : State) (b : Nat) (x : Block) : (s.setBlock b x).lostSlices = s.lostSlices := rfl
@[simp] theorem State.setBlock_sound (s : State) (b : Nat) (x : Block) : (s.setBlock b x).sound = s.sound := rfl
@[simp] theorem State.setBlock_dirty (s : State) (b : Nat) (x : Block) : (s.setBlock b x).dirty = s.dirty := rfl
@[simp] theorem State.setBlock_dir (s : State) (b : Nat) (x : Block) : (s.setBlock b x).dir = s.dir := rfl
@[simp] theorem State.setBlock_peerCopies (s : State) (b : Nat) (x : Block) : (s.setBlock b x).peerCopies = s.peerCopies := rfl
@[simp] theorem State.setBlock_invalWait (s : State) (b : Nat) (x : Block) : (s.setBlock b x).invalWait = s.invalWait := rfl
@[simp] theorem State.setBlock_misses (s : State) (b : Nat) (x : Block) : (s.setBlock b x).misses = s.misses := rfl
@[simp] theorem State.setBlock_ackWait (s : State) (b : Nat) (x : Block) : (s.setBlock b x).ackWait = s.ackWait := rfl
@[simp] theorem State.setBlock_posted (s : State) (b : Nat) (x : Block) : (s.setBlock b x).posted = s.posted := rfl
@[simp] theorem State.setBlock_postedNext (s : State) (b : Nat) (x : Block) : (s.setBlock b x).postedNext = s.postedNext := rfl
@[simp] theorem State.setBlock_out (s : State) (b : Nat) (x : Block) : (s.setBlock b x).out = s.out := rfl
@[simp] theorem State.setBlock_outDone (s : State) (b : Nat) (x : Block) : (s.setBlock b x).outDone = s.outDone := rfl
@[simp] theorem State.setBlock_seals (s : State) (b : Nat) (x : Block) : (s.setBlock b x).seals = s.seals := rfl
@[simp] theorem State.setBlock_egress (s : State) (b : Nat) (x : Block) : (s.setBlock b x).egress = s.egress := rfl
@[simp] theorem State.setBlock_seqOut (s : State) (b : Nat) (x : Block) : (s.setBlock b x).seqOut = s.seqOut := rfl
@[simp] theorem State.setBlock_seqIn (s : State) (b : Nat) (x : Block) : (s.setBlock b x).seqIn = s.seqIn := rfl
@[simp] theorem State.setBlock_reorder (s : State) (b : Nat) (x : Block) : (s.setBlock b x).reorder = s.reorder := rfl
@[simp] theorem State.setBlock_reorderChains (s : State) (b : Nat) (x : Block) : (s.setBlock b x).reorderChains = s.reorderChains := rfl
@[simp] theorem State.setBlock_blocks (s : State) (b : Nat) (x : Block) : (s.setBlock b x).blocks = tput s.blocks b x := rfl
@[simp] theorem State.setBlock_pendHigh (s : State) (b : Nat) (x : Block) : (s.setBlock b x).pendHigh = s.pendHigh := rfl
@[simp] theorem State.setBlock_fetchAsks (s : State) (b : Nat) (x : Block) : (s.setBlock b x).fetchAsks = s.fetchAsks := rfl
@[simp] theorem State.setBlock_fetchBad (s : State) (b : Nat) (x : Block) : (s.setBlock b x).fetchBad = s.fetchBad := rfl
@[simp] theorem State.setBlock_mseq (s : State) (b : Nat) (x : Block) : (s.setBlock b x).mseq = s.mseq := rfl
@[simp] theorem State.setBlock_cores (s : State) (b : Nat) (x : Block) : (s.setBlock b x).cores = s.cores := rfl
@[simp] theorem State.setBlock_dies (s : State) (b : Nat) (x : Block) : (s.setBlock b x).dies = s.dies := rfl
@[simp] theorem State.setBlock_stacks (s : State) (b : Nat) (x : Block) : (s.setBlock b x).hbms = s.hbms := rfl
@[simp] theorem State.setBlock_ports (s : State) (b : Nat) (x : Block) : (s.setBlock b x).ports = s.ports := rfl
@[simp] theorem State.setBlock_ioMerge (s : State) (b : Nat) (x : Block) : (s.setBlock b x).ioMerge = s.ioMerge := rfl
@[simp] theorem State.setBlock_faultWait (s : State) (b : Nat) (x : Block) : (s.setBlock b x).faultWait = s.faultWait := rfl
@[simp] theorem State.setBlock_ctxs (s : State) (b : Nat) (x : Block) : (s.setBlock b x).ctxs = s.ctxs := rfl
@[simp] theorem State.setBlock_hwqs (s : State) (b : Nat) (x : Block) : (s.setBlock b x).hwqs = s.hwqs := rfl
@[simp] theorem State.setBlock_journal (s : State) (b : Nat) (x : Block) : (s.setBlock b x).journal = s.journal := rfl
@[simp] theorem State.setBlock_launches (s : State) (b : Nat) (x : Block) : (s.setBlock b x).launches = s.launches := rfl
@[simp] theorem State.setBlock_launchOrder (s : State) (b : Nat) (x : Block) : (s.setBlock b x).launchOrder = s.launchOrder := rfl
@[simp] theorem State.setBlock_age (s : State) (b : Nat) (x : Block) : (s.setBlock b x).age = s.age := rfl
@[simp] theorem State.setBlock_graphs (s : State) (b : Nat) (x : Block) : (s.setBlock b x).graphs = s.graphs := rfl
@[simp] theorem State.setBlock_phases (s : State) (b : Nat) (x : Block) : (s.setBlock b x).phases = s.phases := rfl
@[simp] theorem State.setBlock_jobs (s : State) (b : Nat) (x : Block) : (s.setBlock b x).jobs = s.jobs := rfl
@[simp] theorem State.setBlock_nodes (s : State) (b : Nat) (x : Block) : (s.setBlock b x).nodes = s.nodes := rfl
@[simp] theorem State.setBlock_saved (s : State) (b : Nat) (x : Block) : (s.setBlock b x).saved = s.saved := rfl
@[simp] theorem State.setBlock_saving (s : State) (b : Nat) (x : Block) : (s.setBlock b x).saving = s.saving := rfl
@[simp] theorem State.setBlock_lastOut (s : State) (b : Nat) (x : Block) : (s.setBlock b x).lastOut = s.lastOut := rfl
@[simp] theorem State.setBlock_heldClusters (s : State) (b : Nat) (x : Block) : (s.setBlock b x).heldClusters = s.heldClusters := rfl
@[simp] theorem State.setBlock_cpRotor (s : State) (b : Nat) (x : Block) : (s.setBlock b x).cpRotor = s.cpRotor := rfl
@[simp] theorem State.setBlock_gov (s : State) (b : Nat) (x : Block) : (s.setBlock b x).gov = s.gov := rfl
@[simp] theorem State.setBlock_tok (s : State) (b : Nat) (x : Block) : (s.setBlock b x).tok = s.tok := rfl
@[simp] theorem State.setBlock_mil (s : State) (b : Nat) (x : Block) : (s.setBlock b x).mil = s.mil := rfl
@[simp] theorem State.setBlock_pkg (s : State) (b : Nat) (x : Block) : (s.setBlock b x).pkg = s.pkg := rfl
@[simp] theorem State.setBlock_supplyOut (s : State) (b : Nat) (x : Block) : (s.setBlock b x).supplyOut = s.supplyOut := rfl
@[simp] theorem State.setBlock_keyWait (s : State) (b : Nat) (x : Block) : (s.setBlock b x).keyWait = s.keyWait := rfl
@[simp] theorem State.setBlock_collNotices (s : State) (b : Nat) (x : Block) : (s.setBlock b x).collNotices = s.collNotices := rfl
@[simp] theorem State.setBlock_early (s : State) (b : Nat) (x : Block) : (s.setBlock b x).early = s.early := rfl
@[simp] theorem State.setBlock_combine (s : State) (b : Nat) (x : Block) : (s.setBlock b x).combine = s.combine := rfl
@[simp] theorem State.setBlock_lost (s : State) (b : Nat) (x : Block) : (s.setBlock b x).lost = s.lost := rfl
@[simp] theorem State.setBlock_farOut (s : State) (b : Nat) (x : Block) : (s.setBlock b x).farOut = s.farOut := rfl
@[simp] theorem State.setBlock_scoFatal (s : State) (b : Nat) (x : Block) : (s.setBlock b x).scoFatal = s.scoFatal := rfl
@[simp] theorem State.setBlock_nodeSignals (s : State) (b : Nat) (x : Block) : (s.setBlock b x).nodeSignals = s.nodeSignals := rfl
@[simp] theorem State.setBlock_parked (s : State) (b : Nat) (x : Block) : (s.setBlock b x).parked = s.parked := rfl
@[simp] theorem State.setBlock_running (s : State) (b : Nat) (x : Block) : (s.setBlock b x).running = s.running := rfl

/-! ### State.delBlock -/

@[simp] theorem State.delBlock_clk (s : State) (b : Nat) : (s.delBlock b).clk = s.clk := rfl
@[simp] theorem State.delBlock_tick (s : State) (b : Nat) : (s.delBlock b).tick = s.tick := rfl
@[simp] theorem State.delBlock_agenda (s : State) (b : Nat) : (s.delBlock b).agenda = s.agenda := rfl
@[simp] theorem State.delBlock_inbox (s : State) (b : Nat) : (s.delBlock b).inbox = s.inbox := rfl
@[simp] theorem State.delBlock_freeCtr (s : State) (b : Nat) : (s.delBlock b).freeCtr = s.freeCtr := rfl
@[simp] theorem State.delBlock_issue (s : State) (b : Nat) : (s.delBlock b).issue = s.issue := rfl
@[simp] theorem State.delBlock_issuedParts (s : State) (b : Nat) : (s.delBlock b).issuedParts = s.issuedParts := rfl
@[simp] theorem State.delBlock_mem (s : State) (b : Nat) : (s.delBlock b).mem = s.mem := rfl
@[simp] theorem State.delBlock_tags (s : State) (b : Nat) : (s.delBlock b).tags = s.tags := rfl
@[simp] theorem State.delBlock_poison (s : State) (b : Nat) : (s.delBlock b).poison = s.poison := rfl
@[simp] theorem State.delBlock_lostStacks (s : State) (b : Nat) : (s.delBlock b).lostStacks = s.lostStacks := rfl
@[simp] theorem State.delBlock_lostSlices (s : State) (b : Nat) : (s.delBlock b).lostSlices = s.lostSlices := rfl
@[simp] theorem State.delBlock_sound (s : State) (b : Nat) : (s.delBlock b).sound = s.sound := rfl
@[simp] theorem State.delBlock_dirty (s : State) (b : Nat) : (s.delBlock b).dirty = s.dirty := rfl
@[simp] theorem State.delBlock_dir (s : State) (b : Nat) : (s.delBlock b).dir = s.dir := rfl
@[simp] theorem State.delBlock_peerCopies (s : State) (b : Nat) : (s.delBlock b).peerCopies = s.peerCopies := rfl
@[simp] theorem State.delBlock_invalWait (s : State) (b : Nat) : (s.delBlock b).invalWait = s.invalWait := rfl
@[simp] theorem State.delBlock_misses (s : State) (b : Nat) : (s.delBlock b).misses = s.misses := rfl
@[simp] theorem State.delBlock_ackWait (s : State) (b : Nat) : (s.delBlock b).ackWait = s.ackWait := rfl
@[simp] theorem State.delBlock_posted (s : State) (b : Nat) : (s.delBlock b).posted = s.posted := rfl
@[simp] theorem State.delBlock_postedNext (s : State) (b : Nat) : (s.delBlock b).postedNext = s.postedNext := rfl
@[simp] theorem State.delBlock_out (s : State) (b : Nat) : (s.delBlock b).out = s.out := rfl
@[simp] theorem State.delBlock_outDone (s : State) (b : Nat) : (s.delBlock b).outDone = s.outDone := rfl
@[simp] theorem State.delBlock_seals (s : State) (b : Nat) : (s.delBlock b).seals = s.seals := rfl
@[simp] theorem State.delBlock_egress (s : State) (b : Nat) : (s.delBlock b).egress = s.egress := rfl
@[simp] theorem State.delBlock_seqOut (s : State) (b : Nat) : (s.delBlock b).seqOut = s.seqOut := rfl
@[simp] theorem State.delBlock_seqIn (s : State) (b : Nat) : (s.delBlock b).seqIn = s.seqIn := rfl
@[simp] theorem State.delBlock_reorder (s : State) (b : Nat) : (s.delBlock b).reorder = s.reorder := rfl
@[simp] theorem State.delBlock_reorderChains (s : State) (b : Nat) : (s.delBlock b).reorderChains = s.reorderChains := rfl
@[simp] theorem State.delBlock_blocks (s : State) (b : Nat) : (s.delBlock b).blocks = tdel s.blocks b := rfl
@[simp] theorem State.delBlock_pendHigh (s : State) (b : Nat) : (s.delBlock b).pendHigh = match s.block? b with | some y => y.waves.foldl (fun n w => max n w.pendNext) s.pendHigh | none => s.pendHigh := rfl
@[simp] theorem State.delBlock_fetchAsks (s : State) (b : Nat) : (s.delBlock b).fetchAsks = s.fetchAsks := rfl
@[simp] theorem State.delBlock_fetchBad (s : State) (b : Nat) : (s.delBlock b).fetchBad = s.fetchBad := rfl
@[simp] theorem State.delBlock_mseq (s : State) (b : Nat) : (s.delBlock b).mseq = s.mseq := rfl
@[simp] theorem State.delBlock_cores (s : State) (b : Nat) : (s.delBlock b).cores = s.cores := rfl
@[simp] theorem State.delBlock_dies (s : State) (b : Nat) : (s.delBlock b).dies = s.dies := rfl
@[simp] theorem State.delBlock_stacks (s : State) (b : Nat) : (s.delBlock b).hbms = s.hbms := rfl
@[simp] theorem State.delBlock_ports (s : State) (b : Nat) : (s.delBlock b).ports = s.ports := rfl
@[simp] theorem State.delBlock_ioMerge (s : State) (b : Nat) : (s.delBlock b).ioMerge = s.ioMerge := rfl
@[simp] theorem State.delBlock_faultWait (s : State) (b : Nat) : (s.delBlock b).faultWait = s.faultWait := rfl
@[simp] theorem State.delBlock_ctxs (s : State) (b : Nat) : (s.delBlock b).ctxs = s.ctxs := rfl
@[simp] theorem State.delBlock_hwqs (s : State) (b : Nat) : (s.delBlock b).hwqs = s.hwqs := rfl
@[simp] theorem State.delBlock_journal (s : State) (b : Nat) : (s.delBlock b).journal = s.journal := rfl
@[simp] theorem State.delBlock_launches (s : State) (b : Nat) : (s.delBlock b).launches = s.launches := rfl
@[simp] theorem State.delBlock_launchOrder (s : State) (b : Nat) : (s.delBlock b).launchOrder = s.launchOrder := rfl
@[simp] theorem State.delBlock_age (s : State) (b : Nat) : (s.delBlock b).age = s.age := rfl
@[simp] theorem State.delBlock_graphs (s : State) (b : Nat) : (s.delBlock b).graphs = s.graphs := rfl
@[simp] theorem State.delBlock_phases (s : State) (b : Nat) : (s.delBlock b).phases = s.phases := rfl
@[simp] theorem State.delBlock_jobs (s : State) (b : Nat) : (s.delBlock b).jobs = s.jobs := rfl
@[simp] theorem State.delBlock_nodes (s : State) (b : Nat) : (s.delBlock b).nodes = s.nodes := rfl
@[simp] theorem State.delBlock_saved (s : State) (b : Nat) : (s.delBlock b).saved = s.saved := rfl
@[simp] theorem State.delBlock_saving (s : State) (b : Nat) : (s.delBlock b).saving = s.saving := rfl
@[simp] theorem State.delBlock_lastOut (s : State) (b : Nat) : (s.delBlock b).lastOut = s.lastOut := rfl
@[simp] theorem State.delBlock_heldClusters (s : State) (b : Nat) : (s.delBlock b).heldClusters = s.heldClusters := rfl
@[simp] theorem State.delBlock_cpRotor (s : State) (b : Nat) : (s.delBlock b).cpRotor = s.cpRotor := rfl
@[simp] theorem State.delBlock_gov (s : State) (b : Nat) : (s.delBlock b).gov = s.gov := rfl
@[simp] theorem State.delBlock_tok (s : State) (b : Nat) : (s.delBlock b).tok = s.tok := rfl
@[simp] theorem State.delBlock_mil (s : State) (b : Nat) : (s.delBlock b).mil = s.mil := rfl
@[simp] theorem State.delBlock_pkg (s : State) (b : Nat) : (s.delBlock b).pkg = s.pkg := rfl
@[simp] theorem State.delBlock_supplyOut (s : State) (b : Nat) : (s.delBlock b).supplyOut = s.supplyOut := rfl
@[simp] theorem State.delBlock_keyWait (s : State) (b : Nat) : (s.delBlock b).keyWait = s.keyWait := rfl
@[simp] theorem State.delBlock_collNotices (s : State) (b : Nat) : (s.delBlock b).collNotices = s.collNotices := rfl
@[simp] theorem State.delBlock_early (s : State) (b : Nat) : (s.delBlock b).early = s.early := rfl
@[simp] theorem State.delBlock_combine (s : State) (b : Nat) : (s.delBlock b).combine = s.combine := rfl
@[simp] theorem State.delBlock_lost (s : State) (b : Nat) : (s.delBlock b).lost = s.lost := rfl
@[simp] theorem State.delBlock_farOut (s : State) (b : Nat) : (s.delBlock b).farOut = s.farOut := rfl
@[simp] theorem State.delBlock_scoFatal (s : State) (b : Nat) : (s.delBlock b).scoFatal = s.scoFatal := rfl
@[simp] theorem State.delBlock_nodeSignals (s : State) (b : Nat) : (s.delBlock b).nodeSignals = s.nodeSignals := rfl
@[simp] theorem State.delBlock_parked (s : State) (b : Nat) : (s.delBlock b).parked = s.parked := rfl
@[simp] theorem State.delBlock_running (s : State) (b : Nat) : (s.delBlock b).running = s.running := rfl

/-! ### State.onBlocks -/

@[simp] theorem State.onBlocks_clk (s : State) (f : Nat → Block → Block) : (s.onBlocks f).clk = s.clk := rfl
@[simp] theorem State.onBlocks_tick (s : State) (f : Nat → Block → Block) : (s.onBlocks f).tick = s.tick := rfl
@[simp] theorem State.onBlocks_agenda (s : State) (f : Nat → Block → Block) : (s.onBlocks f).agenda = s.agenda := rfl
@[simp] theorem State.onBlocks_inbox (s : State) (f : Nat → Block → Block) : (s.onBlocks f).inbox = s.inbox := rfl
@[simp] theorem State.onBlocks_freeCtr (s : State) (f : Nat → Block → Block) : (s.onBlocks f).freeCtr = s.freeCtr := rfl
@[simp] theorem State.onBlocks_issue (s : State) (f : Nat → Block → Block) : (s.onBlocks f).issue = s.issue := rfl
@[simp] theorem State.onBlocks_issuedParts (s : State) (f : Nat → Block → Block) : (s.onBlocks f).issuedParts = s.issuedParts := rfl
@[simp] theorem State.onBlocks_mem (s : State) (f : Nat → Block → Block) : (s.onBlocks f).mem = s.mem := rfl
@[simp] theorem State.onBlocks_tags (s : State) (f : Nat → Block → Block) : (s.onBlocks f).tags = s.tags := rfl
@[simp] theorem State.onBlocks_poison (s : State) (f : Nat → Block → Block) : (s.onBlocks f).poison = s.poison := rfl
@[simp] theorem State.onBlocks_lostStacks (s : State) (f : Nat → Block → Block) : (s.onBlocks f).lostStacks = s.lostStacks := rfl
@[simp] theorem State.onBlocks_lostSlices (s : State) (f : Nat → Block → Block) : (s.onBlocks f).lostSlices = s.lostSlices := rfl
@[simp] theorem State.onBlocks_sound (s : State) (f : Nat → Block → Block) : (s.onBlocks f).sound = s.sound := rfl
@[simp] theorem State.onBlocks_dirty (s : State) (f : Nat → Block → Block) : (s.onBlocks f).dirty = s.dirty := rfl
@[simp] theorem State.onBlocks_dir (s : State) (f : Nat → Block → Block) : (s.onBlocks f).dir = s.dir := rfl
@[simp] theorem State.onBlocks_peerCopies (s : State) (f : Nat → Block → Block) : (s.onBlocks f).peerCopies = s.peerCopies := rfl
@[simp] theorem State.onBlocks_invalWait (s : State) (f : Nat → Block → Block) : (s.onBlocks f).invalWait = s.invalWait := rfl
@[simp] theorem State.onBlocks_misses (s : State) (f : Nat → Block → Block) : (s.onBlocks f).misses = s.misses := rfl
@[simp] theorem State.onBlocks_ackWait (s : State) (f : Nat → Block → Block) : (s.onBlocks f).ackWait = s.ackWait := rfl
@[simp] theorem State.onBlocks_posted (s : State) (f : Nat → Block → Block) : (s.onBlocks f).posted = s.posted := rfl
@[simp] theorem State.onBlocks_postedNext (s : State) (f : Nat → Block → Block) : (s.onBlocks f).postedNext = s.postedNext := rfl
@[simp] theorem State.onBlocks_out (s : State) (f : Nat → Block → Block) : (s.onBlocks f).out = s.out := rfl
@[simp] theorem State.onBlocks_outDone (s : State) (f : Nat → Block → Block) : (s.onBlocks f).outDone = s.outDone := rfl
@[simp] theorem State.onBlocks_seals (s : State) (f : Nat → Block → Block) : (s.onBlocks f).seals = s.seals := rfl
@[simp] theorem State.onBlocks_egress (s : State) (f : Nat → Block → Block) : (s.onBlocks f).egress = s.egress := rfl
@[simp] theorem State.onBlocks_seqOut (s : State) (f : Nat → Block → Block) : (s.onBlocks f).seqOut = s.seqOut := rfl
@[simp] theorem State.onBlocks_seqIn (s : State) (f : Nat → Block → Block) : (s.onBlocks f).seqIn = s.seqIn := rfl
@[simp] theorem State.onBlocks_reorder (s : State) (f : Nat → Block → Block) : (s.onBlocks f).reorder = s.reorder := rfl
@[simp] theorem State.onBlocks_reorderChains (s : State) (f : Nat → Block → Block) : (s.onBlocks f).reorderChains = s.reorderChains := rfl
@[simp] theorem State.onBlocks_blocks (s : State) (f : Nat → Block → Block) : (s.onBlocks f).blocks = s.blocks.map fun p => (p.1, f p.1 p.2) := rfl
@[simp] theorem State.onBlocks_pendHigh (s : State) (f : Nat → Block → Block) : (s.onBlocks f).pendHigh = s.pendHigh := rfl
@[simp] theorem State.onBlocks_fetchAsks (s : State) (f : Nat → Block → Block) : (s.onBlocks f).fetchAsks = s.fetchAsks := rfl
@[simp] theorem State.onBlocks_fetchBad (s : State) (f : Nat → Block → Block) : (s.onBlocks f).fetchBad = s.fetchBad := rfl
@[simp] theorem State.onBlocks_mseq (s : State) (f : Nat → Block → Block) : (s.onBlocks f).mseq = s.mseq := rfl
@[simp] theorem State.onBlocks_cores (s : State) (f : Nat → Block → Block) : (s.onBlocks f).cores = s.cores := rfl
@[simp] theorem State.onBlocks_dies (s : State) (f : Nat → Block → Block) : (s.onBlocks f).dies = s.dies := rfl
@[simp] theorem State.onBlocks_stacks (s : State) (f : Nat → Block → Block) : (s.onBlocks f).hbms = s.hbms := rfl
@[simp] theorem State.onBlocks_ports (s : State) (f : Nat → Block → Block) : (s.onBlocks f).ports = s.ports := rfl
@[simp] theorem State.onBlocks_ioMerge (s : State) (f : Nat → Block → Block) : (s.onBlocks f).ioMerge = s.ioMerge := rfl
@[simp] theorem State.onBlocks_faultWait (s : State) (f : Nat → Block → Block) : (s.onBlocks f).faultWait = s.faultWait := rfl
@[simp] theorem State.onBlocks_ctxs (s : State) (f : Nat → Block → Block) : (s.onBlocks f).ctxs = s.ctxs := rfl
@[simp] theorem State.onBlocks_hwqs (s : State) (f : Nat → Block → Block) : (s.onBlocks f).hwqs = s.hwqs := rfl
@[simp] theorem State.onBlocks_journal (s : State) (f : Nat → Block → Block) : (s.onBlocks f).journal = s.journal := rfl
@[simp] theorem State.onBlocks_launches (s : State) (f : Nat → Block → Block) : (s.onBlocks f).launches = s.launches := rfl
@[simp] theorem State.onBlocks_launchOrder (s : State) (f : Nat → Block → Block) : (s.onBlocks f).launchOrder = s.launchOrder := rfl
@[simp] theorem State.onBlocks_age (s : State) (f : Nat → Block → Block) : (s.onBlocks f).age = s.age := rfl
@[simp] theorem State.onBlocks_graphs (s : State) (f : Nat → Block → Block) : (s.onBlocks f).graphs = s.graphs := rfl
@[simp] theorem State.onBlocks_phases (s : State) (f : Nat → Block → Block) : (s.onBlocks f).phases = s.phases := rfl
@[simp] theorem State.onBlocks_jobs (s : State) (f : Nat → Block → Block) : (s.onBlocks f).jobs = s.jobs := rfl
@[simp] theorem State.onBlocks_nodes (s : State) (f : Nat → Block → Block) : (s.onBlocks f).nodes = s.nodes := rfl
@[simp] theorem State.onBlocks_saved (s : State) (f : Nat → Block → Block) : (s.onBlocks f).saved = s.saved := rfl
@[simp] theorem State.onBlocks_saving (s : State) (f : Nat → Block → Block) : (s.onBlocks f).saving = s.saving := rfl
@[simp] theorem State.onBlocks_lastOut (s : State) (f : Nat → Block → Block) : (s.onBlocks f).lastOut = s.lastOut := rfl
@[simp] theorem State.onBlocks_heldClusters (s : State) (f : Nat → Block → Block) : (s.onBlocks f).heldClusters = s.heldClusters := rfl
@[simp] theorem State.onBlocks_cpRotor (s : State) (f : Nat → Block → Block) : (s.onBlocks f).cpRotor = s.cpRotor := rfl
@[simp] theorem State.onBlocks_gov (s : State) (f : Nat → Block → Block) : (s.onBlocks f).gov = s.gov := rfl
@[simp] theorem State.onBlocks_tok (s : State) (f : Nat → Block → Block) : (s.onBlocks f).tok = s.tok := rfl
@[simp] theorem State.onBlocks_mil (s : State) (f : Nat → Block → Block) : (s.onBlocks f).mil = s.mil := rfl
@[simp] theorem State.onBlocks_pkg (s : State) (f : Nat → Block → Block) : (s.onBlocks f).pkg = s.pkg := rfl
@[simp] theorem State.onBlocks_supplyOut (s : State) (f : Nat → Block → Block) : (s.onBlocks f).supplyOut = s.supplyOut := rfl
@[simp] theorem State.onBlocks_keyWait (s : State) (f : Nat → Block → Block) : (s.onBlocks f).keyWait = s.keyWait := rfl
@[simp] theorem State.onBlocks_collNotices (s : State) (f : Nat → Block → Block) : (s.onBlocks f).collNotices = s.collNotices := rfl
@[simp] theorem State.onBlocks_early (s : State) (f : Nat → Block → Block) : (s.onBlocks f).early = s.early := rfl
@[simp] theorem State.onBlocks_combine (s : State) (f : Nat → Block → Block) : (s.onBlocks f).combine = s.combine := rfl
@[simp] theorem State.onBlocks_lost (s : State) (f : Nat → Block → Block) : (s.onBlocks f).lost = s.lost := rfl
@[simp] theorem State.onBlocks_farOut (s : State) (f : Nat → Block → Block) : (s.onBlocks f).farOut = s.farOut := rfl
@[simp] theorem State.onBlocks_scoFatal (s : State) (f : Nat → Block → Block) : (s.onBlocks f).scoFatal = s.scoFatal := rfl
@[simp] theorem State.onBlocks_nodeSignals (s : State) (f : Nat → Block → Block) : (s.onBlocks f).nodeSignals = s.nodeSignals := rfl
@[simp] theorem State.onBlocks_parked (s : State) (f : Nat → Block → Block) : (s.onBlocks f).parked = s.parked := rfl
@[simp] theorem State.onBlocks_running (s : State) (f : Nat → Block → Block) : (s.onBlocks f).running = s.running := rfl

/-! ### State.send -/

@[simp] theorem State.send_clk (s : State) (x : OutMsg) : (s.send x).clk = s.clk := rfl
@[simp] theorem State.send_tick (s : State) (x : OutMsg) : (s.send x).tick = s.tick := rfl
@[simp] theorem State.send_agenda (s : State) (x : OutMsg) : (s.send x).agenda = s.agenda := rfl
@[simp] theorem State.send_inbox (s : State) (x : OutMsg) : (s.send x).inbox = s.inbox := rfl
@[simp] theorem State.send_freeCtr (s : State) (x : OutMsg) : (s.send x).freeCtr = s.freeCtr := rfl
@[simp] theorem State.send_issue (s : State) (x : OutMsg) : (s.send x).issue = s.issue := rfl
@[simp] theorem State.send_issuedParts (s : State) (x : OutMsg) : (s.send x).issuedParts = s.issuedParts := rfl
@[simp] theorem State.send_mem (s : State) (x : OutMsg) : (s.send x).mem = s.mem := rfl
@[simp] theorem State.send_tags (s : State) (x : OutMsg) : (s.send x).tags = s.tags := rfl
@[simp] theorem State.send_poison (s : State) (x : OutMsg) : (s.send x).poison = s.poison := rfl
@[simp] theorem State.send_lostStacks (s : State) (x : OutMsg) : (s.send x).lostStacks = s.lostStacks := rfl
@[simp] theorem State.send_lostSlices (s : State) (x : OutMsg) : (s.send x).lostSlices = s.lostSlices := rfl
@[simp] theorem State.send_sound (s : State) (x : OutMsg) : (s.send x).sound = s.sound := rfl
@[simp] theorem State.send_dirty (s : State) (x : OutMsg) : (s.send x).dirty = s.dirty := rfl
@[simp] theorem State.send_dir (s : State) (x : OutMsg) : (s.send x).dir = s.dir := rfl
@[simp] theorem State.send_peerCopies (s : State) (x : OutMsg) : (s.send x).peerCopies = s.peerCopies := rfl
@[simp] theorem State.send_invalWait (s : State) (x : OutMsg) : (s.send x).invalWait = s.invalWait := rfl
@[simp] theorem State.send_misses (s : State) (x : OutMsg) : (s.send x).misses = s.misses := rfl
@[simp] theorem State.send_ackWait (s : State) (x : OutMsg) : (s.send x).ackWait = s.ackWait := rfl
@[simp] theorem State.send_posted (s : State) (x : OutMsg) : (s.send x).posted = s.posted := rfl
@[simp] theorem State.send_postedNext (s : State) (x : OutMsg) : (s.send x).postedNext = s.postedNext := rfl
@[simp] theorem State.send_out (s : State) (x : OutMsg) : (s.send x).out = s.out ++ [x] := rfl
@[simp] theorem State.send_outDone (s : State) (x : OutMsg) : (s.send x).outDone = s.outDone := rfl
@[simp] theorem State.send_seals (s : State) (x : OutMsg) : (s.send x).seals = s.seals := rfl
@[simp] theorem State.send_egress (s : State) (x : OutMsg) : (s.send x).egress = s.egress := rfl
@[simp] theorem State.send_seqOut (s : State) (x : OutMsg) : (s.send x).seqOut = s.seqOut := rfl
@[simp] theorem State.send_seqIn (s : State) (x : OutMsg) : (s.send x).seqIn = s.seqIn := rfl
@[simp] theorem State.send_reorder (s : State) (x : OutMsg) : (s.send x).reorder = s.reorder := rfl
@[simp] theorem State.send_reorderChains (s : State) (x : OutMsg) : (s.send x).reorderChains = s.reorderChains := rfl
@[simp] theorem State.send_blocks (s : State) (x : OutMsg) : (s.send x).blocks = s.blocks := rfl
@[simp] theorem State.send_pendHigh (s : State) (x : OutMsg) : (s.send x).pendHigh = s.pendHigh := rfl
@[simp] theorem State.send_fetchAsks (s : State) (x : OutMsg) : (s.send x).fetchAsks = s.fetchAsks := rfl
@[simp] theorem State.send_fetchBad (s : State) (x : OutMsg) : (s.send x).fetchBad = s.fetchBad := rfl
@[simp] theorem State.send_mseq (s : State) (x : OutMsg) : (s.send x).mseq = s.mseq := rfl
@[simp] theorem State.send_cores (s : State) (x : OutMsg) : (s.send x).cores = s.cores := rfl
@[simp] theorem State.send_dies (s : State) (x : OutMsg) : (s.send x).dies = s.dies := rfl
@[simp] theorem State.send_stacks (s : State) (x : OutMsg) : (s.send x).hbms = s.hbms := rfl
@[simp] theorem State.send_ports (s : State) (x : OutMsg) : (s.send x).ports = s.ports := rfl
@[simp] theorem State.send_ioMerge (s : State) (x : OutMsg) : (s.send x).ioMerge = s.ioMerge := rfl
@[simp] theorem State.send_faultWait (s : State) (x : OutMsg) : (s.send x).faultWait = s.faultWait := rfl
@[simp] theorem State.send_ctxs (s : State) (x : OutMsg) : (s.send x).ctxs = s.ctxs := rfl
@[simp] theorem State.send_hwqs (s : State) (x : OutMsg) : (s.send x).hwqs = s.hwqs := rfl
@[simp] theorem State.send_journal (s : State) (x : OutMsg) : (s.send x).journal = s.journal := rfl
@[simp] theorem State.send_launches (s : State) (x : OutMsg) : (s.send x).launches = s.launches := rfl
@[simp] theorem State.send_launchOrder (s : State) (x : OutMsg) : (s.send x).launchOrder = s.launchOrder := rfl
@[simp] theorem State.send_age (s : State) (x : OutMsg) : (s.send x).age = s.age := rfl
@[simp] theorem State.send_graphs (s : State) (x : OutMsg) : (s.send x).graphs = s.graphs := rfl
@[simp] theorem State.send_phases (s : State) (x : OutMsg) : (s.send x).phases = s.phases := rfl
@[simp] theorem State.send_jobs (s : State) (x : OutMsg) : (s.send x).jobs = s.jobs := rfl
@[simp] theorem State.send_nodes (s : State) (x : OutMsg) : (s.send x).nodes = s.nodes := rfl
@[simp] theorem State.send_saved (s : State) (x : OutMsg) : (s.send x).saved = s.saved := rfl
@[simp] theorem State.send_saving (s : State) (x : OutMsg) : (s.send x).saving = s.saving := rfl
@[simp] theorem State.send_lastOut (s : State) (x : OutMsg) : (s.send x).lastOut = s.lastOut := rfl
@[simp] theorem State.send_heldClusters (s : State) (x : OutMsg) : (s.send x).heldClusters = s.heldClusters := rfl
@[simp] theorem State.send_cpRotor (s : State) (x : OutMsg) : (s.send x).cpRotor = s.cpRotor := rfl
@[simp] theorem State.send_gov (s : State) (x : OutMsg) : (s.send x).gov = s.gov := rfl
@[simp] theorem State.send_tok (s : State) (x : OutMsg) : (s.send x).tok = s.tok := rfl
@[simp] theorem State.send_mil (s : State) (x : OutMsg) : (s.send x).mil = s.mil := rfl
@[simp] theorem State.send_pkg (s : State) (x : OutMsg) : (s.send x).pkg = s.pkg := rfl
@[simp] theorem State.send_supplyOut (s : State) (x : OutMsg) : (s.send x).supplyOut = s.supplyOut := rfl
@[simp] theorem State.send_keyWait (s : State) (x : OutMsg) : (s.send x).keyWait = s.keyWait := rfl
@[simp] theorem State.send_collNotices (s : State) (x : OutMsg) : (s.send x).collNotices = s.collNotices := rfl
@[simp] theorem State.send_early (s : State) (x : OutMsg) : (s.send x).early = s.early := rfl
@[simp] theorem State.send_combine (s : State) (x : OutMsg) : (s.send x).combine = s.combine := rfl
@[simp] theorem State.send_lost (s : State) (x : OutMsg) : (s.send x).lost = s.lost := rfl
@[simp] theorem State.send_farOut (s : State) (x : OutMsg) : (s.send x).farOut = s.farOut := rfl
@[simp] theorem State.send_scoFatal (s : State) (x : OutMsg) : (s.send x).scoFatal = s.scoFatal := rfl
@[simp] theorem State.send_nodeSignals (s : State) (x : OutMsg) : (s.send x).nodeSignals = s.nodeSignals := rfl
@[simp] theorem State.send_parked (s : State) (x : OutMsg) : (s.send x).parked = s.parked := rfl
@[simp] theorem State.send_running (s : State) (x : OutMsg) : (s.send x).running = s.running := rfl

/-! ### State.later -/

@[simp] theorem State.later_clk (s : State) (t : Nat) (i : Instr) : (s.later t i).clk = s.clk := rfl
@[simp] theorem State.later_tick (s : State) (t : Nat) (i : Instr) : (s.later t i).tick = s.tick := rfl
@[simp] theorem State.later_agenda (s : State) (t : Nat) (i : Instr) : (s.later t i).agenda = s.agenda := rfl
@[simp] theorem State.later_inbox (s : State) (t : Nat) (i : Instr) : (s.later t i).inbox = s.inbox ++ [(t, i)] := rfl
@[simp] theorem State.later_freeCtr (s : State) (t : Nat) (i : Instr) : (s.later t i).freeCtr = s.freeCtr := rfl
@[simp] theorem State.later_issue (s : State) (t : Nat) (i : Instr) : (s.later t i).issue = s.issue := rfl
@[simp] theorem State.later_issuedParts (s : State) (t : Nat) (i : Instr) : (s.later t i).issuedParts = s.issuedParts := rfl
@[simp] theorem State.later_mem (s : State) (t : Nat) (i : Instr) : (s.later t i).mem = s.mem := rfl
@[simp] theorem State.later_tags (s : State) (t : Nat) (i : Instr) : (s.later t i).tags = s.tags := rfl
@[simp] theorem State.later_poison (s : State) (t : Nat) (i : Instr) : (s.later t i).poison = s.poison := rfl
@[simp] theorem State.later_lostStacks (s : State) (t : Nat) (i : Instr) : (s.later t i).lostStacks = s.lostStacks := rfl
@[simp] theorem State.later_lostSlices (s : State) (t : Nat) (i : Instr) : (s.later t i).lostSlices = s.lostSlices := rfl
@[simp] theorem State.later_sound (s : State) (t : Nat) (i : Instr) : (s.later t i).sound = s.sound := rfl
@[simp] theorem State.later_dirty (s : State) (t : Nat) (i : Instr) : (s.later t i).dirty = s.dirty := rfl
@[simp] theorem State.later_dir (s : State) (t : Nat) (i : Instr) : (s.later t i).dir = s.dir := rfl
@[simp] theorem State.later_peerCopies (s : State) (t : Nat) (i : Instr) : (s.later t i).peerCopies = s.peerCopies := rfl
@[simp] theorem State.later_invalWait (s : State) (t : Nat) (i : Instr) : (s.later t i).invalWait = s.invalWait := rfl
@[simp] theorem State.later_misses (s : State) (t : Nat) (i : Instr) : (s.later t i).misses = s.misses := rfl
@[simp] theorem State.later_ackWait (s : State) (t : Nat) (i : Instr) : (s.later t i).ackWait = s.ackWait := rfl
@[simp] theorem State.later_posted (s : State) (t : Nat) (i : Instr) : (s.later t i).posted = s.posted := rfl
@[simp] theorem State.later_postedNext (s : State) (t : Nat) (i : Instr) : (s.later t i).postedNext = s.postedNext := rfl
@[simp] theorem State.later_out (s : State) (t : Nat) (i : Instr) : (s.later t i).out = s.out := rfl
@[simp] theorem State.later_outDone (s : State) (t : Nat) (i : Instr) : (s.later t i).outDone = s.outDone := rfl
@[simp] theorem State.later_seals (s : State) (t : Nat) (i : Instr) : (s.later t i).seals = s.seals := rfl
@[simp] theorem State.later_egress (s : State) (t : Nat) (i : Instr) : (s.later t i).egress = s.egress := rfl
@[simp] theorem State.later_seqOut (s : State) (t : Nat) (i : Instr) : (s.later t i).seqOut = s.seqOut := rfl
@[simp] theorem State.later_seqIn (s : State) (t : Nat) (i : Instr) : (s.later t i).seqIn = s.seqIn := rfl
@[simp] theorem State.later_reorder (s : State) (t : Nat) (i : Instr) : (s.later t i).reorder = s.reorder := rfl
@[simp] theorem State.later_reorderChains (s : State) (t : Nat) (i : Instr) : (s.later t i).reorderChains = s.reorderChains := rfl
@[simp] theorem State.later_blocks (s : State) (t : Nat) (i : Instr) : (s.later t i).blocks = s.blocks := rfl
@[simp] theorem State.later_pendHigh (s : State) (t : Nat) (i : Instr) : (s.later t i).pendHigh = s.pendHigh := rfl
@[simp] theorem State.later_fetchAsks (s : State) (t : Nat) (i : Instr) : (s.later t i).fetchAsks = s.fetchAsks := rfl
@[simp] theorem State.later_fetchBad (s : State) (t : Nat) (i : Instr) : (s.later t i).fetchBad = s.fetchBad := rfl
@[simp] theorem State.later_mseq (s : State) (t : Nat) (i : Instr) : (s.later t i).mseq = s.mseq := rfl
@[simp] theorem State.later_cores (s : State) (t : Nat) (i : Instr) : (s.later t i).cores = s.cores := rfl
@[simp] theorem State.later_dies (s : State) (t : Nat) (i : Instr) : (s.later t i).dies = s.dies := rfl
@[simp] theorem State.later_stacks (s : State) (t : Nat) (i : Instr) : (s.later t i).hbms = s.hbms := rfl
@[simp] theorem State.later_ports (s : State) (t : Nat) (i : Instr) : (s.later t i).ports = s.ports := rfl
@[simp] theorem State.later_ioMerge (s : State) (t : Nat) (i : Instr) : (s.later t i).ioMerge = s.ioMerge := rfl
@[simp] theorem State.later_faultWait (s : State) (t : Nat) (i : Instr) : (s.later t i).faultWait = s.faultWait := rfl
@[simp] theorem State.later_ctxs (s : State) (t : Nat) (i : Instr) : (s.later t i).ctxs = s.ctxs := rfl
@[simp] theorem State.later_hwqs (s : State) (t : Nat) (i : Instr) : (s.later t i).hwqs = s.hwqs := rfl
@[simp] theorem State.later_journal (s : State) (t : Nat) (i : Instr) : (s.later t i).journal = s.journal := rfl
@[simp] theorem State.later_launches (s : State) (t : Nat) (i : Instr) : (s.later t i).launches = s.launches := rfl
@[simp] theorem State.later_launchOrder (s : State) (t : Nat) (i : Instr) : (s.later t i).launchOrder = s.launchOrder := rfl
@[simp] theorem State.later_age (s : State) (t : Nat) (i : Instr) : (s.later t i).age = s.age := rfl
@[simp] theorem State.later_graphs (s : State) (t : Nat) (i : Instr) : (s.later t i).graphs = s.graphs := rfl
@[simp] theorem State.later_phases (s : State) (t : Nat) (i : Instr) : (s.later t i).phases = s.phases := rfl
@[simp] theorem State.later_jobs (s : State) (t : Nat) (i : Instr) : (s.later t i).jobs = s.jobs := rfl
@[simp] theorem State.later_nodes (s : State) (t : Nat) (i : Instr) : (s.later t i).nodes = s.nodes := rfl
@[simp] theorem State.later_saved (s : State) (t : Nat) (i : Instr) : (s.later t i).saved = s.saved := rfl
@[simp] theorem State.later_saving (s : State) (t : Nat) (i : Instr) : (s.later t i).saving = s.saving := rfl
@[simp] theorem State.later_lastOut (s : State) (t : Nat) (i : Instr) : (s.later t i).lastOut = s.lastOut := rfl
@[simp] theorem State.later_heldClusters (s : State) (t : Nat) (i : Instr) : (s.later t i).heldClusters = s.heldClusters := rfl
@[simp] theorem State.later_cpRotor (s : State) (t : Nat) (i : Instr) : (s.later t i).cpRotor = s.cpRotor := rfl
@[simp] theorem State.later_gov (s : State) (t : Nat) (i : Instr) : (s.later t i).gov = s.gov := rfl
@[simp] theorem State.later_tok (s : State) (t : Nat) (i : Instr) : (s.later t i).tok = s.tok := rfl
@[simp] theorem State.later_mil (s : State) (t : Nat) (i : Instr) : (s.later t i).mil = s.mil := rfl
@[simp] theorem State.later_pkg (s : State) (t : Nat) (i : Instr) : (s.later t i).pkg = s.pkg := rfl
@[simp] theorem State.later_supplyOut (s : State) (t : Nat) (i : Instr) : (s.later t i).supplyOut = s.supplyOut := rfl
@[simp] theorem State.later_keyWait (s : State) (t : Nat) (i : Instr) : (s.later t i).keyWait = s.keyWait := rfl
@[simp] theorem State.later_collNotices (s : State) (t : Nat) (i : Instr) : (s.later t i).collNotices = s.collNotices := rfl
@[simp] theorem State.later_early (s : State) (t : Nat) (i : Instr) : (s.later t i).early = s.early := rfl
@[simp] theorem State.later_combine (s : State) (t : Nat) (i : Instr) : (s.later t i).combine = s.combine := rfl
@[simp] theorem State.later_lost (s : State) (t : Nat) (i : Instr) : (s.later t i).lost = s.lost := rfl
@[simp] theorem State.later_farOut (s : State) (t : Nat) (i : Instr) : (s.later t i).farOut = s.farOut := rfl
@[simp] theorem State.later_scoFatal (s : State) (t : Nat) (i : Instr) : (s.later t i).scoFatal = s.scoFatal := rfl
@[simp] theorem State.later_nodeSignals (s : State) (t : Nat) (i : Instr) : (s.later t i).nodeSignals = s.nodeSignals := rfl
@[simp] theorem State.later_parked (s : State) (t : Nat) (i : Instr) : (s.later t i).parked = s.parked := rfl
@[simp] theorem State.later_running (s : State) (t : Nat) (i : Instr) : (s.later t i).running = s.running := rfl

/-! ### State.soon -/

@[simp] theorem State.soon_clk (s : State) (i : Instr) : (s.soon i).clk = s.clk := rfl
@[simp] theorem State.soon_tick (s : State) (i : Instr) : (s.soon i).tick = s.tick := rfl
@[simp] theorem State.soon_agenda (s : State) (i : Instr) : (s.soon i).agenda = s.agenda := rfl
@[simp] theorem State.soon_inbox (s : State) (i : Instr) : (s.soon i).inbox = s.inbox ++ [(s.clk.toNat, i)] := rfl
@[simp] theorem State.soon_freeCtr (s : State) (i : Instr) : (s.soon i).freeCtr = s.freeCtr := rfl
@[simp] theorem State.soon_issue (s : State) (i : Instr) : (s.soon i).issue = s.issue := rfl
@[simp] theorem State.soon_issuedParts (s : State) (i : Instr) : (s.soon i).issuedParts = s.issuedParts := rfl
@[simp] theorem State.soon_mem (s : State) (i : Instr) : (s.soon i).mem = s.mem := rfl
@[simp] theorem State.soon_tags (s : State) (i : Instr) : (s.soon i).tags = s.tags := rfl
@[simp] theorem State.soon_poison (s : State) (i : Instr) : (s.soon i).poison = s.poison := rfl
@[simp] theorem State.soon_lostStacks (s : State) (i : Instr) : (s.soon i).lostStacks = s.lostStacks := rfl
@[simp] theorem State.soon_lostSlices (s : State) (i : Instr) : (s.soon i).lostSlices = s.lostSlices := rfl
@[simp] theorem State.soon_sound (s : State) (i : Instr) : (s.soon i).sound = s.sound := rfl
@[simp] theorem State.soon_dirty (s : State) (i : Instr) : (s.soon i).dirty = s.dirty := rfl
@[simp] theorem State.soon_dir (s : State) (i : Instr) : (s.soon i).dir = s.dir := rfl
@[simp] theorem State.soon_peerCopies (s : State) (i : Instr) : (s.soon i).peerCopies = s.peerCopies := rfl
@[simp] theorem State.soon_invalWait (s : State) (i : Instr) : (s.soon i).invalWait = s.invalWait := rfl
@[simp] theorem State.soon_misses (s : State) (i : Instr) : (s.soon i).misses = s.misses := rfl
@[simp] theorem State.soon_ackWait (s : State) (i : Instr) : (s.soon i).ackWait = s.ackWait := rfl
@[simp] theorem State.soon_posted (s : State) (i : Instr) : (s.soon i).posted = s.posted := rfl
@[simp] theorem State.soon_postedNext (s : State) (i : Instr) : (s.soon i).postedNext = s.postedNext := rfl
@[simp] theorem State.soon_out (s : State) (i : Instr) : (s.soon i).out = s.out := rfl
@[simp] theorem State.soon_outDone (s : State) (i : Instr) : (s.soon i).outDone = s.outDone := rfl
@[simp] theorem State.soon_seals (s : State) (i : Instr) : (s.soon i).seals = s.seals := rfl
@[simp] theorem State.soon_egress (s : State) (i : Instr) : (s.soon i).egress = s.egress := rfl
@[simp] theorem State.soon_seqOut (s : State) (i : Instr) : (s.soon i).seqOut = s.seqOut := rfl
@[simp] theorem State.soon_seqIn (s : State) (i : Instr) : (s.soon i).seqIn = s.seqIn := rfl
@[simp] theorem State.soon_reorder (s : State) (i : Instr) : (s.soon i).reorder = s.reorder := rfl
@[simp] theorem State.soon_reorderChains (s : State) (i : Instr) : (s.soon i).reorderChains = s.reorderChains := rfl
@[simp] theorem State.soon_blocks (s : State) (i : Instr) : (s.soon i).blocks = s.blocks := rfl
@[simp] theorem State.soon_pendHigh (s : State) (i : Instr) : (s.soon i).pendHigh = s.pendHigh := rfl
@[simp] theorem State.soon_fetchAsks (s : State) (i : Instr) : (s.soon i).fetchAsks = s.fetchAsks := rfl
@[simp] theorem State.soon_fetchBad (s : State) (i : Instr) : (s.soon i).fetchBad = s.fetchBad := rfl
@[simp] theorem State.soon_mseq (s : State) (i : Instr) : (s.soon i).mseq = s.mseq := rfl
@[simp] theorem State.soon_cores (s : State) (i : Instr) : (s.soon i).cores = s.cores := rfl
@[simp] theorem State.soon_dies (s : State) (i : Instr) : (s.soon i).dies = s.dies := rfl
@[simp] theorem State.soon_stacks (s : State) (i : Instr) : (s.soon i).hbms = s.hbms := rfl
@[simp] theorem State.soon_ports (s : State) (i : Instr) : (s.soon i).ports = s.ports := rfl
@[simp] theorem State.soon_ioMerge (s : State) (i : Instr) : (s.soon i).ioMerge = s.ioMerge := rfl
@[simp] theorem State.soon_faultWait (s : State) (i : Instr) : (s.soon i).faultWait = s.faultWait := rfl
@[simp] theorem State.soon_ctxs (s : State) (i : Instr) : (s.soon i).ctxs = s.ctxs := rfl
@[simp] theorem State.soon_hwqs (s : State) (i : Instr) : (s.soon i).hwqs = s.hwqs := rfl
@[simp] theorem State.soon_journal (s : State) (i : Instr) : (s.soon i).journal = s.journal := rfl
@[simp] theorem State.soon_launches (s : State) (i : Instr) : (s.soon i).launches = s.launches := rfl
@[simp] theorem State.soon_launchOrder (s : State) (i : Instr) : (s.soon i).launchOrder = s.launchOrder := rfl
@[simp] theorem State.soon_age (s : State) (i : Instr) : (s.soon i).age = s.age := rfl
@[simp] theorem State.soon_graphs (s : State) (i : Instr) : (s.soon i).graphs = s.graphs := rfl
@[simp] theorem State.soon_phases (s : State) (i : Instr) : (s.soon i).phases = s.phases := rfl
@[simp] theorem State.soon_jobs (s : State) (i : Instr) : (s.soon i).jobs = s.jobs := rfl
@[simp] theorem State.soon_nodes (s : State) (i : Instr) : (s.soon i).nodes = s.nodes := rfl
@[simp] theorem State.soon_saved (s : State) (i : Instr) : (s.soon i).saved = s.saved := rfl
@[simp] theorem State.soon_saving (s : State) (i : Instr) : (s.soon i).saving = s.saving := rfl
@[simp] theorem State.soon_lastOut (s : State) (i : Instr) : (s.soon i).lastOut = s.lastOut := rfl
@[simp] theorem State.soon_heldClusters (s : State) (i : Instr) : (s.soon i).heldClusters = s.heldClusters := rfl
@[simp] theorem State.soon_cpRotor (s : State) (i : Instr) : (s.soon i).cpRotor = s.cpRotor := rfl
@[simp] theorem State.soon_gov (s : State) (i : Instr) : (s.soon i).gov = s.gov := rfl
@[simp] theorem State.soon_tok (s : State) (i : Instr) : (s.soon i).tok = s.tok := rfl
@[simp] theorem State.soon_mil (s : State) (i : Instr) : (s.soon i).mil = s.mil := rfl
@[simp] theorem State.soon_pkg (s : State) (i : Instr) : (s.soon i).pkg = s.pkg := rfl
@[simp] theorem State.soon_supplyOut (s : State) (i : Instr) : (s.soon i).supplyOut = s.supplyOut := rfl
@[simp] theorem State.soon_keyWait (s : State) (i : Instr) : (s.soon i).keyWait = s.keyWait := rfl
@[simp] theorem State.soon_collNotices (s : State) (i : Instr) : (s.soon i).collNotices = s.collNotices := rfl
@[simp] theorem State.soon_early (s : State) (i : Instr) : (s.soon i).early = s.early := rfl
@[simp] theorem State.soon_combine (s : State) (i : Instr) : (s.soon i).combine = s.combine := rfl
@[simp] theorem State.soon_lost (s : State) (i : Instr) : (s.soon i).lost = s.lost := rfl
@[simp] theorem State.soon_farOut (s : State) (i : Instr) : (s.soon i).farOut = s.farOut := rfl
@[simp] theorem State.soon_scoFatal (s : State) (i : Instr) : (s.soon i).scoFatal = s.scoFatal := rfl
@[simp] theorem State.soon_nodeSignals (s : State) (i : Instr) : (s.soon i).nodeSignals = s.nodeSignals := rfl
@[simp] theorem State.soon_parked (s : State) (i : Instr) : (s.soon i).parked = s.parked := rfl
@[simp] theorem State.soon_running (s : State) (i : Instr) : (s.soon i).running = s.running := rfl

/-! ### Parts of a block, a wave and a lane -/

@[simp] theorem Block.setWave_launch (b : Block) (i : Nat) (x : Wave) : (b.setWave i x).launch = b.launch := rfl
@[simp] theorem Block.setWave_index (b : Block) (i : Nat) (x : Wave) : (b.setWave i x).index = b.index := rfl
@[simp] theorem Block.setWave_ctx (b : Block) (i : Nat) (x : Wave) : (b.setWave i x).ctx = b.ctx := rfl
@[simp] theorem Block.setWave_prio (b : Block) (i : Nat) (x : Wave) : (b.setWave i x).prio = b.prio := rfl
@[simp] theorem Block.setWave_p0 (b : Block) (i : Nat) (x : Wave) : (b.setWave i x).p0 = b.p0 := rfl
@[simp] theorem Block.setWave_regs (b : Block) (i : Nat) (x : Wave) : (b.setWave i x).regs = b.regs := rfl
@[simp] theorem Block.setWave_spadSize (b : Block) (i : Nat) (x : Wave) : (b.setWave i x).spadSize = b.spadSize := rfl
@[simp] theorem Block.setWave_entry (b : Block) (i : Nat) (x : Wave) : (b.setWave i x).entry = b.entry := rfl
@[simp] theorem Block.setWave_entered (b : Block) (i : Nat) (x : Wave) : (b.setWave i x).entered = b.entered := rfl
@[simp] theorem Block.setWave_age (b : Block) (i : Nat) (x : Wave) : (b.setWave i x).age = b.age := rfl
@[simp] theorem Block.setWave_waves (b : Block) (i : Nat) (x : Wave) : (b.setWave i x).waves = lset b.waves i x := rfl
@[simp] theorem Block.setWave_spad (b : Block) (i : Nat) (x : Wave) : (b.setWave i x).spad = b.spad := rfl
@[simp] theorem Block.setWave_spadTags (b : Block) (i : Nat) (x : Wave) : (b.setWave i x).spadTags = b.spadTags := rfl
@[simp] theorem Block.setWave_bars (b : Block) (i : Nat) (x : Wave) : (b.setWave i x).bars = b.bars := rfl
@[simp] theorem Block.setWave_queues (b : Block) (i : Nat) (x : Wave) : (b.setWave i x).queues = b.queues := rfl
@[simp] theorem Block.setWave_params (b : Block) (i : Nat) (x : Wave) : (b.setWave i x).params = b.params := rfl
@[simp] theorem Block.setWave_trapOnParam (b : Block) (i : Nat) (x : Wave) : (b.setWave i x).trapOnParam = b.trapOnParam := rfl
@[simp] theorem Block.setWave_seq (b : Block) (i : Nat) (x : Wave) : (b.setWave i x).seq = b.seq := rfl
@[simp] theorem Block.setWave_stopped (b : Block) (i : Nat) (x : Wave) : (b.setWave i x).stopped = b.stopped := rfl
@[simp] theorem Block.setWave_saving (b : Block) (i : Nat) (x : Wave) : (b.setWave i x).saving = b.saving := rfl
@[simp] theorem Wave.mapLanes_w (w : Wave) (f : Nat → Lane → Lane) : (w.mapLanes f).w = w.w := rfl
@[simp] theorem Wave.setLane_w (w : Wave) (i : Nat) (x : Lane) : (w.setLane i x).w = w.w := by unfold Wave.setLane; split <;> rfl
@[simp] theorem Wave.mapLanes_s (w : Wave) (f : Nat → Lane → Lane) : (w.mapLanes f).s = w.s := rfl
@[simp] theorem Wave.setLane_s (w : Wave) (i : Nat) (x : Lane) : (w.setLane i x).s = w.s := by unfold Wave.setLane; split <;> rfl
@[simp] theorem Wave.mapLanes_rot (w : Wave) (f : Nat → Lane → Lane) : (w.mapLanes f).rot = w.rot := rfl
@[simp] theorem Wave.setLane_rot (w : Wave) (i : Nat) (x : Lane) : (w.setLane i x).rot = w.rot := by unfold Wave.setLane; split <;> rfl
@[simp] theorem Wave.mapLanes_rotKept (w : Wave) (f : Nat → Lane → Lane) : (w.mapLanes f).rotKept = w.rotKept := rfl
@[simp] theorem Wave.setLane_rotKept (w : Wave) (i : Nat) (x : Lane) : (w.setLane i x).rotKept = w.rotKept := by unfold Wave.setLane; split <;> rfl
@[simp] theorem Wave.mapLanes_pend (w : Wave) (f : Nat → Lane → Lane) : (w.mapLanes f).pend = w.pend := rfl
@[simp] theorem Wave.setLane_pend (w : Wave) (i : Nat) (x : Lane) : (w.setLane i x).pend = w.pend := by unfold Wave.setLane; split <;> rfl
@[simp] theorem Wave.mapLanes_pendNext (w : Wave) (f : Nat → Lane → Lane) : (w.mapLanes f).pendNext = w.pendNext := rfl
@[simp] theorem Wave.setLane_pendNext (w : Wave) (i : Nat) (x : Lane) : (w.setLane i x).pendNext = w.pendNext := by unfold Wave.setLane; split <;> rfl
@[simp] theorem Wave.mapLanes_opStore (w : Wave) (f : Nat → Lane → Lane) : (w.mapLanes f).opStore = w.opStore := rfl
@[simp] theorem Wave.setLane_opStore (w : Wave) (i : Nat) (x : Lane) : (w.setLane i x).opStore = w.opStore := by unfold Wave.setLane; split <;> rfl
@[simp] theorem Wave.mapLanes_region (w : Wave) (f : Nat → Lane → Lane) : (w.mapLanes f).region = w.region := rfl
@[simp] theorem Wave.setLane_region (w : Wave) (i : Nat) (x : Lane) : (w.setLane i x).region = w.region := by unfold Wave.setLane; split <;> rfl
@[simp] theorem Wave.mapLanes_commit (w : Wave) (f : Nat → Lane → Lane) : (w.mapLanes f).commit = w.commit := rfl
@[simp] theorem Wave.setLane_commit (w : Wave) (i : Nat) (x : Lane) : (w.setLane i x).commit = w.commit := by unfold Wave.setLane; split <;> rfl
@[simp] theorem Wave.mapLanes_fpstat (w : Wave) (f : Nat → Lane → Lane) : (w.mapLanes f).fpstat = w.fpstat := rfl
@[simp] theorem Wave.setLane_fpstat (w : Wave) (i : Nat) (x : Lane) : (w.setLane i x).fpstat = w.fpstat := by unfold Wave.setLane; split <;> rfl
@[simp] theorem Wave.mapLanes_phases (w : Wave) (f : Nat → Lane → Lane) : (w.mapLanes f).phases = w.phases := rfl
@[simp] theorem Wave.setLane_phases (w : Wave) (i : Nat) (x : Lane) : (w.setLane i x).phases = w.phases := by unfold Wave.setLane; split <;> rfl
@[simp] theorem Wave.mapLanes_launchPhase (w : Wave) (f : Nat → Lane → Lane) : (w.mapLanes f).launchPhase = w.launchPhase := rfl
@[simp] theorem Wave.setLane_launchPhase (w : Wave) (i : Nat) (x : Lane) : (w.setLane i x).launchPhase = w.launchPhase := by unfold Wave.setLane; split <;> rfl
@[simp] theorem Wave.mapLanes_popped (w : Wave) (f : Nat → Lane → Lane) : (w.mapLanes f).popped = w.popped := rfl
@[simp] theorem Wave.setLane_popped (w : Wave) (i : Nat) (x : Lane) : (w.setLane i x).popped = w.popped := by unfold Wave.setLane; split <;> rfl
@[simp] theorem Wave.mapLanes_trapMode (w : Wave) (f : Nat → Lane → Lane) : (w.mapLanes f).trapMode = w.trapMode := rfl
@[simp] theorem Wave.setLane_trapMode (w : Wave) (i : Nat) (x : Lane) : (w.setLane i x).trapMode = w.trapMode := by unfold Wave.setLane; split <;> rfl
@[simp] theorem Wave.mapLanes_trapped (w : Wave) (f : Nat → Lane → Lane) : (w.mapLanes f).trapped = w.trapped := rfl
@[simp] theorem Wave.setLane_trapped (w : Wave) (i : Nat) (x : Lane) : (w.setLane i x).trapped = w.trapped := by unfold Wave.setLane; split <;> rfl
@[simp] theorem Wave.mapLanes_trapCause (w : Wave) (f : Nat → Lane → Lane) : (w.mapLanes f).trapCause = w.trapCause := rfl
@[simp] theorem Wave.setLane_trapCause (w : Wave) (i : Nat) (x : Lane) : (w.setLane i x).trapCause = w.trapCause := by unfold Wave.setLane; split <;> rfl
@[simp] theorem Wave.mapLanes_trapPc (w : Wave) (f : Nat → Lane → Lane) : (w.mapLanes f).trapPc = w.trapPc := rfl
@[simp] theorem Wave.setLane_trapPc (w : Wave) (i : Nat) (x : Lane) : (w.setLane i x).trapPc = w.trapPc := by unfold Wave.setLane; split <;> rfl
@[simp] theorem Wave.mapLanes_clkhi (w : Wave) (f : Nat → Lane → Lane) : (w.mapLanes f).clkhi = w.clkhi := rfl
@[simp] theorem Wave.setLane_clkhi (w : Wave) (i : Nat) (x : Lane) : (w.setLane i x).clkhi = w.clkhi := by unfold Wave.setLane; split <;> rfl
@[simp] theorem Wave.mapLanes_capqMin (w : Wave) (f : Nat → Lane → Lane) : (w.mapLanes f).capqMin = w.capqMin := rfl
@[simp] theorem Wave.setLane_capqMin (w : Wave) (i : Nat) (x : Lane) : (w.setLane i x).capqMin = w.capqMin := by unfold Wave.setLane; split <;> rfl
@[simp] theorem Wave.mapLanes_stall (w : Wave) (f : Nat → Lane → Lane) : (w.mapLanes f).stall = w.stall := rfl
@[simp] theorem Wave.setLane_stall (w : Wave) (i : Nat) (x : Lane) : (w.setLane i x).stall = w.stall := by unfold Wave.setLane; split <;> rfl
@[simp] theorem Wave.mapLanes_held (w : Wave) (f : Nat → Lane → Lane) : (w.mapLanes f).held = w.held := rfl
@[simp] theorem Wave.setLane_held (w : Wave) (i : Nat) (x : Lane) : (w.setLane i x).held = w.held := by unfold Wave.setLane; split <;> rfl
@[simp] theorem Wave.mapLanes_offered (w : Wave) (f : Nat → Lane → Lane) : (w.mapLanes f).offered = w.offered := rfl
@[simp] theorem Wave.setLane_offered (w : Wave) (i : Nat) (x : Lane) : (w.setLane i x).offered = w.offered := by unfold Wave.setLane; split <;> rfl
@[simp] theorem Wave.mapLanes_yielded (w : Wave) (f : Nat → Lane → Lane) : (w.mapLanes f).yielded = w.yielded := rfl
@[simp] theorem Wave.setLane_yielded (w : Wave) (i : Nat) (x : Lane) : (w.setLane i x).yielded = w.yielded := by unfold Wave.setLane; split <;> rfl
@[simp] theorem Wave.mapLanes_acks (w : Wave) (f : Nat → Lane → Lane) : (w.mapLanes f).acks = w.acks := rfl
@[simp] theorem Wave.setLane_acks (w : Wave) (i : Nat) (x : Lane) : (w.setLane i x).acks = w.acks := by unfold Wave.setLane; split <;> rfl

/-! ### Reading a part after its update -/

@[simp] theorem State.core_setCore (s : State) (n m : Nat) (x : Core) : (s.setCore n x).core m = if m = n then x else s.core m := tget_tset _ _ _ _ _
@[simp] theorem State.ctx_setCtx (s : State) (n m : Nat) (x : Ctx) : (s.setCtx n x).ctx m = if m = n then x else s.ctx m := tget_tset _ _ _ _ _
@[simp] theorem State.hwq_setHwq (s : State) (n m : Nat) (x : Hwq) : (s.setHwq n x).hwq m = if m = n then x else s.hwq m := tget_tset _ _ _ _ _
@[simp] theorem State.launch_setLaunch (s : State) (n m : Nat) (x : LaunchSlot) : (s.setLaunch n x).launch m = if m = n then x else s.launch m := tget_tset _ _ _ _ _
@[simp] theorem State.graph_setGraph (s : State) (n m : Nat) (x : LevelSlot) : (s.setGraph n x).graph m = if m = n then x else s.graph m := tget_tset _ _ _ _ _
@[simp] theorem State.phase_setPhase (s : State) (n m : Nat) (x : LevelSlot) : (s.setPhase n x).phase m = if m = n then x else s.phase m := tget_tset _ _ _ _ _
@[simp] theorem State.job_setJob (s : State) (n m : Nat) (x : LevelSlot) : (s.setJob n x).job m = if m = n then x else s.job m := tget_tset _ _ _ _ _
@[simp] theorem State.node_setNode (s : State) (n m : Nat) (x : Node) : (s.setNode n x).node m = if m = n then x else s.node m := tget_tset _ _ _ _ _
theorem State.die_setDie (s : State) (n m : Nat) (x : Die) (h : n < s.dies.length) : (s.setDie n x).die m = if m = n then x else s.die m := lget_lset _ _ _ _ _ h
theorem State.stack_setStack (s : State) (n m : Nat) (x : Stack) (h : n < s.hbms.length) : (s.setStack n x).stack m = if m = n then x else s.stack m := lget_lset _ _ _ _ _ h
theorem State.port_setPort (s : State) (n m : Nat) (x : Port) (h : n < s.ports.length) : (s.setPort n x).port m = if m = n then x else s.port m := lget_lset _ _ _ _ _ h
@[simp] theorem State.block_setBlock (s : State) (n m : Nat) (x : Block) : (s.setBlock n x).block? m = if m = n then some x else s.block? m := tfind_tput _ _ _ _
@[simp] theorem State.block_delBlock (s : State) (n m : Nat) : (s.delBlock n).block? m = if m = n then none else s.block? m := tfind_tdel _ _ _
@[simp] theorem State.die_setCore_frame (s : State) (c : Nat) (x : Core) (m : Nat) : (s.setCore c x).die m = s.die m := rfl
@[simp] theorem State.stack_setCore_frame (s : State) (c : Nat) (x : Core) (m : Nat) : (s.setCore c x).stack m = s.stack m := rfl
@[simp] theorem State.port_setCore_frame (s : State) (c : Nat) (x : Core) (m : Nat) : (s.setCore c x).port m = s.port m := rfl
@[simp] theorem State.ctx_setCore_frame (s : State) (c : Nat) (x : Core) (m : Nat) : (s.setCore c x).ctx m = s.ctx m := rfl
@[simp] theorem State.hwq_setCore_frame (s : State) (c : Nat) (x : Core) (m : Nat) : (s.setCore c x).hwq m = s.hwq m := rfl
@[simp] theorem State.launch_setCore_frame (s : State) (c : Nat) (x : Core) (m : Nat) : (s.setCore c x).launch m = s.launch m := rfl
@[simp] theorem State.graph_setCore_frame (s : State) (c : Nat) (x : Core) (m : Nat) : (s.setCore c x).graph m = s.graph m := rfl
@[simp] theorem State.phase_setCore_frame (s : State) (c : Nat) (x : Core) (m : Nat) : (s.setCore c x).phase m = s.phase m := rfl
@[simp] theorem State.job_setCore_frame (s : State) (c : Nat) (x : Core) (m : Nat) : (s.setCore c x).job m = s.job m := rfl
@[simp] theorem State.node_setCore_frame (s : State) (c : Nat) (x : Core) (m : Nat) : (s.setCore c x).node m = s.node m := rfl
@[simp] theorem State.block_setCore_frame (s : State) (c : Nat) (x : Core) (m : Nat) : (s.setCore c x).block? m = s.block? m := rfl
@[simp] theorem State.core_setDie_frame (s : State) (d : Nat) (x : Die) (m : Nat) : (s.setDie d x).core m = s.core m := rfl
@[simp] theorem State.stack_setDie_frame (s : State) (d : Nat) (x : Die) (m : Nat) : (s.setDie d x).stack m = s.stack m := rfl
@[simp] theorem State.port_setDie_frame (s : State) (d : Nat) (x : Die) (m : Nat) : (s.setDie d x).port m = s.port m := rfl
@[simp] theorem State.ctx_setDie_frame (s : State) (d : Nat) (x : Die) (m : Nat) : (s.setDie d x).ctx m = s.ctx m := rfl
@[simp] theorem State.hwq_setDie_frame (s : State) (d : Nat) (x : Die) (m : Nat) : (s.setDie d x).hwq m = s.hwq m := rfl
@[simp] theorem State.launch_setDie_frame (s : State) (d : Nat) (x : Die) (m : Nat) : (s.setDie d x).launch m = s.launch m := rfl
@[simp] theorem State.graph_setDie_frame (s : State) (d : Nat) (x : Die) (m : Nat) : (s.setDie d x).graph m = s.graph m := rfl
@[simp] theorem State.phase_setDie_frame (s : State) (d : Nat) (x : Die) (m : Nat) : (s.setDie d x).phase m = s.phase m := rfl
@[simp] theorem State.job_setDie_frame (s : State) (d : Nat) (x : Die) (m : Nat) : (s.setDie d x).job m = s.job m := rfl
@[simp] theorem State.node_setDie_frame (s : State) (d : Nat) (x : Die) (m : Nat) : (s.setDie d x).node m = s.node m := rfl
@[simp] theorem State.block_setDie_frame (s : State) (d : Nat) (x : Die) (m : Nat) : (s.setDie d x).block? m = s.block? m := rfl
@[simp] theorem State.core_setStack_frame (s : State) (k : Nat) (x : Stack) (m : Nat) : (s.setStack k x).core m = s.core m := rfl
@[simp] theorem State.die_setStack_frame (s : State) (k : Nat) (x : Stack) (m : Nat) : (s.setStack k x).die m = s.die m := rfl
@[simp] theorem State.port_setStack_frame (s : State) (k : Nat) (x : Stack) (m : Nat) : (s.setStack k x).port m = s.port m := rfl
@[simp] theorem State.ctx_setStack_frame (s : State) (k : Nat) (x : Stack) (m : Nat) : (s.setStack k x).ctx m = s.ctx m := rfl
@[simp] theorem State.hwq_setStack_frame (s : State) (k : Nat) (x : Stack) (m : Nat) : (s.setStack k x).hwq m = s.hwq m := rfl
@[simp] theorem State.launch_setStack_frame (s : State) (k : Nat) (x : Stack) (m : Nat) : (s.setStack k x).launch m = s.launch m := rfl
@[simp] theorem State.graph_setStack_frame (s : State) (k : Nat) (x : Stack) (m : Nat) : (s.setStack k x).graph m = s.graph m := rfl
@[simp] theorem State.phase_setStack_frame (s : State) (k : Nat) (x : Stack) (m : Nat) : (s.setStack k x).phase m = s.phase m := rfl
@[simp] theorem State.job_setStack_frame (s : State) (k : Nat) (x : Stack) (m : Nat) : (s.setStack k x).job m = s.job m := rfl
@[simp] theorem State.node_setStack_frame (s : State) (k : Nat) (x : Stack) (m : Nat) : (s.setStack k x).node m = s.node m := rfl
@[simp] theorem State.block_setStack_frame (s : State) (k : Nat) (x : Stack) (m : Nat) : (s.setStack k x).block? m = s.block? m := rfl
@[simp] theorem State.core_setPort_frame (s : State) (p : Nat) (x : Port) (m : Nat) : (s.setPort p x).core m = s.core m := rfl
@[simp] theorem State.die_setPort_frame (s : State) (p : Nat) (x : Port) (m : Nat) : (s.setPort p x).die m = s.die m := rfl
@[simp] theorem State.stack_setPort_frame (s : State) (p : Nat) (x : Port) (m : Nat) : (s.setPort p x).stack m = s.stack m := rfl
@[simp] theorem State.ctx_setPort_frame (s : State) (p : Nat) (x : Port) (m : Nat) : (s.setPort p x).ctx m = s.ctx m := rfl
@[simp] theorem State.hwq_setPort_frame (s : State) (p : Nat) (x : Port) (m : Nat) : (s.setPort p x).hwq m = s.hwq m := rfl
@[simp] theorem State.launch_setPort_frame (s : State) (p : Nat) (x : Port) (m : Nat) : (s.setPort p x).launch m = s.launch m := rfl
@[simp] theorem State.graph_setPort_frame (s : State) (p : Nat) (x : Port) (m : Nat) : (s.setPort p x).graph m = s.graph m := rfl
@[simp] theorem State.phase_setPort_frame (s : State) (p : Nat) (x : Port) (m : Nat) : (s.setPort p x).phase m = s.phase m := rfl
@[simp] theorem State.job_setPort_frame (s : State) (p : Nat) (x : Port) (m : Nat) : (s.setPort p x).job m = s.job m := rfl
@[simp] theorem State.node_setPort_frame (s : State) (p : Nat) (x : Port) (m : Nat) : (s.setPort p x).node m = s.node m := rfl
@[simp] theorem State.block_setPort_frame (s : State) (p : Nat) (x : Port) (m : Nat) : (s.setPort p x).block? m = s.block? m := rfl
@[simp] theorem State.core_setCtx_frame (s : State) (c : Nat) (x : Ctx) (m : Nat) : (s.setCtx c x).core m = s.core m := rfl
@[simp] theorem State.die_setCtx_frame (s : State) (c : Nat) (x : Ctx) (m : Nat) : (s.setCtx c x).die m = s.die m := rfl
@[simp] theorem State.stack_setCtx_frame (s : State) (c : Nat) (x : Ctx) (m : Nat) : (s.setCtx c x).stack m = s.stack m := rfl
@[simp] theorem State.port_setCtx_frame (s : State) (c : Nat) (x : Ctx) (m : Nat) : (s.setCtx c x).port m = s.port m := rfl
@[simp] theorem State.hwq_setCtx_frame (s : State) (c : Nat) (x : Ctx) (m : Nat) : (s.setCtx c x).hwq m = s.hwq m := rfl
@[simp] theorem State.launch_setCtx_frame (s : State) (c : Nat) (x : Ctx) (m : Nat) : (s.setCtx c x).launch m = s.launch m := rfl
@[simp] theorem State.graph_setCtx_frame (s : State) (c : Nat) (x : Ctx) (m : Nat) : (s.setCtx c x).graph m = s.graph m := rfl
@[simp] theorem State.phase_setCtx_frame (s : State) (c : Nat) (x : Ctx) (m : Nat) : (s.setCtx c x).phase m = s.phase m := rfl
@[simp] theorem State.job_setCtx_frame (s : State) (c : Nat) (x : Ctx) (m : Nat) : (s.setCtx c x).job m = s.job m := rfl
@[simp] theorem State.node_setCtx_frame (s : State) (c : Nat) (x : Ctx) (m : Nat) : (s.setCtx c x).node m = s.node m := rfl
@[simp] theorem State.block_setCtx_frame (s : State) (c : Nat) (x : Ctx) (m : Nat) : (s.setCtx c x).block? m = s.block? m := rfl
@[simp] theorem State.core_setHwq_frame (s : State) (q : Nat) (x : Hwq) (m : Nat) : (s.setHwq q x).core m = s.core m := rfl
@[simp] theorem State.die_setHwq_frame (s : State) (q : Nat) (x : Hwq) (m : Nat) : (s.setHwq q x).die m = s.die m := rfl
@[simp] theorem State.stack_setHwq_frame (s : State) (q : Nat) (x : Hwq) (m : Nat) : (s.setHwq q x).stack m = s.stack m := rfl
@[simp] theorem State.port_setHwq_frame (s : State) (q : Nat) (x : Hwq) (m : Nat) : (s.setHwq q x).port m = s.port m := rfl
@[simp] theorem State.ctx_setHwq_frame (s : State) (q : Nat) (x : Hwq) (m : Nat) : (s.setHwq q x).ctx m = s.ctx m := rfl
@[simp] theorem State.launch_setHwq_frame (s : State) (q : Nat) (x : Hwq) (m : Nat) : (s.setHwq q x).launch m = s.launch m := rfl
@[simp] theorem State.graph_setHwq_frame (s : State) (q : Nat) (x : Hwq) (m : Nat) : (s.setHwq q x).graph m = s.graph m := rfl
@[simp] theorem State.phase_setHwq_frame (s : State) (q : Nat) (x : Hwq) (m : Nat) : (s.setHwq q x).phase m = s.phase m := rfl
@[simp] theorem State.job_setHwq_frame (s : State) (q : Nat) (x : Hwq) (m : Nat) : (s.setHwq q x).job m = s.job m := rfl
@[simp] theorem State.node_setHwq_frame (s : State) (q : Nat) (x : Hwq) (m : Nat) : (s.setHwq q x).node m = s.node m := rfl
@[simp] theorem State.block_setHwq_frame (s : State) (q : Nat) (x : Hwq) (m : Nat) : (s.setHwq q x).block? m = s.block? m := rfl
@[simp] theorem State.core_setLaunch_frame (s : State) (l : Nat) (x : LaunchSlot) (m : Nat) : (s.setLaunch l x).core m = s.core m := rfl
@[simp] theorem State.die_setLaunch_frame (s : State) (l : Nat) (x : LaunchSlot) (m : Nat) : (s.setLaunch l x).die m = s.die m := rfl
@[simp] theorem State.stack_setLaunch_frame (s : State) (l : Nat) (x : LaunchSlot) (m : Nat) : (s.setLaunch l x).stack m = s.stack m := rfl
@[simp] theorem State.port_setLaunch_frame (s : State) (l : Nat) (x : LaunchSlot) (m : Nat) : (s.setLaunch l x).port m = s.port m := rfl
@[simp] theorem State.ctx_setLaunch_frame (s : State) (l : Nat) (x : LaunchSlot) (m : Nat) : (s.setLaunch l x).ctx m = s.ctx m := rfl
@[simp] theorem State.hwq_setLaunch_frame (s : State) (l : Nat) (x : LaunchSlot) (m : Nat) : (s.setLaunch l x).hwq m = s.hwq m := rfl
@[simp] theorem State.graph_setLaunch_frame (s : State) (l : Nat) (x : LaunchSlot) (m : Nat) : (s.setLaunch l x).graph m = s.graph m := rfl
@[simp] theorem State.phase_setLaunch_frame (s : State) (l : Nat) (x : LaunchSlot) (m : Nat) : (s.setLaunch l x).phase m = s.phase m := rfl
@[simp] theorem State.job_setLaunch_frame (s : State) (l : Nat) (x : LaunchSlot) (m : Nat) : (s.setLaunch l x).job m = s.job m := rfl
@[simp] theorem State.node_setLaunch_frame (s : State) (l : Nat) (x : LaunchSlot) (m : Nat) : (s.setLaunch l x).node m = s.node m := rfl
@[simp] theorem State.block_setLaunch_frame (s : State) (l : Nat) (x : LaunchSlot) (m : Nat) : (s.setLaunch l x).block? m = s.block? m := rfl
@[simp] theorem State.core_setGraph_frame (s : State) (g : Nat) (x : LevelSlot) (m : Nat) : (s.setGraph g x).core m = s.core m := rfl
@[simp] theorem State.die_setGraph_frame (s : State) (g : Nat) (x : LevelSlot) (m : Nat) : (s.setGraph g x).die m = s.die m := rfl
@[simp] theorem State.stack_setGraph_frame (s : State) (g : Nat) (x : LevelSlot) (m : Nat) : (s.setGraph g x).stack m = s.stack m := rfl
@[simp] theorem State.port_setGraph_frame (s : State) (g : Nat) (x : LevelSlot) (m : Nat) : (s.setGraph g x).port m = s.port m := rfl
@[simp] theorem State.ctx_setGraph_frame (s : State) (g : Nat) (x : LevelSlot) (m : Nat) : (s.setGraph g x).ctx m = s.ctx m := rfl
@[simp] theorem State.hwq_setGraph_frame (s : State) (g : Nat) (x : LevelSlot) (m : Nat) : (s.setGraph g x).hwq m = s.hwq m := rfl
@[simp] theorem State.launch_setGraph_frame (s : State) (g : Nat) (x : LevelSlot) (m : Nat) : (s.setGraph g x).launch m = s.launch m := rfl
@[simp] theorem State.phase_setGraph_frame (s : State) (g : Nat) (x : LevelSlot) (m : Nat) : (s.setGraph g x).phase m = s.phase m := rfl
@[simp] theorem State.job_setGraph_frame (s : State) (g : Nat) (x : LevelSlot) (m : Nat) : (s.setGraph g x).job m = s.job m := rfl
@[simp] theorem State.node_setGraph_frame (s : State) (g : Nat) (x : LevelSlot) (m : Nat) : (s.setGraph g x).node m = s.node m := rfl
@[simp] theorem State.block_setGraph_frame (s : State) (g : Nat) (x : LevelSlot) (m : Nat) : (s.setGraph g x).block? m = s.block? m := rfl
@[simp] theorem State.core_setPhase_frame (s : State) (p : Nat) (x : LevelSlot) (m : Nat) : (s.setPhase p x).core m = s.core m := rfl
@[simp] theorem State.die_setPhase_frame (s : State) (p : Nat) (x : LevelSlot) (m : Nat) : (s.setPhase p x).die m = s.die m := rfl
@[simp] theorem State.stack_setPhase_frame (s : State) (p : Nat) (x : LevelSlot) (m : Nat) : (s.setPhase p x).stack m = s.stack m := rfl
@[simp] theorem State.port_setPhase_frame (s : State) (p : Nat) (x : LevelSlot) (m : Nat) : (s.setPhase p x).port m = s.port m := rfl
@[simp] theorem State.ctx_setPhase_frame (s : State) (p : Nat) (x : LevelSlot) (m : Nat) : (s.setPhase p x).ctx m = s.ctx m := rfl
@[simp] theorem State.hwq_setPhase_frame (s : State) (p : Nat) (x : LevelSlot) (m : Nat) : (s.setPhase p x).hwq m = s.hwq m := rfl
@[simp] theorem State.launch_setPhase_frame (s : State) (p : Nat) (x : LevelSlot) (m : Nat) : (s.setPhase p x).launch m = s.launch m := rfl
@[simp] theorem State.graph_setPhase_frame (s : State) (p : Nat) (x : LevelSlot) (m : Nat) : (s.setPhase p x).graph m = s.graph m := rfl
@[simp] theorem State.job_setPhase_frame (s : State) (p : Nat) (x : LevelSlot) (m : Nat) : (s.setPhase p x).job m = s.job m := rfl
@[simp] theorem State.node_setPhase_frame (s : State) (p : Nat) (x : LevelSlot) (m : Nat) : (s.setPhase p x).node m = s.node m := rfl
@[simp] theorem State.block_setPhase_frame (s : State) (p : Nat) (x : LevelSlot) (m : Nat) : (s.setPhase p x).block? m = s.block? m := rfl
@[simp] theorem State.core_setJob_frame (s : State) (j : Nat) (x : LevelSlot) (m : Nat) : (s.setJob j x).core m = s.core m := rfl
@[simp] theorem State.die_setJob_frame (s : State) (j : Nat) (x : LevelSlot) (m : Nat) : (s.setJob j x).die m = s.die m := rfl
@[simp] theorem State.stack_setJob_frame (s : State) (j : Nat) (x : LevelSlot) (m : Nat) : (s.setJob j x).stack m = s.stack m := rfl
@[simp] theorem State.port_setJob_frame (s : State) (j : Nat) (x : LevelSlot) (m : Nat) : (s.setJob j x).port m = s.port m := rfl
@[simp] theorem State.ctx_setJob_frame (s : State) (j : Nat) (x : LevelSlot) (m : Nat) : (s.setJob j x).ctx m = s.ctx m := rfl
@[simp] theorem State.hwq_setJob_frame (s : State) (j : Nat) (x : LevelSlot) (m : Nat) : (s.setJob j x).hwq m = s.hwq m := rfl
@[simp] theorem State.launch_setJob_frame (s : State) (j : Nat) (x : LevelSlot) (m : Nat) : (s.setJob j x).launch m = s.launch m := rfl
@[simp] theorem State.graph_setJob_frame (s : State) (j : Nat) (x : LevelSlot) (m : Nat) : (s.setJob j x).graph m = s.graph m := rfl
@[simp] theorem State.phase_setJob_frame (s : State) (j : Nat) (x : LevelSlot) (m : Nat) : (s.setJob j x).phase m = s.phase m := rfl
@[simp] theorem State.node_setJob_frame (s : State) (j : Nat) (x : LevelSlot) (m : Nat) : (s.setJob j x).node m = s.node m := rfl
@[simp] theorem State.block_setJob_frame (s : State) (j : Nat) (x : LevelSlot) (m : Nat) : (s.setJob j x).block? m = s.block? m := rfl
@[simp] theorem State.core_setNode_frame (s : State) (n : Nat) (x : Node) (m : Nat) : (s.setNode n x).core m = s.core m := rfl
@[simp] theorem State.die_setNode_frame (s : State) (n : Nat) (x : Node) (m : Nat) : (s.setNode n x).die m = s.die m := rfl
@[simp] theorem State.stack_setNode_frame (s : State) (n : Nat) (x : Node) (m : Nat) : (s.setNode n x).stack m = s.stack m := rfl
@[simp] theorem State.port_setNode_frame (s : State) (n : Nat) (x : Node) (m : Nat) : (s.setNode n x).port m = s.port m := rfl
@[simp] theorem State.ctx_setNode_frame (s : State) (n : Nat) (x : Node) (m : Nat) : (s.setNode n x).ctx m = s.ctx m := rfl
@[simp] theorem State.hwq_setNode_frame (s : State) (n : Nat) (x : Node) (m : Nat) : (s.setNode n x).hwq m = s.hwq m := rfl
@[simp] theorem State.launch_setNode_frame (s : State) (n : Nat) (x : Node) (m : Nat) : (s.setNode n x).launch m = s.launch m := rfl
@[simp] theorem State.graph_setNode_frame (s : State) (n : Nat) (x : Node) (m : Nat) : (s.setNode n x).graph m = s.graph m := rfl
@[simp] theorem State.phase_setNode_frame (s : State) (n : Nat) (x : Node) (m : Nat) : (s.setNode n x).phase m = s.phase m := rfl
@[simp] theorem State.job_setNode_frame (s : State) (n : Nat) (x : Node) (m : Nat) : (s.setNode n x).job m = s.job m := rfl
@[simp] theorem State.block_setNode_frame (s : State) (n : Nat) (x : Node) (m : Nat) : (s.setNode n x).block? m = s.block? m := rfl
@[simp] theorem State.core_setBlock_frame (s : State) (b : Nat) (x : Block) (m : Nat) : (s.setBlock b x).core m = s.core m := rfl
@[simp] theorem State.die_setBlock_frame (s : State) (b : Nat) (x : Block) (m : Nat) : (s.setBlock b x).die m = s.die m := rfl
@[simp] theorem State.stack_setBlock_frame (s : State) (b : Nat) (x : Block) (m : Nat) : (s.setBlock b x).stack m = s.stack m := rfl
@[simp] theorem State.port_setBlock_frame (s : State) (b : Nat) (x : Block) (m : Nat) : (s.setBlock b x).port m = s.port m := rfl
@[simp] theorem State.ctx_setBlock_frame (s : State) (b : Nat) (x : Block) (m : Nat) : (s.setBlock b x).ctx m = s.ctx m := rfl
@[simp] theorem State.hwq_setBlock_frame (s : State) (b : Nat) (x : Block) (m : Nat) : (s.setBlock b x).hwq m = s.hwq m := rfl
@[simp] theorem State.launch_setBlock_frame (s : State) (b : Nat) (x : Block) (m : Nat) : (s.setBlock b x).launch m = s.launch m := rfl
@[simp] theorem State.graph_setBlock_frame (s : State) (b : Nat) (x : Block) (m : Nat) : (s.setBlock b x).graph m = s.graph m := rfl
@[simp] theorem State.phase_setBlock_frame (s : State) (b : Nat) (x : Block) (m : Nat) : (s.setBlock b x).phase m = s.phase m := rfl
@[simp] theorem State.job_setBlock_frame (s : State) (b : Nat) (x : Block) (m : Nat) : (s.setBlock b x).job m = s.job m := rfl
@[simp] theorem State.node_setBlock_frame (s : State) (b : Nat) (x : Block) (m : Nat) : (s.setBlock b x).node m = s.node m := rfl
@[simp] theorem State.core_delBlock_frame (s : State) (b : Nat) (m : Nat) : (s.delBlock b).core m = s.core m := rfl
@[simp] theorem State.die_delBlock_frame (s : State) (b : Nat) (m : Nat) : (s.delBlock b).die m = s.die m := rfl
@[simp] theorem State.stack_delBlock_frame (s : State) (b : Nat) (m : Nat) : (s.delBlock b).stack m = s.stack m := rfl
@[simp] theorem State.port_delBlock_frame (s : State) (b : Nat) (m : Nat) : (s.delBlock b).port m = s.port m := rfl
@[simp] theorem State.ctx_delBlock_frame (s : State) (b : Nat) (m : Nat) : (s.delBlock b).ctx m = s.ctx m := rfl
@[simp] theorem State.hwq_delBlock_frame (s : State) (b : Nat) (m : Nat) : (s.delBlock b).hwq m = s.hwq m := rfl
@[simp] theorem State.launch_delBlock_frame (s : State) (b : Nat) (m : Nat) : (s.delBlock b).launch m = s.launch m := rfl
@[simp] theorem State.graph_delBlock_frame (s : State) (b : Nat) (m : Nat) : (s.delBlock b).graph m = s.graph m := rfl
@[simp] theorem State.phase_delBlock_frame (s : State) (b : Nat) (m : Nat) : (s.delBlock b).phase m = s.phase m := rfl
@[simp] theorem State.job_delBlock_frame (s : State) (b : Nat) (m : Nat) : (s.delBlock b).job m = s.job m := rfl
@[simp] theorem State.node_delBlock_frame (s : State) (b : Nat) (m : Nat) : (s.delBlock b).node m = s.node m := rfl
@[simp] theorem State.core_onBlocks_frame (s : State) (f : Nat → Block → Block) (m : Nat) : (s.onBlocks f).core m = s.core m := rfl
@[simp] theorem State.die_onBlocks_frame (s : State) (f : Nat → Block → Block) (m : Nat) : (s.onBlocks f).die m = s.die m := rfl
@[simp] theorem State.stack_onBlocks_frame (s : State) (f : Nat → Block → Block) (m : Nat) : (s.onBlocks f).stack m = s.stack m := rfl
@[simp] theorem State.port_onBlocks_frame (s : State) (f : Nat → Block → Block) (m : Nat) : (s.onBlocks f).port m = s.port m := rfl
@[simp] theorem State.ctx_onBlocks_frame (s : State) (f : Nat → Block → Block) (m : Nat) : (s.onBlocks f).ctx m = s.ctx m := rfl
@[simp] theorem State.hwq_onBlocks_frame (s : State) (f : Nat → Block → Block) (m : Nat) : (s.onBlocks f).hwq m = s.hwq m := rfl
@[simp] theorem State.launch_onBlocks_frame (s : State) (f : Nat → Block → Block) (m : Nat) : (s.onBlocks f).launch m = s.launch m := rfl
@[simp] theorem State.graph_onBlocks_frame (s : State) (f : Nat → Block → Block) (m : Nat) : (s.onBlocks f).graph m = s.graph m := rfl
@[simp] theorem State.phase_onBlocks_frame (s : State) (f : Nat → Block → Block) (m : Nat) : (s.onBlocks f).phase m = s.phase m := rfl
@[simp] theorem State.job_onBlocks_frame (s : State) (f : Nat → Block → Block) (m : Nat) : (s.onBlocks f).job m = s.job m := rfl
@[simp] theorem State.node_onBlocks_frame (s : State) (f : Nat → Block → Block) (m : Nat) : (s.onBlocks f).node m = s.node m := rfl
@[simp] theorem State.core_send_frame (s : State) (x : OutMsg) (m : Nat) : (s.send x).core m = s.core m := rfl
@[simp] theorem State.die_send_frame (s : State) (x : OutMsg) (m : Nat) : (s.send x).die m = s.die m := rfl
@[simp] theorem State.stack_send_frame (s : State) (x : OutMsg) (m : Nat) : (s.send x).stack m = s.stack m := rfl
@[simp] theorem State.port_send_frame (s : State) (x : OutMsg) (m : Nat) : (s.send x).port m = s.port m := rfl
@[simp] theorem State.ctx_send_frame (s : State) (x : OutMsg) (m : Nat) : (s.send x).ctx m = s.ctx m := rfl
@[simp] theorem State.hwq_send_frame (s : State) (x : OutMsg) (m : Nat) : (s.send x).hwq m = s.hwq m := rfl
@[simp] theorem State.launch_send_frame (s : State) (x : OutMsg) (m : Nat) : (s.send x).launch m = s.launch m := rfl
@[simp] theorem State.graph_send_frame (s : State) (x : OutMsg) (m : Nat) : (s.send x).graph m = s.graph m := rfl
@[simp] theorem State.phase_send_frame (s : State) (x : OutMsg) (m : Nat) : (s.send x).phase m = s.phase m := rfl
@[simp] theorem State.job_send_frame (s : State) (x : OutMsg) (m : Nat) : (s.send x).job m = s.job m := rfl
@[simp] theorem State.node_send_frame (s : State) (x : OutMsg) (m : Nat) : (s.send x).node m = s.node m := rfl
@[simp] theorem State.block_send_frame (s : State) (x : OutMsg) (m : Nat) : (s.send x).block? m = s.block? m := rfl
@[simp] theorem State.core_later_frame (s : State) (t : Nat) (i : Instr) (m : Nat) : (s.later t i).core m = s.core m := rfl
@[simp] theorem State.die_later_frame (s : State) (t : Nat) (i : Instr) (m : Nat) : (s.later t i).die m = s.die m := rfl
@[simp] theorem State.stack_later_frame (s : State) (t : Nat) (i : Instr) (m : Nat) : (s.later t i).stack m = s.stack m := rfl
@[simp] theorem State.port_later_frame (s : State) (t : Nat) (i : Instr) (m : Nat) : (s.later t i).port m = s.port m := rfl
@[simp] theorem State.ctx_later_frame (s : State) (t : Nat) (i : Instr) (m : Nat) : (s.later t i).ctx m = s.ctx m := rfl
@[simp] theorem State.hwq_later_frame (s : State) (t : Nat) (i : Instr) (m : Nat) : (s.later t i).hwq m = s.hwq m := rfl
@[simp] theorem State.launch_later_frame (s : State) (t : Nat) (i : Instr) (m : Nat) : (s.later t i).launch m = s.launch m := rfl
@[simp] theorem State.graph_later_frame (s : State) (t : Nat) (i : Instr) (m : Nat) : (s.later t i).graph m = s.graph m := rfl
@[simp] theorem State.phase_later_frame (s : State) (t : Nat) (i : Instr) (m : Nat) : (s.later t i).phase m = s.phase m := rfl
@[simp] theorem State.job_later_frame (s : State) (t : Nat) (i : Instr) (m : Nat) : (s.later t i).job m = s.job m := rfl
@[simp] theorem State.node_later_frame (s : State) (t : Nat) (i : Instr) (m : Nat) : (s.later t i).node m = s.node m := rfl
@[simp] theorem State.block_later_frame (s : State) (t : Nat) (i : Instr) (m : Nat) : (s.later t i).block? m = s.block? m := rfl
@[simp] theorem State.core_soon_frame (s : State) (i : Instr) (m : Nat) : (s.soon i).core m = s.core m := rfl
@[simp] theorem State.die_soon_frame (s : State) (i : Instr) (m : Nat) : (s.soon i).die m = s.die m := rfl
@[simp] theorem State.stack_soon_frame (s : State) (i : Instr) (m : Nat) : (s.soon i).stack m = s.stack m := rfl
@[simp] theorem State.port_soon_frame (s : State) (i : Instr) (m : Nat) : (s.soon i).port m = s.port m := rfl
@[simp] theorem State.ctx_soon_frame (s : State) (i : Instr) (m : Nat) : (s.soon i).ctx m = s.ctx m := rfl
@[simp] theorem State.hwq_soon_frame (s : State) (i : Instr) (m : Nat) : (s.soon i).hwq m = s.hwq m := rfl
@[simp] theorem State.launch_soon_frame (s : State) (i : Instr) (m : Nat) : (s.soon i).launch m = s.launch m := rfl
@[simp] theorem State.graph_soon_frame (s : State) (i : Instr) (m : Nat) : (s.soon i).graph m = s.graph m := rfl
@[simp] theorem State.phase_soon_frame (s : State) (i : Instr) (m : Nat) : (s.soon i).phase m = s.phase m := rfl
@[simp] theorem State.job_soon_frame (s : State) (i : Instr) (m : Nat) : (s.soon i).job m = s.job m := rfl
@[simp] theorem State.node_soon_frame (s : State) (i : Instr) (m : Nat) : (s.soon i).node m = s.node m := rfl
@[simp] theorem State.block_soon_frame (s : State) (i : Instr) (m : Nat) : (s.soon i).block? m = s.block? m := rfl

/-! ### Lanes -/

@[simp] theorem Wave.lane_setLane (w : Wave) (i j : Nat) (x : Lane) (hi : i < 32) :
    (w.setLane i x).lane j = if j = i then x else w.lane j := by
  simp [Wave.setLane, Wave.lane, hi]

@[simp] theorem Wave.lane_mapLanes (w : Wave) (f : Nat → Lane → Lane) (j : Nat) (hj : j < 32) :
    (w.mapLanes f).lane j = f j (w.lane j) := by
  simp [Wave.mapLanes, Wave.lane, lget_mapTo, hj]

end Sys2Proof.Machine
end

