-- ==== Sys2Proof/Laws/Wave.lean ====
section
/-! SUPPORT. Lane sets, and what a wave holds after register writes land in it. -/

namespace Sys2Proof.Machine

/-! ### Lane sets -/

theorem mem_laneIds (i : Nat) : i ∈ laneIds ↔ i < 32 := by simp [laneIds, mem_upFrom]

@[simp] theorem mem_lanesOf (m : LaneSet) (i : Nat) : i ∈ lanesOf m ↔ i < 32 ∧ m.getLsbD i = true := by
  simp [lanesOf, mem_laneIds]

theorem getLsbD_bit (i j : Nat) : (BitVec.ofNat 32 (2 ^ i)).getLsbD j = (decide (j < 32) && decide (j = i)) := by
  rw [BitVec.getLsbD_ofNat, Nat.testBit_two_pow]
  by_cases h : i = j <;> simp [h, eq_comm]

theorem laneSet_go (l : List Nat) (m : LaneSet) (j : Nat) :
    (l.foldl (fun m i => m ||| BitVec.ofNat 32 (2 ^ i)) m).getLsbD j = (m.getLsbD j || (decide (j < 32) && decide (j ∈ l))) := by
  induction l generalizing m with
  | nil => simp
  | cons i t ih =>
    rw [List.foldl_cons, ih, BitVec.getLsbD_or, getLsbD_bit]
    simp only [List.mem_cons, Bool.decide_or]
    cases m.getLsbD j <;> cases decide (j < 32) <;> cases decide (j = i) <;> cases decide (j ∈ t) <;> rfl

@[simp] theorem getLsbD_laneSet (l : List Nat) (j : Nat) : (laneSet l).getLsbD j = (decide (j < 32) && decide (j ∈ l)) := by
  rw [laneSet, laneSet_go]; simp

@[simp] theorem getLsbD_lanesWhere (p : Nat → Bool) (j : Nat) : (lanesWhere p).getLsbD j = (decide (j < 32) && p j) := by
  simp only [lanesWhere, getLsbD_laneSet, List.mem_filter, mem_laneIds]
  by_cases h : j < 32 <;> simp [h]

theorem laneSet_eq_zero (m : LaneSet) : m = 0 ↔ ∀ i < 32, m.getLsbD i = false := by
  constructor
  · rintro rfl; simp
  · intro h; ext i hi; simpa [BitVec.getLsbD_eq_getElem hi] using h i hi

theorem lanesOf_eq_nil (m : LaneSet) : lanesOf m = [] ↔ m = 0 := by
  rw [laneSet_eq_zero, List.eq_nil_iff_forall_not_mem]
  simp only [mem_lanesOf, not_and, Bool.not_eq_true]

theorem highLane_mem {m : LaneSet} {i : Nat} (h : highLane m = some i) : i < 32 ∧ m.getLsbD i = true := by
  have := List.mem_of_getLast? h
  simpa using this

theorem lowLane_mem {m : LaneSet} {i : Nat} (h : lowLane m = some i) : i < 32 ∧ m.getLsbD i = true := by
  have := List.mem_of_head? h
  simpa using this

theorem highLane_eq_none (m : LaneSet) : highLane m = none ↔ m = 0 := by
  simp [highLane, lanesOf_eq_nil]

theorem lowLane_eq_none (m : LaneSet) : lowLane m = none ↔ m = 0 := by
  simp [lowLane, lanesOf_eq_nil]

/-! ### One register write -/

@[simp] theorem Lane.reg_setReg (l : Lane) (n m : Nat) (x : Word) : (l.setReg n x).reg m = if m = n then x else l.reg m := by
  simp [Lane.reg, Lane.setReg]

@[simp] theorem Lane.setReg_pc (l : Lane) (n : Nat) (x : Word) : (l.setReg n x).pc = l.pc := rfl
@[simp] theorem Lane.setReg_st (l : Lane) (n : Nat) (x : Word) : (l.setReg n x).st = l.st := rfl
@[simp] theorem Lane.setReg_restart (l : Lane) (n : Nat) (x : Word) : (l.setReg n x).restart = l.restart := rfl
@[simp] theorem Lane.setReg_chain (l : Lane) (n : Nat) (x : Word) : (l.setReg n x).chain = l.chain := rfl
@[simp] theorem Lane.setReg_fenced (l : Lane) (n : Nat) (x : Word) : (l.setReg n x).fenced = l.fenced := rfl
@[simp] theorem Lane.setReg_paid (l : Lane) (n : Nat) (x : Word) : (l.setReg n x).paid = l.paid := rfl
@[simp] theorem Lane.setTag_v (l : Lane) (q : Nat) (on : Bool) : (l.setTag q on).v = l.v := rfl
@[simp] theorem Lane.setTag_pc (l : Lane) (q : Nat) (on : Bool) : (l.setTag q on).pc = l.pc := rfl
@[simp] theorem Lane.setTag_st (l : Lane) (q : Nat) (on : Bool) : (l.setTag q on).st = l.st := rfl
@[simp] theorem Lane.setTag_restart (l : Lane) (q : Nat) (on : Bool) : (l.setTag q on).restart = l.restart := rfl
@[simp] theorem Lane.setTag_chain (l : Lane) (q : Nat) (on : Bool) : (l.setTag q on).chain = l.chain := rfl
@[simp] theorem Lane.setTag_fenced (l : Lane) (q : Nat) (on : Bool) : (l.setTag q on).fenced = l.fenced := rfl
@[simp] theorem Lane.setTag_paid (l : Lane) (q : Nat) (on : Bool) : (l.setTag q on).paid = l.paid := rfl
@[simp] theorem Lane.reg_setTag (l : Lane) (q : Nat) (on : Bool) (n : Nat) : (l.setTag q on).reg n = l.reg n := rfl

theorem getLsbD_quad (q j : Nat) : (BitVec.ofNat 64 (2 ^ q)).getLsbD j = (decide (j < 64) && decide (j = q)) := by
  rw [BitVec.getLsbD_ofNat, Nat.testBit_two_pow]
  by_cases h : q = j <;> simp [h, eq_comm]

theorem Lane.tags_setReg (l : Lane) (n : Nat) (x : Word) (q : Nat) (hq : q < 64) :
    (l.setReg n x).tags.getLsbD q = (l.tags.getLsbD q && !decide (q = n / 4)) := by
  simp only [Lane.setReg, BitVec.getLsbD_and, BitVec.getLsbD_not, getLsbD_quad, hq, decide_true, Bool.true_and]

theorem Lane.tags_setTag (l : Lane) (n : Nat) (on : Bool) (q : Nat) (hq : q < 64) :
    (l.setTag n on).tags.getLsbD q = if q = n then on else l.tags.getLsbD q := by
  have hb := getLsbD_quad n q
  unfold Lane.setTag
  cases on
  · simp only [Bool.false_eq_true, if_false, BitVec.getLsbD_and, BitVec.getLsbD_not, hb, hq]
    by_cases h : q = n <;> simp [h]
  · simp only [if_true, BitVec.getLsbD_or, hb, hq]
    by_cases h : q = n <;> simp [h]

/-! ### What a wave keeps of its other parts while writes land -/

/-- The parts of a lane other than its registers and tags. -/
def Lane.rest (l : Lane) : Pc × LaneSt × Option Pc × Word × Option Scope × Bool :=
  (l.pc, l.st, l.restart, l.chain, l.fenced, l.paid)

/-- Two waves that agree but for lanes, uniform registers and the operand store. -/
def Wave.SameRest (w w' : Wave) : Prop := w' = { w with lanes := w'.lanes, w := w'.w, opStore := w'.opStore }

theorem Wave.SameRest.refl (w : Wave) : w.SameRest w := rfl

theorem Wave.SameRest.trans {u v w : Wave} (h : u.SameRest v) (h' : v.SameRest w) : u.SameRest w := by
  unfold Wave.SameRest at *
  rw [h] at h'
  exact h'

theorem Wave.put_sameRest (w : Wave) (x : RegWrite) : w.SameRest (w.put x) := by
  unfold Wave.SameRest Wave.put Wave.setLane; split
  · rfl
  · split <;> rfl

theorem Wave.setLane_sameRest (w : Wave) (i : Nat) (x : Lane) : w.SameRest (w.setLane i x) := by
  unfold Wave.SameRest Wave.setLane; split <;> rfl

theorem Wave.putAll_sameRest (w : Wave) (l : List RegWrite) : w.SameRest (w.putAll l) := by
  induction l generalizing w with
  | nil => exact .refl w
  | cons x t ih => exact (w.put_sameRest x).trans (ih _)

theorem Wave.putTags_sameRest (w : Wave) (l : List (Nat × Nat × Bool)) : w.SameRest (w.putTags l) := by
  induction l generalizing w with
  | nil => exact .refl w
  | cons x t ih => exact (w.setLane_sameRest _ _).trans (ih _)

/-! ### Lanes and uniform registers after one write -/

theorem Wave.lane_put (w : Wave) (x : RegWrite) (j : Nat) (hj : j < 32) :
    (w.put x).lane j = if x.uni = false ∧ j = x.lane then (w.lane j).setReg x.reg x.val else w.lane j := by
  unfold Wave.put
  cases hu : x.uni
  · by_cases hi : x.lane < 32
    · have := w.lane_setLane x.lane j ((w.lane x.lane).setReg x.reg x.val) hi
      simp only [Wave.lane] at this ⊢
      simp only [Bool.false_eq_true, if_false, true_and]
      rw [this]
      by_cases h : j = x.lane <;> simp [h]
    · have hne : j ≠ x.lane := by omega
      simp [Wave.setLane, hi, hne, Wave.lane]
  · simp [Wave.lane]

theorem Wave.ureg_put (w : Wave) (x : RegWrite) (n : Nat) :
    (w.put x).ureg n = if x.uni = true ∧ n = x.reg then x.val else w.ureg n := by
  unfold Wave.put Wave.ureg
  cases hu : x.uni
  · simp
  · simp

/-! ### After a list of writes -/

/-- A write of a lane register. -/
def RegWrite.hits (x : RegWrite) (i n : Nat) : Prop := x.uni = false ∧ x.lane = i ∧ x.reg = n

theorem Wave.reg_putAll_none (w : Wave) (l : List RegWrite) (i n : Nat) (hi : i < 32) (h : ∀ x ∈ l, ¬ x.hits i n) :
    ((w.putAll l).lane i).reg n = (w.lane i).reg n := by
  induction l generalizing w with
  | nil => rfl
  | cons x t ih =>
    have h1 := h x (by simp)
    rw [Wave.putAll, List.foldl_cons, ← Wave.putAll, ih _ (fun y hy => h y (by simp [hy])), Wave.lane_put w x i hi]
    split_ifs with hc
    · rw [Lane.reg_setReg]
      have : n ≠ x.reg := fun e => h1 ⟨hc.1, hc.2.symm, e.symm⟩
      simp [this]
    · rfl

theorem Wave.reg_putAll_some (w : Wave) (l : List RegWrite) (i n : Nat) (v : Word) (hi : i < 32)
    (hv : ∀ x ∈ l, x.hits i n → x.val = v) (he : ∃ x ∈ l, x.hits i n) : ((w.putAll l).lane i).reg n = v := by
  induction l generalizing w with
  | nil => simp at he
  | cons x t ih =>
    rw [Wave.putAll, List.foldl_cons, ← Wave.putAll]
    by_cases ht : ∃ y ∈ t, y.hits i n
    · exact ih _ (fun y hy => hv y (by simp [hy])) ht
    · have hx : x.hits i n := by
        obtain ⟨y, hy, hh⟩ := he
        rcases List.mem_cons.1 hy with rfl | hy
        · exact hh
        · exact absurd ⟨y, hy, hh⟩ ht
      have hn : ∀ y ∈ t, ¬ y.hits i n := fun y hy hh => ht ⟨y, hy, hh⟩
      rw [Wave.reg_putAll_none _ t i n hi hn, Wave.lane_put w x i hi]
      rw [if_pos ⟨hx.1, hx.2.1.symm⟩, Lane.reg_setReg, if_pos hx.2.2.symm]
      exact hv x (by simp) hx

theorem Wave.rest_putAll (w : Wave) (l : List RegWrite) (i : Nat) (hi : i < 32) :
    ((w.putAll l).lane i).rest = (w.lane i).rest := by
  induction l generalizing w with
  | nil => rfl
  | cons x t ih =>
    rw [Wave.putAll, List.foldl_cons, ← Wave.putAll, ih, Wave.lane_put w x i hi]
    split_ifs <;> rfl

theorem Wave.tags_putAll (w : Wave) (l : List RegWrite) (i q : Nat) (hi : i < 32) (hq : q < 64) :
    ((w.putAll l).lane i).tags.getLsbD q = true ↔
      (w.lane i).tags.getLsbD q = true ∧ ∀ x ∈ l, x.uni = false → x.lane = i → x.reg / 4 ≠ q := by
  induction l generalizing w with
  | nil => simp [Wave.putAll]
  | cons x t ih =>
    rw [Wave.putAll, List.foldl_cons, ← Wave.putAll, ih, Wave.lane_put w x i hi]
    by_cases hc : x.uni = false ∧ i = x.lane
    · rw [if_pos hc, Lane.tags_setReg _ _ _ _ hq]
      simp only [Bool.and_eq_true, Bool.not_eq_true', decide_eq_false_iff_not, List.mem_cons, forall_eq_or_imp]
      constructor
      · rintro ⟨⟨h1, h2⟩, h3⟩; exact ⟨h1, fun _ _ e => h2 e.symm, h3⟩
      · rintro ⟨h1, h2, h3⟩; exact ⟨⟨h1, fun e => h2 hc.1 hc.2.symm e.symm⟩, h3⟩
    · rw [if_neg hc]
      simp only [List.mem_cons, forall_eq_or_imp]
      constructor
      · rintro ⟨h1, h3⟩; exact ⟨h1, fun hu hl => absurd ⟨hu, hl.symm⟩ hc, h3⟩
      · rintro ⟨h1, _, h3⟩; exact ⟨h1, h3⟩

theorem Wave.ureg_putAll_none (w : Wave) (l : List RegWrite) (n : Nat) (h : ∀ x ∈ l, ¬ (x.uni = true ∧ x.reg = n)) :
    (w.putAll l).ureg n = w.ureg n := by
  induction l generalizing w with
  | nil => rfl
  | cons x t ih =>
    have h1 := h x (by simp)
    rw [Wave.putAll, List.foldl_cons, ← Wave.putAll, ih _ (fun y hy => h y (by simp [hy])), Wave.ureg_put, if_neg]
    rintro ⟨a, b⟩; exact h1 ⟨a, b.symm⟩

theorem Wave.ureg_putAll_some (w : Wave) (l : List RegWrite) (n : Nat) (v : Word)
    (hv : ∀ x ∈ l, x.uni = true → x.reg = n → x.val = v) (he : ∃ x ∈ l, x.uni = true ∧ x.reg = n) :
    (w.putAll l).ureg n = v := by
  induction l generalizing w with
  | nil => simp at he
  | cons x t ih =>
    rw [Wave.putAll, List.foldl_cons, ← Wave.putAll]
    by_cases ht : ∃ y ∈ t, y.uni = true ∧ y.reg = n
    · exact ih _ (fun y hy => hv y (by simp [hy])) ht
    · have hx : x.uni = true ∧ x.reg = n := by
        obtain ⟨y, hy, hh⟩ := he
        rcases List.mem_cons.1 hy with rfl | hy
        · exact hh
        · exact absurd ⟨y, hy, hh⟩ ht
      rw [Wave.ureg_putAll_none _ t n (fun y hy hh => ht ⟨y, hy, hh⟩), Wave.ureg_put, if_pos ⟨hx.1, hx.2.symm⟩]
      exact hv x (by simp) hx.1 hx.2

/-! ### After tags -/

theorem Wave.lane_putTags_step (w : Wave) (x : Nat × Nat × Bool) (j : Nat) :
    (w.setLane x.1 ((w.lane x.1).setTag x.2.1 x.2.2)).lane j =
      if j < 32 ∧ j = x.1 then (w.lane j).setTag x.2.1 x.2.2 else w.lane j := by
  by_cases hi : x.1 < 32
  · rw [Wave.lane_setLane _ _ _ _ hi]
    by_cases h : j = x.1
    · subst h; simp [hi]
    · simp [h]
  · have : ¬ (j < 32 ∧ j = x.1) := by omega
    rw [if_neg this]
    simp [Wave.setLane, hi]

theorem Wave.reg_putTags (w : Wave) (l : List (Nat × Nat × Bool)) (i n : Nat) :
    ((w.putTags l).lane i).reg n = (w.lane i).reg n := by
  induction l generalizing w with
  | nil => rfl
  | cons x t ih =>
    rw [Wave.putTags, List.foldl_cons, ← Wave.putTags, ih, Wave.lane_putTags_step]
    split_ifs <;> rfl

theorem Wave.rest_putTags (w : Wave) (l : List (Nat × Nat × Bool)) (i : Nat) :
    ((w.putTags l).lane i).rest = (w.lane i).rest := by
  induction l generalizing w with
  | nil => rfl
  | cons x t ih =>
    rw [Wave.putTags, List.foldl_cons, ← Wave.putTags, ih, Wave.lane_putTags_step]
    split_ifs <;> rfl

theorem Wave.ureg_putTags (w : Wave) (l : List (Nat × Nat × Bool)) (n : Nat) : (w.putTags l).ureg n = w.ureg n := by
  induction l generalizing w with
  | nil => rfl
  | cons x t ih =>
    rw [Wave.putTags, List.foldl_cons, ← Wave.putTags, ih]
    unfold Wave.ureg Wave.setLane; split <;> rfl

theorem Wave.tags_putTags_none (w : Wave) (l : List (Nat × Nat × Bool)) (i q : Nat) (hq : q < 64)
    (h : ∀ x ∈ l, ¬ (x.1 = i ∧ x.2.1 = q)) : ((w.putTags l).lane i).tags.getLsbD q = (w.lane i).tags.getLsbD q := by
  induction l generalizing w with
  | nil => rfl
  | cons x t ih =>
    have h1 := h x (by simp)
    rw [Wave.putTags, List.foldl_cons, ← Wave.putTags, ih _ (fun y hy => h y (by simp [hy])), Wave.lane_putTags_step]
    split_ifs with hc
    · rw [Lane.tags_setTag _ _ _ _ hq, if_neg (fun e => h1 ⟨hc.2.symm, e.symm⟩)]
    · rfl

theorem Wave.tags_putTags_some (w : Wave) (l : List (Nat × Nat × Bool)) (i q : Nat) (v : Bool) (hi : i < 32) (hq : q < 64)
    (hv : ∀ x ∈ l, x.1 = i → x.2.1 = q → x.2.2 = v) (he : ∃ x ∈ l, x.1 = i ∧ x.2.1 = q) :
    ((w.putTags l).lane i).tags.getLsbD q = v := by
  induction l generalizing w with
  | nil => simp at he
  | cons x t ih =>
    rw [Wave.putTags, List.foldl_cons, ← Wave.putTags]
    by_cases ht : ∃ y ∈ t, y.1 = i ∧ y.2.1 = q
    · exact ih _ (fun y hy => hv y (by simp [hy])) ht
    · have hx : x.1 = i ∧ x.2.1 = q := by
        obtain ⟨y, hy, hh⟩ := he
        rcases List.mem_cons.1 hy with rfl | hy
        · exact hh
        · exact absurd ⟨y, hy, hh⟩ ht
      rw [Wave.tags_putTags_none _ t i q hq (fun y hy hh => ht ⟨y, hy, hh⟩), Wave.lane_putTags_step,
        if_pos ⟨hi, hx.1.symm⟩, Lane.tags_setTag _ _ _ _ hq, if_pos hx.2.symm]
      exact hv x (by simp) hx.1 hx.2

end Sys2Proof.Machine
end

