-- ==== Sys2Proof/Laws/Ops.lean ====
section
/-! SUPPORT. What the shared operations of the meanings do: a result that lands, an instruction that completes. -/

namespace Sys2Proof.Machine

/-! ### The writes of a destination -/

/-- The writes of a destination, with no tag given, are what Wrote says. -/
theorem wrote_writesOf (w : Wave) (a : Opnd) (n : Nat) (p : LaneSet) (f : Nat → Quad) :
    Wrote w (w.putAll (writesOf a n p f)) a n p f noTag := by
  have mem_lane (m : BitVec 8) (x : RegWrite) : x ∈ writesOf (.lane m) n p f ↔
      ∃ i, (i < 32 ∧ p.getLsbD i = true) ∧ ∃ j < n, x = { uni := false, lane := i, reg := m.toNat + j, val := wordAt (f i) j } := by
    simp only [writesOf, List.mem_flatMap, mem_lanesOf, List.mem_map, mem_upFrom]
    constructor
    · rintro ⟨i, hi, j, hj, rfl⟩; exact ⟨i, hi, j, by omega, rfl⟩
    · rintro ⟨i, hi, j, hj, rfl⟩; exact ⟨i, hi, j, by omega, rfl⟩
  have mem_uni (m : BitVec 6) (i : Nat) (hi : highLane p = some i) (x : RegWrite) : x ∈ writesOf (.uni m) n p f ↔
      ∃ j < n, x = { uni := true, lane := i, reg := m.toNat + j, val := wordAt (f i) j } := by
    simp only [writesOf, hi, List.mem_map, mem_upFrom]
    constructor
    · rintro ⟨j, hj, rfl⟩; exact ⟨j, by omega, rfl⟩
    · rintro ⟨j, hj, rfl⟩; exact ⟨j, by omega, rfl⟩
  have isUni (x : RegWrite) (h : x ∈ writesOf a n p f) (hl : x.uni = false) : ∃ m, a = .lane m := by
    cases a <;> simp only [writesOf] at h
    case lane m => exact ⟨m, rfl⟩
    case uni m =>
      split at h
      · simp at h
      · simp only [List.mem_map] at h; obtain ⟨j, _, rfl⟩ := h; simp at hl
    all_goals simp at h
  have isLane (x : RegWrite) (h : x ∈ writesOf a n p f) (hl : x.uni = true) : ∃ m i, a = .uni m ∧ highLane p = some i := by
    cases a <;> simp only [writesOf] at h
    case lane m =>
      simp only [List.mem_flatMap, List.mem_map] at h
      obtain ⟨i, _, j, _, rfl⟩ := h; simp at hl
    case uni m =>
      split at h
      · simp at h
      · rename_i i hi; exact ⟨m, i, rfl, hi⟩
    all_goals simp at h
  refine ⟨fun i hi r => ?_, fun r => ?_, fun i hi q hq => ?_⟩
  · unfold laneAfter; split
    · rename_i m
      split_ifs with hc
      · apply Wave.reg_putAll_some _ _ _ _ _ hi
        · intro x hx hh
          obtain ⟨i', -, j, -, rfl⟩ := (mem_lane m x).1 hx
          obtain ⟨-, h1, h2⟩ := hh
          simp only at h1 h2 ⊢
          subst h1; rw [← h2]; congr 1; omega
        · exact ⟨_, (mem_lane m _).2 ⟨i, ⟨hi, hc.1⟩, r - m.toNat, by omega, rfl⟩, rfl, rfl, by simp only; omega⟩
      · apply Wave.reg_putAll_none _ _ _ _ hi
        intro x hx hh
        obtain ⟨i', h0, j, hj, rfl⟩ := (mem_lane m x).1 hx
        obtain ⟨-, h1, h2⟩ := hh
        simp only at h1 h2
        subst h1; exact hc ⟨h0.2, by omega, by omega⟩
    · rename_i hne
      apply Wave.reg_putAll_none _ _ _ _ hi
      intro x hx hh
      obtain ⟨m, hm⟩ := isUni x hx hh.1
      exact hne m hm
  · unfold uniAfter; split
    · rename_i m i hi
      split_ifs with hc
      · apply Wave.ureg_putAll_some
        · intro x hx _ h2
          obtain ⟨j, -, rfl⟩ := (mem_uni m i hi x).1 hx
          simp only at h2 ⊢
          rw [← h2]; congr 1; omega
        · exact ⟨_, (mem_uni m i hi _).2 ⟨r - m.toNat, by omega, rfl⟩, rfl, by simp only; omega⟩
      · apply Wave.ureg_putAll_none
        rintro x hx ⟨-, h2⟩
        obtain ⟨j, hj, rfl⟩ := (mem_uni m i hi x).1 hx
        simp only at h2; exact hc ⟨by omega, by omega⟩
    · rename_i hne
      apply Wave.ureg_putAll_none
      rintro x hx ⟨h1, -⟩
      obtain ⟨m, i, hm, hi⟩ := isLane x hx h1
      exact hne m i hm hi
  · rw [Bool.eq_iff_iff, Wave.tags_putAll _ _ _ _ hi hq]
    unfold tagAfter; split
    · rename_i m
      split_ifs with hc
      · simp only [noTag, Bool.false_eq_true, iff_false, not_and]
        intro _ hall
        obtain ⟨hp, j, hj, e⟩ := hc
        exact hall _ ((mem_lane m _).2 ⟨i, ⟨hi, hp⟩, j, hj, rfl⟩) rfl rfl e
      · constructor
        · exact fun h => h.1
        · intro h
          refine ⟨h, fun x hx _ hl e => hc ?_⟩
          obtain ⟨i', h0, j, hj, rfl⟩ := (mem_lane m x).1 hx
          simp only at hl e
          subst hl; exact ⟨h0.2, j, hj, e⟩
    · rename_i hne
      constructor
      · exact fun h => h.1
      · intro h
        refine ⟨h, fun x hx hu _ _ => ?_⟩
        obtain ⟨m, hm⟩ := isUni x hx hu
        exact hne m hm

/-- A result whose tags are set over its writes: the destination is one aligned quad. -/
theorem wrote_tagged (w : Wave) (a : Opnd) (p : LaneSet) (f : Nat → Quad) (tag : Nat → Bool)
    (ha : ∀ m, a = .lane m → m.toNat % 4 = 0) (l : List (Nat × Nat × Bool))
    (hl : l = match a with | .lane m => (lanesOf p).map fun i => (i, m.toNat / 4, tag i) | _ => []) :
    Wrote w ((w.putAll (writesOf a 4 p f)).putTags l) a 4 p f tag := by
  have h := wrote_writesOf w a 4 p f
  refine ⟨fun i hi r => ?_, fun r => ?_, fun i hi q hq => ?_⟩
  · rw [Wave.reg_putTags]; exact h.lane i hi r
  · rw [Wave.ureg_putTags]; exact h.uni r
  · have h3 := h.tags i hi q hq
    unfold tagAfter at h3 ⊢
    cases a <;> simp only at h3 hl ⊢
    case lane m =>
      have h4 := ha m rfl
      by_cases hc : p.getLsbD i = true ∧ ∃ j < 4, (m.toNat + j) / 4 = q
      · rw [if_pos hc]
        obtain ⟨hp, j, hj, e⟩ := hc
        have e' : m.toNat / 4 = q := by omega
        apply Wave.tags_putTags_some _ _ _ _ _ hi hq
        · subst hl
          intro x hx h1 h2
          obtain ⟨i', -, rfl⟩ := List.mem_map.1 hx
          simp only at h1 ⊢; rw [h1]
        · subst hl
          exact ⟨_, List.mem_map.2 ⟨i, by simp [hi, hp], rfl⟩, rfl, e'⟩
      · rw [if_neg hc] at h3 ⊢
        rw [Wave.tags_putTags_none _ _ _ _ hq, h3]
        subst hl
        rintro x hx ⟨h1, h2⟩
        obtain ⟨i', hi', rfl⟩ := List.mem_map.1 hx
        simp only at h1 h2; subst h1
        exact hc ⟨((mem_lanesOf p i').1 hi').2, 0, by omega, by omega⟩
    all_goals (subst hl; exact h3)

/-! ### Completing -/

/-- A result that puts f and tag into a destination, whatever the wave held. -/
def Result.Gives (r : Result) (a : Opnd) (n : Nat) (p : LaneSet) (f : Nat → Quad) (tag : Nat → Bool) : Prop :=
  ∀ w : Wave, Wrote w ((w.putAll r.writes).putTags r.tagged) a n p f tag

theorem Result.gives_plain (a : Opnd) (n : Nat) (p : LaneSet) (f : Nat → Quad) (fl : Flags) :
    Result.Gives { writes := writesOf a n p f, flags := fl } a n p f noTag :=
  fun w => wrote_writesOf w a n p f

theorem Result.gives_none (p : LaneSet) (f : Nat → Quad) (fl : Flags) : Result.Gives { flags := fl } .zero 0 p f noTag :=
  fun _ => ⟨fun _ _ _ => rfl, fun _ => rfl, fun _ _ _ _ => rfl⟩

theorem Wave.place_lanes (w : Wave) (m : LaneSet) (on : Bool) (o : Opnd) :
    w.place m on o = { w with opStore := (w.place m on o).opStore } := by
  unfold Wave.place; split <;> rfl

theorem Wave.issued_eq (w : Wave) (c : Cur) (k : Ctl) (b c' d : Opnd) :
    w.issued c k b c' d = { w with
      opStore := (w.issued c k b c' d).opStore, pend := (w.countIssue c.active).pend, yielded := w.yielded || k.yieldBit } := by
  unfold Wave.issued Wave.endTurn
  rw [Wave.place_lanes _ _ k.holdD d, Wave.place_lanes _ _ k.holdC c', Wave.place_lanes _ _ k.holdB b]
  rfl

theorem Wave.advance_lane (w : Wave) (m : LaneSet) (i : Nat) (hi : i < 32) :
    (w.advance m).lane i = if m.getLsbD i then { w.lane i with pc := succPc (w.lane i).pc, paid := false, waitsTo := none } else w.lane i := by
  rw [Wave.advance, Wave.lane_mapLanes _ _ _ hi]

theorem wrote_nothing (w : Wave) (p : LaneSet) (f : Nat → Quad) (tag : Nat → Bool) : Wrote w w .zero 0 p f tag :=
  ⟨fun _ _ _ => rfl, fun _ => rfl, fun _ _ _ _ => rfl⟩

/-- Only registers and tags matter for the wave that a result is written into. -/
theorem wrote_congr {u v w : Wave} {a : Opnd} {n : Nat} {p : LaneSet} {f : Nat → Quad} {tag : Nat → Bool}
    (h : Wrote v w a n p f tag) (hr : ∀ i < 32, (v.lane i).v = (u.lane i).v ∧ (v.lane i).tags = (u.lane i).tags) (hw : v.w = u.w) :
    Wrote u w a n p f tag := by
  have e1 : ∀ i < 32, ∀ r, (v.lane i).reg r = (u.lane i).reg r := fun i hi r => by simp only [Lane.reg, (hr i hi).1]
  have e2 : ∀ r, v.ureg r = u.ureg r := fun r => by simp only [Wave.ureg, hw]
  refine ⟨fun i hi r => ?_, fun r => ?_, fun i hi q hq => ?_⟩
  · have := h.lane i hi r; rw [e1 i hi] at this; exact this
  · have := h.uni r; rw [e2] at this; exact this
  · have := h.tags i hi q hq; rw [(hr i hi).2] at this; exact this

theorem Wave.rest_glue (w v u : Wave) (fl : Flags) (P : List Pending) (Y : Bool)
    (hv : v = { w with lanes := v.lanes, opStore := v.opStore, pend := P, yielded := Y })
    (hu : u = { v with fpstat := v.fpstat ||| fl, lanes := u.lanes, w := u.w, opStore := u.opStore }) :
    (u = { w with
      lanes := u.lanes, w := u.w, opStore := u.opStore, pend := u.pend, pendNext := u.pendNext
      fpstat := w.fpstat ||| fl, yielded := Y }) ∧ u.pend = P ∧ u.pendNext = w.pendNext := by
  cases w; cases v; cases u; simp_all

theorem Wave.rest_glue_later (w v : Wave) (fl : Flags) (P Q : List Pending) (Y : Bool) (m : Nat)
    (hv : v = { w with lanes := v.lanes, opStore := v.opStore, pend := P, yielded := Y }) :
    ({ v with fpstat := v.fpstat ||| fl, pendNext := m, pend := Q } : Wave) = { w with
      lanes := v.lanes, w := v.w, opStore := v.opStore, pend := Q, pendNext := m, fpstat := w.fpstat ||| fl, yielded := Y } := by
  cases w; cases v; simp_all

/-- The part of completing that concerns the wave. -/
theorem Wave.complete_ran (c : Cur) (k : Ctl) (b c' d : Opnd) (r : Result) {a : Opnd} {n : Nat} {p : LaneSet} {f : Nat → Quad}
    {tag : Nat → Bool} (hr : r.Gives a n p f tag) :
    RanWave c.wave (((c.wave.issued c k b c' d).advance c.active).deliver k c.active r) k c.active a n p f tag r.flags := by
  set w := c.wave with hw
  set v := (w.issued c k b c' d).advance c.active with hv
  have hvl : ∀ i < 32, v.lane i = if c.active.getLsbD i then { w.lane i with pc := succPc (w.lane i).pc, paid := false, waitsTo := none } else w.lane i := by
    intro i hi
    rw [hv, Wave.advance_lane _ _ _ hi, Wave.issued_eq]
    rfl
  have hvr : v = { w with
      lanes := v.lanes, opStore := v.opStore, pend := (w.countIssue c.active).pend, yielded := w.yielded || k.yieldBit } := by
    rw [hv, Wave.issued_eq]; rfl
  have hpre : ∀ i < 32, (v.lane i).v = (w.lane i).v ∧ (v.lane i).tags = (w.lane i).tags := by
    intro i hi; rw [hvl i hi]; split <;> exact ⟨rfl, rfl⟩
  have hmv : Moved w v c.active := by
    refine ⟨fun i hi => ?_, fun i hi => ?_⟩
    · rw [hvl i hi]; split <;> rfl
    · rw [hvl i hi]; split <;> exact ⟨rfl, rfl, rfl, rfl⟩
  have hvw : v.w = w.w := by rw [hvr]
  by_cases h0 : k.la = 0
  · have e : v.deliver k c.active r = (({ v with fpstat := v.fpstat ||| r.flags } : Wave).putAll r.writes).putTags r.tagged := by
      simp only [Wave.deliver, h0, if_true]
    set u : Wave := { v with fpstat := v.fpstat ||| r.flags } with hu
    rw [e]
    have hs : u.SameRest ((u.putAll r.writes).putTags r.tagged) := (u.putAll_sameRest _).trans (Wave.putTags_sameRest _ _)
    have hrest : ∀ i < 32, (((u.putAll r.writes).putTags r.tagged).lane i).rest = (v.lane i).rest := by
      intro i hi; rw [Wave.rest_putTags, Wave.rest_putAll _ _ _ hi]; rfl
    have hg := Wave.rest_glue w v _ r.flags _ _ hvr hs
    refine ⟨⟨fun i hi => ?_, fun i hi => ?_⟩, ?_, fun _ => ⟨?_, ?_, ?_⟩, fun h => absurd h0 h⟩
    · have := congrArg (fun x => x.1) (hrest i hi); simp only [Lane.rest] at this
      rw [this]; exact hmv.pc i hi
    · have h1 := congrArg (fun x => x.2) (hrest i hi); simp only [Lane.rest, Prod.mk.injEq] at h1
      rw [h1.1, h1.2.1, h1.2.2.1, h1.2.2.2.1]; exact hmv.kept i hi
    · exact hg.1
    · exact wrote_congr (hr u) (fun i hi => hpre i hi) hvw
    · exact hg.2.1
    · exact hg.2.2
  · have e : v.deliver k c.active r = { v with
        fpstat := v.fpstat ||| r.flags, pendNext := v.pendNext + 1
        pend := v.pend ++ [{ id := v.pendNext, lanes := c.active, waiting := 0, left := (lanesOf c.active).map fun i => (i, k.la.toNat)
                             writes := r.writes, tagged := r.tagged, landing := none, isChain := false, price := 0 }] } := by
      simp only [Wave.deliver, h0, if_false]
    rw [e]
    refine ⟨⟨fun i hi => hmv.pc i hi, fun i hi => hmv.kept i hi⟩, ?_, fun h => absurd h h0, fun _ => ⟨?_, ?_, ?_⟩⟩
    · exact Wave.rest_glue_later w v r.flags _ _ _ _ hvr
    · refine wrote_congr (u := w) (v := v) ?_ hpre hvw
      exact ⟨fun _ _ _ => rfl, fun _ => rfl, fun _ _ _ _ => rfl⟩
    · show v.pendNext + 1 = w.pendNext + 1
      rw [hvr]
    · refine ⟨{ id := v.pendNext, lanes := c.active, waiting := 0, left := (lanesOf c.active).map fun i => (i, k.la.toNat)
                writes := r.writes, tagged := r.tagged, landing := none, isChain := false, price := 0 },
        ?_, ?_, rfl, rfl, rfl, ?_⟩
      · show v.pend ++ _ = _
        rw [show v.pend = (w.countIssue c.active).pend by rw [hvr]]
      · show v.pendNext = w.pendNext
        rw [hvr]
      · exact ⟨fun i hi => (hr _).lane i hi, fun n => (hr _).uni n, fun i hi q hq => (hr _).tags i hi q hq⟩

/-- The agent in hand is a wave or a control stream. -/
theorem State.cur_agent {s : State} {c : Cur} (h : s.cur? = some c) :
    (∃ b i blk, c.agent = .wave b i ∧ c.bid = b ∧ c.wid = i ∧ s.block? b = some blk ∧ blk.wave? i = some c.wave) ∨
    (∃ q, c.agent = .cp q ∧ c.wave = { Wave.start (s.hwq q).pc 0 with w := (s.hwq q).w } ∧ c.active = 1) := by
  unfold State.cur? at h
  split at h
  · simp at h
  · rename_i x hx
    split at h
    · rename_i b i ha
      split at h
      · simp at h
      · rename_i blk hb
        split at h
        · simp at h
        · rename_i wv hwv
          simp only [Option.some.injEq] at h; subst h
          exact Or.inl ⟨b, i, blk, ha, rfl, rfl, hb, hwv⟩
    · rename_i q ha
      simp only [Option.some.injEq] at h; subst h
      exact Or.inr ⟨q, ha, rfl, rfl⟩
    · simp at h

/-- An instruction completes: its issuer holds the result and nothing else changes. -/
theorem State.complete_ran {s : State} {c : Cur} (hc : s.cur? = some c) (k : Ctl) (b c' d : Opnd) (r : Result) {a : Opnd}
    {n : Nat} {p : LaneSet} {f : Nat → Quad} {tag : Nat → Bool} (hr : r.Gives a n p f tag) :
    Ran s (s.complete c k b c' d r) c k a n p f tag r.flags := by
  refine ⟨_, ?_, Wave.complete_ran c k b c' d r hr⟩
  unfold Placed State.complete State.putCur State.cpAdvance
  rcases State.cur_agent hc with ⟨b', i, blk, ha, -⟩ | ⟨q, ha, -⟩
  · simp only [ha]
  · simp only [ha]
    refine ⟨rfl, ?_, fun q' hq => ?_⟩
    · simp [State.hwq_setHwq]
    · simp [State.hwq_setHwq, hq]

/-- The instruction in hand performs a meaning that is written over it. -/
theorem onCur_eq {s : State} {c : Cur} (hc : s.cur? = some c) (f : Cur → State) : onCur s f = .next (f c) := by
  simp only [onCur, hc]

/-- A register-only instruction leaves what its lanes compute. -/
theorem computes_regOp {i : Instr} {s : State} {c : Cur} {k : Ctl} {a b c' d : Opnd} {n pn : Nat}
    {f : Cur → Nat → Quad × Flags} {v : Nat → Quad → Flags → Prop} (hi : exec i s = regOp k a n pn b c' d s f)
    (h : Ready s c k pn [b, c']) (hv : ∀ j < 32, (s.parts c k).getLsbD j = true → v j (f c j).1 (f c j).2) :
    Computes i s c k a n pn [b, c'] v := by
  refine ⟨s.complete c k b c' d
      { writes := writesOf a n (s.parts c k) fun i => (f c i).1
        flags := orFlags ((lanesOf (s.parts c k)).map fun i => (f c i).2) ||| s.paramFlags c (s.parts c k) pn [b, c'] },
    fun j => (f c j).1, fun j => (f c j).2, ?_, ?_, hv⟩
  · rw [hi, regOp, onCur_eq h.1]
    simp only [h.2]
  · exact State.complete_ran h.1 k b c' d _ (Result.gives_plain a n _ _ _)

end Sys2Proof.Machine
end

