-- ==== Sys2Proof/Laws/Integer.lean ====
section
/-! SUPPORT. The elements of an integer result. -/

namespace Sys2Proof.Machine

theorem bits_eq (v lo n : Nat) : bits v lo n = v / 2 ^ lo % 2 ^ n := rfl

/-- An element of a result that is built element by element. -/
theorem bits_perElem (ty : ITy) (f : Nat → Nat) (e : Nat) (he : e < elemsOf ty) (hf : ∀ j, f j < 2 ^ widthOf ty) :
    bits (low64 (perElem ty f)).toNat (widthOf ty * e) (widthOf ty) = f e := by
  have h0 := hf 0
  have h1 := hf 1
  cases ty <;> simp only [elemsOf, widthOf] at he h0 h1 ⊢ <;> interval_cases e <;>
    simp only [low64, perElem, elemsOf, widthOf, upFrom, List.foldl, bits, BitVec.toNat_setWidth, BitVec.toNat_ofNat,
      Nat.zero_add, Nat.mul_zero, Nat.mul_one, Nat.reducePow] <;>
    omega

theorem elemInt_perElem (ty : ITy) (f : Nat → Nat) (e : Nat) (he : e < elemsOf ty) (hf : ∀ j, f j < 2 ^ widthOf ty) :
    elemInt ty (low64 (perElem ty f)) e = if signedTy ty then (BitVec.ofNat (widthOf ty) (f e)).toInt else (f e : Int) := by
  simp only [elemInt, bits_perElem ty f e he hf]

theorem elemOut_lt (ty : ITy) (sat : Bool) (x : Int) : elemOut ty sat x < 2 ^ widthOf ty := by
  unfold elemOut
  have h : (0 : Int) < (2 ^ widthOf ty : Nat) := by positivity
  have h1 := Int.emod_nonneg (if sat then clampInt (intRange (widthOf ty) (signedTy ty)).1 (intRange (widthOf ty) (signedTy ty)).2 x else x) h.ne'
  have h2 := Int.emod_lt_of_pos (if sat then clampInt (intRange (widthOf ty) (signedTy ty)).1 (intRange (widthOf ty) (signedTy ty)).2 x else x) h
  simp only
  omega

theorem clampInt_eq (lo hi x : Int) (h : lo ≤ hi) : clampInt lo hi x = max lo (min hi x) := by
  unfold clampInt; split_ifs <;> omega

/-- An element of an exact result, as its type reads it. -/
theorem delivers_perElem (ty : ITy) (sat : Bool) (x : Nat → Int) (e : Nat) (he : e < elemsOf ty) :
    Delivers ty sat (elemInt ty (low64 (perElem ty fun j => elemOut ty sat (x j))) e) (x e) := by
  rw [elemInt_perElem ty _ e he (fun j => elemOut_lt ty sat (x j))]
  generalize x e = y
  unfold Delivers elemOut
  cases ty <;> cases sat <;>
    simp only [widthOf, signedTy, intRange, Bool.false_eq_true, if_false, if_true, clampInt, BitVec.toInt_ofNat', Nat.reducePow, Nat.reduceSub] <;>
    (try simp only [Int.bmod_def]) <;> (try split_ifs) <;> omega

/-- An exact element that lies in the range of its type is read back as it is. -/
theorem elemInt_exact (ty : ITy) (x : Nat → Int) (e : Nat) (he : e < elemsOf ty)
    (h : (intRange (widthOf ty) (signedTy ty)).1 ≤ x e ∧ x e ≤ (intRange (widthOf ty) (signedTy ty)).2) :
    elemInt ty (low64 (perElem ty fun j => elemOut ty false (x j))) e = x e := by
  rw [elemInt_perElem ty _ e he (fun j => elemOut_lt ty false (x j))]
  revert h
  generalize x e = y
  unfold elemOut
  cases ty <;>
    simp only [widthOf, signedTy, intRange, Bool.false_eq_true, if_false, if_true, BitVec.toInt_ofNat', Nat.reducePow, Nat.reduceSub] <;>
    (try simp only [Int.bmod_def]) <;> intro h <;> (try split_ifs) <;> omega

/-- Every element lies in the range of its type. -/
theorem elemInt_range (ty : ITy) (x : Dword) (e : Nat) :
    (intRange (widthOf ty) (signedTy ty)).1 ≤ elemInt ty x e ∧ elemInt ty x e ≤ (intRange (widthOf ty) (signedTy ty)).2 := by
  simp only [elemInt]
  have h : bits x.toNat (widthOf ty * e) (widthOf ty) < 2 ^ widthOf ty := Nat.mod_lt _ (by positivity)
  generalize bits x.toNat (widthOf ty * e) (widthOf ty) = u at h ⊢
  cases ty <;> simp only [widthOf] at h ⊢ <;>
    simp only [signedTy, intRange, Bool.false_eq_true, if_false, if_true, BitVec.toInt_ofNat'] <;>
    (try simp only [Int.bmod_def]) <;> (try split_ifs) <;> omega

end Sys2Proof.Machine
end

