-- ==== Sys2Proof/Laws/Memory.lean ====
section
/-! SUPPORT. Memory: every operation keeps the canonical form, a read after a write gives what was written, and a write
leaves every other byte and every other part of the machine alone. -/

namespace Sys2Proof.Machine

/-! ### Bytes -/

theorem lget_of_le {α : Type} (d : α) (l : List α) (n : Nat) (h : l.length ≤ n) : lget d l n = d := by
  induction l generalizing n with
  | nil => rfl
  | cons x t ih => cases n with
    | zero => simp at h
    | succ n => simp [lget, ih n (by simpa using h)]

theorem bytesOf_length (n v : Nat) : (bytesOf n v).length = n := by
  induction n generalizing v with
  | zero => rfl
  | succ n ih => simp [bytesOf, ih]

theorem ofBytes_bytesOf (n v : Nat) : ofBytes (bytesOf n v) = v % 2 ^ (8 * n) := by
  induction n generalizing v with
  | zero => simp [bytesOf, ofBytes, Nat.mod_one]
  | succ n ih =>
    simp only [bytesOf, ofBytes, ih, BitVec.toNat_ofNat]
    have h : 2 ^ (8 * (n + 1)) = 256 * 2 ^ (8 * n) := by ring
    rw [h, Nat.mod_mul]

theorem ofBytes_lt (l : List Byte) : ofBytes l < 2 ^ (8 * l.length) := by
  induction l with
  | nil => simp [ofBytes]
  | cons b t ih =>
    simp only [ofBytes, List.length_cons]
    have h : 2 ^ (8 * (t.length + 1)) = 256 * 2 ^ (8 * t.length) := by ring
    have := b.isLt
    omega

/-! ### Cells -/

theorem putBytes_wf (m : List Host.Cell) (a : Nat) (bs : List Byte) (h : Memory.wf m = true) :
    Memory.wf (putBytes m a bs) = true := by
  induction bs generalizing m a with
  | nil => exact h
  | cons b t ih => exact ih _ _ (twf_tset 0 m a b h)

theorem tget_putBytes (m : List Host.Cell) (a : Nat) (bs : List Byte) (x : Nat) :
    tget 0 (putBytes m a bs) x = if a ≤ x ∧ x < a + bs.length then lget 0 bs (x - a) else tget 0 m x := by
  induction bs generalizing m a with
  | nil => simp [putBytes]
  | cons b t ih =>
    simp only [putBytes, ih, tget_tset, List.length_cons]
    by_cases hx : x = a
    · subst hx; simp [lget]
    · by_cases hl : a + 1 ≤ x ∧ x < a + 1 + t.length
      · obtain ⟨k, hk⟩ : ∃ k, x - a = k + 1 := ⟨x - a - 1, by omega⟩
        rw [if_pos hl, if_pos (by omega), hk, show x - (a + 1) = k by omega, lget]
      · rw [if_neg hl, if_neg hx, if_neg (by omega)]

/-! ### The home -/

/-- What a write performed at home can change. -/
theorem State.homeWrite_frame (s : State) (sa : Nat) (bs : List Byte) : s.homeWrite sa bs = { s with
    mem := putBytes s.mem sa bs, tags := (s.homeWrite sa bs).tags, poison := (s.homeWrite sa bs).poison
    sound := (s.homeWrite sa bs).sound, dir := (s.homeWrite sa bs).dir, out := (s.homeWrite sa bs).out
    invalWait := (s.homeWrite sa bs).invalWait } := by
  unfold State.homeWrite
  split
  · rename_i h
    rw [List.isEmpty_iff.mp h]
    rfl
  · cases h : tfind s.dir (lineOf sa) <;> simp only [State.invalidateSharers, h] <;> split <;> rfl

@[simp] theorem State.homeWrite_mem (s : State) (sa : Nat) (bs : List Byte) :
    (s.homeWrite sa bs).mem = putBytes s.mem sa bs := by rw [State.homeWrite_frame]

theorem State.homeWrite_wf (s : State) (sa : Nat) (bs : List Byte) (h : Memory.wf s.mem = true) :
    Memory.wf (s.homeWrite sa bs).mem = true := by
  rw [State.homeWrite_mem]
  exact putBytes_wf _ _ _ h

/-- A byte read after a write performed at home. -/
theorem State.homeByte_homeWrite (s : State) (sa : Nat) (bs : List Byte) (x : Nat) :
    (s.homeWrite sa bs).homeByte x = if sa ≤ x ∧ x < sa + bs.length then lget 0 bs (x - sa) else s.homeByte x := by
  simp only [State.homeByte, State.homeWrite_mem, tget_putBytes]

/-- A write leaves the bytes of another range alone. -/
theorem State.homeBytes_homeWrite_ne (s : State) (sa : Nat) (bs : List Byte) (a n : Nat)
    (h : a + n ≤ sa ∨ sa + bs.length ≤ a) : (s.homeWrite sa bs).homeBytes a n = s.homeBytes a n := by
  refine List.map_congr_left fun x hx => ?_
  have := (mem_upFrom a n x).mp hx
  rw [State.homeByte_homeWrite, if_neg (by omega)]

theorem map_upFrom_lget (bs : List Byte) (f : Nat → Byte) (a : Nat) (h : ∀ i < bs.length, f (a + i) = lget 0 bs i) :
    (upFrom a bs.length).map f = bs := by
  induction bs generalizing a with
  | nil => rfl
  | cons b t ih =>
    simp only [List.length_cons, upFrom, List.map_cons]
    rw [ih (a + 1) fun i hi => by
      have := h (i + 1) (by simpa using hi)
      rwa [show a + (i + 1) = a + 1 + i by omega] at this]
    have := h 0 (by simp)
    simp only [Nat.add_zero, lget] at this
    rw [this]

/-- Bytes read after they are written. -/
theorem State.homeBytes_homeWrite (s : State) (sa : Nat) (bs : List Byte) : (s.homeWrite sa bs).homeBytes sa bs.length = bs := by
  refine map_upFrom_lget bs _ sa fun i hi => ?_
  rw [State.homeByte_homeWrite, if_pos (by omega)]
  congr 1
  omega

/-- A number read after it is written. -/
theorem State.homeNat_homeWrite (s : State) (sa n v : Nat) :
    (s.homeWrite sa (bytesOf n v)).homeNat sa n = v % 2 ^ (8 * n) := by
  have h := s.homeBytes_homeWrite sa (bytesOf n v)
  rw [bytesOf_length] at h
  rw [State.homeNat, h, ofBytes_bytesOf]

theorem State.homeNat_homeWrite_ne (s : State) (sa : Nat) (bs : List Byte) (a n : Nat)
    (h : a + n ≤ sa ∨ sa + bs.length ≤ a) : (s.homeWrite sa bs).homeNat a n = s.homeNat a n := by
  rw [State.homeNat, State.homeNat, State.homeBytes_homeWrite_ne _ _ _ _ _ h]

/-! ### Poison -/

theorem mem_sins (l : List Nat) (n m : Nat) : m ∈ sins l n ↔ m = n ∨ m ∈ l := by
  induction l with
  | nil => simp [sins]
  | cons k t ih =>
    simp only [sins]
    split
    · simp
    · split
      · subst_vars; simp
      · simp [ih]; tauto

/-- A line that is poisoned reads as poisoned (R221). -/
theorem State.hurt_isPoisoned (s : State) (sa : Nat) : (s.hurt (lineOf sa)).isPoisoned sa = true := by
  simp [State.isPoisoned, State.hurt, mem_sins]

/-! ### Caches -/

theorem State.putDirty_mem (s : State) (d : DirtyByte) : (s.putDirty d).mem = s.mem := rfl

theorem State.putBytesAt_mem (s : State) (core lvl slice sa : Nat) (noDie : Bool) (bs : List Byte) :
    (s.putBytesAt core lvl slice noDie sa bs).mem = s.mem := by
  induction bs generalizing s sa with
  | nil => rfl
  | cons b t ih => rw [State.putBytesAt, ih]; rfl

theorem foldl_mem_wf {α : Type} (f : State → α → State) (l : List α)
    (hf : ∀ s x, Memory.wf s.mem = true → Memory.wf (f s x).mem = true) (s : State) (h : Memory.wf s.mem = true) :
    Memory.wf (l.foldl f s).mem = true := by
  induction l generalizing s with
  | nil => exact h
  | cons x t ih => exact ih _ (hf s x h)

theorem foldl_mem_eq {α : Type} (f : State → α → State) (l : List α) (hf : ∀ s x, (f s x).mem = s.mem) (s : State) :
    (l.foldl f s).mem = s.mem := by
  induction l generalizing s with
  | nil => rfl
  | cons x t ih => rw [List.foldl_cons, ih, hf]

theorem State.backDie_mem (s : State) (p : DirtyByte → Bool) : (s.backDie p).mem = s.mem := by
  rw [State.backDie]
  exact foldl_mem_eq (fun s (d : DirtyByte) => s.putDirty { d with lvl := 1 }) _ (fun _ _ => rfl) _

theorem State.backHome_wf (s : State) (p : DirtyByte → Bool) (h : Memory.wf s.mem = true) :
    Memory.wf (s.backHome p).mem = true := by
  rw [State.backHome]
  exact foldl_mem_wf State.heal _ (fun _ _ h => h) _
    (foldl_mem_wf (fun s (d : DirtyByte) => s.homeWrite d.sa [d.val]) _ (fun s x h => s.homeWrite_wf _ _ h) _ h)

theorem State.toHome_wf (s : State) (core : Nat) (h : Memory.wf s.mem = true) : Memory.wf (s.toHome core).mem = true :=
  State.backHome_wf _ _ (by rw [State.backDie_mem]; exact h)

theorem State.toDie_wf (s : State) (core : Nat) (h : Memory.wf s.mem = true) : Memory.wf (s.toDie core).mem = true := by
  have hd : Memory.wf (s.backDie (s.inL1Of core)).mem = true := by rw [State.backDie_mem]; exact h
  unfold State.toDie
  simp only
  split
  · exact State.backHome_wf _ _ hd
  · exact hd

theorem State.makeRoom_wf (s : State) (core lvl slice line : Nat) (h : Memory.wf s.mem = true) :
    Memory.wf (s.makeRoom core lvl slice line).mem = true := by
  unfold State.makeRoom
  simp only
  by_cases hl : lvl = 0 <;> simp only [hl, if_true, if_false] <;> split
  · exact h
  · exact s.toDie_wf core h
  · exact h
  · exact s.backHome_wf _ h

/-- A write of a core keeps memory's form, whatever it puts out of the cache. -/
theorem State.dirtyBytes_wf (s : State) (core lvl va : Nat) (noDie : Bool) (sa : Nat) (bs : List Byte) (h : Memory.wf s.mem = true) :
    Memory.wf (s.dirtyBytes core lvl va noDie sa bs).mem = true := by
  rw [State.dirtyBytes, State.putBytesAt_mem]
  exact s.makeRoom_wf _ _ _ _ h

theorem State.writeBackAt_wf (s : State) (core : Nat) (sc : Scope) (h : Memory.wf s.mem = true) :
    Memory.wf (s.writeBackAt core sc).mem = true := by
  cases sc <;> simp only [State.writeBackAt]
  · exact h
  · split
    · exact h
    · exact s.toDie_wf core h
  · exact s.toDie_wf core h
  · exact s.toHome_wf core h
  · exact s.toHome_wf core h

theorem State.flushBytes_wf (s : State) (core sa n : Nat) (h : Memory.wf s.mem = true) :
    Memory.wf (s.flushBytes core sa n).mem = true := by
  unfold State.flushBytes
  split
  · exact s.toHome_wf core h
  · exact h

theorem State.homeWriteTagged_wf (s : State) (sa : Nat) (bs : List Byte) (on : Bool) (h : Memory.wf s.mem = true) :
    Memory.wf (s.homeWriteTagged sa bs on).mem = true := s.homeWrite_wf sa bs h

theorem State.setMergeTable_mem (s : State) (n : Nat) (l : List MergeEntry) : (s.setMergeTable n l).mem = s.mem := by
  unfold State.setMergeTable
  split <;> rfl

theorem State.interrupt_mem (s : State) (n : Nat) : (s.interrupt n).mem = s.mem := by
  unfold State.interrupt
  split <;> rfl

theorem State.emitOne_wf (s : State) (h : Memory.wf s.mem = true) : Memory.wf s.emitOne.mem = true := by
  unfold State.emitOne
  split
  · exact h
  · split
    · exact h
    · rw [State.interrupt_mem]
      simp only
      split
      · exact s.homeWrite_wf _ _ h
      · rw [State.setMergeTable_mem]
        exact s.homeWrite_wf _ _ h

/-- Memory after reset is in canonical form. -/
theorem reset_mem_wf : Memory.wf State.reset.mem = true := rfl

end Sys2Proof.Machine
end

