-- ==== Sys2Proof/Tests/Slice0.lean ====
section
/-! SUPPORT. Tests: the words of every instruction written out from the spec's encodings, ill-formed terms, single steps
whose results the spec's worked examples give, and for each statement a state and operands that meet its hypotheses. -/

namespace Sys2Proof.Tests

open Machine

set_option Elab.async false

/-! ### Decoding: every instruction's word, written out from the encodings of its entry (R98, R116 and the reference entries) -/

/-- Each word decodes to its instruction in a stream, which encodes to the word. -/
def readsAs (st : Stream) (l : List (Nat × Instr)) : Bool :=
  l.all fun x => decode st (BitVec.ofNat 96 x.1) == .ok x.2 && encode x.2 == some (BitVec.ofNat 96 x.1) && x.2.wf st

theorem test_decode_class0_wave : readsAs .wave (let k := Ctl.plain .wave
    [(0x000000000000000000000000, .nop k),
     (0x001FFFD803FE000000000001, .bra k 0x3FFFB),
     (0x000000000008000000000002, .brx k (.lane 4)),
     (0x0000004803FE060000000003, .call k (.lane 6) 9),
     (0x000000000204060000000004, .callx k (.lane 6) (.uni 2)),
     (0x00000000000C000000000005, .ret k (.lane 6)),
     (0x000000000000000000000006, .exit k),
     (0x000000000000000000000007, .yieldI k),
     (0x0000032003FE000000000008, .sleep k (.imm 100)),
     (0x0000015003FE000000000009, .trap k 0x2A),
     (0x00000000000000000000040A, .rtt k true),
     (0x00000000000000000000000B, .bkpt k)]) = true := by decide +kernel

theorem test_decode_class1_wave : readsAs .wave (let k := Ctl.plain .wave
    [(0x001FFFDFFC160A0000000040, .iadd k .i32 false (.lane 10) (.lane 11) (.imm 0x3FFFB)),
     (0x00000A040C04010000004441, .iaddt k .n32 true (.lane 1) (.lane 2) (.uni 3) .zero),
     (0x000000301408020000004442, .iaddc k true (.lane 2) (.lane 4) (.lane 5) (.lane 6)),
     (0x000000001808020000008043, .isub k .i64 false (.lane 2) (.lane 4) (.lane 6)),
     (0x000000000C04010000004044, .imul k .n32 (.lane 1) (.lane 2) (.lane 3)),
     (0x000000000C04010000000045, .imulh k .i32 (.lane 1) (.lane 2) (.lane 3)),
     (0x000000200C04010000010046, .imad k .i16 (.lane 1) (.lane 2) (.lane 3) (.lane 4)),
     (0x000000200C04080000004047, .imadw k .n32 (.lane 8) (.lane 2) (.lane 3) (.lane 4)),
     (0x000000050804010000014048, .imin k .n16 (.lane 1) (.lane 2) .laneIdx),
     (0x00000005040802000000C049, .imax k .n64 (.lane 2) (.lane 4) .ones),
     (0x00000000000401000000044A, .iabs k .i32 true (.lane 1) (.lane 2)),
     (0x00000027FE0303000000544B, .icmp k .ge .n32 (.uni 3) (.uni 1) (.imm 4)),
     (0x000000B500140A000000404C, .sel k false (.lane 10) (.lane 10) .zero (.lane 22)),
     (0x000000050A8000000000504D, .lea k false 2 false (.lane 0) .zero .laneIdx)]) = true := by decide +kernel

theorem test_decode_class2_wave : readsAs .wave (let k := Ctl.plain .wave
    [(0x0000004003FC08000000C080, .mov k true (.lane 8) (.param 0 8)),
     (0x000100000003080000004081, .movi k (.uni 8) 0x80000001),
     (0x000E80200C04010000004082, .logt k false (.lane 1) (.lane 2) (.lane 3) (.lane 4) 0xE8),
     (0x0000000FFC1014000000C083, .shl k .w64 (.lane 20) (.lane 8) (.imm 1)),
     (0x000000E7FC2C170000004084, .shr k .w32 (.lane 23) (.lane 22) (.imm 28)),
     (0x000000000C04010000010085, .sha k .p16 (.lane 1) (.lane 2) (.lane 3)),
     (0x000000200C04010000004886, .shd k true false (.lane 1) (.lane 2) (.lane 3) (.lane 4)),
     (0x00001007FE03070000004087, .bfx k .n32 (.uni 7) (.uni 1) (.imm 0x200)),
     (0x000000000C04010000004088, .bfi k false (.lane 1) (.lane 2) (.lane 3)),
     (0x00000000000802000000C089, .brev k true (.lane 2) (.lane 4)),
     (0x00000000000401000000408A, .clz k false (.lane 1) (.lane 2)),
     (0x00000000000401000000408B, .popc k false (.lane 1) (.lane 2)),
     (0x0000002FFC0501000000408C, .rdlane k false (.uni 1) (.lane 2) (.imm 5)),
     (0x0000000000280B000000408D, .hrnd k false (.lane 11) (.lane 20) (.lane 0)),
     (0x000000300810040000004090, .cnarrow k (.lane 4) (.lane 8) (.lane 2) (.lane 6)),
     (0x0000001FFC10040000004091, .cperm k (.lane 4) (.lane 8) (.imm 3)),
     (0x0000000803FE040000004092, .cget k (.lane 4) (.imm 1)),
     (0x000000000808010000005C93, .cchk k .write .b16 (.lane 1) (.lane 4) (.lane 2)),
     (0x000000000000040000004094, .cclr k (.lane 4))]) = true := by decide +kernel

theorem test_decode_class3_wave : readsAs .wave (let k := Ctl.plain .wave
    [(0x0000000004281700000000C0, .fadd k .f32 .rn (.lane 23) (.lane 20) (.lane 1)),
     (0x000000000C040100000050C1, .fsub k .f16 .rz (.lane 1) (.lane 2) (.lane 3)),
     (0x000000000C0401000000B0C2, .fmul k .bf16 .ru (.lane 1) (.lane 2) (.lane 3)),
     (0x000000601C0C0C00000000C3, .ffma k .f32 .rn (.lane 12) (.lane 6) (.lane 7) (.lane 12)),
     (0x000000000C040100000004C4, .fmin k .f32 true (.lane 1) (.lane 2) (.lane 3)),
     (0x000000000C040100000040C5, .fmax k .f16 false (.lane 1) (.lane 2) (.lane 3)),
     (0x000000000C040100000018C6, .fcmp k .un .f32 (.lane 1) (.lane 2) (.lane 3)),
     (0x0000000000040100000080C7, .fclass k .bf16 (.lane 1) (.lane 2)),
     (0x0000000000040100000024C8, .frnd k .f32 .rd true (.lane 1) (.lane 2)),
     (0x000000200C040100000040C9, .fdot2 k .f16 .rn (.lane 1) (.lane 2) (.lane 3) (.lane 4)),
     (0x0000000000040100000010D0, .frcp k .f32 .rz (.lane 1) (.lane 2)),
     (0x0000000000040100000000D1, .frsq k .f32 .rn (.lane 1) (.lane 2)),
     (0x0000000000040100000040D2, .fsqrt k .f16 .rn (.lane 1) (.lane 2)),
     (0x0000000000040100000000D3, .fex2 k .f32 (.lane 1) (.lane 2)),
     (0x0000000000040100000080D4, .flg2 k .bf16 (.lane 1) (.lane 2)),
     (0x0000000000040100000000D5, .fsin k .f32 (.lane 1) (.lane 2)),
     (0x0000000000040100000000D6, .fcos k .f32 (.lane 1) (.lane 2)),
     (0x0000000000040100000040D7, .ftanh k .f16 (.lane 1) (.lane 2))]) = true := by decide +kernel

theorem test_decode_class4_wave : readsAs .wave (let k := Ctl.plain .wave
    [(0x000000000C04010000000500, .padd k .f16 .rn (.lane 1) (.lane 2) (.lane 3)),
     (0x000000000C04010000004901, .pmul k .bf16 .rz (.lane 1) (.lane 2) (.lane 3)),
     (0x000000200C0401000000C502, .pfma k .f16 .ru (.lane 1) (.lane 2) (.lane 3) (.lane 4)),
     (0x000000000C04010000000503, .pmin k .f16 (.lane 1) (.lane 2) (.lane 3)),
     (0x000000000C04010000000904, .pmax k .bf16 (.lane 1) (.lane 2) (.lane 3)),
     (0x000000300004010000010D08, .cvt k .e4m3 .f32 .rs (.lane 1) (.lane 2) (.lane 0) (.lane 6)),
     (0x000010000004010000007109, .cvts k .i32 .f16 .rz (.lane 1) (.lane 2) (.lane 0) (.lane 0)),
     (0x00000000000401000000150A, .qscal k .lns6 (.lane 1) (.lane 2))]) = true := by decide +kernel

theorem test_decode_class5_wave : readsAs .wave (let k := Ctl.plain .wave
    [(0x0000004003FE000000000140, .part k (.imm 8)),
     (0x00000087FC04010000000D41, .shfl k false .xor (.lane 1) (.lane 2) (.imm 16)),
     (0x000000000004010000000D42, .vote k .ballot (.lane 1) (.lane 2)),
     (0x000000000004010000004943, .redt k .max .i32 (.lane 1) (.lane 2)),
     (0x00000000000401000000A144, .scant k true .add .f32 (.lane 1) (.lane 2)),
     (0x000000000004010000000545, .matchT k true false (.lane 1) (.lane 2)),
     (0x0000001803FE000000000146, .elect k 3),
     (0x000000000000000000000147, .elend k)]) = true := by decide +kernel

theorem test_decode_class6_wave : readsAs .wave (let k := Ctl.plain .wave
    [(0x00000087FC04140000000184, .ld k .n32 none false false (.lane 20) (.lane 2) (.imm 16)),
     (0x00000065001000000000E58C, .st k .quad (some .die) false true (.lane 8) .zero (.lane 12)),
     (0x000000000402020000000590, .ldp k true 1 (.lane 2) (.lane 1)),
     (0x000000350024140000000591, .ldchain k true false (.lane 20) (.lane 18) .zero (.lane 6)),
     (0x00000407FC10000000000992, .prf k true (.lane 8) (.imm 128)),
     (0x00002825000C000000015193, .waita k .ge false (some .sys) false (.lane 6) .zero (.uni 4)),
     (0x00000807FC04000000010994, .cctl k .wbi .pkg (.lane 2) (.imm 256)),
     (0x000000000000000000000195, .rgn k),
     (0x000000000000000000000196, .rgnc k),
     (0x0000803500080200000115A7, .atom k .cas true false .pkg .acq false (.lane 2) (.lane 4) .zero (.lane 6) (.lane 8)),
     (0x00000835001C0000000161B0, .red k .add false false .sys true false (.lane 14) .zero (.uni 6))]) = true := by decide +kernel

theorem test_decode_class7_wave : readsAs .wave (let k := Ctl.plain .wave
    [(0x0000000000000000000141C0, .fence k .sys),
     (0x0000002FFC040000000101C1, .acqp k .pkg (.lane 2) (.imm 5)),
     (0x00000005000800000000C5C1, .acqpCap k .die (.lane 4) .zero),
     (0x000000000000000000002DC2, .qfence k 0xB),
     (0x0000000002800000000005C8, .bar k 1 .zero),
     (0x0000002003FE000000003DC9, .bara k 15 (.imm 4)),
     (0x000000000000000000000DCA, .barw k 3),
     (0x0000000002800000000181C8, .barLaunch k),
     (0x0000000002800000000181C9, .baraLaunch k),
     (0x0000000000000000000181CA, .barwLaunch k),
     (0x00000047FC020000000009CB, .mbar k 2 (.lane 1) (.imm 8)),
     (0x000000000000000000001DCC, .mbwait k 7),
     (0x0000020003FE0100000001CD, .bcw k (.lane 1) (.imm 64)),
     (0x0000000000040000000015D0, .qpush k 5 (.lane 2)),
     (0x0000000000000200000015D1, .qpop k 5 (.lane 2)),
     (0x000000000000020000001DD2, .qtry k 7 (.lane 2))]) = true := by decide +kernel

theorem test_decode_class8_wave : readsAs .wave (let k := Ctl.plain .wave
    [(0x0000000FFC02000000002200, .ckick k 2 (.lane 1) (.imm 1)),
     (0x000000000802000000000201, .puts k 0 (.lane 1) (.lane 2)),
     (0x000000000802000000001202, .get k 1 (.lane 1) (.lane 2)),
     (0x000000000802000000003203, .radd k 3 (.lane 1) (.lane 2)),
     (0x000000000802000000003204, .mput k 3 (.lane 1) (.lane 2)),
     (0x000000000802000000001604, .mputRed k 1 (.lane 1) (.lane 2)),
     (0x000000000802000000000A04, .mputOrd k 0 (.lane 1) (.lane 2)),
     (0x000000000002000000002205, .pcoll k 2 (.lane 1))]) = true := by decide +kernel

theorem test_decode_class9_matrix : readsAs .matrix (let k := Ctl.plain .matrix
    [(0x000000000004210000000240, .mlay k (.x 1) (.m 2)),
     (0x000000208C44010000000241, .mma k (.m 1) (.x 2) (.x 3) (.m 4)),
     (0x000000000004010000000242, .mzero k (.m 1) (.m 2)),
     (0x000000180842000000004643, .mst k .f16 true false (.x 1) (.m 2) (.m 3) (.m 0)),
     (0x000000000C44010000000244, .mld k (.m 1) (.x 2) (.m 3)),
     (0x000000000048000000000E45, .mscl k .zb (.x 4)),
     (0x000000000000000000001246, .mwait k 4),
     (0x0000000803FE000000001647, .msig k 5 (.imm 1)),
     (0x001FFFF003FE000000000248, .mjmp k 0x3FFFE),
     (0x001FFFE803FE070000000249, .mloop k (.m 7) 0x3FFFD),
     (0x00000107FC0401000000024A, .madd k (.m 1) (.m 2) (.imm 32)),
     (0x00000000000421000000064A, .maddR k (.x 1) (.m 2)),
     (0x0000040003FE210000000A4A, .maddC k (.x 1) (.imm 128)),
     (0x00000000000A01000000024B, .mmov k (.m 1) (.m 5)),
     (0x00002468ACF001000000064B, .mmovW k (.m 1) 0x12345678),
     (0x00000000000003000000064C, .mbcnt k true (.m 3)),
     (0x00000000000000000000024D, .mend k)]) = true := by decide +kernel

theorem test_decode_classA_control : readsAs .control (let k := Ctl.plain .control
    [(0x000000041204000000003284, .waitv k .mask true (.uni 2) (.uni 4)),
     (0x0000000FFE04000000004685, .sigv k .add false true (.uni 2) (.imm 1))]) = true := by decide +kernel

theorem test_decode_classA_wave : readsAs .wave (let k := Ctl.plain .wave
    [(0x000000000008020000000280, .launch k (.lane 2) (.lane 4)),
     (0x0000006003FE000000000281, .gsig k (.imm 12)),
     (0x000000000004010000000682, .cancel k true (.lane 1) (.lane 2)),
     (0x000000000002020000000283, .cntr k (.lane 2) (.lane 1)),
     (0x000000000000010000001288, .tkrd k .stall (.lane 1) (.lane 0)),
     (0x000000F003FE010000000A89, .pint k 2 (.lane 1) (.imm 30)),
     (0x00008007FC0400000000028A, .rhint k (.lane 2) (.imm 4096)),
     (0x0000004803FE01000000028C, .srd k (.lane 1) (.imm 9)),
     (0x00000000040400000000028D, .swr k (.lane 2) (.lane 1))]) = true := by decide +kernel

/-! ### Ill-formed terms, one for each check of Instr.wf -/

/-- An ill-formed term: no stream's encoding holds it. -/
def refused (st : Stream) (l : List Instr) : Bool := l.all fun i => !i.wf st

theorem test_wf_stream : refused .matrix [.exit (Ctl.plain .matrix), .waitv (Ctl.plain .matrix) .eq false .zero .zero] = true ∧
    refused .wave [.mend (Ctl.plain .wave), .waitv (Ctl.plain .wave) .eq false .zero .zero] = true ∧
    refused .control [.fence (Ctl.plain .control) .sys, .refillTick] = true := by decide +kernel

theorem test_wf_guard :
    let k := Ctl.plain .wave
    refused .wave [.nop { k with guard := ⟨0, .lane 3, 0, 0, false, false⟩ }, .rgn { k with guard := ⟨1, .lane 3, 0, 0, false, false⟩ },
      .rtt { k with guard := ⟨1, .lane 3, 0, 0, false, false⟩ } false, .nop { k with guard := ⟨1, .m 3, 0, 0, false, false⟩ }] = true ∧
    refused .control [.mov { Ctl.plain .control with guard := ⟨1, .lane 3, 0, 0, false, false⟩ } false (.uni 1) (.uni 2)] = true := by
  decide +kernel

theorem test_wf_control_fields :
    let k := Ctl.plain .wave
    refused .wave [.iadd { k with la := 1 } .i32 false (.lane 1) (.lane 2) (.lane 3),
      .iadd { k with hint := 1 } .i32 false (.lane 1) (.lane 2) (.lane 3),
      .ld { k with hint := 6 } .n32 none false false (.lane 1) (.lane 2) .zero,
      .iadd { k with holdC := true } .i32 false (.lane 1) (.lane 2) (.imm 3),
      .iadd { k with holdD := true } .i32 false (.lane 1) (.lane 2) (.lane 3),
      .movi { k with holdB := true } (.lane 1) 7] = true ∧
    refused .matrix [.mmov { Ctl.plain .matrix with yieldBit := true } (.m 1) (.m 2)] = true := by decide +kernel

theorem test_wf_operands :
    let k := Ctl.plain .wave
    refused .wave [.iadd k .i32 false (.m 1) (.lane 2) (.lane 3), .iadd k .i32 false (.lane 1) (.x 2) (.lane 3),
      .iadd k .i32 false (.lane 1) (.lane 2) (.m 3), .imad k .i32 (.lane 1) (.lane 2) (.lane 3) (.x 4),
      .atom k .cas false false .pkg .relaxed false (.lane 1) (.lane 2) .zero (.lane 3) (.m 4)] = true ∧
    refused .matrix [.mmov (Ctl.plain .matrix) (.lane 1) (.m 2)] = true ∧
    refused .control [.mov (Ctl.plain .control) false (.uni 1) (.param 0 4)] = true := by decide +kernel

theorem test_wf_room :
    refused .wave [.imad (Ctl.plain .wave) .i32 (.lane 1) (.lane 2) (.imm 3) (.lane 4),
      .shfl (Ctl.plain .wave) false .idx (.lane 1) (.imm 2) (.imm 3)] = true := by decide +kernel

theorem test_wf_modifier :
    let k := Ctl.plain .wave
    refused .wave [.iaddt k .i16 false (.lane 2) (.lane 4) (.lane 6) (.lane 8), .qfence k 0, .pint k 1 (.lane 1) (.lane 2),
      .ld k .n32 none true true (.lane 4) (.lane 8) .zero, .redt k .and .f32 (.lane 1) (.lane 2)] = true := by decide +kernel

theorem test_wf_unused_e :
    refused .wave [.atom (Ctl.plain .wave) .add false false .pkg .relaxed false (.lane 1) (.lane 2) .zero (.lane 3) (.lane 4)] =
      true := by decide +kernel

/-! ### A small world -/

/-- A wave at the placed PC, each of these registers holding one value in every lane. -/
def waveWith (rs : List (Nat × Nat)) : Wave :=
  (Wave.start (BitVec.ofNat 57 placedOffset) 65535).mapLanes fun _ l =>
    rs.foldl (fun l r => l.setReg r.1 (BitVec.ofNat 32 r.2)) l

/-- The block of that wave: what placedBlock gives, changed. -/
def blockOf (w : Wave) (f : Block → Block) : Block :=
  { f (placedBlock (BitVec.ofNat 57 placedOffset) 128) with waves := [w], ctx := 0 }

/-- One wave of one block of context 0, whose instruction is in hand in the given lanes. GiB 0 of the window is mapped, GiB 1
is the scratchpad aperture, GiB 2 the stack aperture. -/
def worldOf (w : Wave) (f : Block → Block) (act : LaneSet) : State :=
  let s := State.reset.withFetchWord 96 0
  let s1 := (s.setCtx 0 { s.ctx 0 with aper := BitVec.ofNat 64 (1 + 2 * 2 ^ 34) }).setBlock 0 (blockOf w f)
  { s1 with agenda := [], issue := some { agent := .wave 0 0, active := act, price := 0 } }

/-- The instruction in hand there. -/
def handOf (w : Wave) (f : Block → Block) (act : LaneSet) : Cur :=
  { agent := .wave 0 0, bid := 0, wid := 0, core := 0, ctx := 0, wave := w, active := act, price := 0
    params := (blockOf w f).params, trapOnParam := (blockOf w f).trapOnParam }

theorem worldOf_cur (w : Wave) (f : Block → Block) (act : LaneSet) : (worldOf w f act).cur? = some (handOf w f act) := by
  rfl

theorem worldOf_ofWave (w : Wave) (f : Block → Block) (act : LaneSet) :
    OfWave (worldOf w f act) (handOf w f act) (blockOf w f) := ⟨rfl, rfl, rfl⟩

abbrev kw : Ctl := Ctl.plain .wave

/-- Every lane of the wave, with id as the block; and lane 0 alone. -/
abbrev W (rs : List (Nat × Nat)) : State := worldOf (waveWith rs) id allLanes
abbrev H (rs : List (Nat × Nat)) : Cur := handOf (waveWith rs) id allLanes
abbrev W1 (rs : List (Nat × Nat)) : State := worldOf (waveWith rs) id 1
abbrev H1 (rs : List (Nat × Nat)) : Cur := handOf (waveWith rs) id 1
abbrev v (n : BitVec 8) : Opnd := .lane n

/-- No operand of a lane register traps as a parameter operand. -/
theorem ready (rs : List (Nat × Nat)) (act : LaneSet) (k : Ctl) (n : Nat) (x y : BitVec 8) :
    Ready (worldOf (waveWith rs) id act) (handOf (waveWith rs) id act) k n [v x, v y] ∧
    Ready (worldOf (waveWith rs) id act) (handOf (waveWith rs) id act) k n [v x, .zero] :=
  ⟨⟨rfl, by unfold State.paramTrap; split <;> rfl⟩, rfl, by unfold State.paramTrap; split <;> rfl⟩

/-- An access whose every lane passes its checks and is located. -/
theorem reaches {s : State} {c : Cur} {blk : Block} {p : LaneSet} {cap : Bool} {perm : Quad → Bool} {b off : Opnd} {z : Nat}
    {need : Perm} {l : List (Nat × At)}
    (h : (match s.checkAccess c blk p cap perm b off z with
      | .ok t => (match s.locateAll c.ctx need t with | .ok l' => l' == l | .held _ => false)
      | .error _ => false) = true) : Reaches s c blk p cap perm b off z need l := by
  unfold Reaches
  split at h
  · rename_i t ht
    refine ⟨t, ht, ?_⟩
    split at h
    · simp_all
    · cases h
  · cases h

theorem allHere {l : List (Nat × At)} (h : (l.all fun x => match x.2 with | .peer _ => false | _ => true) = true) : AllHere l := by
  intro x hx va hv
  have := List.all_eq_true.mp h x hx
  simp [hv] at this

/-! ### Hypotheses met: classes 0x1 to 0x5 -/

theorem witness_IntegerOfTwo : Ready (W [(2, 5)]) (H [(2, 5)]) kw (regsOf .n64) [v 2, v 4] := (ready ..).1
theorem witness_IntegerOfOneAndThree : Ready (W []) (H []) kw (regsOf .i32) [v 2, v 4] ∧
    (W []).paramTrap (H []) ((W []).parts (H []) kw) (regsOf .i32) [v 2, .zero] = none := ⟨(ready ..).1, rfl⟩
theorem witness_IntegerWide : Ready (W []) (H []) kw 1 [v 2, v 4] ∧
    (W []).paramTrap (H []) ((W []).parts (H []) kw) 2 [v 2, v 4] = none := ⟨(ready ..).1, rfl⟩
theorem witness_MovesAndLogic : Ready (W []) (H []) kw 2 [v 2, .zero] ∧ Ready (W []) (H []) kw 1 [v 2, v 4] :=
  ⟨(ready (y := 0) ..).2, (ready ..).1⟩
theorem witness_Shifts : Ready (W [(4, 255)]) (H [(4, 255)]) kw (shTy .p16 false).regs [v 2, v 4] ∧
    Ready (W [(4, 256)]) (H [(4, 256)]) kw 1 [v 2, v 4] := ⟨(ready ..).1, (ready ..).1⟩
theorem witness_BitFields : elemsOf .n64 = 1 ∧ Ready (W []) (H []) kw (regsOf .n64) [v 2, v 4] ∧
    Ready (W []) (H []) kw 2 [v 2, .zero] := ⟨rfl, (ready ..).1, (ready (y := 0) ..).2⟩

/-- RDLANE's index at both sides of its bound. -/
theorem witness_LaneReadAndHash : (W [(3, 31)]).cur? = some (H [(3, 31)]) ∧ ((W [(3, 31)]).rd32 (H [(3, 31)]) (v 3) 0).toNat = 31 ∧
    ((W [(3, 32)]).rd32 (H [(3, 32)]) (v 3) 0).toNat = 32 ∧ (W [(3, 32)]).parts (H [(3, 32)]) kw ≠ 0 ∧
    Ready (W []) (H []) kw 2 [v 2, v 4] := ⟨rfl, by decide +kernel, by decide +kernel, by decide +kernel, (ready ..).1⟩

/-- A capability in v4 to v7 of every lane: base 0x1000, length 64, and these bits from 105 on; tagged or not. -/
def capWave (bits : Nat) (tag : Bool) (rs : List (Nat × Nat)) : Wave :=
  let q := 0x1000 + 64 * 2 ^ 57 + bits * 2 ^ 105
  (waveWith ([(4, q % 2 ^ 32), (5, q / 2 ^ 32 % 2 ^ 32), (6, q / 2 ^ 64 % 2 ^ 32), (7, q / 2 ^ 96)] ++ rs)).mapLanes
    fun _ l => l.setTag 1 tag

/-- CNARROW's and CPERM's sources: the whole capability, an empty one at its end, one byte too many, one that may not be
derived from, and one without its tag. -/
theorem witness_Capabilities :
    let fits (w : Wave) (j : Nat) : Bool :=
      let c := handOf w id allLanes
      let s := worldOf w id allLanes
      let nb := (s.rd64 c (v 8) j).toNat % 2 ^ 57
      let nl := (s.rd64 c (v 10) j).toNat
      decide (nl ≤ 2 ^ 48 - 1 ∧ 0x1000 ≤ nb ∧ nb + nl ≤ 0x1040) && c.tag (v 4) j && (c.quad (v 4) j).toNat % 2 ^ 57 == 0x1000 &&
        (c.quad (v 4) j).toNat / 2 ^ 57 % 2 ^ 48 == 64
    (fits (capWave 127 true [(8, 0x1000), (10, 64)]) 31 = true ∧ fits (capWave 127 true [(8, 0x1040)]) 31 = true ∧
      fits (capWave 127 true [(8, 0x1000), (10, 65)]) 0 = false ∧ fits (capWave 127 false [(8, 0x1000)]) 0 = false) ∧
    ((handOf (capWave 127 true []) id allLanes).quad (v 4) 0).getLsbD 111 = true ∧
    ((handOf (capWave 63 true []) id allLanes).quad (v 4) 0).getLsbD 111 = false ∧
    ((handOf (capWave 127 true []) id allLanes).quad (v 4) 0).toNat / 2 ^ 112 = 0 := by decide +kernel

theorem witness_FloatAddMul : (W []).cur? = some (H []) ∧ Ready (W []) (H []) kw 1 [v 2, v 4] ∧ Ready (W []) (H []) kw 1 [v 2, .zero] ∧
    (∀ n ∈ [2, 4, 8, 16, 32], ∀ j < 32, ((W [(2, n)]).rd32 (H [(2, n)]) (v 2) j).toNat = n) ∧
    Ready (W []) (H []) kw (xregs .n64) [v 2, .zero] ∧ XOp.min.okFor .n64 = true :=
  ⟨rfl, (ready ..).1, (ready (y := 0) ..).2, by decide +kernel, (ready (y := 0) ..).2, rfl⟩
theorem witness_FloatFused : Ready (W []) (H []) kw 1 [v 2, v 4] := (ready ..).1
theorem witness_FloatOrderAndClass : Ready (W []) (H []) kw 1 [v 2, v 4] ∧ Ready (W []) (H []) kw 1 [v 2, .zero] :=
  ⟨(ready ..).1, (ready (y := 0) ..).2⟩
theorem witness_SpecialFunctions : Ready (W []) (H []) kw 1 [v 2, .zero] := (ready (y := 0) ..).2
/-- The largest finite FP32 value does not overflow; half a place more does. -/
theorem witness_RoundingIsExact :
    ((ffOf .f32).deliver (rndMode4 .rn) false (.num true (2 ^ 24 - 1) 104)).2.getLsbD 2 = false ∧
    ((ffOf .f32).deliver (rndMode4 .rz) false (.num true (2 ^ 25 - 1) 103)).2.getLsbD 2 = false ∧
    ((ffOf .f32).deliver (rndMode4 .rn) false (.num true (2 ^ 25 - 1) 103)).2.getLsbD 2 = true := by decide +kernel
theorem witness_RootsAreRounded : (ffOf .f32).value 0x40400000 = .num false (3 * 2 ^ 22) (-22) ∧
    (sfn .rcp .f32 (rndMode4 .rn) 0x40400000).2.getLsbD 2 = false := by decide +kernel
theorem witness_PackedHalves : Ready (W []) (H []) kw 1 [v 2, v 4] := (ready ..).1
theorem witness_Conversions : Ready (W []) (H []) kw 1 [v 2, v 4] ∧ binaryOf .e4m3 = some ffE4m3 ∧
    integerOf .n64 = some (64, false) := ⟨(ready ..).1, rfl, rfl⟩
theorem witness_BlockScale : (W []).cur? = some (H []) ∧ Finite (ffF32.value ((W []).rd32 (H []) (v 2) 0).toNat) ∧
    ¬ Finite (ffF32.value ((W [(2, 0x7F800000)]).rd32 (H [(2, 0x7F800000)]) (v 2) 0).toNat) := by
  have h0 : ffF32.value ((W []).rd32 (H []) (v 2) 0).toNat = .num false 0 (-149) := by decide +kernel
  have h1 : ffF32.value ((W [(2, 0x7F800000)]).rd32 (H [(2, 0x7F800000)]) (v 2) 0).toNat = .inf false := by decide +kernel
  exact ⟨rfl, by rw [h0]; trivial, by rw [h1]; exact fun h => h⟩
/-- PART of the values 2 and 32 at the ends of its range, of 33 beyond it, and of lanes that differ. -/
theorem witness_CrossLane : Ready (W []) (H []) kw 1 [v 2, v 4] ∧ ByWave (W [(2, 32)]) (H [(2, 32)]) kw ∧
    (H []).wave.s = 32 ∧ ((W [(2, 32)]).rd32 (H [(2, 32)]) (v 2) 31).toNat = 32 ∧
    ((W [(2, 2)]).rd32 (H [(2, 2)]) (v 2) 0).toNat = 2 ∧ (W [(2, 33)]).rd32 (H [(2, 33)]) (v 2) 0 = 33#32 ∧
    (W []).rd32 (H []) .laneIdx 0 ≠ (W []).rd32 (H []) .laneIdx 1 :=
  ⟨(ready ..).1, ⟨rfl, rfl, rfl⟩, by decide +kernel, by decide +kernel, by decide +kernel, by decide +kernel, by decide +kernel⟩
theorem witness_Reductions : Ready (W []) (H []) kw (xregs .n64) [v 2, .zero] ∧ (H []).wave.s = 32 ∧
    XOp.min.okFor .n64 = true := ⟨(ready (y := 0) ..).2, rfl, rfl⟩

/-- The world of a wave that stands at another PC, with all five slots of the placed line targets. -/
def worldAt (pc : Nat) (act : LaneSet) : State :=
  (worldOf ((waveWith []).mapLanes fun _ l => { l with pc := BitVec.ofNat 57 pc }) id act).placeBytes (storageOf placedOffset)
    (bytesOf 64 (31 * 2 ^ 480))
def handAt (pc : Nat) (act : LaneSet) : Cur :=
  handOf ((waveWith []).mapLanes fun _ l => { l with pc := BitVec.ofNat 57 pc }) id act

/-- Slots below 0 and targets past the address space; a slot that is a target and one that is none. -/
theorem witness_LeaderSections : ByWave (W []) (H []) kw ∧ ByWave (worldAt 0 allLanes) (handAt 0 allLanes) kw ∧
    (5 * ((handAt 0 allLanes).pc.toNat / 64 : Nat) + ((handAt 0 allLanes).pc.toNat % 64 / 12 : Nat) + (-1#18).toInt : Int) = -1 ∧
    (64 * ((5 * ((handAt (2 ^ 57 - 64) 1).pc.toNat / 64 : Nat) + (5#18).toInt : Int) / 5) : Int) = 2 ^ 57 ∧
    (W []).entryBad (H []) (BitVec.ofInt 57 placedOffset) = none ∧
    (W []).entryBad (H []) (BitVec.ofInt 57 (placedOffset + 12)) = some 1 ∧ (W []).parts (H []) kw ≠ 0 :=
  ⟨⟨rfl, rfl, rfl⟩, ⟨by decide +kernel, rfl, rfl⟩, by decide +kernel, by decide +kernel, by decide +kernel, by decide +kernel,
    by decide +kernel⟩
theorem witness_Transfers : ByWave (W []) (H []) kw ∧ (∃ sa l, (W []).transfer 0 0 placedOffset = .ok sa l) ∧
    (5 * ((H []).pc.toNat / 64 : Nat) + ((H []).pc.toNat % 64 / 12 : Nat) + (0#18).toInt : Int) = 5 * (placedOffset / 64) := by
  refine ⟨⟨rfl, rfl, rfl⟩, ?_, by decide +kernel⟩
  have h : (match (W []).transfer 0 0 placedOffset with | .ok _ _ => true | _ => false) = true := by decide +kernel
  split at h
  · rename_i sa l e; exact ⟨sa, l, e⟩
  · cases h
theorem witness_NopYieldSleepExit : ByWave (W1 []) (H1 []) kw ∧ Ready (W1 []) (H1 []) kw 1 [v 2] ∧
    (H1 []).wave.inRegion = false ∧ (∃ i < 32, ((W1 []).parts (H1 []) kw).getLsbD i = false ∧
      ((H1 []).wave.lane i).isExited = false) :=
  ⟨⟨rfl, rfl, rfl⟩, ⟨rfl, by decide +kernel⟩, by decide +kernel, 31, by decide +kernel⟩

/-! ### Hypotheses met: traps and memory -/

theorem witness_TrapEntry :
    let on := (W []).setCtx 0 { (W []).ctx 0 with trap := 1 }
    (∃ blk w, on.block? 0 = some blk ∧ blk.wave? 0 = some w ∧ (on.ctx blk.ctx).trap.getLsbD 0 = true ∧ w.trapMode = false) ∧
    ∃ blk w, (W []).block? 0 = some blk ∧ blk.wave? 0 = some w ∧ ((W []).ctx blk.ctx).trap.getLsbD 0 = false :=
  ⟨⟨blockOf (waveWith []) id, waveWith [], by decide +kernel⟩, blockOf (waveWith []) id, waveWith [], by decide +kernel⟩

/-- A wave in trap mode. -/
def trapped : Wave :=
  { waveWith [] with trapMode := true, trapped := allLanes, trapPc := BitVec.ofNat 57 placedOffset }

theorem witness_TrapInstructions :
    OfWave (W []) (H []) (blockOf (waveWith []) id) ∧ (W []).parts (H []) kw ≠ 0 ∧
    (worldOf (waveWith []) id 0).parts (handOf (waveWith []) id 0) kw = 0 ∧ (H []).wave.trapMode = false ∧
    OfWave (worldOf trapped id 1) (handOf trapped id 1) (blockOf trapped id) ∧ trapped.trapMode = true ∧
    ∃ sa l, (worldOf trapped id 1).transfer 0 0 trapped.trapPc.toNat = .ok sa l := by
  refine ⟨worldOf_ofWave .., by decide +kernel, by decide +kernel, by decide +kernel, worldOf_ofWave .., rfl, ?_⟩
  have h : (match (worldOf trapped id 1).transfer 0 0 trapped.trapPc.toNat with | .ok _ _ => true | _ => false) = true := by
    decide +kernel
  split at h
  · rename_i sa l e; exact ⟨sa, l, e⟩
  · cases h

/-- A window of 6 bytes at 0x1000, on a page of zeros. -/
def window : Param := { bound := true, base := 0x1000, size := 6, frames := [(0, 0)] }

/-- A block whose window 2 is bound at 0x1000 with 6 bytes, with or without trap-on-param. -/
def windowed (on : Bool) (b : Block) : Block :=
  { b with params := [{ bound := false, base := 0, size := 0 }, { bound := false, base := 0, size := 0 }, window], trapOnParam := on }

/-- Offsets 0 and 2 fit the window of 6 bytes, 4 does not; 2 is misaligned for LDP. -/
theorem witness_ParameterReads (on : Bool) :
    (worldOf (waveWith [(2, 4)]) (windowed on) 1).cur? = some (handOf (waveWith [(2, 4)]) (windowed on) 1) ∧
    (handOf (waveWith []) (windowed on) 1).trapOnParam = on ∧
    lget { bound := false, base := 0, size := 0 } (handOf (waveWith []) (windowed on) 1).params 2 = window ∧
    ((worldOf (waveWith [(2, 4)]) (windowed on) 1).rd32 (handOf (waveWith [(2, 4)]) (windowed on) 1) (v 2) 0).toNat = 4 ∧
    ((worldOf (waveWith [(2, 2)]) (windowed on) 1).rd32 (handOf (waveWith [(2, 2)]) (windowed on) 1) (v 2) 0).toNat = 2 ∧
    (worldOf (waveWith []) (windowed on) 1).parts (handOf (waveWith []) (windowed on) 1) kw ≠ 0 := by
  cases on <;> decide +kernel

/-- The window's word at offset 0 can be read, and reads as zero; so does one of the stack aperture whose lane has a stack, while
one of a block without stacks is outside. -/
theorem witness_ParameterReads_places :
    let s := worldOf (waveWith []) (windowed false) 1
    let c := handOf (waveWith []) (windowed false) 1
    let blk := blockOf (waveWith []) (windowed false)
    (∀ j < 4, s.paramByte 0 (0x1000 + j) = some 0 ∧ s.isLocal (0x1000 + j) = true ∧
      (match s.translate 0 (0x1000 + j) .read with | .ok l => window.frameOf (0x1000 + j) == some l.sa | _ => false) = true) ∧
    (s.steer blk 0 0 (0x1000 : Nat) 4).inside = true ∧ s.ldpPoison c blk 2 0 4 0 = false ∧
    s.wordStop c (s.ldpWords c blk 2 0 4 0) = none ∧ s.wordStop c (c.paramWords 1 (.param 2 0)) = none ∧
    (s.steer blk 0 0 (2 ^ 31 : Nat) 4).inside = false ∧ (s.steer blk 0 0 (2 ^ 30 + 65533 : Nat) 4).inside = false ∧
    (s.steer blk 0 0 (2 ^ 30 + 65532 : Nat) 4).inside = true := by decide +kernel

/-- The capability of capWave at its last word, one byte beyond, and without the permission; scratchpad offsets at the end of
the scratchpad, past it, and misaligned; a stack of no bytes. -/
theorem witness_AccessChecks :
    let ea (w : Wave) (cap : Bool) (o : Opnd) : Int := (worldOf w id 1).addr (handOf w id 1) cap o (v 8) 0
    (worldOf (capWave 127 true [(8, 60)]) id 1).cur? = some (handOf (capWave 127 true [(8, 60)]) id 1) ∧
    (worldOf (capWave 127 true []) id 1).paramTrap (handOf (capWave 127 true []) id 1)
      ((worldOf (capWave 127 true []) id 1).parts (handOf (capWave 127 true []) id 1) kw) 1 [v 8] = none ∧
    ea (capWave 127 true [(8, 60)]) true (v 4) = 0x103C ∧ ea (capWave 127 true [(8, 61)]) true (v 4) = 0x103D ∧
    ((handOf (capWave 126 true []) id 1).quad (v 4) 0).getLsbD 105 = false ∧
    ((handOf (capWave 126 true []) id 1).quad (v 4) 0).getLsbD 106 = true ∧
    (handOf (capWave 127 false []) id 1).tag (v 4) 0 = false ∧
    ea (waveWith [(4, 2 ^ 30 + 65532)]) false (v 4) = 2 ^ 30 + 65532 ∧ ea (waveWith [(4, 2 ^ 30), (8, 65536)]) false (v 4) = 2 ^ 30 + 65536 ∧
    ((W []).ctx 0).aper.toNat % 2 ^ 27 = 1 ∧ ((W []).ctx 0).aper.toNat / 2 ^ 34 % 2 ^ 27 = 2 ∧
    recStackSize ((W []).launch 0).record = 0 := by decide +kernel

/-- Where a lane's access lands: scratchpad offset o, or address 0x1000 of this package's window. -/
def atHome : At := .home 0x1000 ⟨storageOf 0x1000, false, true⟩ false

/-- Lane 0 at the last word of the scratchpad; lanes 0 and 1 at one word of memory. -/
theorem witness_LoadReads :
    (OfWave (W1 [(4, 2 ^ 30 + 65532)]) (H1 [(4, 2 ^ 30 + 65532)]) (blockOf (waveWith [(4, 2 ^ 30 + 65532)]) id) ∧
      (W1 [(4, 2 ^ 30 + 65532)]).paramTrap (H1 [(4, 2 ^ 30 + 65532)]) ((W1 [(4, 2 ^ 30 + 65532)]).parts (H1 [(4, 2 ^ 30 + 65532)]) kw) 1
        [.zero] = none ∧
      Reaches (W1 [(4, 2 ^ 30 + 65532)]) (H1 [(4, 2 ^ 30 + 65532)]) (blockOf (waveWith [(4, 2 ^ 30 + 65532)]) id)
        ((W1 [(4, 2 ^ 30 + 65532)]).parts (H1 [(4, 2 ^ 30 + 65532)]) kw) false capRead (v 4) .zero (ldBytes .n32) .read
        [(0, .spad 65532)] ∧ AllHere [(0, .spad 65532)] ∧
      HomesAnswer (W1 [(4, 2 ^ 30 + 65532)]) (H1 [(4, 2 ^ 30 + 65532)]) 4 [(0, .spad 65532)] ∧
      Unpoisoned (W1 [(4, 2 ^ 30 + 65532)]) (H1 [(4, 2 ^ 30 + 65532)]) 4 [(0, .spad 65532)]) ∧
    (Reaches (W1 [(4, 0x1000)]) (H1 [(4, 0x1000)]) (blockOf (waveWith [(4, 0x1000)]) id)
        ((W1 [(4, 0x1000)]).parts (H1 [(4, 0x1000)]) kw) false capRead (v 4) .zero (ldBytes .n32) .read [(0, atHome)] ∧
      AllHere [(0, atHome)] ∧ HomesAnswer (W1 [(4, 0x1000)]) (H1 [(4, 0x1000)]) 4 [(0, atHome)] ∧
      Unpoisoned (W1 [(4, 0x1000)]) (H1 [(4, 0x1000)]) 4 [(0, atHome)]) :=
  ⟨⟨worldOf_ofWave .., by decide +kernel, reaches (by decide +kernel), allHere rfl, by unfold HomesAnswer; decide +kernel,
    by unfold Unpoisoned; decide +kernel⟩,
    reaches (by decide +kernel), allHere rfl, by unfold HomesAnswer; decide +kernel, by unfold Unpoisoned; decide +kernel⟩

/-- Two lanes at one word. -/
abbrev W2 (rs : List (Nat × Nat)) : State := worldOf (waveWith rs) id 3
abbrev H2 (rs : List (Nat × Nat)) : Cur := handOf (waveWith rs) id 3

theorem witness_StoresWrite :
    OfWave (W2 [(4, 0x1000)]) (H2 [(4, 0x1000)]) (blockOf (waveWith [(4, 0x1000)]) id) ∧
    (H2 [(4, 0x1000)]).wave.inRegion = false ∧
    (W2 [(4, 0x1000)]).paramTrap (H2 [(4, 0x1000)]) ((W2 [(4, 0x1000)]).parts (H2 [(4, 0x1000)]) kw) 1 [.zero] = none ∧
    Reaches (W2 [(4, 0x1000)]) (H2 [(4, 0x1000)]) (blockOf (waveWith [(4, 0x1000)]) id)
      ((W2 [(4, 0x1000)]).parts (H2 [(4, 0x1000)]) kw) false capWrite (v 4) .zero (stBytes .n32) .write [(0, atHome), (1, atHome)] ∧
    AllHere [(0, atHome), (1, atHome)] ∧
    (∀ sc, Released (W2 [(4, 0x1000)]) (H2 [(4, 0x1000)]) ((W2 [(4, 0x1000)]).parts (H2 [(4, 0x1000)]) kw) sc) :=
  ⟨worldOf_ofWave .., by decide +kernel, by decide +kernel, reaches (by decide +kernel), allHere rfl,
    fun sc => by unfold Released; cases sc <;> decide +kernel⟩

/-- A region that is open, with one buffered byte. -/
def regional : Wave :=
  { waveWith [(4, 0x1000)] with
    region := { isOpen := true, stores := [{ lane := 0, loc := .home (storageOf 0x1000), va := 0x1000, data := [7], rel := none, isFence := false, tag := none }] } }

theorem witness_Regions :
    (worldAt placedOffset 1).cur? = some (handAt placedOffset 1) ∧ (handAt placedOffset 1).wave.region.isOpen = false ∧
    (worldAt placedOffset 1).entryBad (handAt placedOffset 1) (succPc (handAt placedOffset 1).pc) = none ∧
    (W []).entryBad (H []) (succPc (H []).pc) = some 1 ∧
    OfWave (worldOf regional id 1) (handOf regional id 1) (blockOf regional id) ∧
    (worldOf regional id 1).paramTrap (handOf regional id 1) ((worldOf regional id 1).parts (handOf regional id 1) kw) 1 [.zero] =
      none ∧
    Reaches (worldOf regional id 1) (handOf regional id 1) (blockOf regional id)
      ((worldOf regional id 1).parts (handOf regional id 1) kw) false capWrite (v 4) .zero 4 .write [(0, atHome)] ∧
    regional.commit = [] ∧ (distinctLines (regional.region.lines ++ [(false, storageOf 0x1000 / 128)])).length ≤ 8 ∧
    ∀ x ∈ regional.region.stores, x.rel = none ∧ x.isFence = false ∧ x.data.length ≤ 16 ∧ ∃ sa, x.loc = .home sa :=
  ⟨by decide +kernel, by decide +kernel, by decide +kernel, by decide +kernel, worldOf_ofWave .., by decide +kernel,
    reaches (by decide +kernel), rfl, by decide +kernel, by simp [regional]⟩

/-- Lanes 0 and 1 at one word of memory. -/
theorem witness_AtomicsInOrder :
    OfWave (W2 [(4, 0x1000), (6, 1)]) (H2 [(4, 0x1000), (6, 1)]) (blockOf (waveWith [(4, 0x1000), (6, 1)]) id) ∧
    (H2 [(4, 0x1000), (6, 1)]).wave.inRegion = false ∧
    Reaches (W2 [(4, 0x1000), (6, 1)]) (H2 [(4, 0x1000), (6, 1)]) (blockOf (waveWith [(4, 0x1000), (6, 1)]) id)
      ((W2 [(4, 0x1000), (6, 1)]).parts (H2 [(4, 0x1000), (6, 1)]) kw) false capAtomic (v 4) .zero 4 .atomic
      [(0, atHome), (1, atHome)] ∧
    AllHere [(0, atHome), (1, atHome)] ∧
    Unpoisoned (W2 [(4, 0x1000), (6, 1)]) (H2 [(4, 0x1000), (6, 1)]) 4 [(0, atHome), (1, atHome)] ∧
    storageOf 0x1000 % 4 = 0 ∧ (W2 [(4, 0x1000), (6, 1)]).atomWaits atHome = false ∧
    Released (W2 [(4, 0x1000), (6, 1)]) (H2 [(4, 0x1000), (6, 1)]) ((W2 [(4, 0x1000), (6, 1)]).parts (H2 [(4, 0x1000), (6, 1)]) kw) .sys :=
  ⟨worldOf_ofWave .., by decide +kernel, reaches (by decide +kernel), allHere rfl, by unfold Unpoisoned; decide +kernel,
    by decide +kernel, by decide +kernel, by unfold Released; decide +kernel⟩

theorem witness_AtomicOperations : 255 < 2 ^ (8 * 1) ∧ 2 ^ 64 - 1 < 2 ^ (8 * 8) ∧ 0 < 1 := by decide

/-- A descriptor of one step and a 4-byte field at offset 8, at scratchpad offset 64. -/
def chained (b : Block) : Block :=
  { b with spadSize := 128, spad := ((bytesOf 64 (1 + 8 * 2 ^ 64)).zipIdx.filter (·.1 != 0)).map fun x => (64 + x.2, x.1) }

theorem witness_ChainedLoads :
    OfWave (worldOf (waveWith [(4, 0x1000), (6, 64)]) chained 1) (handOf (waveWith [(4, 0x1000), (6, 64)]) chained 1)
      (blockOf (waveWith [(4, 0x1000), (6, 64)]) chained) ∧
    (let s := worldOf (waveWith [(4, 0x1000), (6, 64)]) chained 1
     let c := handOf (waveWith [(4, 0x1000), (6, 64)]) chained 1
     let blk := blockOf (waveWith [(4, 0x1000), (6, 64)]) chained
     let desc := lineOfBytes (blk.spadBytes 64 64)
     s.parts c kw = BitVec.ofNat 32 (2 ^ 0) ∧ c.wid < 32 ∧ s.accessWaits (storageOf 0x1008) = false ∧
       0x1000 / 2 ^ 30 ≠ (s.ctx 0).aper.toNat % 2 ^ 27 ∧ 0x1000 / 2 ^ 30 ≠ (s.ctx 0).aper.toNat / 2 ^ 34 % 2 ^ 27 ∧
       c.wave.pendNext < 2 ^ 32 ∧ c.wave.pend = [] ∧ (s.core c.core).trackers = [] ∧
       s.dirty = [] ∧ c.core = coreOf c.bid ∧ (s.rd32 c (v 6) 0).toNat = 64 ∧ 64 + 64 ≤ blk.spadSize ∧ chBad desc = false ∧
       desc.toNat / 2 ^ 7 % 2 = 0 ∧ desc.toNat % 8 = 1 ∧ desc.toNat / 2 ^ 5 % 4 = 0 ∧ 20 + 1 ≤ blk.regs ∧
       (s.rd64 c (v 4) 0 + (s.rd32 c (v 8) 0).signExtend 64).toNat = 0x1000 ∧ s.isLocal 0x1000 = true ∧
       s.translate 0 0x1000 .read = .ok ⟨storageOf 0x1000, false, true⟩ ∧ s.isPoisoned (storageOf 0x1000) = false) ∧
    (worldOf (waveWith [(6, 64)]) chained 1).rd64 (handOf (waveWith [(6, 64)]) chained 1) (v 4) 0 = 0 :=
  ⟨worldOf_ofWave .., by decide +kernel, by decide +kernel⟩

theorem witness_HintsAndWaits :
    OfWave (W1 [(4, 0x1000)]) (H1 [(4, 0x1000)]) (blockOf (waveWith [(4, 0x1000)]) id) ∧ (W1 [(4, 0x1000)]).dirty = [] ∧
    (W1 [(4, 0x1000)]).paramTrap (H1 [(4, 0x1000)]) ((W1 [(4, 0x1000)]).parts (H1 [(4, 0x1000)]) kw) 1 [.zero] = none ∧
    (W1 [(4, 0x1000)]).parts (H1 [(4, 0x1000)]) kw = BitVec.ofNat 32 (2 ^ 0) ∧
    (W1 [(4, 0x1000)]).atOf 0 .read ((W1 [(4, 0x1000)]).steer (blockOf (waveWith [(4, 0x1000)]) id) 0 0
      ((W1 [(4, 0x1000)]).addr (H1 [(4, 0x1000)]) false (v 4) .zero 0) 1) = .ok atHome ∧
    Reaches (W1 [(4, 0x1000)]) (H1 [(4, 0x1000)]) (blockOf (waveWith [(4, 0x1000)]) id)
      ((W1 [(4, 0x1000)]).parts (H1 [(4, 0x1000)]) kw) false capRead (v 4) .zero 4 .read [(0, atHome)] ∧
    AllHere [(0, atHome)] ∧ HomesAnswer (W1 [(4, 0x1000)]) (H1 [(4, 0x1000)]) 4 [(0, atHome)] ∧
    Unpoisoned (W1 [(4, 0x1000)]) (H1 [(4, 0x1000)]) 4 [(0, atHome)] :=
  ⟨worldOf_ofWave .., by decide +kernel, by decide +kernel, by decide +kernel, by decide +kernel, reaches (by decide +kernel),
    allHere rfl, by unfold HomesAnswer; decide +kernel, by unfold Unpoisoned; decide +kernel⟩

/-- Lane 0 at address 0x1000 of package 3, and at an address that no table maps. -/
theorem witness_PeersAndFaults :
    OfWave (W1 [(4, 0x1000), (5, 3 * 2 ^ 13)]) (H1 [(4, 0x1000), (5, 3 * 2 ^ 13)]) (blockOf (waveWith [(4, 0x1000), (5, 3 * 2 ^ 13)]) id) ∧
    (W1 []).parts (H1 []) kw ≠ 0 ∧ ((W1 []).ctx 0).fabric.getLsbD 30 = false ∧ (W1 []).peerCopies = [] ∧
    (∀ need ∈ [(capRead, Perm.read), (capWrite, .write), (capAtomic, .atomic)],
      Reaches (W1 [(4, 0x1000), (5, 3 * 2 ^ 13)]) (H1 [(4, 0x1000), (5, 3 * 2 ^ 13)]) (blockOf (waveWith [(4, 0x1000), (5, 3 * 2 ^ 13)]) id)
        ((W1 [(4, 0x1000), (5, 3 * 2 ^ 13)]).parts (H1 [(4, 0x1000), (5, 3 * 2 ^ 13)]) kw) false need.1 (v 4) .zero 4 need.2
        [(0, .peer (3 * 2 ^ 45 + 0x1000))]) ∧
    (let s := W1 [(4, 0), (5, 1)]
     let c := H1 [(4, 0), (5, 1)]
     s.checkAccess c (blockOf (waveWith [(4, 0), (5, 1)]) id) 1 false capRead (v 4) .zero 4 = .ok [(0, .global (2 ^ 32))] ∧
     s.locateAll 0 .read [(0, .global (2 ^ 32))] = .held [(0, 2 ^ 32, ⟨0, 2⟩)]) := by
  refine ⟨worldOf_ofWave .., by decide +kernel, by decide +kernel, by decide +kernel, ?_, by decide +kernel⟩
  intro need h
  simp only [List.mem_cons, List.not_mem_nil, or_false] at h
  obtain rfl | rfl | rfl := h <;> exact reaches (by decide +kernel)

/-- An issue whose second slot is still to come, and one that stands alone. -/
theorem witness_PeersAndFaults_pairs : pairFollows 0 0 (W1 []).agenda = false ∧
    pairFollows 0 0 [.second (.wave 0 0) 1 0 0] = true := by decide +kernel

/-! ### Hypotheses met: classes 0x7 to 0xA -/

/-- Handles: 0, one whose upper bits are malformed, and one of package 0; queues with room and without. -/
theorem witness_FencesAndPromotions :
    OfWave (W []) (H []) (blockOf (waveWith []) id) ∧ (W []).parts (H []) kw ≠ 0 ∧
    (worldOf (waveWith []) id 0).parts (handOf (waveWith []) id 0) kw = 0 ∧ (H []).wave.inRegion = false ∧
    (handOf regional id 1).wave.inRegion = true ∧
    (W []).mustWait 0 .sys ((waveWith []).waitsTo allLanes) = false ∧ ((W []).writeBackAt 0 .sys).mustWait 0 .sys ((waveWith []).waitsTo allLanes) = false ∧
    ({ W [] with invalWait := [(3, 0)] }.writeBackAt 0 .sys).mustWait 0 .sys ((waveWith []).waitsTo allLanes) = true ∧
    ({ W [] with invalWait := [(3, 0)] }).mustWait 0 .sys = true ∧
    ((W [(5, 1)]).rd64 (H [(5, 1)]) (v 4) 0).toNat / 2 ^ 32 = 1 ∧ (W []).rd64 (H []) (v 4) 0 = 0 ∧ (W []).resolve 0 0 = none ∧
    (W []).promoTargets 0 (BitVec.ofNat 64 (2 ^ 63 + 5 * 2 ^ 32)) 0 ≠ [] ∧
    ((W []).core 0).reQueues.length = 4 ∧ (lget [] ((W []).core 0).reQueues 3).length < 64 := by
  refine ⟨worldOf_ofWave .., ?_⟩
  decide +kernel

/-- Counts 33 and 34, words that differ, a valid format word and one that is not. -/
theorem witness_NumberedBarriers :
    OfWave (W [(2, 33)]) (H [(2, 33)]) (blockOf (waveWith [(2, 33)]) id) ∧ (W [(2, 33)]).parts (H [(2, 33)]) kw ≠ 0 ∧
    (worldOf (waveWith []) id 0).parts (handOf (waveWith []) id 0) kw = 0 ∧ (blockOf (waveWith []) id).bars.length = 16 ∧
    (∀ j < 32, ((W [(2, 33)]).rd32 (H [(2, 33)]) (v 2) j).toNat = 33) ∧
    ((W [(2, 34)]).rd32 (H [(2, 34)]) (v 2) 0).toNat = 34 ∧ (W []).rd32 (H []) .laneIdx 0 ≠ (W []).rd32 (H []) .laneIdx 1 ∧
    formatValid 0x11 = true ∧ formatValid 0x17 = false ∧ formatValid 0x00100000 = false ∧ (H []).wave.inRegion = false ∧
    (lget (Barrier.start 0) (blockOf (waveWith []) id).bars 15).phase = (H []).wave.phases.getLsbD 15 ∧
    (lget (Barrier.start 0) (blockOf (waveWith []) id).bars 15).latched = false := by
  refine ⟨worldOf_ofWave .., ?_⟩
  decide +kernel

/-- A launch of one block and, in its record, the kind cooperative or not. -/
def launched (coop : Bool) (s : State) : State :=
  s.setLaunch 0 { LaunchSlot.reset with alive := true, record := bytesOf 64 (2 ^ 64 + if coop then 2 ^ 106 else 0) }

theorem witness_LaunchBarriers : (∀ coop, OfWave (launched coop (W [])) (H []) (blockOf (waveWith []) id)) ∧
    recKind ((launched true (W [])).launch (blockOf (waveWith []) id).launch).record = 1 ∧
    recKind ((launched false (W [])).launch (blockOf (waveWith []) id).launch).record = 0 ∧ (H []).wave.inRegion = false ∧
    (launched true (W [])).parts (H []) kw ≠ 0 ∧ (launched true (worldOf (waveWith []) id 0)).parts (handOf (waveWith []) id 0) kw = 0 :=
  ⟨fun coop => by cases coop <;> exact ⟨rfl, rfl, rfl⟩, by decide +kernel⟩

/-- Queue 2 of two slots of 16 bytes: free ones, and one that is filled. -/
def queued (free : Nat) (l : List SlotSt) (b : Block) : Block :=
  { b with queues := [.none, .none, { base := 256, size := 16, count := 2, filled := 2 - free, free, head := 0, tail := (2 - free) % 2, slots := l },
      .none, .none, .none, .none, .none] }

/-- One or two lanes at a queue of two slots, three lanes at it, and an undeclared queue. -/
theorem witness_ScratchpadQueues :
    OfWave (worldOf (waveWith []) (queued 2 [.free, .free]) 3) (handOf (waveWith []) (queued 2 [.free, .free]) 3)
      (blockOf (waveWith []) (queued 2 [.free, .free])) ∧
    (let b := blockOf (waveWith []) (queued 2 [.free, .free])
     b.queues.length = 8 ∧ (b.queue 2).served = false ∧ ((b.serve 2).queue 2).served = true ∧ (waveWith []).popped.length = 8 ∧
       (worldOf (waveWith []) (queued 2 [.free, .free]) 0).parts (handOf (waveWith []) (queued 2 [.free, .free]) 0) kw = 0 ∧ (b.queue 2).count = 2 ∧ (b.queue 0).count = 0 ∧ (b.queue 2).free = 2 ∧
       (b.queue 2).slots.length = 2 ∧ b.queueWaits 2 true = [] ∧ b.queueWaits 2 false = [] ∧
       (lanesOf ((worldOf (waveWith []) (queued 2 [.free, .free]) 3).parts (handOf (waveWith []) (queued 2 [.free, .free]) 3) kw)).length = 2 ∧
       (lanesOf ((worldOf (waveWith []) (queued 2 [.free, .free]) 7).parts (handOf (waveWith []) (queued 2 [.free, .free]) 7) kw)).length = 3 ∧
       (lget SlotSt.free ((blockOf (waveWith []) (queued 0 [.pushed, .engineFilled])).queue 2).slots 1) = .engineFilled) ∧
    -- BCW: the last barrier of the scratchpad, one past its end, and one misaligned
    (let z (o : Nat) : Nat := ((W1 [(2, o)]).rd32 (H1 [(2, o)]) (v 2) 0).toNat
     z 65528 + 8 = (blockOf (waveWith []) id).spadSize ∧ z 65536 = 65536 ∧ z 4 % 8 = 4 ∧
       ofBytes ((blockOf (waveWith []) id).spadBytes 65528 6) = 0) := by
  refine ⟨worldOf_ofWave .., ?_⟩
  decide +kernel

/-- A copy record of 16 bytes from memory to scratchpad offset 128, and a put of 16 bytes between addresses, at offset 0. -/
def recorded (r : Nat) (b : Block) : Block :=
  { b with spad := ((bytesOf 64 r).zipIdx.filter (·.1 != 0)).map fun x => (x.2, x.1) }
def copyRecord : Nat := 2 ^ 5 + 2 ^ 16 + 16 * 2 ^ 32 + 0x1000 * 2 ^ 64 + 128 * 2 ^ 128 + 0xFFFFFFFF * 2 ^ 320
def putRecord : Nat := 1 + 16 * 2 ^ 34 + 0x1000 * 2 ^ 64 + 0x2000 * 2 ^ 128 + 0xFFFFFFFF * 2 ^ 288

/-- Counts 1, 16 and 17, a record that is well formed and one that is not, offsets at the end of the scratchpad. -/
theorem witness_EngineSubmissions :
    OfWave (worldOf (waveWith [(4, 1)]) (recorded copyRecord) 1) (handOf (waveWith [(4, 1)]) (recorded copyRecord) 1)
      (blockOf (waveWith [(4, 1)]) (recorded copyRecord)) ∧
    (let b := blockOf (waveWith []) (recorded copyRecord)
     (worldOf (waveWith [(4, 1)]) (recorded copyRecord) 1).paramTrap (handOf (waveWith [(4, 1)]) (recorded copyRecord) 1) 1 1 [v 2, v 4] =
       none ∧
     copyBad b (b.spadBytes 0 64) = false ∧ copyBad b (b.spadBytes 64 64) = true ∧
     (W []).oneSidedBad 0 65536 [1] (bytesOf 64 putRecord) = false ∧ (W []).oneSidedBad 0 65536 [2] (bytesOf 64 putRecord) = true ∧
     (W []).oneSidedBad 0 65536 [2] (bytesOf 64 (putRecord + 1)) = false ∧
     (W []).oneSidedBad 0 65536 [3] (bytesOf 64 (putRecord + 2 + 2 ^ 31)) = false ∧
     ((W1 [(4, 16)]).rd32 (H1 [(4, 16)]) (v 4) 0).toNat = 16 ∧ ((W1 [(4, 17)]).rd32 (H1 [(4, 17)]) (v 4) 0).toNat = 17 ∧
     64512 + 64 * max 1 (min 16 16) = b.spadSize ∧ ((W []).core 0).reQueues.length = 4) := by
  refine ⟨worldOf_ofWave .., ?_⟩
  decide +kernel

/-- No entry serves a context at reset, and no lane takes part. -/
theorem witness_Collectives : OfWave (W []) (H []) (blockOf (waveWith []) id) ∧
    (W []).paramTrap (H []) ((W []).parts (H []) kw) 1 [v 2] = none ∧ (W []).coll 0 65536 62 = none ∧ (W []).coll 0 65536 63 = none ∧
    (worldOf (waveWith []) id 0).parts (handOf (waveWith []) id 0) kw = 0 ∧ (H []).wave.inRegion = false := by
  refine ⟨worldOf_ofWave .., ?_⟩
  decide +kernel

/-- Collective 0 of one put, over a group of this package alone, with its tables at 0x3000, 0x4000 and 0x5000. -/
def collective (s : State) : State :=
  let s1 := ((s.placeBytes (storageOf 0x3000) (bytesOf 16 (2 ^ 31 + 1 + 0x5000 * 2 ^ 64))).placeBytes (storageOf 0x4000)
    (bytesOf 16 (2 ^ 31 + 2 ^ 12 + 0x6000 * 2 ^ 64))).placeBytes (storageOf 0x5000) (bytesOf 64 putRecord)
  { s1 with pkg := { s1.pkg with collBase := 0x3000, mcgBase := 0x4000, eaBase := 0x8000000000000000 } }

theorem witness_Collectives_started :
    let s := collective (W1 [])
    s.parts (H1 []) kw = BitVec.ofNat 32 (2 ^ 0) ∧ ((s.rd32 (H1 []) (v 2) 0).toNat = 0) ∧ s.early = [] ∧
    (s.ctx 0).fabric.getLsbD 30 = false ∧ (s.core 0).reQueues.length = 4 ∧ (lget [] (s.core 0).reQueues 0).length + 1 ≤ 64 ∧
    (match (s.toHome 0).coll 0 65536 0 with | some x => x.inst == 0 && x.records == [bytesOf 64 putRecord] | none => false) = true := by
  decide +kernel

/-! ### Hypotheses met: the matrix sequencer -/

/-- The sequencer's instruction in hand, its m and x registers and format word as given. -/
def seqBlock (m : List (Nat × Nat)) (x : List LayReg) (fw : Word) (b : Block) : Block :=
  { b with seq := { b.seq with m := m.foldl (fun l r => lset l r.1 (BitVec.ofNat 32 r.2)) b.seq.m, fw, x := x ++ b.seq.x.drop x.length } }
def seqWorld (f : Block → Block) : State :=
  { worldOf (waveWith []) f 1 with issue := some { agent := .seq 0, active := 0, price := 0 } }
abbrev km : Ctl := Ctl.plain .matrix

/-- A layout of 16-bit elements in scratchpad: 128 by 128 positions at one place. -/
def lay (esize : Nat) : LayReg :=
  { record := BitVec.ofNat 256 (2 ^ 57 + esize * 2 ^ 58 + 128 * 2 ^ 64 + 2 ^ 80 + 128 * 2 ^ 96 + 2 ^ 112), orow := 0, ocol := 0, hint := 0 }

theorem witness_MatrixRegisters : (seqWorld id).seq? = some (0, blockOf (waveWith []) id) ∧
    (blockOf (waveWith []) id).seq.m.length = 32 ∧ (blockOf (waveWith []) id).seq.x.length = 8 ∧
    (blockOf (waveWith []) id).seq.guardOn km.guard = true ∧
    (blockOf (waveWith []) id).seq.guardOn ⟨1, .zero, 0, 0, false, false⟩ = false ∧
    (seqWorld id).seqSrc (blockOf (waveWith []) id) (.imm 7) = .ok 7 ∧ (seqWorld id).srcAway (blockOf (waveWith []) id) (.imm 7) = [] ∧
    (seqWorld id).seqSrc (blockOf (waveWith []) (windowed true)) (.param 2 4) = .error 6 ∧
    (seqWorld id).srcAway (blockOf (waveWith []) (windowed true)) (.param 2 4) = [] ∧
    (let q (c0 n : Nat) := (blockOf (waveWith []) (seqBlock [(0, c0), (1, n)] [] 0)).seq
     ((q 127 1).mreg (.m 0)).toNat + ((q 127 1).mreg (.m 1)).toNat = (q 127 1).cols ∧ ((q 0 513).mreg (.m 1)).toNat = 513 ∧
       ((q 0 512).mreg (.m 1)).toNat = 512) := by
  refine ⟨rfl, ?_⟩
  decide +kernel

theorem witness_MatrixControl : (seqWorld id).seq? = some (0, blockOf (waveWith []) id) ∧
    (blockOf (waveWith []) id).bars.length = 16 ∧ (blockOf (waveWith []) id).seq.guardOn km.guard = true ∧
    (let q (n : Nat) := (blockOf (waveWith []) (seqBlock [(2, n)] [] 0)).seq
     (q 1).mreg (.m 2) = 1 ∧ (q 2).mreg (.m 2) = 2 ∧ (q 0).mreg (.m 2) = 0) ∧
    (seqWorld id).seqSrc (blockOf (waveWith []) id) (.imm 33) = .ok 33 ∧ (seqWorld id).seqSrc (blockOf (waveWith []) id) (.imm 34) = .ok 34 ∧
    (blockOf (waveWith []) id).seq.passed = none ∧ (seqWorld id).srcAway (blockOf (waveWith []) id) (.imm 33) = [] ∧
    (lget (Barrier.start 0) (blockOf (waveWith []) id).bars 3).phase = (blockOf (waveWith []) id).seq.phases.getLsbD 3 ∧
    (lget (Barrier.start 0) (blockOf (waveWith []) fun b => { b with seq := { b.seq with phases := 8 } }).bars 3).phase ≠
      (blockOf (waveWith []) fun b => { b with seq := { b.seq with phases := 8 } }).seq.phases.getLsbD 3 ∧
    (seqWorld id).posted = [] ∧ (∃ w ∈ (blockOf (waveWith []) id).waves, ∃ l ∈ w.lanes, l.st ≠ .exited) ∧
    (∀ w ∈ (blockOf { waveWith [] with lanes := copies { Lane.start 0 with st := .exited } 32 } id).waves, ∀ l ∈ w.lanes, l.st = .exited) := by
  refine ⟨rfl, ?_⟩
  decide +kernel

/-- FP16 sources of sixteen columns, all in scratchpad; column counts 0, 15, 16 and 512 of 128. -/
theorem witness_MatrixData : (seqWorld id).seq? = some (0, blockOf (waveWith []) id) ∧
    (let q := (blockOf (waveWith []) (seqBlock [(0, 112), (1, 16)] [lay 2, lay 2, lay 3] 0)).seq
     (q.mreg (.m 0)).toNat + (q.mreg (.m 1)).toNat = q.cols ∧ (q.xreg (.x 0)).bad = false ∧ (q.xreg (.x 0)).esize = wordEsize 0 ∧
       (q.xreg (.x 2)).esize = 3 ∧ mEsize .f32 = 3 ∧ (q.xreg (.x 3)).bad = true ∧
       (q.capture km 112 16 (q.xreg (.x 0)) (q.xreg (.x 1)) 0).fault 65536 = none) ∧
    (let x := lay 3
     (match x.locate 65536 0 0 with | .ok (some y) => y.spad | _ => false) = true ∧
       (match x.locate 65536 127 0 with | .ok (some y) => y.spad | _ => false) = true) ∧
    -- a layout in memory at 0x10000; the array free, and taken
    (let x := { lay 3 with record := (lay 3).record - BitVec.ofNat 256 (2 ^ 57) + 0x10000 }
     x.bad = false ∧ x.esize = 3 ∧
       (match x.locate 65536 0 0 with | .ok (some y) => y.spad == false && y.byte == 0x10000 | _ => false) = true ∧
       (seqWorld id).translate 0 0x10000 .read = .ok ⟨storageOf 0x10000, false, true⟩ ∧
       (seqWorld id).accessWaits (storageOf 0x10000) = false ∧ (seqWorld id).isPoisoned (storageOf 0x10000) = false) ∧
    ((seqWorld id).core 0).array = none ∧ (∀ y ∈ (seqWorld id).blocks, coreOf y.1 = 0 → y.2.seq.st ≠ .mma) ∧
    (((seqWorld id).setCore 0 { Core.reset with array := some 0 }).core 0).array ≠ none := by
  refine ⟨rfl, ?_⟩
  decide +kernel

/-- A launch record at 0x1000 (kernel descriptor at 0x1080, one block of one wave of 32 registers), read by lane 0; handles and
node numbers at the ends of their ranges. -/
theorem witness_LaunchesAndLevels :
    OfWave (W1 [(4, 0x1000)]) (H1 [(4, 0x1000)]) (blockOf (waveWith [(4, 0x1000)]) id) ∧
    (W1 []).parts (H1 []) kw = BitVec.ofNat 32 (2 ^ 0) ∧ (H1 []).wave.inRegion = false ∧ ((W1 []).writeBackAt 0 .sys).mustWait 0 .sys ((waveWith []).waitsTo 1) = false ∧
    (W1 []).paramTrap (H1 []) ((W1 []).parts (H1 []) kw) 1 [v 4] = none ∧
    (W1 []).readLaunch 0 4 = .malformed ∧
    ({ W1 [] with poison := [storageOf 0x1000 / 128] }.writeBackAt 0 .sys).readLaunch 0 0x1000 = .poisoned ∧
    (W1 []).freeLaunch = some 0 ∧ ((W1 [(4, 65536)]).rd32 (H1 [(4, 65536)]) (v 4) 0).toNat = 65536 ∧
    ((W1 [(4, 65535)]).rd32 (H1 [(4, 65535)]) (v 4) 0).toNat = 65535 ∧ (W1 []).nodes = [] ∧
    (let s := (W1 []).setNode 65535 { Node.reset with st := 1, pred := 2 }
     (s.node 65535).st = 1 ∧ 1 < (s.node 65535).pred ∧ ∀ x ∈ s.nodes, x.2.st ≠ 2) ∧
    (∀ x ∈ (W1 []).blocks, x.2.stopped = none) ∧ (W1 []).resolve 0 0 = none ∧
    (let s := launched false (W1 [])
     s.resolve 0 0 = some (.launch 0) ∧ (s.launch 0).counter.done = false ∧ (s.launch 0).alive = true ∧ (s.launch 0).rerun = [] ∧
       s.saved = [] ∧ ∀ x ∈ s.launches, x.2.alive = true → x.2.creator ≠ some 0) ∧
    (let s := ((W1 [(4, 0x1000)]).placeBytes (storageOf 0x1000) (bytesOf 64 (0x1080 + 2 ^ 64))).placeBytes (storageOf 0x1080)
       (bytesOf 128 ((1 + 32 * 2 ^ 6) * 2 ^ 128))
     s.readLaunch 0 0x1000 = .ok (bytesOf 64 (0x1080 + 2 ^ 64)) (bytesOf 128 ((1 + 32 * 2 ^ 6) * 2 ^ 128)) ∧
       recNode (bytesOf 64 (0x1080 + 2 ^ 64)) = none ∧ s.freeLaunch = some 0 ∧ s.launchRefused (H1 []) = false ∧
       (s.rd64 (H1 [(4, 0x1000)]) (v 4) 0).toNat = 0x1000 ∧ (s.writeBackAt 0 .sys).launchRefused (H1 []) = false ∧ (worldOf (waveWith []) (fun b => { b with launch := 1 }) 1).freeLaunch = some 0 ∧
       (blockOf (waveWith []) fun b => { b with launch := 1 }).launch ≠ 0) := by
  refine ⟨worldOf_ofWave .., ?_⟩
  decide +kernel

/-- Control queue 0 with its stream's instruction in hand, u0 and u1 as given. -/
def cpWorld (lo hi : Nat) : State :=
  let s := worldOf (waveWith []) id 1
  { s.setHwq 0 { Hwq.reset with cfg0 := BitVec.ofNat 64 (2 ^ 63), cur := some 1, w := [(0, BitVec.ofNat 32 lo), (1, BitVec.ofNat 32 hi)] } with
    issue := some { agent := .cp 0, active := 1, price := 0 } }

/-- Words at 0x1000 and a misaligned one, in a control stream; a wave's stream; a false guard. -/
theorem witness_ControlStreams :
    (W []).cur? = some (H []) ∧ (H []).agent = .wave 0 0 ∧
    (match (cpWorld 0x1000 0).cur? with
      | some c => c.agent == .cp 0 && (cpWorld 0x1000 0).parts c (Ctl.plain .control) == 1 &&
          (cpWorld 0x1000 0).parts c { Ctl.plain .control with guard := ⟨1, .zero, 0, 0, false, false⟩ } == 0 &&
          ((cpWorld 0x1000 0).rd64 c (.uni 0) 0).toNat == 0x1000 && ((cpWorld 0x1002 0).cur?.map fun d =>
            ((cpWorld 0x1002 0).rd64 d (.uni 0) 0).toNat % 4) == some 2 && c.ctx == 0
      | none => false) = true ∧
    (cpWorld 0x1000 0).isLocal 0x1000 = true ∧ (cpWorld 0x1000 0).translate 0 0x1000 .read = .ok ⟨storageOf 0x1000, false, true⟩ ∧
    (cpWorld 0x1000 0).translate 0 0x1000 .atomic = .ok ⟨storageOf 0x1000, false, true⟩ ∧
    (cpWorld 0x1000 0).isPoisoned (storageOf 0x1000) = false ∧ (cpWorld 0x1000 0).accessWaits (storageOf 0x1000) = false ∧
    ((cpWorld 0x1000 0).setDie (homeDie (storageOf 0x1000)) { Die.reset with inReset := true }).accessWaits (storageOf 0x1000) = true ∧
    (cpWorld 0x1000 0x6000).isLocal (3 * 2 ^ 45 + 0x1000) = false ∧ ((cpWorld 0x1000 0).hwq 0).liveLaunches = 0 ∧
    (cpWorld 0x1000 0).invalWait = [] := by decide +kernel

/-- A rise above 1,023 and one of 0; an intent held for the target; a hint of one line. -/
theorem witness_TokensAndHints :
    (W []).cur? = some (H []) ∧ (W []).paramTrap (H []) ((W []).parts (H []) kw) 1 [v 4] = none ∧
    (W []).paramTrap (H []) ((W []).parts (H []) kw) 1 [v 4, .zero] = none ∧ (W []).parts (H []) kw ≠ 0 ∧
    (worldOf (waveWith []) id 0).parts (handOf (waveWith []) id 0) kw = 0 ∧
    (∀ j < 32, min 1023 ((W [(4, 1024)]).rd32 (H [(4, 1024)]) (v 4) j).toNat = 1023) ∧
    (∀ j < 32, min 1023 ((W []).rd32 (H []) (v 4) j).toNat = 0) ∧ (∀ x ∈ (W []).gov.held, x.t ≠ 2) ∧
    OfWave (W1 [(6, 1)]) (H1 [(6, 1)]) (blockOf (waveWith [(6, 1)]) id) ∧
    (W1 []).parts (H1 []) kw = BitVec.ofNat 32 (2 ^ 0) ∧ dieOf (H1 []).core < (W1 []).dies.length ∧
    ((W1 [(6, 1)]).rd32 (H1 [(6, 1)]) (v 6) 0).toNat ≠ 0 ∧ ((W1 []).ctx 0).aper.toNat % 2 ^ 27 = 1 ∧
    (W1 []).isLocal 0 = true ∧ (W1 []).translate 0 0 .read = .ok ⟨0, false, true⟩ :=
  ⟨rfl, by decide +kernel, by decide +kernel, by decide +kernel, by decide +kernel, by decide +kernel, by decide +kernel,
    by decide +kernel, worldOf_ofWave .., by decide +kernel⟩

/-- Indices 9, 10, 13, 16, 21 and 22, and lanes that name different ones. -/
theorem witness_SpecialRegisters :
    OfWave (W [(4, 21)]) (H [(4, 21)]) (blockOf (waveWith [(4, 21)]) id) ∧
    (W []).paramTrap (H []) ((W []).parts (H []) kw) 1 [v 4, v 6] = none ∧
    (W []).paramFlags (H []) ((W []).parts (H []) kw) 1 [v 4, v 6] = 0 ∧ (W []).parts (H []) kw ≠ 0 ∧
    (∀ m ∈ [9, 10, 13, 16, 21, 22], ∀ j < 32, ((W [(4, m)]).rd32 (H [(4, m)]) (v 4) j).toNat = m) ∧
    (W []).rd32 (H []) .laneIdx 9 ≠ (W []).rd32 (H []) .laneIdx 10 := by
  refine ⟨worldOf_ofWave .., ?_⟩
  decide +kernel

/-! ### Hypotheses met: the step, decoding and translation -/

/-- A turn of each kind, and what its hypotheses ask, in the states that withFetchWord gives. -/
theorem witness_StepRunsDecoded :
    (let s := State.reset.withFetchWord 96 0x101FFFDFFC160AA494060040
     s.agenda = [.issue (.wave 0 0) allLanes (s.basePrice (.iadd kw .i32 false .zero .zero .zero))] ∧
     ∃ blk w, s.block? 0 = some blk ∧ blk.wave? 0 = some w ∧ s.waveClaimStands 0 0 allLanes = true ∧ blk.entered = false ∧
       (match s.transfer 0 0 placedOffset with
        | .ok _ l => decide ((decodeIn blk.regs .wave (slotWord l 0)).isOk = true) | _ => false) = true) ∧
    (let s := State.reset.withFetchWord 96 0x000000088440000000000241
     ∃ blk, s.block? 0 = some blk ∧ s.seqReady 0 blk = true ∧
       (match s.transfer 0 0 blk.seq.pc.toNat with | .ok _ l => (decode .matrix (slotWord l 0)).isOk | _ => false) = true) ∧
    (let s := State.reset.withFetchWord 96 0x0000000FFE04000000004685
     s.agenda = [.agent (.cp 0)] ∧ s.cpReady (s.hwq 0) = true ∧
       (match s.cpLine 0 (s.hwq 0) with | .inr l => (decode .control (slotWord l 0)).isOk | _ => false) = true) ∧
    State.reset.agenda = [] :=
  ⟨⟨by decide +kernel, _, _, rfl, rfl, by decide +kernel⟩, ⟨_, rfl, by decide +kernel⟩, by decide +kernel, rfl⟩

theorem witness_EncodeRoundTrip : Instr.wf .wave (.iadd kw .i32 true (.lane 255) (.uni 63) (.imm 0x3FFFF)) = true ∧
    Instr.wf .matrix (.mloop km (.m 31) 0x20000) = true ∧
    Instr.wf .control (.sigv (Ctl.plain .control) .max true true (.uni 0) .zero) = true := by decide +kernel

theorem witness_WholeKept : Whole State.reset ∧ ∃ t, step State.reset = .next t :=
  ⟨by unfold Whole; decide +kernel, _, rfl⟩

/-- A root that is not enabled and one that is; an entry of each kind: invalid, a table, a leaf of each permission, malformed
ones, and a poisoned line. -/
theorem witness_Translation :
    let s := (W []).placeBytes (storageOf 0x800000) (((List.range 16).map fun n => bytesOf 8 (lget 0
      [0, 1, 2, 3, 2 ^ 55 + 2, 2 ^ 56 + 2, 2 ^ 57 + 2, 2 ^ 55 + 2 ^ 56 + 2, 2 ^ 60, 2 ^ 42, 4, 2 ^ 12 + 2, 2 ^ 11] n)).flatten)
    (State.reset.ctx 0).trnRoot.toNat.testBit 0 = false ∧ ((W []).ctx 0).trnRoot.toNat.testBit 0 = true ∧
    s.homeNat (storageOf (0x800000 + 8 * 4)) 8 = 2 ^ 55 + 2 ∧ s.isPoisoned (storageOf (0x800000 + 8 * 4)) = false ∧
    (List.range 13).map (fun n => match s.walk (n * 65536) .atomic 0 0x800000 with | .ok _ => 9 | .error x => x.kind) =
      [0, 4, 1, 4, 2, 1, 1, 9, 4, 4, 4, 4, 4] ∧
    ({ W [] with poison := [storageOf 0x800000 / 128] }).isPoisoned (storageOf 0x800000) = true := by decide +kernel

/-! ### Hypotheses met: events -/

/-- A wave with one lane asleep until clock 0, with 63 or 64 issues since its last snapshot. -/
theorem witness_WaveEvents :
    let slept (n : Nat) : Wave := { (waveWith []).setLane 0 { (waveWith []).lane 0 with st := .blocked (.sleep 0) } with
      rot := { (waveWith []).rot with count := n } }
    (worldOf (slept 64) id 1).block? 0 = some (blockOf (slept 64) id) ∧ (blockOf (slept 64) id).wave? 0 = some (slept 64) ∧
    (slept 64).lanes.length = 32 ∧ (slept 64).rot.snap = [] ∧ (slept 63).rot.count < 64 ∧ (slept 64).queueNumbers = [] ∧
    ((slept 64).lane 0).st = .blocked (.sleep 0) ∧ ((worldOf (slept 64) id 1).core 0).trackers = [] ∧
    (∀ x ∈ (worldOf (slept 64) id 1).cores, ∀ p ∈ x.2.promos, p.local? ≠ some (0, 0)) ∧
    (worldOf (slept 64) id 1).translate 0 (lineAt placedOffset) .exec = .ok ⟨storageOf placedOffset, false, true⟩ := by
  decide +kernel

/-- A core with one claim, whose bucket holds its price exactly or one less. -/
theorem witness_CoreEvents :
    let k : Claim := { claimant := 4, agent := some (.wave 0 0), lanes := 1, cells := [[(0, 8)]] }
    let s (n : Nat) : State := (W1 []).setCore 0 { Core.reset with bucket := n, claims := [k] }
    (s 8).coreRuns 0 = true ∧ ((s 8).core 0).reservation = none ∧ ((s 8).core 0).claims = [k] ∧ k.claimant < 5 ∧
    (s 8).waveClaimStands 0 0 1 = true ∧ (s ((s 8).priceOn 0 8)).priceOn 0 8 = ((s ((s 8).priceOn 0 8)).core 0).bucket ∧
    ((s ((s 8).priceOn 0 8 - 1)).core 0).bucket < (s 8).priceOn 0 8 ∧ (State.reset.core 0).promos = [] ∧
    (State.reset.core 0).array = none ∧ State.reset.faultWait = [] ∧ State.reset.pkg.invalDone = true := by decide +kernel

theorem witness_PowerEvents : State.reset.dies.length = 8 ∧ State.reset.hbms.length = 32 ∧
    (State.reset.die 7).failCount ≠ 8 ∧ (State.reset.stack 31).group = 15 ∧ (State.reset.gov.held = []) ∧
    (let s := State.reset.setDie 7 { State.reset.die 7 with failCount := 8, phase := 0, inReset := false, coolSamples := 100 }
     (s.die 7).failCount = 8 ∧ (s.die 7).holds.capacitor = false ∧ (s.die 7).phase = 0 ∧ 100 ≤ (s.die 7).coolSamples) := by
  decide +kernel

/-- A queue that is not enabled, one that is, and the last announcement that the doorbell takes. -/
theorem witness_QueueEvents :
    (State.reset.hwq 255).en = false ∧ (State.reset.hwq 255).halted = false ∧ (State.reset.hwq 255).cur = none ∧
    (let h : Hwq := { Hwq.reset with cfg0 := BitVec.ofNat 64 (2 ^ 63), accept := some 0 }
     h.accept = some 0 ∧ h.en = true ∧ (2 ^ 31) % 2 ^ 32 = (2 ^ 31 : Nat) ∧ 0 < 2 ^ 31 ∧ h.announced < 2 ^ 31) ∧
    (State.reset.node 65535).st = 0 ∧ State.reset.canAccept 255 = false ∧ State.reset.placeable = none ∧
    (State.reset.launch 0).alive = false ∧ State.reset.tornDown 255 = false ∧ State.reset.blocks = [] ∧
    State.reset.quantumOver 0 7 = false := by decide +kernel

theorem witness_FabricEvents : State.reset.ports.length = 48 ∧ (State.reset.ctx 0).fabric.getLsbD 30 = false ∧
    State.reset.invalWait = [] ∧ tfind State.reset.dir (lineOf 0x1000) = none ∧ State.reset.posted = [] ∧
    State.reset.reorder = [] ∧ (State.reset.port 47).st = 0 ∧
    (let s := State.reset.setPort 47 { State.reset.port 47 with st := 2, en := true, rxFails := 2, bucket := 6 }
     (s.port 47).st = 2 ∧ (s.port 47).en = true ∧ (s.port 47).rxFails < 3 ∧ 6 ≤ (s.port 47).bucket) := by decide +kernel

theorem witness_HostEvents : State.reset.dies.length = 8 ∧ State.reset.hbms.length = 32 ∧ State.reset.ports.length = 48 ∧
    State.reset.blocks = [] ∧ State.reset.launches = [] ∧ State.reset.nodes = [] ∧ State.reset.pkg.rstBusy = false ∧
    State.reset.keyWait = [] ∧ (15 ∉ State.reset.pkg.vfs) ∧ State.reset.mil.newImage = false ∧ 128 ≤ lineRoom 0 := by decide +kernel

/-- A die, a stack and a port that return from their resets, the last of their kinds, while RST_CTL is busy with them. -/
theorem witness_HostEvents_returns :
    (let s := State.reset.setDie 7 { State.reset.die 7 with inReset := true }
     (s.die 7).inReset = true ∧ (s.die 7).waiting = none ∧ (s.die 7).fifo = [] ∧ s.blocks = [] ∧ s.reorder = []) ∧
    (let s := { State.reset.setStack 31 { State.reset.stack 31 with inReset := true } with
        pkg := { State.reset.pkg with rstBusy := true, rstUnit := some (2, 31) } }
     (s.stack 31).inReset = true ∧ s.hwqs = [] ∧ (s.die (31 / 4)).fifo = [] ∧ s.pkg.rstUnit = some (2, 31) ∧ s.pkg.rstBusy = true) ∧
    (let s := { State.reset with pkg := { State.reset.pkg with rstBusy := true, rstUnit := some (3, 47) } }
     (s.port 47).st ≠ 3 ∧ s.pkg.rstUnit = some (3, 47)) := by decide +kernel

/-- A wave of the small world, its lane 0 in a state. -/
def laneIs (st : LaneSt) : Wave := (waveWith []).setLane 0 { (waveWith []).lane 0 with st }
/-- A result that nothing is awaited for. -/
def resultReady : Pending :=
  { id := 0, lanes := 1, waiting := 0, left := [], writes := [], tagged := [], landing := none, isChain := false, price := 0 }
/-- A WAITA of the word at 0x1000. -/
def waitsAt : WaitA := { cmp := .eq, w64 := false, acq := none, ea := 0x1000, comparand := 7 }

/-- A finished result, lanes that wait for room, a launch slot, a count, an order, an acknowledgement and a word; and two packages'
acknowledgements, of which one comes in. -/
theorem witness_WaveEvents_waits :
    let s (w : Wave) : State := worldOf w id 1
    (∃ j < 32, ((waveWith []).lane j).isExited = false) ∧
    [resultReady].find? (fun x => x.id == 0) = some resultReady ∧ resultReady.waiting = 0 ∧ resultReady.again = none ∧ resultReady.acq = none ∧
    (∀ st ∈ [LaneSt.blocked .launchSlot, .blocked (.room 15 1), .blocked (.bcw 0)], (laneIs st).queueNumbers = []) ∧
    (laneIs (.blocked (.order .sys))).commit = [] ∧ (∀ x ∈ (s (laneIs (.blocked (.order .sys)))).blocks, x.2.stopped = none) ∧
    (laneIs (.blocked (.acqp .sys))).acks = [] ∧ [3, 4].filter (· != 3) ≠ [] ∧ (waveWith []).pend = [] ∧
    (let w := laneIs (.blocked (.waita waitsAt))
     (w.lane 0).st = .blocked (.waita waitsAt) ∧ (s w).steer (blockOf w id) 0 0 waitsAt.ea.toNat 4 = .global 0x1000 ∧
       (s w).isLocal 0x1000 = true ∧ (s w).translate 0 0x1000 .read = .ok ⟨storageOf 0x1000, false, true⟩ ∧ w.inRegion = false ∧
       (s w).isPoisoned (storageOf 0x1000) = false ∧ (s w).accessWaits (storageOf 0x1000) = false) := by decide +kernel

/-- A core of the small world in a state. -/
def coreIs (f : Core → Core) : State := (W1 []).setCore 0 (f Core.reset)
/-- An entry of the request engine of the small world's block. -/
def entryOf (kind : ReKind) (r : Nat) : ReEntry := ReEntry.new kind (bytesOf 64 r) 0 (blockOf (waveWith []) id) none

/-- A promotion of another package for a job that no context serves; one of this package; a log entry of 2^30 writes ago and one of
one less; a self-test; a fault record and a ring with room. -/
theorem witness_CoreEvents_log :
    let p : Promo := { scope := .pkg, tags := [], local? := none, remote := none, upTo := none }
    let e (n : Nat) : LogEntry := { scope := .die, slot := 0, blk := 0, gen := BitVec.ofNat 32 n }
    let r : FaultRec := { table := 0, va := 0, srcPkg := 0, ctx := 0, kind := 0, access := 0, level := 2, remote := false }
    ((coreIs fun c => { c with promos := [p] }).core 0).promos = [p] ∧ p.remote = none ∧ p.scope ≠ .sys ∧ (W1 []).ctxOfJob 7 = none ∧
    2 ^ 30 ≤ (BitVec.ofNat 32 (2 ^ 30) - (e 0).gen).toNat ∧ (BitVec.ofNat 32 (2 ^ 30) - (e 1).gen).toNat < 2 ^ 30 ∧
    ((coreIs fun c => { c with selfTest := true }).core 0).selfTest = true ∧
    { W1 [] with faultWait := [r] }.ringFull = false ∧ (W1 []).pkg.invalDone = true := by decide +kernel

/-- Engine queues: a fence at the head of two of them; a copy into queue 2, whose slot it takes; a copy that has moved a line, that
is done, that is to read and that is to write; and a byte that has been dirty for 20 µs. -/
theorem witness_CoreEvents_engine :
    let at' (f : Block → Block) (q : List (List ReEntry)) : State :=
      (worldOf (waveWith []) f 1).setCore 0 { Core.reset with reQueues := q }
    let fence := entryOf (.fence 3 0) 0
    let slotted := { entryOf .copy (1 + 2 ^ 7 + 2 ^ 16 + 16 * 2 ^ 32 + 0x1000 * 2 ^ 64 + 0xFFFFFFFF * 2 ^ 320) with blk := 0 }
    let copy := entryOf .copy copyRecord
    (∀ n < 4, (3#4).getLsbD n = true → lget [] [[fence], [fence], [], []] n = [fence]) ∧ fence.kind = .fence 3 0 ∧
    (let s := at' (queued 2 [.free, .free]) [[slotted], [], [], []]
     s.head? 0 0 = some slotted ∧ (s.entryBlock slotted).isSome = true ∧ slotted.toQueue = true ∧ slotted.slot = none ∧
       s.mayStart 0 slotted = true ∧ cpQueue slotted.record = 2 ∧ 0 < ((blockOf (waveWith []) (queued 2 [.free, .free])).queue 2).free) ∧
    (let s (e : ReEntry) := at' id [[e], [], [], []]
     let read := { copy with paid := 1 }
     let write := { copy with paid := 2, got := some (bytesOf 16 7) }
     copy.isFence = false ∧ copy.isCopy = true ∧ copy.total = 16 ∧ (s { copy with step := 16 }).slotServed { copy with step := 16 } = false ∧
       (s read).reReady 0 read = true ∧ ((s read).rePart read).src = some (false, 0x1000) ∧ (s read).dirty = [] ∧
       (s read).isLocal 0x1000 = true ∧ (s read).translate 0 0x1000 .read = .ok ⟨storageOf 0x1000, false, true⟩ ∧
       (s read).isPoisoned (storageOf 0x1000) = false ∧
       (s write).reReady 0 write = true ∧ ((s write).rePart write).dst = some (true, 128) ∧ ((s write).entryBlock write).isSome = true) ∧
    (let d : DirtyByte := { sa := storageOf 0x1000, val := 1, core := 0, lvl := 0, gen := 0, birth := 0 }
     let s := { W1 [] with dirty := [d], clk := 25000 }
     s.sees 0 d = true ∧ 25000 ≤ (s.clk - d.birth).toNat) := by decide +kernel

/-- The array of core 0 free with one sequencer waiting for it, and at a column of an MMA whose layouts lie in scratchpad. -/
theorem witness_CoreEvents_array :
    let f : Block → Block := seqBlock [(0, 0), (1, 16)] [lay 2, lay 2] 0
    let q := (blockOf (waveWith []) f).seq
    let run := q.capture km 0 16 (q.xreg (.x 0)) (q.xreg (.x 1)) 0
    let g (b : Block) : Block := let b1 := f b; { b1 with seq := { b1.seq with st := .mma, mma := some run, paid := true } }
    let blk := blockOf (waveWith []) g
    let s := worldOf (waveWith []) g 1
    (s.core 0).array = none ∧ s.arrayWaiters 0 = [(0, blk, run)] ∧ blk.seq.mma = some run ∧ blk.seq.paid = true ∧ blk.runs = true ∧
      run.col < run.n ∧
      (let near (p : Option ElemPlan) : Bool := match p with | some p => p.spots.all (·.spad) | none => true
       (∀ i ∈ [0, 127], ∀ k ∈ [0, 63], near (planOf (run.planA blk.spadSize i k)) = true) ∧
       ∀ j ∈ [0, 7], ∀ k ∈ [0, 63], near (planOf (run.planB blk.spadSize k j)) = true) := by
  decide +kernel

/-- A context that owns nothing here; a stray engine hold, which a notice for its job frees; a wave whose hold it is. -/
theorem witness_CoreEvents_translation :
    (W1 []).dies.length = 8 ∧ (∀ p ∈ (W1 []).blocks, p.2.ctx ≠ 5) ∧ (∀ n < 9, (W1 []).mergeTable n = []) ∧
    (∀ n < 8, (State.reset.die n).fifo = []) ∧ State.reset.reorder = [] ∧ State.reset.blocks = [] ∧
    ({ State.reset with pkg := { State.reset.pkg with invalDone := false } }).pkg.invalDone = false ∧
    (let g := 3 * 2 ^ 29
     let e := { entryOf .copy copyRecord with held := some g }
     g * 65536 / 2 ^ 45 % 4096 = 3 ∧ State.reset.pkgNo = 0 ∧ State.reset.hwqs = [] ∧
       (State.reset.setCore 0 { Core.reset with reQueues := [[e], [], [], []] }).head? 0 0 = some e ∧
       ((State.reset.ctx 0).fabric.setWidth 16 : BitVec 16) = 0) ∧
    (let f (b : Block) : Block := { b with seq := Seq.start none 0 }
     (worldOf (waveWith []) f 1).blocks = [(0, blockOf (waveWith []) f)] ∧ (blockOf (waveWith []) f).waves = [waveWith []] ∧
       (blockOf (waveWith []) f).seq.st = .absent ∧ (blockOf (waveWith []) f).stopped = none) := by decide +kernel

/-- A die in each phase of a change, with nothing that waits; a supply astray and at each end of its range, held and due to be
released; a stack that retrains its last group. -/
theorem witness_PowerEvents_changes :
    let s (f : Die → Die) : State := State.reset.setDie 0 (f { State.reset.die 0 with phase := 0, inReset := false })
    (∀ n ∈ [1, 2, 3], ((s fun d => { d with phase := n }).die 0).phase = n ∧ ((s fun d => { d with phase := n }).die 0).waiting = none ∧
      ((s fun d => { d with phase := n }).die 0).fifo = [] ∧
      ((s fun d => { d with phase := n }).die 0).target ≤ ((s fun d => { d with phase := n }).die 0).capNow) ∧
    ((s id).die 0).op ≤ ((s id).die 0).capNow ∧ State.reset.reorder = [] ∧ State.reset.blocks = [] ∧
    ((s fun d => { d with validSince := 10 ^ 7, holds := { d.holds with capacitor := true } }).die 0).validSince = 10 ^ 7 ∧
    ((s fun d => { d with fewFlagged := 1000, holds := { d.holds with sensor := true } }).die 0).holds.sensor = true ∧
    (45999 < 46000 ∨ 54000 < (45999 : Int)) ∧ ¬((46000 : Int) < 46000 ∨ 54000 < (46000 : Int)) ∧
    (supplyKey (.voltage 46000), none) ∉ State.reset.supplyOut ∧
    (supplyKey (.voltage 46000), none) ∈ { State.reset with supplyOut := [(supplyKey (.voltage 46000), none)] }.supplyOut ∧
    { State.reset with supplyOut := [(supplyKey (.coolant 640), some 0)], clk := 1250000000 }.supplyOut =
      [(supplyKey (.coolant 640), some 0)] ∧ ((1250000000 : Dword)).toNat = 0 + 1250000000 ∧
    ((State.reset.setStack 3 { Stack.reset with group := 7 }).stack 3).group = 7 ∧ (State.reset.stack 3).group = 15 := by decide +kernel

/-- A queue whose ring stands at 0x8000, with its first entry announced, and the journal on dies 0 and 1. -/
def ring (f : Hwq → Hwq) : State :=
  let s := (W1 []).placeBytes (storageOf 0x8060) (bytesOf 32 (1 + 0x9000 * 2 ^ 64 + 2 ^ 128))
  let s1 := s.setDie 1 { s.die 1 with phase := 0, inReset := false }
  { s1.setHwq 0 (f { Hwq.reset with cfg0 := BitVec.ofNat 64 (2 ^ 63), cfg1 := 0x8000, accept := some 0, announced := 1 }) with
    pkg := { s1.pkg with jrnA := BitVec.ofNat 64 (2 ^ 63 + 2 ^ 41), jrnB := BitVec.ofNat 64 (2 ^ 63 + 2 ^ 41 + 2 ^ 38) } }

/-- A job whose rank 0 is this package's: Ecolo in force, and an intent held for the next interval. -/
theorem witness_PowerEvents_ecolo :
    let h : Intent := { job := 0, rank := 0, rise := 1, t := 1, admitted := false, deferred := false }
    let s := { collective (W1 []) with gov := { Gov.reset with held := [h], ecolo := BitVec.ofNat 64 (2 ^ 63 + 2 ^ 35) } }
    s.ecoloOn = true ∧ h.t = (s.clk.toNat / 12500 + 1) % 65536 ∧ 0 < ecLimit s.gov.ecolo ∧ ecSize s.gov.ecolo = 1 ∧
      after16 1 ((s.clk.toNat + 6249) / 12500) = true := by decide +kernel

/-- The queue's entry can be accepted, and the words that acceptance writes lie apart; a command that is to start, and one that has
ended and is the next done. -/
theorem witness_QueueEvents_queue :
    let s := ring id
    let h := s.hwq 0
    s.canAccept 0 = true ∧ s.isLocal (h.base + 64 + 32 * (1 % h.entries)) = true ∧
    (match s.readGlobal h.ctxNo (h.base + 64 + 32 * (1 % h.entries)) 32 with | .ok (some b) => entryOk b 1 | _ => false) = true ∧
    s.translate 0 h.base .write = .ok ⟨storageOf 0x8000, false, true⟩ ∧
    (storageOf 0x8000 + 8 ≤ jrnAt s.pkg.jrnA 0 ∨ jrnAt s.pkg.jrnA 0 + 64 ≤ storageOf 0x8000) ∧
    (storageOf 0x8000 + 8 ≤ jrnAt s.pkg.jrnB 0 ∨ jrnAt s.pkg.jrnB 0 + 64 ≤ storageOf 0x8000) ∧
    (jrnAt s.pkg.jrnA 0 + 64 ≤ jrnAt s.pkg.jrnB 0 ∨ jrnAt s.pkg.jrnB 0 + 64 ≤ jrnAt s.pkg.jrnA 0) ∧
    (let c : Cmd := { seq := 1, entry := bytesOf 32 (1 + 0x9000 * 2 ^ 64 + 2 ^ 128), started := false, ended := false, fault := 0, live := 0
                      status := 0, complete := false }
     ([c].find? (fun c => !c.started && !c.ended)) = some c ∧ h.cur = none ∧ h.halted = false ∧ h.ringWait = none ∧ h.ringDead = false ∧
       ({ c with started := true, ended := true }).ended = true ∧ c.seq = h.done + 1 ∧
       s.translate 0 (h.base + 64 + 32 + 24) .write = .ok ⟨storageOf 0x8078, false, true⟩ ∧
       s.translate 0 (h.base + 8) .write = .ok ⟨storageOf 0x8008, false, true⟩ ∧
       (storageOf 0x8078 + 8 ≤ storageOf 0x8008 ∨ storageOf 0x8008 + 8 ≤ storageOf 0x8078)) ∧
    s.addrWaits 0 0x1000 .read = false ∧ (match s.readGlobal 0 0x1000 4 with | .ok (some _) => true | _ => false) = true := by
  decide +kernel

/-- A launch of one block, to be dispatched and to be placed. -/
def lively (f : LaunchSlot → LaunchSlot) : State :=
  { (W1 []).setLaunch 1 (f { LaunchSlot.reset with
      alive := true, record := bytesOf 64 (0x1080 + 2 ^ 64 + 2 ^ 80), desc := bytesOf 128 ((1 + 32 * 2 ^ 6) * 2 ^ 128) }) with blocks := [] }

theorem witness_QueueEvents_levels :
    (lively id).dispatchStatus 1 = none ∧ ((lively id).launch 1).dispatched = false ∧
    (let s := lively fun x => { x with dispatched := true }
     s.placeable = some 1 ∧ s.restorable = none ∧ recKind (s.launch 1).record = 0 ∧ (s.launch 1).rerun = [] ∧ (s.launch 1).dispatched = true) ∧
    (W1 []).saving = [] ∧ (W1 []).blocks = [(0, blockOf (waveWith []) id)] ∧ (W1 []).quiet 0 (blockOf (waveWith []) id) = true ∧
    (W1 []).quiet 0 (blockOf (waveWith []) fun b => { b with seq := { b.seq with st := .heldAt [] } }) = false ∧
    (∀ c, dieOf c = 0 → c < 48 → ((W1 []).core c).drained = true) ∧ State.reset.nodeSignals = [] ∧
    (∀ k : LevelKind, (State.reset.levelSlot k 0).counter.outstanding = 0 ∧ 0 < levelSlots k) := by
  refine ⟨by decide +kernel, by decide +kernel, by decide +kernel, by decide +kernel, by decide +kernel, by decide +kernel,
    by decide +kernel, ?_, by decide +kernel, fun k => by cases k <;> decide +kernel⟩
  intro c _ hc
  interval_cases c <;> decide +kernel

/-- A write and a load of another package for job 7, which context 0 serves; a tagged write of the present instance, of the next and of
the one after; acknowledgements and an answer that await them. -/
theorem witness_FabricEvents_peers :
    let s := (collective (W1 [])).setCtx 0 { (W1 []).ctx 0 with fabric := 0x80000007 }
    let r (inst : Option (Nat × Nat)) (op : PeerOp) : PeerReq :=
      { srcPkg := 3, cls := 0, seq := 0, port := 0, job := 7, enc := false, authOk := true, op, addr := 0x1000, size := 4
        data := [1, 2, 3, 4], tag := 9, inst }
    (∀ inst ∈ [none, some (0, 0), some (0, 1), some (0, 2)], (r inst .write).seq = tget 0 s.seqIn (3 * 8 + 0)) ∧
    s.reorder = [] ∧ s.reorderChains = [] ∧ s.ctxOfJob 7 = some 0 ∧ (s.ctx 0).fabric.getLsbD 30 = false ∧
    s.translate 0 0x1000 (peerNeed .write) = .ok ⟨storageOf 0x1000, false, true⟩ ∧
    s.translate 0 0x1000 (peerNeed .load) = .ok ⟨storageOf 0x1000, false, true⟩ ∧ s.accessWaits (storageOf 0x1000) = false ∧
    s.invalWait = [] ∧ tfind s.dir (lineOf (storageOf 0x1000)) = none ∧ s.instOf 0 0 = some 0 ∧
    s.pkg.eaBase.getLsbD 63 = true ∧ s.earlyBytes 0 (stackOf (storageOf 0x1000)) + 4 ≤ 65536 ∧
    2 ^ 23 ≤ (2 ^ 23 + 2 ^ 24 - tget 0 s.seqIn (3 * 8 + 0)) % 2 ^ 24 ∧
    ({ s with blocks := [], launches := [], invalWait := [(3, 0x1000)], ackWait := [(32, 0, .ack 3 9 0)] }).launches = [] := by
  decide +kernel

/-- A chain of one step at its start, at its last read and at a null pointer; a tracker of the small world's wave, before its deadline
and at it. -/
theorem witness_FabricEvents_chains :
    let d : FetchLine := BitVec.ofNat 512 (1 + 8 * 2 ^ 64)
    let peer : Dword := BitVec.ofNat 64 (3 * 2 ^ 45 + 0x1000)
    let k : ChainPkt := { id := 0, attempt := 0, srcPkg := 3, job := 7, nf := false, desc := d, p := 0x1000, step := 1, final := false }
    let s := (W1 []).setCtx 0 { (W1 []).ctx 0 with fabric := 0x80000007 }
    let t : Tracker := { id := 0, attempt := 0, timeouts := 0, blk := 0, wave := 0, lane := 0, pend := 0, nf := false, desc := d
                         start := peer, deadline := 5, result := none }
    let s1 := worldOf { waveWith [] with pend := [{ resultReady with waiting := 1 }] } id 1
    let s2 := s1.setCore 0 { Core.reset with trackers := [t] }
    chainMove d 0 0 false = .stop (.null 0) ∧ chainMove d k.p k.step k.final = .last 0x1008 4 ∧ k.seq = none ∧
    s.ctxOfJob k.job = some 0 ∧ s.translate 0 0x1008 .read = .ok ⟨storageOf 0x1008, false, true⟩ ∧
    s.accessWaits (storageOf 0x1008) = false ∧ s.isPoisoned (storageOf 0x1008) = false ∧ s.isLocal 0x1008 = true ∧
    (s2.core (coreOf t.blk)).trackers = [t] ∧ coreOf t.blk = coreOf (t.id / 32 / 2 ^ 32 / 32) ∧ t.blk = t.id / 32 / 2 ^ 32 / 32 ∧
    ({ s2 with clk := 4 }).clk.toNat < t.deadline.toNat ∧ t.deadline.toNat ≤ ({ s2 with clk := 5 }).clk.toNat ∧
    s2.trackerHeld t = false ∧ s2.awaits t = true ∧ chainMove d t.start 0 false = .read (3 * 2 ^ 45 + 0x1000) ∧
    s2.steer (blockOf { waveWith [] with pend := [{ resultReady with waiting := 1 }] } id) 0 0 (3 * 2 ^ 45 + 0x1000 : Nat) 8 =
      .global (3 * 2 ^ 45 + 0x1000) ∧ s2.isLocal (3 * 2 ^ 45 + 0x1000) = false := by decide +kernel

/-- An MPUT.red of this package's group at the head of its queue, whose chunk 0 awaits its result; a port and a connection that take
a write of four bytes. -/
theorem witness_FabricEvents_collectives :
    let m : RedMsg := { job := 7, grp := 0, seq := 0, chunk := 0, rank := 0, len := 16, elem := 0, dst := 0x2000, poisoned := false
                        data := bytesOf 16 1 }
    let e := { entryOf .oneSided (putRecord + 4) with sent := [m] }
    let s := ((collective (W1 [])).setCtx 0 { (W1 []).ctx 0 with fabric := 0x80000007 }).setCore 0
      { Core.reset with reQueues := [[e], [], [], []] }
    let conn := 5 + 2 ^ 30 + 77 * 2 ^ 352
    let sco : ScoMsg := { port := 0, macOk := true, qpn := 5, key := 77, va := 0x1000, data := [1, 2, 3, 4], len := 4 }
    let s2 := (W1 []).placeBytes (storageOf 0x7000) (bytesOf 64 conn)
    let s3 := { s2 with pkg := { s2.pkg with scoBase := 0x7000, sco := [[0x8000000000000000]] } }
    s.redEntry m.grp m.seq = some (0, 0, e) ∧ m.chunk ∉ e.delivered ∧ e.sent = [m] ∧ s.reStray 0 e = true ∧ m.data ≠ [] ∧
    m.data.length ≤ lineRoom (memberAddr s.pkgNo m.dst) ∧
    s.translate e.ctx (memberAddr s.pkgNo m.dst) .write = .ok ⟨storageOf 0x2000, false, true⟩ ∧
    (s.keptContribution 0 0 0).isSome = true ∧ s.keptContribution 1 0 0 = none ∧ s.ctxOfJob m.job = some 0 ∧ (s.group 0 0).isSome = true ∧
    s3.scoTakes sco = true ∧ s3.scoTakes { sco with port := 8 } = false ∧
    (match s3.connOf sco with | some (n, e) => n == 0 && s3.scoChecks sco e && connCtx e == 0 && connSig e == 0 | none => false) = true ∧
    s3.scoFatal = [] ∧ s3.dir = [] ∧ memberAddr s3.pkgNo (sco.va.toNat % 2 ^ 45) = 0x1000 ∧
    s3.translate 0 0x1000 .write = .ok ⟨storageOf 0x1000, false, true⟩ ∧ s3.translate 0 0 .atomic = .ok ⟨storageOf 0, false, true⟩ ∧
    State.reset.idWritable = true ∧ ({ State.reset with pkg := { State.reset.pkg with timeEn := true } }).pkg.timeEn = true := by
  decide +kernel

/-- No host write is held back; one is held at die 0, alone; a die and a stack in reset with nothing held. -/
theorem witness_HostEvents_waits :
    let s := State.reset.setDie 0 { State.reset.die 0 with phase := 0, inReset := false, fifo := [.hostBar2Access .pf 0 4 (.write [1] false)] }
    (∀ n < 8, (State.reset.die n).fifo = []) ∧ (W1 []).accessWaits (storageOf 0) = false ∧ homeDie (storageOf 0) = 0 ∧
    (W1 []).pkg.bar2Win.toNat % 2 ^ 12 * 2 ^ 30 + 0 = 0 ∧ (∀ n < 8, n ≠ 0 → (s.die n).fifo = []) ∧
    (s.die 0).fifo = [.hostBar2Access .pf 0 4 (.write [1] false)] ∧
    ((W1 []).setDie 0 { (W1 []).die 0 with inReset := true }).accessWaits (storageOf 0) = true ∧
    (State.reset.setDie 0 { State.reset.die 0 with inReset := true }).reorder = [] ∧
    ((State.reset.setStack 31 { State.reset.stack 31 with inReset := true }).stack 31).inReset = true ∧ State.reset.hwqs = [] := by
  decide +kernel

/-! ### Single steps, with the results of the spec's worked examples -/

/-- Register r of a lane after one instruction in a world. -/
def regAfter (s : State) (i : Instr) (lane r : Nat) : Option Nat :=
  match exec i s with
  | .next t => (t.wave? 0 0).map fun w => ((w.lane lane).reg r).toNat
  | _ => none

/-- The example of IADDC (R441). -/
theorem test_iaddc_carry :
    (let s := W1 [(0, 0xFFFFFFFF), (1, 2), (4, 1), (5, 1), (11, 1)]
     (regAfter s (.iaddc kw false (v 10) (v 0) (v 4) .zero) 0 10, regAfter s (.iaddc kw false (v 10) (v 0) (v 4) .zero) 0 11,
      regAfter s (.iaddc kw false (v 12) (v 1) (v 5) (v 11)) 0 12, regAfter s (.iaddc kw false (v 12) (v 1) (v 5) (v 11)) 0 13)) =
    (some 0, some 1, some 4, some 0) := by decide +kernel

/-- The examples of LEA (R454). -/
theorem test_lea_signs :
    (let s := W1 [(2, 0xFFFFFFF0), (3, 1), (5, 0xFFFFFFFF)]
     (regAfter s (.lea kw true 2 true (v 10) (v 2) (v 5)) 0 10, regAfter s (.lea kw true 2 true (v 10) (v 2) (v 5)) 0 11,
      regAfter s (.lea kw false 2 true (v 10) (v 2) (v 5)) 0 10, regAfter s (.lea kw false 2 true (v 10) (v 2) (v 5)) 0 11)) =
    (some 0xFFFFFFEC, some 1, some 0xFFFFFFEC, some 5) := by decide +kernel

/-- The examples of the shifts (R500). -/
theorem test_shift_counts :
    (let s := W1 [(4, 0x80000010)]
     (regAfter s (.sha kw .w32 (v 3) (v 4) (.imm 35)) 0 3, regAfter s (.shr kw .w32 (v 3) (v 4) (.imm 35)) 0 3,
      regAfter s (.shl kw .w32 (v 3) (v 4) (.imm 0x104)) 0 3)) = (some 0xFFFFFFFF, some 0, some 0x100) := by decide +kernel

/-- FEX2.f32 of 3.0 must return exactly 8.0; FSQRT of -1 the canonical NaN (R430, R139). -/
theorem test_special_functions :
    (regAfter (W1 [(4, 0x40400000)]) (.fex2 kw .f32 (v 3) (v 4)) 0 3, regAfter (W1 [(4, 0xBF800000)]) (.fsqrt kw .f32 .rn (v 3) (v 4)) 0 3) =
    (some 0x41000000, some 0x7FC00000) := by decide +kernel

/-- A wave of tile size s whose register 8 holds these values in these lanes on. -/
def tiled (s lo : Nat) (xs : List Nat) : Wave :=
  { (waveWith []).mapLanes fun i l => if i < lo then l else l.setReg 8 (BitVec.ofNat 32 (lget 0 xs (i - lo))) with s }

/-- The example of SHFL (R502): lane 6 is not active and keeps its register. -/
theorem test_shfl_down :
    (let s := worldOf (tiled 4 4 [40, 50, 60, 70]) id 0xB0
     let i : Instr := .shfl kw false .down (v 9) (v 8) (.imm 1)
     (regAfter s i 4 9, regAfter s i 5 9, regAfter s i 6 9, regAfter s i 7 9)) = (some 50, some 60, some 0, some 70) := by
  decide +kernel

/-- The example of MATCH (R458). -/
theorem test_match_any :
    (let s := worldOf (tiled 8 8 [5, 7, 5, 5, 7, 9, 5, 7]) id 0xFF00
     let i (all : Bool) : Instr := .matchT kw all false (v 9) (v 8)
     (regAfter s (i false) 8 9, regAfter s (i false) 12 9, regAfter s (i false) 13 9, regAfter s (i true) 8 9)) =
    (some 0x4D00, some 0x9200, some 0x2000, some 0) := by decide +kernel

/-- The example of ATOM (R400): lanes 0, 2 and 5 add 1 to a word that holds 10. -/
theorem test_atom_order :
    (let s := (worldOf (waveWith [(4, 0x1000), (3, 1)]) id 0x25).placeBytes (storageOf 0x1000) (bytesOf 4 10)
     let i : Instr := .atom kw .add false false .pkg .relaxed false (v 1) (v 4) .zero (v 3) .zero
     (regAfter s i 0 1, regAfter s i 2 1, regAfter s i 5 1,
      match exec i s with | .next t => t.homeNat (storageOf 0x1000) 4 | _ => 0)) = (some 10, some 11, some 12, 13) := by
  decide +kernel

/-- The example of R212: lane 3 writes bytes 0 and 1, lanes 4 and 9 bytes 2 and 3. -/
theorem test_store_highest_lane :
    (let w := (waveWith []).mapLanes fun i l =>
       ((l.setReg 2 (BitVec.ofNat 32 (2 ^ 30 + if i = 3 then 0 else 2))).setReg 5 (BitVec.ofNat 32 (0x100 + i)))
     match exec (.st kw .n16 none false false (v 2) .zero (v 5)) (worldOf w id 0x218) with
     | .next t => (List.range 4).map fun o => (spadAt t 0 o).toNat
     | _ => []) = [3, 1, 9, 1] := by decide +kernel

/-- The cases of R226: a window of 6 bytes, with trap-on-param clear. The first reads a word that fits, which is one of those that R227
leaves open and sets no flag. -/
theorem test_param_bounds :
    (let s := (worldOf (waveWith []) (windowed false) 1).placeBytes (storageOf 0x1000) (bytesOf 6 0x665544332211)
     let reads (w64 : Bool) (win : BitVec 3) (o : BitVec 15) : Option (Nat × Nat) :=
       match exec (.mov kw w64 (v 2) (.param win o)) s with
       | .next t => (t.wave? 0 0).map fun w => (((w.lane 0).reg 2).toNat, w.fpstat.toNat)
       | _ => none
     ((reads false 2 0).map Prod.snd, reads false 2 4, reads true 2 0, reads false 5 0)) =
    (some 0, some (0, fParamBound.toNat), some (0, fParamBound.toNat), some (0, fParamBound.toNat)) := by
  decide +kernel

/-- TRAP under an enabled handler: cause and saved PC (R123, R496, R509). -/
theorem test_trap_saves :
    (match exec (.trap kw 0x2A) ((W []).setCtx 0 { (W []).ctx 0 with trap := BitVec.ofNat 64 (0x40 * 5 + 1) }) with
     | .next t => (t.wave? 0 0).map fun w =>
         (w.trapCause.toNat, w.trapPc.toNat, w.trapMode, (w.lane 31).pc.toNat)
     | _ => none) = some (0x2A0B, placedOffset, true, 0x140) := by decide +kernel

/-- The example of R296: the first arrival latches its word and counts one of three. -/
theorem test_mbar_latches :
    (match exec (.mbar kw 5 (v 9) (.imm 3)) (W [(9, 0x11)]) with
     | .next t => (t.block? 0).map fun b => let x := lget (Barrier.start 0) b.bars 5
         (x.expected, x.arrived, x.latched, x.format.toNat)
     | _ => none) = some (3, 1, true, 0x11) := by decide +kernel

/-- An instruction placed for the next step runs there, whichever its stream (R120). -/
theorem test_step_runs :
    (match step (State.reset.withFetchWord 96 0x00007F800000070000004081) with
     | .next t => (t.wave? 0 0).map fun w => (((w.lane 31).reg 7).toNat, (w.lane 31).pc.toNat)
     | _ => none) = some (0x3FC00000, placedOffset + 12) := by decide +kernel
theorem test_step_starts_clock : (match step State.reset with | .next t => (t.clk.toNat, t.agenda.isEmpty) | _ => (0, true)) = (1, false) := by
  decide +kernel

end Sys2Proof.Tests
end

section
/-! SUPPORT. What taking a trap leaves: the wave's landed results, the returned price, and the bytes of memory (R15, R166,
R496). -/

namespace Sys2Proof.Machine

/-! ### One wave replaced -/

theorem State.setWave_eq_setBlock {s : State} {b : Nat} {blk : Block} (hb : s.block? b = some blk) (i : Nat) (x : Wave) :
    s.setWave b i x = s.setBlock b (blk.setWave i x) := by
  simp only [State.setWave, State.onBlock, hb]

theorem State.block_setWave {s : State} {b : Nat} {blk : Block} (hb : s.block? b = some blk) (i : Nat) (x : Wave) :
    (s.setWave b i x).block? b = some (blk.setWave i x) := by
  rw [State.setWave_eq_setBlock hb, State.block_setBlock, if_pos rfl]

theorem Block.wave_setWave {blk : Block} {i : Nat} {w : Wave} (hw : blk.wave? i = some w) (x : Wave) :
    (blk.setWave i x).wave? i = some x := by
  have hi : i < blk.waves.length := (List.getElem?_eq_some_iff.mp hw).1
  rw [Block.wave?, Block.setWave_waves, lset_getElem?, if_pos ⟨rfl, hi⟩]

theorem State.wave_setWave {s : State} {b i : Nat} {blk : Block} {w : Wave} (hb : s.block? b = some blk)
    (hw : blk.wave? i = some w) (x : Wave) : (s.setWave b i x).wave? b i = some x := by
  rw [State.wave?, State.block_setWave hb, Option.bind_some, Block.wave_setWave hw]

/-- A change of a wave touches no part of the state but the resident blocks. -/
theorem State.setWave_frame (s : State) (b i : Nat) (x : Wave) : s.setWave b i x = { s with blocks := (s.setWave b i x).blocks } := by
  unfold State.setWave State.onBlock
  split <;> rfl

@[simp] theorem State.setWave_mem (s : State) (b i : Nat) (x : Wave) : (s.setWave b i x).mem = s.mem := by
  rw [State.setWave_frame]
@[simp] theorem State.setWave_dirty (s : State) (b i : Nat) (x : Wave) : (s.setWave b i x).dirty = s.dirty := by
  rw [State.setWave_frame]
@[simp] theorem State.setWave_gov (s : State) (b i : Nat) (x : Wave) : (s.setWave b i x).gov = s.gov := by
  rw [State.setWave_frame]
@[simp] theorem State.core_setWave (s : State) (b i : Nat) (x : Wave) (n : Nat) : (s.setWave b i x).core n = s.core n := by
  rw [State.setWave_frame]
  rfl

theorem spadAt_setWave (s : State) (b i : Nat) (x : Wave) (b' o : Nat) : spadAt (s.setWave b i x) b' o = spadAt s b' o := by
  cases hb : s.block? b with
  | none => simp only [State.setWave, State.onBlock, hb]
  | some blk =>
    rw [State.setWave_eq_setBlock hb]
    by_cases h : b' = b
    · subst h
      simp only [spadAt, State.block_setBlock, if_true, hb, Block.spadByte, Block.setWave_spad]
    · simp only [spadAt, State.block_setBlock, if_neg h]

/-! ### What lanes read -/

/-- The byte that a lane reads depends on memory, the dirty bytes and the felting of the cores. -/
theorem State.viewByte_congr {s t : State} (hmem : t.mem = s.mem) (hdirty : t.dirty = s.dirty)
    (hfelt : ∀ n, (t.core n).felted = (s.core n).felted) (n a : Nat) : t.viewByte n a = s.viewByte n a := by
  have hsees : t.sees = s.sees := by
    funext n d
    simp only [State.sees, State.isFelted, hfelt]
  simp only [State.viewByte, State.homeByte, hmem, hdirty, hsees]

theorem keepsBytes_setWave (s : State) (b i : Nat) (x : Wave) : KeepsBytes s (s.setWave b i x) :=
  ⟨fun a => by rw [State.homeByte, State.setWave_mem]; rfl, State.viewByte_congr (by simp) (by simp) (by simp),
    spadAt_setWave s b i x⟩

theorem keepsBytes_trans {s t u : State} (h : KeepsBytes s t) (h' : KeepsBytes t u) : KeepsBytes s u := by
  obtain ⟨hhome, hview, hspad⟩ := h
  obtain ⟨hhome', hview', hspad'⟩ := h'
  exact ⟨fun a => (hhome' a).trans (hhome a), fun n a => (hview' n a).trans (hview n a),
    fun b o => (hspad' b o).trans (hspad b o)⟩

/-! ### A price returned -/

theorem State.core_refund (s : State) (core price n : Nat) : (s.refund core price).core n =
    if n = core then { s.core core with bucket := min 16384 ((s.core core).bucket + price) } else s.core n :=
  State.core_setCore s core n _

theorem keepsBytes_refund (s : State) (core price : Nat) : KeepsBytes s (s.refund core price) := by
  have hfelt (n : Nat) : ((s.refund core price).core n).felted = (s.core n).felted := by
    rw [State.core_refund]
    split
    · next h => rw [h]
    · rfl
  exact ⟨fun _ => rfl, State.viewByte_congr rfl rfl hfelt, fun _ _ => rfl⟩

/-! ### Pending results that are written -/

theorem Wave.rest_land (w : Wave) (p : Pending) (i : Nat) (hi : i < 32) : ((w.land p).lane i).rest = (w.lane i).rest :=
  (Wave.rest_putTags _ _ i).trans (Wave.rest_putAll w p.writes i hi)

theorem Wave.trapMode_land (w : Wave) (p : Pending) : (w.land p).trapMode = w.trapMode := by
  have h : w.SameRest ((w.putAll p.writes).putTags p.tagged) := (w.putAll_sameRest _).trans (Wave.putTags_sameRest _ _)
  exact (congrArg Wave.trapMode h :)

/-- Pending results land in registers, tags and flags: the lanes keep their other parts, and the wave its trap mode. -/
theorem Wave.landAll_rest (w : Wave) :
    (∀ i < 32, (w.landAll.lane i).rest = (w.lane i).rest) ∧ w.landAll.trapMode = w.trapMode := by
  have hfold (l : List Pending) (w : Wave) :
      (∀ i < 32, ((l.foldl Wave.land w).lane i).rest = (w.lane i).rest) ∧ (l.foldl Wave.land w).trapMode = w.trapMode := by
    induction l generalizing w with
    | nil => exact ⟨fun _ _ => rfl, rfl⟩
    | cons p l ih =>
      obtain ⟨hrest, hmode⟩ := ih (w.land p)
      exact ⟨fun i hi => (hrest i hi).trans (w.rest_land p i hi), hmode.trans (w.trapMode_land p)⟩
  exact hfold _ w

theorem Wave.landAll_of_pend_nil {w : Wave} (h : w.pend = []) : w.landAll = w := by
  obtain ⟨⟩ := w
  subst h
  rfl

/-! ### The wave that takes a trap -/

/-- A wave as a trap in some lanes leaves it before any lane moves (R496). -/
def Wave.trapSaved (w : Wave) (active : LaneSet) (cause : Word) (pc : Pc) : Wave :=
  { w.landAll with opStore := [], trapped := active, trapCause := cause, trapPc := pc }

/-- The trapped lanes of a wave enter the handler (R496, R39). -/
def Wave.enterHandler (w : Wave) (entry : Pc) : Wave :=
  { w with trapMode := true, rot := Rot.start, rotKept := w.rot }.mapLanes fun j l =>
    if w.trapped.getLsbD j then { l with pc := entry, paid := false, waitsTo := none, check := false } else l

/-- The state in which a wave has taken a trap's cause and PC and its price is returned, and no lane has moved (R496, R166). -/
def State.saveTrap (s : State) (b i price : Nat) (w : Wave) : State := (s.refund (coreOf b) price).setWave b i w

section TakeTrap

variable {s : State} {b i : Nat} {blk : Block} {w : Wave} (hb : s.block? b = some blk) (hw : blk.wave? i = some w)
  (active : LaneSet) (kind detail price : Nat) (at? : Option Pc)
include hb hw

/-- Outside trap mode and under an enabled handler, the trapped lanes enter the handler. -/
theorem State.takeTrap_of_handler (hen : s.trapEn blk.ctx = true) (hmode : w.trapMode = false) :
    s.takeTrap b i active kind detail price at? =
      (let w1 := w.trapSaved active (BitVec.ofNat 32 (detail % 256 * 256 + kind)) (at?.getD (w.lane ((lowLane active).getD 0)).pc)
      (s.saveTrap b i price w1).setWave b i (w1.enterHandler (s.trapLine blk.ctx))) := by
  simp only [State.takeTrap, hb, hw, hen, hmode, Bool.not_false, and_self, if_true]
  rfl

/-- In trap mode, or with no enabled handler, the block fails. -/
theorem State.takeTrap_of_no_handler (h : s.trapEn blk.ctx = false ∨ w.trapMode = true) :
    s.takeTrap b i active kind detail price at? =
      (s.saveTrap b i price (w.trapSaved active (BitVec.ofNat 32 (detail % 256 * 256 + kind))
        (at?.getD (w.lane ((lowLane active).getD 0)).pc))).failBlock b := by
  have hno : ¬ (s.trapEn blk.ctx = true ∧ (!w.trapMode) = true) := by
    rcases h with h | h <;> simp [h]
  simp only [State.takeTrap, hb, hw, if_neg hno]
  rfl

end TakeTrap

theorem State.block_saveTrap {s : State} {b : Nat} {blk : Block} (hb : s.block? b = some blk) (i price : Nat) (x : Wave) :
    (s.saveTrap b i price x).block? b = some (blk.setWave i x) :=
  State.block_setWave (s := s.refund (coreOf b) price) hb i x

theorem State.wave_saveTrap {s : State} {b i : Nat} {blk : Block} {w : Wave} (hb : s.block? b = some blk)
    (hw : blk.wave? i = some w) (price : Nat) (x : Wave) : (s.saveTrap b i price x).wave? b i = some x :=
  State.wave_setWave (s := s.refund (coreOf b) price) hb hw x

theorem Wave.lane_trapSaved (w : Wave) (active : LaneSet) (cause : Word) (pc : Pc) {j : Nat} (hj : j < 32) :
    ((w.trapSaved active cause pc).lane j).st = (w.lane j).st ∧ ((w.trapSaved active cause pc).lane j).pc = (w.lane j).pc := by
  have h := w.landAll_rest.1 j hj
  simp only [Lane.rest, Prod.mk.injEq] at h
  obtain ⟨hpc, hst, -⟩ := h
  exact ⟨hst, hpc⟩

theorem Wave.lane_enterHandler (w : Wave) (entry : Pc) {j : Nat} (hj : j < 32) :
    (w.enterHandler entry).lane j = if w.trapped.getLsbD j then
      { w.lane j with pc := entry, paid := false, waitsTo := none, check := false } else w.lane j :=
  Wave.lane_mapLanes _ _ j hj

theorem keepsRegs_trapSaved {w : Wave} (h : w.pend = []) (active : LaneSet) (cause : Word) (pc : Pc) :
    KeepsRegs w (w.trapSaved active cause pc) := by
  rw [Wave.trapSaved, Wave.landAll_of_pend_nil h]
  exact ⟨fun _ _ => ⟨fun _ => rfl, rfl⟩, fun _ => rfl⟩

theorem keepsRegs_enterHandler {w w' : Wave} (h : KeepsRegs w w') (entry : Pc) : KeepsRegs w (w'.enterHandler entry) := by
  obtain ⟨hlane, hureg⟩ := h
  refine ⟨fun j hj => ?_, hureg⟩
  rw [Wave.lane_enterHandler _ _ hj]
  split
  · exact hlane j hj
  · exact hlane j hj

theorem State.trapLine_eq (s : State) (ctx : Nat) :
    s.trapLine ctx = BitVec.ofNat 57 ((s.ctx ctx).trap.toNat / 64 % 2 ^ 51 * 64) := by
  show BitVec.ofNat 57 (64 * ((s.ctx ctx).trap.toNat / 64 % 2 ^ 51)) = _
  rw [Nat.mul_comm]

theorem State.core_saveTrap (s : State) (b i price : Nat) (w : Wave) : (s.saveTrap b i price w).core (coreOf b) =
    { s.core (coreOf b) with bucket := min 16384 ((s.core (coreOf b)).bucket + price) } := by
  rw [State.saveTrap, State.core_setWave, State.core_refund, if_pos rfl]

theorem State.gov_saveTrap (s : State) (b i price : Nat) (w : Wave) :
    (s.saveTrap b i price w).gov = { s.gov with paid := s.gov.paid - price } := by
  rw [State.saveTrap, State.setWave_gov]
  rfl

theorem keepsBytes_saveTrap (s : State) (b i price : Nat) (w : Wave) : KeepsBytes s (s.saveTrap b i price w) :=
  keepsBytes_trans (keepsBytes_refund s _ _) (keepsBytes_setWave _ b i w)

/-- Settles O23: the trapped wave is trapSaved, and under an enabled handler enterHandler moves its trapped lanes. -/
theorem trapEntry : Obligations.TrapEntry := by
  unfold Obligations.TrapEntry
  intro s b i blk w active kind detail price at? hb hw pc t entry saves
  set w1 := w.trapSaved active (BitVec.ofNat 32 (detail % 256 * 256 + kind)) pc
  set s1 := s.saveTrap b i price w1
  have hkept (hp : w.pend = []) : KeepsRegs w w1 := keepsRegs_trapSaved hp active _ pc
  have hlane {j : Nat} (hj : j < 32) : (w1.lane j).st = (w.lane j).st ∧ (w1.lane j).pc = (w.lane j).pc :=
    w.lane_trapSaved active _ pc hj
  constructor
  case left =>
    intro hen hmode
    have ht : t = s1.setWave b i (w1.enterHandler entry) := by
      rw [show entry = s.trapLine blk.ctx from (s.trapLine_eq blk.ctx).symm]
      exact State.takeTrap_of_handler hb hw active kind detail price at? hen hmode
    have hwave : t.wave? b i = some (w1.enterHandler entry) := by
      rw [ht]
      exact State.wave_setWave (State.block_saveTrap hb i price w1) (Block.wave_setWave hw w1) _
    refine ⟨w1.enterHandler entry, hwave, ⟨rfl, rfl, rfl, rfl, fun hp => keepsRegs_enterHandler (hkept hp) entry⟩, rfl,
      fun j hj => ?_, ?_, ?_, ?_⟩
    · obtain ⟨hst, hpc⟩ := hlane hj
      rw [Wave.lane_enterHandler _ _ hj, show w1.trapped = active from rfl]
      split
      · exact ⟨hst, rfl⟩
      · exact ⟨hst, hpc⟩
    · rw [ht, State.core_setWave, State.core_saveTrap]
    · rw [ht, State.setWave_gov, State.gov_saveTrap]
    · rw [ht]
      exact keepsBytes_trans (keepsBytes_saveTrap s b i price w1) (keepsBytes_setWave s1 b i _)
  case right =>
    intro hfail
    exact ⟨s1, w1, State.takeTrap_of_no_handler hb hw active kind detail price at? hfail, State.wave_saveTrap hb hw price w1,
      ⟨rfl, rfl, rfl, rfl, hkept⟩, w.landAll_rest.2, fun j hj => hlane hj⟩

end Sys2Proof.Machine
end

section
/-! SUPPORT. Transfers of control: fetch lines that a core keeps, targets that can be fetched, and where the lanes stand
afterwards (R88, R93 to R97, R301, R405 to R408, R492). -/

namespace Sys2Proof.Machine

/-! ### Storage addresses of lines -/

theorem storageOf_lt (pa : Nat) : storageOf pa < 2 ^ 41 := by
  have hp : pa % 2 ^ 42 < 2 ^ 42 := Nat.mod_lt _ (by norm_num)
  simp only [storageOf]
  generalize pa % 2 ^ 42 = p at hp ⊢
  split
  · have hx : p / 128 % 32 ^^^ p / 128 / 2 ^ 8 % 32 < 2 ^ 5 := Nat.xor_lt_two_pow (Nat.mod_lt _ (by norm_num)) (Nat.mod_lt _ (by norm_num))
    omega
  · have hx : p / 128 % 2 ^ 31 % 4 ^^^ p / 128 % 2 ^ 31 / 2 ^ 8 % 4 < 2 ^ 2 :=
      Nat.xor_lt_two_pow (Nat.mod_lt _ (by norm_num)) (Nat.mod_lt _ (by norm_num))
    omega

theorem storageOf_mod_line (pa : Nat) : storageOf pa % 64 = pa % 64 := by
  simp only [storageOf]
  split <;> omega

/-- What an entry of a table gives the walk at a level, by the walk of the table that it may point to (R228, R229). -/
def walkEntry (va : Nat) (need : Perm) (level e : Nat) (below : Nat → Except XFault (Nat × Nat)) : Except XFault (Nat × Nat) :=
  let frame := bits e 12 30 * 4096
  if bits e 60 4 ≠ 0 ∨ bits e 42 13 ≠ 0 ∨ bits e 2 10 ≠ 0 then .error ⟨4, level⟩
  else
    match e % 4 with
    | 0 => .error ⟨0, level⟩
    | 1 => below frame
    | 2 =>
      if frame % 2 ^ pageBits level ≠ 0 then .error ⟨4, level⟩
      else match leafDenies e need with
        | some k => .error ⟨k, level⟩
        | none => .ok (frame + va % 2 ^ pageBits level, e)
    | _ => .error ⟨4, level⟩

/-! The two equations of walkTo are had from its recursor, with the entry that is read made a variable: Lean's own equation
lemmas for it evaluate that entry and do not come to an end. -/

theorem State.walkTo_zero (s : State) (va : Nat) (need : Perm) (table : Nat) : s.walkTo va need 0 table =
    if s.isPoisoned (storageOf (table + 8 * walkIndex va 0)) then .error ⟨5, 0⟩
    else walkEntry va need 0 (s.homeNat (storageOf (table + 8 * walkIndex va 0)) 8) fun _ => .error ⟨4, 0⟩ := by
  conv_lhs => delta State.walkTo
  rw [Nat.brecOn.eq]
  dsimp only [State.walkTo._f]
  generalize s.homeNat (storageOf (table + 8 * walkIndex va 0)) 8 = e
  rfl

theorem State.walkTo_succ (s : State) (va : Nat) (need : Perm) (level table : Nat) : s.walkTo va need (level + 1) table =
    if s.isPoisoned (storageOf (table + 8 * walkIndex va (level + 1))) then .error ⟨5, level + 1⟩
    else walkEntry va need (level + 1) (s.homeNat (storageOf (table + 8 * walkIndex va (level + 1))) 8) (s.walkTo va need level) := by
  delta State.walkTo
  dsimp only [Nat.brecOn, Nat.brecOn.go, State.walkTo._f]
  generalize s.homeNat (storageOf (table + 8 * walkIndex va (level + 1))) 8 = e
  rfl

/-- An entry of a table that gives an address points on, or maps the page. -/
theorem walkEntry_ok {va : Nat} {need : Perm} {level entry pa e : Nat} {below : Nat → Except XFault (Nat × Nat)}
    (h : walkEntry va need level entry below = .ok (pa, e)) :
    (∃ frame, below frame = .ok (pa, e)) ∨ ∃ frame, frame % 2 ^ pageBits level = 0 ∧ pa = frame + va % 2 ^ pageBits level := by
  unfold walkEntry at h
  dsimp only at h
  split at h
  · cases h
  split at h
  case h_2 => exact .inl ⟨_, h⟩
  case h_3 =>
    split at h
    · cases h
    · next hf =>
      split at h <;> cases h
      exact .inr ⟨_, not_not.mp hf, rfl⟩
  all_goals cases h

/-- A walk keeps the offset within a line. -/
theorem State.walkTo_mod_line {s : State} {va : Nat} {need : Perm} {level table pa e : Nat}
    (h : s.walkTo va need level table = .ok (pa, e)) : pa % 64 = va % 64 := by
  have hpage {level frame : Nat} (hf : frame % 2 ^ pageBits level = 0) : (frame + va % 2 ^ pageBits level) % 64 = va % 64 := by
    unfold pageBits at *
    split at hf <;> omega
  induction level generalizing table with
  | zero =>
    rw [State.walkTo_zero] at h
    split at h
    · cases h
    · obtain ⟨frame, hbelow⟩ | ⟨frame, hf, rfl⟩ := walkEntry_ok h
      · cases hbelow
      · exact hpage hf
  | succ level ih =>
    rw [State.walkTo_succ] at h
    split at h
    · cases h
    · obtain ⟨frame, hbelow⟩ | ⟨frame, hf, rfl⟩ := walkEntry_ok h
      · exact ih hbelow
      · exact hpage hf

/-- A line's storage address is aligned to lines and lies below the places of other packages' lines. -/
theorem State.translate_line {s : State} {ctx pc : Nat} {need : Perm} {leaf : Leaf}
    (h : s.translate ctx (lineAt pc) need = .ok leaf) : leaf.sa % 64 = 0 ∧ leaf.sa < 2 ^ 64 := by
  simp only [State.translate, State.walk] at h
  split_ifs at h
  split at h
  · cases h
  · next pa e hw =>
    cases h
    have hmod := State.walkTo_mod_line hw
    have hlt := storageOf_lt pa
    simp only [storageOf_mod_line, lineAt] at hmod ⊢
    omega

/-! ### Instruction caches -/

/-- Two states differ in nothing but the instruction caches of the cores. -/
def State.OnlyIcaches (s t : State) : Prop :=
  t = { s with cores := t.cores } ∧ ∀ n, t.core n = { s.core n with icache := (t.core n).icache }

theorem State.OnlyIcaches.refl (s : State) : s.OnlyIcaches s := ⟨rfl, fun _ => rfl⟩

theorem State.OnlyIcaches.trans {s t u : State} (h : s.OnlyIcaches t) (h' : t.OnlyIcaches u) : s.OnlyIcaches u := by
  obtain ⟨hst, hcore⟩ := h
  obtain ⟨htu, hcore'⟩ := h'
  refine ⟨?_, fun n => ?_⟩
  · rw [hst] at htu
    exact htu
  · have h1 := hcore' n
    rw [hcore n] at h1
    exact h1

theorem State.core_keepLine (s : State) (core sa : Nat) (l : FetchLine) (n : Nat) : (s.keepLine core sa l).core n =
    if n = core then { s.core n with icache := tput (s.core n).icache (sa / 64) l } else s.core n := by
  rw [State.keepLine, State.core_setCore]
  split
  · next h => rw [h]
  · rfl

theorem State.onlyIcaches_keepLine (s : State) (core sa : Nat) (l : FetchLine) : s.OnlyIcaches (s.keepLine core sa l) := by
  refine ⟨rfl, fun n => ?_⟩
  rw [State.core_keepLine]
  split <;> rfl

theorem State.icache_keepLine (s : State) (core sa : Nat) (l : FetchLine) (key : Nat) :
    tfind ((s.keepLine core sa l).core core).icache key = if key = sa / 64 then some l else tfind (s.core core).icache key := by
  rw [State.core_keepLine, if_pos rfl, tfind_tput]

theorem State.walkTo_keepLine (s : State) (core sa : Nat) (l : FetchLine) (va : Nat) (need : Perm) (level : Nat) :
    (s.keepLine core sa l).walkTo va need level = s.walkTo va need level := by
  induction level with
  | zero =>
    funext table
    rw [State.walkTo_zero, State.walkTo_zero]
    rfl
  | succ level ih =>
    funext table
    rw [State.walkTo_succ, State.walkTo_succ, ih]
    rfl

theorem State.translate_keepLine (s : State) (core sa : Nat) (l : FetchLine) (ctx va : Nat) (need : Perm) :
    (s.keepLine core sa l).translate ctx va need = s.translate ctx va need := by
  simp only [State.translate, State.walk, State.walkTo_keepLine]
  rfl

theorem State.viewBytes_keepLine (s : State) (core sa : Nat) (l : FetchLine) (n a z : Nat) :
    (s.keepLine core sa l).viewBytes n a z = s.viewBytes n a z := by
  have hfelt (n : Nat) : ((s.keepLine core sa l).core n).felted = (s.core n).felted := by rw [(s.onlyIcaches_keepLine core sa l).2 n]
  have hview : (s.keepLine core sa l).viewByte n = s.viewByte n :=
    funext (State.viewByte_congr (s := s) (t := s.keepLine core sa l) rfl rfl hfelt n)
  rw [State.viewBytes, State.viewBytes, hview]

/-! ### Lines that a core finds -/

/-- The line of this package that a core fetches at a storage address (R97); none where it would read poison. -/
def State.localLine (s : State) (core sa : Nat) : Option FetchLine :=
  match tfind (s.core core).icache (sa / 64) with
  | some l => some (if Config.newLine s.freeCtr (sa / 64) && !s.isPoisoned sa then lineOfBytes (s.viewBytes core sa 64) else l)
  | none => if s.isPoisoned sa then none else some (lineOfBytes (s.viewBytes core sa 64))

/-- A core finds a line in its own package, at the place that its address translates to, or in its copies of other packages'
lines. -/
theorem State.lookLine_eq_line {s : State} {core ctx pc sa : Nat} {l : FetchLine} : s.lookLine core ctx pc = .line sa l ↔
    (s.isLocal pc = true ∧ (∃ leaf, s.translate ctx (lineAt pc) .exec = .ok leaf ∧ leaf.sa = sa) ∧ s.localLine core sa = some l) ∨
    (s.isLocal pc = false ∧ peerFetchKey pc = sa ∧ tfind (s.core core).icache (sa / 64) = some l) := by
  unfold State.lookLine
  cases hl : s.isLocal pc
  case false =>
    simp only [Bool.false_eq_true, if_false, false_and, true_and, false_or]
    cases hf : tfind (s.core core).icache (peerFetchKey pc / 64) with
    | none => grind
    | some l' => grind
  case true =>
    cases ht : s.translate ctx (lineAt pc) .exec with
    | error x => simp
    | ok leaf =>
      simp only [if_true, true_and, Bool.true_eq_false, false_and, or_false, Except.ok.injEq, exists_eq_left', State.localLine]
      cases hf : tfind (s.core core).icache (leaf.sa / 64) with
      | none => grind
      | some l' => grind

/-- The place of a line that a core finds is aligned to lines, and tells whether the line is this package's. -/
theorem State.lookLine_place {s : State} {core ctx pc sa : Nat} {l : FetchLine} (h : s.lookLine core ctx pc = .line sa l) :
    sa % 64 = 0 ∧ (s.isLocal pc = true ↔ sa < 2 ^ 64) := by
  obtain ⟨hloc, ⟨leaf, ht, rfl⟩, -⟩ | ⟨hloc, rfl, -⟩ := State.lookLine_eq_line.mp h
  · obtain ⟨hmod, hlt⟩ := State.translate_line ht
    exact ⟨hmod, fun _ => hlt, fun _ => hloc⟩
  · refine ⟨by unfold peerFetchKey lineAt; omega, fun h => ?_, fun h => ?_⟩
    · rw [hloc] at h; cases h
    · unfold peerFetchKey at h; omega

theorem State.localLine_keepLine_ne (s : State) (core sa sa' : Nat) (l : FetchLine) (h : sa' / 64 ≠ sa / 64) :
    (s.keepLine core sa l).localLine core sa' = s.localLine core sa' := by
  simp only [State.localLine, State.icache_keepLine, if_neg h, State.viewBytes_keepLine]
  rfl

/-- A line that the core finds, kept as it is found, is found again. -/
theorem State.localLine_keepLine_same {s : State} {core sa : Nat} {l : FetchLine} (h : s.localLine core sa = some l) :
    (s.keepLine core sa l).localLine core sa = some l := by
  simp only [State.localLine, State.icache_keepLine, if_true, State.viewBytes_keepLine]
  show some (if Config.newLine s.freeCtr (sa / 64) && !s.isPoisoned sa then lineOfBytes (s.viewBytes core sa 64) else l) = some l
  split
  · next hnew =>
    have hsound : s.isPoisoned sa = false := by simpa using (Bool.and_eq_true_iff.mp hnew).2
    rw [State.localLine, hnew, hsound] at h
    cases hf : tfind (s.core core).icache (sa / 64) <;> simpa [hf] using h
  · rfl

/-- Keeping a line that the core finds changes no line that it finds. -/
theorem State.lookLine_keepLine {s : State} {core ctx pc pc' sa sa' : Nat} {l l' : FetchLine}
    (h : s.lookLine core ctx pc = .line sa l) (h' : s.lookLine core ctx pc' = .line sa' l') :
    (s.keepLine core sa l).lookLine core ctx pc' = .line sa' l' := by
  obtain ⟨hmod, hiff⟩ := State.lookLine_place h
  obtain ⟨hmod', hiff'⟩ := State.lookLine_place h'
  have hplace : sa' / 64 = sa / 64 → sa' = sa := by omega
  rw [State.lookLine_eq_line] at h h' ⊢
  obtain ⟨hloc', ⟨leaf, ht', hsa'⟩, hl'⟩ | ⟨hloc', hkey, hl'⟩ := h'
  · refine .inl ⟨hloc', ⟨leaf, by rw [State.translate_keepLine]; exact ht', hsa'⟩, ?_⟩
    by_cases hs : sa' / 64 = sa / 64
    · obtain rfl := hplace hs
      obtain ⟨-, -, hl⟩ | ⟨hloc, -, -⟩ := h
      · obtain rfl : l = l' := Option.some.inj (hl.symm.trans hl')
        exact State.localLine_keepLine_same hl
      · rw [hiff.mpr (hiff'.mp hloc')] at hloc; cases hloc
    · rw [State.localLine_keepLine_ne _ _ _ _ _ hs]; exact hl'
  · refine .inr ⟨hloc', hkey, ?_⟩
    rw [State.icache_keepLine]
    split
    · next hs =>
      obtain rfl := hplace hs
      obtain ⟨hloc, -, -⟩ | ⟨-, -, hl⟩ := h
      · rw [hiff'.mpr (hiff.mp hloc)] at hloc'; cases hloc'
      · exact hl.symm.trans hl'
    · exact hl'

/-! ### Targets that can be fetched -/

/-- What a target that can be fetched has passed (R88, R93, R94). -/
theorem State.transfer_eq_ok {s : State} {core ctx pc sa : Nat} {l : FetchLine} : s.transfer core ctx pc = .ok sa l ↔
    pcOk pc = true ∧ s.lookLine core ctx pc = .line sa l ∧ (s.core core).refetch.contains (sa / 64) = false ∧
    lineIllegal l = false ∧ parityBad l = none ∧ targetBit l (slotOfPc pc) = true := by
  unfold State.transfer State.fetch
  cases pcOk pc
  case false => simp
  case true =>
    cases s.lookLine core ctx pc
    case line sa' l' => grind
    all_goals simp

/-- Keeping the line of a target that can be fetched leaves every such target so. -/
theorem State.transfer_keepLine {s : State} {core ctx pc pc' sa sa' : Nat} {l l' : FetchLine}
    (h : s.transfer core ctx pc = .ok sa l) (h' : s.transfer core ctx pc' = .ok sa' l') :
    (s.keepLine core sa l).transfer core ctx pc' = .ok sa' l' := by
  rw [State.transfer_eq_ok] at h h' ⊢
  obtain ⟨-, hlook, -⟩ := h
  obtain ⟨hpc, hlook', hfresh, hline⟩ := h'
  refine ⟨hpc, State.lookLine_keepLine hlook hlook', ?_, hline⟩
  rw [(s.onlyIcaches_keepLine core sa l).2 core]
  exact hfresh

/-- A transfer whose targets can all be fetched goes on, in a state that keeps their lines. -/
theorem State.transferAll_ok {s : State} {c : Cur} {targets : List Nat} (go : State → State)
    (h : ∀ t ∈ targets, ∃ sa l, s.transfer c.core c.ctx t = .ok sa l) :
    ∃ t, s.OnlyIcaches t ∧ s.transferAll c targets go = go t := by
  induction targets generalizing s with
  | nil => exact ⟨s, .refl s, rfl⟩
  | cons x targets ih =>
    obtain ⟨sa, l, hx⟩ := h x (by simp)
    have hrest (y) (hy : y ∈ targets) : ∃ sa' l', (s.keepLine c.core sa l).transfer c.core c.ctx y = .ok sa' l' := by
      obtain ⟨sa', l', hy⟩ := h y (by simp [hy])
      exact ⟨sa', l', State.transfer_keepLine hx hy⟩
    obtain ⟨t, hst, ht⟩ := ih hrest
    refine ⟨t, (s.onlyIcaches_keepLine c.core sa l).trans hst, ?_⟩
    rw [State.transferAll, hx]
    exact ht

theorem mem_distinct (l : List Nat) (x : Nat) : x ∈ distinct l ↔ x ∈ l := by
  induction l with
  | nil => rfl
  | cons y l ih =>
    rw [distinct]
    split
    · next h =>
      have hy : y ∈ l := by simpa using h
      rw [ih, List.mem_cons]
      exact ⟨.inr, fun hx => hx.elim (fun e => e ▸ hy) id⟩
    · rw [List.mem_cons, List.mem_cons, ih]

/-! ### The wave after a transfer -/

/-- A result that lands at once stands in its destination, and the lanes keep their other parts. -/
theorem Wave.wrote_deliver (w : Wave) {k : Ctl} (hk : k.la = 0) (active : LaneSet) {r : Result} {a : Opnd} {n : Nat} {p : LaneSet}
    {f : Nat → Quad} {tag : Nat → Bool} (hr : r.Gives a n p f tag) :
    Wrote w (w.deliver k active r) a n p f tag ∧ ∀ i < 32, ((w.deliver k active r).lane i).rest = (w.lane i).rest := by
  simp only [Wave.deliver, hk, if_true]
  exact ⟨wrote_congr (hr _) (fun _ _ => ⟨rfl, rfl⟩) rfl, fun i hi => (Wave.rest_putTags _ _ i).trans (Wave.rest_putAll _ _ i hi)⟩

/-- The participating lanes of a transfer stand at their targets, the other active ones at the next slot (R37). -/
def Wave.goTo (w : Wave) (c : Cur) (k : Ctl) (b c' d : Opnd) (p : LaneSet) (dest : Nat → Pc) : Wave :=
  ((w.issued c k b c' d).advance c.active).mapLanes fun i l => if p.getLsbD i then { l with pc := dest i } else l

theorem Wave.lane_goTo (w : Wave) (c : Cur) (k : Ctl) (b c' d : Opnd) (p : LaneSet) (dest : Nat → Pc) {i : Nat} (hi : i < 32) :
    let l := (w.goTo c k b c' d p dest).lane i
    l.v = (w.lane i).v ∧ l.tags = (w.lane i).tags ∧ l.st = (w.lane i).st ∧
      l.pc = if p.getLsbD i = true then dest i else if c.active.getLsbD i = true then succPc (w.lane i).pc else (w.lane i).pc := by
  have hissued : (w.issued c k b c' d).lane i = w.lane i := by rw [Wave.issued_eq]; rfl
  rw [Wave.goTo, Wave.lane_mapLanes _ _ i hi, Wave.advance_lane _ _ _ hi, hissued]
  cases p.getLsbD i <;> cases c.active.getLsbD i <;> exact ⟨rfl, rfl, rfl, rfl⟩

/-- What a transfer leaves of its wave: a destination is written in the participating lanes, which stand at their targets, and
the other active lanes stand at the next slot. -/
structure Wave.Jumped (w u : Wave) (active p : LaneSet) (dest : Nat → Pc) (a : Opnd) (n : Nat) (f : Nat → Quad) : Prop where
  wrote : Wrote w u a n p f noTag
  lane : ∀ i < 32, (u.lane i).st = (w.lane i).st ∧
    (u.lane i).pc = if p.getLsbD i = true then dest i
      else if active.getLsbD i = true then succPc (w.lane i).pc else (w.lane i).pc

theorem Wave.jumped_goTo_deliver (w : Wave) (c : Cur) {k : Ctl} (hk : k.la = 0) (b c' d : Opnd) (p : LaneSet) (dest : Nat → Pc)
    {r : Result} {a : Opnd} {n : Nat} {f : Nat → Quad} (hr : r.Gives a n p f noTag) :
    w.Jumped ((w.goTo c k b c' d p dest).deliver k c.active r) c.active p dest a n f := by
  obtain ⟨hwrote, hrest⟩ := (w.goTo c k b c' d p dest).wrote_deliver hk c.active hr
  refine ⟨wrote_congr hwrote (fun i hi => ?_) (by rw [Wave.goTo, Wave.issued_eq]; rfl), fun i hi => ?_⟩
  · obtain ⟨hv, htags, -⟩ := w.lane_goTo c k b c' d p dest hi
    exact ⟨hv, htags⟩
  · obtain ⟨-, -, hst, hpc⟩ := w.lane_goTo c k b c' d p dest hi
    have h := hrest i hi
    simp only [Lane.rest, Prod.mk.injEq] at h
    obtain ⟨hpc', hst', -⟩ := h
    exact ⟨hst'.trans hst, hpc'.trans hpc⟩

/-- A transfer of a wave whose targets can all be fetched. -/
theorem State.jump_ok {s : State} {c : Cur} {k : Ctl} (hagent : c.agent = .wave c.bid c.wid) (hk : k.la = 0) (b c' d : Opnd)
    {p : LaneSet} {dest : Nat → Pc} {r : Result} {a : Opnd} {n : Nat} {f : Nat → Quad} (hr : r.Gives a n p f noTag)
    (h : ∀ i < 32, p.getLsbD i = true → ∃ sa l, s.transfer c.core c.ctx (dest i).toNat = .ok sa l) :
    ∃ t u, s.jump c k b c' d p dest r = t.setWave c.bid c.wid u ∧ s.OnlyIcaches t ∧ c.wave.Jumped u c.active p dest a n f := by
  have htargets : ∀ x ∈ distinct ((lanesOf p).map fun i => (dest i).toNat), ∃ sa l, s.transfer c.core c.ctx x = .ok sa l := by
    intro x hx
    obtain ⟨i, hi, rfl⟩ := List.mem_map.mp ((mem_distinct _ x).mp hx)
    obtain ⟨hi, hp⟩ := (mem_lanesOf p i).mp hi
    exact h i hi hp
  let u := (c.wave.goTo c k b c' d p dest).deliver k c.active r
  obtain ⟨t, hst, ht⟩ := State.transferAll_ok (fun s => s.putCur c u) htargets
  refine ⟨t, u, ht.trans ?_, hst, c.wave.jumped_goTo_deliver c hk b c' d p dest hr⟩
  simp only [State.putCur, hagent]

/-! ### Targets of slot offsets -/

/-- The target of a slot offset, in whole numbers: none outside the address space (R301, R405). -/
theorem branchTarget_eq (pc : Pc) (off : BitVec 18) :
    let slot := slotNumber pc.toNat + off.toInt
    let goal := 64 * (slot / 5) + 12 * (slot % 5)
    branchTarget pc off = if slot < 0 ∨ 2 ^ 57 ≤ goal then none else some (BitVec.ofInt 57 goal) := by
  intro slot goal
  unfold branchTarget
  show (if slot < 0 then none else _) = _
  by_cases hneg : slot < 0
  · rw [if_pos hneg, if_pos (.inl hneg)]
  · have hgoal : goal = ((64 * (slot.toNat / 5) + 12 * (slot.toNat % 5) : Nat) : Int) := by omega
    rw [if_neg hneg, hgoal, BitVec.ofInt_natCast]
    dsimp only
    split
    · rw [if_neg (by omega)]
    · rw [if_pos (by omega)]

/-- A written destination is the link of CALL and CALLX, or none. -/
theorem gives_link (a : Opnd) (p : LaneSet) (c : Cur) (link : Bool) :
    Result.Gives (if link then { writes := writesOf a 2 p (linkOf c) } else {}) (if link then a else .zero) 2 p (linkOf c) noTag := by
  cases link
  · exact Result.gives_plain .zero 2 p (linkOf c) 0
  · exact Result.gives_plain a 2 p (linkOf c) 0

/-! ### The five instructions -/

section Exec

variable {s : State} {c : Cur} (hc : s.cur? = some c) (k : Ctl) (a b : Opnd) {off : BitVec 18}
include hc

theorem exec_bra_of_target {t : Pc} (h : branchTarget c.pc off = some t) :
    exec (.bra k off) s = .next (s.jump c k .zero .zero .zero (s.parts c k) (fun _ => t) {}) := by
  refine (onCur_eq hc _).trans ?_
  simp only [h]

theorem exec_call_of_target {t : Pc} (h : branchTarget c.pc off = some t) : exec (.call k a off) s =
    .next (s.jump c k .zero .zero .zero (s.parts c k) (fun _ => t) { writes := writesOf a 2 (s.parts c k) (linkOf c) }) := by
  refine (onCur_eq hc _).trans ?_
  simp only [h]

theorem exec_bra_out_of_space (h : branchTarget c.pc off = none) (hp : s.parts c k ≠ 0) :
    exec (.bra k off) s = .next (s.raise c 0x05 0xFF) := by
  refine (onCur_eq hc _).trans ?_
  simp only [h, if_neg hp]

theorem exec_call_out_of_space (h : branchTarget c.pc off = none) (hp : s.parts c k ≠ 0) :
    exec (.call k a off) s = .next (s.raise c 0x05 0xFF) := by
  refine (onCur_eq hc _).trans ?_
  simp only [h, if_neg hp]

theorem exec_brx : exec (.brx k b) s =
    .next (s.jump c k b .zero .zero (s.parts c k) (fun i => (s.rd64 c b i).setWidth 57) {}) := onCur_eq hc _

theorem exec_ret : exec (.ret k b) s =
    .next (s.jump c k b .zero .zero (s.parts c k) (fun i => (s.rd64 c b i).setWidth 57) {}) := onCur_eq hc _

theorem exec_callx : exec (.callx k a b) s =
    .next (s.jump c k b .zero .zero (s.parts c k) (fun i => (s.rd64 c b i).setWidth 57)
      { writes := writesOf a 2 (s.parts c k) (linkOf c) }) := onCur_eq hc _

end Exec

/-- Settles O21: every form is a jump, whose targets transferAll_ok fetches, or traps for a slot that branchTarget refuses. -/
theorem transfers : Obligations.Transfers := by
  unfold Obligations.Transfers
  intro s c k a b off ⟨hc, hagent, hk⟩ p slot goal held goes reg
  have hgoes {i : Instr} {src : Opnd} {dest : Nat → Pc} (link : Bool) (hheld : held dest)
      (hi : exec i s = .next (s.jump c k src .zero .zero p dest
        (if link then { writes := writesOf a 2 p (linkOf c) } else {}))) : goes i dest link := by
    obtain ⟨t, u, hjump, ⟨ht, hcores⟩, hwrote, hlane⟩ :=
      State.jump_ok hagent hk src .zero .zero (gives_link a p c link) hheld
    exact ⟨t, u, hi.trans (congrArg _ hjump), ht, hcores, hwrote, hlane⟩
  have htarget : branchTarget c.pc off = if slot < 0 ∨ 2 ^ 57 ≤ goal then none else some (BitVec.ofInt 57 goal) :=
    branchTarget_eq c.pc off
  refine ⟨fun hslot hgoal hheld => ?_, fun hp hout => ?_, fun hheld => ?_⟩
  · rw [if_neg (by omega)] at htarget
    exact ⟨hgoes false hheld (exec_bra_of_target hc k htarget), hgoes true hheld (exec_call_of_target hc k a htarget)⟩
  · rw [if_pos hout] at htarget
    exact ⟨exec_bra_out_of_space hc k htarget hp, exec_call_out_of_space hc k a htarget hp⟩
  · exact ⟨hgoes false hheld (exec_brx hc k b), hgoes false hheld (exec_ret hc k b), hgoes true hheld (exec_callx hc k a b)⟩

end Sys2Proof.Machine
end

section
/-! SUPPORT. Replacing waves of blocks, and what a wave's lanes hold once an instruction has issued and its lanes have moved
on (R35, R88). -/

namespace Sys2Proof.Machine

/-! ### Tables and lists written twice -/

theorem tput_tput {α : Type} (t : Tbl α) (n : Nat) (x y : α) : tput (tput t n x) n y = tput t n y := by
  induction t with
  | nil => simp [tput]
  | cons p t ih =>
    obtain ⟨k, v⟩ := p
    simp only [tput]
    split_ifs <;> simp_all [tput]

theorem lset_lset {α : Type} (l : List α) (n : Nat) (x y : α) : lset (lset l n x) n y = lset l n y := by
  induction l generalizing n with
  | nil => rfl
  | cons z t ih => cases n <;> simp [lset, ih]

theorem mem_tput {α : Type} {t : Tbl α} {n : Nat} {x : α} {p : Nat × α} (h : p ∈ tput t n x) : p = (n, x) ∨ p ∈ t := by
  induction t with
  | nil => exact .inl (by simpa [tput] using h)
  | cons q t ih =>
    obtain ⟨k, v⟩ := q
    simp only [tput] at h
    split_ifs at h <;> simp only [List.mem_cons] at h ⊢ <;> tauto

theorem mem_of_tfind {α : Type} {t : Tbl α} {n : Nat} {x : α} (h : tfind t n = some x) : (n, x) ∈ t := by
  induction t with
  | nil => cases h
  | cons q t ih =>
    obtain ⟨k, v⟩ := q
    simp only [tfind] at h
    split_ifs at h with hk
    · obtain rfl := Option.some.inj h
      exact hk ▸ List.mem_cons_self
    · exact List.mem_cons_of_mem _ (ih h)

/-! ### Waves replaced -/

theorem State.setBlock_setBlock (s : State) (b : Nat) (x y : Block) : (s.setBlock b x).setBlock b y = s.setBlock b y :=
  congrArg (fun l => ({ s with blocks := l } : State)) (tput_tput s.blocks b x y)

theorem State.onBlock_eq {s : State} {b : Nat} {blk : Block} (hb : s.block? b = some blk) (f : Block → Block) :
    s.onBlock b f = s.setBlock b (f blk) := by
  simp only [State.onBlock, hb]

theorem State.onWave_eq {s : State} {b i : Nat} {w : Wave} (h : s.wave? b i = some w) (f : Wave → Wave) :
    s.onWave b i f = s.setWave b i (f w) := by
  simp only [State.onWave, h]

theorem State.wave_eq {s : State} {b i : Nat} {blk : Block} {w : Wave} (hb : s.block? b = some blk)
    (hw : blk.wave? i = some w) : s.wave? b i = some w := by
  rw [State.wave?, hb, Option.bind_some, hw]

theorem State.setWave_setWave (s : State) (b i : Nat) (x y : Wave) : (s.setWave b i x).setWave b i y = s.setWave b i y := by
  cases hb : s.block? b with
  | none => simp only [State.setWave, State.onBlock, hb]
  | some blk =>
    rw [State.setWave_eq_setBlock (State.block_setWave hb i x), State.setWave_eq_setBlock hb, State.setWave_eq_setBlock hb,
      State.setBlock_setBlock]
    simp only [Block.setWave, lset_lset]

/-- A change to a block, or to a wave, changes the blocks alone. -/
theorem State.onBlock_frame (s : State) (b : Nat) (f : Block → Block) :
    s.onBlock b f = { s with blocks := (s.onBlock b f).blocks } := by
  unfold State.onBlock
  split <;> rfl

theorem State.onWave_frame (s : State) (b i : Nat) (f : Wave → Wave) :
    s.onWave b i f = { s with blocks := (s.onWave b i f).blocks } := by
  unfold State.onWave State.setWave
  split
  · rfl
  · exact s.onBlock_frame b _

/-- A change to a wave that has just been replaced. -/
theorem State.onWave_setWave {s : State} {b i : Nat} {blk : Block} {w : Wave} (hb : s.block? b = some blk)
    (hw : blk.wave? i = some w) (x : Wave) (f : Wave → Wave) : (s.setWave b i x).onWave b i f = s.setWave b i (f x) := by
  rw [State.onWave_eq (State.wave_setWave hb hw x), State.setWave_setWave]

/-- The block and the wave of an instruction in hand of a wave. -/
theorem State.cur_wave {s : State} {c : Cur} (hc : s.cur? = some c) (hagent : c.agent = .wave c.bid c.wid) :
    ∃ blk, s.block? c.bid = some blk ∧ blk.wave? c.wid = some c.wave := by
  obtain ⟨b, i, blk, -, rfl, rfl, hb, hw⟩ | ⟨q, hq, -⟩ := State.cur_agent hc
  · exact ⟨blk, hb, hw⟩
  · rw [hq] at hagent; cases hagent

theorem State.putCur_wave {c : Cur} (hagent : c.agent = .wave c.bid c.wid) (s : State) (w : Wave) :
    s.putCur c w = s.setWave c.bid c.wid w := by
  simp only [State.putCur, hagent]

/-! ### Registers that stay -/

theorem keepsRegs_of_lanes {w u : Wave} (h : ∀ i < 32, (u.lane i).v = (w.lane i).v ∧ (u.lane i).tags = (w.lane i).tags)
    (hw : u.w = w.w) : KeepsRegs w u := by
  refine ⟨fun i hi => ?_, fun r => by rw [Wave.ureg, hw]; rfl⟩
  obtain ⟨hv, htags⟩ := h i hi
  exact ⟨fun r => by rw [Lane.reg, hv]; rfl, htags⟩

/-- A destination of no register leaves every register as it was. -/
theorem keepsRegs_of_wrote_nothing {w u : Wave} {p : LaneSet} {f : Nat → Quad} {tag : Nat → Bool} (h : Wrote w u .zero 0 p f tag) :
    KeepsRegs w u := by
  refine ⟨fun i hi => ⟨h.lane i hi, ?_⟩, h.uni⟩
  ext q hq
  rw [← BitVec.getLsbD_eq_getElem hq, ← BitVec.getLsbD_eq_getElem hq]
  exact h.tags i hi q hq

theorem keepsRegs_trans {w u v : Wave} (h : KeepsRegs w u) (h' : KeepsRegs u v) : KeepsRegs w v :=
  ⟨fun i hi => ⟨fun r => ((h'.1 i hi).1 r).trans ((h.1 i hi).1 r), (h'.1 i hi).2.trans (h.1 i hi).2⟩,
    fun r => (h'.2 r).trans (h.2 r)⟩

/-! ### The wave of an instruction that has issued -/

/-- The wave with the instruction in hand issued, and the lanes of a set at the next slot (R35, R88). -/
def Cur.onward (c : Cur) (k : Ctl) (b c' d : Opnd) (m : LaneSet) : Wave := (c.wave.issued c k b c' d).advance m

theorem Cur.lane_onward (c : Cur) (k : Ctl) (b c' d : Opnd) (m : LaneSet) {i : Nat} (hi : i < 32) :
    (c.onward k b c' d m).lane i =
      if m.getLsbD i then { c.wave.lane i with pc := succPc (c.wave.lane i).pc, paid := false, waitsTo := none }
      else c.wave.lane i := by
  rw [Cur.onward, Wave.advance_lane _ _ _ hi, Wave.issued_eq]
  rfl

/-- The parts of a lane that stay or move as an instruction issues. -/
theorem Cur.onward_lane (c : Cur) (k : Ctl) (b c' d : Opnd) (m : LaneSet) {i : Nat} (hi : i < 32) :
    let l := (c.onward k b c' d m).lane i
    l.v = (c.wave.lane i).v ∧ l.tags = (c.wave.lane i).tags ∧ l.st = (c.wave.lane i).st ∧
      l.pc = if m.getLsbD i = true then succPc (c.wave.lane i).pc else (c.wave.lane i).pc := by
  rw [Cur.lane_onward _ _ _ _ _ _ hi]
  cases m.getLsbD i <;> exact ⟨rfl, rfl, rfl, rfl⟩

theorem Cur.onward_w (c : Cur) (k : Ctl) (b c' d : Opnd) (m : LaneSet) : (c.onward k b c' d m).w = c.wave.w := by
  rw [Cur.onward, Wave.issued_eq]; rfl

theorem Cur.moved_onward (c : Cur) (k : Ctl) (b c' d : Opnd) (m : LaneSet) : Moved c.wave (c.onward k b c' d m) m := by
  refine ⟨fun i hi => (c.onward_lane k b c' d m hi).2.2.2, fun i hi => ?_⟩
  rw [Cur.lane_onward _ _ _ _ _ _ hi]
  cases m.getLsbD i <;> exact ⟨rfl, rfl, rfl, rfl⟩

/-- A change of the lanes of a wave that has issued keeps the registers where it keeps each lane's. -/
theorem Cur.keepsRegs_mapLanes_onward (c : Cur) (k : Ctl) (b c' d : Opnd) (m : LaneSet) (f : Nat → Lane → Lane)
    (hf : ∀ i l, (f i l).v = l.v ∧ (f i l).tags = l.tags) : KeepsRegs c.wave ((c.onward k b c' d m).mapLanes f) := by
  refine keepsRegs_of_lanes (fun i hi => ?_) (c.onward_w k b c' d m)
  obtain ⟨hv, htags, -⟩ := c.onward_lane k b c' d m hi
  rw [Wave.lane_mapLanes _ _ _ hi]
  exact ⟨(hf i _).1.trans hv, (hf i _).2.trans htags⟩

theorem Cur.keepsRegs_onward (c : Cur) (k : Ctl) (b c' d : Opnd) (m : LaneSet) : KeepsRegs c.wave (c.onward k b c' d m) := by
  refine keepsRegs_of_lanes (fun i hi => ?_) (c.onward_w k b c' d m)
  obtain ⟨hv, htags, -⟩ := c.onward_lane k b c' d m hi
  exact ⟨hv, htags⟩

/-- An instruction of a wave that leaves no result moves its active lanes on. -/
theorem State.complete_empty {s : State} {c : Cur} {k : Ctl} (hagent : c.agent = .wave c.bid c.wid) (hk : k.la = 0)
    (b c' d : Opnd) (fl : Flags) :
    s.complete c k b c' d { flags := fl } = s.setWave c.bid c.wid
      { c.onward k b c' d c.active with fpstat := (c.onward k b c' d c.active).fpstat ||| fl } := by
  simp only [State.complete, State.putCur, State.cpAdvance, hagent, Wave.deliver, hk, if_true]
  rfl

end Sys2Proof.Machine
end

section
/-! SUPPORT. Tiles of lanes, and PART, SHFL, VOTE and MATCH within them (R41 to R43, R458, R478, R502, R510). -/

namespace Sys2Proof.Machine

/-! ### Sets of lanes -/

theorem laneSet_ext {m m' : LaneSet} (h : ∀ j < 32, m.getLsbD j = m'.getLsbD j) : m = m' :=
  BitVec.eq_of_getLsbD_eq h

/-- The lanes of a set of which something holds. -/
theorem getLsbD_lanesWhere_and (t : LaneSet) (q : Nat → Bool) (j : Nat) :
    (lanesWhere fun j => t.getLsbD j && q j).getLsbD j = true ↔ t.getLsbD j = true ∧ q j = true := by
  rw [getLsbD_lanesWhere, Bool.and_eq_true, decide_eq_true_eq, Bool.and_eq_true]
  exact ⟨fun h => h.2, fun h => ⟨BitVec.lt_of_getLsbD h.1, h⟩⟩

theorem lanesWhere_and_eq_self (t : LaneSet) (q : Nat → Bool) :
    (lanesWhere fun j => t.getLsbD j && q j) = t ↔ ∀ j, t.getLsbD j = true → q j = true := by
  constructor
  · intro h j hj
    rw [← h, getLsbD_lanesWhere_and] at hj
    exact hj.2
  · intro h
    refine laneSet_ext fun j _ => Bool.eq_iff_iff.mpr ?_
    rw [getLsbD_lanesWhere_and]
    exact ⟨fun hj => hj.1, fun hj => ⟨hj, h j hj⟩⟩

theorem lanesWhere_and_eq_zero (t : LaneSet) (q : Nat → Bool) :
    (lanesWhere fun j => t.getLsbD j && q j) = 0 ↔ ∀ j, t.getLsbD j = true → q j = false := by
  rw [laneSet_eq_zero]
  constructor
  · intro h j hj
    have hq := h j (BitVec.lt_of_getLsbD hj)
    rw [← Bool.not_eq_true, getLsbD_lanesWhere_and, not_and] at hq
    exact Bool.not_eq_true _ ▸ hq hj
  · intro h j _
    rw [← Bool.not_eq_true, getLsbD_lanesWhere_and]
    rintro ⟨hj, hq⟩
    rw [h j hj] at hq
    cases hq

/-- The participating lanes of a lane's tile (R41, R43). -/
theorem getLsbD_tileOf (n : Nat) (p : LaneSet) (i j : Nat) :
    (tileOf n p i).getLsbD j = true ↔ j < 32 ∧ p.getLsbD j = true ∧ j / n = i / n := by
  rw [tileOf, getLsbD_lanesWhere, Bool.and_eq_true, decide_eq_true_eq, Bool.and_eq_true, beq_iff_eq]

/-! ### Results in the low registers -/

theorem low32_q32 (x : Word) : low32 (q32 x) = x := by
  simp [low32, q32]

theorem low64_q64 (x : Dword) : low64 (q64 x) = x := by
  simp [low64, q64]

theorem maskOf_true : maskOf true = 0xFFFFFFFF#32 := by decide

theorem maskOf_cases (b : Bool) : maskOf b = 0xFFFFFFFF#32 ∧ b = true ∨ maskOf b = 0#32 ∧ b = false := by
  cases b
  · exact .inr ⟨rfl, rfl⟩
  · exact .inl ⟨maskOf_true, rfl⟩

/-! ### VOTE -/

/-- What VOTE gives a tile t whose lanes vote by q (R510). -/
theorem voteOf_spec (fn : VoteFn) (t : LaneSet) (q : Nat → Bool) :
    let v := voteOf fn t (lanesWhere fun j => t.getLsbD j && q j)
    match fn with
    | .any => v = 0xFFFFFFFF#32 ∧ (∃ j, t.getLsbD j = true ∧ q j = true) ∨ v = 0#32 ∧ ∀ j, t.getLsbD j = true → q j = false
    | .all => v = 0xFFFFFFFF#32 ∧ (∀ j, t.getLsbD j = true → q j = true) ∨ v = 0#32 ∧ ∃ j, t.getLsbD j = true ∧ q j = false
    | .eq => v = 0xFFFFFFFF#32 ∧ ((∀ j, t.getLsbD j = true → q j = true) ∨ ∀ j, t.getLsbD j = true → q j = false) ∨
        v = 0#32 ∧ (∃ j, t.getLsbD j = true ∧ q j = false) ∧ ∃ j, t.getLsbD j = true ∧ q j = true
    | .ballot => ∀ j, v.getLsbD j = true ↔ t.getLsbD j = true ∧ q j = true := by
  have hself := lanesWhere_and_eq_self t q
  have hzero := lanesWhere_and_eq_zero t q
  have hnself : ¬ (∀ j, t.getLsbD j = true → q j = true) → ∃ j, t.getLsbD j = true ∧ q j = false := by
    intro h; push Not at h; simpa using h
  have hnzero : ¬ (∀ j, t.getLsbD j = true → q j = false) → ∃ j, t.getLsbD j = true ∧ q j = true := by
    intro h; push Not at h; simpa using h
  cases fn
  case ballot => exact getLsbD_lanesWhere_and t q
  case any =>
    obtain ⟨hv, hb⟩ | ⟨hv, hb⟩ := maskOf_cases ((lanesWhere fun j => t.getLsbD j && q j) != 0)
    · exact .inl ⟨hv, hnzero fun h => by simp [hzero.mpr h] at hb⟩
    · exact .inr ⟨hv, hzero.mp (by simpa using hb)⟩
  case all =>
    obtain ⟨hv, hb⟩ | ⟨hv, hb⟩ := maskOf_cases ((lanesWhere fun j => t.getLsbD j && q j) == t)
    · exact .inl ⟨hv, hself.mp (by simpa using hb)⟩
    · exact .inr ⟨hv, hnself fun h => by simp [hself.mpr h] at hb⟩
  case eq =>
    obtain ⟨hv, hb⟩ | ⟨hv, hb⟩ :=
      maskOf_cases ((lanesWhere fun j => t.getLsbD j && q j) == t || (lanesWhere fun j => t.getLsbD j && q j) == 0)
    · refine .inl ⟨hv, ?_⟩
      rw [Bool.or_eq_true, beq_iff_eq, beq_iff_eq, hself, hzero] at hb
      exact hb
    · rw [Bool.or_eq_false_iff, beq_eq_false_iff_ne, beq_eq_false_iff_ne, Ne, Ne, hself, hzero] at hb
      exact .inr ⟨hv, hnself hb.1, hnzero hb.2⟩

/-! ### MATCH -/

/-- What MATCH gives a tile t in the lane i whose value the others are compared with (R458). -/
def matchOf (all : Bool) (t : LaneSet) (v : Nat → Dword) (i : Nat) : LaneSet :=
  let e := lanesWhere fun j => t.getLsbD j && v j == v i
  if all then (if e = t then t else 0) else e

theorem exec_matchT (k : Ctl) (all w64 : Bool) (a b : Opnd) (s : State) : exec (.matchT k all w64 a b) s =
    regOp k a 1 (regs64 w64) b .zero .zero s fun c i =>
      (q32 (matchOf all (tileOf c.wave.s (s.parts c k) i) (s.rd c .int (regs64 w64) b) i), 0) := rfl

theorem matchOf_spec (t : LaneSet) (v : Nat → Dword) (i : Nat) :
    (∀ j, (matchOf false t v i).getLsbD j = true ↔ t.getLsbD j = true ∧ v j = v i) ∧
    ((∀ j, t.getLsbD j = true → v j = v i) → matchOf true t v i = t) ∧
    ((∃ j, t.getLsbD j = true ∧ v j ≠ v i) → matchOf true t v i = 0) := by
  have hself := lanesWhere_and_eq_self t fun j => v j == v i
  simp only [beq_iff_eq] at hself
  refine ⟨fun j => ?_, fun h => if_pos (hself.mpr h), fun ⟨j, hj, hne⟩ => if_neg fun h => hne (hself.mp h j hj)⟩
  exact (getLsbD_lanesWhere_and t _ j).trans (by rw [beq_iff_eq])

/-! ### PART -/

section Part

variable {s : State} {c : Cur} {k : Ctl} {b : Opnd} (hc : s.cur? = some c) (hagent : c.agent = .wave c.bid c.wid) (hk : k.la = 0)
include hc

/-- PART whose participating lanes agree on a size sets it for the wave (R478). -/
theorem exec_part_of_agree {v : Nat} (h : ∀ i < 32, (s.parts c k).getLsbD i = true → (s.rd32 c b i).toNat = v)
    (hv : v = 2 ∨ v = 4 ∨ v = 8 ∨ v = 16 ∨ v = 32) :
    exec (.part k b) s = .next (if s.parts c k = 0 then s.complete c k b .zero .zero {}
      else (s.complete c k b .zero .zero {}).onWave c.bid c.wid fun w => { w with s := v }) := by
  refine (onCur_eq hc _).trans (congrArg _ ?_)
  cases hl : lowLane (s.parts c k) with
  | none => simp only [hl, if_pos ((lowLane_eq_none _).mp hl)]
  | some i =>
    have hne : s.parts c k ≠ 0 := fun h0 => by rw [(lowLane_eq_none _).mpr h0] at hl; cases hl
    have hi : (s.rd32 c b i).toNat = v := h i (lowLane_mem hl).1 (lowLane_mem hl).2
    have hagree : ((lanesOf (s.parts c k)).all fun j =>
        (s.rd32 c b j).toNat == v && [2, 4, 8, 16, 32].contains (s.rd32 c b j).toNat) = true := by
      rw [List.all_eq_true]
      intro j hj
      obtain ⟨hj, hp⟩ := (mem_lanesOf _ j).mp hj
      rw [h j hj hp, beq_self_eq_true, Bool.true_and]
      simpa using hv
    simp only [hl, hi, hagree, if_true, if_neg hne]

/-- PART with lanes that disagree, or that name no size, traps (R478). -/
theorem exec_part_of_bad
    (h : (∃ i j, i < 32 ∧ (s.parts c k).getLsbD i = true ∧ j < 32 ∧ (s.parts c k).getLsbD j = true ∧ s.rd32 c b i ≠ s.rd32 c b j) ∨
      ∃ i < 32, (s.parts c k).getLsbD i = true ∧ s.rd32 c b i ∉ [2#32, 4#32, 8#32, 16#32, 32#32]) :
    exec (.part k b) s = .next (s.raise c 0x02 1) := by
  refine (onCur_eq hc _).trans (congrArg _ ?_)
  cases hl : lowLane (s.parts c k) with
  | none =>
    rw [(lowLane_eq_none _).mp hl] at h
    simp at h
  | some i =>
    have hagree : ((lanesOf (s.parts c k)).all fun j =>
        (s.rd32 c b j).toNat == (s.rd32 c b i).toNat && [2, 4, 8, 16, 32].contains (s.rd32 c b j).toNat) = false := by
      rw [← Bool.not_eq_true, List.all_eq_true]
      intro hall
      have hlane (j : Nat) (hj : j < 32) (hp : (s.parts c k).getLsbD j = true) :
          s.rd32 c b j = s.rd32 c b i ∧ (s.rd32 c b j).toNat ∈ [2, 4, 8, 16, 32] := by
        have hj := hall j ((mem_lanesOf _ j).mpr ⟨hj, hp⟩)
        rw [Bool.and_eq_true, beq_iff_eq, List.contains_iff_mem] at hj
        exact ⟨BitVec.eq_of_toNat_eq hj.1, hj.2⟩
      obtain ⟨j, j', hj, hp, hj', hp', hne⟩ | ⟨j, hj, hp, hne⟩ := h
      · exact hne ((hlane j hj hp).1.trans (hlane j' hj' hp').1.symm)
      · have hmem := (hlane j hj hp).2
        simp only [List.mem_cons, List.not_mem_nil, or_false] at hmem hne
        have heq (n : Nat) (hn : (s.rd32 c b j).toNat = n) : s.rd32 c b j = BitVec.ofNat 32 n := by rw [← hn, BitVec.ofNat_toNat]; simp
        rcases hmem with hn | hn | hn | hn | hn <;> have := heq _ hn <;> tauto
    simp only [hl, hagree, Bool.false_eq_true, if_false]

include hagent hk in
/-- What PART leaves of its wave. -/
theorem State.part_next (b : Opnd) (v : Nat) (p : LaneSet) :
    ∃ u, (if p = 0 then s.complete c k b .zero .zero {}
        else (s.complete c k b .zero .zero {}).onWave c.bid c.wid fun w => { w with s := v }) = s.setWave c.bid c.wid u ∧
      Moved c.wave u c.active ∧ KeepsRegs c.wave u ∧ u.s = if p = 0 then c.wave.s else v := by
  obtain ⟨blk, hb, hw⟩ := State.cur_wave hc hagent
  have hs : (c.onward k b .zero .zero c.active).s = c.wave.s := by rw [Cur.onward, Wave.issued_eq]; rfl
  have hmoved := c.moved_onward k b .zero .zero c.active
  have hregs := c.keepsRegs_onward k b .zero .zero c.active
  rw [State.complete_empty hagent hk b .zero .zero 0]
  by_cases hp : p = 0
  · rw [if_pos hp, if_pos hp]
    exact ⟨_, rfl, ⟨hmoved.pc, hmoved.kept⟩, hregs, hs⟩
  · rw [if_neg hp, if_neg hp, State.onWave_setWave hb hw]
    exact ⟨_, rfl, ⟨hmoved.pc, hmoved.kept⟩, hregs, rfl⟩

end Part

/-- Settles O18: SHFL reads the lane that shuffleFrom names, VOTE and MATCH answer sets of lanes of the tile, and PART sets the
size on which its lanes agree. -/
theorem crossLane : Obligations.CrossLane := by
  unfold Obligations.CrossLane
  intro s c k w64 all mode fn a b d w hw hc hs p n mate x y
  have hmate (i j : Nat) : mate i j ↔ (tileOf n p i).getLsbD j = true := (getLsbD_tileOf n p i j).symm
  obtain rfl : w = regs64 w64 := hw
  refine ⟨fun h => ?_, fun h => ?_, fun h => ?_, fun h => ⟨fun v hv hsize => ?_, fun hbad => exec_part_of_bad hc hbad⟩⟩
  · refine computes_regOp (n := regs64 w64) rfl h fun i _ _ => ⟨rfl, ?_⟩
    rw [low64_q64]
    cases mode <;> rfl
  · refine computes_regOp (n := 1) rfl h fun i _ _ => ⟨rfl, ?_⟩
    have hvote := voteOf_spec fn (tileOf n p i) fun j => x j != 0
    simp only [low32_q32, hmate]
    cases fn
    case ballot => exact fun j _ => (hvote j).trans (by rw [bne_iff_ne])
    all_goals simpa using hvote
  · refine computes_regOp (exec_matchT k all w64 a b s) h fun i _ _ => ⟨rfl, ?_⟩
    rw [low32_q32]
    have hmatch := matchOf_spec (tileOf n p i) (s.rd c .int (regs64 w64) b) i
    simp only [hmate]
    obtain ⟨hsame, hall, hdiffer⟩ := hmatch
    refine ⟨?_, ?_⟩
    · rintro rfl j -
      exact hsame j
    · rintro rfl
      exact ⟨fun h j _ => iff_of_eq (congrArg (fun m : LaneSet => m.getLsbD j = true) (hall h)), hdiffer⟩
  · obtain ⟨-, hagent, hk⟩ := h
    obtain ⟨u, hu, hrest⟩ := State.part_next hc hagent hk b v p
    exact ⟨u, (exec_part_of_agree hc hv hsize).trans (congrArg _ hu), hrest⟩

end Sys2Proof.Machine
end

section
/-! SUPPORT. Folds of a tile's values, all of them and up to a lane: REDT and SCANT (R43, R491, R498). -/

namespace Sys2Proof.Machine

/-! ### Steps on values of a type -/

/-- The values that lanes hold of a 32-bit integer type fit in 32 bits. -/
def FitsType (ty : XTy) (x : Dword) : Prop := ty = .n32 ∨ ty = .i32 → x.toNat < 2 ^ 32

theorem rd_one_lt (s : State) (c : Cur) (o : Opnd) {i : Nat} (hi : i < 32) : (s.rd c .int 1 o i).toNat < 2 ^ 32 := by
  have hword (x : Word) : (x.setWidth 64).toNat < 2 ^ 32 := by simpa using Nat.lt_of_le_of_lt (Nat.mod_le _ _) x.isLt
  cases o <;> simp only [State.rd, OfNat.one_ne_ofNat, if_false]
  case lane n => exact hword _
  case uni n => exact hword _
  case ones => exact hword _
  case imm v => exact hword _
  case laneIdx => rw [BitVec.toNat_ofNat]; omega
  case tileIdx =>
    have := Nat.mod_le i c.wave.s
    rw [BitVec.toNat_ofNat]; omega
  case param win off =>
    simp only [State.readWindow, Nat.mul_one, Nat.reduceEqDiff, if_false]
    split
    · exact hword _
    · simp
  all_goals simp

theorem fits_rd (s : State) (c : Cur) (ty : XTy) (o : Opnd) {i : Nat} (hi : i < 32) : FitsType ty (s.rd c .int (xregs ty) o i) := by
  rintro (rfl | rfl) <;> exact rd_one_lt s c o hi

/-- One value lies below another in an order of z bytes (R399). -/
def below (signed : Bool) (z a b : Nat) : Bool :=
  if signed then decide ((BitVec.ofNat (8 * z) a).toInt < (BitVec.ofNat (8 * z) b).toInt) else decide (a < b)

theorem minOf_eq (signed : Bool) (z a b : Nat) : minOf signed z a b = if below signed z a b then a else b := rfl

theorem ofNat_minOf_eq (signed : Bool) (z : Nat) (r x : Dword) :
    BitVec.ofNat 64 (minOf signed z r.toNat x.toNat) = if below signed z r.toNat x.toNat then r else x := by
  rw [minOf_eq]
  split_ifs <;> simp

theorem ofNat_maxOf_eq (signed : Bool) (z : Nat) (r x : Dword) :
    BitVec.ofNat 64 (maxOf signed z r.toNat x.toNat) = if below signed z r.toNat x.toNat then x else r := by
  rw [maxOf, minOf_eq]
  by_cases hlt : below signed z r.toNat x.toNat = true
  · simp [hlt]
  · by_cases heq : x.toNat = r.toNat
    · simp [BitVec.eq_of_toNat_eq heq]
    · simp [hlt, heq]

/-- The smaller of two values, and the larger, is one of them. -/
theorem ofNat_minOf (signed : Bool) (z : Nat) (r x : Dword) :
    BitVec.ofNat 64 (minOf signed z r.toNat x.toNat) = r ∨ BitVec.ofNat 64 (minOf signed z r.toNat x.toNat) = x := by
  rw [ofNat_minOf_eq]
  exact ite_eq_or_eq _ _ _

theorem ofNat_maxOf (signed : Bool) (z : Nat) (r x : Dword) :
    BitVec.ofNat 64 (maxOf signed z r.toNat x.toNat) = x ∨ BitVec.ofNat 64 (maxOf signed z r.toNat x.toNat) = r := by
  rw [ofNat_maxOf_eq]
  exact ite_eq_or_eq _ _ _

theorem below_unsigned (z : Nat) (r x : Dword) : below false z r.toNat x.toNat = true ↔ r < x := decide_eq_true_iff

theorem below_signed (r x : Dword) : below true 4 r.toNat x.toNat = true ↔ (r.setWidth 32).slt (x.setWidth 32) = true := by
  rw [← BitVec.ofNat_toNat, ← BitVec.ofNat_toNat]
  exact Iff.rfl

theorem ofNat_minOf_unsigned (z : Nat) (r x : Dword) : BitVec.ofNat 64 (minOf false z r.toNat x.toNat) = if x < r then x else r := by
  rw [ofNat_minOf_eq]
  simp only [below_unsigned]
  split_ifs with h h' h'
  · exact absurd h (BitVec.lt_asymm h')
  · rfl
  · rfl
  · exact BitVec.le_antisymm (BitVec.not_lt.mp h) (BitVec.not_lt.mp h')

theorem ofNat_maxOf_unsigned (z : Nat) (r x : Dword) : BitVec.ofNat 64 (maxOf false z r.toNat x.toNat) = if r < x then x else r := by
  rw [ofNat_maxOf_eq]
  simp only [below_unsigned]

/-- Of values of 32 bits, the signed order is one of the values themselves. -/
theorem ofNat_minOf_signed {r x : Dword} (hr : r.toNat < 2 ^ 32) (hx : x.toNat < 2 ^ 32) :
    BitVec.ofNat 64 (minOf true 4 r.toNat x.toNat) = if (x.setWidth 32).slt (r.setWidth 32) then x else r := by
  rw [ofNat_minOf_eq]
  simp only [below_signed, BitVec.slt_iff_toInt_lt]
  split_ifs with h h' h'
  · omega
  · rfl
  · rfl
  · have heq : x.setWidth 32 = r.setWidth 32 := BitVec.eq_of_toInt_eq (by omega)
    refine BitVec.eq_of_toNat_eq ?_
    have := congrArg BitVec.toNat heq
    rw [BitVec.toNat_setWidth, BitVec.toNat_setWidth, Nat.mod_eq_of_lt hr, Nat.mod_eq_of_lt hx] at this
    exact this

theorem ofNat_maxOf_signed (r x : Dword) :
    BitVec.ofNat 64 (maxOf true 4 r.toNat x.toNat) = if (r.setWidth 32).slt (x.setWidth 32) then x else r := by
  rw [ofNat_maxOf_eq]
  simp only [below_signed]

theorem ofNat_add_32 (r x : Dword) :
    BitVec.ofNat 64 ((r.toNat + x.toNat) % 2 ^ 32) = (r.setWidth 32 + x.setWidth 32).setWidth 64 := by
  apply BitVec.eq_of_toNat_eq
  simp

theorem ofNat_add_64 (r x : Dword) : BitVec.ofNat 64 ((r.toNat + x.toNat) % 2 ^ 64) = r + x := by
  apply BitVec.eq_of_toNat_eq
  simp

/-- A step on two integers of a type (R491). -/
theorem xstep_int {op : XOp} {ty : XTy} (hty : ty ≠ .f32) {r x : Dword} (hr : FitsType ty r) (hx : FitsType ty x) :
    (xstep op ty r x).1 = intStep op ty r x := by
  cases op <;> cases ty
  case add.n32 | add.i32 => exact ofNat_add_32 r x
  case add.n64 => exact ofNat_add_64 r x
  case min.n32 | min.n64 => exact ofNat_minOf_unsigned _ r x
  case max.n32 | max.n64 => exact ofNat_maxOf_unsigned _ r x
  case min.i32 => exact ofNat_minOf_signed (hr (.inr rfl)) (hx (.inr rfl))
  case max.i32 => exact ofNat_maxOf_signed r x
  case add.f32 | min.f32 | max.f32 => exact absurd rfl hty
  all_goals rfl

/-- A step of values that fit gives one that fits. -/
theorem fits_xstep {op : XOp} {ty : XTy} {r x : Dword} (hr : FitsType ty r) (hx : FitsType ty x) : FitsType ty (xstep op ty r x).1 := by
  intro hty
  have hr := hr hty
  have hx := hx hty
  have hone {y : Dword} (h : y = r ∨ y = x) : y.toNat < 2 ^ 32 := by
    rcases h with rfl | rfl
    · exact hr
    · exact hx
  cases op
  case add =>
    rcases hty with rfl | rfl <;> simp only [xstep, reduceCtorEq, if_false, BitVec.toNat_ofNat] <;> omega
  case min => rcases hty with rfl | rfl <;> exact hone (ofNat_minOf _ _ _ _)
  case max => rcases hty with rfl | rfl <;> exact hone (ofNat_maxOf _ _ _ _).symm
  case and => exact (BitVec.toNat_and r x) ▸ Nat.and_lt_two_pow _ hx
  case or => exact (BitVec.toNat_or r x) ▸ Nat.or_lt_two_pow hr hx
  case xor => exact (BitVec.toNat_xor r x) ▸ Nat.xor_lt_two_pow hr hx

theorem xstep_flags {op : XOp} {ty : XTy} (hty : ty ≠ .f32) (r x : Dword) : (xstep op ty r x).2 = 0 := by
  cases ty
  case f32 => exact absurd rfl hty
  all_goals cases op <;> rfl

/-! ### Running results -/

/-- The fold of a list of values from a first one (R491). -/
def xfold (op : XOp) (ty : XTy) (r : Dword) (l : List Dword) : Dword := l.foldl (fun r x => (xstep op ty r x).1) r

theorem running_flags {op : XOp} {ty : XTy} (hty : ty ≠ .f32) (r : Dword) (l : List Dword) : (running op ty r l).2 = 0 := by
  induction l generalizing r with
  | nil => rfl
  | cons x l ih =>
    show (xstep op ty r x).2 ||| (running op ty (xstep op ty r x).1 l).2 = 0
    rw [xstep_flags hty, ih]
    rfl

/-- The running result after the first of the values is the fold of those. -/
theorem lget_running (op : XOp) (ty : XTy) (r : Dword) (l rest : List Dword) :
    lget 0 (running op ty r (l ++ rest)).1 l.length = xfold op ty r l := by
  induction l generalizing r with
  | nil => cases rest <;> rfl
  | cons x l ih => exact ih (xstep op ty r x).1

theorem getLast_running (op : XOp) (ty : XTy) (r : Dword) (l : List Dword) :
    (running op ty r l).1.getLast? = some (xfold op ty r l) := by
  induction l generalizing r with
  | nil => rfl
  | cons x l ih =>
    show (r :: (running op ty (xstep op ty r x).1 l).1).getLast? = _
    rw [List.getLast?_cons, ih]
    rfl

theorem tileScan_flags {op : XOp} {ty : XTy} (hty : ty ≠ .f32) (l : List Dword) : (tileScan op ty l).2 = 0 := by
  cases l
  · rfl
  · exact running_flags hty _ _

/-! ### Lists of lanes -/

theorem laneIds_eq : laneIds = List.range 32 := rfl

theorem lanesOf_tileOf (n : Nat) (p : LaneSet) (i : Nat) :
    lanesOf (tileOf n p i) = (List.range 32).filter fun j => p.getLsbD j && j / n == i / n := by
  rw [lanesOf, laneIds_eq]
  refine List.filter_congr fun j hj => ?_
  rw [tileOf, getLsbD_lanesWhere, decide_eq_true (List.mem_range.mp hj), Bool.true_and]

/-- Around one of its members, an ascending list is its lower members, the member, and its higher ones. -/
theorem ascending_split {l : List Nat} (hl : l.Pairwise (· < ·)) {i : Nat} (hi : i ∈ l) :
    ∃ rest, l = l.filter (· < i) ++ i :: rest ∧ l.filter (· ≤ i) = l.filter (· < i) ++ [i] := by
  obtain ⟨lo, hi', rfl⟩ := List.mem_iff_append.mp hi
  obtain ⟨-, hhi, hlo⟩ := List.pairwise_append.mp hl
  have hlow : ∀ x ∈ lo, x < i := fun x hx => hlo x hx i List.mem_cons_self
  have hhigh : ∀ x ∈ hi', i < x := (List.pairwise_cons.mp hhi).1
  have h1 : (lo ++ i :: hi').filter (· < i) = lo := by
    rw [List.filter_append, List.filter_eq_self.mpr (by simpa using hlow), List.filter_eq_nil_iff.mpr, List.append_nil]
    rintro x hx
    rcases List.mem_cons.mp hx with rfl | hx
    · simp
    · simpa using (hhigh x hx).le
  have h2 : (lo ++ i :: hi').filter (· ≤ i) = lo ++ [i] := by
    rw [List.filter_append, List.filter_eq_self.mpr (fun x hx => by simpa using (hlow x hx).le), List.filter_cons_of_pos (by simp),
      List.filter_eq_nil_iff.mpr fun x hx => by simpa using hhigh x hx]
  exact ⟨hi', by rw [h1], by rw [h1, h2]⟩

/-! ### Folds of a tile -/

/-- z is the fold of the values that v gives a list of lanes, of which there is at least one. -/
def FoldsTo (op : XOp) (ty : XTy) (v : Nat → Dword) (l : List Nat) (z : Dword) : Prop :=
  ∃ h t, l = h :: t ∧ z = xfold op ty (v h) (t.map v)

theorem foldsTo_getLast (op : XOp) (ty : XTy) (v : Nat → Dword) {l : List Nat} (hl : l ≠ []) :
    FoldsTo op ty v l ((tileScan op ty (l.map v)).1.getLast?.getD 0) := by
  obtain ⟨h, t, rfl⟩ := List.exists_cons_of_ne_nil hl
  refine ⟨h, t, rfl, ?_⟩
  rw [List.map_cons, tileScan, getLast_running, Option.getD_some]

/-- The running result at the place of the last of the first lanes is the fold of those. -/
theorem foldsTo_lget (op : XOp) (ty : XTy) (v : Nat → Dword) {l pre rest : List Nat} {n : Nat} (hl : l = pre ++ rest)
    (hn : pre.length = n + 1) : FoldsTo op ty v pre (lget 0 (tileScan op ty (l.map v)).1 n) := by
  obtain ⟨h, t, rfl⟩ := List.exists_cons_of_length_eq_add_one hn
  refine ⟨h, t, rfl, ?_⟩
  rw [hl, List.cons_append, List.map_cons, List.map_append, tileScan, ← lget_running op ty (v h) (t.map v) (rest.map v), List.length_map,
    show t.length = n by simpa using hn]

/-- A fold by another step that agrees on the values that fit. -/
theorem xfold_eq {op : XOp} {ty : XTy} {step : Dword → Dword → Dword}
    (hstep : ∀ r x, FitsType ty r → FitsType ty x → (xstep op ty r x).1 = step r x) {r : Dword} (hr : FitsType ty r) {l : List Dword}
    (hl : ∀ x ∈ l, FitsType ty x) : xfold op ty r l = l.foldl step r := by
  induction l generalizing r with
  | nil => rfl
  | cons x l ih =>
    have hx : FitsType ty x := hl x List.mem_cons_self
    rw [List.foldl_cons, ← hstep r x hr hx]
    exact ih (fits_xstep hr hx) fun y hy => hl y (List.mem_cons_of_mem _ hy)

/-- Settles O19: the running results of the tile's list of lanes are its folds up to each lane, and the last of them the fold of all. -/
theorem reductions : Obligations.Reductions := by
  unfold Obligations.Reductions
  intro s c k excl op ty a b w hw h hs hop p tile v step fold least
  obtain rfl := hw
  have htile (i : Nat) : lanesOf (tileOf c.wave.s (s.parts c k) i) = tile i := lanesOf_tileOf _ _ i
  have hstep (r y : Dword) (hr : FitsType ty r) (hy : FitsType ty y) : (xstep op ty r y).1 = step r y := by
    by_cases hty : ty = .f32
    · subst hty
      cases op <;> rfl
    · rw [xstep_int hty hr hy]
      cases ty
      case f32 => exact absurd rfl hty
      all_goals rfl
  have hfits {i j : Nat} (hj : j ∈ tile i) : FitsType ty (v j) := fits_rd s c ty b (List.mem_range.mp (List.mem_filter.mp hj).1)
  have hfold {i : Nat} {l : List Nat} (hl : ∀ j ∈ l, j ∈ tile i) {z : Dword} (hz : FoldsTo op ty v l z) : fold l z := by
    obtain ⟨h, t, rfl, rfl⟩ := hz
    refine ⟨h, t, rfl, xfold_eq hstep (hfits (hl h List.mem_cons_self)) fun y hy => ?_⟩
    obtain ⟨j, hj, rfl⟩ := List.mem_map.mp hy
    exact hfits (hl j (List.mem_cons_of_mem _ hj))
  have hself {i : Nat} (hi : i < 32) (hp : p.getLsbD i = true) : i ∈ tile i :=
    List.mem_filter.mpr ⟨List.mem_range.mpr hi, by rw [hp, beq_self_eq_true]; rfl⟩
  have hascending (i : Nat) : (tile i).Pairwise (· < ·) := List.Pairwise.filter _ List.pairwise_lt_range
  refine ⟨computes_regOp rfl h fun i hi hp => ⟨fun hty => tileScan_flags hty _, ?_⟩,
    computes_regOp rfl h fun i hi hp => ⟨fun hty => tileScan_flags hty _, ?_⟩⟩
  case refine_1 =>
    rw [low64_q64, htile]
    exact hfold (fun _ hj => hj) (foldsTo_getLast op ty v (List.ne_nil_of_mem (hself hi hp)))
  case refine_2 =>
    obtain ⟨rest, hsplit, hle⟩ := ascending_split (hascending i) (hself hi hp)
    set lower := (tile i).filter (· < i)
    rw [low64_q64, htile]
    constructor
    · rintro rfl
      refine hfold (fun j hj => (List.mem_filter.mp hj).1) ?_
      rw [hle]
      exact foldsTo_lget op ty v (rest := rest) (by rw [List.append_assoc]; exact hsplit) List.length_append
    · rintro rfl
      refine ⟨fun hne => hfold (fun j hj => (List.mem_filter.mp hj).1) ?_, fun hnil => ?_⟩
      · obtain ⟨n, hn⟩ := Nat.exists_eq_succ_of_ne_zero (List.length_pos_iff.mpr hne).ne'
        have hlget := foldsTo_lget op ty v hsplit hn
        show FoldsTo op ty v lower (lget 0 (scanId op ty :: _) lower.length)
        rw [hn]
        exact hlget
      · show lget 0 (scanId op ty :: _) lower.length = least
        rw [hnil]
        cases op <;> cases ty <;> rfl

end Sys2Proof.Machine
end

section
/-! SUPPORT. Leader sections: ELECT and ELEND (R53, R54, R422, R423). -/

namespace Sys2Proof.Machine

/-! ### The lowest lane of a set -/

theorem lowLane_eq_some (m : LaneSet) (j : Nat) :
    lowLane m = some j ↔ j < 32 ∧ m.getLsbD j = true ∧ ∀ n < j, m.getLsbD n = false := by
  rw [lowLane, lanesOf, laneIds_eq, List.head?_filter, List.find?_range_eq_some]
  simp only [List.mem_range, Bool.not_eq_true']
  tauto

/-- The leader of a lane's tile is its lowest participating lane (R53). -/
theorem isLeader_iff (n : Nat) (p : LaneSet) (i j : Nat) : IsLeader n p i j ↔ lowLane (tileOf n p i) = some j := by
  rw [lowLane_eq_some, getLsbD_tileOf, IsLeader]
  constructor
  · rintro ⟨hj, hp, htile, hlow⟩
    refine ⟨hj, ⟨hj, hp, htile⟩, fun m hm => ?_⟩
    rw [← Bool.not_eq_true, getLsbD_tileOf]
    rintro ⟨-, hp', htile'⟩
    exact hlow m hm hp' htile'
  · rintro ⟨-, ⟨hj, hp, htile⟩, hlow⟩
    refine ⟨hj, hp, htile, fun m hm hp' htile' => ?_⟩
    have hin : (tileOf n p i).getLsbD m = true := (getLsbD_tileOf n p i m).mpr ⟨by omega, hp', htile'⟩
    rw [hlow m hm] at hin
    cases hin

/-- The leader of a lane's tile; a lane of no tile leads itself. -/
def leaderOf (n : Nat) (p : LaneSet) (i : Nat) : Nat := (lowLane (tileOf n p i)).getD i

theorem leaderOf_eq {n : Nat} {p : LaneSet} {i j : Nat} (h : IsLeader n p i j) : leaderOf n p i = j := by
  rw [leaderOf, (isLeader_iff n p i j).mp h, Option.getD_some]

/-! ### ELECT -/

/-- A lane of a leader section's start: it sleeps on its leader at the target unless it leads or takes no part (R53). -/
def electLane (n : Nat) (p : LaneSet) (target : Pc) (unread : Bool) (i : Nat) (l : Lane) : Lane :=
  if p.getLsbD i && leaderOf n p i != i then { l with pc := target, st := .sleeping (leaderOf n p i), check := unread } else l

theorem electLane_keeps (n : Nat) (p : LaneSet) (target : Pc) (unread : Bool) (i : Nat) (l : Lane) :
    (electLane n p target unread i l).v = l.v ∧ (electLane n p target unread i l).tags = l.tags := by
  unfold electLane
  split <;> exact ⟨rfl, rfl⟩

section Elect

variable {s : State} {c : Cur} {k : Ctl} {off : BitVec 18} (hc : s.cur? = some c)
include hc

theorem exec_elect_of_none (hp : s.parts c k = 0) : exec (.elect k off) s = .next (s.complete c k .zero .zero .zero {}) := by
  refine (onCur_eq hc _).trans ?_
  simp only [hp, if_true]

theorem exec_elect_out_of_space (hp : s.parts c k ≠ 0) (h : branchTarget c.pc off = none) :
    exec (.elect k off) s = .next (s.raise c 0x05 0xFF) := by
  refine (onCur_eq hc _).trans ?_
  simp only [h, if_neg hp]

theorem exec_elect_no_target (hp : s.parts c k ≠ 0) {t : Pc} (h : branchTarget c.pc off = some t) {n : Nat}
    (hbad : s.entryBad c t = some n) : exec (.elect k off) s = .next (s.raise c 0x05 n) := by
  refine (onCur_eq hc _).trans ?_
  simp only [h, hbad, if_neg hp]

theorem exec_elect_of_target (hagent : c.agent = .wave c.bid c.wid) (hp : s.parts c k ≠ 0) {t : Pc}
    (h : branchTarget c.pc off = some t) (hgood : s.entryBad c t = none) :
    exec (.elect k off) s = .next (s.setWave c.bid c.wid
      ((c.onward k .zero .zero .zero c.active).mapLanes (electLane c.wave.s (s.parts c k) t (s.entryUnread c t)))) := by
  refine (onCur_eq hc _).trans ?_
  simp only [h, hgood, if_neg hp, State.putCur_wave hagent]
  rfl

end Elect

/-! ### ELEND -/

/-- A lane at the end of a leader section: a sleeper of a participating lane wakes at the slot after (R54). -/
def elendLane (p : LaneSet) (after : Pc) (l : Lane) : Lane :=
  match l.st with
  | .sleeping ld => if p.getLsbD ld && l.pc == after then { l with st := .live } else l
  | _ => l

theorem elendLane_of_sleeping {p : LaneSet} {after : Pc} {l : Lane} {j : Nat} (h : l.st = .sleeping j) :
    (elendLane p after l).st = if p.getLsbD j = true ∧ l.pc = after then .live else .sleeping j := by
  simp only [elendLane, h, Bool.and_eq_true, beq_iff_eq]
  split
  · rfl
  · exact h

theorem elendLane_of_awake {p : LaneSet} {after : Pc} {l : Lane} (h : ∀ j, l.st ≠ .sleeping j) : elendLane p after l = l := by
  unfold elendLane
  split
  · next j hj => exact absurd hj (h j)
  · rfl

theorem elendLane_keeps (p : LaneSet) (after : Pc) (l : Lane) :
    (elendLane p after l).v = l.v ∧ (elendLane p after l).tags = l.tags ∧ (elendLane p after l).pc = l.pc := by
  unfold elendLane
  split
  · split <;> exact ⟨rfl, rfl, rfl⟩
  · exact ⟨rfl, rfl, rfl⟩

theorem exec_elend {s : State} {c : Cur} {k : Ctl} (hc : s.cur? = some c) (hagent : c.agent = .wave c.bid c.wid) :
    exec (.elend k) s = .next (s.setWave c.bid c.wid
      ((c.onward k .zero .zero .zero c.active).mapLanes fun _ => elendLane (s.parts c k) (succPc c.pc))) := by
  refine (onCur_eq hc _).trans ?_
  simp only [State.putCur_wave hagent]
  rfl

/-- Settles O20: by the target's check, ELECT traps or maps its lanes by electLane; ELEND maps them by elendLane. -/
theorem leaderSections : Obligations.LeaderSections := by
  unfold Obligations.LeaderSections
  intro s c k off ⟨hc, hagent, hk⟩ hs p slot goal
  have htarget : branchTarget c.pc off = if slot < 0 ∨ 2 ^ 57 ≤ goal then none else some (BitVec.ofInt 57 goal) :=
    branchTarget_eq c.pc off
  refine ⟨fun hp hout => ?_, fun hp hslot hgoal n hbad => ?_, fun h => ?_, ?_⟩
  · exact exec_elect_out_of_space hc hp (by rw [htarget, if_pos hout])
  · exact exec_elect_no_target hc hp (by rw [htarget, if_neg (by omega)]) hbad
  · by_cases hp : p = 0
    · refine ⟨_, (exec_elect_of_none hc hp).trans (congrArg _ (State.complete_empty hagent hk _ _ _ 0)),
        c.keepsRegs_onward k .zero .zero .zero c.active, fun i hi => ⟨fun j hpi => ?_, fun _ => ?_⟩⟩
      · rw [hp] at hpi
        simp at hpi
      · exact (c.onward_lane k .zero .zero .zero c.active hi).2.2
    · obtain ⟨hslot, hgoal, hgood⟩ := h.resolve_left hp
      refine ⟨_, exec_elect_of_target hc hagent hp (by rw [htarget, if_neg (by omega)]) hgood,
        c.keepsRegs_mapLanes_onward _ _ _ _ _ _ fun i l => electLane_keeps _ _ _ _ i l, fun i hi => ?_⟩
      rw [Wave.lane_mapLanes _ _ _ hi]
      refine ⟨fun j hpi hlead hne => ?_, fun hstay => ?_⟩
      · have hj := leaderOf_eq hlead
        rw [electLane, if_pos (by rw [hpi, Bool.true_and, bne_iff_ne, hj]; exact fun e => hne e.symm), hj]
        exact ⟨rfl, rfl⟩
      · have hstays : ¬ (p.getLsbD i && leaderOf c.wave.s p i != i) = true := by
          rcases hstay with hpi | hlead
          · rw [hpi]; exact Bool.false_ne_true
          · rw [leaderOf_eq hlead, bne_self_eq_false, Bool.and_false]; exact Bool.false_ne_true
        rw [electLane, if_neg hstays]
        exact (c.onward_lane k .zero .zero .zero c.active hi).2.2
  · refine ⟨_, exec_elend hc hagent, c.keepsRegs_mapLanes_onward _ _ _ _ _ _ fun _ l => ?_, fun i hi => ?_⟩
    · exact ⟨(elendLane_keeps _ _ l).1, (elendLane_keeps _ _ l).2.1⟩
    · obtain ⟨-, -, hst, hpc⟩ := c.onward_lane k .zero .zero .zero c.active hi
      rw [Wave.lane_mapLanes _ _ _ hi]
      refine ⟨(elendLane_keeps _ _ _).2.2.trans hpc, fun j hj hact => ?_, fun hawake => ?_⟩
      · rw [elendLane_of_sleeping (hst.trans hj), hpc, hact]
        rfl
      · rw [elendLane_of_awake fun j => by rw [hst]; exact hawake j, hst]

end Sys2Proof.Machine
end

section
/-! SUPPORT. NOP, YIELD, SLEEP and EXIT outside a region (R34, R52, R54, R424, R476, R504, R513). -/

namespace Sys2Proof.Machine

/-- Lanes have moved on whatever else of their wave changes. -/
theorem moved_of_lanes {w u u' : Wave} {m : LaneSet} (h : Moved w u m) (hlanes : u'.lanes = u.lanes) : Moved w u' m := by
  have hlane (i : Nat) : u'.lane i = u.lane i := congrArg (lget Lane.absent · i) hlanes
  exact ⟨fun i hi => by rw [hlane]; exact h.pc i hi, fun i hi => by rw [hlane]; exact h.kept i hi⟩

theorem exec_nop {s : State} {c : Cur} {k : Ctl} (h : ByWave s c k) :
    exec (.nop k) s = .next (s.setWave c.bid c.wid { c.onward k .zero .zero .zero c.active with
      fpstat := (c.onward k .zero .zero .zero c.active).fpstat ||| 0 }) :=
  (onCur_eq h.1 _).trans (congrArg _ (State.complete_empty h.2.1 h.2.2 _ _ _ 0))

/-! ### YIELD and SLEEP -/

theorem exec_yield {s : State} {c : Cur} {k : Ctl} (h : ByWave s c k) :
    exec (.yieldI k) s = .next (s.setWave c.bid c.wid
      { c.onward k .zero .zero .zero c.active with
        yielded := (c.onward k .zero .zero .zero c.active).yielded || s.parts c k != 0 }) := by
  obtain ⟨hc, hagent, -⟩ := h
  refine (onCur_eq hc _).trans ?_
  rw [State.putCur_wave hagent]
  rfl

/-- A lane that SLEEP puts to sleep for n counts, none for 0 (R504). -/
def sleepLane (p : LaneSet) (clk : BitVec 64) (n : Nat → Word) (i : Nat) (l : Lane) : Lane :=
  if p.getLsbD i && n i != 0 then { l with st := .blocked (.sleep (clk + (n i).setWidth 64)) } else l

theorem sleepLane_keeps (p : LaneSet) (clk : BitVec 64) (n : Nat → Word) (i : Nat) (l : Lane) :
    (sleepLane p clk n i l).v = l.v ∧ (sleepLane p clk n i l).tags = l.tags ∧ (sleepLane p clk n i l).pc = l.pc := by
  unfold sleepLane
  split <;> exact ⟨rfl, rfl, rfl⟩

theorem sleepLane_st (p : LaneSet) (clk : BitVec 64) (n : Nat → Word) (i : Nat) (l : Lane) :
    (sleepLane p clk n i l).st =
      if p.getLsbD i = true ∧ n i ≠ 0 then .blocked (.sleep (clk + (n i).setWidth 64)) else l.st := by
  simp only [sleepLane, Bool.and_eq_true, bne_iff_ne]
  split <;> rfl

theorem exec_sleep {s : State} {c : Cur} {k : Ctl} {b : Opnd} (h : ByWave s c k) (hready : Ready s c k 1 [b]) :
    ∃ fl, exec (.sleep k b) s = .next (s.setWave c.bid c.wid
      { (c.onward k b .zero .zero c.active).mapLanes (sleepLane (s.parts c k) s.clk (s.rd32 c b)) with fpstat := fl }) := by
  obtain ⟨hc, hagent, -⟩ := h
  refine ⟨(c.onward k b .zero .zero c.active).fpstat ||| s.paramFlags c (s.parts c k) 1 [b], (onCur_eq hc _).trans ?_⟩
  simp only [hready.2, State.putCur_wave hagent]
  rfl

/-! ### EXIT -/

/-- A lane of a wave whose lanes p end: it ends, or wakes if it slept on one of them (R54, R424). -/
def exitLane (p : LaneSet) (i : Nat) (l : Lane) : Lane :=
  if p.getLsbD i then { l with st := .exited, paid := false, restart := none }
  else match l.st with
    | .sleeping ld => if p.getLsbD ld then { l with st := .live } else l
    | _ => l

theorem exitLane_of_exiting {p : LaneSet} {i : Nat} (h : p.getLsbD i = true) (l : Lane) :
    (exitLane p i l).st = .exited := by rw [exitLane, if_pos h]

theorem exitLane_of_sleeping {p : LaneSet} {i : Nat} (h : p.getLsbD i = false) {l : Lane} {j : Nat} (hj : l.st = .sleeping j) :
    (exitLane p i l).st = if p.getLsbD j = true then .live else .sleeping j := by
  simp only [exitLane, h, Bool.false_eq_true, if_false, hj]
  split
  · rfl
  · exact hj

theorem exitLane_of_awake {p : LaneSet} {i : Nat} (h : p.getLsbD i = false) {l : Lane} (hj : ∀ j, l.st ≠ .sleeping j) :
    exitLane p i l = l := by
  rw [exitLane, if_neg (by rw [h]; exact Bool.false_ne_true)]
  split
  · next j hst => exact absurd hst (hj j)
  · rfl

theorem exitLane_keeps (p : LaneSet) (i : Nat) (l : Lane) :
    (exitLane p i l).v = l.v ∧ (exitLane p i l).tags = l.tags ∧ (exitLane p i l).pc = l.pc := by
  unfold exitLane
  split
  · exact ⟨rfl, rfl, rfl⟩
  · split
    · split <;> exact ⟨rfl, rfl, rfl⟩
    · exact ⟨rfl, rfl, rfl⟩

/-- Only a lane that ends becomes an exited one. -/
theorem exitLane_isExited {p : LaneSet} {i : Nat} (h : p.getLsbD i = false) {l : Lane} (hl : l.isExited = false) :
    (exitLane p i l).isExited = false := by
  simp only [exitLane, h, Bool.false_eq_true, if_false]
  split
  · split
    · rfl
    · exact hl
  · exact hl

theorem Wave.lane_exitLanes (w : Wave) (p : LaneSet) {i : Nat} (hi : i < 32) :
    (w.exitLanes p).lane i = exitLane p i (w.lane i) := by
  have h : (w.exitLanes p).lane i = (((w.mapLanes fun i l => if p.getLsbD i then
      { l with st := .exited, paid := false, restart := none } else l).wakeSleepers p).lane i) := rfl
  rw [h, Wave.wakeSleepers, Wave.lane_mapLanes _ _ _ hi, Wave.lane_mapLanes _ _ _ hi]
  simp only [exitLane]
  split_ifs <;> rfl

/-- An element of a list by index is one of its elements, or the default past its end. -/
theorem lget_mem_or {α : Type} (d : α) (l : List α) (n : Nat) : lget d l n ∈ l ∨ lget d l n = d := by
  induction l generalizing n with
  | nil => exact .inr rfl
  | cons x t ih =>
    cases n with
    | zero => exact .inl List.mem_cons_self
    | succ n => exact (ih n).imp_left (List.mem_cons_of_mem _)

/-- A wave with a lane that has not exited has lanes left. -/
theorem Wave.all_isExited_of_lane {w : Wave} {i : Nat} (h : (w.lane i).isExited = false) :
    w.lanes.all Lane.isExited = false := by
  rw [List.all_eq_false]
  rcases lget_mem_or Lane.absent w.lanes i with hmem | habsent
  · exact ⟨_, hmem, Bool.eq_false_iff.mp h⟩
  · rw [Wave.lane, habsent] at h
    cases h

theorem Block.returnPopped_of_lane {b : Block} {i : Nat} {w : Wave} (hw : b.wave? i = some w)
    (h : w.lanes.all Lane.isExited = false) : b.returnPopped i = b := by
  simp only [Block.returnPopped, hw, h, Bool.false_eq_true, if_false]

/-- A block with a lane left stays on the machine. -/
theorem State.retireIfDone_of_lane {s : State} {b i : Nat} {blk : Block} {w : Wave} (hb : s.block? b = some blk)
    (hw : blk.wave? i = some w) (h : w.lanes.all Lane.isExited = false) : s.retireIfDone b = s := by
  have hwave : w.finished = false := by rw [Wave.finished, h, Bool.false_and]
  have hwaves : blk.waves.all Wave.finished = false :=
    List.all_eq_false.mpr ⟨w, List.mem_of_getElem? hw, Bool.eq_false_iff.mp hwave⟩
  have hfin : blk.finished = false := by rw [Block.finished, hwaves, Bool.false_and]
  simp only [State.retireIfDone, hb, hfin, Bool.false_eq_true, if_false]

theorem exec_exit {s : State} {c : Cur} {k : Ctl} (h : ByWave s c k) (hregion : c.wave.inRegion = false) {i : Nat} (hi : i < 32)
    (hp : (s.parts c k).getLsbD i = false) (hleft : (c.wave.lane i).isExited = false) :
    exec (.exit k) s = .next (s.setWave c.bid c.wid
      ((c.onward k .zero .zero .zero (c.active &&& ~~~s.parts c k)).exitLanes (s.parts c k))) := by
  obtain ⟨hc, hagent, -⟩ := h
  obtain ⟨blk, hb, hw⟩ := State.cur_wave hc hagent
  let u := (c.onward k .zero .zero .zero (c.active &&& ~~~s.parts c k)).exitLanes (s.parts c k)
  have hu : u.lanes.all Lane.isExited = false := by
    refine Wave.all_isExited_of_lane (i := i) ?_
    rw [Wave.lane_exitLanes _ _ hi]
    refine exitLane_isExited hp ?_
    rw [Lane.isExited, (c.onward_lane k .zero .zero .zero _ hi).2.2.1]
    exact hleft
  have hub := State.block_setWave hb c.wid u
  have huw := Block.wave_setWave hw u
  refine (onCur_eq hc _).trans (congrArg _ ?_)
  simp only [State.closing, hregion, Bool.false_eq_true, if_false, State.putCur_wave hagent]
  change ((s.setWave c.bid c.wid u).onBlock c.bid (·.returnPopped c.wid)).retireIfDone c.bid = s.setWave c.bid c.wid u
  rw [State.onBlock_eq hub, Block.returnPopped_of_lane huw hu, State.setWave_eq_setBlock hb, State.setBlock_setBlock]
  exact State.retireIfDone_of_lane (State.block_setBlock _ _ _ _ |>.trans (if_pos rfl)) huw hu

/-- Settles O22: each instruction replaces its wave; EXIT's block stays, as a lane is left. -/
theorem nopYieldSleepExit : Obligations.NopYieldSleepExit := by
  unfold Obligations.NopYieldSleepExit
  intro s c k b h p
  have hmoved := c.moved_onward k .zero .zero .zero c.active
  have hkeeps := c.keepsRegs_onward k .zero .zero .zero c.active
  refine ⟨⟨_, exec_nop h, moved_of_lanes hmoved rfl, hkeeps⟩,
    ⟨_, exec_yield h, moved_of_lanes hmoved rfl, hkeeps, fun hp => ?_⟩, fun hready => ?_, fun hregion hleft => ?_⟩
  · change (_ || p != 0) = true
    rw [bne_iff_ne.mpr hp, Bool.or_true]
  · obtain ⟨fl, hsleep⟩ := exec_sleep h hready
    have hkeeps := sleepLane_keeps p s.clk (s.rd32 c b)
    refine ⟨_, hsleep, c.keepsRegs_mapLanes_onward k b .zero .zero c.active _ fun i l => ⟨(hkeeps i l).1, (hkeeps i l).2.1⟩,
      fun i hi => ?_⟩
    obtain ⟨-, -, hst, hpc⟩ := c.onward_lane k b .zero .zero c.active hi
    have hlane := Wave.lane_mapLanes (c.onward k b .zero .zero c.active) (sleepLane p s.clk (s.rd32 c b)) i hi
    refine ⟨(congrArg Lane.pc hlane).trans ((hkeeps i _).2.2.trans hpc), (congrArg Lane.st hlane).trans ?_⟩
    rw [sleepLane_st, hst]
  · obtain ⟨i, hi, hp, hlane⟩ := hleft
    refine ⟨_, exec_exit h hregion hi hp hlane, ?_, fun j hj => ?_⟩
    · refine keepsRegs_of_lanes (fun j hj => ?_) (c.onward_w k .zero .zero .zero (c.active &&& ~~~p))
      obtain ⟨hv, htags, -⟩ := c.onward_lane k .zero .zero .zero (c.active &&& ~~~p) hj
      rw [Wave.lane_exitLanes _ _ hj]
      exact ⟨(exitLane_keeps _ _ _).1.trans hv, (exitLane_keeps _ _ _).2.1.trans htags⟩
    · obtain ⟨-, -, hst, hpc⟩ := c.onward_lane k .zero .zero .zero (c.active &&& ~~~p) hj
      simp only [BitVec.getLsbD_and, BitVec.getLsbD_not, hj, decide_true, Bool.true_and, Bool.and_eq_true] at hpc
      rw [Wave.lane_exitLanes _ _ hj, (exitLane_keeps _ _ _).2.2, hpc]
      refine ⟨fun hpj => ⟨exitLane_of_exiting hpj _, by simp [hpj]⟩, fun hpj => ⟨by simp [hpj], fun l hl => ?_, fun hawake => ?_⟩⟩
      · exact exitLane_of_sleeping hpj (hst.trans hl)
      · rw [exitLane_of_awake hpj fun l => by rw [hst]; exact hawake l, hst]

end Sys2Proof.Machine
end

section
/-! SUPPORT. The launch-wide barrier: a state in which a byte of one die's core lies in the L1 slice of another die's. Its release
moves the byte to the die cache of the core that wrote it, and not home. -/

namespace Sys2Proof.Machine

/-- A cooperative launch of two blocks of one wave each. -/
def strayLaunch : LaunchSlot :=
  { LaunchSlot.reset with alive := true, record := [0, 0, 0, 0, 0, 0, 0, 0, 2, 0, 0, 0, 0, 4], desc := copies 0 16 ++ [1] }

/-- The dirty byte of core 48, of die 1, in the L1 slice of core 0, of die 0. -/
def strayByte : DirtyByte := { sa := 0, val := 1, core := 48, lvl := 0, gen := 0, birth := 0, slice := 0, noDie := false }

/-- The first block of the launch issues on core 0 while the stray byte is dirty. -/
def strayState : State :=
  { (State.reset.setLaunch 0 strayLaunch).setBlock 0 (placedBlock 0 0) with
    issue := some { agent := .wave 0 0, active := allLanes, price := 0 }, dirty := [strayByte] }

/-- The instruction in hand there. -/
def strayCur : Cur :=
  { agent := .wave 0 0, active := allLanes, price := 0, bid := 0, wid := 0, wave := Wave.start 0 65535, ctx := 0, core := 0
    params := copies { bound := false, base := 0, size := 0 } 8, trapOnParam := false }

/-- Byte 0 at home in the state that an instruction leaves. -/
def homeAfter (o : Host.Outcome State Fault Refusal) : Option Byte :=
  match o with
  | .next t => some (t.homeByte 0)
  | _ => none

theorem strayState_ofWave : OfWave strayState strayCur (placedBlock 0 0) := ⟨rfl, rfl, rfl⟩

theorem strayState_viewByte : strayState.viewByte 0 0 = 1 := rfl

theorem strayState_homeAfter : homeAfter (exec (.baraLaunch (Ctl.plain .wave)) strayState) = some 0 := rfl

/-- Refutes O37: BARA.launch of core 0 leaves 0 at home where that core sees 1, when the byte it sees is another die's in its slice. -/
theorem not_launchBarriers : ¬ Obligations.LaunchBarriers := by
  unfold Obligations.LaunchBarriers
  intro h
  have hparts : strayState.parts strayCur (Ctl.plain .wave) ≠ 0 := by decide
  obtain ⟨-, -, hcoop, -⟩ := h strayState strayCur (Ctl.plain .wave) (placedBlock 0 0) strayState_ofWave rfl
  obtain ⟨-, t, w, hexec, -, -, hhome, -⟩ := hcoop (by decide) rfl hparts
  have hafter : t.homeByte 0 = 0 := by
    have hrun := strayState_homeAfter
    rw [hexec] at hrun
    exact Option.some.inj hrun
  have hseen : t.homeByte 0 = 1 := (hhome 0).trans strayState_viewByte
  rw [hafter] at hseen
  exact absurd hseen (by decide)

end Sys2Proof.Machine
end

section
/-! SUPPORT. What a step runs: the fetch of a turn that reads its instruction, and the issue that follows it (R35, R38, R94, R115,
R120, R239, R323). -/

namespace Sys2Proof.Machine

/-! ### The issue of a wave -/

/-- A wave whose lanes of a set have had the target of a late fetch checked. -/
def Wave.checkedIn (w : Wave) (lanes : LaneSet) : Wave :=
  w.mapLanes fun j x => if lanes.getLsbD j then { x with check := false } else x

/-- The wave after the fetch of an instruction of some lanes: their target checks are done where any was due. -/
def Wave.fetched (w : Wave) (lanes : LaneSet) : Wave :=
  if (lanesOf lanes).any fun j => (w.lane j).check then w.checkedIn lanes else w

theorem Wave.fetched_eq (w : Wave) (lanes : LaneSet) : w.fetched lanes = { w with lanes := (w.fetched lanes).lanes } := by
  unfold Wave.fetched
  split <;> rfl

theorem Wave.lane_fetched (w : Wave) (lanes : LaneSet) {j : Nat} (hj : j < 32) :
    (w.fetched lanes).lane j = { w.lane j with check := (w.lane j).check && !lanes.getLsbD j } := by
  unfold Wave.fetched
  split
  · rw [Wave.checkedIn, Wave.lane_mapLanes _ _ _ hj]
    cases lanes.getLsbD j <;> simp
  · next hnone =>
    have hdone (hin : lanes.getLsbD j = true) : (w.lane j).check = false := by
      rw [Bool.eq_false_iff]
      exact fun hcheck => hnone (List.any_eq_true.mpr ⟨j, (mem_lanesOf _ _).mpr ⟨hj, hin⟩, hcheck⟩)
    cases hin : lanes.getLsbD j
    · simp
    · simp [← hdone hin]

theorem Wave.counted_eq (w : Wave) (m : LaneSet) : w.counted m = { w with rot := (w.counted m).rot } := by
  unfold Wave.counted
  split
  · rfl
  · split <;> rfl

/-- The wave that has an instruction of some lanes in hand. -/
def Wave.issuing (w : Wave) (lanes : LaneSet) : Wave := { w.settled.counted lanes with offered := 0 }

theorem Wave.issuing_eq (w : Wave) (lanes : LaneSet) :
    w.issuing lanes = { w with rot := (w.issuing lanes).rot, offered := 0 } := by
  rw [Wave.issuing, Wave.counted_eq]
  rfl

/-! ### The turns that have paid -/

section Turns

variable {s : State} {b i : Nat} {blk : Block} {w : Wave}

theorem lset_getElem_self {α : Type} {l : List α} {n : Nat} {x : α} (h : l[n]? = some x) : lset l n x = l := by
  induction l generalizing n with
  | nil => rfl
  | cons y t ih =>
    cases n with
    | zero => rw [Option.some.inj h.symm]; rfl
    | succ n => exact congrArg _ (ih h)

/-- A fetch that reads an instruction keeps the line and marks the block entered and the target checked (R93, R94). -/
theorem State.fetchWave_ok (hb : s.block? b = some blk) (hw : blk.wave? i = some w) {lanes : LaneSet} {pc : Pc} {sa : Nat}
    {l : FetchLine} {ins : Instr} (hpc : pc = (w.lane ((lowLane lanes).getD 0)).pc)
    (hline : (if blk.entered then s.fetch (coreOf b) blk.ctx pc.toNat ((lanesOf lanes).any fun j => (w.lane j).check)
      else s.transfer (coreOf b) blk.ctx pc.toNat) = .ok sa l)
    (hins : decodeIn blk.regs .wave (slotWord l (slotOfPc pc.toNat)) = .ok ins) (price : Nat) :
    ∃ t, s.fetchWave b i blk w.settled lanes price = .instr t l ins ∧
      t = { s with cores := t.cores, blocks := t.blocks } ∧
      t.blocks = tput s.blocks b ({ blk with entered := true }.setWave i (w.fetched lanes)) := by
  let blk1 : Block := { blk with entered := true }
  let s1 := (s.setBlock b blk1).keepLine (coreOf b) sa l
  have hs1 : (s.markEntered b).keepLine (coreOf b) sa l = s1 := by rw [State.markEntered, State.onBlock_eq hb]
  have hb1 : s1.block? b = some blk1 := (State.block_setBlock s b b blk1).trans (if_pos rfl)
  have hlane (j : Nat) : w.settled.lane j = w.lane j := rfl
  have hrun : s.fetchWave b i blk w.settled lanes price =
      .instr (if (lanesOf lanes).any fun j => (w.lane j).check then s1.onWave b i fun w => w.checkedIn lanes else s1) l ins := by
    simp only [State.fetchWave, hlane, ← hpc, hline, hins, hs1]
    rfl
  refine ⟨_, hrun, ?_, ?_⟩
  · split
    · rw [State.onWave_eq (State.wave_eq hb1 hw), State.setWave_eq_setBlock hb1]
      rfl
    · rfl
  · unfold Wave.fetched
    split
    · rw [State.onWave_eq (State.wave_eq hb1 hw), State.setWave_eq_setBlock hb1]
      exact tput_tput s.blocks b _ _
    · change tput s.blocks b blk1 = tput s.blocks b { blk1 with waves := lset blk1.waves i w }
      rw [lset_getElem_self hw]

/-- The issue of a fetched instruction puts it in hand (R35, R38). -/
theorem State.beginIssue_eq (hb : s.block? b = some blk) (hw : blk.wave? i = some w) (lanes : LaneSet) (price : Nat) (pairs : Bool)
    (ins : Instr) :
    s.beginIssue b i lanes price pairs ins = { s.setBlock b (blk.setWave i (w.issuing lanes)) with
      issue := some { agent := .wave b i, active := lanes, price, yields := yieldsOf ins }
      issuedParts := sins s.issuedParts (coreOf b * 4 + blk.partOf i)
      agenda := if (w.issuing lanes).sweepDue && !pairs then .ev (.rotationSweep b i) :: s.agenda else s.agenda } := by
  simp only [State.beginIssue, hb, hw]
  rfl

/-- A wave's paid turn whose instruction is fetched and follows no access issues it. -/
theorem State.wavePaid_ok (hb : s.block? b = some blk) (hw : blk.wave? i = some w) {lanes : LaneSet} {base : Nat}
    (hstands : s.waveClaimStands b i lanes = true) {t : State} {l : FetchLine} {ins : Instr}
    (hfetch : s.fetchWave b i blk w.settled lanes (s.priceOn (coreOf b) base) = .instr t l ins)
    (hfree : w.settled.mustFollow lanes ins = false) :
    s.wavePaid b i lanes base =
      (t.beginIssue b i lanes (s.priceOn (coreOf b) base) (pairFollows b i t.agenda) ins, some ins) := by
  have hfree' : w.mustFollow lanes ins = false := hfree
  simp only [State.wavePaid, hb, hw, hstands, hfetch, hfree', Bool.not_true, Bool.false_eq_true, if_false]

/-- A sequencer's fetch that reads an instruction keeps the line and marks the sequencer entered (R93, R94). -/
theorem State.fetchSeq_ok (hb : s.block? b = some blk) {sa : Nat} {l : FetchLine} {ins : Instr}
    (hline : (if blk.seq.entered then s.fetch (coreOf b) blk.ctx blk.seq.pc.toNat false
      else s.transfer (coreOf b) blk.ctx blk.seq.pc.toNat) = .ok sa l)
    (hins : decode .matrix (slotWord l (slotOfPc blk.seq.pc.toNat)) = .ok ins) :
    s.fetchSeq b blk = .instr ((s.keepLine (coreOf b) sa l).setBlock b { blk with seq := { blk.seq with entered := true } }) l ins := by
  have hkept : (s.keepLine (coreOf b) sa l).block? b = some blk := hb
  simp only [State.fetchSeq, hline, hins, State.onSeq, State.onBlock_eq hkept]

/-- A sequencer's paid turn whose instruction is fetched issues it. -/
theorem State.seqPaid_ok (hb : s.block? b = some blk) {base : Nat} (hready : s.seqReady b blk = true) {t : State} {l : FetchLine}
    {ins : Instr} (hfetch : s.fetchSeq b blk = .instr t l ins) :
    s.seqPaid b base = (t.beginSeq b (s.priceOn (coreOf b) base), some ins) := by
  simp only [State.seqPaid, hb, hready, hfetch, Bool.not_true, Bool.false_eq_true, if_false]

theorem State.cpTurn_ok {q : Nat} {l : FetchLine} {ins : Instr} (hready : s.cpReady (s.hwq q) = true)
    (hline : s.cpLine q (s.hwq q) = .inr l) (hins : decode .control (slotWord l (slotOfPc (s.hwq q).pc.toNat)) = .ok ins) :
    s.cpTurn q = ({ s.setHwq q { s.hwq q with wait := .no } with
      issue := some { agent := .cp q, active := 1, price := 0 }, cpRotor := (q + 1) % 256 }, some ins) := by
  simp only [State.cpTurn, hready, hline, hins, Bool.not_true, Bool.false_eq_true, if_false]

/-- The instruction in hand after a wave's issue. -/
theorem State.cur_beginIssue (hb : s.block? b = some blk) (hw : blk.wave? i = some w) (lanes : LaneSet) (price : Nat) (pairs : Bool)
    (ins : Instr) : ∃ c, (s.beginIssue b i lanes price pairs ins).cur? = some c ∧ c.agent = .wave b i ∧ c.bid = b ∧ c.wid = i ∧
      c.active = lanes ∧ c.price = price ∧ c.wave = w.issuing lanes := by
  have hissued : (s.beginIssue b i lanes price pairs ins).block? b = some (blk.setWave i (w.issuing lanes)) := by
    rw [State.beginIssue_eq hb hw]
    exact (State.block_setBlock s b b _).trans (if_pos rfl)
  have hissue : (s.beginIssue b i lanes price pairs ins).issue =
      some { agent := .wave b i, active := lanes, price, yields := yieldsOf ins } := by
    rw [State.beginIssue_eq hb hw]
  simp only [State.cur?, hissue, hissued, Block.wave_setWave hw]
  exact ⟨_, rfl, rfl, rfl, rfl, rfl, rfl, rfl⟩

theorem State.afterIssue_frame (s : State) : s.afterIssue = { s with blocks := s.afterIssue.blocks } := by
  unfold State.afterIssue
  split
  · rfl
  · split
    · exact s.onWave_frame _ _ _
    · rfl

/-! ### The step -/

/-- The state in which a step takes its turn. -/
def State.taking (s : State) (rest : List Turn) : State :=
  { s.afterIssue with freeCtr := s.freeCtr + 1, issue := none, agenda := rest }

theorem step_of_idle (h : s.agenda = []) : step s = .next (s.taking []).startClock := by
  have hstep : step s = .next { s.afterIssue with freeCtr := s.freeCtr + 1, issue := none }.startClock := by simp only [step, h]
  have hagenda : s.afterIssue.agenda = [] := by rw [s.afterIssue_frame]; exact h
  rw [hstep, State.taking, ← hagenda]

theorem step_of_issuing {t : Turn} {rest : List Turn} {s1 : State} {ins : Instr} (hagenda : s.agenda = t :: rest)
    (hturn : (s.taking rest).turn t = (s1, some ins)) : step s = exec ins s1 := by
  simp only [State.taking] at hturn
  simp only [step, hagenda, hturn]

end Turns

/-- Settles O49: the turn that is next gives its instruction, fetched and decoded, and the state with that agent as the issuer. -/
theorem stepRunsDecoded : Obligations.StepRunsDecoded := by
  unfold Obligations.StepRunsDecoded
  intro s rest s0
  refine ⟨?_, fun i h => step_of_issuing h rfl, ?_, ?_, ?_⟩
  · rintro h rfl
    exact step_of_idle h
  · intro b i lanes base blk w sa l ins hagenda hb hw hstands pc late hline hins hfree
    obtain ⟨t, hfetch, ht, hblocks⟩ := State.fetchWave_ok hb hw rfl hline hins (s0.priceOn (coreOf b) base)
    have hturn := State.wavePaid_ok hb hw hstands hfetch hfree
    have htb : t.block? b = some ({ blk with entered := true }.setWave i (w.fetched lanes)) := by
      rw [State.block?, hblocks]
      simp
    have htw := Block.wave_setWave (blk := { blk with entered := true }) hw (w.fetched lanes)
    obtain ⟨c, hcur, hagent, hbid, hwid, hactive, hprice, hwave⟩ := State.cur_beginIssue htb htw lanes
      (s0.priceOn (coreOf b) base) (pairFollows b i t.agenda) ins
    have hrest : t.agenda = rest := by rw [ht]
    have hissuing : c.wave = { w with rot := c.wave.rot, lanes := (w.fetched lanes).lanes, offered := 0 } := by
      rw [hwave, Wave.issuing_eq, Wave.fetched_eq]
    refine ⟨_, c, step_of_issuing hagenda hturn, hcur, hagent, hbid, hwid, hactive, hprice, ?_, fun j hj => ?_, ?_, ?_, ?_⟩
    · rw [hissuing]
    · rw [← Wave.lane_fetched w lanes hj, Wave.lane, hissuing]
      rfl
    · rw [State.beginIssue_eq htb htw, ← hrest]
      split
      · exact .inr rfl
      · exact .inl rfl
    · rw [State.beginIssue_eq htb htw, ht]
      rfl
    · intro b' hb'
      rw [State.beginIssue_eq htb htw]
      refine (State.block_setBlock t b b' _).trans ((if_neg hb').trans ?_)
      rw [State.block?, hblocks, tfind_tput, if_neg hb']
      rfl
  · intro b lanes base blk sa l ins hagenda hb hready hline hins
    have hturn := State.seqPaid_ok (base := base) hb hready (State.fetchSeq_ok hb hline hins)
    refine ⟨_, step_of_issuing hagenda hturn, ?_, rfl⟩
    exact congrArg (Option.map (Prod.mk b)) ((State.block_setBlock _ b b _).trans (if_pos rfl))
  · intro q l ins hagenda hready hline hins
    have hframe : s.afterIssue.hwq q = s.hwq q := by rw [s.afterIssue_frame]; rfl
    have hhwq : s0.hwq q = s.hwq q := hframe
    rw [← hhwq] at hready hline hins ⊢
    exact step_of_issuing hagenda (State.cpTurn_ok hready hline hins)

end Sys2Proof.Machine
end

section
/-! SUPPORT. What happens to a wave between its instructions: sweeps, results, waits that end (R38, R112, R266, R278, R290, R293,
R504). -/

namespace Sys2Proof.Machine

/-! ### Lanes that an event wakes -/

/-- An event leaves a wave in which the lanes that satisfy a test are changed, and no hold is. -/
def Wakes (e : Instr) (s : State) (b i : Nat) (w : Wave) (p : Nat → Prop) (f : Lane → Lane) : Prop :=
  ∃ t w', exec e s = .next t ∧ t.wave? b i = some w' ∧ w'.held = w.held ∧
    ∀ j < 32, (p j → w'.lane j = f (w.lane j)) ∧ (¬ p j → w'.lane j = w.lane j)

/-- An event that maps the lanes of the wave wakes those that its map changes. -/
theorem wakes_of_mapLanes {e : Instr} {s t : State} {b i : Nat} {w : Wave} {p : Nat → Prop} {f : Lane → Lane} {g : Nat → Lane → Lane}
    (hexec : exec e s = .next t) (ht : t.wave? b i = some (w.mapLanes g)) (hp : ∀ j < 32, p j → g j (w.lane j) = f (w.lane j))
    (hn : ∀ j < 32, ¬ p j → g j (w.lane j) = w.lane j) : Wakes e s b i w p f := by
  refine ⟨t, _, hexec, ht, rfl, fun j hj => ?_⟩
  rw [Wave.lane_mapLanes _ _ _ hj]
  exact ⟨hp j hj, hn j hj⟩

/-- A lane that becomes live at its slot. -/
def Lane.up (l : Lane) : Lane := { l with st := .live }

/-- A lane that goes on with the next slot. -/
def Lane.pass (l : Lane) : Lane := { l with st := .live, pc := succPc l.pc, paid := false, waitsTo := none }

theorem Core.hasRoom_iff (c : Core) (m : BitVec 4) (n : Nat) :
    c.hasRoom m n = true ↔ ∀ q < 4, m.getLsbD q = true → (lget [] c.reQueues q).length + n ≤ 64 := by
  have hor (q : Nat) : (!m.getLsbD q || decide ((lget [] c.reQueues q).length + n ≤ 64)) = true ↔
      (m.getLsbD q = true → (lget [] c.reQueues q).length + n ≤ 64) := by
    cases m.getLsbD q <;> simp
  simp only [Core.hasRoom, List.all_eq_true, hor, mem_upFrom, Nat.zero_le, true_and, Nat.zero_add]

theorem lget_eq_getD {α : Type} (d : α) (l : List α) (n : Nat) : lget d l n = l.getD n d := by
  induction l generalizing n with
  | nil => rfl
  | cons x t ih =>
    cases n with
    | zero => rfl
    | succ n => exact ih n

/-- The lanes of a wave are its lanes by number. -/
theorem Wave.forall_mem_lanes {w : Wave} (hlen : w.lanes.length = 32) (p : Lane → Prop) :
    (∀ l ∈ w.lanes, p l) ↔ ∀ j < 32, p (w.lane j) := by
  simp only [List.forall_mem_iff_getElem, hlen, Wave.lane, lget_eq_getD]
  refine forall_congr' fun j => forall_congr' fun hj => ?_
  rw [List.getD_eq_getElem _ _ (hlen ▸ hj)]

/-- A lane that waits at a barrier of a BCW at a slot finds it at zero. -/
theorem Block.bcwDone_iff {w : Wave} (hlen : w.lanes.length = 32) (blk : Block) (pc : Pc) : blk.bcwDone w pc = true ↔
    ∀ j < 32, ∀ off, (w.lane j).st = .blocked (.bcw off) → (w.lane j).pc = pc → blk.bcZero off = true := by
  rw [Block.bcwDone, List.all_eq_true, Wave.forall_mem_lanes hlen]
  refine forall_congr' fun j => forall_congr' fun _ => ?_
  split
  · next off hst => 
    simp only [hst, LaneSt.blocked.injEq, Wait.bcw.injEq, forall_eq', Bool.or_eq_true, bne_iff_ne]
    exact imp_iff_not_or.symm
  · next hother => exact ⟨fun _ off hst => absurd hst (hother off), fun _ => rfl⟩

/-- Events that retire stopped blocks find none. -/
theorem State.retireStopped_of_none {s : State} (h : ∀ x ∈ s.blocks, x.2.stopped = none) : s.retireStopped = s := by
  have hfold (l : List (Nat × Block)) (hl : ∀ x ∈ l, x.2.stopped = none) :
      l.foldl (fun s p => match p.2.stopped with | some e => s.retire p.1 e | none => s) s = s := by
    induction l with
    | nil => rfl
    | cons x l ih =>
      rw [List.foldl_cons, hl x List.mem_cons_self]
      exact ih fun y hy => hl y (List.mem_cons_of_mem _ hy)
  exact hfold s.blocks h

/-- No block has stopped where one is replaced by another that has not. -/
theorem State.stopped_setBlock {s : State} (h : ∀ x ∈ s.blocks, x.2.stopped = none) (b : Nat) {blk : Block}
    (hblk : blk.stopped = none) : ∀ x ∈ (s.setBlock b blk).blocks, x.2.stopped = none := by
  intro x hx
  rcases mem_tput hx with rfl | hold
  · exact hblk
  · exact h x hold


/-- A lane once the accesses of its wave may have been performed: one that waited for earlier writes goes on (R266). -/
def State.orderLane (s : State) (b : Nat) (l : Lane) : Lane :=
  match l.st with
  | .blocked (.order sc) => if s.mustWait b sc l.waitsTo then l else l.up
  | _ => l

/-- A sequencer whose stores have become visible goes on (R313). -/
def State.drainedSeq (s : State) (b : Nat) (q : Seq) : Seq :=
  match q.st with
  | .draining => if s.seqStoresOut b then q else { q with st := .running }
  | _ => q

theorem State.orderLane_of_performed {s : State} {b : Nat} {l : Lane} {sc : Scope} (hst : l.st = .blocked (.order sc))
    (h : s.mustWait b sc l.waitsTo = false) : s.orderLane b l = l.up := by
  simp only [State.orderLane, hst, h, Bool.false_eq_true, if_false]

theorem State.orderLane_of_waiting {s : State} {b : Nat} {l : Lane}
    (h : ¬ ∃ sc, l.st = .blocked (.order sc) ∧ s.mustWait b sc l.waitsTo = false) : s.orderLane b l = l := by
  unfold State.orderLane
  split
  · next sc hst =>
    rw [if_pos]
    by_contra hnot
    exact h ⟨sc, hst, Bool.eq_false_iff.mpr hnot⟩
  · rfl

/-- The scope of a lane that waits in ACQP. -/
def Lane.acqpScope (l : Lane) : Option Scope := match l.st with | .blocked (.acqp sc) => some sc | _ => none

theorem Lane.acqpScope_isSome (l : Lane) : l.acqpScope.isSome = true ↔ ∃ sc, l.st = .blocked (.acqp sc) := by
  unfold Lane.acqpScope
  split
  · next sc hst => exact ⟨fun _ => ⟨sc, hst⟩, fun _ => rfl⟩
  · next hother => exact ⟨fun h => (Bool.false_ne_true h).elim, fun ⟨sc, hst⟩ => absurd hst (hother sc)⟩

theorem State.acquire_blocks (s : State) (sc : Option Scope) : (s.acquire sc).blocks = s.blocks := by
  unfold State.acquire
  split <;> rfl

theorem State.acquireAll_blocks (l : List Scope) (s : State) :
    (l.foldl (fun s sc => s.acquire (some sc)) s).blocks = s.blocks := by
  induction l generalizing s with
  | nil => rfl
  | cons sc l ih => exact (ih _).trans (s.acquire_blocks _)

section Events

variable {s : State} {b i : Nat} {blk : Block} {w : Wave} (hb : s.block? b = some blk) (hw : blk.wave? i = some w)
include hb hw

theorem State.wave_onWave (f : Wave → Wave) : (s.onWave b i f).wave? b i = some (f w) := by
  rw [State.onWave_eq (State.wave_eq hb hw), State.wave_setWave hb hw]

/-! ### Sweeps (R38) -/

theorem exec_rotationSweep :
    exec (.rotationSweep b i) s = .next (s.setWave b i (if w.sweepDue then w.takeSnapshot else w)) :=
  congrArg Host.Outcome.next (State.onWave_eq (State.wave_eq hb hw) _)

/-! ### Results (R112) -/

/-- A complete result lands, and its window and holds are gone. -/
theorem exec_lookaheadResultWrite {id : Nat} {p : Pending} (hp : w.pending? id = some p) (hwaiting : p.waiting = 0)
    (hagain : p.again = none) (hacq : p.acq = none) {j : Nat} (hj : j < 32) (hgoing : (w.lane j).isExited = false) :
    exec (.lookaheadResultWrite b i id [] none) s = .next (s.setWave b i (Wave.land
      { w with pend := w.pend.filter fun x => x.id != id, held := w.held.filter fun h => h.pend != some id } p)) := by
  let u := Wave.land { w with pend := w.pend.filter fun x => x.id != id, held := w.held.filter fun h => h.pend != some id } p
  have hperform : s.performAgain b i id = s := by
    simp only [State.performAgain, hb, hw, hp, Wave.canPerform, hagain, Option.isSome_none, Bool.false_and, Bool.not_false, if_true]
  have hready : p.ready = true := by simp only [Pending.ready, hwaiting, hagain, Option.isNone_none, beq_self_eq_true, Bool.true_and]
  have hfinish : s.finishPend b i id = s.setWave b i u := by
    simp only [State.finishPend, State.wave_eq hb hw, hp, hready, if_true, hacq]
    rfl
  have hu : (u.lane j).isExited = false := by
    have hst : (u.lane j).st = (w.lane j).st := congrArg (fun r => r.2.1) (Wave.rest_land _ p j hj)
    rw [Lane.isExited, hst]
    exact hgoing
  have hretire := State.retireIfDone_of_lane (State.block_setWave hb i u) (Block.wave_setWave hw u) (Wave.all_isExited_of_lane hu)
  refine congrArg Host.Outcome.next ?_
  simp only [List.foldl_nil, hperform, hfinish, hretire]
  rfl

/-! ### Waits that end (R290, R293, R504) -/

theorem wakes_sleepWake {j : Nat} (hj : j < 32) {t : Dword} (hst : (w.lane j).st = .blocked (.sleep t)) :
    Wakes (.sleepWake b i j) s b i w (fun n => n = j ∧ t.toNat ≤ s.clk.toNat) Lane.up := by
  refine ⟨_, if t.toNat ≤ s.clk.toNat then w.setLane j (w.lane j).up else w, rfl, ?_, ?_, fun n hn => ?_⟩
  · rw [State.wave_onWave hb hw]
    simp only [hst]
    rfl
  · split
    · exact Wave.setLane_held _ _ _
    · rfl
  · split
    · next hdue =>
      rw [Wave.lane_setLane _ _ _ _ hj]
      refine ⟨fun h => ?_, fun h => if_neg fun hn => h ⟨hn, hdue⟩⟩
      rw [if_pos h.1, h.1]
    · next hlater => exact ⟨fun h => absurd h.2 hlater, fun _ => rfl⟩

theorem wakes_waitResume (hqueue : w.queueNumbers = []) {p : Nat → Prop}
    (hp : ∀ j < 32, p j ↔ s.waitOver b blk w (w.lane j) = true) : Wakes (.waitResume b i) s b i w p Lane.up := by
  have hwave := State.wave_eq hb hw
  have hexec : exec (.waitResume b i) s = .next (s.onWave b i fun u => u.mapLanes fun _ l =>
      if s.waitOver b blk u l then l.up else l) := by
    change execWaitResume b i s = _
    simp only [execWaitResume, hb, hwave, hqueue]
    rfl
  refine wakes_of_mapLanes hexec (State.wave_onWave hb hw _) (fun j hj h => ?_) fun j hj h => ?_
  · rw [if_pos ((hp j hj).mp h)]
  · rw [if_neg fun hover => h ((hp j hj).mpr hover)]

/-! ### Accesses performed (R266) -/


theorem wakes_accessPerformed (hcommit : w.commit = []) (hstopped : ∀ x ∈ s.blocks, x.2.stopped = none) :
    Wakes (.accessPerformed b i) s b i w
      (fun j => ∃ sc, (w.lane j).st = .blocked (.order sc) ∧ s.mustWait b sc (w.lane j).waitsTo = false) Lane.up := by
  let u := w.mapLanes fun _ => s.orderLane b
  let y : Block := { blk.setWave i u with seq := s.drainedSeq b blk.seq }
  have hmore : s.commitMore b i = s.setWave b i w := by
    have hempty : ({ w with commit := [] } : Wave) = w := by rw [← hcommit]
    simp only [State.commitMore, hb, hw, hcommit, State.commitGo]
    exact (State.onWave_eq (State.wave_eq hb hw) _).trans (congrArg (s.setWave b i) hempty)
  have hwaits (sc : Scope) (n : Option Nat) : (s.setWave b i w).mustWait b sc n = s.mustWait b sc n := by
    rw [State.setWave_eq_setBlock hb]
    rfl
  have hwoken : ((s.commitMore b i).onWave b i fun x => x.mapLanes fun _ l => match l.st with
      | .blocked (.order sc) => if (s.commitMore b i).mustWait b sc l.waitsTo ||
          !((((s.commitMore b i).wave? b i).map (·.commit.isEmpty)).getD true) then l else { l with st := .live }
      | _ => l) = s.setWave b i u := by
    simp only [hmore, hwaits, State.wave_setWave hb hw, State.onWave_setWave hb hw, Option.map_some, Option.getD_some, hcommit,
      List.isEmpty_nil, Bool.not_true, Bool.or_false]
    rfl
  have hub : (s.setWave b i u).block? b = some (blk.setWave i u) := State.block_setWave hb i u
  have hrun : exec (.accessPerformed b i) s = .next (s.setBlock b y).retireStopped := by
    refine congrArg Host.Outcome.next (congrArg State.retireStopped ?_)
    refine (congrArg (State.onSeq · b (s.drainedSeq b)) hwoken).trans ?_
    rw [State.onSeq, State.onBlock_eq hub, State.setWave_eq_setBlock hb, State.setBlock_setBlock]
    rfl
  have hnone : y.stopped = none := hstopped (b, blk) (mem_of_tfind hb)
  rw [State.retireStopped_of_none (State.stopped_setBlock hstopped b hnone)] at hrun
  have hyw : (s.setBlock b y).wave? b i = some u :=
    State.wave_eq ((State.block_setBlock s b b y).trans (if_pos rfl)) (Block.wave_setWave hw u)
  refine wakes_of_mapLanes hrun hyw (fun j _ h => ?_) fun j _ h => ?_
  · obtain ⟨sc, hst, hperformed⟩ := h
    exact State.orderLane_of_performed hst hperformed
  · exact State.orderLane_of_waiting h

/-! ### Promotions (R278) -/

theorem exec_acqpComplete_acked {n : Nat} (h : w.acks.filter (· != n) ≠ []) :
    exec (.acqpComplete b ⟨i, some n⟩) s = .next (s.setWave b i { w with acks := w.acks.filter (· != n) }) := by
  have hset := State.onWave_eq (State.wave_eq hb hw) fun u => { u with acks := u.acks.filter (· != n) }
  have hleft : (w.acks.filter (· != n)).isEmpty = false := by rw [List.isEmpty_eq_false_iff]; exact h
  change execAcqpComplete b ⟨i, some n⟩ s = _
  simp only [execAcqpComplete, hset, State.wave_setWave hb hw, hleft, Bool.not_false, or_true, if_true]

theorem wakes_acqpComplete (hserved : ∀ x ∈ s.cores, ∀ p ∈ x.2.promos, p.local? ≠ some (b, i)) (hacks : w.acks = []) :
    Wakes (.acqpComplete b ⟨i, none⟩) s b i w (fun j => ∃ sc, (w.lane j).st = .blocked (.acqp sc)) Lane.pass := by
  have hwave := State.wave_eq hb hw
  have hout : s.promoOut b i = false := by
    simp only [State.promoOut, List.any_eq_false, beq_iff_eq, Bool.not_eq_true]
    exact hserved
  let m := lanesWhere fun j => (w.lane j).acqpScope.isSome
  let s2 := (w.lanes.filterMap Lane.acqpScope).foldl (fun s sc => s.acquire (some sc)) s
  have hexec : exec (.acqpComplete b ⟨i, none⟩) s = .next (s2.onWave b i fun x => x.wakeNext m) := by
    change execAcqpComplete b ⟨i, none⟩ s = _
    simp only [execAcqpComplete, hwave, hout, hacks, List.isEmpty_nil]
    rfl
  have hb2 : s2.block? b = some blk := by
    rw [State.block?, State.acquireAll_blocks]
    exact hb
  have hm (j : Nat) (hj : j < 32) : m.getLsbD j = true ↔ ∃ sc, (w.lane j).st = .blocked (.acqp sc) := by
    rw [getLsbD_lanesWhere, decide_eq_true hj, Bool.true_and, Lane.acqpScope_isSome]
  refine wakes_of_mapLanes hexec (State.wave_onWave hb2 hw _) (fun j hj h => ?_) fun j hj h => ?_
  · rw [if_pos ((hm j hj).mpr h)]
    rfl
  · rw [if_neg fun hin => h ((hm j hj).mp hin)]

end Events

end Sys2Proof.Machine
end

section
/-! SUPPORT. What happens to a wave between its instructions: WAITA's rereads, holds, and refetched lines (R95, R237, R250, R511). -/

namespace Sys2Proof.Machine

theorem upFrom_eq_range' (lo n : Nat) : upFrom lo n = List.range' lo n := by
  induction n generalizing lo with
  | zero => rfl
  | succ n ih => rw [upFrom, ih, List.range'_succ]

theorem upFrom_zero_eq_range (n : Nat) : upFrom 0 n = List.range n := by rw [upFrom_eq_range', List.range_eq_range']

/-! ### WAITA (R511) -/

/-- The test of WAITA, of a word and its comparand as numbers. -/
def WaitHolds (cmp : WCmp) (v y : Nat) : Prop :=
  match cmp with
  | .eq => v = y | .ne => v ≠ y | .ge => y ≤ v | .lt => v < y | .mask => v &&& y ≠ 0

theorem waitTest_iff (cmp : WCmp) {v : Nat} (hv : v < 2 ^ 64) (y : Dword) :
    waitTest cmp (BitVec.ofNat 64 v) y = true ↔ WaitHolds cmp v y.toNat := by
  have hnat : (BitVec.ofNat 64 v).toNat = v := by rw [BitVec.toNat_ofNat, Nat.mod_eq_of_lt hv]
  cases cmp with
  | eq => rw [waitTest, beq_iff_eq, BitVec.toNat_eq, hnat]; rfl
  | ne => rw [waitTest, bne_iff_ne, ne_eq, BitVec.toNat_eq, hnat]; rfl
  | ge => rw [waitTest, decide_eq_true_iff, hnat]; rfl
  | lt => rw [waitTest, decide_eq_true_iff, hnat]; rfl
  | mask => rw [waitTest, bne_iff_ne, ne_eq, BitVec.toNat_eq, BitVec.toNat_and, hnat]; rfl

section Events

variable {s : State} {b i : Nat} {blk : Block} {w : Wave} (hb : s.block? b = some blk) (hw : blk.wave? i = some w)
include hb hw

/-- A word of this package outside a region is read where the core sees it. -/
theorem exec_waitaReread {j : Nat} {x : WaitA} {va : Nat} {leaf : Leaf} (hst : (w.lane j).st = .blocked (.waita x))
    (hsteer : s.steer blk i j x.ea.toNat (4 * regs64 x.w64) = .global va) (hlocal : s.isLocal va = true)
    (hleaf : s.translate blk.ctx va .read = .ok leaf) (hregion : w.inRegion = false) (hsound : s.isPoisoned leaf.sa = false)
    (hhome : s.accessWaits leaf.sa = false) :
    exec (.waitaReread b i j none) s = .next (s.waitaTry b i j x (BitVec.ofNat 64 (ofBytes
      ((upFrom 0 (4 * regs64 x.w64)).map fun n => s.viewByte (coreOf b) (leaf.sa + n))))) := by
  have hbuffered (l : Loc) : w.buffered l = none := by rw [Wave.buffered, hregion]; rfl
  have hat : s.atOf blk.ctx .read (.global va) = .ok (.home va leaf false) := by simp only [State.atOf, hlocal, hleaf, if_true]
  change execWaitaReread b i j none s = _
  simp only [execWaitaReread, hb, State.wave_eq hb hw, hst, hsteer, hlocal, if_true, State.waitaHere, hat, State.readWaits, hhome,
    State.readsPoison, hsound, Bool.false_and, Bool.false_eq_true, if_false, State.loadAt, hbuffered, Option.getD_none]

theorem wakes_waitaReread {j : Nat} (hj : j < 32) {x : WaitA} {va : Nat} {leaf : Leaf} (hst : (w.lane j).st = .blocked (.waita x))
    (hsteer : s.steer blk i j x.ea.toNat (4 * regs64 x.w64) = .global va) (hlocal : s.isLocal va = true)
    (hleaf : s.translate blk.ctx va .read = .ok leaf) (hregion : w.inRegion = false) (hsound : s.isPoisoned leaf.sa = false)
    (hhome : s.accessWaits leaf.sa = false) :
    Wakes (.waitaReread b i j none) s b i w (fun n => n = j ∧ WaitHolds x.cmp (ofBytes
      ((List.range (4 * regs64 x.w64)).map fun n => s.viewByte (coreOf b) (leaf.sa + n))) x.comparand.toNat) Lane.pass := by
  have hexec := exec_waitaReread hb hw hst hsteer hlocal hleaf hregion hsound hhome
  rw [upFrom_zero_eq_range] at hexec
  generalize hbytes : (List.range (4 * regs64 x.w64)).map (fun n => s.viewByte (coreOf b) (leaf.sa + n)) = bytes at hexec ⊢
  have hlt : ofBytes bytes < 2 ^ 64 := by
    refine (ofBytes_lt bytes).trans_le (Nat.pow_le_pow_right (by norm_num) ?_)
    rw [← hbytes, List.length_map, List.length_range, regs64]
    split <;> norm_num
  rw [State.waitaTry] at hexec
  by_cases htest : waitTest x.cmp (BitVec.ofNat 64 (ofBytes bytes)) x.comparand = true
  · have hholds := (waitTest_iff x.cmp hlt x.comparand).mp htest
    have hb' : (s.acquire x.acq).block? b = some blk := by
      rw [State.block?, State.acquire_blocks]
      exact hb
    rw [if_pos htest] at hexec
    refine ⟨_, _, hexec, State.wave_onWave hb' hw _, Wave.setLane_held _ _ _, fun n _ => ?_⟩
    rw [Wave.lane_setLane _ _ _ _ hj]
    refine ⟨fun h => ?_, fun h => if_neg fun hn => h ⟨hn, hholds⟩⟩
    rw [if_pos h.1, h.1]
    rfl
  · rw [if_neg htest] at hexec
    refine ⟨_, w, hexec, State.wave_eq hb hw, rfl, fun n _ => ⟨fun h => ?_, fun _ => rfl⟩⟩
    exact absurd ((waitTest_iff x.cmp hlt x.comparand).mpr h.2) htest

/-! ### Holds (R237, R250) -/

/-- A wave with no issued instruction outstanding drops the holds of a test, and nothing is resumed. -/
theorem State.releaseHeld_of_idle (hpend : w.pend = []) {j : Nat} (hgoing : (w.lane j).isExited = false) (p : Held → Bool) :
    s.releaseHeld b i p = s.setWave b i { w with held := w.held.filter fun h => !p h } := by
  let u : Wave := { w with held := w.held.filter fun h => !p h }
  have hidle (id : Nat) (h : Held) : (s.setWave b i u).resumePend b i id h = s.setWave b i u := by
    have hnone : u.pending? id = none := by rw [Wave.pending?, show u.pend = [] from hpend]; rfl
    simp only [State.resumePend, State.wave_setWave hb hw, hnone]
  have hfold (l : List Held) : l.foldl (fun s h => match h.pend with
      | none => s
      | some id => s.resumePend b i id h) (s.setWave b i u) = s.setWave b i u := by
    induction l with
    | nil => rfl
    | cons h l ih =>
      rw [List.foldl_cons]
      cases h.pend with
      | none => exact ih
      | some id => simp only [hidle]; exact ih
  have hretire := State.retireIfDone_of_lane (State.block_setWave hb i u) (Block.wave_setWave hw u)
    (Wave.all_isExited_of_lane (w := u) (i := j) hgoing)
  simp only [State.releaseHeld, State.wave_eq hb hw]
  exact (congrArg (State.retireIfDone · b) (hfold _)).trans hretire

theorem State.performAll_of_idle (hpend : w.pend = []) {j : Nat} (hgoing : (w.lane j).isExited = false) :
    s.performAll b i = s := by
  simp only [State.performAll, State.wave_eq hb hw, hpend, List.filter_nil, List.foldl_nil]
  exact State.retireIfDone_of_lane hb hw (Wave.all_isExited_of_lane hgoing)

theorem exec_translationRetry (hi : i < 64) (hpend : w.pend = []) {j : Nat} (hgoing : (w.lane j).isExited = false) :
    ∃ t, exec (.translationRetry b i) s = .next t ∧ t.wave? b i =
      some { w with held := w.held.filter fun h => !s.stray b h.ctx h.granule h.remote } := by
  let u : Wave := { w with held := w.held.filter fun h => !s.stray b h.ctx h.granule h.remote }
  have hub := State.block_setWave hb i u
  have huw := Block.wave_setWave hw u
  have hrelease := State.releaseHeld_of_idle hb hw hpend hgoing fun h => s.stray b h.ctx h.granule h.remote
  have hperform : (s.setWave b i u).performAll b i = s.setWave b i u := State.performAll_of_idle hub huw hpend (j := j) hgoing
  have hexec : exec (.translationRetry b i) s =
      .next ((s.setWave b i u).onSeq b fun q => q.unhold fun g => s.stray b blk.ctx g (!s.ownGranule g)) := by
    change execTranslationRetry b i s = _
    simp only [execTranslationRetry, if_neg (show ¬ 128 ≤ i by omega), if_neg (show ¬ 64 ≤ i by omega), hrelease, hb]
    exact congrArg (fun t => Host.Outcome.next (State.onSeq t b _)) hperform
  refine ⟨_, hexec, ?_⟩
  rw [State.onSeq, State.onBlock_eq hub]
  exact State.wave_eq ((State.block_setBlock _ b b _).trans (if_pos rfl)) huw

/-- A fault-pending reply holds the lanes of a WAITA outside a region at their slot. -/
theorem exec_faultPendingReply (hi : i < 64) {m : LaneSet} (hm : m ≠ 0) (g : Nat) (hfree : ∀ p ∈ w.pend, p.waiting &&& m = 0)
    (hwaita : ∀ j < 32, m.getLsbD j = true → ∃ x, (w.lane j).st = .blocked (.waita x)) (hregion : w.inRegion = false) :
    exec (.faultPendingReply b i m g) s = .next (s.setWave b i
      { w.mapLanes fun j l => if m.getLsbD j then l.up else l with
        held := w.held ++ [{ lanes := m, ctx := blk.ctx, granule := g, remote := true, abortWait := false }] }) := by
  have hasked : w.askedAt m g = none := by
    rw [Wave.askedAt, List.find?_eq_none]
    intro p hp hreq
    obtain ⟨r, -, hr⟩ := List.any_eq_true.mp hreq
    simp only [Bool.and_eq_true] at hr
    obtain ⟨⟨⟨hin, hwait⟩, -⟩, -⟩ := hr
    have hboth : (p.waiting &&& m).getLsbD r.lane = true := by rw [BitVec.getLsbD_and, hwait, hin]; rfl
    rw [hfree p hp] at hboth
    simp at hboth
  have hall : m &&& lanesWhere (fun j => (w.lane j).inWaita) = m := by
    ext j hj
    rw [← BitVec.getLsbD_eq_getElem hj, ← BitVec.getLsbD_eq_getElem hj, BitVec.getLsbD_and, getLsbD_lanesWhere]
    cases hin : m.getLsbD j with
    | false => rfl
    | true =>
      obtain ⟨x, hx⟩ := hwaita j hj hin
      simp [hj, Lane.inWaita, hx]
  change execFaultPendingReply b i m g s = _
  simp only [execFaultPendingReply, if_neg (show ¬ 128 ≤ i by omega), if_neg (show ¬ 64 ≤ i by omega), hb,
    State.wave_eq hb hw, hasked, State.waitFault, hall, hregion, Bool.false_eq_true, if_false, ne_eq, not_false_eq_true, if_true, hm,
    State.onWave_eq (State.wave_eq hb hw)]
  rfl

end Events

/-! ### Refetched lines (R95) -/

theorem exec_lineRefetch {s : State} {core ctx va : Nat} {leaf : Leaf} (hleaf : s.translate ctx (lineAt va) .exec = .ok leaf) :
    ∃ t, exec (.lineRefetch core ctx va) s = .next t ∧ tfind (t.core core).icache (leaf.sa / 64) =
      if (parityBad (lineOfBytes (s.viewBytes core leaf.sa 64))).isSome || s.isPoisoned leaf.sa then none
      else some (lineOfBytes (s.viewBytes core leaf.sa 64)) := by
  let l := lineOfBytes (s.viewBytes core leaf.sa 64)
  let s1 := s.setCore core { s.core core with
    refetch := sdel (s.core core).refetch (leaf.sa / 64), icache := tdel (s.core core).icache (leaf.sa / 64) }
  have hexec : exec (.lineRefetch core ctx va) s =
      .next (if (parityBad l).isSome || s.isPoisoned leaf.sa then s1 else s1.keepLine core leaf.sa l) := by
    change execLineRefetch core ctx va s = _
    simp only [execLineRefetch, hleaf]
    rfl
  refine ⟨_, hexec, ?_⟩
  split
  · rw [State.core_setCore, if_pos rfl, tfind_tdel, if_pos rfl]
  · rw [State.icache_keepLine, if_pos rfl]

/-- Settles O55: each event's run, with the lanes that it wakes. -/
theorem waveEvents : Obligations.WaveEvents := by
  unfold Obligations.WaveEvents
  intro s b i blk w hb hw hlen gives wakes up pass going
  refine ⟨fun hdue hsnap => ?_, fun hearly => ?_, fun id p hgoing hfind hwaiting hagain hacq => ?_,
    fun j hj t hst => wakes_sleepWake hb hw hj hst, fun hqueue => ?_, wakes_accessPerformed hb hw, wakes_acqpComplete hb hw,
    fun n => exec_acqpComplete_acked hb hw, fun j hj x va leaf hst hsteer hlocal hleaf hregion hsound hhome => ?_,
    fun hi hgoing hpend => ?_, fun m g hi hm hfree hwaita hregion => ?_, fun ctx va leaf => exec_lineRefetch⟩
  · have hsweep : w.sweepDue = true := by simp [Wave.sweepDue, hdue, hsnap]
    refine ⟨w.takeSnapshot.rot, ?_, rfl, rfl, rfl⟩
    refine (exec_rotationSweep hb hw).trans ?_
    rw [if_pos hsweep]
    rfl
  · have hsweep : w.sweepDue = false := by simp [Wave.sweepDue, hearly]
    refine (exec_rotationSweep hb hw).trans ?_
    rw [hsweep]
    rfl
  · obtain ⟨j, hj, hlane⟩ := hgoing
    exact exec_lookaheadResultWrite hb hw hfind hwaiting hagain hacq hj hlane
  · refine wakes_waitResume hb hw hqueue fun j hj => ?_
    simp only [State.waitOver]
    split
    · next hst => simp only [hst, ne_eq, Option.isSome_iff_ne_none]
    · next m n hst => simp only [hst, Core.hasRoom_iff]
    · next off hst => simp only [hst, Block.bcwDone_iff hlen]
    · next hslot hroom hbcw =>
      split
      · next off hst => exact absurd hst (hbcw off)
      · next m n hst => exact absurd hst (hroom m n)
      · next hst => exact absurd hst hslot
      · exact ⟨False.elim, fun h => (Bool.false_ne_true h).elim⟩
  · have hz : (if x.w64 then 8 else 4) = 4 * regs64 x.w64 := by
      rw [regs64]
      split <;> rfl
    rw [hz] at hsteer ⊢
    exact wakes_waitaReread hb hw hj hst hsteer hlocal hleaf hregion hsound hhome
  · obtain ⟨j, hj, hlane⟩ := hgoing
    obtain ⟨t, hexec, ht⟩ := exec_translationRetry hb hw hi hpend hlane
    refine ⟨t, _, hexec, ht, rfl, List.filter_congr fun h _ => ?_⟩
    simp [State.stray, State.inTable]
  · refine ⟨_, exec_faultPendingReply hb hw hi hm g hfree hwaita hregion, fun j hj hin => ?_, rfl⟩
    refine (Wave.lane_mapLanes w (fun j l => if m.getLsbD j then l.up else l) j hj).trans ?_
    rw [if_pos hin]
    rfl

end Sys2Proof.Machine
end

section
/-! SUPPORT. What a write-back leaves unchanged, and releases, results and completions of a wave's instruction (R256, R266, R333). -/

namespace Sys2Proof.Machine

/-! ### Write-backs change stored bytes and what goes with them -/

/-- Between two states only stored bytes, their tags and poison, the dirty bytes of caches and the directory's part differ. -/
def State.OnlyStores (s t : State) : Prop :=
  t = { s with
    mem := t.mem, tags := t.tags, poison := t.poison, sound := t.sound, dirty := t.dirty, dir := t.dir, out := t.out
    invalWait := t.invalWait }

theorem State.onlyStores_refl (s : State) : s.OnlyStores s := rfl

theorem State.onlyStores_trans {s t u : State} (h : s.OnlyStores t) (h' : t.OnlyStores u) : s.OnlyStores u := by
  unfold State.OnlyStores at *
  rw [h', h]

theorem State.onlyStores_foldl {α : Type} {f : State → α → State} (hf : ∀ (s : State) x, s.OnlyStores (f s x)) (l : List α) (s : State) :
    s.OnlyStores (l.foldl f s) := by
  induction l generalizing s with
  | nil => exact s.onlyStores_refl
  | cons x l ih => exact State.onlyStores_trans (hf s x) (ih _)

theorem State.onlyStores_homeWrite (s : State) (sa : Nat) (bs : List Byte) : s.OnlyStores (s.homeWrite sa bs) := by
  unfold State.OnlyStores
  rw [State.homeWrite_frame]

theorem State.onlyStores_putDirty (s : State) (d : DirtyByte) : s.OnlyStores (s.putDirty d) := rfl

theorem State.onlyStores_heal (s : State) (line : Nat) : s.OnlyStores (s.heal line) := rfl

theorem State.onlyStores_dirty (s : State) (l : List DirtyByte) : s.OnlyStores { s with dirty := l } := rfl

theorem State.onlyStores_backDie (s : State) (p : DirtyByte → Bool) : s.OnlyStores (s.backDie p) := by
  unfold State.backDie
  refine State.onlyStores_trans (s.onlyStores_dirty _) (State.onlyStores_foldl ?_ _ _)
  exact fun s d => s.onlyStores_putDirty { d with lvl := 1 }

theorem State.onlyStores_backHome (s : State) (p : DirtyByte → Bool) : s.OnlyStores (s.backHome p) := by
  unfold State.backHome
  refine State.onlyStores_trans (s.onlyStores_dirty _) (State.onlyStores_trans (State.onlyStores_foldl ?_ _ _)
    (State.onlyStores_foldl State.onlyStores_heal _ _))
  exact fun s d => s.onlyStores_homeWrite d.sa [d.val]

/-- A release at .sys writes back to the home. -/
theorem State.onlyStores_writeBackAt_sys (s : State) (core : Nat) : s.OnlyStores (s.writeBackAt core .sys) :=
  State.onlyStores_trans (s.onlyStores_backDie _) (State.onlyStores_backHome _ _)

section OnlyStores

variable {s t : State} (h : s.OnlyStores t)
include h

theorem State.OnlyStores.blocks : t.blocks = s.blocks := by rw [h]
theorem State.OnlyStores.launches : t.launches = s.launches := by rw [h]
theorem State.OnlyStores.nodes : t.nodes = s.nodes := by rw [h]
theorem State.OnlyStores.cur : t.cur? = s.cur? := by rw [h]; rfl

end OnlyStores

/-! ### The instruction in hand of a wave, with one participating lane -/

theorem lanesOf_single {i : Nat} (hi : i < 32) : lanesOf (BitVec.ofNat 32 (2 ^ i)) = [i] := by
  have hall : ∀ i : Fin 32, lanesOf (BitVec.ofNat 32 (2 ^ i.val)) = [i.val] := by decide
  exact hall ⟨i, hi⟩

theorem laneSet_single {i : Nat} (hi : i < 32) : laneSet [i] = BitVec.ofNat 32 (2 ^ i) := by
  have hall : ∀ i : Fin 32, laneSet [i.val] = BitVec.ofNat 32 (2 ^ i.val) := by decide
  exact hall ⟨i, hi⟩

theorem State.recur_eq {s : State} {c c' : Cur} (h : s.cur? = some c) : s.recur c' = c := by
  simp only [State.recur, h]

theorem State.closing_eq {s : State} {c : Cur} (h : c.wave.inRegion = false) (go : State → Cur → State) : s.closing c go = go s c := by
  simp only [State.closing, h, Bool.false_eq_true, if_false]

theorem State.releaseSys_eq {s : State} {c : Cur} {p : LaneSet} (hagent : c.agent = .wave c.bid c.wid) (h : Released s c p .sys)
    (go : State → State) : s.releaseSys c p go = go (s.writeBackAt c.core .sys) := by
  have hwait : (s.writeBackAt c.core .sys).mustWaitCur c p .sys = false := by
    simp only [State.mustWaitCur, hagent]
    exact h
  simp only [State.releaseSys, hagent, State.release, hwait, Bool.false_eq_true, if_false]

/-- What a wave holds once its instruction has completed. -/
theorem State.complete_wave {c : Cur} (hagent : c.agent = .wave c.bid c.wid) (s : State) (k : Ctl) (b c' d : Opnd) (r : Result)
    {a : Opnd} {n : Nat} {p : LaneSet} {f : Nat → Quad} {tag : Nat → Bool} (hr : r.Gives a n p f tag) :
    ∃ w, s.complete c k b c' d r = s.setWave c.bid c.wid w ∧ RanWave c.wave w k c.active a n p f tag r.flags := by
  refine ⟨_, ?_, Wave.complete_ran c k b c' d r hr⟩
  simp only [State.complete, State.putCur, State.cpAdvance, hagent]

end Sys2Proof.Machine
end

section
/-! SUPPORT. LAUNCH, GSIG, CANCEL and CNTR of one lane of a wave (R61 to R63, R329, R330, R333, R334, R409, R417, R436, R447). -/

namespace Sys2Proof.Machine

/-! ### Results of one lane -/

theorem writesOf_single {p : LaneSet} {i : Nat} (hp : lanesOf p = [i]) (a : Opnd) (n : Nat) (f : Nat → Quad) :
    writesOf a n p f = writesOf a n p fun _ => f i := by
  cases a <;> simp [writesOf, highLane, hp]

theorem writesOf_zero (a : Opnd) (n : Nat) (f : Nat → Quad) : writesOf a n 0 f = [] := by
  have hnone : lanesOf 0 = [] := (lanesOf_eq_nil 0).mpr rfl
  cases a <;> simp only [writesOf, highLane, hnone, List.flatMap_nil, List.getLast?_nil]

theorem and_not_laneSet_nil (m : LaneSet) : m &&& ~~~laneSet [] = m := by
  refine laneSet_ext fun j hj => ?_
  have hnone : (laneSet []).getLsbD j = false := by simp [getLsbD_laneSet]
  rw [BitVec.getLsbD_and, BitVec.getLsbD_not, hnone]
  simp only [hj, decide_true, Bool.not_false, Bool.and_true]

/-- What a write leaves depends on the registers and tags of the lanes alone. -/
theorem wrote_of_lanes {w u u' : Wave} {a : Opnd} {n : Nat} {p : LaneSet} {f : Nat → Quad} {tag : Nat → Bool}
    (h : Wrote w u a n p f tag) (hlane : ∀ j < 32, (u'.lane j).v = (u.lane j).v ∧ (u'.lane j).tags = (u.lane j).tags)
    (huni : u'.w = u.w) : Wrote w u' a n p f tag := by
  refine ⟨fun j hj r => ?_, fun r => ?_, fun j hj q hq => ?_⟩
  · rw [← h.lane j hj r, Lane.reg, (hlane j hj).1]
    rfl
  · rw [← h.uni r, Wave.ureg, huni]
    rfl
  · rw [← h.tags j hj q hq, (hlane j hj).2]

/-- The instruction leaves a value in its destination, its active lanes move on, and something holds of the state. -/
def LeavesValue (e : Instr) (s : State) (c : Cur) (a : Opnd) (n : Nat) (p : LaneSet) (v : Dword) (f : State → Prop) : Prop :=
  ∃ (t : State) (w : Wave), exec e s = .next t ∧ t.wave? c.bid c.wid = some w ∧
    Wrote c.wave w a n p (fun _ => v.setWidth 128) noTag ∧
    (∀ j < 32, (w.lane j).pc = if c.active.getLsbD j = true then succPc (c.wave.lane j).pc else (c.wave.lane j).pc) ∧ f t

/-- An instruction whose single lane completes with a value leaves it. -/
theorem leavesValue_of_complete {e : Instr} {s s1 : State} {c : Cur} {k : Ctl} {blk : Block} {a b : Opnd} {n i : Nat} {p : LaneSet}
    {q : Nat → Quad} {v : Dword} {fl : Flags} {f : State → Prop} (hagent : c.agent = .wave c.bid c.wid) (hla : k.la = 0)
    (hb : s1.block? c.bid = some blk) (hw : blk.wave? c.wid = some c.wave) (hp : lanesOf p = [i]) (hq : q i = v.setWidth 128)
    (hexec : exec e s = .next (s1.complete c k b .zero .zero { writes := writesOf a n p q, flags := fl }))
    (hf : ∀ w, f (s1.setWave c.bid c.wid w)) : LeavesValue e s c a n p v f := by
  rw [writesOf_single hp, hq] at hexec
  obtain ⟨w, hset, hran⟩ := State.complete_wave hagent s1 k b .zero .zero _
    (Result.gives_plain a n p (fun _ => v.setWidth 128) fl)
  rw [hset] at hexec
  exact ⟨_, w, hexec, State.wave_setWave hb hw w, (hran.now hla).1, hran.moved.pc, hf w⟩

/-! ### CNTR (R417) -/

section OneLane

variable {s : State} {c : Cur} {k : Ctl} {blk : Block} {a b : Opnd} {i : Nat} (hof : OfWave s c blk)
  (hone : s.parts c k = BitVec.ofNat 32 (2 ^ i)) (hi : i < 32) (htrap : s.paramTrap c (s.parts c k) 1 [b] = none)
include hof hone hi htrap

theorem exec_cntr : exec (.cntr k a b) s = .next (State.complete
    { s with peerCopies := if s.levelDone c.ctx (s.rd32 c b i) then [] else s.peerCopies } c k b .zero .zero
    { writes := writesOf a 2 (s.parts c k) fun j => q64 (s.cntrValue c.ctx (s.rd32 c b j))
      flags := s.paramFlags c (s.parts c k) 1 [b] }) := by
  have hlanes : lanesOf (s.parts c k) = [i] := by rw [hone, lanesOf_single hi]
  refine (onCur_eq hof.1 _).trans (congrArg _ ?_)
  simp only [htrap, hlanes, List.any_cons, List.any_nil, Bool.or_false]
  cases s.levelDone c.ctx (s.rd32 c b i) <;> rfl

/-! ### CANCEL (R409) -/

theorem exec_cancel (hard : Bool) {s1 : State} {st : Word} (hlane : s.cancelLane c.ctx (s.rd32 c b i) hard = (s1, st)) :
    exec (.cancel k hard a b) s = .next (((s1.complete (s1.recur c) k b .zero .zero
      { writes := writesOf a 1 (s.parts c k) fun _ => q32 st, flags := s.paramFlags c (s.parts c k) 1 [b] }).retireStopped)) := by
  have hlanes : lanesOf (s.parts c k) = [i] := by rw [hone, lanesOf_single hi]
  have hhandle : handleOf [(i, st)] i = st := by simp [handleOf]
  refine (onCur_eq hof.1 _).trans (congrArg _ ?_)
  simp only [htrap, hlanes, List.map_cons, List.map_nil, State.cancelAll, hlane]
  rw [writesOf_single hlanes, hhandle]

end OneLane

/-- Completing an instruction stops no block. -/
theorem State.retireStopped_complete {s : State} {c : Cur} {blk : Block} (hagent : c.agent = .wave c.bid c.wid)
    (hb : s.block? c.bid = some blk) (hstopped : ∀ x ∈ s.blocks, x.2.stopped = none) (k : Ctl) (b c' d : Opnd) (r : Result) :
    (s.complete c k b c' d r).retireStopped = s.complete c k b c' d r := by
  refine State.retireStopped_of_none ?_
  simp only [State.complete, State.putCur, State.cpAdvance, hagent, State.setWave_eq_setBlock hb]
  exact State.stopped_setBlock hstopped c.bid (hstopped (c.bid, blk) (mem_of_tfind hb))

/-- A CANCEL that changes no level leaves its status. -/
theorem leavesValue_cancel {s : State} {c : Cur} {k : Ctl} {blk : Block} {a b : Opnd} {i : Nat} (hof : OfWave s c blk)
    (hla : k.la = 0) (hone : s.parts c k = BitVec.ofNat 32 (2 ^ i)) (hi : i < 32)
    (htrap : s.paramTrap c (s.parts c k) 1 [b] = none) (hstopped : ∀ x ∈ s.blocks, x.2.stopped = none) (hard : Bool) {st : Word}
    (hlane : s.cancelLane c.ctx (s.rd32 c b i) hard = (s, st)) :
    LeavesValue (.cancel k hard a b) s c a 1 (s.parts c k) (st.setWidth 64) fun t => t.launches = s.launches := by
  obtain ⟨hc, hagent, hb⟩ := hof
  obtain ⟨blk', hb', hw⟩ := State.cur_wave hc hagent
  have hexec := exec_cancel (a := a) ⟨hc, hagent, hb⟩ hone hi htrap hard hlane
  rw [State.recur_eq hc, State.retireStopped_complete hagent hb hstopped] at hexec
  have hwide : q32 st = (st.setWidth 64 : Dword).setWidth 128 := by
    refine BitVec.eq_of_toNat_eq ?_
    have hlt := st.isLt
    simp only [q32, BitVec.toNat_setWidth]
    omega
  refine leavesValue_of_complete hagent hla hb' hw (hone ▸ lanesOf_single hi) hwide hexec fun w => ?_
  rw [State.setWave_eq_setBlock hb]
  rfl

/-! ### Cancelling a launch whose blocks are all placed (R63) -/

theorem State.unlinkAll_frame (l : List (Nat × Block)) (s : State) :
    (l.foldl (fun s p => s.unlink p.1) s).blocks = s.blocks ∧ (l.foldl (fun s p => s.unlink p.1) s).launches = s.launches := by
  induction l generalizing s with
  | nil => exact ⟨rfl, rfl⟩
  | cons p l ih => exact ih (s.unlink p.1)

/-- The counter of a cancelled launch, and its blocks, which stop. -/
theorem State.cancelLaunch_placed {s : State} {l : Nat} (hdone : (s.launch l).counter.done = false)
    (halive : (s.launch l).alive = true) (hplaced : recN (s.launch l).record ≤ (s.launch l).nextBlk)
    (hrerun : (s.launch l).rerun = []) (hsaved : ∀ v ∈ s.saved, v.blk.launch ≠ l) (hard : Bool) :
    ((s.cancelLaunch l hard).launch l).counter =
      { (s.launch l).counter with cancel := true, hard := (s.launch l).counter.hard || hard } ∧
    (s.cancelLaunch l hard).blocks = s.blocks.map fun p =>
      (p.1, if p.2.launch = l then { p.2 with stopped := some (p.2.stopped.getD .cancelled) } else p.2) := by
  have hgo : ¬ ((s.launch l).counter.done = true ∨ (!(s.launch l).alive) = true) := by simp [hdone, halive]
  have hnone : recN (s.launch l).record - (s.launch l).nextBlk + (s.launch l).rerun.length +
      (s.saved.filter fun v => v.blk.launch == l).length = 0 := by
    have hsaved' : (s.saved.filter fun v => v.blk.launch == l) = [] := by
      rw [List.filter_eq_nil_iff]
      exact fun v hv => by simpa using hsaved v hv
    rw [hsaved', hrerun, List.length_nil, List.length_nil]
    omega
  have hmap : (fun p : Nat × Block => (p.1, if p.2.launch = l then { p.2 with stopped := some (p.2.stopped.getD .cancelled) }
      else p.2)) = fun p => if p.2.launch == l then (p.1, { p.2 with stopped := some (p.2.stopped.getD .cancelled) }) else p := by
    funext p
    simp only [beq_iff_eq]
    split <;> rfl
  rw [hmap, State.cancelLaunch]
  simp only [if_neg hgo, hnone, if_true]
  have hunlinked (l' : List (Nat × Block)) (t : State) : (l'.foldl (fun s p => s.unlink p.1) t).launch = t.launch := by
    funext n
    rw [State.launch, (State.unlinkAll_frame l' t).2]
    rfl
  have hdropped (t : State) (f : ReEntry → Bool) : (t.dropEntries f).launch = t.launch ∧ (t.dropEntries f).blocks = t.blocks :=
    ⟨rfl, rfl⟩
  cases hard
  · simp only [Bool.false_eq_true, if_false, hunlinked, (State.unlinkAll_frame _ _).1]
    exact ⟨congrArg LaunchSlot.counter ((State.launch_setLaunch s l l _).trans (if_pos rfl)), rfl⟩
  · simp only [if_true, (hdropped _ _).1, (hdropped _ _).2, hunlinked, (State.unlinkAll_frame _ _).1]
    exact ⟨congrArg LaunchSlot.counter ((State.launch_setLaunch s l l _).trans (if_pos rfl)), rfl⟩

theorem State.cancel_leaf {s : State} {l : Nat} (hkids : ∀ x ∈ s.launches, x.2.alive = true → x.2.creator ≠ some l) (hard : Bool) :
    s.cancel (.launch l) hard = s.cancelLaunch l hard := by
  have hnone : (s.launches.filterMap fun p => if p.2.alive ∧ p.2.creator = some l then some p.1 else none) = [] := by
    rw [List.filterMap_eq_nil_iff]
    intro x hx
    rw [if_neg fun h => hkids x hx h.1 h.2]
  rw [State.cancel, State.cancelTree, hnone]
  rfl

/-! ### GSIG (R333, R436) -/

theorem State.settle_nil (s : State) (f : Nat) : s.settle f [] = s := by cases f <;> rfl

theorem mem_of_mem_tdel {α : Type} {t : Tbl α} {n : Nat} {p : Nat × α} (h : p ∈ tdel t n) : p ∈ t := by
  induction t with
  | nil => exact h
  | cons q t ih =>
    obtain ⟨k, v⟩ := q
    simp only [tdel] at h
    split_ifs at h
    · exact List.mem_cons_of_mem _ (ih h)
    · simp only [List.mem_cons] at h ⊢
      exact h.imp_right ih

theorem mem_tset {α : Type} [DecidableEq α] {d : α} {t : Tbl α} {n : Nat} {x : α} {p : Nat × α} (h : p ∈ tset d t n x) :
    p = (n, x) ∨ p ∈ t := by
  unfold tset at h
  split at h
  · exact .inr (mem_of_mem_tdel h)
  · exact mem_tput h

/-- With no node that waits for a launch, none starts. -/
theorem State.startNodes_of_none {s : State} (h : ∀ x ∈ s.nodes, x.2.st ≠ 2) : s.startNodes = s := by
  have hnone : (s.nodes.filterMap fun p =>
      if p.2.st = 2 ∧ !(s.launches.any fun l => l.2.alive && l.2.node == some p.1) then some (Work.start p.1) else none) = [] := by
    rw [List.filterMap_eq_nil_iff]
    intro x hx
    rw [if_neg fun hw => h x hx hw.1]
  rw [State.startNodes, hnone]
  exact s.settle_nil _

/-- A signal that is not the last counts down the predecessors of its context's node. -/
theorem State.signalNode_waiting {s : State} {ctx n : Nat} (hnone : ∀ x ∈ s.nodes, x.2.st ≠ 2) (hst : (s.node n).st = 1)
    (hpred : 1 < (s.node n).pred) : s.signalNode ctx n =
      if (s.node n).ctx = ctx then s.setNode n { s.node n with pred := (s.node n).pred - 1 } else s := by
  let s1 := s.setNode n { s.node n with pred := (s.node n).pred - 1 }
  have hwork : s.work (.signal n) = (s1, []) := by
    simp only [State.work, if_pos hst, if_neg (show ¬ (s.node n).pred ≤ 1 by omega)]
    rfl
  have hsettle (f : Nat) : s.settle (f + 1) [.signal n] = s1 := by
    rw [State.settle, hwork]
    exact s1.settle_nil f
  obtain ⟨f, hf⟩ : ∃ f, workFuel = f + 1 := Nat.exists_eq_succ_of_ne_zero (by unfold workFuel; positivity)
  have hnone1 : ∀ x ∈ s1.nodes, x.2.st ≠ 2 := by
    intro x hx
    rcases mem_tset hx with rfl | hold
    · rw [show ({ s.node n with pred := (s.node n).pred - 1 } : Node).st = 1 from hst]
      norm_num
    · exact hnone x hold
  rw [State.signalNode, State.settleAll, hf, hsettle, State.startNodes_of_none hnone1]

section Signals

variable {s : State} {c : Cur} {k : Ctl} {blk : Block} {a b : Opnd} {i : Nat} (hof : OfWave s c blk)
  (hone : s.parts c k = BitVec.ofNat 32 (2 ^ i)) (hi : i < 32) (htrap : s.paramTrap c (s.parts c k) 1 [b] = none)
include hof hone hi htrap

theorem exec_gsig_out_of_range (hno : 65536 ≤ (s.rd32 c b i).toNat) : exec (.gsig k b) s = .next (s.raise c 0x02 1) := by
  have hlanes : lanesOf (s.parts c k) = [i] := by rw [hone, lanesOf_single hi]
  refine (onCur_eq hof.1 _).trans (congrArg _ ?_)
  simp only [htrap, hlanes, List.map_cons, List.map_nil, List.any_cons, List.any_nil, Bool.or_false, decide_eq_true hno, if_true]

theorem exec_gsig (hregion : c.wave.inRegion = false) (hreleased : Released s c (s.parts c k) .sys)
    (hno : (s.rd32 c b i).toNat < 65536) {s1 : State}
    (hsignal : (s.writeBackAt c.core .sys).signalNode c.ctx (s.rd32 c b i).toNat = s1) :
    exec (.gsig k b) s = .next (s1.complete (s1.recur c) k b .zero .zero { flags := s.paramFlags c (s.parts c k) 1 [b] }) := by
  have hlanes : lanesOf (s.parts c k) = [i] := by rw [hone, lanesOf_single hi]
  have hp : s.parts c k ≠ 0 := fun h => by rw [(lanesOf_eq_nil _).mpr h] at hlanes; cases hlanes
  refine (onCur_eq hof.1 _).trans (congrArg _ ?_)
  simp only [htrap, hlanes, List.map_cons, List.map_nil, List.any_cons, List.any_nil, Bool.or_false,
    decide_eq_false (show ¬ 65536 ≤ (s.rd32 c b i).toNat by omega), Bool.false_eq_true, if_false, State.closing_eq hregion, if_neg hp,
    State.releaseSys_eq hof.2.1 hreleased, List.foldl_cons, List.foldl_nil, hsignal]

end Signals

/-! ### LAUNCH (R329, R447) -/

/-- The plan of one lane, by its record. -/
theorem State.launchPlan_single (s : State) (c : Cur) (b : Opnd) (i : Nat) : s.launchPlan c b [i] =
    match s.readLaunch c.ctx ((s.rd64 c b i).toNat % 2 ^ 57) with
    | .fault va x => .held [(i, va, x)]
    | .poisoned => .poisoned
    | .malformed => .malformed
    | .ok r d => if (recNode r).isSome then .malformed else .go [(i, r, d)] := by
  rw [State.launchPlan]
  cases s.readLaunch c.ctx ((s.rd64 c b i).toNat % 2 ^ 57) <;> rfl

theorem State.createAll_single (s : State) (c : Cur) (i : Nat) (r d : List Byte) : s.createAll c [(i, r, d)] =
    match s.createOne c r d with
    | none => (s, [], [i])
    | some (s1, h, st) => (s1, [(i, h, st)], []) := by
  rw [State.createAll]
  cases s.createOne c r d <;> rfl

/-- A launch's slot, and its creator's count of members (R61, R329, R330). -/
theorem State.launch_createLaunch (s : State) {l c0 : Nat} (hne : l ≠ c0) (r d : List Byte) (ctx prio : Nat) :
    let t := s.createLaunch l r d ctx prio (some c0) none none
    ((t.launch l).gen = (if (s.launch l).record = [] then (s.launch l).gen else nextGen 18 (s.launch l).gen) ∧
      (t.launch l).counter = { Counter.reset with outstanding := recN r } ∧ (t.launch l).alive = true ∧
      (t.launch l).record = r ∧ (t.launch l).desc = d ∧ (t.launch l).ctx = ctx ∧ (t.launch l).prio = prio) ∧
    (t.launch c0).counter.outstanding = (s.launch c0).counter.outstanding + 1 := by
  intro t
  let x : LaunchSlot := { LaunchSlot.reset with
    gen := if (s.launch l).record.isEmpty then (s.launch l).gen else nextGen 18 (s.launch l).gen
    counter := { Counter.reset with outstanding := recN r }
    alive := true, record := r, desc := d, ctx, prio, order := s.launchOrder, creator := some c0
    params := (s.bindLaunch ctx r).1, caps := (s.bindLaunch ctx r).2.1, early := (s.bindLaunch ctx r).2.2 }
  let y := (s.setLaunch l x).launch c0
  have ht (n : Nat) : t.launch n = if n = c0 then { y with counter := { y.counter with outstanding := y.counter.outstanding + 1 } }
      else (s.setLaunch l x).launch n := State.launch_setLaunch _ c0 n _
  have hy : y = s.launch c0 := (State.launch_setLaunch s l c0 x).trans (if_neg hne.symm)
  have hl : t.launch l = x := (ht l).trans ((if_neg hne).trans ((State.launch_setLaunch s l l x).trans (if_pos rfl)))
  refine ⟨?_, ?_⟩
  · rw [hl]
    refine ⟨?_, rfl, rfl, rfl, rfl, rfl, rfl⟩
    simp only [x, List.isEmpty_iff]
  · rw [ht c0, if_pos rfl, hy]

theorem State.createLaunch_frame (s : State) (l : Nat) (r d : List Byte) (ctx prio c0 : Nat) :
    (s.createLaunch l r d ctx prio (some c0) none none).blocks = s.blocks ∧
      (s.createLaunch l r d ctx prio (some c0) none none).cur? = s.cur? := by
  unfold State.createLaunch
  exact ⟨rfl, rfl⟩

/-- LAUNCH once its records are read: the lanes that find a slot, or are refused, receive their results; the others wait. -/
def State.launchGo (s : State) (c : Cur) (k : Ctl) (a b : Opnd) (p : LaneSet) (l : List (Nat × List Byte × List Byte)) : State :=
  let (s1, done, rest) := s.createAll c l
  let wait := laneSet rest
  let c1 := { s1.recur c with active := c.active &&& ~~~wait }
  let out (i : Nat) : Quad := match done.find? fun x => x.1 == i with
    | some (_, h, st) => q64 (st ++ h)
    | none => 0
  (s1.complete c1 k b .zero .zero { writes := writesOf a 2 (p &&& ~~~wait) out }).onWave c.bid c.wid fun w =>
    w.mapLanes fun i x => if wait.getLsbD i then { x with st := .blocked .launchSlot, paid := true } else x

section Launches

variable {s : State} {c : Cur} {k : Ctl} {blk : Block} {a b : Opnd} {i : Nat} (hof : OfWave s c blk) (hla : k.la = 0)
  (hone : s.parts c k = BitVec.ofNat 32 (2 ^ i)) (hi : i < 32) (hregion : c.wave.inRegion = false)
  (hreleased : Released s c (s.parts c k) .sys)
include hof hone hi hregion hreleased

/-- LAUNCH of one lane writes back, and then does what its record says. -/
theorem exec_launch (a : Opnd) : exec (.launch k a b) s = .next (match (s.writeBackAt c.core .sys).launchPlan c b [i] with
    | .held l => (s.writeBackAt c.core .sys).faultLanes c 0 l
    | .poisoned => (s.writeBackAt c.core .sys).raise c 0x0D 0 7
    | .malformed => (s.writeBackAt c.core .sys).raise c 0x02 1 7
    | .go l => (s.writeBackAt c.core .sys).launchGo c k a b (s.parts c k) l) := by
  have hlanes : lanesOf (s.parts c k) = [i] := by rw [hone, lanesOf_single hi]
  have hp : s.parts c k ≠ 0 := fun h => by rw [(lanesOf_eq_nil _).mpr h] at hlanes; cases hlanes
  refine (onCur_eq hof.1 _).trans (congrArg _ ?_)
  simp only [State.closing_eq hregion, if_neg hp, State.releaseSys_eq hof.2.1 hreleased, hlanes]
  cases (s.writeBackAt c.core .sys).launchPlan c b [i] with
  | go l => simp only [hof.2.1, reduceCtorEq, and_false, if_false]; rfl
  | held l => simp only [hof.2.1]
  | poisoned => rfl
  | malformed => rfl

end Launches

/-- A lane whose launch is created, or refused, completes with handle and status. -/
theorem State.launchGo_created {s s1 : State} {c : Cur} {k : Ctl} {blk : Block} {a b : Opnd} {i : Nat} {p : LaneSet} {r d : List Byte}
    {h st : Word} (hagent : c.agent = .wave c.bid c.wid) (hla : k.la = 0) (hone : s.createOne c r d = some (s1, h, st))
    (hcur : s1.cur? = some c) (hb : s1.block? c.bid = some blk) (hw : blk.wave? c.wid = some c.wave) (hp : lanesOf p = [i]) :
    ∃ w, s.launchGo c k a b p [(i, r, d)] = s1.setWave c.bid c.wid w ∧
      Wrote c.wave w a 2 p (fun _ => (st ++ h).setWidth 128) noTag ∧
      ∀ j < 32, (w.lane j).pc = if c.active.getLsbD j = true then succPc (c.wave.lane j).pc else (c.wave.lane j).pc := by
  have hnone (j : Nat) : (laneSet []).getLsbD j = false := by simp [laneSet]
  simp only [State.launchGo, State.createAll_single, hone, State.recur_eq hcur, and_not_laneSet_nil, hnone, Bool.false_eq_true, if_false]
  rw [writesOf_single hp]
  simp only [List.find?_cons, beq_self_eq_true]
  obtain ⟨w, hset, hran⟩ := State.complete_wave hagent s1 k b .zero .zero _ (Result.gives_plain a 2 p (fun _ => q64 (st ++ h)) 0)
  have hrun : (s1.complete c k b .zero .zero { writes := writesOf a 2 p fun _ => q64 (st ++ h), flags := 0 }).onWave c.bid c.wid
      (fun w => w.mapLanes fun _ x => x) = s1.setWave c.bid c.wid (w.mapLanes fun _ x => x) := by
    rw [hset, State.onWave_setWave hb hw]
  refine ⟨_, hrun, wrote_of_lanes (hran.now hla).1 (fun j hj => ?_) rfl, fun j hj => ?_⟩
  · rw [Wave.lane_mapLanes _ _ _ hj]
    exact ⟨rfl, rfl⟩
  · rw [Wave.lane_mapLanes _ _ _ hj]
    exact hran.moved.pc j hj

/-- A lane that finds no slot waits for one. -/
theorem State.launchGo_waits {s : State} {c : Cur} {k : Ctl} {blk : Block} {a b : Opnd} {i : Nat} {p : LaneSet} {r d : List Byte}
    (hagent : c.agent = .wave c.bid c.wid) (hla : k.la = 0) (hone : s.createOne c r d = none) (hcur : s.cur? = some c)
    (hb : s.block? c.bid = some blk) (hw : blk.wave? c.wid = some c.wave) (hi : i < 32) (hp : p = BitVec.ofNat 32 (2 ^ i)) :
    Went (s.launchGo c k a b p [(i, r, d)]) c (c.active &&& ~~~p) ∧
      Waits (s.launchGo c k a b p [(i, r, d)]) c p fun _ => .launchSlot := by
  have hwait : laneSet [i] = p := by rw [hp, laneSet_single hi]
  have hpart : p &&& ~~~p = 0 := BitVec.and_not_self p
  simp only [State.launchGo, State.createAll_single, hone, State.recur_eq hcur, hwait, hpart, writesOf_zero]
  obtain ⟨w, hset, hran⟩ := State.complete_wave (c := { c with active := c.active &&& ~~~p }) hagent s k b .zero .zero _
    (Result.gives_none 0 (fun _ => 0) 0)
  let u := w.mapLanes fun j x => if p.getLsbD j then { x with st := .blocked .launchSlot, paid := true } else x
  have hu : ((s.complete { c with active := c.active &&& ~~~p } k b .zero .zero { flags := 0 }).onWave c.bid c.wid
      fun w => w.mapLanes fun j x => if p.getLsbD j then { x with st := .blocked .launchSlot, paid := true } else x).wave? c.bid
      c.wid = some u := by
    rw [hset]
    exact (congrArg (State.wave? · c.bid c.wid) (State.onWave_setWave hb hw w _)).trans (State.wave_setWave hb hw u)
  have hkept := keepsRegs_of_wrote_nothing (hran.now hla).1
  have hlane (j : Nat) (hj : j < 32) : (u.lane j).v = (w.lane j).v ∧ (u.lane j).tags = (w.lane j).tags ∧
      (u.lane j).pc = (w.lane j).pc := by
    rw [Wave.lane_mapLanes _ _ _ hj]
    cases p.getLsbD j <;> exact ⟨rfl, rfl, rfl⟩
  refine ⟨⟨u, hu, keepsRegs_trans hkept (keepsRegs_of_lanes (fun j hj => ⟨(hlane j hj).1, (hlane j hj).2.1⟩) rfl),
    fun j hj => (hlane j hj).2.2.trans (hran.moved.pc j hj)⟩, u, hu, fun j hj hin => ?_⟩
  rw [Wave.lane_mapLanes _ _ _ hj, if_pos hin]

/-- A launch that is refused receives all ones and status 3. -/
theorem State.createOne_refused {s : State} {c : Cur} (h : s.launchRefused c = true) (r d : List Byte) :
    ∃ s1, s.createOne c r d = some (s1, 0xFFFFFFFF, 3) ∧ s1.blocks = s.blocks ∧ s1.cur? = s.cur? := by
  refine ⟨_, by rw [State.createOne, if_pos h], ?_⟩
  split
  · exact ⟨rfl, rfl⟩
  · exact ⟨rfl, rfl⟩

/-- A launch takes the lowest free slot. -/
theorem State.createOne_free {s : State} {c : Cur} {blk : Block} (hagent : c.agent = .wave c.bid c.wid)
    (hb : s.block? c.bid = some blk) (h : s.launchRefused c = false) {l : Nat} (hl : s.freeLaunch = some l) {r d : List Byte}
    {t : State} (ht : s.createLaunch l r d c.ctx (capPrio r blk.prio) (some blk.launch) none none = t) :
    s.createOne c r d = some (t, BitVec.ofNat 32 ((t.launch l).gen * 4096 + l), 0) := by
  subst ht
  simp only [State.createOne, h, Bool.false_eq_true, if_false, hl, hagent, hb]
  rfl

theorem State.createOne_full {s : State} {c : Cur} (h : s.launchRefused c = false) (hl : s.freeLaunch = none) (r d : List Byte) :
    s.createOne c r d = none := by
  simp only [State.createOne, h, Bool.false_eq_true, if_false, hl]

section Outcomes

variable {s : State} {c : Cur} {k : Ctl} {blk : Block} {a b : Opnd} {i : Nat} (hof : OfWave s c blk)
  (hone : s.parts c k = BitVec.ofNat 32 (2 ^ i)) (hi : i < 32) (hregion : c.wave.inRegion = false)
  (hreleased : Released s c (s.parts c k) .sys)
include hof hone hi hregion hreleased

/-- LAUNCH of a lane whose record is good creates or waits. -/
theorem exec_launch_ok (a : Opnd) {r d : List Byte} (hrec : recNode r = none)
    (hread : (s.writeBackAt c.core .sys).readLaunch c.ctx (((s.writeBackAt c.core .sys).rd64 c b i).toNat % 2 ^ 57) = .ok r d) :
    exec (.launch k a b) s = .next ((s.writeBackAt c.core .sys).launchGo c k a b (s.parts c k) [(i, r, d)]) := by
  rw [exec_launch hof hone hi hregion hreleased a, State.launchPlan_single, hread]
  simp only [hrec, Option.isSome_none, Bool.false_eq_true, if_false]

/-- LAUNCH of a lane that createOne answers leaves handle and status. -/
theorem leavesValue_launch (hla : k.la = 0) {r d : List Byte} (hrec : recNode r = none)
    (hread : (s.writeBackAt c.core .sys).readLaunch c.ctx (((s.writeBackAt c.core .sys).rd64 c b i).toNat % 2 ^ 57) = .ok r d)
    {s1 : State} {h st : Word} (hcreated : (s.writeBackAt c.core .sys).createOne c r d = some (s1, h, st))
    (hblocks : s1.blocks = (s.writeBackAt c.core .sys).blocks) (hcur : s1.cur? = (s.writeBackAt c.core .sys).cur?) {f : State → Prop}
    (hf : ∀ t : State, t.launches = s1.launches → f t) : LeavesValue (.launch k a b) s c a 2 (s.parts c k) (st ++ h) f := by
  obtain ⟨hc, hagent, hb⟩ := id hof
  obtain ⟨blk', hb', hw⟩ := State.cur_wave hc hagent
  have hstores := s.onlyStores_writeBackAt_sys c.core
  have hb1 : s1.block? c.bid = some blk' := (congrArg (tfind · c.bid) (hblocks.trans hstores.blocks)).trans hb'
  have hc1 : s1.cur? = some c := hcur.trans (hstores.cur.trans hc)
  obtain ⟨w, hgo, hwrote, hpc⟩ :=
    State.launchGo_created (a := a) (b := b) hagent hla hcreated hc1 hb1 hw (hone ▸ lanesOf_single hi)
  refine ⟨_, w, (exec_launch_ok hof hone hi hregion hreleased a hrec hread).trans (congrArg _ hgo),
    State.wave_setWave hb1 hw w, hwrote, hpc, hf _ ?_⟩
  rw [State.setWave_eq_setBlock hb1]
  rfl

/-- GSIG of a node that waits for more than one predecessor counts one down, in the node's own context. -/
theorem went_gsig (hla : k.la = 0) (htrap : s.paramTrap c (s.parts c k) 1 [b] = none) {n : Nat} (hn : (s.rd32 c b i).toNat = n)
    (hno : n < 65536) (hnone : ∀ x ∈ s.nodes, x.2.st ≠ 2) (hst : (s.node n).st = 1) (hpred : 1 < (s.node n).pred) :
    ∃ t, exec (.gsig k b) s = .next t ∧ Went t c c.active ∧
      t.node n = if (s.node n).ctx = c.ctx then { s.node n with pred := (s.node n).pred - 1 } else s.node n := by
  let s0 := s.writeBackAt c.core .sys
  let s1 := if (s.node n).ctx = c.ctx then s0.setNode n { s.node n with pred := (s.node n).pred - 1 } else s0
  obtain ⟨hc, hagent, hb⟩ := id hof
  obtain ⟨blk', hb', hw⟩ := State.cur_wave hc hagent
  have hstores : s.OnlyStores s0 := s.onlyStores_writeBackAt_sys c.core
  have hnode : s0.node n = s.node n := congrArg (tget Node.reset · n) hstores.nodes
  have hsignal : s0.signalNode c.ctx n = s1 := by
    rw [State.signalNode_waiting (by rw [hstores.nodes]; exact hnone) (by rw [hnode]; exact hst) (by rw [hnode]; exact hpred), hnode]
  have hs1 : s1.blocks = s.blocks ∧ s1.cur? = s.cur? ∧
      s1.node n = if (s.node n).ctx = c.ctx then { s.node n with pred := (s.node n).pred - 1 } else s.node n := by
    simp only [s1]
    split
    · exact ⟨hstores.blocks, hstores.cur, (State.node_setNode s0 n n _).trans (if_pos rfl)⟩
    · exact ⟨hstores.blocks, hstores.cur, hnode⟩
  obtain ⟨hblocks, hcur, hleft⟩ := hs1
  have hb1 : s1.block? c.bid = some blk' := (congrArg (tfind · c.bid) hblocks).trans hb'
  have hexec := exec_gsig hof hone hi htrap hregion hreleased (hn ▸ hno) (hn ▸ hsignal)
  rw [State.recur_eq (hcur.trans hc)] at hexec
  obtain ⟨w, hset, hran⟩ := State.complete_wave hagent s1 k b .zero .zero _
    (Result.gives_none 0 (fun _ => 0) (s.paramFlags c (s.parts c k) 1 [b]))
  refine ⟨_, hexec.trans (congrArg _ hset),
    ⟨w, State.wave_setWave hb1 hw w, keepsRegs_of_wrote_nothing (hran.now hla).1, hran.moved.pc⟩, ?_⟩
  rw [State.setWave_eq_setBlock hb1]
  exact hleft

end Outcomes

/-- The blocks of a launch that is cancelled stop (R63). -/
theorem State.block_cancel_placed {s t : State} {l : Nat} (hblocks : t.blocks = s.blocks.map fun p =>
      (p.1, if p.2.launch = l then { p.2 with stopped := some (p.2.stopped.getD .cancelled) } else p.2)) {b' : Nat} {x : Block}
    (hx : s.block? b' = some x) :
    t.block? b' = some (if x.launch = l then { x with stopped := some (x.stopped.getD .cancelled) } else x) := by
  rw [State.block?, hblocks, tfind_map fun _ (x : Block) => if x.launch = l then { x with stopped := some (x.stopped.getD .cancelled) }
    else x]
  exact congrArg (Option.map _) hx

/-- CANCEL of a launch whose blocks are all placed. -/
theorem exec_cancel_placed {s : State} {c : Cur} {k : Ctl} {blk : Block} {a b : Opnd} {i : Nat} (hof : OfWave s c blk)
    (hone : s.parts c k = BitVec.ofNat 32 (2 ^ i)) (hi : i < 32) (htrap : s.paramTrap c (s.parts c k) 1 [b] = none) {l : Nat}
    (hres : s.resolve c.ctx (s.rd32 c b i) = some (.launch l)) (hdone : (s.launch l).counter.done = false) (hard : Bool) :
    exec (.cancel k hard a b) s = .next ((((s.cancel (.launch l) hard).complete ((s.cancel (.launch l) hard).recur c) k b .zero .zero
      { writes := writesOf a 1 (s.parts c k) fun _ => 0, flags := s.paramFlags c (s.parts c k) 1 [b] })).retireStopped) := by
  have hcounter : (s.counter (.launch l)).done = false := hdone
  refine exec_cancel hof hone hi htrap hard (st := 0) ?_
  simp only [State.cancelLane, hres, hcounter, Bool.false_eq_true, if_false]

/-- CNTR's value names the counter of the level, or no level. -/
theorem ran_cntr {s : State} {c : Cur} {k : Ctl} {blk : Block} {a b : Opnd} {i : Nat} (hof : OfWave s c blk)
    (hone : s.parts c k = BitVec.ofNat 32 (2 ^ i)) (hi : i < 32) (htrap : s.paramTrap c (s.parts c k) 1 [b] = none) :
    ∃ t f, exec (.cntr k a b) s = .next t ∧
      Ran { s with peerCopies := if s.levelDone c.ctx (s.rd32 c b i) then [] else s.peerCopies } t c k a 2 (s.parts c k) f noTag
        (s.paramFlags c (s.parts c k) 1 [b]) ∧ low64 (f i) = s.cntrValue c.ctx (s.rd32 c b i) := by
  have hcur : ({ s with peerCopies := if s.levelDone c.ctx (s.rd32 c b i) then [] else s.peerCopies } : State).cur? = some c := hof.1
  exact ⟨_, fun j => q64 (s.cntrValue c.ctx (s.rd32 c b j)), exec_cntr hof hone hi htrap,
    State.complete_ran hcur k b .zero .zero _ (Result.gives_plain _ _ _ _ _), low64_q64 _⟩

/-- Settles O44: each instruction of one lane, by what its record, its node or its handle says. -/
theorem launchesAndLevels : Obligations.LaunchesAndLevels := by
  unfold Obligations.LaunchesAndLevels
  intro s c k blk a b hard i hof hla hone hi hregion hreleased htrap p s0 gives h va no
  have hstores : s.OnlyStores s0 := s.onlyStores_writeBackAt_sys c.core
  have hc0 : s0.cur? = some c := hstores.cur.trans hof.1
  have hb0 : s0.block? c.bid = some blk := (congrArg (tfind · c.bid) hstores.blocks).trans hof.2.2
  have hslot (l : Nat) : s0.launch l = s.launch l := congrArg (tget LaunchSlot.reset · l) hstores.launches
  have hlaunch := exec_launch hof hone hi hregion hreleased (b := b) a
  rw [State.launchPlan_single] at hlaunch
  refine ⟨fun hread => ?_, fun hread => ?_, fun r d hread => ⟨fun hrec => ?_, fun hrec hrefused => ?_, fun hrec hopen =>
    ⟨fun hfull => ?_, fun l hfree hne => ?_⟩⟩, exec_gsig_out_of_range hof hone hi htrap, fun hno hnone hst hpred =>
    went_gsig hof hone hi hregion hreleased hla htrap rfl hno hnone hst hpred, fun hstopped =>
    ⟨fun hres => ?_, fun lv hres hdone => ?_⟩, fun l hres hdone halive hplaced hrerun hsaved hkids => ?_, ?_⟩
  · rw [hread] at hlaunch
    exact hlaunch
  · rw [hread] at hlaunch
    exact hlaunch
  · rw [hread] at hlaunch
    simp only [Option.isSome_iff_ne_none.mpr hrec, if_true] at hlaunch
    exact hlaunch
  · obtain ⟨s1, hcreated, hblocks, hcur⟩ := State.createOne_refused hrefused r d
    exact leavesValue_launch hof hone hi hregion hreleased hla hrec hread hcreated hblocks hcur fun _ _ => trivial
  · obtain ⟨blk', hb', hw⟩ := State.cur_wave hc0 hof.2.1
    exact ⟨_, exec_launch_ok hof hone hi hregion hreleased a hrec hread,
      State.launchGo_waits hof.2.1 hla (State.createOne_full hopen hfull r d) hc0 hb' hw hi hone⟩
  · have hcreated := State.createOne_free hof.2.1 hb0 hopen hfree (r := r) (d := d) rfl
    obtain ⟨hblocks, hcur⟩ := s0.createLaunch_frame l r d c.ctx (capPrio r blk.prio) blk.launch
    obtain ⟨⟨hgen, hcounter, halive, hrecord, hdesc, hctx, hprio⟩, hcreator⟩ :=
      s0.launch_createLaunch hne r d c.ctx (capPrio r blk.prio)
    rw [hgen, hslot] at hcreated
    rw [hslot] at hcreator
    refine leavesValue_launch hof hone hi hregion hreleased hla hrec hread hcreated hblocks hcur fun t ht => ?_
    have hsame : t.launch = State.launch _ := funext fun n => congrArg (tget LaunchSlot.reset · n) ht
    rw [hsame]
    exact ⟨halive, hrecord, hdesc, hctx, by rw [hcounter], by rw [hcounter]; rfl, hprio, hcreator⟩
  · have hlane : s.cancelLane c.ctx h hard = (s, 2) := by simp only [State.cancelLane, hres]
    exact leavesValue_cancel hof hla hone hi htrap hstopped hard hlane
  · have hlane : s.cancelLane c.ctx h hard = (s, 1) := by simp only [State.cancelLane, hres, hdone, if_true]
    exact leavesValue_cancel hof hla hone hi htrap hstopped hard hlane
  · obtain ⟨hcancelled, hblocks⟩ := State.cancelLaunch_placed hdone halive hplaced hrerun hsaved hard
    rw [← State.cancel_leaf hkids hard] at hcancelled hblocks
    exact ⟨by rw [hcancelled], fun hh => by rw [hcancelled, hh, Bool.or_true], fun b' x => State.block_cancel_placed hblocks,
      exec_cancel_placed hof hone hi htrap hres hdone hard⟩
  · obtain ⟨t, f, hexec, hran, hvalue⟩ := ran_cntr (a := a) hof hone hi htrap
    refine ⟨t, f, hexec, hran, fun hres => ?_, fun lv hres => ?_⟩
    · rw [hvalue, State.cntrValue, hres]
    · rw [hvalue, State.cntrValue, hres]
      rfl

end Sys2Proof.Machine
end

section
/-! SUPPORT. An instruction of a wave on its block: operands that it lacks, blocks replaced, and the bytes that then stay (R35,
R226). -/

namespace Sys2Proof.Machine

variable {s : State} {c : Cur} {blk : Block}

/-- An operand that is no parameter stands in no instruction's way (R226). -/
theorem State.paramTrap_zero (s : State) (c : Cur) (p : LaneSet) : s.paramTrap c p 1 [.zero] = none := by
  have hbad : [Opnd.zero].filterMap (s.paramBad c 1) = [] := rfl
  have hwords : [Opnd.zero].flatMap (c.paramWords 1) = [] := rfl
  rw [State.paramTrap, hbad, hwords]
  exact ite_self none

/-- An instruction without an operand in field C runs on the block of its wave. -/
theorem onBlk_zero (h : OfWave s c blk) (k : Ctl) (f : Cur → Block → LaneSet → State) :
    onBlk s k .zero f = .next (f c blk (s.parts c k)) := by
  obtain ⟨hc, -, hb⟩ := h
  rw [onBlk, onCur_eq hc]
  simp only [State.paramTrap_zero, hb]

theorem wave_of_ofWave (h : OfWave s c blk) : blk.wave? c.wid = some c.wave := by
  obtain ⟨hc, hagent, hb⟩ := h
  obtain ⟨blk', hb', hw⟩ := State.cur_wave hc hagent
  obtain rfl : blk' = blk := Option.some.inj (hb'.symm.trans hb)
  exact hw

/-- A block replaced by one with the same scratchpad leaves every byte as it was. -/
theorem keepsBytes_setBlock {b : Nat} {x : Block} (hb : s.block? b = some blk) (hspad : x.spad = blk.spad) :
    KeepsBytes s (s.setBlock b x) := by
  refine ⟨fun _ => rfl, State.viewByte_congr rfl rfl fun _ => rfl, fun b' o => ?_⟩
  by_cases h : b' = b
  · subst h
    simp only [spadAt, State.block_setBlock, if_true, hb, Block.spadByte, hspad]
  · simp only [spadAt, State.block_setBlock, if_neg h]

theorem lanesOf_ne_nil {p : LaneSet} (hp : p ≠ 0) : lanesOf p ≠ [] := fun h => hp ((lanesOf_eq_nil p).mp h)

end Sys2Proof.Machine
end

section
/-! SUPPORT. The special registers: SRD and SWR (R82, R83, R505, R508). -/

namespace Sys2Proof.Machine

/-! ### SRD -/

/-- The special registers of a lane by their indices (R82). -/
def State.specials (s : State) (c : Cur) (blk : Block) (j : Nat) : List Word :=
  let x := s.launch blk.launch
  let die := s.die (dieOf c.core)
  let seed := recSeed x.record
  [BitVec.ofNat 32 j, BitVec.ofNat 32 c.wid, BitVec.ofNat 32 blk.index, BitVec.ofNat 32 (recN x.record),
   BitVec.ofNat 32 c.core, BitVec.ofNat 32 s.pkgNo, BitVec.ofNat 32 c.wave.s, BitVec.ofNat 32 blk.prio,
   BitVec.ofNat 32 (launchHandle blk.launch x.gen), stat32 c.wave.fpstat, stat32 blk.seq.mstat, c.wave.rgnWord,
   (c.wave.lane j).chain, s.capqWord c, BitVec.ofNat 32 (s.core c.core).bucket, BitVec.ofNat 32 die.op,
   s.clk.setWidth 32, c.wave.clkhi.getD (s.clk.extractLsb' 32 32), seed.setWidth 32, seed.extractLsb' 32 32,
   c.wave.trapCause, c.wave.trapPc.setWidth 32]

theorem State.special_eq (s : State) (c : Cur) (blk : Block) (j n : Nat) : s.special c blk j n = (s.specials c blk j)[n]? := by
  rcases Nat.lt_or_ge n 22 with hn | hn
  · interval_cases n <;> rfl
  · obtain ⟨m, rfl⟩ := Nat.exists_eq_add_of_le' hn
    rfl

theorem State.special_isNone (s : State) (c : Cur) (blk : Block) (j n : Nat) :
    (s.special c blk j n).isNone = decide (22 ≤ n) := by
  rw [State.special_eq, Bool.eq_iff_iff, Option.isNone_iff_eq_none, List.getElem?_eq_none_iff, decide_eq_true_iff]
  rfl

theorem State.special_getD (s : State) (c : Cur) (blk : Block) (j n : Nat) :
    (s.special c blk j n).getD 0 = lget 0 (s.specials c blk j) n := by
  rw [State.special_eq, lget_eq_getD]
  rfl

/-- Some participating lane names a number. -/
theorem contains_map_lanesOf (p : LaneSet) (f : Nat → Nat) (n : Nat) :
    ((lanesOf p).map f).contains n = true ↔ ∃ j, (j < 32 ∧ p.getLsbD j = true) ∧ f j = n := by
  rw [List.contains_iff_mem, List.mem_map]
  simp only [mem_lanesOf]

section Srd

variable {s : State} {c : Cur} {k : Ctl} {blk : Block} {b : Opnd} (hof : OfWave s c blk)
include hof

theorem exec_srd_unassigned (a : Opnd) {j : Nat} (hj : j < 32) (hp : (s.parts c k).getLsbD j = true)
    (hidx : 22 ≤ (s.rd32 c b j).toNat) : exec (.srd k a b) s = .next (s.raise c 0x02 1) := by
  change execSrd k a b s = _
  refine (onBlk_zero hof k _).trans (congrArg _ ?_)
  refine if_pos ?_
  refine List.any_eq_true.mpr ⟨j, (mem_lanesOf _ j).mpr ⟨hj, hp⟩, ?_⟩
  rw [State.special_isNone, decide_eq_true_iff]
  exact hidx

theorem exec_srd (a : Opnd) (hidx : ∀ j < 32, (s.parts c k).getLsbD j = true → (s.rd32 c b j).toNat < 22) :
    exec (.srd k a b) s = .next ((s.complete c k b .zero .zero
      { writes := writesOf a 1 (s.parts c k) fun j => q32 (lget 0 (s.specials c blk j) (s.rd32 c b j).toNat) }).onWave c.bid c.wid
        fun w => w.afterSrd ((lanesOf (s.parts c k)).map fun j => (s.rd32 c b j).toNat) s.clk) := by
  change execSrd k a b s = _
  refine (onBlk_zero hof k _).trans (congrArg _ ?_)
  refine (if_neg ?_).trans ?_
  · simp only [List.any_eq_true, mem_lanesOf, State.special_isNone, decide_eq_true_eq, not_exists, not_and, not_le]
    exact fun j hj => hidx j hj.1 hj.2
  · simp only [State.special_getD]

/-- SRD leaves the special registers that its lanes name, and what reading them leaves in the wave (R83, R505). -/
theorem exec_srd_wave (hla : k.la = 0) (a : Opnd)
    (hidx : ∀ j < 32, (s.parts c k).getLsbD j = true → (s.rd32 c b j).toNat < 22) :
    ∃ w, exec (.srd k a b) s =
        .next (s.setWave c.bid c.wid (w.afterSrd ((lanesOf (s.parts c k)).map fun j => (s.rd32 c b j).toNat) s.clk)) ∧
      Wrote c.wave w a 1 (s.parts c k) (fun j => q32 (lget 0 (s.specials c blk j) (s.rd32 c b j).toNat)) noTag ∧
      Moved c.wave w c.active ∧ w.capqMin = c.wave.capqMin := by
  obtain ⟨w, hset, hran⟩ := State.complete_wave hof.2.1 s k b .zero .zero _ (Result.gives_plain a 1 (s.parts c k)
    (fun j => q32 (lget 0 (s.specials c blk j) (s.rd32 c b j).toNat)) 0)
  refine ⟨w, ?_, (hran.now hla).1, hran.moved, by rw [hran.rest]⟩
  rw [exec_srd hof a hidx, hset, State.onWave_setWave hof.2.2 (wave_of_ofWave hof)]

end Srd

/-! ### SWR -/

theorem distinct_of_all_eq {l : List Nat} {m : Nat} (hl : l ≠ []) (h : ∀ x ∈ l, x = m) : distinct l = [m] := by
  induction l with
  | nil => exact absurd rfl hl
  | cons x t ih =>
    obtain rfl := h x List.mem_cons_self
    rw [distinct]
    split
    · next hx => exact ih (List.ne_nil_of_mem (List.contains_iff_mem.mp hx)) fun y hy => h y (List.mem_cons_of_mem _ hy)
    · next hx =>
      cases t with
      | nil => rfl
      | cons y t =>
        obtain rfl := h y (List.mem_cons_of_mem _ List.mem_cons_self)
        exact absurd (List.contains_iff_mem.mpr List.mem_cons_self) hx

theorem distinct_map_lanesOf {p : LaneSet} (hp : p ≠ 0) {f : Nat → Nat} {m : Nat}
    (h : ∀ j, j < 32 ∧ p.getLsbD j = true → f j = m) : distinct ((lanesOf p).map f) = [m] := by
  refine distinct_of_all_eq (fun h => lanesOf_ne_nil hp (List.map_eq_nil_iff.mp h)) fun x hx => ?_
  obtain ⟨j, hj, rfl⟩ := List.mem_map.mp hx
  exact h j ((mem_lanesOf _ j).mp hj)

/-- The bits that the participating lanes name. -/
def orOf (p : LaneSet) (f : Nat → Word) : Word := (lanesOf p).foldl (fun m i => m ||| f i) 0

theorem getLsbD_orOf (p : LaneSet) (f : Nat → Word) (n : Nat) :
    (orOf p f).getLsbD n = (List.range 32).any fun j => p.getLsbD j && (f j).getLsbD n := by
  have hfold (l : List Nat) (m : Word) : (l.foldl (fun m i => m ||| f i) m).getLsbD n =
      (m.getLsbD n || l.any fun i => (f i).getLsbD n) := by
    induction l generalizing m with
    | nil => simp
    | cons x l ih => rw [List.foldl_cons, ih, BitVec.getLsbD_or, List.any_cons, Bool.or_assoc]
  rw [orOf, hfold, lanesOf, List.any_filter, laneIds_eq]
  simp only [BitVec.ofNat_eq_ofNat, BitVec.getLsbD_zero, Bool.false_or]

theorem getLsbD_w1c {z : Nat} (old : BitVec z) (v : Word) {n : Nat} (hn : n < z) :
    (w1c old v).getLsbD n = (old.getLsbD n && !v.getLsbD n) := by
  simp [w1c, hn]

/-- The instruction in hand of a wave with another %fpstat. -/
def Cur.setFpstat (c : Cur) (x : BitVec 6) : Cur := { c with wave := { c.wave with fpstat := x } }

section Swr

variable {s : State} {c : Cur} {k : Ctl} {b d : Opnd} (hc : s.cur? = some c) (htrap : s.paramTrap c (s.parts c k) 1 [b, d] = none)
include hc htrap

theorem exec_swr_refused
    (h : (∃ j, (j < 32 ∧ (s.parts c k).getLsbD j = true) ∧ (s.rd32 c b j).toNat ≠ 9 ∧ (s.rd32 c b j).toNat ≠ 10) ∨
      ∃ j j', (j < 32 ∧ (s.parts c k).getLsbD j = true) ∧ (j' < 32 ∧ (s.parts c k).getLsbD j' = true) ∧
        (s.rd32 c b j).toNat ≠ (s.rd32 c b j').toNat) : exec (.swr k b d) s = .next (s.raise c 0x02 1) := by
  have hmem (j : Nat) (hj : j < 32 ∧ (s.parts c k).getLsbD j = true) :
      (s.rd32 c b j).toNat ∈ distinct ((lanesOf (s.parts c k)).map fun j => (s.rd32 c b j).toNat) :=
    (mem_distinct _ _).mpr (List.mem_map.mpr ⟨j, (mem_lanesOf _ j).mpr hj, rfl⟩)
  refine (onCur_eq hc _).trans (congrArg _ ?_)
  simp only [htrap]
  generalize distinct ((lanesOf (s.parts c k)).map fun j => (s.rd32 c b j).toNat) = l at hmem
  have hnil : l ≠ [] := by
    obtain ⟨j, hj, -⟩ | ⟨j, -, hj, -⟩ := h <;> exact List.ne_nil_of_mem (hmem j hj)
  have hone {n : Nat} (hl : l = [n]) (j : Nat) (hj : j < 32 ∧ (s.parts c k).getLsbD j = true) : (s.rd32 c b j).toNat = n :=
    List.mem_singleton.mp (hl ▸ hmem j hj)
  have hother {n : Nat} (hn : n = 9 ∨ n = 10) : l ≠ [n] := by
    intro hl
    obtain ⟨j, hj, h9, h10⟩ | ⟨j, j', hj, hj', hne⟩ := h
    · exact hn.elim (fun hn => h9 (hn ▸ hone hl j hj)) fun hn => h10 (hn ▸ hone hl j hj)
    · exact hne ((hone hl j hj).trans (hone hl j' hj').symm)
  split
  · exact absurd rfl hnil
  · exact absurd rfl (hother (.inl rfl))
  · exact absurd rfl (hother (.inr rfl))
  · rfl

variable (hflags : s.paramFlags c (s.parts c k) 1 [b, d] = 0) (hp : s.parts c k ≠ 0)
include hflags hp

theorem exec_swr_fpstat (hm : ∀ j, j < 32 ∧ (s.parts c k).getLsbD j = true → (s.rd32 c b j).toNat = 9) :
    exec (.swr k b d) s = .next (s.complete (c.setFpstat (w1c c.wave.fpstat (orOf (s.parts c k) (s.rd32 c d)))) k b d .zero {}) := by
  refine (onCur_eq hc _).trans (congrArg _ ?_)
  simp only [htrap, hflags, distinct_map_lanesOf hp hm]
  rfl

theorem exec_swr_mstat (hm : ∀ j, j < 32 ∧ (s.parts c k).getLsbD j = true → (s.rd32 c b j).toNat = 10) :
    exec (.swr k b d) s = .next ((s.complete c k b d .zero {}).onSeq c.bid fun q =>
      { q with mstat := w1c q.mstat (orOf (s.parts c k) (s.rd32 c d)) ||| q.mstatNow }) := by
  refine (onCur_eq hc _).trans (congrArg _ ?_)
  simp only [htrap, hflags, distinct_map_lanesOf hp hm]
  rfl

end Swr

/-! ### What SWR leaves -/

section SwrLeaves

variable {s : State} {c : Cur} {k : Ctl} {blk : Block} {b d : Opnd} (hof : OfWave s c blk)
  (htrap : s.paramTrap c (s.parts c k) 1 [b, d] = none) (hflags : s.paramFlags c (s.parts c k) 1 [b, d] = 0)
  (hp : s.parts c k ≠ 0) (hla : k.la = 0)
include hof htrap hflags hp hla

/-- SWR of %fpstat clears the named bits of the wave's. -/
theorem swr_fpstat (hm : ∀ j, j < 32 ∧ (s.parts c k).getLsbD j = true → (s.rd32 c b j).toNat = 9) :
    ∃ w, exec (.swr k b d) s = .next (s.setWave c.bid c.wid w) ∧ KeepsRegs c.wave w ∧ Moved c.wave w c.active ∧
      w.fpstat = w1c c.wave.fpstat (orOf (s.parts c k) (s.rd32 c d)) := by
  let c' : Cur := c.setFpstat (w1c c.wave.fpstat (orOf (s.parts c k) (s.rd32 c d)))
  have hagent : c'.agent = .wave c'.bid c'.wid := hof.2.1
  obtain ⟨w, hset, hran⟩ := State.complete_wave hagent s k b d .zero {} (Result.gives_none (s.parts c k) (fun _ => 0) 0)
  have hregs : KeepsRegs c'.wave w := keepsRegs_of_wrote_nothing (hran.now hla).1
  refine ⟨w, ?_, hregs, ⟨hran.moved.pc, hran.moved.kept⟩, ?_⟩
  · exact (exec_swr_fpstat hof.1 htrap hflags hp hm).trans (congrArg _ hset)
  · rw [hran.rest]
    exact BitVec.or_zero

/-- SWR of %mstat clears the named bits of the sequencer's, but for the flags of this clock. -/
theorem swr_mstat (hm : ∀ j, j < 32 ∧ (s.parts c k).getLsbD j = true → (s.rd32 c b j).toNat = 10) :
    ∃ w, exec (.swr k b d) s = .next (s.setBlock c.bid { blk.setWave c.wid w with seq := { blk.seq with
        mstat := w1c blk.seq.mstat (orOf (s.parts c k) (s.rd32 c d)) ||| blk.seq.mstatNow } }) ∧
      KeepsRegs c.wave w ∧ Moved c.wave w c.active ∧ w.fpstat = c.wave.fpstat := by
  obtain ⟨w, hset, hran⟩ := State.complete_wave hof.2.1 s k b d .zero {} (Result.gives_none (s.parts c k) (fun _ => 0) 0)
  refine ⟨w, ?_, keepsRegs_of_wrote_nothing (hran.now hla).1, hran.moved, ?_⟩
  · rw [exec_swr_mstat hof.1 htrap hflags hp hm, hset, State.onSeq, State.onBlock_eq (State.block_setWave hof.2.2 _ _),
      State.setWave_eq_setBlock hof.2.2, State.setBlock_setBlock]
    rfl
  · rw [hran.rest]
    exact BitVec.or_zero

end SwrLeaves

/-- Settles O47: a lane's special registers stand in a list by their index, and SWR joins what its lanes name. -/
theorem specialRegisters : Obligations.SpecialRegisters := by
  unfold Obligations.SpecialRegisters
  intro s c k blk a b d hof hla htrap hflags p part idx launch die seed value
  have hw : blk.wave? c.wid = some c.wave := wave_of_ofWave hof
  have hnamed (n : Nat) : ((lanesOf p).map idx).contains n = true ↔ ∃ j, part j ∧ idx j = n := contains_map_lanesOf p idx n
  refine ⟨fun ⟨j, ⟨hj, hp⟩, h22⟩ => exec_srd_unassigned hof a hj hp h22, fun hidx => ?_, exec_swr_refused hof.1 htrap,
    fun hp m hm h910 => ?_⟩
  · obtain ⟨w, hexec, hwrote, hmoved, hcapq⟩ := exec_srd_wave hof hla a fun j hj hp => hidx j ⟨hj, hp⟩
    refine ⟨_, w.afterSrd ((lanesOf p).map idx) s.clk, _, hexec, rfl,
      wrote_of_lanes hwrote (fun _ _ => ⟨rfl, rfl⟩) rfl, hmoved.pc,
      fun j _ => low32_q32 _, fun h16 => ?_, fun h13 => ?_, fun h13 => ?_⟩
    · exact if_pos ((hnamed 16).mpr h16)
    · exact if_pos ((hnamed 13).mpr h13)
    · refine (if_neg fun h => ?_).trans hcapq
      obtain ⟨j, hj, hidx⟩ := (hnamed 13).mp h
      exact h13 j hj hidx
  · rcases h910 with rfl | rfl
    · obtain ⟨w, hexec, hregs, hmoved, hfp⟩ := swr_fpstat hof htrap hflags hp hla hm
      refine ⟨_, w, blk.setWave c.wid w, hexec, State.block_setWave hof.2.2 _ _, Block.wave_setWave hw w,
        ⟨w, State.wave_setWave hof.2.2 hw w, hregs, hmoved.pc⟩, keepsBytes_setWave s _ _ _,
        fun n hn => ?_, fun n _ => ?_⟩
      · rw [hfp, getLsbD_w1c _ _ hn, getLsbD_orOf]
        rfl
      · simp
    · obtain ⟨w, hexec, hregs, hmoved, hfp⟩ := swr_mstat hof htrap hflags hp hla hm
      have hblock := State.block_setBlock s c.bid c.bid { blk.setWave c.wid w with seq := { blk.seq with
        mstat := w1c blk.seq.mstat (orOf (s.parts c k) (s.rd32 c d)) ||| blk.seq.mstatNow } }
      rw [if_pos rfl] at hblock
      have hwave := Block.wave_setWave hw w
      refine ⟨_, w, _, hexec, hblock, hwave, ⟨w, State.wave_eq hblock hwave, hregs, hmoved.pc⟩,
        keepsBytes_setBlock hof.2.2 rfl, fun n _ => ?_, fun n hn => ?_⟩
      · simp [hfp]
      · rw [BitVec.getLsbD_or, getLsbD_w1c _ _ hn, getLsbD_orOf]
        rfl

end Sys2Proof.Machine
end

section
/-! SUPPORT. Named scratchpad queues: the slots that pushes fill and pops take, one after another (R76, R292). -/

namespace Sys2Proof.Machine

/-! ### Lists by index -/

theorem lget_mapIdx {α : Type} (d : α) (f : Nat → α → α) (i : Nat) {l : List α} {n : Nat} (h : n < l.length) :
    lget d (mapIdx f i l) n = f (i + n) (lget d l n) := by
  induction l generalizing i n with
  | nil => cases h
  | cons x t ih =>
    cases n with
    | zero => rfl
    | succ n => rw [mapIdx, lget, lget, ih _ (Nat.lt_of_succ_lt_succ h), Nat.add_assoc, Nat.add_comm 1]

/-- Slots that follow one another around a queue of n slots are different. -/
theorem add_mod_ne {t j i n : Nat} (hji : j < i) (hi : i < n) : (t + j) % n ≠ (t + i) % n := by
  intro h
  have hdvd : n ∣ (t + i) - (t + j) := (Nat.modEq_iff_dvd' (by omega)).mp h
  have hle := Nat.le_of_dvd (by omega) hdvd
  omega

theorem add_mod_succ (t j n : Nat) : ((t + 1) % n + j) % n = (t + (j + 1)) % n := by
  rw [Nat.mod_add_mod, Nat.add_assoc, Nat.add_comm 1]

/-! ### The queues of a block -/

section Queues

variable {b : Block} (hlen : b.queues.length = 8) (q : BitVec 3) (x : SpQueue)

include hlen in
theorem Block.queue_setQueue : (b.setQueue q x).queue q = x := by
  rw [Block.queue, Block.setQueue, lget_lset _ _ _ _ _ (by omega), if_pos rfl]

include hlen in
theorem Block.queues_setQueue : (b.setQueue q x).queues.length = 8 := (lset_length _ _ _).trans hlen

include hlen in
theorem Block.queue_serve : (b.serve q).queue q = { b.queue q with served := true } := Block.queue_setQueue hlen q _

end Queues

/-! ### Pushes -/

theorem lget_bytesOf_four (v : Word) {n : Nat} (hn : n < 4) : lget 0 (bytesOf 4 v.toNat) n = v.extractLsb' (8 * n) 8 := by
  refine BitVec.eq_of_toNat_eq ?_
  rw [BitVec.extractLsb'_toNat, Nat.shiftRight_eq_div_pow]
  interval_cases n <;> simp only [bytesOf, lget, BitVec.toNat_ofNat] <;> omega

theorem Block.spadByte_putSpad (b : Block) (off : Nat) (bs : List Byte) (o : Nat) : (b.putSpad off bs).spadByte o =
    if off ≤ o ∧ o < off + bs.length then lget 0 bs (o - off) else b.spadByte o :=
  tget_putBytes b.spad off bs o

/-- The first four bytes of different slots of four bytes or more lie apart. -/
theorem SpQueue.slotAt_apart {x : SpQueue} (hsize : 4 ≤ x.size) {i j : Nat} (h : i ≠ j) {n : Nat} (hn : n < 4) :
    ¬ (x.slotAt j ≤ x.slotAt i + n ∧ x.slotAt i + n < x.slotAt j + 4) := by
  unfold SpQueue.slotAt
  rcases Nat.lt_or_gt_of_ne h with hlt | hlt
  · have := Nat.mul_le_mul_right x.size (Nat.succ_le_of_lt hlt)
    rw [Nat.succ_mul] at this
    omega
  · have := Nat.mul_le_mul_right x.size (Nat.succ_le_of_lt hlt)
    rw [Nat.succ_mul] at this
    omega

/-- What pushes of some lanes, in their order, leave of a block: the slots from the tail are pushed and hold the handles. -/
structure Block.Pushed (b b' : Block) (q : BitVec 3) (l : List Nat) (v : Nat → Word) : Prop where
  waves : b'.waves = b.waves
  queues : b'.queues.length = 8
  queue : b'.queue q = { b.queue q with
    free := (b.queue q).free - l.length, filled := (b.queue q).filled + l.length
    tail := ((b.queue q).tail + l.length) % (b.queue q).count, slots := (b'.queue q).slots }
  slots : (b'.queue q).slots.length = (b.queue q).count
  slot : ∀ j < l.length, lget .free (b'.queue q).slots (((b.queue q).tail + j) % (b.queue q).count) = .pushed
  bytes : ∀ j i, l[j]? = some i → ∀ n < 4,
    b'.spadByte ((b.queue q).slotAt (((b.queue q).tail + j) % (b.queue q).count) + n) = (v i).extractLsb' (8 * n) 8

/-- One more push takes the slot at the tail. -/
theorem Block.Pushed.push {b b' : Block} {q : BitVec 3} {l : List Nat} {v : Nat → Word} (h : b.Pushed b' q l v) (i : Nat)
    (hroom : l.length < (b.queue q).count) (hsize : 4 ≤ (b.queue q).size) : b.Pushed (b'.push q (v i)) q (l ++ [i]) v := by
  have hqueue : (b'.push q (v i)).queue q = { b'.queue q with
      free := (b'.queue q).free - 1, filled := (b'.queue q).filled + 1, tail := ((b'.queue q).tail + 1) % (b'.queue q).count
      slots := lset (b'.queue q).slots (b'.queue q).tail .pushed } :=
    Block.queue_setQueue (b := b'.putSpad _ _) h.queues q _
  have hbyte (o : Nat) : (b'.push q (v i)).spadByte o = if (b'.queue q).slotAt (b'.queue q).tail ≤ o ∧
      o < (b'.queue q).slotAt (b'.queue q).tail + 4 then lget 0 (bytesOf 4 (v i).toNat) (o - (b'.queue q).slotAt (b'.queue q).tail)
      else b'.spadByte o := Block.spadByte_putSpad b' _ _ o
  have htail : (b'.queue q).tail = ((b.queue q).tail + l.length) % (b.queue q).count := by rw [h.queue]
  have hat (n : Nat) : (b'.queue q).slotAt n = (b.queue q).slotAt n := by rw [h.queue]; rfl
  have hne {j : Nat} (hj : j < l.length) :
      ((b.queue q).tail + j) % (b.queue q).count ≠ ((b.queue q).tail + l.length) % (b.queue q).count := add_mod_ne hj hroom
  refine ⟨h.waves, Block.queues_setQueue (b := b'.putSpad _ _) h.queues q _, ?_, ?_, fun j hj => ?_, fun j i' hi' n hn => ?_⟩
  · rw [hqueue, h.queue, List.length_append, List.length_singleton]
    simp only [Nat.mod_add_mod, Nat.sub_sub, Nat.add_assoc]
  · rw [hqueue]
    exact (lset_length _ _ _).trans h.slots
  · rw [hqueue, htail]
    rw [List.length_append, List.length_singleton] at hj
    have hlt : ((b.queue q).tail + l.length) % (b.queue q).count < (b'.queue q).slots.length := by
      rw [h.slots]
      exact Nat.mod_lt _ (by omega)
    rw [lget_lset _ _ _ _ _ hlt]
    split
    · rfl
    · next hother => exact h.slot j (Nat.lt_of_le_of_ne (by omega) fun e => hother (by rw [e]))
  · rw [hbyte, htail, hat]
    rcases Nat.lt_or_ge j l.length with hj | hj
    · rw [if_neg (SpQueue.slotAt_apart hsize (hne hj) hn)]
      rw [List.getElem?_append_left hj] at hi'
      exact h.bytes j i' hi' n hn
    · rw [List.getElem?_append_right hj] at hi'
      obtain ⟨hj0, hi0⟩ : j - l.length = 0 ∧ i = i' := by
        rcases hz : j - l.length with _ | m
        · rw [hz] at hi'; exact ⟨rfl, Option.some.inj hi'⟩
        · rw [hz] at hi'; cases hi'
      obtain rfl : j = l.length := by omega
      subst hi0
      rw [if_pos ⟨Nat.le_add_right _ _, by omega⟩, Nat.add_sub_cancel_left, lget_bytesOf_four _ hn]

theorem Block.pushed_foldl {b : Block} {q : BitVec 3} (hlen : b.queues.length = 8)
    (hslots : (b.queue q).slots.length = (b.queue q).count) (htail : (b.queue q).tail < (b.queue q).count) (hsize : 4 ≤ (b.queue q).size) (v : Nat → Word) (l : List Nat)
    (hroom : l.length ≤ (b.queue q).count) : b.Pushed (l.foldl (fun x i => x.push q (v i)) b) q l v := by
  induction l using List.reverseRecOn with
  | nil => exact ⟨rfl, hlen, by simp [Nat.mod_eq_of_lt htail], hslots,
      fun _ hj => absurd hj (Nat.not_lt_zero _), fun _ _ hi => by cases hi⟩
  | append_singleton l i ih =>
    rw [List.length_append, List.length_singleton] at hroom
    rw [List.foldl_concat]
    exact (ih (by omega)).push i (by omega) hsize

/-! ### Pops -/

/-- The handle that a pop of the slot j places after the head gives: the pushed word, or the offset of an engine-filled slot (R292). -/
def Block.handleAt (b : Block) (q : BitVec 3) (j : Nat) : Word :=
  let x := b.queue q
  let n := (x.head + j) % x.count
  BitVec.ofNat 32 (if lget .free x.slots n = .pushed then ofBytes (b.spadBytes (x.slotAt n) 4) else x.slotAt n)

theorem Block.pop_snd {b : Block} {q : BitVec 3} (hhead : (b.queue q).head < (b.queue q).count) : (b.pop q).2 = b.handleAt q 0 := by
  simp only [Block.pop, Block.handleAt, Nat.add_zero, Nat.mod_eq_of_lt hhead]

section Pop

variable {b : Block} {q : BitVec 3} (hlen : b.queues.length = 8)
include hlen

theorem Block.queue_pop : (b.pop q).1.queue q = { b.queue q with
    filled := (b.queue q).filled - 1, head := ((b.queue q).head + 1) % (b.queue q).count
    slots := lset (b.queue q).slots (b.queue q).head .popped } := Block.queue_setQueue hlen q _

/-- A pop leaves the handles of the slots after its own. -/
theorem Block.handleAt_pop (hhead : (b.queue q).head < (b.queue q).count) {j : Nat} (hj : j + 1 < (b.queue q).count) :
    (b.pop q).1.handleAt q j = b.handleAt q (j + 1) := by
  have hne : ((b.queue q).head + (j + 1)) % (b.queue q).count ≠ (b.queue q).head := by
    have h := add_mod_ne (t := (b.queue q).head) (Nat.zero_lt_succ j) hj
    rw [Nat.add_zero, Nat.mod_eq_of_lt hhead] at h
    exact h.symm
  simp only [Block.handleAt, Block.queue_pop hlen, add_mod_succ, lget_lset_ne _ _ _ _ _ hne]
  rfl

end Pop

/-- What pops for some lanes, in their order, leave of a block, and the handles that they give. -/
structure Block.Popped (b b' : Block) (q : BitVec 3) (l : List Nat) (hs : List (Nat × Word)) : Prop where
  rest : b' = { b with queues := b'.queues }
  queues : b'.queues.length = 8
  queue : b'.queue q = { b.queue q with
    filled := (b.queue q).filled - l.length, head := ((b.queue q).head + l.length) % (b.queue q).count
    slots := (b'.queue q).slots }
  lanes : hs.map Prod.fst = l
  handles : ∀ j i, l[j]? = some i → (i, b.handleAt q j) ∈ hs

theorem Block.popped_popAll {b : Block} {q : BitVec 3} (hlen : b.queues.length = 8) (hhead : (b.queue q).head < (b.queue q).count)
    (l : List Nat) (hroom : l.length ≤ (b.queue q).count) : b.Popped (b.popAll q l).1 q l (b.popAll q l).2 := by
  induction l generalizing b with
  | nil => exact ⟨rfl, hlen, by simp [Block.popAll, Nat.mod_eq_of_lt hhead], rfl, fun _ _ hi => by cases hi⟩
  | cons i t ih =>
    rw [List.length_cons] at hroom
    have hqueue := Block.queue_pop (q := q) hlen
    have h := ih (b := (b.pop q).1) (Block.queues_setQueue hlen q _) (by rw [hqueue]; exact Nat.mod_lt _ (by omega))
      (by rw [hqueue]; exact Nat.le_of_succ_le hroom)
    have hsplit : b.popAll q (i :: t) =
        (((b.pop q).1.popAll q t).1, (i, (b.pop q).2) :: ((b.pop q).1.popAll q t).2) := rfl
    rw [hsplit]
    refine ⟨?_, h.queues, ?_, ?_, fun j i' hi' => ?_⟩
    · exact h.rest
    · rw [h.queue, hqueue, List.length_cons]
      simp only [add_mod_succ, Nat.sub_sub, Nat.add_comm 1]
    · rw [List.map_cons, h.lanes]
    · cases j with
      | zero =>
        obtain rfl : i = i' := Option.some.inj hi'
        rw [Block.pop_snd hhead]
        exact List.mem_cons_self
      | succ j =>
        rw [List.getElem?_cons_succ] at hi'
        have hj : j < t.length := (List.getElem?_eq_some_iff.mp hi').1
        rw [← Block.handleAt_pop hlen hhead (by omega)]
        exact List.mem_cons_of_mem _ (h.handles j i' hi')

theorem handleOf_eq {hs : List (Nat × Word)} (hnodup : (hs.map Prod.fst).Nodup) {i : Nat} {h : Word} (hmem : (i, h) ∈ hs) :
    handleOf hs i = h := by
  induction hs with
  | nil => cases hmem
  | cons y t ih =>
    rw [List.map_cons, List.nodup_cons] at hnodup
    rw [handleOf, List.find?_cons]
    rcases List.mem_cons.mp hmem with rfl | hmem
    · simp
    · have hne : (y.1 == i) = false := beq_false_of_ne fun e => hnodup.1 (List.mem_map.mpr ⟨_, hmem, e.symm⟩)
      rw [hne]
      exact ih hnodup.2 hmem

/-! ### Slots given back, and slots that can be popped -/

theorem SpQueue.giveBack_frame (x : SpQueue) (n : Nat) :
    x.giveBack n = { x with free := x.free + n, slots := (x.giveBack n).slots } := rfl

/-- Slots that are given back were popped: the pushed ones stay. -/
theorem SpQueue.pushed_giveBack (x : SpQueue) (n : Nat) {j : Nat} (hj : j < x.slots.length) :
    lget .free (x.giveBack n).slots j = .pushed ↔ lget .free x.slots j = .pushed := by
  rw [SpQueue.giveBack, lget_mapIdx _ _ _ hj, Nat.zero_add]
  split
  · next h =>
    have hpopped := (List.mem_filter.mp (List.mem_of_mem_take (List.contains_iff_mem.mp h))).2
    rw [beq_iff_eq.mp hpopped]
    simp
  · rfl

theorem SpQueue.canPop_iff (x : SpQueue) (m : Nat) : x.canPop m = true ↔ m ≤ x.count ∧
    ∀ j < m, lget .free x.slots ((x.head + j) % x.count) = .pushed ∨ lget .free x.slots ((x.head + j) % x.count) = .engineFilled := by
  simp only [SpQueue.canPop, Bool.and_eq_true, decide_eq_true_eq, List.all_eq_true, mem_upFrom, Nat.zero_le, true_and, Nat.zero_add,
    Bool.or_eq_true, beq_iff_eq]

end Sys2Proof.Machine
end

section
/-! SUPPORT. QPUSH, QPOP and QTRY on a named queue, and BCW, of a wave (R76, R292, R293, R402, R485). -/

namespace Sys2Proof.Machine

/-! ### Lanes that wait at an instruction -/

/-- The lanes of a set wait at the instruction in hand, the other active lanes move on, and no register and no byte changes. -/
structure Blocks (s t : State) (c : Cur) (p : LaneSet) (why : Nat → Wait) : Prop where
  went : Went t c (c.active &&& ~~~p)
  bytes : KeepsBytes s t
  waits : Waits t c p why

section Blocks

variable {s : State} {c : Cur} {k : Ctl} {blk : Block} {p : LaneSet} (hof : OfWave s c blk)
include hof

theorem blocks_setWave {u : Wave} {why : Nat → Wait} (huni : u.w = c.wave.w)
    (hlane : ∀ i < 32, (u.lane i).v = (c.wave.lane i).v ∧ (u.lane i).tags = (c.wave.lane i).tags ∧
      (u.lane i).pc = if (c.active &&& ~~~p).getLsbD i = true then succPc (c.wave.lane i).pc else (c.wave.lane i).pc)
    (hst : ∀ i < 32, p.getLsbD i = true → (u.lane i).st = .blocked (why i)) : Blocks s (s.setWave c.bid c.wid u) c p why := by
  have hwave := State.wave_setWave hof.2.2 (wave_of_ofWave hof) u
  exact ⟨⟨u, hwave, keepsRegs_of_lanes (fun i hi => ⟨(hlane i hi).1, (hlane i hi).2.1⟩) huni, fun i hi => (hlane i hi).2.2⟩,
    keepsBytes_setWave s _ _ u, ⟨u, hwave, hst⟩⟩

theorem blocks_queueBlock (k : Ctl) (b : Opnd) (why : Nat → Wait) : Blocks s (s.queueBlock c k b p why) c p why := by
  have hlane {i : Nat} (hi : i < 32) := c.onward_lane k b .zero .zero (c.active &&& ~~~p) hi
  rw [State.queueBlock, State.putCur_wave hof.2.1]
  refine blocks_setWave hof (c.onward_w k b .zero .zero (c.active &&& ~~~p)) (fun i hi => ?_) fun i hi hp => ?_
  · obtain ⟨hv, htags, -, hpc⟩ := hlane hi
    rw [Wave.lane_mapLanes _ _ _ hi]
    split <;> exact ⟨hv, htags, hpc⟩
  · rw [Wave.lane_mapLanes _ _ _ hi, if_pos hp]

/-- The wave whose lanes wait to issue their instruction again. -/
def waitingWave (s : State) (c : Cur) (p : LaneSet) (why : Wait) : Wave :=
  ((c.wave.pass (c.active &&& ~~~p)).endIf c.yields).mapLanes fun i l =>
    if p.getLsbD i then { l with st := .blocked why, paid := true, waitsTo := why.bound s.postedNext l.waitsTo } else l

theorem State.waitAgain_eq (why : Wait) : s.waitAgain c p why = s.setWave c.bid c.wid (waitingWave s c p why) := by
  simp only [State.waitAgain, hof.2.1, State.putCur]
  rfl

omit hof in
theorem lane_waitingWave (s : State) (c : Cur) (p : LaneSet) (why : Wait) {i : Nat} (hi : i < 32) :
    let l := (waitingWave s c p why).lane i
    l.v = (c.wave.lane i).v ∧ l.tags = (c.wave.lane i).tags ∧
      (l.pc = if (c.active &&& ~~~p).getLsbD i = true then succPc (c.wave.lane i).pc else (c.wave.lane i).pc) ∧
      (p.getLsbD i = true → l.st = .blocked why) := by
  have hpass : ((c.wave.pass (c.active &&& ~~~p)).endIf c.yields).lane i = if (c.active &&& ~~~p).getLsbD i then
      { c.wave.lane i with pc := succPc (c.wave.lane i).pc, paid := false, waitsTo := none } else c.wave.lane i :=
    Wave.advance_lane (c.wave.countIssue (c.active &&& ~~~p)) _ i hi
  rw [waitingWave, Wave.lane_mapLanes _ _ _ hi, hpass]
  cases p.getLsbD i <;> cases (c.active &&& ~~~p).getLsbD i <;> simp

theorem blocks_waitAgain (why : Wait) : Blocks s (s.waitAgain c p why) c p fun _ => why := by
  rw [State.waitAgain_eq hof]
  refine blocks_setWave hof rfl (fun i hi => ?_) fun i hi hp => ?_
  · obtain ⟨hv, htags, hpc, -⟩ := lane_waitingWave s c p why hi
    exact ⟨hv, htags, hpc⟩
  · exact (lane_waitingWave s c p why hi).2.2.2 hp

end Blocks

/-! ### What the instructions of a queue share (R485) -/

section Start

variable {s : State} {c : Cur} {k : Ctl} {blk : Block} {q : BitVec 3} (hof : OfWave s c blk)
include hof

theorem queueStart_undeclared (hp : s.parts c k ≠ 0) (hcount : (blk.queue q).count = 0) (detail : Nat)
    (go : State → Cur → Block → LaneSet → Nat → State) : queueStart s k q detail go = .next (s.raise c 0x02 6) := by
  refine (onBlk_zero hof k _).trans (congrArg _ ?_)
  exact if_pos ⟨hcount, hp⟩

theorem queueStart_short (hcount : 0 < (blk.queue q).count) (hm : (blk.queue q).count < (lanesOf (s.parts c k)).length)
    (detail : Nat) (go : State → Cur → Block → LaneSet → Nat → State) :
    queueStart s k q detail go = .next (s.raise c 0x02 detail) := by
  refine (onBlk_zero hof k _).trans (congrArg _ ?_)
  exact (if_neg fun h => absurd h.1 hcount.ne').trans (if_pos hm)

variable (hregion : c.wave.inRegion = false)
include hregion

theorem queueStart_empty (hp : s.parts c k = 0) (detail : Nat) (go : State → Cur → Block → LaneSet → Nat → State) :
    queueStart s k q detail go = .next (s.complete c k .zero .zero .zero {}) := by
  have hm : ¬ (blk.queue q).count < (lanesOf (s.parts c k)).length := by
    rw [(lanesOf_eq_nil _).mpr hp]
    exact Nat.not_lt_zero _
  refine (onBlk_zero hof k _).trans (congrArg _ ?_)
  refine (if_neg fun h => h.2 hp).trans ((if_neg hm).trans ?_)
  rw [State.closing_eq hregion]
  exact if_pos hp

theorem queueStart_go (hp : s.parts c k ≠ 0) (hm : (lanesOf (s.parts c k)).length ≤ (blk.queue q).count) (detail : Nat)
    (go : State → Cur → Block → LaneSet → Nat → State) :
    queueStart s k q detail go = .next (go s c blk (s.parts c k) (lanesOf (s.parts c k)).length) := by
  have hdeclared : (blk.queue q).count ≠ 0 := (Nat.lt_of_lt_of_le (List.length_pos_iff.mpr (lanesOf_ne_nil hp)) hm).ne'
  refine (onBlk_zero hof k _).trans (congrArg _ ?_)
  refine (if_neg fun h => hdeclared h.1).trans ((if_neg (Nat.not_lt.mpr hm)).trans ?_)
  rw [State.closing_eq hregion]
  refine (if_neg hp).trans ?_
  rw [hof.2.2]

end Start

/-- Each instruction of a queue is a queueStart. -/
theorem exec_eq_queueStart {s : State} {k : Ctl} {q : BitVec 3} {a b : Opnd} {i : Instr}
    (hi : i ∈ [Instr.qpush k q b, .qpop k q a, .qtry k q a]) : ∃ detail go, exec i s = queueStart s k q detail go := by
  simp only [List.mem_cons, List.not_mem_nil, or_false] at hi
  obtain rfl | rfl | rfl := hi
  · change ∃ detail go, execQpush k q b s = _
    exact ⟨1, _, rfl⟩
  · change ∃ detail go, execQpop k q a s = _
    exact ⟨0, _, rfl⟩
  · change ∃ detail go, execQtry k q a s = _
    exact ⟨0, _, rfl⟩

/-! ### Completing on a block that has changed -/

theorem Block.wave_congr {x y : Block} (h : x.waves = y.waves) (i : Nat) : x.wave? i = y.wave? i := by
  rw [Block.wave?, h]
  rfl

/-- The instruction in hand of a wave whose block has changed. -/
theorem State.cur_setBlock {s : State} {c : Cur} {blk x : Block} {w : Wave} (hof : OfWave s c blk) (hctx : x.ctx = blk.ctx)
    (hparams : x.params = blk.params) (htrap : x.trapOnParam = blk.trapOnParam) (hw : x.wave? c.wid = some w) :
    (s.setBlock c.bid x).cur? = some { c with wave := w } := by
  obtain ⟨hc, hagent, hb⟩ := hof
  unfold State.cur? at hc
  split at hc
  · cases hc
  next x hissue =>
    split at hc
    · next b i ha =>
      split at hc
      · cases hc
      next y hy =>
        split at hc
        · cases hc
        next v hv =>
          obtain rfl := Option.some.inj hc
          obtain rfl : y = blk := Option.some.inj (hy.symm.trans hb)
          simp only [State.cur?, State.setBlock_issue, hissue, ha, State.block_setBlock, if_true, hw, hctx, hparams, htrap]
    · next q ha =>
      obtain rfl := Option.some.inj hc
      cases ha.symm.trans hagent
    · cases hc

/-- An instruction of a queue completes on the block that its slots have changed. -/
theorem State.complete_setBlock {s : State} {c : Cur} {x : Block} {w0 : Wave} (hagent : c.agent = .wave c.bid c.wid)
    (hx : x.wave? c.wid = some w0) (k : Ctl) (hla : k.la = 0) (b c' d : Opnd) {r : Result} {a : Opnd} {n : Nat} {p : LaneSet}
    {f : Nat → Quad} (hr : r.Gives a n p f noTag) :
    ∃ w, (s.setBlock c.bid x).complete c k b c' d r = (s.setBlock c.bid x).setWave c.bid c.wid w ∧
      ((s.setBlock c.bid x).setWave c.bid c.wid w).block? c.bid = some (x.setWave c.wid w) ∧
      ((s.setBlock c.bid x).setWave c.bid c.wid w).wave? c.bid c.wid = some w ∧
      Wrote c.wave w a n p f noTag ∧ Moved c.wave w c.active ∧ w.popped = c.wave.popped := by
  have hblock : (s.setBlock c.bid x).block? c.bid = some x := (State.block_setBlock s c.bid c.bid x).trans (if_pos rfl)
  obtain ⟨w, hset, hran⟩ := State.complete_wave hagent (s.setBlock c.bid x) k b c' d r hr
  exact ⟨w, hset, State.block_setWave hblock c.wid w, State.wave_setWave hblock hx w, (hran.now hla).1, hran.moved,
    by rw [hran.rest]⟩

section Instructions

variable {s : State} {c : Cur} {k : Ctl} {blk : Block} {q : BitVec 3} (hof : OfWave s c blk) (hregion : c.wave.inRegion = false)
  (hp : s.parts c k ≠ 0) (hm : (lanesOf (s.parts c k)).length ≤ (blk.queue q).count)
include hof hregion hp hm

/-! ### QPUSH -/

theorem qpush_stands (b : Opnd)
    (h : (blk.queue q).free < (lanesOf (s.parts c k)).length ∨ (blk.queue q).served = true ∨ blk.queueWaits q true ≠ []) :
    ∃ t, exec (.qpush k q b) s = .next t ∧ Blocks s t c (s.parts c k) fun j =>
      .queue q true (lanesOf (s.parts c k)).length s.freeCtr .zero (s.rd32 c b j) := by
  refine ⟨_, ?_, blocks_queueBlock hof k b _⟩
  change execQpush k q b s = _
  refine (queueStart_go hof hregion hp hm 1 _).trans (congrArg _ ?_)
  refine if_pos ?_
  simpa only [Bool.not_eq_true', List.isEmpty_eq_false_iff] using h

theorem exec_qpush (b : Opnd) (hfree : (lanesOf (s.parts c k)).length ≤ (blk.queue q).free) (hserved : (blk.queue q).served = false)
    (hwaits : blk.queueWaits q true = []) : exec (.qpush k q b) s = .next ((s.setBlock c.bid
      (((lanesOf (s.parts c k)).foldl (fun x i => x.push q (s.rd32 c b i)) blk).serve q)).complete c k b .zero .zero {}) := by
  change execQpush k q b s = _
  refine (queueStart_go hof hregion hp hm 1 _).trans (congrArg _ ?_)
  refine if_neg ?_
  simp [hfree, hserved, hwaits]

/-! ### QPOP and QTRY -/

theorem qpop_stands (a : Opnd)
    (h : ¬ (blk.queue q).canPop (lanesOf (s.parts c k)).length = true ∨ (blk.queue q).served = true ∨
      blk.queueWaits q false ≠ []) :
    ∃ t, exec (.qpop k q a) s = .next t ∧ Blocks s t c (s.parts c k) fun _ =>
      .queue q false (lanesOf (s.parts c k)).length s.freeCtr a 0 := by
  refine ⟨_, ?_, blocks_queueBlock hof k .zero _⟩
  change execQpop k q a s = _
  refine (queueStart_go hof hregion hp hm 0 _).trans (congrArg _ ?_)
  refine if_neg ?_
  simp only [Bool.and_eq_true, Bool.not_eq_true', List.isEmpty_iff]
  rintro ⟨⟨hpop, hserved⟩, hwaits⟩
  obtain h | h | h := h
  · exact h hpop
  · rw [hserved] at h; cases h
  · exact h hwaits

theorem exec_qpop (a : Opnd) (hpop : (blk.queue q).canPop (lanesOf (s.parts c k)).length = true)
    (hserved : (blk.queue q).served = false) (hwaits : blk.queueWaits q false = []) {r : State × List (Nat × Word)}
    (hr : s.takeSlots c blk q (s.parts c k) (lanesOf (s.parts c k)).length = r) :
    exec (.qpop k q a) s = .next (r.1.complete (r.1.recur c) k .zero .zero .zero
      { writes := writesOf a 1 (s.parts c k) fun i => q32 (handleOf r.2 i) }) := by
  change execQpop k q a s = _
  refine (queueStart_go hof hregion hp hm 0 _).trans (congrArg _ ?_)
  refine (if_pos ?_).trans ?_
  · simp only [hpop, hserved, hwaits, List.isEmpty_nil, Bool.not_false, Bool.and_self]
  · rw [hr]

theorem qtry_turn (a : Opnd) (hserved : (blk.queue q).served = true) :
    ∃ t, exec (.qtry k q a) s = .next t ∧ Blocks s t c (s.parts c k) fun _ => .turn := by
  refine ⟨_, ?_, blocks_waitAgain hof .turn⟩
  change execQtry k q a s = _
  refine (queueStart_go hof hregion hp hm 0 _).trans (congrArg _ ?_)
  exact if_pos hserved

theorem exec_qtry (a : Opnd) (hpop : (blk.queue q).canPop (lanesOf (s.parts c k)).length = true)
    (hserved : (blk.queue q).served = false) {r : State × List (Nat × Word)}
    (hr : s.takeSlots c blk q (s.parts c k) (lanesOf (s.parts c k)).length = r) :
    exec (.qtry k q a) s = .next (r.1.complete (r.1.recur c) k .zero .zero .zero
      { writes := writesOf a 2 (s.parts c k) fun i => q64 (1#32 ++ handleOf r.2 i) }) := by
  change execQtry k q a s = _
  refine (queueStart_go hof hregion hp hm 0 _).trans (congrArg _ ?_)
  refine (if_neg ?_).trans ((if_pos hpop).trans ?_)
  · rw [hserved]
    exact Bool.false_ne_true
  · rw [hr]

theorem exec_qtry_fails (a : Opnd) (hpop : ¬ (blk.queue q).canPop (lanesOf (s.parts c k)).length = true)
    (hserved : (blk.queue q).served = false) : exec (.qtry k q a) s = .next ((s.setBlock c.bid (blk.serve q)).complete c k
      .zero .zero .zero { writes := (writesOf a 2 (s.parts c k) fun _ => 0).filter fun w => w.reg % 2 == 1 }) := by
  change execQtry k q a s = _
  refine (queueStart_go hof hregion hp hm 0 _).trans (congrArg _ ?_)
  refine (if_neg ?_).trans (if_neg hpop)
  rw [hserved]
  exact Bool.false_ne_true

end Instructions

/-! ### What a push leaves -/

theorem qpush_pushed {s : State} {c : Cur} {k : Ctl} {blk : Block} {q : BitVec 3} (hof : OfWave s c blk) (hla : k.la = 0) (b : Opnd)
    {x : Block} {l : List Nat} {v : Nat → Word} (hx : blk.Pushed x q l v) :
    ∃ t y, (s.setBlock c.bid (x.serve q)).complete c k b .zero .zero {} = t ∧ Went t c c.active ∧ t.block? c.bid = some y ∧
      y.queue q = { x.queue q with served := true } ∧ y.spad = x.spad := by
  have hwave : (x.serve q).wave? c.wid = some c.wave := (Block.wave_congr hx.waves c.wid).trans (wave_of_ofWave hof)
  obtain ⟨w, hset, hblock, hw, hwrote, hmoved, -⟩ :=
    State.complete_setBlock (s := s) hof.2.1 hwave k hla b .zero .zero (Result.gives_none (s.parts c k) (fun _ => 0) 0)
  exact ⟨_, _, hset, ⟨w, hw, keepsRegs_of_wrote_nothing hwrote, hmoved.pc⟩, hblock, Block.queue_serve hx.queues q, rfl⟩

/-! ### What pops leave -/

/-- Slots that a wave gives back are not among those that it then takes: the handles stay. -/
theorem Block.handleAt_giveBack {b : Block} {q : BitVec 3} (hlen : b.queues.length = 8)
    (hslots : (b.queue q).slots.length = (b.queue q).count) (hcount : 0 < (b.queue q).count) (n j : Nat) :
    (b.setQueue q ((b.queue q).giveBack n)).handleAt q j = b.handleAt q j := by
  have hlt : ((b.queue q).head + j) % (b.queue q).count < (b.queue q).slots.length := by
    rw [hslots]
    exact Nat.mod_lt _ hcount
  simp only [Block.handleAt, Block.queue_setQueue hlen]
  rw [SpQueue.giveBack_frame]
  simp only [SpQueue.pushed_giveBack _ n hlt]
  rfl

/-- The wave takes slots in the lanes' order, after it has given its earlier ones back, and completes with their handles. -/
theorem takeSlots_complete {s : State} {c : Cur} {k : Ctl} {blk : Block} {q : BitVec 3} (hof : OfWave s c blk) (hla : k.la = 0)
    (hlen : blk.queues.length = 8) (hslots : (blk.queue q).slots.length = (blk.queue q).count)
    (hhead : (blk.queue q).head < (blk.queue q).count) {p : LaneSet} (hm : (lanesOf p).length ≤ (blk.queue q).count)
    (a : Opnd) (n : Nat) (g : Word → Quad) {r : State × List (Nat × Word)}
    (hr : s.takeSlots c blk q p (lanesOf p).length = r) :
    ∃ t w y f, r.1.complete (r.1.recur c) k .zero .zero .zero { writes := writesOf a n p fun i => g (handleOf r.2 i) } = t ∧
      t.block? c.bid = some y ∧ t.wave? c.bid c.wid = some w ∧ Wrote c.wave w a n p f noTag ∧ Moved c.wave w c.active ∧
      (∀ j i, (lanesOf p)[j]? = some i → f i = g (blk.handleAt q j)) ∧
      w.popped = lset c.wave.popped q.toNat (lanesOf p).length ∧
      y.queue q = { blk.queue q with
        filled := (blk.queue q).filled - (lanesOf p).length
        head := ((blk.queue q).head + (lanesOf p).length) % (blk.queue q).count
        free := (blk.queue q).free + lget 0 c.wave.popped q.toNat, slots := (y.queue q).slots, served := true } := by
  set back := (blk.queue q).giveBack (lget 0 c.wave.popped q.toNat)
  have hback : (blk.setQueue q back).queue q = back := Block.queue_setQueue hlen q back
  have hpopped := Block.popped_popAll (q := q) (Block.queues_setQueue hlen q back) (by rw [hback]; exact hhead) (lanesOf p)
    (by rw [hback]; exact hm)
  set x := ((blk.setQueue q back).popAll q (lanesOf p)).1
  set hs := ((blk.setQueue q back).popAll q (lanesOf p)).2
  set w0 : Wave := { c.wave with popped := lset c.wave.popped q.toNat (lanesOf p).length }
  obtain rfl : (s.setBlock c.bid ((x.serve q).setWave c.wid w0), hs) = r := hr
  have hwaves : x.waves = blk.waves := by rw [hpopped.rest]; rfl
  have hw : (x.serve q).wave? c.wid = some c.wave := (Block.wave_congr hwaves c.wid).trans (wave_of_ofWave hof)
  have hw0 := Block.wave_setWave hw w0
  have hcur : (s.setBlock c.bid ((x.serve q).setWave c.wid w0)).recur c = { c with wave := w0 } :=
    State.recur_eq (State.cur_setBlock hof (by rw [hpopped.rest]; rfl) (by rw [hpopped.rest]; rfl) (by rw [hpopped.rest]; rfl) hw0)
  obtain ⟨w, hset, hblock, hwave, hwrote, hmoved, hcount⟩ := State.complete_setBlock (s := s) (c := { c with wave := w0 })
    hof.2.1 hw0 k hla .zero .zero .zero (Result.gives_plain a n p (fun i => g (handleOf hs i)) 0)
  refine ⟨_, w, _, fun i => g (handleOf hs i), (congrArg (fun c' => State.complete _ c' k _ _ _ _) hcur).trans hset, hblock, hwave,
    ⟨hwrote.lane, hwrote.uni, hwrote.tags⟩, ⟨hmoved.pc, hmoved.kept⟩, fun j i hi => ?_, hcount, ?_⟩
  · have hnodup : (hs.map Prod.fst).Nodup := by
      rw [hpopped.lanes, lanesOf, laneIds_eq]
      exact List.nodup_range.filter _
    dsimp only
    rw [handleOf_eq hnodup (hpopped.handles j i hi)]
    exact congrArg g (Block.handleAt_giveBack hlen hslots (by omega) _ j)
  · have hserve : (((x.serve q).setWave c.wid w0).setWave c.wid w).queue q = { x.queue q with served := true } :=
      Block.queue_serve hpopped.queues q
    rw [hserve, hpopped.queue, hback]
    rfl

/-! ### A QTRY that fails -/

/-- The odd register of a destination of two, where QTRY reports its success (R485). -/
def oddOf : Opnd → Opnd
  | .lane r => .lane (BitVec.ofNat 8 (r.toNat / 2 * 2 + 1))
  | .uni r => .uni (BitVec.ofNat 6 (r.toNat / 2 * 2 + 1))
  | o => o

theorem toNat_oddOf_lane (r : BitVec 8) : (BitVec.ofNat 8 (r.toNat / 2 * 2 + 1)).toNat = r.toNat / 2 * 2 + 1 := by
  rw [BitVec.toNat_ofNat]
  omega

theorem toNat_oddOf_uni (r : BitVec 6) : (BitVec.ofNat 6 (r.toNat / 2 * 2 + 1)).toNat = r.toNat / 2 * 2 + 1 := by
  rw [BitVec.toNat_ofNat]
  omega

/-- Of two registers that follow one another, the one with the odd number. -/
theorem filter_odd_two (uni : Bool) (i n : Nat) (v : Word) :
    ((upFrom 0 2).map fun j => ({ uni, lane := i, reg := n + j, val := v } : RegWrite)).filter (fun w => w.reg % 2 == 1) =
      (upFrom 0 1).map fun j => { uni, lane := i, reg := n / 2 * 2 + 1 + j, val := v } := by
  simp only [upFrom, List.map_cons, List.map_nil, Nat.add_zero, Nat.zero_add, List.filter_cons, List.filter_nil]
  rcases Nat.mod_two_eq_zero_or_one n with hn | hn
  · rw [if_neg (by simp [hn]), if_pos (by rw [beq_iff_eq]; omega), show n / 2 * 2 + 1 = n + 1 by omega]
  · rw [if_pos (by rw [hn]; rfl), if_neg (by rw [beq_iff_eq]; omega), show n / 2 * 2 + 1 = n by omega]

theorem filter_odd_writesOf (a : Opnd) (p : LaneSet) :
    (writesOf a 2 p fun _ => 0).filter (fun w => w.reg % 2 == 1) = writesOf (oddOf a) 1 p fun _ => 0 := by
  have hzero (j : Nat) : wordAt 0 j = 0 := BitVec.extractLsb'_zero ..
  cases a
  case lane r => simp only [writesOf, oddOf, toNat_oddOf_lane, hzero, List.filter_flatMap, filter_odd_two]
  case uni r =>
    simp only [writesOf, oddOf, toNat_oddOf_uni, hzero]
    split
    · rfl
    · exact filter_odd_two ..
  all_goals rfl

theorem wrote_oddOf_lane {w u : Wave} {r : BitVec 8} {p : LaneSet} (h : Wrote w u (oddOf (.lane r)) 1 p (fun _ => 0) noTag)
    (heven : r.toNat % 2 = 0) {j : Nat} (hj : j < 32) (hp : p.getLsbD j = true) :
    (u.lane j).reg (r.toNat + 1) = 0 ∧ ∀ g, g ≠ r.toNat + 1 → (u.lane j).reg g = (w.lane j).reg g := by
  have hreg (g : Nat) := h.lane j hj g
  simp only [laneAfter, oddOf, toNat_oddOf_lane] at hreg
  refine ⟨(hreg _).trans ((if_pos ⟨hp, by omega, by omega⟩).trans (BitVec.extractLsb'_zero ..)), fun g hg => ?_⟩
  exact (hreg g).trans (if_neg fun h => hg (by omega))

theorem wrote_oddOf_uni {w u : Wave} {r : BitVec 6} {p : LaneSet} (h : Wrote w u (oddOf (.uni r)) 1 p (fun _ => 0) noTag)
    (heven : r.toNat % 2 = 0) (hp : p ≠ 0) :
    u.ureg (r.toNat + 1) = 0 ∧ ∀ g, g ≠ r.toNat + 1 → u.ureg g = w.ureg g := by
  obtain ⟨i, hi⟩ := Option.ne_none_iff_exists'.mp fun h => hp ((highLane_eq_none p).mp h)
  have hreg (g : Nat) := h.uni g
  simp only [uniAfter, oddOf, toNat_oddOf_uni, hi] at hreg
  refine ⟨(hreg _).trans ((if_pos ⟨by omega, by omega⟩).trans (BitVec.extractLsb'_zero ..)), fun g hg => ?_⟩
  exact (hreg g).trans (if_neg fun h => hg (by omega))

theorem qtry_fails {s : State} {c : Cur} {k : Ctl} {blk : Block} {q : BitVec 3} (hof : OfWave s c blk) (hla : k.la = 0)
    (hregion : c.wave.inRegion = false) (hp : s.parts c k ≠ 0) (hm : (lanesOf (s.parts c k)).length ≤ (blk.queue q).count) (a : Opnd)
    (hpop : ¬ (blk.queue q).canPop (lanesOf (s.parts c k)).length = true) (hserved : (blk.queue q).served = false) :
    ∃ w, exec (.qtry k q a) s = .next ((s.setBlock c.bid (blk.serve q)).setWave c.bid c.wid w) ∧
      Wrote c.wave w (oddOf a) 1 (s.parts c k) (fun _ => 0) noTag ∧ Moved c.wave w c.active := by
  have hexec := exec_qtry_fails hof hregion hp hm a hpop hserved
  rw [filter_odd_writesOf] at hexec
  have hwave : (blk.serve q).wave? c.wid = some c.wave := (Block.wave_congr (y := blk) rfl c.wid).trans (wave_of_ofWave hof)
  obtain ⟨w, hset, -, -, hwrote, hmoved, -⟩ := State.complete_setBlock (s := s) hof.2.1 hwave k hla .zero .zero .zero
    (Result.gives_plain (oddOf a) 1 (s.parts c k) (fun _ => 0) 0)
  exact ⟨w, hexec.trans (congrArg _ hset), hwrote, hmoved⟩

/-! ### BCW (R402) -/

theorem low32_ofNat (v : Nat) : low32 (BitVec.ofNat 128 v) = BitVec.ofNat 32 v :=
  BitVec.setWidth_ofNat_of_le (by omega) v

section Bcw

variable {s : State} {c : Cur} {k : Ctl} {blk : Block} {b : Opnd} (hof : OfWave s c blk)
include hof

theorem exec_bcw_misaligned (a : Opnd) {j : Nat} (hj : j < 32 ∧ (s.parts c k).getLsbD j = true)
    (hoff : (s.rd32 c b j).toNat % 8 ≠ 0) : exec (.bcw k a b) s = .next (s.raise c 0x07 0) := by
  change execBcw k a b s = _
  refine (onBlk_zero hof k _).trans (congrArg _ ?_)
  refine if_pos ?_
  exact List.any_eq_true.mpr ⟨j, (mem_lanesOf _ j).mpr hj, bne_iff_ne.mpr hoff⟩

variable (haligned : ∀ j, j < 32 ∧ (s.parts c k).getLsbD j = true → (s.rd32 c b j).toNat % 8 = 0)
include haligned

omit hof in
theorem bcw_aligned : ¬ ((lanesOf (s.parts c k)).any fun i => (s.rd32 c b i).toNat % 8 != 0) = true := by
  simp only [List.any_eq_true, mem_lanesOf, bne_iff_ne, not_exists, not_and, not_not]
  exact haligned

theorem exec_bcw_outside (a : Opnd) {j : Nat} (hj : j < 32 ∧ (s.parts c k).getLsbD j = true)
    (hoff : blk.spadSize < (s.rd32 c b j).toNat + 8) : exec (.bcw k a b) s = .next (s.raise c 0x06 1) := by
  change execBcw k a b s = _
  refine (onBlk_zero hof k _).trans (congrArg _ ?_)
  refine (if_neg (bcw_aligned haligned)).trans (if_pos ?_)
  exact List.any_eq_true.mpr ⟨j, (mem_lanesOf _ j).mpr hj, decide_eq_true hoff⟩

variable (hinside : ∀ j, j < 32 ∧ (s.parts c k).getLsbD j = true → (s.rd32 c b j).toNat + 8 ≤ blk.spadSize)
include hinside

omit hof haligned in
theorem bcw_inside : ¬ ((lanesOf (s.parts c k)).any fun i => decide (blk.spadSize < (s.rd32 c b i).toNat + 8)) = true := by
  simp only [List.any_eq_true, mem_lanesOf, decide_eq_true_eq, not_exists, not_and, not_lt]
  exact hinside

theorem exec_bcw_zero (a : Opnd)
    (hzero : ∀ j, j < 32 ∧ (s.parts c k).getLsbD j = true → ofBytes (blk.spadBytes (s.rd32 c b j).toNat 6) = 0) :
    exec (.bcw k a b) s = .next (State.complete { s with peerCopies := if s.parts c k = 0 then s.peerCopies else [] } c k b .zero .zero
      { writes := writesOf a 1 (s.parts c k) fun i =>
          BitVec.ofNat 128 (ofBytes (blk.spadBytes ((s.rd32 c b i).toNat + 4) 4)) }) := by
  change execBcw k a b s = _
  refine (onBlk_zero hof k _).trans (congrArg _ ?_)
  refine (if_neg (bcw_aligned haligned)).trans ((if_neg (bcw_inside hinside)).trans ((if_pos ?_).trans ?_))
  · simp only [List.all_eq_true, mem_lanesOf, Block.bcZero, beq_iff_eq]
    exact hzero
  · split <;> rfl

theorem bcw_passes (a : Opnd)
    (hzero : ∀ j, j < 32 ∧ (s.parts c k).getLsbD j = true → ofBytes (blk.spadBytes (s.rd32 c b j).toNat 6) = 0) :
    ∃ t f, exec (.bcw k a b) s = .next t ∧
      Ran { s with peerCopies := if s.parts c k = 0 then s.peerCopies else [] } t c k a 1 (s.parts c k) f noTag 0 ∧
      ∀ j, low32 (f j) = BitVec.ofNat 32 (ofBytes (blk.spadBytes ((s.rd32 c b j).toNat + 4) 4)) :=
  ⟨_, _, exec_bcw_zero hof haligned hinside a hzero,
    State.complete_ran (s := { s with peerCopies := if s.parts c k = 0 then s.peerCopies else [] }) hof.1 k b .zero .zero _
      (Result.gives_plain a 1 (s.parts c k) _ 0), fun _ => low32_ofNat _⟩

theorem bcw_waits (a : Opnd) {j : Nat} (hj : j < 32 ∧ (s.parts c k).getLsbD j = true)
    (hcount : ofBytes (blk.spadBytes (s.rd32 c b j).toNat 6) ≠ 0) :
    ∃ t, exec (.bcw k a b) s = .next t ∧ Blocks s t c (s.parts c k) fun i => .bcw (s.rd32 c b i).toNat := by
  refine ⟨(s.waitAgain c (s.parts c k) .reply).onWave c.bid c.wid fun w => w.mapLanes fun i l =>
    if (s.parts c k).getLsbD i then { l with st := .blocked (.bcw (s.rd32 c b i).toNat) } else l, ?_, ?_⟩
  · change execBcw k a b s = _
    refine (onBlk_zero hof k _).trans (congrArg _ ?_)
    refine (if_neg (bcw_aligned haligned)).trans ((if_neg (bcw_inside hinside)).trans (if_neg ?_))
    intro hall
    exact hcount (beq_iff_eq.mp (List.all_eq_true.mp hall j ((mem_lanesOf _ j).mpr hj)))
  · rw [State.waitAgain_eq hof, State.onWave_setWave hof.2.2 (wave_of_ofWave hof)]
    refine blocks_setWave hof rfl (fun i hi => ?_) fun i hi hp => ?_
    · obtain ⟨hv, htags, hpc, -⟩ := lane_waitingWave s c (s.parts c k) .reply hi
      rw [Wave.lane_mapLanes _ _ _ hi]
      split <;> exact ⟨hv, htags, hpc⟩
    · rw [Wave.lane_mapLanes _ _ _ hi, if_pos hp]

end Bcw

/-- Settles O38: pushes and pops take slots one after another, and an instruction that waits changes no register and no byte. -/
theorem scratchpadQueues : Obligations.ScratchpadQueues := by
  unfold Obligations.ScratchpadQueues
  intro s c k blk q a b hof hla hlen _ p ls m x queue state ready handle takes stands
  have hqueue {t : State} {y : Block} (h : t.block? c.bid = some y) : queue t = y.queue q := by simp only [queue, h]
  refine ⟨fun hp hcount i hi => ?_, fun hcount hm => ⟨?_, ?_, ?_⟩,
    fun hregion => ⟨fun hp i hi => ?_, fun hp hm hslots hhead htail => ?_⟩, ?_⟩
  · obtain ⟨detail, go, hexec⟩ := exec_eq_queueStart hi
    exact hexec.trans (queueStart_undeclared hof hp hcount detail go)
  · change execQpush k q b s = _
    exact queueStart_short hof hcount hm 1 _
  · change execQpop k q a s = _
    exact queueStart_short hof hcount hm 0 _
  · change execQtry k q a s = _
    exact queueStart_short hof hcount hm 0 _
  · obtain ⟨detail, go, hexec⟩ := exec_eq_queueStart hi
    rw [hexec, queueStart_empty hof hregion hp, State.complete_empty hof.2.1 hla .zero .zero .zero 0]
    exact ⟨_, _, rfl, rfl, _, State.wave_setWave hof.2.2 (wave_of_ofWave hof) _, c.keepsRegs_onward k .zero .zero .zero c.active,
      (c.moved_onward k .zero .zero .zero c.active).pc⟩
  · have hstands {i : Instr} {push : Bool} {dst : Opnd} {v : Nat → Word} (h : ∃ t, exec i s = .next t ∧
        Blocks s t c p fun j => .queue q push m s.freeCtr dst (v j)) : stands i push dst v := by
      obtain ⟨t, hexec, hblocks⟩ := h
      exact ⟨t, hexec, hblocks.went, hblocks.bytes, hblocks.waits⟩
    have hpop : x.canPop m = true ↔ ∀ j < m, ready (x.head + j) :=
      (SpQueue.canPop_iff x m).trans ⟨fun h => h.2, fun h => ⟨hm, h⟩⟩
    have htakes {i : Instr} {n : Nat} {g : Word → Quad} {v : Nat → Quad → Prop} {r : State × List (Nat × Word)}
        (hr : s.takeSlots c blk q p m = r) (hexec : exec i s = .next (r.1.complete (r.1.recur c) k .zero .zero .zero
          { writes := writesOf a n p fun i => g (handleOf r.2 i) })) (hv : ∀ j, v j (g (handle j))) : takes i n v := by
      obtain ⟨t, w, y, f, rfl, hblock, hwave, hwrote, hmoved, hf, hpopped, hy⟩ :=
        takeSlots_complete hof hla hlen hslots hhead hm a n g hr
      refine ⟨_, w, f, hexec, hwave, hwrote, hmoved.pc, fun j i hi => (hf j i hi).symm ▸ hv j, hpopped, ?_⟩
      rw [hqueue hblock, hy]
      exact ⟨rfl, rfl, rfl, rfl⟩
    refine ⟨fun h => hstands (qpush_stands hof hregion hp hm b h), fun hfree hserved hwaits hsize => ?_, fun hserved => ?_,
      fun hfew => ?_, fun h => hstands (qpop_stands hof hregion hp hm a (.inr h)), fun hready hserved => ⟨fun hwaits => ?_, ?_⟩⟩
    · have hx := Block.pushed_foldl hlen hslots htail hsize (s.rd32 c b) ls hm
      obtain ⟨t, y, ht, hwent, hblock, hy, hspad⟩ := qpush_pushed hof hla b hx
      refine ⟨t, (exec_qpush hof hregion hp hm b hfree hserved hwaits).trans (congrArg _ ht), hwent, ?_⟩
      rw [hqueue hblock, hy]
      refine ⟨by rw [hx.queue], by rw [hx.queue], by rw [hx.queue], by rw [hx.queue], fun j i hi => ⟨?_, fun n hn => ?_⟩⟩
      · exact hx.slot j (List.getElem?_eq_some_iff.mp hi).1
      · simp only [spadAt, hblock, Block.spadByte, hspad]
        exact hx.bytes j i hi n hn
    · obtain ⟨t, hexec, hblocks⟩ := qtry_turn hof hregion hp hm a hserved
      exact ⟨t, hexec, hblocks.went, hblocks.waits, hblocks.bytes⟩
    · have hno : ¬ x.canPop m = true := fun h => by
        obtain ⟨j, hj, hnot⟩ := hfew
        exact hnot (hpop.mp h j hj)
      refine ⟨hstands (qpop_stands hof hregion hp hm a (.inl hno)), fun hserved => ?_⟩
      obtain ⟨w, hexec, hwrote, hmoved⟩ := qtry_fails hof hla hregion hp hm a hno hserved
      refine ⟨_, w, hexec, rfl, ?_, ?_, hmoved.pc⟩
      · rintro r rfl heven j hj hpj
        exact wrote_oddOf_lane hwrote heven hj hpj
      · rintro r rfl heven
        exact wrote_oddOf_uni hwrote heven hp
    · have hexec := exec_qpop hof hregion hp hm a (hpop.mpr hready) hserved hwaits rfl
      exact htakes (v := fun j r => low32 r = handle j) rfl hexec fun j => low32_q32 _
    · have hexec := exec_qtry hof hregion hp hm a (hpop.mpr hready) hserved rfl
      exact htakes (g := fun h => q64 (1#32 ++ h)) (v := fun j r => low64 r = 1#32 ++ handle j) rfl hexec fun j => low64_q64 _
  · intro off part inside zero
    refine ⟨fun ⟨j, hj, hoff⟩ => exec_bcw_misaligned hof a hj hoff,
      fun haligned ⟨j, hj, hoff⟩ => exec_bcw_outside hof haligned a hj hoff, fun hinside hzero => ?_, fun hinside ⟨j, hj, hcount⟩ => ?_⟩
    · obtain ⟨t, f, hexec, hran, hvalue⟩ := bcw_passes hof (fun j hj => (hinside j hj).1) (fun j hj => (hinside j hj).2) a hzero
      exact ⟨t, f, hexec, hran, fun j _ => hvalue j⟩
    · obtain ⟨t, hexec, hblocks⟩ := bcw_waits hof (fun j hj => (hinside j hj).1) (fun j hj => (hinside j hj).2) a hj hcount
      exact ⟨t, hexec, hblocks.went, hblocks.waits, hblocks.bytes⟩

end Sys2Proof.Machine
end

section
/-! SUPPORT. What a form's fields hold, read back by the decoder's operand table and its checks 2 and 3 (R98 to R107, R115). -/

namespace Sys2Proof

/-! ### The layout of R98 -/

/-! The library's lemmas on appends, with the append left out of simp's index: at a word's layout the sum of the widths stands there
as one number, under which simp does not find them. -/

theorem extractLsb'_append_high {v w s l : Nat} (hi : BitVec v) (lo : BitVec w) (h : w ≤ s) :
    (no_index (hi ++ lo)).extractLsb' s l = hi.extractLsb' (s - w) l := BitVec.extractLsb'_append_eq_of_le h

theorem extractLsb'_append_low {v w s l : Nat} (hi : BitVec v) (lo : BitVec w) (h : s + l ≤ w) :
    (no_index (hi ++ lo)).extractLsb' s l = lo.extractLsb' s l := BitVec.extractLsb'_append_eq_of_add_le h

theorem getLsbD_append_ite {v w i : Nat} (hi : BitVec v) (lo : BitVec w) :
    (no_index (hi ++ lo)).getLsbD i = if i < w then lo.getLsbD i else hi.getLsbD (i - w) := BitVec.getLsbD_append

theorem Fields.ofWord_toWord (f : Fields) : Fields.ofWord f.toWord = f := by
  simp only [Fields.ofWord, Fields.toWord, extractLsb'_append_high, extractLsb'_append_low, getLsbD_append_ite,
    Nat.reduceLeDiff, Nat.reduceSub]
  simp

/-! ### Operands and their codes -/

theorem Opnd.toNat_code_uni (n : BitVec 6) : (Opnd.uni n).code.toNat = 256 + n.toNat := by
  simp only [Opnd.code, BitVec.toNat_add, BitVec.toNat_setWidth, BitVec.ofNat_eq_ofNat, BitVec.toNat_ofNat]
  omega

theorem Opnd.toNat_code_x (n : BitVec 3) : (Opnd.x n).code.toNat = 32 + n.toNat := by
  simp only [Opnd.code, BitVec.toNat_add, BitVec.toNat_setWidth, BitVec.ofNat_eq_ofNat, BitVec.toNat_ofNat]
  omega

/-- R100, R104, R107, R299: an operand of the stream is what its code names, when D and E hold its data. -/
theorem opndOf_code {st : Stream} {f : Fields} {o : Opnd} (hin : o.inStream st = true)
    (hdata : ∀ v, o.payload = some v → f.imm18 = v) : opndOf st f o.code = some o := by
  cases o with
  | lane n =>
    obtain rfl : st = .wave := by simpa [Opnd.inStream] using hin
    have hn : n.toNat < 256 := n.isLt
    simp [opndOf, Opnd.code, hn, Nat.mod_eq_of_lt (show n.toNat < 512 by omega)]
  | uni n =>
    have hn : 256 + n.toNat < 320 := by omega
    have hback : (Opnd.uni n).code.setWidth 6 = n := BitVec.eq_of_toNat_eq (by
      rw [BitVec.toNat_setWidth, Opnd.toNat_code_uni]; omega)
    have hst : st ≠ .matrix := by simpa [Opnd.inStream] using hin
    cases st <;> simp_all [opndOf, Opnd.toNat_code_uni]
  | m n =>
    obtain rfl : st = .matrix := by simpa [Opnd.inStream] using hin
    have hn : n.toNat < 32 := n.isLt
    simp [opndOf, Opnd.code, hn, Nat.mod_eq_of_lt (show n.toNat < 512 by omega)]
  | x n =>
    obtain rfl : st = .matrix := by simpa [Opnd.inStream] using hin
    have hn : 32 + n.toNat < 40 := by omega
    have hback : (Opnd.x n).code.setWidth 3 = n := BitVec.eq_of_toNat_eq (by
      rw [BitVec.toNat_setWidth, Opnd.toNat_code_x]; omega)
    simp [opndOf, Opnd.toNat_code_x, hback, hn]
  | zero | ones | laneIdx | tileIdx => cases st <;> simp_all [opndOf, Opnd.code, Opnd.inStream]
  | imm v =>
    have hv := hdata v rfl
    cases st <;> simp [opndOf, Opnd.code, hv]
  | param w off =>
    have hv := hdata _ rfl
    have hw : (w ++ off).extractLsb' 15 3 = w := (extractLsb'_append_high w off (le_refl 15)).trans (by simp)
    have hoff : (w ++ off).setWidth 15 = off := by
      rw [BitVec.setWidth_append]
      simp
    cases st <;> simp [opndOf, Opnd.code, hv, hw, hoff]

theorem isPayload_code (o : Opnd) : isPayload o.code = o.payload.isSome := by
  cases o with
  | lane n | m n =>
    have hn := n.isLt
    simp [isPayload, Opnd.code, Opnd.payload, ← BitVec.toNat_inj]
    omega
  | uni n | x n =>
    have hn := n.isLt
    simp [isPayload, Opnd.code, Opnd.payload, ← BitVec.toNat_inj]
    omega
  | zero | ones | laneIdx | tileIdx | imm | param => rfl

theorem Stream.code_code0 (st : Stream) : st.code0.code = 0 := by
  cases st <;> rfl

/-- R68: a register that starts a group of a width dividing 256 leaves its whole group below 256. -/
theorem Spec.below_of_admits {s : Spec} {o : Opnd} (hwidth : s.width ∣ 256) (h : s.admits o = true) :
    o.below 256 s.width = true := by
  cases o with
  | lane n =>
    have hn : n.toNat < 256 := n.isLt
    obtain ⟨-, hmod⟩ : s.lane = true ∧ n.toNat % s.width = 0 := by simpa [Spec.admits] using h
    obtain ⟨k, hk⟩ := hwidth
    obtain ⟨j, hj⟩ := Nat.dvd_of_mod_eq_zero hmod
    have hjk : j < k := Nat.lt_of_mul_lt_mul_left (a := s.width) (by omega)
    have := Nat.mul_le_mul_left s.width hjk
    rw [Nat.mul_succ] at this
    simp only [Opnd.below, decide_eq_true_eq]
    omega
  | _ => rfl

theorem Opnd.below_one (o : Opnd) : o.below 256 1 = true := by
  cases o with
  | lane n => exact decide_eq_true n.isLt
  | _ => rfl

/-! ### One field of a form -/

/-- The operand in a field, code 0 where it holds data or names none. -/
def Slot.opnd (st : Stream) : Slot → Opnd
  | .reg _ o => o
  | _ => st.code0

/-- The groups of registers that a field may name divide the register file (R68). -/
def Slot.aligned : Slot → Bool
  | .reg s _ => 256 % s.width == 0
  | _ => true

/-- The data that an operand in the field puts into D and E (R104, R107). -/
def Slot.imm (u : Slot) : Option (BitVec 18) :=
  match u with
  | .reg _ o => o.payload
  | _ => none

theorem Slot.payload_eq (u : Slot) : u.payload = u.imm.isSome := by
  cases u with
  | reg s o => cases o <;> rfl
  | _ => rfl

theorem Form.data_eq (fm : Form) : fm.data = fm.b.imm.or fm.c.imm := by
  obtain ⟨op, md, k, a, b, c, d, e⟩ := fm
  cases b <;> cases c <;> rfl

section OneField

variable {st : Stream} {f : Fields} {u : Slot}

/-- The operand table reads a legal field's operand back (R100). -/
theorem Slot.opndOf_code {s : Spec} {o : Opnd} (h : (Slot.reg s o).legal st = true)
    (hdata : ∀ v, (Slot.reg s o).imm = some v → f.imm18 = v) : opndOf st f o.code = some o :=
  Sys2Proof.opndOf_code (Bool.and_eq_true_iff.mp h).2 hdata

theorem Slot.fieldOk_code (h : u.legal st = true) (haligned : u.aligned = true) (hdata : ∀ v, u.imm = some v → f.imm18 = v) :
    fieldOk 256 st f u u.code = true := by
  cases u with
  | reg s o =>
    obtain ⟨hadmits, hin⟩ := Bool.and_eq_true_iff.mp h
    have hwidth : s.width ∣ 256 := Nat.dvd_of_mod_eq_zero (beq_iff_eq.mp haligned)
    simp [fieldOk, Slot.code, Slot.opndOf_code h hdata, hadmits, hin, Spec.below_of_admits hwidth hadmits]
  | _ => rfl

theorem Slot.opndAt_code (h : u.legal st = true) (hdata : ∀ v, u.imm = some v → f.imm18 = v) :
    opndAt st f u u.code = u.opnd st := by
  cases u with
  | reg s o => simp [opndAt, Slot.code, Slot.opnd, Slot.opndOf_code h hdata]
  | _ => rfl

theorem Slot.zeroIfUnused_code (h : u.legal st = true) : zeroIfUnused u u.code = true := by
  cases u with
  | blank o =>
    obtain rfl : o = st.code0 := by simpa [Slot.legal] using h
    simp [zeroIfUnused, Slot.code, Stream.code_code0]
  | _ => rfl

theorem Slot.holdableCode_code (h : u.holdable = true) : holdableCode u u.code = true := by
  cases u with
  | reg s o =>
    cases o with
    | lane n =>
      have hn : n.toNat < 256 := n.isLt
      simp only [holdableCode, Slot.code, Opnd.code, BitVec.toNat_setWidth, decide_eq_true_eq]
      omega
    | uni n =>
      simp only [holdableCode, Slot.code, Opnd.toNat_code_uni, decide_eq_true_eq]
      omega
    | _ => exact absurd h Bool.false_ne_true
  | _ => exact absurd h Bool.false_ne_true

/-- Only data bits in a field can be mistaken for an immediate's code. -/
theorem Slot.raw_or_isPayload_code (u : Slot) (h : u.legal st = true) :
    (∃ v, u = .raw v) ∨ isPayload u.code = u.imm.isSome := by
  cases u with
  | raw v => exact .inl ⟨v, rfl⟩
  | reg s o => exact .inr (isPayload_code o)
  | unused => exact .inr rfl
  | blank o =>
    obtain rfl : o = st.code0 := by simpa [Slot.legal] using h
    exact .inr (by rw [Slot.code, Stream.code_code0]; rfl)

end OneField

/-! ### The fields of a form -/

/-- What every form of the opcode table meets, whatever its operands: the opcode has ten bits, groups of registers divide the
register file, and data bits in B or C are not taken for an immediate's code: data stands in C beside an operand only in LDP, whose
window number is below 8 (R102, R106, R453). -/
structure Form.Fits (fm : Form) : Prop where
  op : fm.op < 1024
  a : fm.a.aligned = true
  b : fm.b.aligned = true
  c : fm.c.aligned = true
  d : fm.d.aligned = true
  e : fm.e.aligned = true
  rawB : ∀ v, fm.b = .raw v → ∃ w, fm.c = .raw w
  rawC : ∀ w, fm.c = .raw w → (∃ v, fm.b = .raw v) ∨ isPayload w = false

/-- R102: at most one of B and C puts data into D and E, which are unused then. -/
structure Form.Roomy (fm : Form) : Prop where
  a : fm.a.imm = none
  d : fm.d.imm = none
  e : fm.e.imm = none
  one : fm.b.imm = none ∨ fm.c.imm = none
  free : fm.data = none ∨ (fm.d = .unused ∧ fm.e = .unused)

theorem Form.roomy_of_room {fm : Form} (h : fm.room = true) : fm.Roomy := by
  simp only [Form.room, Slot.payload_eq, Bool.and_eq_true, Bool.not_eq_true', Bool.or_eq_true, Bool.and_eq_false_iff,
    Bool.or_eq_false_iff, Option.isSome_eq_false_iff, Option.isNone_iff_eq_none, and_assoc] at h
  obtain ⟨hone, hfree, ha, hd, he⟩ := h
  refine ⟨ha, hd, he, hone, hfree.imp (fun ⟨hb, hc⟩ => by simp [Form.data_eq, hb, hc]) fun ⟨hd', he'⟩ => ⟨?_, ?_⟩⟩
  · split at hd'
    · assumption
    · cases hd'
  · split at he'
    · assumption
    · cases he'

section Fields

variable {st : Stream} {fm : Form}

theorem Form.imm18_fields {v : BitVec 18} (h : fm.data = some v) : fm.fields.imm18 = v := by
  simp only [Fields.imm18, Form.fields, h]
  exact (BitVec.extractLsb'_append_extractLsb'_eq_extractLsb' rfl).trans BitVec.extractLsb'_eq_self

theorem Form.imm18_of_imm_b {v : BitVec 18} (h : fm.b.imm = some v) : fm.fields.imm18 = v :=
  imm18_fields (by simp [Form.data_eq, h])

theorem Form.imm18_of_imm_c (hroom : fm.Roomy) {v : BitVec 18} (h : fm.c.imm = some v) : fm.fields.imm18 = v :=
  imm18_fields (by simp [Form.data_eq, h, hroom.one.resolve_right (by simp [h])])

theorem Form.fields_d (h : fm.data = none) : fm.fields.d = fm.d.code := by simp only [Form.fields, h]

theorem Form.fields_e (h : fm.data = none) : fm.fields.e = fm.e.code := by simp only [Form.fields, h]

theorem Form.toNat_fields_op (h : fm.op < 1024) : fm.fields.op.toNat = fm.op := by
  simp only [Form.fields, BitVec.toNat_ofNat]
  omega

theorem Form.dataInDE_fields (fm : Form) : dataInDE fm fm.fields = fm.data.isSome := by
  rw [Form.data_eq, Option.isSome_or]
  obtain ⟨op, md, k, a, b, c, d, e⟩ := fm
  cases b <;> cases c <;> simp [dataInDE, Form.fields, Slot.code, Slot.imm, isPayload_code]

end Fields

/-! ### Guard and controls -/

/-- R103: the code of a guard register names it, whatever stands in D and E. -/
theorem Guard.opndOf_greg {st : Stream} {g : Guard} (h : g.regOk st = true) (hc : g.canonical st = true) (f : Fields) :
    opndOf st f g.greg.code = some g.greg := by
  obtain ⟨comb, greg, g1, g2, n1, n2⟩ := g
  by_cases h0 : comb = 0
  · simp only [Guard.canonical, h0, if_true, Bool.and_eq_true, beq_iff_eq] at hc
    obtain ⟨⟨⟨⟨rfl, -⟩, -⟩, -⟩, -⟩ := hc
    cases st <;> rfl
  · have hreg : greg.inStream st = true ∧ greg.payload = none := by
      cases greg <;> simp_all [Guard.regOk, Opnd.inStream, Opnd.payload]
    exact opndOf_code hreg.1 (by simp [hreg.2])

section Guarded

variable {st : Stream} {fm : Form}

theorem Form.guardOf_fields (h : fm.k.guard.regOk st = true) (hc : fm.k.guard.canonical st = true) :
    guardOf st fm.fields = some fm.k.guard :=
  congrArg (Option.map _) (Guard.opndOf_greg h hc { fm.fields with d := 0, e := 0 })

theorem Form.ctlOf_fields (h : fm.k.guard.regOk st = true) (hc : fm.k.guard.canonical st = true) :
    ctlOf st fm.fields = fm.k := by
  rw [ctlOf, Form.guardOf_fields h hc]
  rfl

/-- R99, R103: the fields that a canonical guard leaves out are zero in the word. -/
theorem Form.guard_fields (h : fm.k.guard.canonical st = true) :
    let f := fm.fields
    (f.comb != 0 || (f.greg == 0 && f.g1 == 0 && f.g2 == 0 && !f.neg1 && !f.neg2)) = true ∧
    (f.comb != 1 || (f.g2 == 0 && !f.neg2)) = true := by
  obtain ⟨op, md, ⟨⟨comb, greg, g1, g2, n1, n2⟩, y, hB, hC, hD, hint, la⟩, a, b, c, d, e⟩ := fm
  simp only [Form.fields, Guard.canonical] at h ⊢
  by_cases h0 : comb = 0
  · subst h0
    simp_all [Stream.code_code0]
  · by_cases h1 : comb = 1 <;> simp_all

end Guarded

/-! ### Checks 2 and 3, and the operands -/

section Checks

variable {st : Stream} {fm : Form}

/-- The conjuncts of well-formedness. -/
structure Form.Legal (st : Stream) (fm : Form) : Prop where
  op : opInStream st fm.op = true
  ctl : fm.k.canonical st fm.op fm.b fm.c fm.d = true
  guard : fm.k.guard.regOk st = true
  a : fm.a.legal st = true
  b : fm.b.legal st = true
  c : fm.c.legal st = true
  d : fm.d.legal st = true
  e : fm.e.legal st = true
  room : fm.Roomy

theorem Form.legal_of_wf (h : fm.wf st = true) : fm.Legal st := by
  simp only [Form.wf, Bool.and_eq_true, and_assoc] at h
  obtain ⟨hop, hctl, hguard, ha, hb, hc, hd, he, hroom⟩ := h
  exact ⟨hop, hctl, hguard, ha, hb, hc, hd, he, Form.roomy_of_room hroom⟩

theorem Form.Legal.canonical (h : fm.Legal st) : fm.k.guard.canonical st = true := by
  have hctl := h.ctl
  simp only [Ctl.canonical, Bool.and_eq_true, and_assoc] at hctl
  exact hctl.1

theorem Form.data_isNone (fm : Form) : fm.data.isNone = (!fm.b.payload && !fm.c.payload) := by
  rw [Form.data_eq, Slot.payload_eq, Slot.payload_eq]
  cases fm.b.imm <;> cases fm.c.imm <;> rfl

/-- A hold bit stands where its field may carry one (R99, R110). -/
theorem Slot.hold_code {hold p : Bool} {u : Slot} (h : (!hold || (p && u.holdable)) = true) :
    (!hold || (p && holdableCode u u.code)) = true := by
  cases hold with
  | false => rfl
  | true =>
    obtain ⟨hp, hu⟩ := Bool.and_eq_true_iff.mp h
    rw [hp, Slot.holdableCode_code hu]
    rfl

/-- A hold bit for D stands where D holds no data (R99, R110). -/
theorem Form.hold_d {p : Bool} (h : (!fm.k.holdD || (p && fm.d.holdable && !fm.b.payload && !fm.c.payload)) = true) :
    (!fm.fields.holdD || (p && !fm.data.isSome && holdableCode fm.d fm.fields.d)) = true := by
  have hfields : fm.fields.holdD = fm.k.holdD := rfl
  rw [Bool.and_assoc (p && fm.d.holdable), ← Form.data_isNone] at h
  cases hdata : fm.data with
  | some v => simpa [hdata, hfields] using h
  | none =>
    rw [hfields, Form.fields_d hdata]
    exact Slot.hold_code (by simpa [hdata] using h)

/-- R99: a well-formed form's word is canonical. -/
theorem Form.Legal.check2_fields (h : fm.Legal st) (hfits : fm.Fits) : check2 st fm fm.fields = true := by
  have hctl := h.ctl
  simp only [Ctl.canonical, Bool.and_eq_true, and_assoc] at hctl
  obtain ⟨hguard, halways, hla, hhint, hB, hC, hD, hyield⟩ := hctl
  obtain ⟨hcomb0, hcomb1⟩ := Form.guard_fields hguard
  have hDE : (fm.data.isSome || (zeroIfUnused fm.d fm.fields.d && zeroIfUnused fm.e fm.fields.e)) = true := by
    cases hdata : fm.data with
    | some v => rfl
    | none => simp [Form.fields_d hdata, Form.fields_e hdata, Slot.zeroIfUnused_code h.d, Slot.zeroIfUnused_code h.e]
  simp only [check2, Form.dataInDE_fields, Form.toNat_fields_op hfits.op, Bool.and_eq_true, and_assoc]
  exact ⟨Slot.zeroIfUnused_code h.a, Slot.zeroIfUnused_code h.b, Slot.zeroIfUnused_code h.c, hDE, hcomb0, hcomb1, halways, hla,
    hhint, Slot.hold_code hB, Slot.hold_code hC, Form.hold_d hD, hyield⟩

/-- R102: B and C do not both hold an immediate's code beside data in D and E. -/
theorem Form.Legal.not_both_payload (h : fm.Legal st) (hfits : fm.Fits) :
    (isPayload fm.b.code && isPayload fm.c.code && fm.data.isSome) = false := by
  rw [Form.data_eq]
  rcases fm.b.raw_or_isPayload_code h.b with ⟨v, hb⟩ | hb
  · obtain ⟨w, hc⟩ := hfits.rawB v hb
    simp [hb, hc, Slot.imm]
  · rcases fm.c.raw_or_isPayload_code h.c with ⟨w, hc⟩ | hc
    · rcases hfits.rawC w hc with ⟨v, hv⟩ | hw
      · simp [hv, hc, Slot.imm]
      · simp [hc, hw, Slot.code]
    · rcases h.room.one with hone | hone <;> simp [hb, hc, hone]

/-- R115: no field of a well-formed form's word fails check 3. -/
theorem Form.Legal.check3_fields (h : fm.Legal st) (hfits : fm.Fits) : check3 256 st fm fm.fields = none := by
  have ha : fieldOk 256 st fm.fields fm.a fm.fields.a = true :=
    Slot.fieldOk_code h.a hfits.a (by simp [h.room.a])
  have hb : fieldOk 256 st fm.fields fm.b fm.fields.b = true :=
    Slot.fieldOk_code h.b hfits.b fun _ => Form.imm18_of_imm_b
  have hc : fieldOk 256 st fm.fields fm.c fm.fields.c = true :=
    Slot.fieldOk_code h.c hfits.c fun _ => Form.imm18_of_imm_c h.room
  have hd : (!fm.data.isSome && !fieldOk 256 st fm.fields fm.d fm.fields.d) = false := by
    cases hdata : fm.data with
    | some v => rfl
    | none => simp [Form.fields_d hdata, Slot.fieldOk_code h.d hfits.d (by simp [h.room.d])]
  have he : (!fm.data.isSome && !fieldOk 256 st fm.fields fm.e fm.fields.e) = false := by
    cases hdata : fm.data with
    | some v => rfl
    | none => simp [Form.fields_e hdata, Slot.fieldOk_code h.e hfits.e (by simp [h.room.e])]
  have hone : (isPayload fm.fields.b && isPayload fm.fields.c && fm.data.isSome) = false :=
    h.not_both_payload hfits
  have hguard : guardOf st fm.fields = some fm.k.guard := Form.guardOf_fields h.guard h.canonical
  simp only [check3, Form.dataInDE_fields, ha, hb, hc, hd, he, hone, hguard, h.guard, Opnd.below_one, Bool.not_true,
    Bool.or_self, Bool.and_self, Bool.false_eq_true, if_false, if_true, ite_self]

/-- The operands that the decoder reads from the fields are the form's. -/
theorem Form.Legal.opndAt_d (h : fm.Legal st) : opndAt st fm.fields fm.d fm.fields.d = fm.d.opnd st := by
  cases hdata : fm.data with
  | some v =>
    obtain ⟨hd, -⟩ := h.room.free.resolve_left (by simp [hdata])
    simp only [hd]
    rfl
  | none => rw [Form.fields_d hdata, Slot.opndAt_code h.d (by simp [h.room.d])]

theorem Form.Legal.opndAt_e (h : fm.Legal st) : opndAt st fm.fields fm.e fm.fields.e = fm.e.opnd st := by
  cases hdata : fm.data with
  | some v =>
    obtain ⟨-, he⟩ := h.room.free.resolve_left (by simp [hdata])
    simp only [he]
    rfl
  | none => rw [Form.fields_e hdata, Slot.opndAt_code h.e (by simp [h.room.e])]

end Checks

/-! ### Forms up to their operands -/

/-- What a field takes, its operand left out. -/
def Slot.shape : Slot → Slot
  | .reg s _ => .reg s .zero
  | .blank _ => .blank .zero
  | u => u

/-- A form with its operands and controls left out: what the decoder knows of it before it reads the operands. -/
def Form.shape (fm : Form) : Form :=
  { op := fm.op, md := fm.md, k := Ctl.plain .wave, a := fm.a.shape, b := fm.b.shape, c := fm.c.shape, d := fm.d.shape
    e := fm.e.shape }

theorem Slot.shape_reg (s : Spec) (o : Opnd) : (Slot.reg s o).shape = .reg s .zero := rfl

theorem Slot.shape_slotIf (p : Bool) (s : Spec) (o : Opnd) : (slotIf p s o).shape = slotIf p s .zero := by
  cases p <;> rfl

section Shape

variable (nregs : Nat) (st : Stream) (f : Fields) (fm : Form) (u : Slot) (code : BitVec 9)

theorem zeroIfUnused_shape : zeroIfUnused u.shape code = zeroIfUnused u code := by cases u <;> rfl

theorem holdableCode_shape : holdableCode u.shape code = holdableCode u code := by cases u <;> rfl

theorem fieldOk_shape : fieldOk nregs st f u.shape code = fieldOk nregs st f u code := by cases u <;> rfl

theorem opndAt_shape : opndAt st f u.shape code = opndAt st f u code := by cases u <;> rfl

theorem dataInDE_shape : dataInDE fm.shape f = dataInDE fm f := by
  obtain ⟨op, md, k, a, b, c, d, e⟩ := fm
  cases b <;> cases c <;> rfl

theorem check2_shape : check2 st fm.shape f = check2 st fm f := by
  simp only [check2, dataInDE_shape]
  simp only [Form.shape, zeroIfUnused_shape, holdableCode_shape]

theorem check3_shape : check3 nregs st fm.shape f = check3 nregs st fm f := by
  simp only [check3, dataInDE_shape]
  simp only [Form.shape, fieldOk_shape]

end Shape

/-! ### A builder that gives the instruction back -/

/-- The modifier field of a form, as the decoder reads it. -/
abbrev mdOf (n : Nat) : Nat := (BitVec.ofNat 7 n).toNat

/-- Check 1 without the streams: what a row of a class builds (R116). -/
def rowIn (cls idx m : Nat) (f : Fields) : Option Mk :=
  match cls with
  | 0 => row0 idx m
  | 1 => row1 idx m
  | 2 => row2 idx m f
  | 3 => row3 idx m
  | 4 => row4 idx m f
  | 5 => row5 idx m
  | 6 => row6 idx m f
  | 7 => row7 idx m
  | 8 => row8 idx m
  | 9 => row9 idx m f
  | 10 => rowA idx m
  | _ => none

/-- The row of an opcode. -/
abbrev opRow (op m : Nat) (f : Fields) : Option Mk := rowIn (op / 64) (op % 64) m f

theorem row_of_opInStream {st : Stream} {f : Fields} (h : opInStream st f.op.toNat = true) :
    row st f = opRow f.op.toNat f.md.toNat f := if_pos h

/-- The row of a form's opcode for a modifier. -/
def Form.rowAt : Form → Nat → Option Mk
  | ⟨op, md, k, a, b, c, d, e⟩, m => opRow op m (Form.fields ⟨op, md, k, a, b, c, d, e⟩)

/-- The row of a form's word. -/
def Form.row : Form → Option Mk
  | ⟨op, md, k, a, b, c, d, e⟩ => Form.rowAt ⟨op, md, k, a, b, c, d, e⟩ (mdOf md)

/-- The instruction that a builder makes before operands and controls are read: each operand is code 0. -/
def Mk.plain (st : Stream) (mk : Mk) : Instr :=
  mk (Ctl.plain st) st.code0 st.code0 st.code0 st.code0 st.code0

/-- A builder is the row of the form's word, gives the instruction back from its controls and operands, and has the form's shape
before they are read. -/
structure Builds (st : Stream) (i : Instr) (fm : Form) (mk : Mk) : Prop where
  found : fm.row = some mk
  built : mk fm.k (fm.a.opnd st) (fm.b.opnd st) (fm.c.opnd st) (fm.d.opnd st) (fm.e.opnd st) = i := by rfl
  shape : (mk.plain st).form.map Form.shape = some fm.shape := by rfl
  modOk : (mk.plain st).modOk = i.modOk := by rfl

/-- R115: the word of a well-formed form passes the checks, and the form's builder gives the instruction back. -/
theorem Builds.decodeFields {st : Stream} {i : Instr} {fm : Form} {mk : Mk} (h : Builds st i fm mk) (hlegal : fm.Legal st)
    (hfits : fm.Fits) (hmod : i.modOk = true) : decodeFields 256 st fm.fields = .ok i := by
  obtain ⟨fm', hform, hshape⟩ := Option.map_eq_some_iff.mp h.shape
  have hop : fm.fields.op.toNat = fm.op := Form.toNat_fields_op hfits.op
  have hrow : row st fm.fields = some mk := by
    rw [row_of_opInStream (by rw [hop]; exact hlegal.op), hop, ← h.found]
    rfl
  have hcheck2 : check2 st fm' fm.fields = true := by
    rw [← check2_shape, hshape, check2_shape, hlegal.check2_fields hfits]
  have hcheck3 : check3 256 st fm' fm.fields = none := by
    rw [← check3_shape, hshape, check3_shape, hlegal.check3_fields hfits]
  have hopnds : opndAt st fm.fields fm'.a fm.fields.a = fm.a.opnd st ∧ opndAt st fm.fields fm'.b fm.fields.b = fm.b.opnd st ∧
      opndAt st fm.fields fm'.c fm.fields.c = fm.c.opnd st ∧ opndAt st fm.fields fm'.d fm.fields.d = fm.d.opnd st ∧
      opndAt st fm.fields fm'.e fm.fields.e = fm.e.opnd st := by
    simp only [Form.shape, Form.mk.injEq] at hshape
    obtain ⟨-, -, -, ha, hb, hc, hd, he⟩ := hshape
    refine ⟨?_, ?_, ?_, ?_, ?_⟩
    · rw [← opndAt_shape, ha, opndAt_shape]
      exact Slot.opndAt_code hlegal.a (by simp [hlegal.room.a])
    · rw [← opndAt_shape, hb, opndAt_shape]
      exact Slot.opndAt_code hlegal.b fun _ => Form.imm18_of_imm_b
    · rw [← opndAt_shape, hc, opndAt_shape]
      exact Slot.opndAt_code hlegal.c fun _ => Form.imm18_of_imm_c hlegal.room
    · rw [← opndAt_shape, hd, opndAt_shape, hlegal.opndAt_d]
    · rw [← opndAt_shape, he, opndAt_shape, hlegal.opndAt_e]
  obtain ⟨ha, hb, hc, hd, he⟩ := hopnds
  have hform' : (mk (Ctl.plain st) st.code0 st.code0 st.code0 st.code0 st.code0).form = some fm' := hform
  have hmod' : (mk (Ctl.plain st) st.code0 st.code0 st.code0 st.code0 st.code0).modOk = true := h.modOk.trans hmod
  simp only [Sys2Proof.decodeFields, hrow, hform', hmod', hcheck2, hcheck3, ha, hb, hc, hd, he,
    Form.ctlOf_fields hlegal.guard hlegal.canonical, h.built, Bool.and_self, if_true]

end Sys2Proof
end

section
/-! SUPPORT. The decoder's rows read the modifiers of every form back (R116 to R119). -/

namespace Sys2Proof

theorem need_of {c : Bool} (h : c = true) (mk : Mk) : need c mk = some mk := if_pos h

theorem need_isLt {w : Nat} (n : BitVec w) (mk : Mk) : need (decide (n.toNat < 2 ^ w)) mk = some mk :=
  need_of (decide_eq_true n.isLt) mk

/-! ### Conversions (R118, R419) -/

theorem Fmt.ofCode_code (f : Fmt) : Fmt.ofCode f.code = some f := by cases f <;> rfl

theorem Fmt.code_lt (f : Fmt) : f.code < 16 := by cases f <;> decide

theorem Rnd.ofCode_code (r : Rnd) : Rnd.ofCode r.code = some r := by cases r <;> rfl

theorem Rnd.code_lt (r : Rnd) : r.code < 8 := by cases r <;> decide

theorem mdOf_of_lt {n : Nat} (h : n < 128) : mdOf n = n := by
  rw [mdOf, BitVec.toNat_ofNat, Nat.mod_eq_of_lt h]

theorem mdOf_tOp {t o : Nat} (ht : t < 8) (ho : o < 16) : mdOf (tOp t o) / 16 = t ∧ mdOf (tOp t o) % 16 = o := by
  rw [mdOf_of_lt (by unfold tOp; omega), tOp]
  omega

theorem cvtOf_code {d s : Fmt} {r : Rnd} (h : (r != .rs || d.takesRs) = true) {f : Fields} (he : f.e = BitVec.ofNat 9 s.code)
    (mk : Fmt → Fmt → Rnd → Mk) : cvtOf (mdOf (tOp r.code d.code)) f mk = some (mk d s r) := by
  obtain ⟨hr, hd⟩ := mdOf_tOp r.code_lt d.code_lt
  have hs : f.e.toNat = s.code := by
    rw [he, BitVec.toNat_ofNat, Nat.mod_eq_of_lt (by have := s.code_lt; omega)]
  simp only [cvtOf, hr, hd, hs, Rnd.ofCode_code, Fmt.ofCode_code, Option.bind_some, h, if_true]

/-! ### Cross-lane operations (R491, R498) -/

theorem row5_redt {op : XOp} {ty : XTy} (h : op.okFor ty = true) :
    row5 3 (mdOf (tOp ty.code op.code)) = some fun k a b _ _ _ => .redt k op ty a b := by
  obtain ⟨hty, hop⟩ : XTy.ofCode (mdOf (tOp ty.code op.code) / 16) = some ty ∧
      XOp.ofCode (mdOf (tOp ty.code op.code) % 16) = some op := by
    cases ty <;> cases op <;> decide
  simp only [row5, hty, hop, Option.bind_some, need_of h]

theorem row5_scant (excl : Bool) {op : XOp} {ty : XTy} (h : op.okFor ty = true) :
    row5 4 (mdOf (tOp ty.code (bit excl 8 + op.code))) = some fun k a b _ _ _ => .scant k excl op ty a b := by
  obtain ⟨hty, hop, hexcl⟩ : XTy.ofCode (mdOf (tOp ty.code (bit excl 8 + op.code)) / 16) = some ty ∧
      XOp.ofCode (mdOf (tOp ty.code (bit excl 8 + op.code)) % 8) = some op ∧
      (mdOf (tOp ty.code (bit excl 8 + op.code)) / 8 % 2 == 1) = excl := by
    cases ty <;> cases excl <;> cases op <;> decide
  simp only [row5, hty, hop, hexcl, Option.bind_some, need_of h]

/-! ### Loads, stores and atomic accesses (R119) -/

/-- What the decoder reads from a modifier with an optional scope of an order, and two bits. -/
theorem mdOf_scopeOrd (ord : Nat) (hord : ord = 1 ∨ ord = 2) (scope : Option Scope) (p q : Bool) :
    let m := mdOf (scopeOrd scope ord + bit p 2 + bit q 1)
    scopeOrdOf m ord = some scope ∧ (m / 2 % 2 == 1) = p ∧ (m % 2 == 1) = q ∧ (m % 2 == 0) = !q := by
  revert p q
  rcases hord with rfl | rfl <;> rcases scope with _ | (_ | _ | _ | _ | _) <;> decide

theorem opRow_ld {size : LdSize} (acq : Option Scope) (cap : Bool) {xfer : Bool} (h : (!xfer || size == .quad) = true)
    (f : Fields) :
    opRow (0x180 + size.code) (mdOf (scopeOrd acq 1 + bit cap 2 + bit xfer 1)) f =
      some fun k a b c _ _ => .ld k size acq cap xfer a b c := by
  obtain ⟨hacq, hcap, hxfer, hnot⟩ := mdOf_scopeOrd 1 (.inl rfl) acq cap xfer
  have hrow (m : Nat) : opRow (0x180 + size.code) m f = (scopeOrdOf m 1).bind fun o => need (m % 2 == 0 || size == .quad)
      fun k a b c _ _ => .ld k size o (m / 2 % 2 == 1) (m % 2 == 1) a b c := by cases size <;> rfl
  simp only [hrow, hacq, hcap, hxfer, hnot, Option.bind_some, need_of h]

theorem opRow_st {size : StSize} (rel : Option Scope) (cap : Bool) {xfer : Bool} (h : (!xfer || size == .quad) = true)
    (f : Fields) :
    opRow (0x188 + size.code) (mdOf (scopeOrd rel 2 + bit cap 2 + bit xfer 1)) f =
      some fun k _ b c d _ => .st k size rel cap xfer b c d := by
  obtain ⟨hrel, hcap, hxfer, hnot⟩ := mdOf_scopeOrd 2 (.inr rfl) rel cap xfer
  have hrow (m : Nat) : opRow (0x188 + size.code) m f = (scopeOrdOf m 2).bind fun o => need (m % 2 == 0 || size == .quad)
      fun k _ b c d _ => .st k size o (m / 2 % 2 == 1) (m % 2 == 1) b c d := by cases size <;> rfl
  simp only [hrow, hrel, hcap, hxfer, hnot, Option.bind_some, need_of h]

theorem row6_waita (cmp : WCmp) (w64 : Bool) (acq : Option Scope) (cap : Bool) {f : Fields} (he : f.e = BitVec.ofNat 9 cmp.code) :
    row6 0x13 (mdOf (scopeOrd acq 1 + bit cap 2 + bit w64 1)) f =
      some fun k _ b c d _ => .waita k cmp w64 acq cap b c d := by
  obtain ⟨hacq, hcap, hw, -⟩ := mdOf_scopeOrd 1 (.inl rfl) acq cap w64
  have hcmp : WCmp.ofCode f.e.toNat = some cmp := by rw [he]; cases cmp <;> rfl
  have hrow (m : Nat) : row6 0x13 m f = (WCmp.ofCode f.e.toNat).bind fun o => (scopeOrdOf m 1).map fun s => fun k _ b c d _ =>
      .waita k o (m % 2 == 1) s (m / 2 % 2 == 1) b c d := rfl
  simp only [hrow, hcmp, hacq, hcap, hw, Option.bind_some, Option.map_some]

/-- What the decoder reads from the modifier of ATOM, or of RED with the order's code. -/
theorem mdOf_atom (scope : Scope) (order : Order) (cap w64 : Bool) :
    let m := mdOf (scope.code * 16 + order.code * 4 + bit cap 2 + bit w64 1)
    Scope.ofCode (m / 16) = some scope ∧ m / 4 % 4 = order.code ∧ (m / 2 % 2 == 1) = cap ∧ (m % 2 == 1) = w64 := by
  revert cap w64
  cases scope <;> cases order <;> decide

theorem Order.ofCode_code (o : Order) : Order.ofCode o.code = some o := by cases o <;> rfl

/-- R399, R489: field E of a minimum or maximum holds whether it is signed. -/
theorem signed_of_e {minMax sg : Bool} (h : (!sg || minMax) = true) {f : Fields}
    (he : minMax = true → f.e = BitVec.ofNat 9 (bit sg 1)) :
    (!minMax || decide (f.e.toNat < 2)) = true ∧ (minMax && f.e.toNat == 1) = sg := by
  cases minMax with
  | false => exact ⟨rfl, by simpa using h.symm⟩
  | true =>
    rw [he rfl]
    cases sg <;> decide

theorem opRow_atom {op : AOp} (w64 : Bool) {sg : Bool} (scope : Scope) (order : Order) (cap : Bool)
    (h : (!sg || op == .min || op == .max) = true) {f : Fields}
    (he : (op == .min || op == .max) = true → f.e = BitVec.ofNat 9 (bit sg 1)) :
    opRow (0x1A0 + op.code) (mdOf (scope.code * 16 + order.code * 4 + bit cap 2 + bit w64 1)) f =
      some fun k a b c d e => .atom k op w64 sg scope order cap a b c d (if op == .min || op == .max then .lane 0 else e) := by
  obtain ⟨hscope, horder, hcap, hw⟩ := mdOf_atom scope order cap w64
  obtain ⟨hneed, hsg⟩ := signed_of_e ((Bool.or_assoc ..).symm.trans h) he
  have hrow (m : Nat) : opRow (0x1A0 + op.code) m f =
      (Scope.ofCode (m / 16)).bind fun s => (Order.ofCode (m / 4 % 4)).bind fun r =>
        need (!(op == .min || op == .max) || decide (f.e.toNat < 2)) fun k a b c d e =>
          .atom k op (m % 2 == 1) ((op == .min || op == .max) && f.e.toNat == 1) s r (m / 2 % 2 == 1) a b c d
            (if op == .min || op == .max then .lane 0 else e) := by cases op <;> rfl
  simp only [hrow, hscope, horder, Order.ofCode_code, hcap, hw, hsg, need_of hneed, Option.bind_some]

theorem opRow_red {op : ROp} (w64 : Bool) {sg : Bool} (scope : Scope) (rel cap : Bool)
    (h : (!sg || op == .min || op == .max) = true) {f : Fields}
    (he : (op == .min || op == .max) = true → f.e = BitVec.ofNat 9 (bit sg 1)) :
    opRow (0x1B0 + op.code) (mdOf (scope.code * 16 + bit rel 8 + bit cap 2 + bit w64 1)) f =
      some fun k _ b c d _ => .red k op w64 sg scope rel cap b c d := by
  obtain ⟨hscope, horder, hcap, hw⟩ := mdOf_atom scope (if rel then .rel else .relaxed) cap w64
  obtain ⟨hneed, hsg⟩ := signed_of_e ((Bool.or_assoc ..).symm.trans h) he
  have hrel : bit rel 8 = (if rel then Order.rel else .relaxed).code * 4 := by cases rel <;> rfl
  rw [← hrel] at hscope horder hcap hw
  have hrow (m : Nat) : opRow (0x1B0 + op.code) m f =
      (Scope.ofCode (m / 16)).bind fun s =>
        need ((m / 4 % 4 == 0 || m / 4 % 4 == 2) && (!(op == .min || op == .max) || decide (f.e.toNat < 2))) fun k _ b c d _ =>
          .red k op (m % 2 == 1) ((op == .min || op == .max) && f.e.toNat == 1) s (m / 4 % 4 == 2) (m / 2 % 2 == 1) b c d := by
    cases op <;> rfl
  simp only [hrow, hscope, horder, hcap, hw, hsg, hneed, Option.bind_some]
  cases rel <;> rfl

/-! ### Numbers in the modifier -/

theorem mdOf_toNat {w : Nat} (n : BitVec w) (hw : w ≤ 7) : mdOf n.toNat = n.toNat :=
  mdOf_of_lt (Nat.lt_of_lt_of_le n.isLt (Nat.pow_le_pow_right (by omega) hw))

/-- What the decoder reads from the modifier of LEA: signedness, shift and width (R454). -/
theorem mdOf_lea (signed : Bool) (n : BitVec 3) (w : Bool) :
    let m := mdOf (tOp (bit (!signed) 1) (n.toNat * 2 + bit w 1))
    decide (m / 16 < 2) = true ∧ (m / 16 == 0) = signed ∧ BitVec.ofNat 3 (m % 16 / 2) = n ∧ (m % 2 == 1) = w := by
  revert n
  cases signed <;> cases w <;> decide

theorem row1_lea (signed : Bool) (n : BitVec 3) (w : Bool) :
    row1 13 (mdOf (tOp (bit (!signed) 1) (n.toNat * 2 + bit w 1))) = some fun k a b c _ _ => .lea k signed n w a b c := by
  obtain ⟨hlt, hsigned, hn, hw⟩ := mdOf_lea signed n w
  simp only [row1, hlt, hsigned, hn, hw, need_of]

/-- A row that builds from the number in the modifier builds from that number of its width. -/
theorem Form.row_number {fm : Form} {w : Nat} {n : BitVec w} {mk : BitVec w → Mk}
    (h : fm.rowAt n.toNat = some (mk (BitVec.ofNat w n.toNat))) (hmd : fm.md = n.toNat := by rfl) (hw : w ≤ 7 := by decide) :
    fm.row = some (mk n) := by
  have hrow : fm.row = fm.rowAt (mdOf fm.md) := rfl
  rw [hrow, hmd, mdOf_toNat n hw, h, BitVec.ofNat_toNat, BitVec.setWidth_eq]

/-- R484: QFENCE's mask names some queue. -/
theorem mask_pos {mask : BitVec 4} (h : (mask != 0) = true) : (decide (0 < mask.toNat) && decide (mask.toNat < 16)) = true := by
  have hpos : 0 < mask.toNat := Nat.pos_of_ne_zero fun h0 => absurd (BitVec.eq_of_toNat_eq h0) (bne_iff_ne.mp h)
  exact Bool.and_eq_true_iff.mpr ⟨decide_eq_true hpos, decide_eq_true mask.isLt⟩

theorem row7_acqp {scope : Scope} (h : (scope != .blk) = true) :
    row7 1 (mdOf (scope.code * 16)) = some (fun k _ b c _ _ => .acqp k scope b c) ∧
    row7 1 (mdOf (scope.code * 16 + 1)) = some (fun k _ b c _ _ => .acqpCap k scope b c) := by
  cases scope with
  | blk => exact absurd h (by decide)
  | _ => exact ⟨rfl, rfl⟩

theorem queue_cases (q : BitVec 2) : q = 0 ∨ q = 1 ∨ q = 2 ∨ q = 3 := by
  revert q
  decide

/-! ### Literals (R106, R467) -/

/-- A literal cut into fields B to E is joined again, and the rest of E is zero. -/
theorem Fields.lit32_of_lit {l : Word} {f : Fields} (hb : f.b = litB l) (hc : f.c = litC l) (hd : f.d = litD l)
    (he : f.e = litE l) : f.lit32 = l ∧ f.e.extractLsb' 5 4 = 0 := by
  have hlow : (litE l).extractLsb' 0 5 = l.extractLsb' 27 5 := by
    ext i hi
    simp only [litE, BitVec.getElem_extractLsb', Nat.zero_add, BitVec.getLsbD_setWidth, BitVec.getLsbD_extractLsb', hi,
      show i < 9 by omega, decide_true, Bool.true_and]
  have hhigh : (litE l).extractLsb' 5 4 = 0 := by
    ext i hi
    simp [litE]
  refine ⟨?_, he ▸ hhigh⟩
  rw [Fields.lit32, hb, hc, hd, he, hlow, litB, litC, litD,
    BitVec.extractLsb'_append_extractLsb'_eq_extractLsb' (start₁ := 18) (start₂ := 27) rfl,
    BitVec.extractLsb'_append_extractLsb'_eq_extractLsb' (start₁ := 9) (start₂ := 18) rfl,
    BitVec.extractLsb'_append_extractLsb'_eq_extractLsb' (start₁ := 0) (start₂ := 9) rfl]
  exact BitVec.extractLsb'_eq_self

theorem row2_movi {l : Word} {f : Fields} (h : f.lit32 = l ∧ f.e.extractLsb' 5 4 = 0) :
    row2 1 (mdOf 16) f = some fun k a _ _ _ _ => .movi k a l := by
  simp only [row2, h.1, h.2]
  rfl

theorem row9_mmovW {l : Word} {f : Fields} (h : f.lit32 = l ∧ f.e.extractLsb' 5 4 = 0) :
    row9 11 (mdOf 1) f = some fun k a _ _ _ _ => .mmovW k a l := by
  simp only [row9, h.1, h.2]
  rfl

/-! ### Data bits in one field -/

/-- R455: LOGT's table stands in field E. -/
theorem row2_logt (w : Bool) {tab : BitVec 8} {f : Fields} (he : f.e = tab.setWidth 9) :
    row2 2 (mdOf (w13 w)) f = some fun k a b c d _ => .logt k w a b c d tab := by
  have htop : f.e.getLsbD 8 = false := by simp [he]
  have htab : f.e.setWidth 8 = tab := by simp [he]
  simp only [row2, htop, htab]
  cases w <;> rfl

/-- R453: LDP's window number stands in field C. -/
theorem row6_ldp (w : Bool) {win : BitVec 3} {f : Fields} (hc : f.c = win.setWidth 9) :
    row6 0x10 (mdOf (bit w 1)) f = some fun k a b _ _ _ => .ldp k w win a b := by
  have htop : f.c.extractLsb' 3 6 = 0 := hc ▸ (by decide : ∀ win : BitVec 3, (win.setWidth 9).extractLsb' 3 6 = 0) win
  have hwin : f.c.setWidth 3 = win := by simp [hc]
  have hrow (m : Nat) : row6 0x10 m f = need (decide (m < 2) && f.c.extractLsb' 3 6 == 0)
      fun k a b _ _ _ => .ldp k (m % 2 == 1) (f.c.setWidth 3) a b := rfl
  rw [hrow, htop, hwin]
  cases w <;> rfl

/-! ### Every form fits (R68, R116) -/

section Fits

@[simp] theorem ITy.mod_regs (ty : ITy) : 256 % ty.regs = 0 := by cases ty <;> rfl
@[simp] theorem Fmt.mod_regs (f : Fmt) : 256 % f.regs = 0 := by cases f <;> rfl
@[simp] theorem ShTy.mod_regs (ty : ShTy) : 256 % ty.regs = 0 := by cases ty <;> rfl
@[simp] theorem XTy.mod_regs (ty : XTy) : 256 % ty.regs = 0 := by cases ty <;> rfl
@[simp] theorem LdSize.mod_regs (z : LdSize) : 256 % z.regs = 0 := by cases z <;> rfl
@[simp] theorem StSize.mod_regs (z : StSize) : 256 % z.regs = 0 := by cases z <;> rfl
@[simp] theorem mod_w12 (w : Bool) : 256 % w12 w = 0 := by cases w <;> rfl

theorem LdSize.op_lt (z : LdSize) : 0x180 + z.code < 1024 := by cases z <;> decide
theorem StSize.op_lt (z : StSize) : 0x188 + z.code < 1024 := by cases z <;> decide
theorem AOp.op_lt (o : AOp) : 0x1A0 + o.code < 1024 := by cases o <;> decide
theorem ROp.op_lt (o : ROp) : 0x1B0 + o.code < 1024 := by cases o <;> decide

@[simp] theorem Slot.aligned_unused : Slot.unused.aligned = true := rfl
@[simp] theorem Slot.aligned_raw (v : BitVec 9) : (Slot.raw v).aligned = true := rfl
@[simp] theorem Slot.aligned_blank (o : Opnd) : (Slot.blank o).aligned = true := rfl
@[simp] theorem Slot.aligned_reg (s : Spec) (o : Opnd) : (Slot.reg s o).aligned = (256 % s.width == 0) := rfl

@[simp] theorem Slot.aligned_ite (p : Prop) [Decidable p] (u v : Slot) :
    (if p then u else v).aligned = if p then u.aligned else v.aligned := apply_ite ..

@[simp] theorem Slot.aligned_slotIf {s : Spec} (p : Bool) (o : Opnd) (h : 256 % s.width = 0) : (slotIf p s o).aligned = true := by
  simp [slotIf, h]

@[simp] theorem Spec.mod_width_ite {p : Prop} [Decidable p] {s t : Spec} (hs : 256 % s.width = 0) (ht : 256 % t.width = 0) :
    256 % (if p then s else t).width = 0 := by split <;> assumption

@[simp] theorem slotIf_ne_raw (p : Bool) (s : Spec) (o : Opnd) (v : BitVec 9) : slotIf p s o ≠ .raw v := by cases p <;> nofun

/-- LDP's window number is no immediate's code. -/
theorem isPayload_window (win : BitVec 3) : isPayload (win.setWidth 9) = false := by
  revert win
  decide

/-- Each field of a form is of one of the kinds that the lemmas above decide. -/
theorem Instr.form_fits {i : Instr} {fm : Form} (h : i.form = some fm) : fm.Fits := by
  cases i <;> cases h <;> constructor <;> simp [dst, src, srcI, srcX, laneOnly, capQ, immOnly, mReg, xReg, mSrc, mCount, addrB,
    LdSize.op_lt, StSize.op_lt, AOp.op_lt, ROp.op_lt, isPayload_window]

end Fits

end Sys2Proof
end

section
/-! SUPPORT. Every instruction's row builds it again from its word (R116 to R121). -/

namespace Sys2Proof

theorem Instr.wf_of_form {st : Stream} {i : Instr} {fm : Form} (h : i.wf st = true) (hform : i.form = some fm) :
    i.modOk = true ∧ i.eOk st = true ∧ fm.Legal st := by
  simp only [Instr.wf, hform, Bool.and_eq_true, and_assoc] at h
  obtain ⟨hmod, hcode0, hwf⟩ := h
  exact ⟨hmod, hcode0, Form.legal_of_wf hwf⟩

/-- Field E as the word holds it, when D is in use. -/
theorem Form.Roomy.fields_e {fm : Form} (h : fm.Roomy) (hd : fm.d ≠ .unused) : fm.fields.e = fm.e.code :=
  Form.fields_e (h.free.resolve_right fun ⟨hd', _⟩ => hd hd')

theorem Slot.opnd_slotIf {st : Stream} {p : Bool} {s : Spec} {o : Opnd} (h : (slotIf p s o).legal st = true) :
    (slotIf p s o).opnd st = o := by
  cases p with
  | true => rfl
  | false => exact (beq_iff_eq.mp h).symm

theorem slotIf_ne_unused (p : Bool) (s : Spec) (o : Opnd) : slotIf p s o ≠ .unused := by cases p <;> nofun

/-- R120: ATOM runs in waves alone. -/
theorem stream_of_atom {st : Stream} {op : AOp} (h : opInStream st (0x1A0 + op.code) = true) : st = .wave := by
  cases st with
  | wave => rfl
  | matrix | control => cases op <;> exact absurd h (by decide)

/-- R399: field E of ATOM is an operand, whether the operation is signed, or zero. -/
theorem Instr.exists_builder_atom {st : Stream} {k : Ctl} {op : AOp} {w sg : Bool} {scope : Scope} {order : Order} {cap : Bool}
    {a b c d e : Opnd} (h : (Instr.atom k op w sg scope order cap a b c d e).wf st = true) :
    ∃ fm mk, (Instr.atom k op w sg scope order cap a b c d e).form = some fm ∧
      Builds st (.atom k op w sg scope order cap a b c d e) fm mk := by
  obtain ⟨hmod, hcode0, hlegal⟩ := Instr.wf_of_form h rfl
  obtain rfl := stream_of_atom hlegal.op
  have hE := hlegal.room.fields_e nofun
  refine ⟨_, _, rfl, { found := opRow_atom w scope order cap hmod fun hmm => ?_, built := ?_, shape := ?_ }⟩
  · have hcas : (op == .cas) = false := by cases op <;> simp_all
    exact hE.trans (by simp [hcas, hmm, Slot.code])
  · refine congrArg (Instr.atom k op w sg scope order cap a b c d) ?_
    rcases Bool.or_eq_true_iff.mp hcode0 with hcas | he
    · obtain rfl := beq_iff_eq.mp hcas
      rfl
    · obtain rfl := beq_iff_eq.mp he
      cases op <;> rfl
  · cases op <;> rfl

/-- Every well-formed instruction has a builder: the forms without a modifier, then those whose modifier is one, two or three
enumerations, and the others one by one. -/
theorem Instr.exists_builder {st : Stream} {i : Instr} (h : i.wf st = true) :
    ∃ fm mk, i.form = some fm ∧ Builds st i fm mk := by
  cases i with
  | nop k | bra k off | brx k b | call k a off | callx k a b | ret k b | exit k | yieldI k | sleep k b | bkpt k
  | cnarrow k a b c d | cperm k a b c | cget k a b | cclr k a | part k b | elect k off | elend k | rgn k | rgnc k
  | barLaunch k | baraLaunch k | barwLaunch k | bcw k a b | mlay k a b | mma k a b c d | mzero k a b | mld k a b c | mjmp k off
  | mloop k a off | madd k a b c | maddR k a b | maddC k a b | mmov k a b | mend k | launch k a b | gsig k b | cntr k a b
  | rhint k b c | srd k a b | swr k b c => exact ⟨_, _, rfl, { found := rfl }⟩
  | rtt k x | iaddc k x a b c d | imul k x a b c | imulh k x a b c | imad k x a b c d | imadw k x a b c d | imin k x a b c
  | imax k x a b c | sel k x a b c d | mov k x a b | shl k x a b c | shr k x a b c | sha k x a b c | bfx k x a b c | bfi k x a b c
  | brev k x a b | clz k x a b | popc k x a b | rdlane k x a b c | fclass k x a b | fex2 k x a b | flg2 k x a b | fsin k x a b
  | fcos k x a b | ftanh k x a b | pmin k x a b c | pmax k x a b c | vote k x a b | fence k x | mscl k x b | mbcnt k x a
  | cancel k x a b | prf k x b c => cases x <;> exact ⟨_, _, rfl, { found := rfl }⟩
  | iadd k x y a b c | iaddt k x y a b c d | isub k x y a b c | iabs k x y a b | icmp k x y a b c | shd k x y a b c d
  | cchk k x y a b c | fadd k x y a b c | fsub k x y a b c | fmul k x y a b c | ffma k x y a b c d | fmin k x y a b c
  | fmax k x y a b c | fcmp k x y a b c | fdot2 k x y a b c d | frcp k x y a b | frsq k x y a b | fsqrt k x y a b
  | padd k x y a b c | pmul k x y a b c | pfma k x y a b c d | shfl k x y a b c | matchT k x y a b | ldchain k x y a b c d
  | cctl k x y b c | waitv k x y b c => cases x <;> cases y <;> exact ⟨_, _, rfl, { found := rfl }⟩
  | frnd k x y z a b | sigv k x y z b c => cases x <;> cases y <;> cases z <;> exact ⟨_, _, rfl, { found := rfl }⟩
  | ckick k q b c | puts k q b c | get k q b c | radd k q b c | mput k q b c | mputRed k q b c | mputOrd k q b c | pcoll k q b =>
    rcases queue_cases q with rfl | rfl | rfl | rfl <;> exact ⟨_, _, rfl, { found := rfl }⟩
  | trap k code =>
    have hcode : (code.setWidth 18).setWidth 8 = code := by simp
    exact ⟨_, _, rfl, { found := rfl, built := congrArg (Instr.trap k) hcode }⟩
  | lea k signed n w a b c => exact ⟨_, _, rfl, { found := row1_lea signed n w }⟩
  | movi k a l => exact ⟨_, _, rfl, { found := row2_movi (Fields.lit32_of_lit rfl rfl rfl rfl) }⟩
  | mmovW k a l => exact ⟨_, _, rfl, { found := row9_mmovW (Fields.lit32_of_lit rfl rfl rfl rfl) }⟩
  | logt k w a b c d tab =>
    obtain ⟨-, -, hlegal⟩ := Instr.wf_of_form h rfl
    exact ⟨_, _, rfl, { found := row2_logt w (hlegal.room.fields_e nofun) }⟩
  | hrnd k useK a b c =>
    obtain ⟨-, -, hlegal⟩ := Instr.wf_of_form h rfl
    have hc := Slot.opnd_slotIf hlegal.c
    cases useK <;> exact ⟨_, _, rfl, { found := rfl, built := congrArg (Instr.hrnd k _ a b) hc }⟩
  | cvt k df sf r a b c d =>
    obtain ⟨hmod, -, hlegal⟩ := Instr.wf_of_form h rfl
    have he := hlegal.room.fields_e (slotIf_ne_unused _ _ _)
    have hcd := congrArg₂ (Instr.cvt k df sf r a b) (Slot.opnd_slotIf hlegal.c) (Slot.opnd_slotIf hlegal.d)
    exact ⟨_, _, rfl,
      { found := cvtOf_code hmod he fun d s r k a b c d' _ => .cvt k d s r a b c d'
        built := hcd
        shape := by simp [Mk.plain, Instr.form, Form.shape, Slot.shape_reg, Slot.shape_slotIf] }⟩
  | cvts k df sf r a b c d =>
    obtain ⟨hmod, -, hlegal⟩ := Instr.wf_of_form h rfl
    have he := hlegal.room.fields_e (slotIf_ne_unused _ _ _)
    have hcd := congrArg₂ (Instr.cvts k df sf r a b) (Slot.opnd_slotIf hlegal.c) (Slot.opnd_slotIf hlegal.d)
    exact ⟨_, _, rfl,
      { found := cvtOf_code hmod he fun d s r k a b c d' _ => .cvts k d s r a b c d'
        built := hcd
        shape := by simp [Mk.plain, Instr.form, Form.shape, Slot.shape_reg, Slot.shape_slotIf] }⟩
  | qscal k f a b =>
    obtain ⟨hmod, -, -⟩ := Instr.wf_of_form h rfl
    obtain (rfl | rfl) | rfl : (f = .e4m3 ∨ f = .e5m2) ∨ f = .lns6 := by simpa [Instr.modOk] using hmod
    all_goals exact ⟨_, _, rfl, { found := rfl }⟩
  | redt k op ty a b =>
    obtain ⟨hmod, -, -⟩ := Instr.wf_of_form h rfl
    exact ⟨_, _, rfl, { found := row5_redt hmod }⟩
  | scant k excl op ty a b =>
    obtain ⟨hmod, -, -⟩ := Instr.wf_of_form h rfl
    exact ⟨_, _, rfl, { found := row5_scant excl hmod }⟩
  | ld k size acq cap xfer a b c =>
    obtain ⟨hmod, -, -⟩ := Instr.wf_of_form h rfl
    exact ⟨_, _, rfl, { found := opRow_ld acq cap hmod _ }⟩
  | st k size rel cap xfer b c d =>
    obtain ⟨hmod, -, -⟩ := Instr.wf_of_form h rfl
    exact ⟨_, _, rfl, { found := opRow_st rel cap hmod _ }⟩
  | ldp k w win a b => exact ⟨_, _, rfl, { found := row6_ldp w rfl }⟩
  | waita k cmp w acq cap b c d =>
    obtain ⟨-, -, hlegal⟩ := Instr.wf_of_form h rfl
    exact ⟨_, _, rfl, { found := row6_waita cmp w acq cap (hlegal.room.fields_e nofun) }⟩
  | atom k op w sg scope order cap a b c d e => exact Instr.exists_builder_atom h
  | red k op w sg scope rel cap b c d =>
    obtain ⟨hmod, -, hlegal⟩ := Instr.wf_of_form h rfl
    have hE := hlegal.room.fields_e nofun
    refine ⟨_, _, rfl, { found := opRow_red w scope rel cap hmod fun hmm => ?_, shape := ?_ }⟩
    · exact hE.trans (by simp [hmm, Slot.code])
    · cases op <;> rfl
  | acqp k scope b c =>
    obtain ⟨hmod, -, -⟩ := Instr.wf_of_form h rfl
    exact ⟨_, _, rfl, { found := (row7_acqp hmod).1 }⟩
  | acqpCap k scope b c =>
    obtain ⟨hmod, -, -⟩ := Instr.wf_of_form h rfl
    exact ⟨_, _, rfl, { found := (row7_acqp hmod).2 }⟩
  | qfence k n =>
    obtain ⟨hmod, -, -⟩ := Instr.wf_of_form h rfl
    have hn := need_of (mask_pos hmod)
    exact ⟨_, _, rfl, { found := Form.row_number (mk := fun n k _ _ _ _ _ => .qfence k n) (hn _) }⟩
  | bar k n b =>
    exact ⟨_, _, rfl, { found := Form.row_number (mk := fun n k _ b _ _ _ => .bar k n b) (if_pos n.isLt) }⟩
  | bara k n b =>
    exact ⟨_, _, rfl, { found := Form.row_number (mk := fun n k _ b _ _ _ => .bara k n b) (if_pos n.isLt) }⟩
  | barw k n =>
    exact ⟨_, _, rfl, { found := Form.row_number (mk := fun n k _ _ _ _ _ => .barw k n) (if_pos n.isLt) }⟩
  | mbar k n b c =>
    exact ⟨_, _, rfl, { found := Form.row_number (mk := fun n k _ b c _ _ => .mbar k n b c) (need_isLt n _) }⟩
  | mbwait k n =>
    exact ⟨_, _, rfl, { found := Form.row_number (mk := fun n k _ _ _ _ _ => .mbwait k n) (need_isLt n _) }⟩
  | qpush k n b =>
    exact ⟨_, _, rfl, { found := Form.row_number (mk := fun n k _ b _ _ _ => .qpush k n b) (need_isLt n _) }⟩
  | qpop k n a =>
    exact ⟨_, _, rfl, { found := Form.row_number (mk := fun n k a _ _ _ _ => .qpop k n a) (need_isLt n _) }⟩
  | qtry k n a =>
    exact ⟨_, _, rfl, { found := Form.row_number (mk := fun n k a _ _ _ _ => .qtry k n a) (need_isLt n _) }⟩
  | mwait k n =>
    exact ⟨_, _, rfl, { found := Form.row_number (mk := fun n k _ _ _ _ _ => .mwait k n) (need_isLt n _) }⟩
  | msig k n b =>
    exact ⟨_, _, rfl, { found := Form.row_number (mk := fun n k _ b _ _ _ => .msig k n b) (need_isLt n _) }⟩
  | mst k f sat sc b c d e =>
    obtain ⟨-, -, hlegal⟩ := Instr.wf_of_form h rfl
    have he := Slot.opnd_slotIf hlegal.e
    cases f <;> cases sat <;> cases sc <;>
      exact ⟨_, _, rfl, { found := rfl, built := congrArg (Instr.mst k _ _ _ b c d) he }⟩
  | tkrd k sel a b =>
    obtain ⟨-, -, hlegal⟩ := Instr.wf_of_form h rfl
    have hb := Slot.opnd_slotIf hlegal.b
    cases sel <;> exact ⟨_, _, rfl, { found := rfl, built := congrArg (Instr.tkrd k _ a) hb }⟩
  | pint k n a b =>
    obtain ⟨hmod, -, -⟩ := Instr.wf_of_form h rfl
    have hn : (decide (2 ≤ n.toNat) && decide (n.toNat < 16)) = true := Bool.and_eq_true_iff.mpr ⟨hmod, decide_eq_true n.isLt⟩
    exact ⟨_, _, rfl, { found := Form.row_number (mk := fun n k a b _ _ _ => .pint k n a b) (need_of hn _) }⟩
  | _ => exact absurd h Bool.false_ne_true

/-- R98 to R107, R115: the word of a well-formed instruction decodes to it. -/
theorem Instr.decode_encode {st : Stream} {i : Instr} (h : i.wf st = true) : ∃ w, encode i = some w ∧ decode st w = .ok i := by
  obtain ⟨fm, mk, hform, hbuilds⟩ := Instr.exists_builder h
  obtain ⟨hmod, -, hlegal⟩ := Instr.wf_of_form h hform
  refine ⟨fm.fields.toWord, by rw [encode, hform]; rfl, ?_⟩
  rw [decode, decodeIn, Fields.ofWord_toWord]
  exact hbuilds.decodeFields hlegal (Instr.form_fits hform) hmod

/-- Settles O50: the decoder computes what each word says. -/
theorem decodeWords : Obligations.DecodeWords := by
  unfold Obligations.DecodeWords
  decide +kernel

/-- Settles O51: the fields of a form stand in its word, pass the checks, and its row builds the instruction from them. -/
theorem encodeRoundTrip : Obligations.EncodeRoundTrip := by
  unfold Obligations.EncodeRoundTrip
  exact fun _ _ => Instr.decode_encode

end Sys2Proof
end

section
/-! SUPPORT. Messages leave the package, and nothing else of the machine changes but their numbers, keys and Milliner's record
(R266, R346, R356). -/

namespace Sys2Proof.Machine

/-- A state with the same memory, dirty bytes, cores and blocks holds every byte as before. -/
theorem keepsBytes_of_eq {s t : State} (hmem : t.mem = s.mem) (hdirty : t.dirty = s.dirty) (hcores : t.cores = s.cores)
    (hblocks : t.blocks = s.blocks) : KeepsBytes s t :=
  ⟨fun _ => by rw [State.homeByte, hmem]; rfl, State.viewByte_congr hmem hdirty fun n => by rw [State.core, hcores]; rfl,
    fun _ _ => by rw [spadAt, State.block?, hblocks]; rfl⟩

/-- Between two states only the messages out differ, with what their sending counts and records. -/
def State.OnlySends (s t : State) : Prop :=
  t = { s with out := t.out, seqOut := t.seqOut, seals := t.seals, keyWait := t.keyWait, mil := t.mil, pkg := t.pkg }

theorem State.onlySends_trans {s t u : State} (h : s.OnlySends t) (h' : t.OnlySends u) : s.OnlySends u := by
  unfold State.OnlySends at *
  rw [h', h]

theorem State.onlySends_numbered (s : State) (m : OutMsg) : s.OnlySends (s.numbered m) := by
  cases m <;> rfl

theorem State.onlySends_interrupt (s : State) (vec : Nat) : s.OnlySends (s.interrupt vec) := by
  unfold State.interrupt
  split <;> rfl

theorem State.onlySends_sendKeyed (s : State) (slot : Nat) (m : OutMsg) : s.OnlySends (s.sendKeyed slot m) := by
  unfold State.sendKeyed
  simp only
  split
  · exact State.onlySends_trans (by rfl) (State.onlySends_interrupt _ 2)
  · exact State.onlySends_trans (by rfl) (State.onlySends_numbered _ m)

theorem State.onlySends_request (s : State) (ctx cls : Nat) (op : PeerOp) (va size : Nat) (data : List Byte) (tag : Nat)
    (inst : Option (Nat × Nat)) : s.OnlySends (s.request ctx cls op va size data tag inst) := by
  unfold State.request State.sendCtx
  simp only
  split
  · exact s.onlySends_sendKeyed _ _
  · exact s.onlySends_numbered _

section OnlySends

variable {s t : State} (h : s.OnlySends t)
include h

theorem State.OnlySends.keepsBytes : KeepsBytes s t :=
  keepsBytes_of_eq (by rw [h]) (by rw [h]) (by rw [h]) (by rw [h])

theorem State.OnlySends.posted : t.posted = s.posted := by rw [h]

end OnlySends

/-- A posted write is a message, and stands among those that their owners have not acknowledged (R266). -/
theorem State.keepsBytes_post (s : State) (core blk wave lane ctx : Nat) (op : PeerOp) (va : Nat) (data : List Byte) (cls : Nat)
    (eng : Option Nat) (inst : Option (Nat × Nat)) : KeepsBytes s (s.post core blk wave lane ctx op va data cls eng inst) :=
  keepsBytes_trans (keepsBytes_of_eq rfl rfl rfl rfl) (State.onlySends_request _ _ _ _ _ _ _ _ _).keepsBytes

theorem State.post_posted (s : State) (core blk wave lane ctx : Nat) (op : PeerOp) (va : Nat) (data : List Byte) (cls : Nat)
    (eng : Option Nat) (inst : Option (Nat × Nat)) :
    ∃ x, (s.post core blk wave lane ctx op va data cls eng inst).posted = s.posted ++ [x] ∧ x.va = va ∧ x.data = data ∧ x.op = op :=
  ⟨_, (State.onlySends_request _ _ _ _ _ _ _ _ _).posted, rfl, rfl, rfl⟩

end Sys2Proof.Machine
end

section
/-! SUPPORT. WAITV and SIGV in a control stream (R120, R254, R323 to R326, R503, R512). -/

namespace Sys2Proof.Machine

variable {s : State} {c : Cur} {k : Ctl} {q : Nat}

/-! ### Words of 32 and 64 bits -/

theorem four_mul_regs64 (w64 : Bool) : 4 * regs64 w64 = if w64 then 8 else 4 := by cases w64 <;> rfl

theorem rd_regs64_lt (s : State) (c : Cur) (w64 : Bool) (o : Opnd) :
    (s.rd c .int (regs64 w64) o 0).toNat < 2 ^ (8 * (4 * regs64 w64)) := by
  cases w64 with
  | false => exact rd_one_lt s c o (by norm_num)
  | true => exact (s.rd c .int 2 o 0).isLt

theorem State.homeNat_lt (s : State) (sa n : Nat) : s.homeNat sa n < 2 ^ (8 * n) := by
  have h := ofBytes_lt (s.homeBytes sa n)
  rwa [State.homeBytes, List.length_map, upFrom_length] at h

theorem State.homeNat_regs64_lt (s : State) (sa : Nat) (w64 : Bool) : s.homeNat sa (4 * regs64 w64) < 2 ^ 64 := by
  refine (s.homeNat_lt sa _).trans_le (Nat.pow_le_pow_right (by norm_num) ?_)
  cases w64 <;> decide

/-- What SIGV leaves fits in its word (R326). -/
theorem sigNew_lt (op : SigOp) {z old x : Nat} (hold : old < 2 ^ (8 * z)) (hx : x < 2 ^ (8 * z)) : sigNew op z old x < 2 ^ (8 * z) := by
  cases op with
  | set => exact hx
  | add => exact Nat.mod_lt _ (by positivity)
  | max => exact max_lt hold hx

/-! ### A control stream that completes an instruction -/

/-- Completing changes the registers and places of the issuing queue alone. -/
theorem State.complete_cp_frame (ha : c.agent = .cp q) (s : State) (b c' d : Opnd) (r : Result) :
    s.complete c k b c' d r = { s with hwqs := (s.complete c k b c' d r).hwqs } := by
  simp only [State.complete, State.putCur, State.cpAdvance, ha]
  rfl

theorem State.keepsBytes_complete_cp (ha : c.agent = .cp q) (s : State) (b c' d : Opnd) (r : Result) :
    KeepsBytes s (s.complete c k b c' d r) := by
  rw [State.complete_cp_frame ha]
  exact keepsBytes_of_eq rfl rfl rfl rfl

theorem State.homeByte_complete_cp (ha : c.agent = .cp q) (s : State) (b c' d : Opnd) (r : Result) (a : Nat) :
    (s.complete c k b c' d r).homeByte a = s.homeByte a :=
  (State.keepsBytes_complete_cp ha s b c' d r).1 a

theorem State.homeNat_complete_cp (ha : c.agent = .cp q) (s : State) (b c' d : Opnd) (r : Result) (a n : Nat) :
    (s.complete c k b c' d r).homeNat a n = s.homeNat a n := by
  rw [State.complete_cp_frame ha]
  rfl

/-- Without a result the queue moves to its next slot with its registers as they were (R323). -/
theorem State.hwq_complete_cp (hc : s.cur? = some c) (ha : c.agent = .cp q) (hla : k.la = 0) {t : State} (ht : t.hwqs = s.hwqs)
    (b c' d : Opnd) : (t.complete c k b c' d {}).hwq q = (s.hwq q).advance := by
  have hq : t.hwq q = s.hwq q := by rw [State.hwq, ht]; rfl
  have hw : ((c.onward k b c' d c.active).deliver k c.active {}).w = (s.hwq q).w := by
    obtain ⟨_, _, _, ha', -⟩ | ⟨q', ha', hwave, -⟩ := State.cur_agent hc
    · cases ha.symm.trans ha'
    · obtain rfl : q = q' := by simpa using ha.symm.trans ha'
      have honward : (c.onward k b c' d c.active).w = (s.hwq q).w := by rw [Cur.onward_w, hwave]
      simp only [Wave.deliver, hla, if_true]
      exact honward
  rw [Cur.onward] at hw
  simp only [State.complete, State.putCur, State.cpAdvance, ha, State.hwq_setHwq, if_true, hq, hw]

/-- With no invalidation outstanding a release of the command processor performs at once (R254, R503). -/
theorem State.releaseSys_cp (ha : c.agent = .cp q) (hinval : s.invalWait = []) (p : LaneSet) (go : State → State) :
    s.releaseSys c p go = go s := by
  simp only [State.releaseSys, State.mustWaitCur, ha, hinval, List.isEmpty_nil, Bool.not_true, Bool.and_false, Bool.false_eq_true,
    if_false]

/-! ### One try of WAITV (R326, R512) -/

/-- What a WAITV in hand waits for. -/
def State.streamWait (s : State) (c : Cur) (cmp : WCmp) (w64 : Bool) (b d : Opnd) : WaitA :=
  { cmp, w64, acq := some .sys, ea := s.rd64 c b 0, comparand := s.rd c .int (regs64 w64) d 0 }

/-- A try at a word whose address is mapped: its home cannot be reached, its line is poisoned, or its test decides. -/
theorem State.tryWaitv_eq {ctx : Nat} {w : WaitA} {l : Leaf} (hl : s.translate ctx (w.ea.toNat % 2 ^ 57) .read = .ok l) :
    s.tryWaitv q ctx w =
      if s.accessWaits l.sa then s.setHwq q { s.hwq q with wait := .test w }
      else if s.isPoisoned l.sa then s.cpFault q 6
      else if waitTest w.cmp (BitVec.ofNat 64 (s.homeNat l.sa (4 * regs64 w.w64))) w.comparand then
        { s with peerCopies := [] }.setHwq q (s.hwq q).advance
      else s.setHwq q { s.hwq q with wait := .test w } := by
  simp only [State.tryWaitv, State.addrWaits, hl, State.readGlobal, State.readHome]
  cases s.isPoisoned l.sa <;> rfl

/-! ### The checks of both in a control stream -/

/-- WAITV in a control stream, check by check. -/
theorem exec_waitv_cp (hc : s.cur? = some c) (ha : c.agent = .cp q) (cmp : WCmp) (w64 : Bool) (b d : Opnd) :
    exec (.waitv k cmp w64 b d) s = .next (
      if s.parts c k = 0 then s.complete c k b d .zero {}
      else if (s.rd64 c b 0).toNat % (4 * regs64 w64) ≠ 0 then s.cpFault q 5
      else if s.isLocal (s.rd64 c b 0).toNat then s.tryWaitv q c.ctx (s.streamWait c cmp w64 b d)
      else (s.request c.ctx clsDemand .load (s.rd64 c b 0).toNat (4 * regs64 w64) [] (cpTag q)).setHwq q
        { s.hwq q with wait := .test (s.streamWait c cmp w64 b d) }) := by
  change execWaitv k cmp w64 b d s = _
  simp only [execWaitv, onCur_eq hc, ha]
  rfl

/-- SIGV's access once its release has performed: at the word's home, or posted to its owner. -/
def State.signalWord (s : State) (c : Cur) (k : Ctl) (q : Nat) (op : SigOp) (z va x : Nat) (b d : Opnd) : State :=
  let need := if op = .set then .write else .atomic
  if s.isLocal va then
    if s.addrWaits c.ctx va need then s.setHwq q { s.hwq q with wait := .home }
    else match s.translate c.ctx va need with
      | .error e => s.holdCp q c.ctx va e
      | .ok l => (s.homeWrite l.sa (bytesOf z (sigNew op z (s.homeNat l.sa z) x))).complete c k b d .zero {}
  else
    (s.post 0 0 0 0 c.ctx (sigPeer op) va (bytesOf z x) clsDemand (some (8 + q))).setHwq q { s.hwq q with wait := .ack }

/-- SIGV in a control stream, check by check. -/
theorem exec_sigv_cp (hc : s.cur? = some c) (ha : c.agent = .cp q) (op : SigOp) (w64 done : Bool) (b d : Opnd) :
    exec (.sigv k op w64 done b d) s = .next (
      if s.parts c k = 0 then s.complete c k b d .zero {}
      else if (s.rd64 c b 0).toNat % (4 * regs64 w64) ≠ 0 then s.cpFault q 5
      else if done ∧ (s.hwq q).liveLaunches ≠ 0 then s.setHwq q { s.hwq q with wait := .done }
      else s.releaseSys c (s.parts c k) fun t => t.signalWord c k q op (4 * regs64 w64) (s.rd64 c b 0).toNat
        (s.rd c .int (regs64 w64) d 0).toNat b d) := by
  change execSigv k op w64 done b d s = _
  simp only [execSigv, onCur_eq hc, ha]
  rfl

/-! ### WAITV, and misaligned words (R326, R512) -/

section Stream

variable (hc : s.cur? = some c) (ha : c.agent = .cp q) (hp : s.parts c k ≠ 0) (cmp : WCmp) (op : SigOp) {w64 done : Bool} {b d : Opnd}

section Misaligned

variable (hz : (s.rd64 c b 0).toNat % (4 * regs64 w64) ≠ 0)
include hc ha hp hz

theorem exec_waitv_misaligned : exec (.waitv k cmp w64 b d) s = .next (s.cpFault q 5) := by
  rw [exec_waitv_cp hc ha, if_neg hp, if_pos hz]

theorem exec_sigv_misaligned : exec (.sigv k op w64 done b d) s = .next (s.cpFault q 5) := by
  rw [exec_sigv_cp hc ha, if_neg hp, if_pos hz]

end Misaligned

variable (hz : (s.rd64 c b 0).toNat % (4 * regs64 w64) = 0)
include hc ha hp hz

theorem exec_waitv_here (hlocal : s.isLocal (s.rd64 c b 0).toNat = true) :
    exec (.waitv k cmp w64 b d) s = .next (s.tryWaitv q c.ctx (s.streamWait c cmp w64 b d)) := by
  rw [exec_waitv_cp hc ha, if_neg hp, if_neg (not_not.mpr hz), if_pos hlocal]

section Mapped

variable {l : Leaf} (hlocal : s.isLocal (s.rd64 c b 0).toNat = true)
  (hl : s.translate c.ctx ((s.rd64 c b 0).toNat % 2 ^ 57) .read = .ok l)
include hlocal hl

theorem exec_waitv_poisoned (hhome : s.accessWaits l.sa = false) (hpoison : s.isPoisoned l.sa = true) :
    exec (.waitv k cmp w64 b d) s = .next (s.cpFault q 6) := by
  rw [exec_waitv_here hc ha hp cmp hz hlocal, State.tryWaitv_eq hl, hhome, hpoison]
  rfl

theorem exec_waitv_passes (hhome : s.accessWaits l.sa = false) (hsound : s.isPoisoned l.sa = false)
    (hholds : WaitHolds cmp (s.homeNat l.sa (4 * regs64 w64)) (s.rd c .int (regs64 w64) d 0).toNat) :
    exec (.waitv k cmp w64 b d) s = .next ({ s with peerCopies := [] }.setHwq q (s.hwq q).advance) := by
  have htest := (waitTest_iff cmp (s.homeNat_regs64_lt l.sa w64) _).mpr hholds
  rw [exec_waitv_here hc ha hp cmp hz hlocal, State.tryWaitv_eq hl, hhome, hsound]
  exact congrArg Host.Outcome.next (if_pos htest)

theorem exec_waitv_waits (hwait : s.accessWaits l.sa = true ∨ s.isPoisoned l.sa = false ∧
      ¬WaitHolds cmp (s.homeNat l.sa (4 * regs64 w64)) (s.rd c .int (regs64 w64) d 0).toNat) :
    exec (.waitv k cmp w64 b d) s = .next (s.setHwq q { s.hwq q with wait := .test (s.streamWait c cmp w64 b d) }) := by
  rw [exec_waitv_here hc ha hp cmp hz hlocal, State.tryWaitv_eq hl]
  cases hhome : s.accessWaits l.sa with
  | true => rfl
  | false =>
    obtain ⟨hsound, hfails⟩ := hwait.resolve_left (by simp [hhome])
    have htest := mt (waitTest_iff cmp (s.homeNat_regs64_lt l.sa w64) (s.rd c .int (regs64 w64) d 0)).mp hfails
    rw [hsound]
    exact congrArg Host.Outcome.next (if_neg htest)

end Mapped

/-- A word of another package is asked of its owner, and the stream waits for the answer (R326). -/
theorem exec_waitv_away (hlocal : s.isLocal (s.rd64 c b 0).toNat = false) :
    ∃ t, exec (.waitv k cmp w64 b d) s = .next t ∧ t.hwq q = { s.hwq q with wait := .test (s.streamWait c cmp w64 b d) } ∧
      KeepsBytes s t := by
  have hsent := s.onlySends_request c.ctx clsDemand .load (s.rd64 c b 0).toNat (4 * regs64 w64) [] (cpTag q) none
  refine ⟨_, ?_, (State.hwq_setHwq _ q q _).trans (if_pos rfl), keepsBytes_trans hsent.keepsBytes (keepsBytes_of_eq rfl rfl rfl rfl)⟩
  rw [exec_waitv_cp hc ha, if_neg hp, if_neg (not_not.mpr hz), if_neg (Bool.eq_false_iff.mp hlocal)]

/-! ### SIGV (R326, R503) -/

/-- SIGV.done waits at its slot while a launch of its command has not completed (R503). -/
theorem exec_sigv_waitsDone (hdone : done = true) (hlive : (s.hwq q).liveLaunches ≠ 0) :
    exec (.sigv k op w64 done b d) s = .next (s.setHwq q { s.hwq q with wait := .done }) := by
  rw [exec_sigv_cp hc ha, if_neg hp, if_neg (not_not.mpr hz), if_pos ⟨hdone, hlive⟩]

variable (hlive : done = true → (s.hwq q).liveLaunches = 0) (hinval : s.invalWait = [])
include hlive hinval

theorem exec_sigv_ready : exec (.sigv k op w64 done b d) s = .next (s.signalWord c k q op (4 * regs64 w64) (s.rd64 c b 0).toNat
    (s.rd c .int (regs64 w64) d 0).toNat b d) := by
  rw [exec_sigv_cp hc ha, if_neg hp, if_neg (not_not.mpr hz), if_neg fun h => h.2 (hlive h.1), State.releaseSys_cp ha hinval]

theorem exec_sigv_here {l : Leaf} (hlocal : s.isLocal (s.rd64 c b 0).toNat = true)
    (hl : s.translate c.ctx (s.rd64 c b 0).toNat (if op = .set then .write else .atomic) = .ok l)
    (hhome : s.accessWaits l.sa = false) :
    exec (.sigv k op w64 done b d) s = .next ((s.homeWrite l.sa (bytesOf (4 * regs64 w64) (sigNew op (4 * regs64 w64)
      (s.homeNat l.sa (4 * regs64 w64)) (s.rd c .int (regs64 w64) d 0).toNat))).complete c k b d .zero {}) := by
  rw [exec_sigv_ready hc ha hp op hz hlive hinval]
  simp only [State.signalWord, hlocal, State.addrWaits, hl, hhome, if_true, Bool.false_eq_true, if_false]

/-- SIGV's word at its home, and the bytes about it (R326). -/
theorem exec_sigv_writes (hla : k.la = 0) {l : Leaf} (hlocal : s.isLocal (s.rd64 c b 0).toNat = true)
    (hl : s.translate c.ctx (s.rd64 c b 0).toNat (if op = .set then .write else .atomic) = .ok l)
    (hhome : s.accessWaits l.sa = false) :
    ∃ t, exec (.sigv k op w64 done b d) s = .next t ∧ t.hwq q = (s.hwq q).advance ∧
      (∀ a, a < l.sa ∨ l.sa + 4 * regs64 w64 ≤ a → t.homeByte a = s.homeByte a) ∧
      t.homeNat l.sa (4 * regs64 w64) =
        sigNew op (4 * regs64 w64) (s.homeNat l.sa (4 * regs64 w64)) (s.rd c .int (regs64 w64) d 0).toNat := by
  have hnew := sigNew_lt op (s.homeNat_lt l.sa (4 * regs64 w64)) (rd_regs64_lt s c w64 d)
  refine ⟨_, exec_sigv_here hc ha hp op hz hlive hinval hlocal hl hhome, ?_, fun a hout => ?_, ?_⟩
  · exact State.hwq_complete_cp hc ha hla (by rw [State.homeWrite_frame]) b d .zero
  · rw [State.homeByte_complete_cp ha, State.homeByte_homeWrite, bytesOf_length, if_neg (by omega)]
  · rw [State.homeNat_complete_cp ha, State.homeNat_homeWrite, Nat.mod_eq_of_lt hnew]

/-- A word of another package is signalled by a posted access, whose acknowledgement the stream awaits (R326, R503). -/
theorem exec_sigv_away (hlocal : s.isLocal (s.rd64 c b 0).toNat = false) :
    ∃ t x, exec (.sigv k op w64 done b d) s = .next t ∧ t.hwq q = { s.hwq q with wait := .ack } ∧ KeepsBytes s t ∧
      t.posted = s.posted ++ [x] ∧ x.va = (s.rd64 c b 0).toNat ∧
      x.data = bytesOf (4 * regs64 w64) (s.rd c .int (regs64 w64) d 0).toNat ∧ x.op = sigPeer op := by
  obtain ⟨x, hposted, hx⟩ := s.post_posted 0 0 0 0 c.ctx (sigPeer op) (s.rd64 c b 0).toNat
    (bytesOf (4 * regs64 w64) (s.rd c .int (regs64 w64) d 0).toNat) clsDemand (some (8 + q)) none
  refine ⟨_, x, ?_, (State.hwq_setHwq _ q q _).trans (if_pos rfl),
    keepsBytes_trans (State.keepsBytes_post ..) (keepsBytes_of_eq rfl rfl rfl rfl), hposted, hx⟩
  rw [exec_sigv_ready hc ha hp op hz hlive hinval]
  simp only [State.signalWord, hlocal, Bool.false_eq_true, if_false]

end Stream

/-! ### Elsewhere than in a control stream, and under a false guard -/

/-- WAITV and SIGV of a wave are not executable (R120). -/
theorem exec_stream_of_wave (hc : s.cur? = some c) (ha : c.agent = .wave c.bid c.wid) (cmp : WCmp) (op : SigOp) (w64 done : Bool)
    (b d : Opnd) : exec (.waitv k cmp w64 b d) s = .next (s.raise c 0x01 0) ∧
      exec (.sigv k op w64 done b d) s = .next (s.raise c 0x01 0) := by
  constructor
  · change execWaitv k cmp w64 b d s = _
    simp only [execWaitv, onCur_eq hc, ha]
  · change execSigv k op w64 done b d s = _
    simp only [execSigv, onCur_eq hc, ha]

/-- Under a false guard the stream moves to its next slot. -/
theorem exec_stream_guarded (hc : s.cur? = some c) (ha : c.agent = .cp q) (hp : s.parts c k = 0) (cmp : WCmp) (op : SigOp)
    (w64 done : Bool) (b d : Opnd) : ∀ i ∈ [Instr.waitv k cmp w64 b d, .sigv k op w64 done b d],
      exec i s = .next (s.complete c k b d .zero {}) := by
  have hwaitv : exec (.waitv k cmp w64 b d) s = .next (s.complete c k b d .zero {}) := by
    rw [exec_waitv_cp hc ha, if_pos hp]
  have hsigv : exec (.sigv k op w64 done b d) s = .next (s.complete c k b d .zero {}) := by
    rw [exec_sigv_cp hc ha, if_pos hp]
  simpa using And.intro hwaitv hsigv

/-- Settles O45: by the agent and the guard, then by the word's alignment, its owner and its home. -/
theorem controlStreams : Obligations.ControlStreams := by
  unfold Obligations.ControlStreams
  intro s c k q cmp op w64 done b d hc hla
  rw [← four_mul_regs64 w64]
  refine ⟨fun ha => exec_stream_of_wave hc ha cmp op w64 done b d, fun ha hp i hi => ?_, fun ha hp =>
    ⟨fun hz => ⟨exec_waitv_misaligned hc ha hp cmp hz, exec_sigv_misaligned hc ha hp op hz⟩, fun hz hlocal => ⟨fun l hl => ?_, ?_, ?_⟩,
      fun hz hlocal => ⟨?_, fun hlive hinval => ?_⟩⟩⟩
  · exact ⟨_, exec_stream_guarded hc ha hp cmp op w64 done b d i hi, State.hwq_complete_cp hc ha hla rfl b d .zero,
      State.keepsBytes_complete_cp ha s b d .zero {}⟩
  · exact ⟨exec_waitv_poisoned hc ha hp cmp hz hlocal hl, exec_waitv_passes hc ha hp cmp hz hlocal hl,
      fun hwait => ⟨_, exec_waitv_waits hc ha hp cmp hz hlocal hl hwait, rfl, rfl⟩⟩
  · exact exec_sigv_waitsDone hc ha hp op hz
  · exact fun hlive hinval l hl hhome => exec_sigv_writes hc ha hp op hz hlive hinval hla hlocal hl hhome
  · obtain ⟨t, hexec, hq, hkeeps⟩ := exec_waitv_away hc ha hp cmp hz hlocal
    exact ⟨t, _, hexec, hq, rfl, rfl, hkeeps⟩
  · exact exec_sigv_away hc ha hp op hz hlive hinval hlocal

end Sys2Proof.Machine
end

section
/-! SUPPORT. RDLANE and HRND (R146, R437, R488). -/

namespace Sys2Proof.Machine

/-! ### RDLANE -/

section Rdlane

variable {s : State} {c : Cur} (hc : s.cur? = some c) (k : Ctl) (w64 : Bool) (a b d : Opnd)
include hc

/-- RDLANE of a lane that there is gives that lane's register to every participating lane (R488). -/
theorem exec_rdlane_in_range (h : (s.rd32 c d 0).toNat ≤ 31) : exec (.rdlane k w64 a b d) s = .next (s.complete c k b d .zero
    { writes := writesOf a (regs64 w64) (s.parts c k) fun _ => q64 (s.rd c .int (regs64 w64) b (s.rd32 c d 0).toNat) }) :=
  (onCur_eq hc _).trans (congrArg _ (if_neg fun hbad => absurd hbad.2 (by omega)))

/-- RDLANE of a lane past the 31st traps as soon as a lane participates (R488). -/
theorem exec_rdlane_out_of_range (h : 31 < (s.rd32 c d 0).toNat) (hp : s.parts c k ≠ 0) :
    exec (.rdlane k w64 a b d) s = .next (s.raise c 0x02 2) :=
  (onCur_eq hc _).trans (congrArg _ (if_pos ⟨hp, h⟩))

end Rdlane

/-! ### The hash -/

/-- The rounds of R146 over any multiplier m and increment g. An equation of hashRounds itself is beyond the kernel, which unfolds
the product by the 64-bit numeral to check it. -/
def hashRoundsBy (m g : Dword) : Nat → Dword → Dword → Dword
  | 0, x, _ => x
  | n + 1, x, k =>
    let x := x ^^^ k
    let x := x ^^^ (x >>> 32)
    let x := x * m
    let x := x ^^^ (x >>> 29)
    hashRoundsBy m g n x (k + g)

theorem hashRounds_eq_hashRoundsBy : hashRounds = hashRoundsBy 0xD6E8FEB86659FD93#64 0x9E3779B97F4A7C15#64 := by
  delta hashRounds hashRoundsBy
  rfl

/-- One round on the counter and the seed. -/
def hashRoundBy (m g : Dword) (p : Dword × Dword) : Dword × Dword :=
  let x1 := p.1 ^^^ p.2
  let x2 := (x1 ^^^ (x1 >>> 32)) * m
  (x2 ^^^ (x2 >>> 29), p.2 + g)

theorem hashRoundsBy_eq_iterate (m g : Dword) (n : Nat) (x k : Dword) :
    hashRoundsBy m g n x k = ((hashRoundBy m g)^[n] (x, k)).1 := by
  induction n generalizing x k with
  | zero => rfl
  | succ n ih => exact ih _ _

theorem extractLsb'_upper (y : Dword) : y.extractLsb' 32 32 = (y >>> 32).setWidth 32 := BitVec.eq_of_toNat_eq (by simp)

/-- The hash is the upper half of what four rounds leave (R146). -/
theorem hrndHash_eq_iterate (x k : Dword) : hrndHash x k =
    (((hashRoundBy 0xD6E8FEB86659FD93#64 0x9E3779B97F4A7C15#64)^[4] (x, k)).1 >>> 32).setWidth 32 := by
  rw [hrndHash, hashRounds_eq_hashRoundsBy, hashRoundsBy_eq_iterate, extractLsb'_upper]

/-- Settles O7: RDLANE by its index, HRND by the rounds of its hash. -/
theorem laneReadAndHash : Obligations.LaneReadAndHash := by
  unfold Obligations.LaneReadAndHash
  intro s c k w64 useK a b d w hw hc round
  obtain rfl : w = regs64 w64 := hw
  refine ⟨fun h => ⟨_, exec_rdlane_in_range hc k w64 a b d h, ?_⟩, fun h hp => exec_rdlane_out_of_range hc k w64 a b d h hp,
    fun h => ?_⟩
  · exact State.complete_ran hc k b d .zero _ (Result.gives_plain a (regs64 w64) (s.parts c k) _ 0)
  · refine computes_regOp (n := 1) rfl h fun j _ _ => ⟨rfl, ?_⟩
    rw [low32_q32]
    exact hrndHash_eq_iterate _ _

end Sys2Proof.Machine
end

section
/-! SUPPORT. Rounding to a binary format (R144, R145, R152): a value over a power of two, the code that stands for it, and the
neighbour that a mode chooses. -/

namespace Sys2Proof.Machine

/-! ### A magnitude in units of a power of two -/

theorem cast_scaleTo (m : Nat) {e q : Int} (h : q ≤ e) : (scaleTo m e q : ℝ) = m * (2 : ℝ) ^ (e - q) := by
  rw [scaleTo, Nat.cast_mul, Nat.cast_pow, Nat.cast_two, ← zpow_natCast, Int.toNat_of_nonneg (Int.sub_nonneg.mpr h)]

theorem quant_divisor_pos (m : Nat) (e q : Int) : 0 < (quant m e q).2.2 := by
  unfold quant
  split_ifs
  · exact Nat.one_pos
  · exact Nat.two_pow_pos _

theorem quant_rest_lt (m : Nat) (e q : Int) : (quant m e q).2.1 < (quant m e q).2.2 := by
  unfold quant
  split_ifs
  · exact Nat.one_pos
  · exact Nat.mod_lt _ (Nat.two_pow_pos _)

/-- A magnitude is its whole part and the rest over its divisor, in units of 2^q. -/
theorem quant_value (m : Nat) (e q : Int) : (m : ℝ) * 2 ^ e =
    ((quant m e q).1 + (quant m e q).2.1 / (quant m e q).2.2) * 2 ^ q := by
  unfold quant
  split_ifs with h
  · rw [cast_scaleTo m h, Nat.cast_zero, zero_div, add_zero, mul_assoc, ← zpow_add₀ two_ne_zero, sub_add_cancel]
  · set d := 2 ^ (q - e).toNat
    have hd : (d : ℝ) = 2 ^ (q - e) := by
      rw [Nat.cast_pow, Nat.cast_two, ← zpow_natCast, Int.toNat_of_nonneg (by omega)]
    have hd0 : (d : ℝ) ≠ 0 := by rw [hd]; positivity
    have hm : (m : ℝ) = d * (m / d : Nat) + (m % d : Nat) := by exact_mod_cast (Nat.div_add_mod m d).symm
    have he : (2 : ℝ) ^ q = d * 2 ^ e := by rw [hd, ← zpow_add₀ two_ne_zero, sub_add_cancel]
    rw [he]
    field_simp
    rw [hm, mul_comm]

/-- The whole part is below every bound of the magnitude in units. -/
theorem quant_whole_lt {m : Nat} {e q : Int} {b : Nat} (h : (m : ℝ) * 2 ^ e < b * 2 ^ q) : (quant m e q).1 < b := by
  rw [quant_value m e q, mul_lt_mul_iff_left₀ (by positivity)] at h
  have hrest : (0 : ℝ) ≤ (quant m e q).2.1 / (quant m e q).2.2 := by positivity
  exact_mod_cast (le_add_of_nonneg_right hrest).trans_lt h

theorem le_quant_whole {m : Nat} {e q : Int} {b : Nat} (h : (b : ℝ) * 2 ^ q ≤ m * 2 ^ e) : b ≤ (quant m e q).1 := by
  rw [quant_value m e q, mul_le_mul_iff_left₀ (by positivity)] at h
  have hrest : ((quant m e q).2.1 : ℝ) / (quant m e q).2.2 < 1 := by
    rw [div_lt_one (Nat.cast_pos.mpr (quant_divisor_pos m e q))]
    exact Nat.cast_lt.mpr (quant_rest_lt m e q)
  have : (b : ℝ) < (quant m e q).1 + 1 := h.trans_lt (by linarith)
  exact Nat.lt_succ_iff.mp (by exact_mod_cast this)

/-- A magnitude that is whole is kept, and of another the mode chooses the whole part or the next. -/
theorem roundAt_eq (md : Mode) (neg : Bool) (m : Nat) (e q : Int) : roundAt md neg m e q =
    if (quant m e q).2.1 = 0 then ((quant m e q).1, true)
    else ((quant m e q).1 +
      (if md.up neg ((quant m e q).1 % 2 == 1) (quant m e q).2.1 (quant m e q).2.2 = true then 1 else 0), false) := rfl

/-! ### The codes of a format -/

/-- The code of n units of 2^(qmin + k), where n has the format's precision: all of it, or at the quantum of the subnormals no
more than it. -/
theorem magOf_units (f : FF) {k n : Nat} (hlow : 2 ^ f.fbits ≤ n ∨ k = 0) (hn : n ≤ 2 ^ (f.fbits + 1)) :
    magOf f (k * 2 ^ f.fbits + n) = n * (2 : ℝ) ^ (f.qmin + k) := by
  have hp : 0 < 2 ^ f.fbits := Nat.two_pow_pos _
  by_cases hsub : n < 2 ^ f.fbits
  · obtain rfl : k = 0 := hlow.resolve_left (by omega)
    simp [magOf, hsub]
  · obtain ⟨r, rfl⟩ := Nat.exists_eq_add_of_le (Nat.le_of_not_lt hsub)
    have hge : ¬ k * 2 ^ f.fbits + (2 ^ f.fbits + r) < 2 ^ f.fbits := by omega
    rw [magOf, if_neg hge, ← Nat.add_assoc, ← Nat.succ_mul, Nat.add_comm (k.succ * _), Nat.add_mul_mod_self_right,
      Nat.add_mul_div_right _ _ hp]
    by_cases htop : r < 2 ^ f.fbits
    · rw [Nat.mod_eq_of_lt htop, Nat.div_eq_of_lt htop]
      push_cast
      congr 2
      ring
    · obtain rfl : r = 2 ^ f.fbits := by omega
      rw [Nat.mod_self, Nat.div_self hp, show f.qmin + ((1 + k.succ : Nat) : Int) - 1 = f.qmin + k + 1 by push_cast; ring,
        zpow_add_one₀ two_ne_zero]
      push_cast
      ring

/-- Round to nearest goes up past the midpoint, and at it from an odd code. -/
theorem Mode.up_rn_iff (neg : Bool) (n r d : Nat) :
    Mode.rn.up neg (n % 2 == 1) r d = true ↔ d < 2 * r ∨ d = 2 * r ∧ n % 2 = 1 := by
  simp only [Mode.up, Bool.or_eq_true, Bool.and_eq_true, decide_eq_true_eq, beq_iff_eq]
  omega

section Neighbours

variable (f : FF) {k n r d : Nat} (hf : f.fbits ≠ 0) (hlow : 2 ^ f.fbits ≤ n ∨ k = 0) (hn : n < 2 ^ (f.fbits + 1)) (hr : r ≠ 0)
  (hrd : r < d)
include hlow hn hr hrd

omit hr hrd in
/-- A whole number of units and the next are the values of a code and the next. -/
theorem magOf_pair : magOf f (k * 2 ^ f.fbits + n) = n * (2 : ℝ) ^ (f.qmin + k) ∧
    magOf f (k * 2 ^ f.fbits + n + 1) = (n + 1) * (2 : ℝ) ^ (f.qmin + k) := by
  refine ⟨magOf_units f hlow hn.le, ?_⟩
  rw [Nat.add_assoc, magOf_units f (hlow.imp_left fun h => h.trans (Nat.le_succ n)) hn, Nat.cast_succ]

/-- A value between two units lies between the two codes. -/
theorem magOf_neighbours : magOf f (k * 2 ^ f.fbits + n) < (n + (r : ℝ) / d) * 2 ^ (f.qmin + k) ∧
    (n + (r : ℝ) / d) * 2 ^ (f.qmin + k) < magOf f (k * 2 ^ f.fbits + n + 1) := by
  have hd : (0 : ℝ) < d := by exact_mod_cast hrd.pos
  have hlo : (0 : ℝ) < r / d := div_pos (by exact_mod_cast Nat.pos_of_ne_zero hr) hd
  have hhi : (r : ℝ) / d < 1 := (div_lt_one hd).mpr (by exact_mod_cast hrd)
  obtain ⟨hcode, hnext⟩ := magOf_pair f hlow hn
  rw [hcode, hnext]
  exact ⟨by gcongr; linarith, by gcongr⟩

omit hr in
/-- Where a value stands to the midpoint of its neighbours. -/
theorem magOf_midpoint :
    let lo := k * 2 ^ f.fbits + n
    let x := (n + (r : ℝ) / d) * 2 ^ (f.qmin + k)
    (magOf f lo + magOf f (lo + 1) < 2 * x ↔ d < 2 * r) ∧ (magOf f lo + magOf f (lo + 1) = 2 * x ↔ d = 2 * r) ∧
      (2 * x < magOf f lo + magOf f (lo + 1) ↔ 2 * r < d) := by
  intro lo x
  have hd : (0 : ℝ) < d := by exact_mod_cast hrd.pos
  have hscale : 0 < (2 : ℝ) ^ (f.qmin + k) / d := by positivity
  have hsum : magOf f lo + magOf f (lo + 1) = (2 * n * d + d) * (2 ^ (f.qmin + k) / d) := by
    obtain ⟨hcode, hnext⟩ := magOf_pair f hlow hn
    rw [hcode, hnext]
    field_simp
    ring
  have hx : 2 * x = (2 * n * d + 2 * r) * (2 ^ (f.qmin + k) / d) := by
    simp only [x]
    field_simp
  rw [hsum, hx, mul_lt_mul_iff_left₀ hscale, mul_left_inj' hscale.ne', mul_lt_mul_iff_left₀ hscale]
  norm_cast
  exact ⟨by omega, by omega, by omega⟩

include hf in
/-- Of the neighbours of a value that is no code, the mode chooses the one that R144 names. -/
theorem isRound_up (md : Rnd4) (neg : Bool) :
    IsRound f md neg ((n + (r : ℝ) / d) * 2 ^ (f.qmin + k))
      (k * 2 ^ f.fbits + n + if (rndMode4 md).up neg (n % 2 == 1) r d = true then 1 else 0) := by
  obtain ⟨hlt, hgt⟩ := magOf_neighbours f hlow hn hr hrd
  obtain ⟨hbelow, hmid, habove⟩ := magOf_midpoint f hlow hn hrd
  set lo := k * 2 ^ f.fbits + n
  have hodd : lo % 2 = n % 2 := by
    have : 2 ∣ k * 2 ^ f.fbits := (dvd_pow_self 2 hf).mul_left k
    omega
  refine .inr ⟨lo, hlt, hgt, ?_⟩
  rw [hbelow, hmid, habove, hodd]
  cases hup : (rndMode4 md).up neg (n % 2 == 1) r d
  · refine .inr ⟨rfl, ?_⟩
    cases md with
    | rn =>
      have hrn : ¬ (d < 2 * r ∨ d = 2 * r ∧ n % 2 = 1) := (Mode.up_rn_iff neg n r d).not.mp (Bool.not_eq_true _ ▸ hup)
      show 2 * r < d ∨ d = 2 * r ∧ n % 2 = 0
      omega
    | rz => trivial
    | rd => exact hup
    | ru => exact (Bool.not_eq_false' neg).mp hup
  · refine .inl ⟨rfl, ?_⟩
    cases md with
    | rn => exact (Mode.up_rn_iff neg n r d).mp hup
    | rz => exact Bool.false_ne_true hup
    | rd => exact hup
    | ru => exact (Bool.not_eq_true' neg).mp hup

end Neighbours

/-! ### Rounding to a format -/

/-- The exponent of the unit that a magnitude is rounded to: that of its leading bit less the fraction's width, and no less than
the quantum of the subnormals. -/
def FF.unit (f : FF) (m : Nat) (e : Int) : Int := max (e + m.log2 - f.fbits) f.qmin

/-- The whole part in that unit has the format's precision. -/
theorem FF.whole_bounds (f : FF) {m : Nat} (hm : m ≠ 0) (e : Int) :
    (2 ^ f.fbits ≤ (quant m e (f.unit m e)).1 ∨ (f.unit m e - f.qmin).toNat = 0) ∧
      (quant m e (f.unit m e)).1 < 2 ^ (f.fbits + 1) := by
  constructor
  · by_cases hq : f.unit m e = e + m.log2 - f.fbits
    · refine .inl (le_quant_whole ?_)
      have hlog : (2 : ℝ) ^ m.log2 ≤ m := by exact_mod_cast Nat.log2_self_le hm
      rw [hq, Nat.cast_pow, Nat.cast_two, ← zpow_natCast, ← zpow_add₀ two_ne_zero,
        show (f.fbits : Int) + (e + m.log2 - f.fbits) = m.log2 + e by ring, zpow_add₀ two_ne_zero, zpow_natCast]
      gcongr
    · have : f.unit m e = f.qmin := (max_choice _ _).resolve_left hq
      exact .inr (by omega)
  · apply quant_whole_lt
    have hlog : (m : ℝ) < 2 ^ (m.log2 + 1) := by exact_mod_cast Nat.lt_log2_self
    calc (m : ℝ) * 2 ^ e < 2 ^ (m.log2 + 1) * 2 ^ e := by gcongr
      _ = 2 ^ (f.fbits + 1 : Int) * 2 ^ (e + m.log2 - f.fbits) := by
        rw [← zpow_natCast, ← zpow_add₀ two_ne_zero, ← zpow_add₀ two_ne_zero]
        congr 1
        push_cast
        ring
      _ ≤ ((2 ^ (f.fbits + 1) : Nat) : ℝ) * 2 ^ f.unit m e := by
        rw [Nat.cast_pow, Nat.cast_two, ← zpow_natCast, Nat.cast_succ]
        gcongr
        · exact one_le_two
        · exact le_max_left ..

/-- A rounded magnitude: n units and r/d of the next, kept if r is 0 and else rounded as the mode chooses. -/
theorem FF.round_spec (f : FF) (md : Mode) (neg : Bool) {m : Nat} (hm : m ≠ 0) (e : Int) : ∃ k n r d : Nat,
    (m : ℝ) * 2 ^ e = (n + (r : ℝ) / d) * 2 ^ (f.qmin + k) ∧ (2 ^ f.fbits ≤ n ∨ k = 0) ∧ n < 2 ^ (f.fbits + 1) ∧ r < d ∧
      (r = 0 → (f.round md neg m e).code = k * 2 ^ f.fbits + n ∧ (f.round md neg m e).exact = true) ∧
      (r ≠ 0 → (f.round md neg m e).code = k * 2 ^ f.fbits + n + (if md.up neg (n % 2 == 1) r d = true then 1 else 0) ∧
        (f.round md neg m e).exact = false) := by
  obtain ⟨hlow, hhigh⟩ := f.whole_bounds hm e
  have hunit : f.qmin + (f.unit m e - f.qmin).toNat = f.unit m e := by
    have : f.qmin ≤ f.unit m e := le_max_right ..
    omega
  have hcode : (f.round md neg m e).code = (f.unit m e - f.qmin).toNat * 2 ^ f.fbits + (roundAt md neg m e (f.unit m e)).1 := rfl
  have hexact : (f.round md neg m e).exact = (roundAt md neg m e (f.unit m e)).2 := rfl
  refine ⟨_, _, _, _, ?_, hlow, hhigh, quant_rest_lt m e (f.unit m e), fun hr => ?_, fun hr => ?_⟩
  · rw [hunit]
    exact quant_value m e _
  · rw [hcode, hexact, roundAt_eq, if_pos hr]
    exact ⟨rfl, rfl⟩
  · rw [hcode, hexact, roundAt_eq, if_neg hr]
    exact ⟨(Nat.add_assoc ..).symm, rfl⟩

/-- The code of a rounded magnitude is its rounding, and it is exact just when the code stands for the magnitude (R144). -/
theorem FF.round_isRound (f : FF) (hf : f.fbits ≠ 0) (md : Rnd4) (neg : Bool) {m : Nat} (hm : m ≠ 0) (e : Int) :
    IsRound f md neg (m * 2 ^ e) (f.round (rndMode4 md) neg m e).code ∧
      ((f.round (rndMode4 md) neg m e).exact = false ↔ magOf f (f.round (rndMode4 md) neg m e).code ≠ m * 2 ^ e) := by
  obtain ⟨k, n, r, d, hx, hlow, hn, hrd, hzero, hrest⟩ := f.round_spec (rndMode4 md) neg hm e
  rw [hx]
  by_cases hr : r = 0
  · obtain ⟨hcode, hexact⟩ := hzero hr
    have hval : magOf f (k * 2 ^ f.fbits + n) = (n + (r : ℝ) / d) * 2 ^ (f.qmin + k) := by
      rw [magOf_units f hlow hn.le, hr, Nat.cast_zero, zero_div, add_zero]
    rw [hcode, hexact]
    exact ⟨.inl hval, iff_of_false nofun (not_not.mpr hval)⟩
  · obtain ⟨hcode, hexact⟩ := hrest hr
    obtain ⟨hlt, hgt⟩ := magOf_neighbours f hlow hn hr hrd
    rw [hcode, hexact]
    refine ⟨isRound_up f hf hlow hn hr hrd md neg, iff_of_true rfl ?_⟩
    split
    · exact hgt.ne'
    · exact hlt.ne

/-! ### Delivery -/

theorem FF.deliver_num (f : FF) (md : Mode) (sat neg : Bool) {m : Nat} (hm : m ≠ 0) (e : Int) :
    f.deliver md sat (.num neg m e) = (if (f.round md neg m e).overflow then
        (if sat then f.sign neg + f.maxCode else f.overflowed md neg) else f.sign neg + (f.round md neg m e).code,
      (f.round md neg m e).flags) := if_neg hm

/-- The overflow flag tells an overflow (R145, R152). -/
theorem Rounded.flags_overflow (r : Rounded) : r.flags.getLsbD 2 = r.overflow := by
  rw [Rounded.flags]
  cases r.overflow <;> cases r.exact <;> cases r.tiny <;> decide

/-- Without an overflow the inexact flag tells an inexact rounding (R152). -/
theorem Rounded.flags_inexact {r : Rounded} (h : r.overflow = false) : r.flags.getLsbD 4 = !r.exact := by
  rw [Rounded.flags, h]
  cases r.exact <;> cases r.tiny <;> decide

theorem FF.sign_split (f : FF) (neg : Bool) {code : Nat} (h : code < 2 ^ f.mbits) :
    (f.sign neg + code) % 2 ^ f.mbits = code ∧ (f.sign neg + code) / 2 ^ f.mbits = if neg then 1 else 0 := by
  cases neg
  · simp [FF.sign, Nat.mod_eq_of_lt h, Nat.div_eq_of_lt h]
  · simp [FF.sign, Nat.mod_eq_of_lt h, Nat.div_eq_of_lt h]

/-- A format of class 0x3 has a fraction, and its codes leave room for the sign. -/
theorem ffOf_bounds (fmt : FFmt) : (ffOf fmt).fbits ≠ 0 ∧ (ffOf fmt).maxCode < 2 ^ (ffOf fmt).mbits := by
  cases fmt <;> decide

/-- Settles O13: without the overflow flag the delivered code is that of FF.round, which rounds as IsRound says. -/
theorem roundingIsExact : Obligations.RoundingIsExact := by
  unfold Obligations.RoundingIsExact
  intro fmt md neg m e hm f x r hno
  obtain ⟨hfrac, hmax⟩ := ffOf_bounds fmt
  have hr : r = _ := f.deliver_num (rndMode4 md) false neg hm e
  have hover : (f.round (rndMode4 md) neg m e).overflow = false := by
    rw [← Rounded.flags_overflow, ← hno, hr]
  have hfits : (f.round (rndMode4 md) neg m e).code < 2 ^ f.mbits :=
    (Nat.le_of_not_lt (of_decide_eq_false hover)).trans_lt hmax
  obtain ⟨hround, hexact⟩ := f.round_isRound hfrac md neg hm e
  obtain ⟨hmod, hdiv⟩ := f.sign_split neg hfits
  have hcode : r.1 = f.sign neg + (f.round (rndMode4 md) neg m e).code := by
    rw [hr, hover]
    rfl
  rw [hcode, hmod, hdiv, hr, Rounded.flags_inexact hover, Bool.not_eq_true', hexact]
  exact ⟨hround, rfl, Iff.rfl⟩

end Sys2Proof.Machine
end

section
/-! SUPPORT. Conversions between element formats (R148 to R151, R419, R420). -/

namespace Sys2Proof.Machine

/-! ### Values by their kind -/

theorem Val.exists_nan {v : Val} (h : v.isNan = true) : ∃ sig, v = .nan sig := by
  cases v with
  | nan sig => exact ⟨sig, rfl⟩
  | _ => exact absurd h Bool.false_ne_true

theorem Val.exists_num {v : Val} (h : Finite v) : ∃ neg m e, v = .num neg m e := by
  cases v with
  | num neg m e => exact ⟨neg, m, e, rfl⟩
  | _ => exact h.elim

/-- An integer is its own rounding to an integer, in every mode (R150). -/
theorem roundInt_ofInt (md : Mode) (z : Int) : roundInt md (decide (z < 0)) z.natAbs 0 = (z, true) := by
  have hround : roundAt md (decide (z < 0)) z.natAbs 0 0 = (z.natAbs, true) := by
    simp [roundAt, quant, scaleTo]
  rw [roundInt, hround]
  by_cases h : z < 0
  · simp only [h, decide_true, if_true, Prod.mk.injEq, and_true]
    omega
  · simp only [h, decide_false, Bool.false_eq_true, if_false, Prod.mk.injEq, and_true]
    omega

theorem clamp_eq_self_iff {lo hi : Int} (h : lo ≤ hi) (z : Int) : max lo (min hi z) = z ↔ lo ≤ z ∧ z ≤ hi := by omega

/-! ### Integer and offset-binary destinations (R150) -/

theorem intRange_le (w : Nat) (sg : Bool) : (intRange w sg).1 ≤ (intRange w sg).2 := by
  have h (n : Nat) : (1 : Int) ≤ (2 ^ n : Nat) := by exact_mod_cast Nat.one_le_two_pow
  have h1 := h w
  have h2 := h (w - 1)
  unfold intRange
  split_ifs
  · show -((2 ^ (w - 1) : Nat) : Int) ≤ (2 ^ (w - 1) : Nat) - 1
    omega
  · show 0 ≤ ((2 ^ w : Nat) : Int) - 1
    omega

theorem toIntFmt_ofInt (w : Nat) (sg : Bool) (md : Mode) (z : Int) : toIntFmt w sg md (Val.ofInt z) =
    (max (intRange w sg).1 (min (intRange w sg).2 z), if (intRange w sg).1 ≤ z ∧ z ≤ (intRange w sg).2 then 0 else fInvalid) := by
  simp only [Val.ofInt, toIntFmt, roundInt_ofInt, clampInt_eq _ _ _ (intRange_le w sg), clamp_eq_self_iff (intRange_le w sg)]
  rfl

theorem toOb_ofInt (w u : Nat) (md : Mode) (z : Int) : toOb w u md (Val.ofInt z) =
    ((max 0 (min (2 ^ w - 1) (z + u))).toNat,
      if 0 ≤ z + u ∧ z + u ≤ 2 ^ w - 1 then 0 else fOverflow ||| fInexact) := by
  have hle : (0 : Int) ≤ ((2 ^ w : Nat) : Int) - 1 := by
    have : (1 : Int) ≤ (2 ^ w : Nat) := by exact_mod_cast Nat.one_le_two_pow
    omega
  simp only [Val.ofInt, toOb, roundInt_ofInt, clampInt_eq _ _ _ hle, clamp_eq_self_iff hle]
  push_cast
  rfl

/-! ### The formats by their class -/

theorem fmtDeliver_binary {dst : Fmt} {f : FF} (h : binaryOf dst = some f) (z : Nat) (md : Mode) (sat : Bool) (v : Val) :
    fmtDeliver dst z md sat v = f.deliver md sat v := by
  cases dst <;> cases h <;> rfl

theorem fmtDeliver_integer {dst : Fmt} {w : Nat} {sg : Bool} (h : integerOf dst = some (w, sg)) (z : Nat) (md : Mode) (sat : Bool)
    (v : Val) : fmtDeliver dst z md sat v = (intBits (toIntFmt w sg md v).1, (toIntFmt w sg md v).2) := by
  cases dst <;> cases h <;> rfl

theorem fmtDeliver_ob {dst : Fmt} {w : Nat} (h : (dst = .ob8 ∧ w = 8) ∨ (dst = .ob4 ∧ w = 4)) (z : Nat) (md : Mode) (sat : Bool)
    (v : Val) : fmtDeliver dst z md sat v = toOb w (z % 2 ^ w) md v := by
  obtain ⟨rfl, rfl⟩ | ⟨rfl, rfl⟩ := h <;> rfl

theorem low64_intBits (i : Int) : low64 (BitVec.ofNat 128 (intBits i)) = BitVec.ofInt 64 i := by
  rw [low64, intBits, BitVec.ofNat_toNat, BitVec.setWidth_setWidth_of_le _ (by decide), BitVec.setWidth_eq]

theorem rndMode_of_rndMode4 {md : Rnd} {m4 : Rnd4} (h : rndMode 0 md = rndMode4 m4) (x : Nat) : rndMode x md = rndMode4 m4 := by
  cases md with
  | rs => cases m4 <;> cases h
  | _ => exact h

/-- CVT and CVTS deliver alike what does not overflow (R148). -/
theorem FF.deliver_sat (f : FF) (md : Mode) (sat : Bool) {v : Val} (hv : Finite v)
    (h : (f.deliver md false v).2.getLsbD 2 = false) : f.deliver md sat v = f.deliver md false v := by
  obtain ⟨neg, m, e, rfl⟩ := Val.exists_num hv
  by_cases hm : m = 0
  · subst hm
    rfl
  · rw [f.deliver_num md _ neg hm] at h ⊢
    rw [f.deliver_num md _ neg hm, ← Rounded.flags_overflow, h]
    rfl

/-- Settles O16: by the class of the destination, and in it by the kind of the value. -/
theorem conversions : Obligations.Conversions := by
  unfold Obligations.Conversions
  intro s c k dst src md a b d e h v any
  have hany (sat : Bool) (j : Nat) (x : Nat) :
      any sat j (codeOut (fmtDeliver dst ((s.rd c .int 1 d j).toNat / 256) (rndMode x md) sat (v j))).1
        (codeOut (fmtDeliver dst ((s.rd c .int 1 d j).toNat / 256) (rndMode x md) sat (v j))).2 := by
    refine ⟨fun f hf => ?_, fun w hw => ?_, fun hlns => ?_, fun w sg hint => ?_⟩
    · rw [fmtDeliver_binary hf]
      refine ⟨fun hnan => ?_, fun n hinf => ?_, fun n q hzero => ?_, fun m4 hmode hfin hfits => ?_⟩
      · obtain ⟨sig, hsig⟩ := Val.exists_nan hnan
        rw [hsig]
        exact ⟨rfl, rfl⟩
      · rw [hinf]
        simp only [codeOut, FF.deliver]
        split_ifs <;> exact ⟨rfl, rfl⟩
      · rw [hzero]
        exact ⟨rfl, rfl⟩
      · rw [rndMode_of_rndMode4 hmode x, f.deliver_sat _ sat hfin hfits]
        exact ⟨rfl, rfl⟩
    · rw [fmtDeliver_ob hw]
      intro u
      refine ⟨fun hnan => ?_, fun z hz => ?_⟩
      · obtain ⟨sig, hsig⟩ := Val.exists_nan hnan
        rw [hsig]
        exact ⟨(BitVec.ofInt_natCast ..).symm, rfl⟩
      · rw [hz, toOb_ofInt]
        refine ⟨?_, rfl⟩
        rw [codeOut, ← BitVec.ofInt_natCast, Int.toNat_of_nonneg (le_max_left ..)]
    · subst hlns
      refine ⟨fun hnan => ?_, fun n q hzero => ?_⟩
      · obtain ⟨sig, hsig⟩ := Val.exists_nan hnan
        rw [hsig]
        exact ⟨rfl, rfl⟩
      · rw [hzero]
        exact ⟨rfl, rfl⟩
    · rw [fmtDeliver_integer hint, codeOut, low64_intBits]
      refine ⟨fun hnan => ?_, fun n hinf => ?_, fun z hz => ?_⟩
      · obtain ⟨sig, hsig⟩ := Val.exists_nan hnan
        rw [hsig]
        exact ⟨rfl, rfl⟩
      · rw [hinf]
        exact ⟨rfl, rfl⟩
      · rw [hz, toIntFmt_ofInt]
        exact ⟨rfl, rfl⟩
  exact ⟨computes_regOp rfl h fun j _ _ => hany false j _, computes_regOp rfl h fun j _ _ => hany true j _⟩

end Sys2Proof.Machine
end

section
/-! SUPPORT. The state after reset, where the spec gives it (R169, R172, R173, R186, R319, R394). -/

namespace Sys2Proof.Machine

theorem lget_copies_self {α : Type} (x : α) (n m : Nat) : lget x (copies x n) m = x := by
  induction n generalizing m with
  | zero => rfl
  | succ n ih =>
    cases m with
    | zero => rfl
    | succ m => exact ih m

theorem State.die_reset (d : Nat) : State.reset.die d = Die.reset := lget_copies_self Die.reset 8 d

/-- A context whose root is not enabled translates nothing (R231). -/
theorem State.translate_of_disabled {s : State} {ctx : Nat} (h : (s.ctx ctx).trnRoot.toNat.testBit 0 = false) (va : Nat) (need : Perm) :
    s.translate ctx va need = .error ⟨0, 2⟩ := by
  simp only [State.translate, h, Bool.false_eq_true, if_false]

/-- Settles O48: every table is empty at reset, so that its parts are the defaults of their kinds. -/
theorem resetState : Obligations.ResetState := by
  unfold Obligations.ResetState
  refine ⟨fun _ => ⟨rfl, rfl, rfl, fun _ => rfl⟩, fun _ => rfl, fun _ => ⟨rfl, rfl, rfl⟩, fun d _ => ?_,
    fun _ => ⟨rfl, rfl, rfl⟩, rfl, rfl, rfl, rfl, rfl, fun c va p => ⟨rfl, State.translate_of_disabled ?_ va p⟩, rfl,
    step_of_idle rfl⟩
  · rw [State.die_reset]
    exact ⟨rfl, rfl, rfl, rfl⟩
  · exact Nat.zero_testBit 0

end Sys2Proof.Machine
end

section
/-! SUPPORT. Token reads, power intents and reuse hints (R161, R175, R191, R195, R480, R495). -/

namespace Sys2Proof.Machine

/-! ### TKRD (R175) -/

/-- A price that names a cell of the table, and one that names none (R161, R175). -/
theorem State.priceOf_eq (s : State) (core : Nat) (y : Word) : s.priceOf core y =
    if y.toNat < 256 ∧ y.toNat % 16 ≤ 11 then
      BitVec.ofNat 32 (priceAt s.tok.opPrice (s.die (dieOf core)).op (lget 0 s.tok.price (16 * (y.toNat % 16) + y.toNat / 16)))
    else 0xFFFFFFFF := by
  have hneg : (256 ≤ y.toNat ∨ 11 < y.toNat % 16) ↔ ¬ (y.toNat < 256 ∧ y.toNat % 16 ≤ 11) := by omega
  simp only [State.priceOf, hneg, ite_not]
  rfl

/-! ### PINT (R195, R480) -/

theorem foldl_max_le_iff (l : List Nat) (a b : Nat) : l.foldl max a ≤ b ↔ a ≤ b ∧ ∀ x ∈ l, x ≤ b := by
  induction l generalizing a with
  | nil => simp
  | cons y l ih => rw [List.foldl_cons, ih, max_le_iff, List.forall_mem_cons, and_assoc]

/-- The largest rise of some lanes, of at most 1023. -/
theorem min_foldl_max_lanesOf {p : LaneSet} {f : Nat → Nat} {m rise : Nat}
    (hle : ∀ j < 32, p.getLsbD j = true → min m (f j) ≤ rise) (hmem : ∃ j < 32, p.getLsbD j = true ∧ min m (f j) = rise) :
    min m (((lanesOf p).map f).foldl max 0) = rise := by
  obtain ⟨j, hj, hp, hrise⟩ := hmem
  have hall (b : Nat) : ((lanesOf p).map f).foldl max 0 ≤ b ↔ ∀ j < 32, p.getLsbD j = true → f j ≤ b := by
    simp only [foldl_max_le_iff, Nat.zero_le, true_and, List.forall_mem_map, mem_lanesOf, and_imp]
  have hge : f j ≤ ((lanesOf p).map f).foldl max 0 := (hall _).mp le_rfl j hj hp
  refine le_antisymm ?_ (hrise ▸ min_le_min_left m hge)
  by_cases hm : m ≤ rise
  · exact (min_le_left ..).trans hm
  · refine (min_le_right ..).trans ((hall rise).mpr fun n hn hpn => ?_)
    have := hle n hn hpn
    omega

/-- Posting an intent changes the governor's intents and the messages out. -/
theorem State.postIntent_frame (s : State) (rise t : Nat) : (s.postIntent rise t).1 =
    { s with gov := { s.gov with held := (s.postIntent rise t).1.gov.held }, out := (s.postIntent rise t).1.out } := by
  unfold State.postIntent
  split_ifs <;> rfl

/-- A rise of zero posts nothing (R480). -/
theorem State.postIntent_zero (s : State) (t : Nat) : s.postIntent 0 t = (s, 3) := by
  rw [State.postIntent, if_pos rfl]

/-- An intent for an interval that has one already raises it. -/
theorem State.postIntent_held {s : State} {rise t : Nat} (hrise : rise ≠ 0) (hheld : ∃ x ∈ s.gov.held, x.t = t) :
    s.postIntent rise t = ({ s with gov := { s.gov with
      held := s.gov.held.map fun x => if x.t = t then { x with rise := max x.rise rise } else x } }, 1) := by
  have hany : (s.gov.held.any fun x => x.t == t) = true := by simpa using hheld
  simp only [State.postIntent, if_neg hrise, hany, if_true]

/-- The intent that a package posts. -/
def State.newIntent (s : State) (rise t : Nat) : Intent :=
  { job := ecJob s.gov.ecolo, rank := ecRank s.gov.ecolo, rise, t, admitted := false, deferred := false }

/-- A new intent is kept; it is sent where Ecolo is in force (R195, R197). -/
theorem State.postIntent_new {s : State} {rise t : Nat} (hrise : rise ≠ 0) (hheld : ∀ x ∈ s.gov.held, x.t ≠ t) :
    let s1 := { s with gov := { s.gov with held := s.gov.held ++ [s.newIntent rise t] } }
    s.postIntent rise t = if s.ecoloOn then
      (s1.send (.intent s.ecoGroup (ecJob s.gov.ecolo) (ecRank s.gov.ecolo) rise t), 0) else (s1, 2) := by
  have hany : (s.gov.held.any fun x => x.t == t) = false := by simpa using hheld
  simp only [State.postIntent, if_neg hrise, hany, Bool.false_eq_true, if_false]
  rfl

section Pint

variable {s : State} {c : Cur} {k : Ctl} {b : Opnd} (hc : s.cur? = some c) (htrap : s.paramTrap c (s.parts c k) 1 [b] = none)
include hc htrap

theorem exec_pint_of_none (hp : s.parts c k = 0) (n : BitVec 4) (a : Opnd) :
    exec (.pint k n a b) s = .next (s.complete c k b .zero .zero {}) := by
  refine (onCur_eq hc _).trans (congrArg _ ?_)
  simp only [htrap, if_pos hp]

theorem exec_pint (hp : s.parts c k ≠ 0) {rise : Nat}
    (hrise : min 1023 (((lanesOf (s.parts c k)).map fun i => (s.rd32 c b i).toNat).foldl max 0) = rise) (n : BitVec 4) (a : Opnd) :
    let posted := s.postIntent rise ((s.clk.toNat / 12500 + n.toNat) % 65536)
    exec (.pint k n a b) s = .next (posted.1.complete c k b .zero .zero
      { writes := writesOf a 1 (s.parts c k) fun _ => BitVec.ofNat 128 posted.2, flags := s.paramFlags c (s.parts c k) 1 [b] }) := by
  refine (onCur_eq hc _).trans (congrArg _ ?_)
  simp only [htrap, hp, if_false, hrise]
  rfl

end Pint

/-! ### RHINT (R191, R495) -/

/-- A lane's hint changes the queues of hints alone. -/
theorem State.hintLane_frame (s : State) (c : Cur) (va n : Nat) : s.hintLane c va n = { s with dies := (s.hintLane c va n).dies } := by
  unfold State.hintLane
  extract_lets
  split <;> rfl

/-- The entry of a lane's range: its resident lines of this package (R191). -/
def State.hintEntry (s : State) (c : Cur) (line n : Nat) : HintEntry :=
  { line := line / 128, count := n, interval := s.clk.toNat / 12500
    lines := (List.range n).filterMap fun j => match s.translate c.ctx (line + 128 * j) .read with
      | .ok l => if s.isLocal (line + 128 * j) then some (l.sa / 128) else none
      | .error _ => none }

theorem State.hintLane_eq {s : State} {c : Cur} {va n line : Nat} (hline : line = va % 2 ^ 57 / 128 * 128) (hn : n ≠ 0)
    (hlow : line / 2 ^ 30 ≠ (s.ctx c.ctx).aper.toNat % 2 ^ 27) (hhigh : line / 2 ^ 30 ≠ (s.ctx c.ctx).aper.toNat / 2 ^ 34 % 2 ^ 27)
    (hlocal : s.isLocal line = true) :
    let d := s.die (dieOf c.core)
    s.hintLane c va n = s.setDie (dieOf c.core) { d with hints :=
      (if d.hints.length < 64 then d.hints else d.hints.drop 1) ++ [s.hintEntry c line (min n 64)] } := by
  have hlow' : (line / 2 ^ 30 == bits (s.ctx c.ctx).aper.toNat 0 27) = false := by simpa [bits_eq] using hlow
  have hhigh' : (line / 2 ^ 30 == bits (s.ctx c.ctx).aper.toNat 34 27) = false := beq_false_of_ne hhigh
  simp only [State.hintLane, ← hline, hn, hlow', hhigh', hlocal, Bool.or_self, Bool.false_eq_true, Bool.not_true, or_self, if_false,
    upFrom_zero_eq_range]
  rfl

/-- The state once the lanes' hints have entered their die's queue. -/
def State.hinted (s : State) (c : Cur) (k : Ctl) (b d : Opnd) : State :=
  (lanesOf (s.parts c k)).foldl (fun s i => s.hintLane c (s.rd64 c b i).toNat (s.rd32 c d i).toNat) s

theorem State.hinted_frame (s : State) (c : Cur) (k : Ctl) (b d : Opnd) : s.hinted c k b d = { s with dies := (s.hinted c k b d).dies } := by
  have hfold (l : List Nat) (s : State) : l.foldl (fun s i => s.hintLane c (s.rd64 c b i).toNat (s.rd32 c d i).toNat) s =
      { s with dies := (l.foldl (fun s i => s.hintLane c (s.rd64 c b i).toNat (s.rd32 c d i).toNat) s).dies } := by
    induction l generalizing s with
    | nil => rfl
    | cons i l ih =>
      rw [List.foldl_cons, ih, s.hintLane_frame]
  exact hfold _ s

theorem exec_rhint {s : State} {c : Cur} (hc : s.cur? = some c) (k : Ctl) (b d : Opnd) :
    exec (.rhint k b d) s = .next ((s.hinted c k b d).complete c k b d .zero {}) := onCur_eq hc _

/-- A wave that hints moves on; no register and no byte of memory changes. -/
theorem rhint_went {s : State} {c : Cur} {k : Ctl} {blk : Block} (hof : OfWave s c blk) (hla : k.la = 0) (b d : Opnd) :
    ∃ t, exec (.rhint k b d) s = .next t ∧ Went t c c.active ∧ KeepsBytes s t := by
  have hw := wave_of_ofWave hof
  obtain ⟨hc, hagent, hb⟩ := hof
  have hframe := s.hinted_frame c k b d
  have hblock : (s.hinted c k b d).block? c.bid = some blk := by rw [hframe]; exact hb
  obtain ⟨w, hset, hran⟩ := State.complete_wave hagent (s.hinted c k b d) k b d .zero {} (Result.gives_none 0 (fun _ => 0) 0)
  refine ⟨_, exec_rhint hc k b d, ⟨w, ?_, keepsRegs_of_wrote_nothing (hran.now hla).1, hran.moved.pc⟩, ?_⟩
  · rw [hset, State.wave_setWave hblock hw]
  · rw [hset]
    refine keepsBytes_trans (keepsBytes_of_eq ?_ ?_ ?_ ?_) (keepsBytes_setWave _ _ _ w) <;> rw [hframe]

/-- The hint of one lane whose range lies in this package, outside the apertures. -/
theorem rhint_hints {s : State} {c : Cur} {k : Ctl} {blk : Block} {i : Nat} (hof : OfWave s c blk)
    (hone : s.parts c k = BitVec.ofNat 32 (2 ^ i)) (hi : i < 32) (hdie : dieOf c.core < s.dies.length) (b d : Opnd) {line : Nat}
    (hline : line = (s.rd64 c b i).toNat % 2 ^ 57 / 128 * 128) (hn : (s.rd32 c d i).toNat ≠ 0)
    (hlow : line / 2 ^ 30 ≠ (s.ctx c.ctx).aper.toNat % 2 ^ 27) (hhigh : line / 2 ^ 30 ≠ (s.ctx c.ctx).aper.toNat / 2 ^ 34 % 2 ^ 27)
    (hlocal : s.isLocal line = true) :
    ∃ t, exec (.rhint k b d) s = .next t ∧ (t.die (dieOf c.core)).hints =
      (if (s.die (dieOf c.core)).hints.length < 64 then (s.die (dieOf c.core)).hints else (s.die (dieOf c.core)).hints.drop 1) ++
        [s.hintEntry c line (min (s.rd32 c d i).toNat 64)] := by
  obtain ⟨hc, hagent, -⟩ := hof
  refine ⟨_, exec_rhint hc k b d, ?_⟩
  have hlanes : lanesOf (s.parts c k) = [i] := by rw [hone, lanesOf_single hi]
  obtain ⟨w, hset, -⟩ := State.complete_wave hagent (s.hinted c k b d) k b d .zero {} (Result.gives_none 0 (fun _ => 0) 0)
  rw [hset, State.setWave_frame]
  simp only [State.hinted, hlanes, List.foldl_cons, List.foldl_nil, State.hintLane_eq hline hn hlow hhigh hlocal]
  rw [State.die, State.setDie, lget_lset _ _ _ _ _ hdie, if_pos rfl]

/-- Settles O46: TKRD by what it selects, PINT by the intents held, RHINT by the hint of its one lane. -/
theorem tokensAndHints : Obligations.TokensAndHints := by
  unfold Obligations.TokensAndHints
  intro s c k sel n a b d hc htrap htrap' p die
  refine ⟨?_, ?_, ?_, fun blk hof hla => ⟨rhint_went hof hla b d, ?_⟩⟩
  · refine computes_regOp rfl ⟨hc, htrap'⟩ fun j _ _ => ⟨rfl, (low32_q32 _).trans ?_⟩
    cases sel with
    | core | die | rate | stall => rfl
    | price => exact s.priceOf_eq c.core (s.rd32 c b j)
  · intro hp
    refine ⟨_, exec_pint_of_none hc htrap hp n a, State.complete_ran hc k b .zero .zero {} ?_⟩
    rw [show ({} : Result) = { writes := writesOf a 1 0 fun _ => 0, flags := 0 } by rw [writesOf_zero]]
    exact Result.gives_plain a 1 0 (fun _ => 0) 0
  · intro hp rise hle hmem t0
    let posted := s.postIntent rise t0
    have hframe := s.postIntent_frame rise t0
    have hcur : posted.1.cur? = some c := by rw [show posted.1 = _ from hframe]; exact hc
    refine ⟨_, posted.1, posted.2, exec_pint hc htrap hp (min_foldl_max_lanesOf hle hmem) n a,
      State.complete_ran hcur k b .zero .zero _ (Result.gives_plain a 1 p _ _), hframe, fun hzero => ?_, fun hrise hheld => ?_,
      fun hrise hheld => ?_⟩
    · have hposted : posted = (s, 3) := by rw [← State.postIntent_zero s t0, ← hzero]
      rw [hposted]
      exact ⟨rfl, rfl⟩
    · have hposted : posted = _ := State.postIntent_held hrise hheld
      rw [hposted]
      exact ⟨rfl, rfl, rfl⟩
    · have hposted : posted = _ := State.postIntent_new hrise hheld
      rw [hposted]
      cases s.ecoloOn with
      | true => exact ⟨.inl rfl, _, rfl, rfl, rfl, rfl, fun _ => ⟨_, rfl⟩, fun h => absurd (show 0 = 2 from h) (by decide)⟩
      | false => exact ⟨.inr rfl, _, rfl, rfl, rfl, rfl, fun h => absurd (show 2 = 0 from h) (by decide), fun _ => rfl⟩
  · intro i hone hi hdie hn line aper hlow hhigh hlocal n lines
    exact rhint_hints hof hone hi hdie b d rfl hn hlow hhigh hlocal

end Sys2Proof.Machine
end

section
/-! SUPPORT. The head of a request-engine queue, and what its steps, a slot of a queue and a fence do to it (R273, R288, R289,
R292). -/

namespace Sys2Proof.Machine

/-! ### The head of a queue -/

theorem lt_length_of_lget_ne {α : Type} {d : α} {l : List α} {n : Nat} (h : lget d l n ≠ d) : n < l.length := by
  by_contra hn
  exact h (lget_of_le d l n (Nat.not_lt.mp hn))

theorem State.head?_eq_some {s : State} {core q : Nat} {e : ReEntry} (h : s.head? core q = some e) :
    ∃ rest, lget [] (s.core core).reQueues q = e :: rest := by
  obtain ⟨rest, hrest⟩ := List.head?_eq_some_iff.mp h
  exact ⟨rest, hrest⟩

theorem State.queue_lt_length {s : State} {core q : Nat} {e : ReEntry} (h : s.head? core q = some e) :
    q < (s.core core).reQueues.length := by
  obtain ⟨rest, hrest⟩ := State.head?_eq_some h
  exact lt_length_of_lget_ne (d := []) (by rw [hrest]; exact List.cons_ne_nil _ _)

/-- A change of a queue's head changes the cores alone. -/
theorem State.onHead_frame (s : State) (core q : Nat) (f : ReEntry → ReEntry) :
    s.onHead core q f = { s with cores := (s.onHead core q f).cores } := by
  unfold State.onHead
  extract_lets
  split <;> rfl

@[simp] theorem State.onHead_blocks (s : State) (core q : Nat) (f : ReEntry → ReEntry) : (s.onHead core q f).blocks = s.blocks := by
  rw [State.onHead_frame]
@[simp] theorem State.onHead_mem (s : State) (core q : Nat) (f : ReEntry → ReEntry) : (s.onHead core q f).mem = s.mem := by
  rw [State.onHead_frame]

section Head

variable {s : State} {core q : Nat} {e : ReEntry} (h : s.head? core q = some e)
include h

theorem State.head?_onHead (f : ReEntry → ReEntry) : (s.onHead core q f).head? core q = some (f e) := by
  obtain ⟨rest, hrest⟩ := State.head?_eq_some h
  simp only [State.onHead, hrest, State.head?, State.core_setCore, if_true]
  rw [lget_lset _ _ _ _ _ (State.queue_lt_length h), if_pos rfl, List.head?_cons]

theorem State.queue_popHead : lget [] ((s.popHead core q).core core).reQueues q = (lget [] (s.core core).reQueues q).drop 1 := by
  simp only [State.popHead, State.core_setCore, if_true]
  rw [lget_lset _ _ _ _ _ (State.queue_lt_length h), if_pos rfl]

/-- Counted bytes of a head join its count. -/
theorem State.head?_reCount (n : Nat) (poison fault : Bool) :
    (s.reCount core q e n poison fault).head? core q = some { e with counted := e.counted + n } := by
  refine State.head?_onHead ?_ _
  split
  · exact h
  · exact h

theorem exec_reLine : exec (.reLine core q none) s = .next (s.reStep core q e) := by
  change execReLine core q none s = _
  rw [execReLine, h]

end Head

/-! ### Steps of an entry (R288, R289) -/

section Step

variable {s : State} {core q : Nat} {e : ReEntry} (hfence : e.isFence = false) (hacks : e.acks = 0) (hasked : e.asked = false)
  (hfatal : e.fatal = false)
include hfence hacks hasked hfatal

/-- A part that has moved is counted. -/
theorem State.reStep_counts (hstep : e.step ≠ 0) (hserved : s.slotServed e = false) : s.reStep core q e =
    (s.reCount core q e e.step e.poisoned false).onHead core q fun e => { e with step := 0, poisoned := false } := by
  simp [State.reStep, hfence, hacks, hasked, hfatal, hserved, hstep]

/-- A copy that is done leaves its queue. -/
theorem State.reStep_leaves (hcopy : e.isCopy = true) (hstep : e.step = 0) (hqueue : e.toQueue = false) (hdone : e.done = e.total)
    (hheld : e.held = none) : s.reStep core q e = s.popHead core q := by
  have hop : e.op = 0 := by
    have hkind : e.kind = .copy := by simpa [ReEntry.isCopy] using hcopy
    simp only [ReEntry.op, hkind]
  simp [State.reStep, hfence, hacks, hasked, hfatal, hstep, hqueue, hdone, hop, State.reStray, hheld, ReEntry.wantsSignal]

/-- A paid line of an entry that is ready moves. -/
theorem State.reStep_moves (hready : s.reReady core e = true) (hdue : e.due = true) : s.reStep core q e = s.reMove core q e := by
  have hwants : s.reWants core e = true := by
    simp only [State.reReady, Bool.and_eq_true] at hready
    exact hready.1.1
  simp only [State.reWants, Bool.and_eq_true, Bool.or_eq_true, decide_eq_true_eq, beq_iff_eq] at hwants
  obtain ⟨⟨⟨⟨⟨⟨⟨-, hstep⟩, -⟩, hleft⟩, hslot⟩, -⟩, -⟩, -⟩ := hwants
  have hslot' : (e.toQueue && e.slot.isNone) = false := by
    rcases hslot with hno | hsome
    · rw [show e.toQueue = false by simpa using hno, Bool.false_and]
    · rw [Option.isNone_eq_false_iff.mpr hsome, Bool.and_false]
  simp [State.reStep, hfence, hacks, hasked, hfatal, hstep, hslot', hleft, hready, hdue]

end Step

/-! ### A line of a copy (R271, R283, R288) -/

section Copy

variable {s : State} {core q : Nat} {e : ReEntry} (hcopy : e.isCopy = true)
include hcopy

theorem ReEntry.copy_kind : e.kind = .copy ∧ e.op = 0 ∧ e.isFar = false := by
  have hkind : e.kind = .copy := by simpa [ReEntry.isCopy] using hcopy
  refine ⟨hkind, ?_, ?_⟩
  · simp only [ReEntry.op, hkind]
  · simp [ReEntry.isFar, hkind]

/-- A copy that reads memory is no fill. -/
theorem ReEntry.not_isFill_of_src {x : Bool × Nat} (hsrc : (s.rePart e).src = some x) : e.isFill = false := by
  by_contra hfill
  have hop : cpOp e.record = 2 := by simpa [ReEntry.isFill, hcopy] using hfill
  rw [State.rePart, if_pos hcopy, State.copyPart, if_pos hop] at hsrc
  cases hsrc

/-- With no dirty byte to write back first, a copy reads its source at home. -/
theorem State.reMove_reads {va : Nat} {l : Leaf} (hgot : e.got = none) (hsrc : (s.rePart e).src = some (false, va))
    (hlocal : s.isLocal va = true) (hleaf : s.translate e.ctx va .read = .ok l) (hsound : s.isPoisoned l.sa = false)
    (hdirty : s.dirty = []) : s.reMove core q e =
      s.onHead core q fun x => { x with got := some (s.homeBytes l.sa (s.rePart e).n), asked := false } := by
  obtain ⟨-, hop, hfar⟩ := ReEntry.copy_kind hcopy
  have hflush (n : Nat) : s.flushBytes core l.sa n = s := by simp [State.flushBytes, hdirty]
  have hread : s.reRead core e (s.rePart e) = .bytes (s.homeBytes l.sa (s.rePart e).n) := by
    simp [State.reRead, hsrc, hlocal, hleaf, hflush, State.readHome, hsound]
  simp only [State.reMove, hgot, ReEntry.not_isFill_of_src hcopy hsrc, hfar, hread, State.reGot, hop, Bool.false_and,
    Bool.false_eq_true, if_false, OfNat.zero_ne_ofNat]

/-- A copy that has read writes into its block's scratchpad. -/
theorem State.reMove_writes {data : List Byte} {off : Nat} {b : Block} (hgot : e.got = some data)
    (hdst : (s.rePart e).dst = some (true, off)) (hb : s.entryBlock e = some b) : s.reMove core q e =
      (s.setBlock e.blk (b.putSpad off data)).onHead core q fun x => x.moved' (s.rePart e).n 0 false := by
  obtain ⟨-, hop, -⟩ := ReEntry.copy_kind hcopy
  simp [State.reMove, State.reWrite, hgot, hop, hdst, hb]

end Copy

/-! ### RE_LINE (R288) -/

/-- The head entry of a queue awaits nothing: it is no fence, and no acknowledgement, line or fatal answer stands in its way. -/
structure Goes (s : State) (core q : Nat) (e : ReEntry) : Prop where
  head : s.head? core q = some e
  fence : e.isFence = false
  acks : e.acks = 0
  asked : e.asked = false
  fatal : e.fatal = false

section Line

variable {s : State} {core q : Nat} {e : ReEntry} (h : Goes s core q e)
include h

theorem reLine_counts (hstep : e.step ≠ 0) (hserved : s.slotServed e = false) : ∃ t, exec (.reLine core q none) s = .next t ∧
    t.head? core q = some { e with counted := e.counted + e.step, step := 0, poisoned := false } := by
  refine ⟨_, (exec_reLine h.head).trans (congrArg _ (State.reStep_counts h.fence h.acks h.asked h.fatal hstep hserved)), ?_⟩
  exact State.head?_onHead (State.head?_reCount h.head ..) _

theorem reLine_leaves (hcopy : e.isCopy = true) (hstep : e.step = 0) (hqueue : e.toQueue = false) (hdone : e.done = e.total)
    (hheld : e.held = none) : ∃ t, exec (.reLine core q none) s = .next t ∧
      lget [] (t.core core).reQueues q = (lget [] (s.core core).reQueues q).drop 1 :=
  ⟨_, (exec_reLine h.head).trans
    (congrArg _ (State.reStep_leaves h.fence h.acks h.asked h.fatal hcopy hstep hqueue hdone hheld)), State.queue_popHead h.head⟩

section Ready

variable (hcopy : e.isCopy = true) (hready : s.reReady core e = true)
include hcopy hready

/-- The read of a part whose claim is paid. -/
theorem reLine_reads {va : Nat} {l : Leaf} (hgot : e.got = none) (hpaid : 0 < e.paid)
    (hsrc : (s.rePart e).src = some (false, va)) (hlocal : s.isLocal va = true) (hleaf : s.translate e.ctx va .read = .ok l)
    (hsound : s.isPoisoned l.sa = false) (hdirty : s.dirty = []) : ∃ t, exec (.reLine core q none) s = .next t ∧
      t.mem = s.mem ∧ t.head? core q = some { e with got := some (s.homeBytes l.sa (s.rePart e).n) } := by
  have hdue : e.due = true := by
    simp [ReEntry.due, ReEntry.wantsRead, hgot, ReEntry.not_isFill_of_src hcopy hsrc, hpaid]
  refine ⟨_, ((exec_reLine h.head).trans (congrArg _ (State.reStep_moves h.fence h.acks h.asked h.fatal hready hdue))).trans
    (congrArg _ (State.reMove_reads hcopy hgot hsrc hlocal hleaf hsound hdirty)), State.onHead_mem .., ?_⟩
  rw [State.head?_onHead h.head, ← h.asked]

/-- The write of a part into the scratchpad of its block. -/
theorem reLine_writes {data : List Byte} {off : Nat} {b : Block} (hgot : e.got = some data) (hpaid : 1 < e.paid)
    (hdst : (s.rePart e).dst = some (true, off)) (hb : s.entryBlock e = some b) : ∃ t, exec (.reLine core q none) s = .next t ∧
      (∀ o, spadAt t e.blk o = if off ≤ o ∧ o < off + data.length then lget 0 data (o - off) else b.spadByte o) ∧
      t.head? core q = some (e.moved' (s.rePart e).n 0 false) := by
  have hdue : e.due = true := by
    rw [ReEntry.due, decide_eq_true_eq]
    split_ifs <;> omega
  refine ⟨_, ((exec_reLine h.head).trans (congrArg _ (State.reStep_moves h.fence h.acks h.asked h.fatal hready hdue))).trans
    (congrArg _ (State.reMove_writes hcopy hgot hdst hb)), fun o => ?_, ?_⟩
  · have hblock : (State.onHead (s.setBlock e.blk (b.putSpad off data)) core q fun x => x.moved' (s.rePart e).n 0 false).block? e.blk =
        some (b.putSpad off data) := by
      rw [State.block?, State.onHead_blocks]
      exact (State.block_setBlock ..).trans (if_pos rfl)
    rw [spadAt, hblock]
    exact Block.spadByte_putSpad b off data o
  · exact State.head?_onHead (s := s.setBlock e.blk _) h.head _

end Ready

end Line

/-! ### Slots of queues (R292) -/

section Slot

variable {s : State} {core q : Nat} {e : ReEntry} {b : Block} (h : s.head? core q = some e) (hb : s.entryBlock e = some b)
  (hqueue : e.toQueue = true) (hslot : e.slot = none) (hstart : s.mayStart core e = true)
include h hb hqueue hslot hstart

/-- A queue without a free slot, or one that has served in this clock, gives none. -/
theorem exec_queueSlotTake_waits (hfull : (b.queue (cpQueue e.record)).free = 0 ∨ (b.queue (cpQueue e.record)).served = true) :
    exec (.queueSlotTake core q) s = .next s := by
  change execQueueSlotTake core q s = _
  have hno : (decide (0 < (b.queue (cpQueue e.record)).free) && !(b.queue (cpQueue e.record)).served) = false := by
    rcases hfull with hfree | hserved
    · rw [hfree]
      rfl
    · rw [hserved, Bool.not_true, Bool.and_false]
  simp only [execQueueSlotTake, h, hb, hqueue, hslot, hstart, Option.isNone_none, Bool.and_true, Bool.true_and, hno,
    Bool.false_eq_true, if_false]

/-- The queue after a request has taken its slot tail. -/
def SpQueue.taken (x : SpQueue) (n : Nat) : SpQueue :=
  { x with free := x.free - 1, tail := (x.tail + 1) % x.count, slots := lset x.slots x.tail (.filling n), served := true }

theorem exec_queueSlotTake (hfree : 0 < (b.queue (cpQueue e.record)).free) (hserved : (b.queue (cpQueue e.record)).served = false) :
    exec (.queueSlotTake core q) s = .next ((s.setBlock e.blk (b.setQueue (cpQueue e.record)
      ((b.queue (cpQueue e.record)).taken e.total))).onHead core q fun x =>
        { x with slot := some (b.queue (cpQueue e.record)).tail }) := by
  change execQueueSlotTake core q s = _
  simp only [execQueueSlotTake, h, hb, hqueue, hslot, hstart, hfree, hserved, Option.isNone_none, Bool.and_true, decide_true,
    Bool.not_false, if_true]
  rfl

/-- The entry has its slot, and the queue counts it. -/
theorem queueSlotTake_takes (hlen : b.queues.length = 8) (hfree : 0 < (b.queue (cpQueue e.record)).free)
    (hserved : (b.queue (cpQueue e.record)).served = false) : ∃ t, exec (.queueSlotTake core q) s = .next t ∧
      t.head? core q = some { e with slot := some (b.queue (cpQueue e.record)).tail } ∧
      ∃ b', t.block? e.blk = some b' ∧ b'.queue (cpQueue e.record) = (b.queue (cpQueue e.record)).taken e.total := by
  refine ⟨_, exec_queueSlotTake h hb hqueue hslot hstart hfree hserved, ?_, _, ?_, Block.queue_setQueue hlen _ _⟩
  · exact State.head?_onHead (s := s.setBlock e.blk _) h _
  · rw [State.block?, State.onHead_blocks]
    exact (State.block_setBlock ..).trans (if_pos rfl)

end Slot

/-! ### Fences (R273) -/

/-- A fence that stands at the head of a queue. -/
theorem Core.fenceAt_of_fence {c : Core} {n : Nat} {e : ReEntry} {rest : List ReEntry} {m : BitVec 4} {id : Nat}
    (h : lget [] c.reQueues n = e :: rest) (hkind : e.kind = .fence m id) : c.fenceAt n = some (m, id) := by
  obtain ⟨⟩ := e
  subst hkind
  simp only [Core.fenceAt, h, List.head?_cons]

/-- Another entry at the head of a queue is no fence. -/
theorem Core.fenceAt_of_other {c : Core} {n : Nat} (h : ∀ e rest, lget [] c.reQueues n = e :: rest → e.isFence = false) :
    c.fenceAt n = none := by
  unfold Core.fenceAt
  split
  · next hd =>
    obtain ⟨rest, hrest⟩ := List.head?_eq_some_iff.mp hd
    exact absurd (h _ rest hrest) (by simp [ReEntry.isFence])
  · rfl

theorem findSome?_eq_of_unique {α β : Type} {l : List α} {g : α → Option β} {y : β} (hsome : ∃ x ∈ l, g x = some y)
    (huniq : ∀ x ∈ l, g x = none ∨ g x = some y) : l.findSome? g = some y := by
  cases hfind : l.findSome? g with
  | none =>
    obtain ⟨x, hx, hgx⟩ := hsome
    rw [List.findSome?_eq_none_iff.mp hfind x hx] at hgx
    cases hgx
  | some z =>
    obtain ⟨x, hx, hgx⟩ := List.exists_of_findSome?_eq_some hfind
    rcases huniq x hx with hnone | hy
    · rw [hnone] at hgx
      cases hgx
    · exact hgx.symm.trans hy

/-- A fence at the head of each queue that it names, with none at the heads of the others, is due. -/
theorem Core.fenceDue_eq {c : Core} {m : BitVec 4} {id : Nat} (hm : m ≠ 0)
    (hin : ∀ n < 4, m.getLsbD n = true → c.fenceAt n = some (m, id)) (hout : ∀ n < 4, m.getLsbD n = false → c.fenceAt n = none) :
    c.fenceDue = some (m, id) := by
  have hlt {n : Nat} (hn : n ∈ upFrom 0 4) : n < 4 := by simpa using ((mem_upFrom 0 4 n).mp hn).2
  have hall : ((upFrom 0 4).all fun p => !m.getLsbD p || c.fenceAt p == some (m, id)) = true := by
    rw [List.all_eq_true]
    intro p hp
    cases hbit : m.getLsbD p with
    | false => rfl
    | true => simp [hin p (hlt hp) hbit]
  obtain ⟨n, hn, hbit⟩ : ∃ n < 4, m.getLsbD n = true := by
    by_contra hno
    simp only [not_exists, not_and, Bool.not_eq_true] at hno
    exact hm (BitVec.eq_of_getLsbD_eq fun i hi => (hno i hi).trans BitVec.getLsbD_zero.symm)
  refine findSome?_eq_of_unique ⟨n, (mem_upFrom 0 4 n).mpr ⟨n.zero_le, by omega⟩, ?_⟩ fun p hp => ?_
  · simp only [hin n hn hbit, hall, if_true]
  · cases hbit : m.getLsbD p with
    | false => exact .inl (by simp only [hout p (hlt hp) hbit])
    | true => exact .inr (by simp only [hin p (hlt hp) hbit, hall, if_true])

/-- A core whose queues a fence has left. -/
def Core.release (c : Core) (m : BitVec 4) : Core :=
  { c with reQueues := mapIdx (fun q l => if m.getLsbD q then l.drop 1 else l) 0 c.reQueues }

theorem mapIdx_length {α : Type} (f : Nat → α → α) (i : Nat) (l : List α) : (mapIdx f i l).length = l.length := by
  induction l generalizing i with
  | nil => rfl
  | cons x t ih => rw [mapIdx, List.length_cons, ih, List.length_cons]

theorem Core.queue_release (c : Core) (m : BitVec 4) (n : Nat) : lget [] (c.release m).reQueues n =
    if m.getLsbD n = true then (lget [] c.reQueues n).drop 1 else lget [] c.reQueues n := by
  rw [Core.release]
  by_cases hn : n < c.reQueues.length
  · rw [lget_mapIdx _ _ _ hn, Nat.zero_add]
  · have hle := Nat.not_lt.mp hn
    rw [lget_of_le _ _ _ ((mapIdx_length _ _ _).trans_le hle), lget_of_le _ _ _ hle]
    exact (ite_self []).symm

theorem exec_qfenceRelease {s : State} {core : Nat} {f : BitVec 4 × Nat} (hdue : (s.core core).fenceDue = some f) :
    exec (.qfenceRelease core) s = .next (s.setCore core ((s.core core).release f.1)) := by
  change execQfenceRelease core s = _
  simp only [execQfenceRelease, hdue]
  rfl

/-- The fence that some queues have at their heads leaves them. -/
theorem qfenceRelease_leaves {s : State} {core : Nat} {m : BitVec 4} {id : Nat} (hm : m ≠ 0)
    (hin : ∀ n < 4, m.getLsbD n = true → ∃ e rest, lget [] (s.core core).reQueues n = e :: rest ∧ e.kind = .fence m id)
    (hout : ∀ n < 4, m.getLsbD n = false → ∀ e rest, lget [] (s.core core).reQueues n = e :: rest → e.isFence = false) :
    ∃ t, exec (.qfenceRelease core) s = .next t ∧ ∀ n < 4, lget [] (t.core core).reQueues n =
      if m.getLsbD n = true then (lget [] (s.core core).reQueues n).drop 1 else lget [] (s.core core).reQueues n := by
  have hdue : (s.core core).fenceDue = some (m, id) := by
    refine Core.fenceDue_eq hm (fun n hn hbit => ?_) fun n hn hbit => Core.fenceAt_of_other (hout n hn hbit)
    obtain ⟨e, rest, hqueue, hkind⟩ := hin n hn hbit
    exact Core.fenceAt_of_fence hqueue hkind
  refine ⟨_, exec_qfenceRelease hdue, fun n _ => ?_⟩
  rw [State.core_setCore, if_pos rfl, Core.queue_release]

end Sys2Proof.Machine
end

section
/-! SUPPORT. Promotions, the ages of a core's log and of its dirty bytes, and its self-test (R190, R257, R277, R278, R364). -/

namespace Sys2Proof.Machine

/-! ### Write-backs leave the cores -/

theorem State.onlyStores_toHome (s : State) (core : Nat) : s.OnlyStores (s.toHome core) :=
  State.onlyStores_trans (s.onlyStores_backDie _) (State.onlyStores_backHome _ _)

theorem State.onlyStores_toDie (s : State) (core : Nat) : s.OnlyStores (s.toDie core) := by
  unfold State.toDie
  extract_lets s1
  split
  · exact State.onlyStores_trans (s.onlyStores_backDie _) (State.onlyStores_backHome _ _)
  · exact s.onlyStores_backDie _

theorem State.onlyStores_promoteTo (s : State) (core : Nat) (g : Word) : s.OnlyStores (s.promoteTo core g) := by
  unfold State.promoteTo
  split
  · exact s.onlyStores_toHome core
  · exact s.onlyStores_refl

theorem State.onlyStores_promoteAt (s : State) (core : Nat) (sc : Scope) (g : Word) : s.OnlyStores (s.promoteAt core sc g) := by
  have hnear : s.OnlyStores (if s.dirtyUpTo core 0 g then s.toDie core else s) := by
    split
    · exact s.onlyStores_toDie core
    · exact s.onlyStores_refl
  cases sc with
  | blk => exact s.onlyStores_refl
  | clu =>
    simp only [State.promoteAt]
    split
    · exact s.onlyStores_refl
    · exact hnear
  | die => exact hnear
  | pkg | sys => exact s.onlyStores_promoteTo core g

theorem State.OnlyStores.core {s t : State} (h : s.OnlyStores t) (n : Nat) : t.core n = s.core n := by
  rw [h]
  rfl

/-! ### Promotions (R278, R364) -/

/-- The first service of a promotion clears entries of its core's log, and no other part of the core. -/
theorem State.core_firstService (s : State) (core : Nat) (p : Promo) : ∃ f : LogEntry → Bool,
    (s.firstService core p).1.core core = { s.core core with log := (s.core core).log.filter f } := by
  unfold State.firstService
  extract_lets c
  split
  · exact ⟨fun _ => true, by rw [List.filter_true]⟩
  · next g _ =>
    have hcore : (s.promoteAt core p.scope g).core core = c := (s.onlyStores_promoteAt core p.scope g).core core
    refine ⟨fun e => !(p.covers e && genLe c.writeGen e.gen g), ?_⟩
    simp only [hcore, State.core_setCore, if_true]
    rfl

theorem exec_promote_of_none {s : State} {core : Nat} (h : (s.core core).promos = []) : exec (.promote core none) s = .next s := by
  change execPromote core none s = _
  simp only [execPromote, State.servePromo, h]

/-- The oldest promotion of a wave of this package is served (R278). -/
theorem promote_serves {s : State} {core : Nat} {p : Promo} {rest : List Promo} (h : (s.core core).promos = p :: rest)
    (hremote : p.remote = none) (hscope : p.scope ≠ .sys) : ∃ t, exec (.promote core none) s = .next t ∧
      (t.core core).promos = rest ∧ ∀ e ∈ (t.core core).log, e ∈ (s.core core).log := by
  obtain ⟨s1, hexec, hlog⟩ : ∃ s1 : State,
      exec (.promote core none) s = .next (s1.setCore core { s1.core core with promos := rest }) ∧
      ∀ e ∈ (s1.core core).log, e ∈ (s.core core).log := by
    cases hup : p.upTo with
    | some g =>
      refine ⟨s, ?_, fun _ he => he⟩
      change execPromote core none s = _
      simp only [execPromote, State.servePromo, h, hup, hscope, false_and, if_false, State.promoAck, hremote]
    | none =>
      obtain ⟨f, hf⟩ := s.core_firstService core p
      refine ⟨(s.firstService core p).1, ?_, fun e he => ?_⟩
      · change execPromote core none s = _
        simp only [execPromote, State.servePromo, h, hup, hscope, false_and, if_false, State.promoAck, hremote]
      · rw [hf] at he
        exact List.mem_of_mem_filter he
  refine ⟨_, hexec, ?_, fun e he => hlog e ?_⟩
  · rw [State.core_setCore, if_pos rfl]
  · rwa [State.core_setCore, if_pos rfl] at he

/-- A promotion of a job that no context serves is acknowledged at once (R364). -/
theorem exec_promote_unserved {s : State} {r : RemotePromo} (h : s.ctxOfJob r.job = none) (core : Nat) :
    exec (.promote core (some r)) s = .next (s.send (.promoteAck r.srcPkg r.id)) := by
  change execPromote core (some r) s = _
  simp only [execPromote, State.takeRemote, h]
  rfl

/-! ### The age of a log entry (R277) -/

theorem exec_promoLogAgeEvict_young {s : State} {core : Nat}
    (h : ∀ e ∈ (s.core core).log, ((s.core core).writeGen - e.gen).toNat < 2 ^ 30) : exec (.promoLogAgeEvict core) s = .next s := by
  have hnone : (s.core core).log.find? (fun e => e.old (s.core core).writeGen) = none := by
    refine List.find?_eq_none.mpr fun e he hold => ?_
    exact absurd (of_decide_eq_true hold) (Nat.not_le.mpr (h e he))
  change execPromoLogAgeEvict core s = _
  simp only [execPromoLogAgeEvict, hnone]

/-- The oldest entry is promoted and freed. -/
theorem promoLogAgeEvict_frees {s : State} {core : Nat} {e : LogEntry} {rest : List LogEntry} (h : (s.core core).log = e :: rest)
    (hold : 2 ^ 30 ≤ ((s.core core).writeGen - e.gen).toNat) : ∃ t, exec (.promoLogAgeEvict core) s = .next t ∧
      (t.core core).log = rest.filter fun x => x != e := by
  have hfind : (s.core core).log.find? (fun e => e.old (s.core core).writeGen) = some e := by
    rw [h, List.find?_cons_of_pos]
    exact decide_eq_true hold
  have hexec : exec (.promoLogAgeEvict core) s = .next ((s.promoteTo core e.gen).setCore core
      { (s.promoteTo core e.gen).core core with log := ((s.promoteTo core e.gen).core core).log.filter fun x => x != e }) := by
    change execPromoLogAgeEvict core s = _
    simp only [execPromoLogAgeEvict, hfind]
  refine ⟨_, hexec, ?_⟩
  rw [State.core_setCore, if_pos rfl, (s.onlyStores_promoteTo core e.gen).core, h, List.filter_cons_of_neg (by simp)]

/-! ### The self-test (R190) -/

theorem State.interrupt_mil (s : State) (vec : Nat) : (s.interrupt vec).mil = s.mil := by
  unfold State.interrupt
  split <;> rfl

theorem State.interrupt_cores (s : State) (vec : Nat) : (s.interrupt vec).cores = s.cores := by
  unfold State.interrupt
  split <;> rfl

/-- The log's number of a new record is the next. -/
theorem State.logEvent_logSeq (s : State) (kind unit index : Nat) (data : List Byte) :
    (s.logEvent kind unit index data).mil.logSeq = (s.mil.logSeq + 1) % 2 ^ 32 := by
  rw [State.logEvent, State.interrupt_mil]

theorem State.logEvent_core (s : State) (kind unit index : Nat) (data : List Byte) (n : Nat) :
    (s.logEvent kind unit index data).core n = s.core n := by
  simp only [State.core, State.logEvent, State.interrupt_cores]

/-- A self-test ends; one that fails is logged. -/
theorem selftestGranuleEnd_ends {s : State} {core : Nat} (h : (s.core core).selfTest = true) (failed : Bool) :
    ∃ t, exec (.selftestGranuleEnd core failed) s = .next t ∧ (t.core core).selfTest = false ∧
      (failed = false → t.mil = s.mil) ∧ (failed = true → t.mil.logSeq = (s.mil.logSeq + 1) % 2 ^ 32) := by
  have hexec : exec (.selftestGranuleEnd core failed) s = .next
      (if failed then (s.setCore core { s.core core with selfTest := false }).logEvent 8 5 core []
       else s.setCore core { s.core core with selfTest := false }) := by
    change execSelftestGranuleEnd core failed s = _
    simp only [execSelftestGranuleEnd, h, Bool.not_true, Bool.false_eq_true, if_false]
  have hcore : ((s.setCore core { s.core core with selfTest := false }).core core).selfTest = false := by
    rw [State.core_setCore, if_pos rfl]
  refine ⟨_, hexec, ?_⟩
  cases failed with
  | false => exact ⟨hcore, fun _ => rfl, fun hno => absurd hno Bool.false_ne_true⟩
  | true =>
    refine ⟨?_, nofun, fun _ => ?_⟩
    · rw [if_pos rfl, State.logEvent_core, hcore]
    · rw [if_pos rfl, State.logEvent_logSeq, State.setCore_mil]

/-! ### Dirty bytes of 20 µs (R256, R257) -/

theorem foldl_dirty_eq {α : Type} {f : State → α → State} (hf : ∀ s x, (f s x).dirty = s.dirty) (l : List α) (s : State) :
    (l.foldl f s).dirty = s.dirty := by
  induction l generalizing s with
  | nil => rfl
  | cons x t ih => rw [List.foldl_cons, ih, hf]

theorem State.homeWrite_dirty (s : State) (sa : Nat) (bs : List Byte) : (s.homeWrite sa bs).dirty = s.dirty := by
  rw [State.homeWrite_frame]

/-- What is written back to the home leaves the caches. -/
theorem State.backHome_dirty (s : State) (p : DirtyByte → Bool) :
    (s.backHome p).dirty = s.dirty.filter fun d => !s.leaving p d := by
  rw [State.backHome]
  exact (foldl_dirty_eq (f := State.heal) (fun _ _ => rfl) _ _).trans
    (foldl_dirty_eq (f := fun s (d : DirtyByte) => s.homeWrite d.sa [d.val]) (fun s d => s.homeWrite_dirty d.sa [d.val]) _ _)

theorem State.leaving_of_pos (s : State) {p : DirtyByte → Bool} {d : DirtyByte} (h : p d = true) : s.leaving p d = true := by
  rw [State.leaving, h, Bool.true_or]

/-- A byte put into a cache stands at its own level. -/
theorem State.mem_putDirty {s : State} {d x : DirtyByte} (h : x ∈ (s.putDirty d).dirty) : x.lvl = d.lvl ∨ x ∈ s.dirty := by
  simp only [State.putDirty, List.mem_append, List.mem_filter] at h
  rcases h with hnew | hold
  · have hlvl {y : DirtyByte} (hy : y ∈ (s.dirty.filter (sameCopy d)).map fun x => { x with val := d.val, noDie := d.noDie }) :
        y.lvl = d.lvl := by
      obtain ⟨z, hz, rfl⟩ := List.mem_map.mp hy
      have hsame := (List.mem_filter.mp hz).2
      simp only [sameCopy, Bool.and_eq_true, beq_iff_eq] at hsame
      obtain ⟨⟨-, hlvl⟩, -⟩ := hsame
      exact hlvl
    split at hnew
    · exact .inl (hlvl hnew)
    · rcases List.mem_cons.mp hnew with rfl | hthere
      · exact .inl rfl
      · exact .inl (hlvl hthere)
  · exact .inr hold.1

/-- What an L1 still holds after a write-back to the die cache was there before and does not leave. -/
theorem State.mem_backDie {s : State} {p : DirtyByte → Bool} {x : DirtyByte} (h : x ∈ (s.backDie p).dirty) (hlvl : x.lvl = 0) :
    x ∈ s.dirty ∧ p x = false := by
  have hkept (l : List DirtyByte) (u : State)
      (h : x ∈ (l.foldl (fun s (d : DirtyByte) => s.putDirty { d with lvl := 1 }) u).dirty) : x ∈ u.dirty := by
    induction l generalizing u with
    | nil => exact h
    | cons d l ih =>
      rcases State.mem_putDirty (ih _ h) with hone | hmem
      · rw [hlvl] at hone
        cases hone
      · exact hmem
  rw [State.backDie] at h
  obtain ⟨hmem, hstays⟩ := List.mem_filter.mp (hkept _ _ h)
  refine ⟨hmem, ?_⟩
  by_contra hp
  rw [s.leaving_of_pos (by simp [hlvl, hp])] at hstays
  cases hstays

/-- A dirty byte that a core wrote, in the L1 that serves it or in its die's cache. -/
def State.near (s : State) (core : Nat) (x : DirtyByte) : Prop := x.core = core ∧ (x.lvl = 1 ∨ x.lvl = 0 ∧ s.sees core x = true)

/-- Writing a core's caches back leaves none of its bytes there. -/
theorem State.not_near_toHome {s : State} {core : Nat} {x : DirtyByte} (h : x ∈ (s.toHome core).dirty) : ¬ s.near core x := by
  rintro ⟨hcore, hlvl⟩
  rw [State.toHome, State.backHome_dirty, List.mem_filter] at h
  obtain ⟨hmem, hstays⟩ := h
  rcases hlvl with hone | ⟨hzero, hsees⟩
  · have hleaves := (s.backDie (s.inL1Of core)).leaving_of_pos (p := inDieOf core) (d := x) (by simp [inDieOf, hone, hcore])
    rw [hleaves] at hstays
    cases hstays
  · have hkept := (State.mem_backDie hmem hzero).2
    simp [State.inL1Of, hzero, hsees] at hkept

/-- The only dirty byte, written back to the home. -/
theorem State.backHome_single {s : State} {d : DirtyByte} (h : s.dirty = [d]) {p : DirtyByte → Bool} (hp : p d = true) :
    (s.backHome p).dirty = [] ∧ (s.backHome p).homeByte d.sa = d.val := by
  have hsel : s.dirty.filter (s.leaving p) = [d] := by rw [h, List.filter_cons_of_pos (s.leaving_of_pos hp), List.filter_nil]
  constructor
  · rw [State.backHome_dirty, h, List.filter_cons_of_neg (by rw [s.leaving_of_pos hp]; exact Bool.false_ne_true), List.filter_nil]
  · have hmem : (s.backHome p).mem = (s.homeWrite d.sa [d.val]).mem := by
      rw [State.backHome, hsel]
      refine (foldl_mem_eq State.heal _ (fun _ _ => rfl) _).trans ?_
      rw [List.reverse_singleton, List.foldl_cons, List.foldl_nil, State.homeWrite_mem, State.homeWrite_mem]
    rw [State.homeByte, hmem]
    have hwrite := s.homeByte_homeWrite d.sa [d.val] d.sa
    rw [if_pos (by simp)] at hwrite
    simpa [State.homeByte, lget] using hwrite

theorem State.toHome_single {s : State} {core : Nat} {d : DirtyByte} (h : s.dirty = [d]) (hnear : s.near core d) :
    (s.toHome core).dirty = [] ∧ (s.toHome core).homeByte d.sa = d.val := by
  obtain ⟨hcore, hlvl⟩ := hnear
  have hback : ∃ x, (s.backDie (s.inL1Of core)).dirty = [x] ∧ x.sa = d.sa ∧ x.val = d.val ∧ inDieOf core x = true := by
    rcases hlvl with hone | ⟨hzero, hsees⟩
    · have hstays : s.leaving (fun x => x.lvl == 0 && s.inL1Of core x) d = false := by simp [State.leaving, h, hone]
      refine ⟨d, ?_, rfl, rfl, by simp [inDieOf, hone, hcore]⟩
      simp [State.backDie, h, hstays]
    · have hleaves := s.leaving_of_pos (p := fun x => x.lvl == 0 && s.inL1Of core x) (d := d) (by simp [State.inL1Of, hzero, hsees])
      refine ⟨{ d with lvl := 1 }, ?_, rfl, rfl, by simp [inDieOf, hcore]⟩
      simp [State.backDie, h, hleaves, State.putDirty]
  obtain ⟨x, hx, hsa, hval, hdie⟩ := hback
  obtain ⟨hempty, hhome⟩ := State.backHome_single hx hdie
  exact ⟨hempty, by rwa [hsa, hval] at hhome⟩

/-- A core's caches are written back once a byte that it wrote is 20 µs old (R257). -/
theorem exec_lineWritebackDeadline (s : State) (core : Nat) : exec (.lineWritebackDeadline core) s = .next
    (if s.dirty.any (fun d => d.core == core && d.old s.clk) then s.toHome core else s) := rfl

theorem lineWritebackDeadline_writes (s : State) (core : Nat) : ∃ t, exec (.lineWritebackDeadline core) s = .next t ∧
    (∀ x ∈ t.dirty, s.near core x → (s.clk - x.birth).toNat < 25000) ∧
    ∀ d, s.dirty = [d] → s.near core d → 25000 ≤ (s.clk - d.birth).toNat → t.dirty = [] ∧ t.homeByte d.sa = d.val := by
  refine ⟨_, exec_lineWritebackDeadline s core, ?_⟩
  split
  · exact ⟨fun x hx hnear => absurd hnear (State.not_near_toHome hx), fun d hd hnear _ => State.toHome_single hd hnear⟩
  · next hyoung =>
    have hlt {x : DirtyByte} (hx : x ∈ s.dirty) (hnear : s.near core x) : (s.clk - x.birth).toNat < 25000 := by
      by_contra hold
      refine hyoung (List.any_eq_true.mpr ⟨x, hx, ?_⟩)
      simp only [hnear.1, BEq.rfl, Bool.true_and]
      exact decide_eq_true (Nat.not_lt.mp hold)
    refine ⟨fun x hx hnear => hlt hx hnear, fun d hd hnear hold => ?_⟩
    exact absurd (hlt (hd ▸ List.mem_cons_self) hnear) (Nat.not_lt.mpr hold)

end Sys2Proof.Machine
end

section
/-! SUPPORT. A core's token claims: which of them are served, paid or left, in a clock (R162 to R164, R176). -/

namespace Sys2Proof.Machine

/-! ### The claims of a core -/

/-- Claims that all stand are not withdrawn. -/
theorem Core.withdraw_none {c : Core} {p : Claim → Bool} (h : ∀ k ∈ c.claims, p k = false) (hres : c.reservation = none) :
    c.withdraw p = c := by
  have hkeep : c.claims.filter (fun k => !p k) = c.claims := List.filter_eq_self.mpr fun k hk => by rw [h k hk]; rfl
  simp only [Core.withdraw, hkeep, hres]
  rw [← hres]

theorem mem_claimOrder {who : Nat} (h : who < 6) (clk : Nat) : who ∈ claimOrder clk := by
  refine List.mem_map.mpr ?_
  by_cases hle : clk % 6 ≤ who
  · exact ⟨who, (mem_upFrom ..).mpr ⟨hle, by omega⟩, Nat.mod_eq_of_lt h⟩
  · exact ⟨who + 6, (mem_upFrom ..).mpr (by omega), by omega⟩

theorem turnOrder_single {n : Nat} (h : n < 6) (t : Turn) : turnOrder [(n, t)] = [t] := by
  interval_cases n <;> rfl

/-- Claimants that present no claim are passed over. -/
theorem State.serveClaims_skip {s : State} {core : Nat} {l : List Nat} (h : ∀ who ∈ l, s.claimOf core who = none) (r : List Nat) :
    s.serveClaims core (l ++ r) = s.serveClaims core r := by
  induction l with
  | nil => rfl
  | cons who l ih =>
    rw [List.cons_append, State.serveClaims, h who List.mem_cons_self]
    exact ih fun x hx => h x (List.mem_cons_of_mem _ hx)

theorem State.serveClaims_nobody {s : State} {core : Nat} (hre : (s.core core).reNext = none) (hclaims : (s.core core).claims = [])
    (l : List Nat) : s.serveClaims core l = (s, []) := by
  have hnone : ∀ who ∈ l, s.claimOf core who = none := fun who _ => by
    rw [State.claimOf, hre, hclaims]
    split <;> rfl
  have hskip := State.serveClaims_skip hnone []
  rwa [List.append_nil] at hskip

/-! ### One claim of a wave -/

/-- A core's only claim is a wave's, for one instruction, and nothing else claims there. -/
structure OneClaim (s : State) (core : Nat) (k : Claim) (l : List (Nat × Nat)) (b i : Nat) : Prop where
  re : (s.core core).reNext = none
  claims : (s.core core).claims = [k]
  claimant : k.claimant < 5
  agent : k.agent = some (.wave b i)
  cells : k.cells = [l]

section OneClaim

variable {s : State} {core : Nat} {k : Claim} {l : List (Nat × Nat)} {b i : Nat} (h : OneClaim s core k l b i)
include h

theorem OneClaim.claimOf (who : Nat) : s.claimOf core who = if who = k.claimant then some k else none := by
  have hlt := h.claimant
  rw [State.claimOf, h.re, h.claims]
  by_cases hwho : who = k.claimant
  · rw [if_neg (by omega), if_pos hwho, List.find?_cons_of_pos (by simp [hwho])]
  · rw [if_neg hwho]
    split
    · rfl
    · rw [List.find?_cons_of_neg (by simp [Ne.symm hwho]), List.find?_nil]

theorem OneClaim.price : s.claimPrice core k = s.priceOn core (s.dearest l) := by
  simp [State.claimPrice, h.cells]

/-- The claim is reached once those before it in the clock's order have been passed over. -/
theorem OneClaim.serveClaims_reach (clk : Nat) :
    ∃ rest, s.serveClaims core (claimOrder clk) = s.serveClaims core (k.claimant :: rest) := by
  have hlt := h.claimant
  obtain ⟨before, rest, heq, hnot⟩ := List.eq_append_cons_of_mem (mem_claimOrder (who := k.claimant) (by omega) clk)
  refine ⟨rest, ?_⟩
  rw [heq]
  refine State.serveClaims_skip (fun who hwho => ?_) _
  have hne : who ≠ k.claimant := fun hk => hnot (by rwa [← hk])
  rw [h.claimOf, if_neg hne]

/-- A claim that the bucket does not cover takes the reservation. -/
theorem OneClaim.serveClaims_unpaid (hprice : (s.core core).bucket < s.priceOn core (s.dearest l)) (clk : Nat) :
    s.serveClaims core (claimOrder clk) = (s.setCore core { s.core core with reservation := some k.claimant }, []) := by
  obtain ⟨rest, hreach⟩ := h.serveClaims_reach clk
  rw [hreach, State.serveClaims, h.claimOf, if_pos rfl]
  simp only [h.price, Nat.not_le.mpr hprice, if_false]

theorem OneClaim.payClaim : s.payClaim core k =
    ((s.pay core (s.priceOn core (s.dearest l))).setCore core
        { s.core core with bucket := (s.core core).bucket - s.priceOn core (s.dearest l), claims := [] },
      [(k.claimant, .issue (.wave b i) k.lanes (s.dearest l))]) := by
  have hcore : (s.pay core (s.priceOn core (s.dearest l))).core core =
      { s.core core with bucket := (s.core core).bucket - s.priceOn core (s.dearest l) } :=
    (State.core_setCore ..).trans (if_pos rfl)
  have hgone : [k].filter (fun y => y.claimant != k.claimant) = [] := List.filter_cons_of_neg (by simp)
  rw [State.payClaim, h.price, State.proceed, hcore, h.agent, h.cells, h.claims, hgone]
  rfl

/-- A claim that the bucket covers is paid and removed, and its instruction has its turn. -/
theorem OneClaim.serveClaims_paid (hprice : s.priceOn core (s.dearest l) ≤ (s.core core).bucket) (clk : Nat) :
    ∃ u, s.serveClaims core (claimOrder clk) = (u, [(k.claimant, .issue (.wave b i) k.lanes (s.dearest l))]) ∧
      u.core core = { s.core core with bucket := (s.core core).bucket - s.priceOn core (s.dearest l), claims := [] } ∧
      u.gov.paid = s.gov.paid + s.priceOn core (s.dearest l) ∧ u.agenda = s.agenda := by
  obtain ⟨rest, hreach⟩ := h.serveClaims_reach clk
  obtain ⟨u, hu⟩ : ∃ u, u = (s.payClaim core k).1 := ⟨_, rfl⟩
  have hpay : s.payClaim core k = (u, [(k.claimant, .issue (.wave b i) k.lanes (s.dearest l))]) := by rw [hu, h.payClaim]
  have hcore : u.core core = { s.core core with bucket := (s.core core).bucket - s.priceOn core (s.dearest l), claims := [] } := by
    rw [hu, h.payClaim, State.core_setCore, if_pos rfl]
  have hnobody : u.serveClaims core rest = (u, []) := State.serveClaims_nobody (by rw [hcore]; exact h.re) (by rw [hcore]) rest
  refine ⟨u, ?_, hcore, ?_, ?_⟩
  · rw [hreach, State.serveClaims, h.claimOf, if_pos rfl]
    simp only [h.price, hprice, if_true, hpay, hnobody, List.append_nil]
  · rw [hu, h.payClaim]
    rfl
  · rw [hu, h.payClaim]
    rfl

end OneClaim

/-! ### TOKEN_CLAIM_SERVICE (R164) -/

/-- An engine whose queues are all empty claims nothing. -/
theorem State.reAsks_of_empty {s : State} {core : Nat} (h : ∀ n, lget [] (s.core core).reQueues n = []) (q : Nat) :
    s.reAsks core q = false := by
  rw [State.reAsks, State.head?, h]
  rfl

theorem State.reChoose_of_empty {s : State} {core : Nat} (h : ∀ n, lget [] (s.core core).reQueues n = []) :
    s.reChoose core = none := by
  have hnext (coll : Bool) : s.reNextOf core coll = none := by
    rw [State.reNextOf, List.find?_eq_none.mpr fun x _ => by rw [State.reAsks_of_empty h]; exact Bool.false_ne_true]
    rfl
  rw [State.reChoose, hnext, hnext]
  rfl


/-- The engine of a core without requests gives up its claim. -/
theorem State.standEngine_of_empty {s : State} {core : Nat} (h : ∀ n, lget [] (s.core core).reQueues n = [])
    (hres : (s.core core).reservation = none) :
    s.standEngine core = s.setCore core { s.core core with reNext := none, reservation := none } := by
  have hasks : (s.core core).reNext.any (s.reAsks core) = false := by
    cases hre : (s.core core).reNext with
    | none => rfl
    | some q => exact State.reAsks_of_empty h q
  rw [State.standEngine, hasks, State.reChoose_of_empty h, hres]
  rfl

theorem State.serveCore_unreserved {s : State} {core : Nat} (h : (s.core core).reservation = none) :
    s.serveCore core = s.serveClaims core (claimOrder (s.die (dieOf core)).clocks) := by
  simp only [State.serveCore, h]

/-- A core whose only claim stands serves it, in a state that differs in the cores alone. -/
theorem tokenClaimService_serves {s : State} {core : Nat} {k : Claim} {l : List (Nat × Nat)} {b i : Nat}
    (hruns : s.coreRuns core = true) (hres : (s.core core).reservation = none) (hclaims : (s.core core).claims = [k])
    (hlt : k.claimant < 5) (hre : ∀ n, lget [] (s.core core).reQueues n = []) (hagent : k.agent = some (.wave b i))
    (hfree : k.free = false) (hcells : k.cells = [l]) (hstands : s.waveClaimStands b i k.lanes = true) :
    ∃ u, OneClaim u core k l b i ∧ u = { s with cores := u.cores } ∧
      u.core core = { s.core core with reNext := none, reservation := none } ∧
      ∀ v turns, u.serveClaims core (claimOrder (u.die (dieOf core)).clocks) = (v, turns) → exec (.tokenClaimService core) s =
        .next { v.countStalls core with agenda := turnOrder turns ++ (v.countStalls core).agenda } := by
  have hwithdraw : (s.core core).withdraw (fun c => !s.claimStands c) = s.core core := by
    refine Core.withdraw_none (fun x hx => ?_) hres
    rw [hclaims, List.mem_singleton] at hx
    rw [hx, State.claimStands, hagent]
    exact congrArg (!·) hstands
  have hunpaid : (s.core core).claims.filter (·.free) = [] := by simp [hclaims, hfree]
  have hwait : { s.core core with claims := (s.core core).claims.filter fun c => !c.free } = s.core core := by
    have hkeep : (s.core core).claims.filter (fun c => !c.free) = (s.core core).claims := by simp [hclaims, hfree]
    rw [hkeep]
  let s2 := (s.setCore core (s.core core)).setCore core (s.core core)
  have hcore : s2.core core = s.core core := (State.core_setCore ..).trans (if_pos rfl)
  have hcore' : (s2.setCore core { s.core core with reNext := none, reservation := none }).core core =
      { s.core core with reNext := none, reservation := none } :=
    (State.core_setCore ..).trans (if_pos rfl)
  have hone : OneClaim (s2.setCore core { s.core core with reNext := none, reservation := none }) core k l b i :=
    ⟨by rw [hcore'], by rw [hcore', hclaims], hlt, hagent, hcells⟩
  refine ⟨_, hone, rfl, hcore', fun v turns hserve => ?_⟩
  have hengine : s2.standEngine core = s2.setCore core { s.core core with reNext := none, reservation := none } := by
    rw [State.standEngine_of_empty (by rwa [hcore]) (by rw [hcore, hres]), hcore]
  have hfreeTurns : (s.setCore core (s.core core)).freeTurns core = [] := by
    rw [State.freeTurns, State.core_setCore, if_pos rfl, hunpaid]
    rfl
  have hserve' : (s2.standEngine core).serveCore core = (v, turns) := by
    rw [hengine, State.serveCore_unreserved (by rw [hcore']), hserve]
  change execTokenClaimService core s = _
  simp only [execTokenClaimService, hruns, Bool.not_true, Bool.false_eq_true, if_false, hwithdraw, State.core_setCore, if_true, hwait,
    hfreeTurns, List.nil_append]
  rw [show ((s.setCore core (s.core core)).setCore core (s.core core)) = s2 from rfl, hserve']

section Service

variable {s : State} {core : Nat} {k : Claim} {l : List (Nat × Nat)} {b i : Nat} {w : Wave}
  (hruns : s.coreRuns core = true) (hres : (s.core core).reservation = none) (hclaims : (s.core core).claims = [k])
  (hlt : k.claimant < 5) (hre : ∀ n, lget [] (s.core core).reQueues n = []) (hagent : k.agent = some (.wave b i))
  (hfree : k.free = false) (hcells : k.cells = [l]) (hstands : s.waveClaimStands b i k.lanes = true)
include hruns hres hclaims hlt hre hagent hfree hcells hstands

/-- A claim that the bucket covers is paid: the instruction issues. -/
theorem tokenClaimService_pays (hprice : s.priceOn core (s.dearest l) ≤ (s.core core).bucket) :
    ∃ t, exec (.tokenClaimService core) s = .next t ∧
      (t.core core).bucket = (s.core core).bucket - s.priceOn core (s.dearest l) ∧ (t.core core).claims = [] ∧
      t.gov.paid = s.gov.paid + s.priceOn core (s.dearest l) ∧
      t.agenda = .issue (.wave b i) k.lanes (s.dearest l) :: s.agenda := by
  obtain ⟨u, hone, hu, hcore, hexec⟩ := tokenClaimService_serves hruns hres hclaims hlt hre hagent hfree hcells hstands
  have hdear : u.dearest l = s.dearest l := by rw [hu]; rfl
  have hp : u.priceOn core (u.dearest l) = s.priceOn core (s.dearest l) := by rw [hu]; rfl
  obtain ⟨v, hserve, hvcore, hvgov, hvagenda⟩ := hone.serveClaims_paid (by rw [hp, hcore]; exact hprice) (u.die (dieOf core)).clocks
  have hstall : v.countStalls core = v := by rw [State.countStalls, hvcore]; rfl
  refine ⟨_, hexec v _ hserve, ?_⟩
  rw [hstall, turnOrder_single (by omega)]
  refine ⟨?_, ?_, ?_, ?_⟩
  · exact (congrArg Core.bucket hvcore).trans (by rw [hcore, hp])
  · exact congrArg Core.claims hvcore
  · exact hvgov.trans (by rw [hp, hu])
  · exact congrArg₂ (fun p a => Turn.issue (.wave b i) k.lanes p :: a) hdear (hvagenda.trans (by rw [hu]))

/-- A claim that the bucket does not cover takes the reservation, and its wave counts a stalled clock. -/
theorem tokenClaimService_stalls (hw : s.wave? b i = some w) (hprice : (s.core core).bucket < s.priceOn core (s.dearest l)) :
    ∃ t, exec (.tokenClaimService core) s = .next t ∧
      (t.core core).bucket = (s.core core).bucket ∧ (t.core core).claims = [k] ∧
      (t.core core).reservation = some k.claimant ∧ t.agenda = s.agenda ∧ t.wave? b i = some { w with stall := w.stall + 1 } := by
  obtain ⟨u, hone, hu, hcore, hexec⟩ := tokenClaimService_serves hruns hres hclaims hlt hre hagent hfree hcells hstands
  have hp : u.priceOn core (u.dearest l) = s.priceOn core (s.dearest l) := by rw [hu]; rfl
  have hserve := hone.serveClaims_unpaid (by rw [hp, hcore]; exact hprice) (u.die (dieOf core)).clocks
  obtain ⟨v, hv⟩ : ∃ v, v = u.setCore core { u.core core with reservation := some k.claimant } := ⟨_, rfl⟩
  rw [← hv] at hserve
  have hvcore : v.core core = { u.core core with reservation := some k.claimant } := by
    rw [hv, State.core_setCore, if_pos rfl]
  have hvwave : v.wave? b i = some w := by
    rw [hv, hu]
    exact hw
  have hstall : v.countStalls core = v.onWave b i fun w => { w with stall := w.stall + 1 } := by
    rw [State.countStalls, hvcore, hone.claims, List.foldl_cons, List.foldl_nil, hagent]
  obtain ⟨blk, hblk, hblkw⟩ := Option.bind_eq_some_iff.mp hvwave
  have hframe := v.onWave_frame b i fun w => { w with stall := w.stall + 1 }
  have hstallCore : (v.countStalls core).core core = v.core core := by
    rw [hstall, hframe]
    rfl
  refine ⟨_, hexec v _ hserve, ?_, ?_, ?_, ?_, ?_⟩
  · exact (congrArg Core.bucket (hstallCore.trans hvcore)).trans (by rw [hcore])
  · exact (congrArg Core.claims (hstallCore.trans hvcore)).trans (by rw [hcore, hclaims])
  · exact congrArg Core.reservation (hstallCore.trans hvcore)
  · show (v.countStalls core).agenda = s.agenda
    rw [hstall, hframe, hv, hu]
    rfl
  · show (v.countStalls core).wave? b i = _
    rw [hstall, State.wave_onWave hblk hblkw]

end Service

end Sys2Proof.Machine
end

section
/-! SUPPORT. The matrix array: a cycle of an MMA, and the array's choice of one (R306, R307, R309). -/

namespace Sys2Proof.Machine

/-! ### Accumulators (R154, R308) -/

theorem Seq.accAt_setAcc (q : Seq) (c i c' i' : Nat) (v : Word) (hi : i < 128) (hi' : i' < 128) :
    (q.setAcc c i v).accAt c' i' = if c' = c ∧ i' = i then v else q.accAt c' i' := by
  have hindex : accIndex c' i' = accIndex c i ↔ c' = c ∧ i' = i := by
    unfold accIndex
    omega
  rw [Seq.accAt, Seq.setAcc, tget_tset]
  simp only [hindex]
  rfl

/-- A sequencer whose accumulators and their flags alone may differ from another's. -/
def Seq.OnlyAcc (q q' : Seq) : Prop := q' = { q with acc := q'.acc, mstat := q'.mstat, mstatNow := q'.mstatNow }

theorem Seq.OnlyAcc.refl (q : Seq) : q.OnlyAcc q := rfl

theorem Seq.OnlyAcc.trans {q q' q'' : Seq} (h : q.OnlyAcc q') (h' : q'.OnlyAcc q'') : q.OnlyAcc q'' := by
  rw [Seq.OnlyAcc, h', h]

theorem Seq.OnlyAcc.pc {q q' : Seq} (h : q.OnlyAcc q') : q'.pc = q.pc := by rw [h]

/-- One row of a column's update: `Seq.mmaColumn` takes the rows in turn. -/
def Seq.mmaRow (col : Nat) (b : List (Option MElem)) (q : Seq) (r : Nat × List (Option MElem)) : Seq :=
  let (x, fl) := mUpdate (q.accAt col r.1) r.2 b
  { q.setAcc col r.1 x with mstat := q.mstat ||| fl, mstatNow := q.mstatNow ||| fl }

theorem Seq.mmaColumn_eq (q : Seq) (col : Nat) (rows : List (List (Option MElem))) (b : List (Option MElem)) :
    q.mmaColumn col rows b = (mapIdxed rows).foldl (Seq.mmaRow col b) q := rfl

theorem Seq.onlyAcc_mmaRow (col : Nat) (b : List (Option MElem)) (q : Seq) (r : Nat × List (Option MElem)) :
    q.OnlyAcc (Seq.mmaRow col b q r) := by
  simp only [Seq.OnlyAcc, Seq.mmaRow, Seq.setAcc]

theorem Seq.accAt_mmaRow (col : Nat) (b : List (Option MElem)) (q : Seq) {n : Nat} (row : List (Option MElem)) (hn : n < 128)
    (c : Nat) {i : Nat} (hi : i < 128) : (Seq.mmaRow col b q (n, row)).accAt c i =
      if c = col ∧ i = n then (mUpdate (q.accAt c i) row b).1 else q.accAt c i := by
  have hset : (Seq.mmaRow col b q (n, row)).accAt c i = (q.setAcc col n (mUpdate (q.accAt col n) row b).1).accAt c i := by
    simp only [Seq.accAt, Seq.mmaRow]
  rw [hset, Seq.accAt_setAcc _ _ _ _ _ _ hn hi]
  split
  · next h => rw [h.1, h.2]
  · rfl

theorem Seq.onlyAcc_foldl_mmaRow (col : Nat) (b : List (Option MElem)) (l : List (Nat × List (Option MElem))) (q : Seq) :
    q.OnlyAcc (l.foldl (Seq.mmaRow col b) q) := by
  induction l generalizing q with
  | nil => exact .refl q
  | cons r l ih =>
    rw [List.foldl_cons]
    exact (Seq.onlyAcc_mmaRow col b q r).trans (ih (Seq.mmaRow col b q r))

theorem Seq.accAt_foldl_mmaRow (col : Nat) (b : List (Option MElem)) (rows : List (List (Option MElem))) (n : Nat) (q : Seq)
    (h : n + rows.length ≤ 128) (c : Nat) {i : Nat} (hi : i < 128) : ((indexFrom n rows).foldl (Seq.mmaRow col b) q).accAt c i =
      if c = col ∧ n ≤ i ∧ i < n + rows.length then (mUpdate (q.accAt c i) (lget [] rows (i - n)) b).1 else q.accAt c i := by
  induction rows generalizing n q with
  | nil =>
    rw [if_neg (by simp)]
    rfl
  | cons row rows ih =>
    rw [List.length_cons] at h
    rw [indexFrom, List.foldl_cons, ih (n + 1) _ (by omega), Seq.accAt_mmaRow col b q row (by omega) c hi, List.length_cons]
    by_cases hc : c = col
    · rcases Nat.lt_trichotomy i n with hlt | rfl | hgt
      · rw [if_neg (by omega), if_neg (by omega), if_neg (by omega)]
      · rw [if_neg (by omega), if_pos ⟨hc, rfl⟩, if_pos (by omega), Nat.sub_self]
        rfl
      · have hsub : i - n = (i - (n + 1)) + 1 := by omega
        rw [if_neg (show ¬ (c = col ∧ i = n) by omega), hsub]
        refine if_congr (by omega) rfl rfl
    · rw [if_neg (by tauto), if_neg (by tauto), if_neg (by tauto)]

/-- A column's update changes the accumulators of that column. -/
theorem Seq.accAt_mmaColumn (q : Seq) (col : Nat) {rows : List (List (Option MElem))} (b : List (Option MElem))
    (h : rows.length = 128) (c : Nat) {i : Nat} (hi : i < 128) : (q.mmaColumn col rows b).accAt c i =
      if c = col then (mUpdate (q.accAt c i) (lget [] rows i) b).1 else q.accAt c i := by
  rw [Seq.mmaColumn_eq, mapIdxed, Seq.accAt_foldl_mmaRow col b rows 0 q (by omega) c hi, Nat.sub_zero]
  exact if_congr (by omega) rfl rfl

theorem Seq.onlyAcc_mmaColumns (c0 : Nat) (rows : List (List (Option MElem))) (b : Nat → List (Option MElem)) (l : List Nat)
    (q : Seq) : q.OnlyAcc (l.foldl (fun q j => q.mmaColumn (c0 + j) rows (b j)) q) := by
  induction l generalizing q with
  | nil => exact .refl q
  | cons j l ih => exact (Seq.onlyAcc_foldl_mmaRow (c0 + j) (b j) (mapIdxed rows) q).trans (ih _)

/-- A cycle's columns are each updated once. -/
theorem Seq.accAt_mmaColumns (c0 : Nat) {rows : List (List (Option MElem))} (b : Nat → List (Option MElem))
    (h : rows.length = 128) (lo n : Nat) (q : Seq) (j : Nat) {i : Nat} (hi : i < 128) :
    ((upFrom lo n).foldl (fun q j => q.mmaColumn (c0 + j) rows (b j)) q).accAt (c0 + j) i =
      if lo ≤ j ∧ j < lo + n then (mUpdate (q.accAt (c0 + j) i) (lget [] rows i) (b j)).1 else q.accAt (c0 + j) i := by
  induction n generalizing lo q with
  | zero =>
    rw [if_neg (by omega)]
    rfl
  | succ n ih =>
    rw [upFrom, List.foldl_cons, ih (lo + 1), Seq.accAt_mmaColumn q _ _ h _ hi]
    rcases Nat.lt_trichotomy j lo with hlt | rfl | hgt
    · rw [if_neg (by omega), if_neg (by omega), if_neg (by omega)]
    · rw [if_neg (by omega), if_pos rfl, if_pos (by omega)]
    · rw [if_neg (show ¬ c0 + j = c0 + lo by omega)]
      exact if_congr (by omega) rfl rfl

/-! ### Operands in the scratchpad (R303, R315) -/

/-- The spots of a plan all lie in the block's scratchpad. -/
def InSpad (p : Option ElemPlan) : Prop := ∀ x, p = some x → ∀ y ∈ x.spots, y.spad = true

theorem State.spotNat_spad (s t : State) (b : Nat) (blk : Block) {y : Spot} (h : y.spad = true) :
    s.spotNat b blk y = t.spotNat b blk y := by
  simp only [State.spotNat, h, if_true]

/-- An element of the scratchpad is the block's own in every state. -/
theorem State.mmaElem_inSpad (s t : State) (b : Nat) (blk : Block) (code z : Nat) (k : Byte) {p : Option ElemPlan} (h : InSpad p) :
    s.mmaElem b blk code z k p = t.mmaElem b blk code z k p := by
  cases p with
  | none => rfl
  | some x =>
    have hspot {y : Spot} (hy : y ∈ x.spots) : s.spotNat b blk y = t.spotNat b blk y := State.spotNat_spad s t b blk (h x rfl y hy)
    have hel := hspot (y := x.el) List.mem_cons_self
    have hscale {y : Spot} (hy : x.scale = some y) : s.spotNat b blk y = t.spotNat b blk y := hspot (by simp [ElemPlan.spots, hy])
    have hzero {y : Spot} (hy : x.zero = some y) : s.spotNat b blk y = t.spotNat b blk y := hspot (by simp [ElemPlan.spots, hy])
    simp only [State.mmaElem, Option.map_some, hel]
    cases hs : x.scale with
    | none => cases hz : x.zero with
      | none => rfl
      | some z => simp only [hzero hz]
    | some y => cases hz : x.zero with
      | none => simp only [hscale hs]
      | some z => simp only [hscale hs, hzero hz]

/-- Nothing keeps operands in the scratchpad from being read. -/
theorem State.spotsWait_inSpad (s : State) (b : Nat) (blk : Block) (need : Perm) {l : List Spot} (h : ∀ y ∈ l, y.spad = true) :
    s.spotsWait b blk need l l = none := by
  have hfaults : s.spotFaults blk.ctx need l = [] := by
    rw [State.spotFaults, List.filterMap_eq_nil_iff.mpr fun y hy => by simp [h y hy]]
    rfl
  have hfills : s.spotFills l = [] := by
    rw [State.spotFills, List.filterMap_eq_nil_iff.mpr fun y hy => by simp [h y hy]]
    rfl
  have haway : l.any (s.spotAway b blk.ctx) = false := List.any_eq_false.mpr fun y hy => by simp [State.spotAway, h y hy]
  have hpoison : l.any (s.spotPoison blk.ctx) = false := List.any_eq_false.mpr fun y hy => by simp [State.spotPoison, h y hy]
  simp only [State.spotsWait, hfaults, hfills, haway, hpoison, List.isEmpty_nil, if_true, Bool.false_eq_true, if_false]

/-! ### ARRAY_SELECT (R307) -/

theorem exec_arraySelect_taken {s : State} {core : Nat} (h : (s.core core).array ≠ none) : exec (.arraySelect core) s = .next s := by
  change execArraySelect core s = _
  simp only [execArraySelect, Option.isSome_iff_ne_none.mpr h, if_true]

/-- A free array takes the one MMA that waits. -/
theorem arraySelect_takes {s : State} {core : Nat} {x : Nat × Block × MmaRun} (h : (s.core core).array = none)
    (hwaits : s.arrayWaiters core = [x]) : ∃ t, exec (.arraySelect core) s = .next t ∧ (t.core core).array = some x.1 := by
  have hexec : exec (.arraySelect core) s = .next (s.setCore core { s.core core with array := some x.1 }) := by
    change execArraySelect core s = _
    simp only [execArraySelect, h, hwaits, Option.isSome_none, Bool.false_eq_true, if_false, List.foldl_nil]
  exact ⟨_, hexec, by rw [State.core_setCore, if_pos rfl]⟩

/-! ### ARRAY_CYCLE (R307) -/

theorem exec_arrayCycle_idle {s : State} {core : Nat} (h : (s.core core).array = none) : exec (.arrayCycle core) s = .next s := by
  change execArrayCycle core s = _
  simp only [execArrayCycle, h, Option.bind_none]

/-- The elements of a cycle's rows of A, and of a column of B. -/
def State.mmaRows (s : State) (b : Nat) (blk : Block) (r : MmaRun) : List (List (Option MElem)) :=
  (r.plansA blk.spadSize).map fun l => l.map (s.mmaElem b blk (fwA r.fw) (fwZa r.fw) r.binds.zca)
def State.mmaCol (s : State) (b : Nat) (blk : Block) (r : MmaRun) (j : Nat) : List (Option MElem) :=
  ((r.colB blk.spadSize j).map planOf).map (s.mmaElem b blk (fwB r.fw) (fwZb r.fw) r.binds.zcb)

theorem State.mmaRows_length (s : State) (b : Nat) (blk : Block) (r : MmaRun) : (s.mmaRows b blk r).length = 128 := by
  simp [State.mmaRows, MmaRun.plansA, MmaRun.rowsA]

theorem State.lget_mmaRows (s : State) (b : Nat) (blk : Block) (r : MmaRun) {i : Nat} (hi : i < 128) :
    lget [] (s.mmaRows b blk r) i =
      (List.range 64).map fun k => s.mmaElem b blk (fwA r.fw) (fwZa r.fw) r.binds.zca (planOf (r.planA blk.spadSize i k)) := by
  simp [State.mmaRows, MmaRun.plansA, MmaRun.rowsA, upFrom_zero_eq_range, lget_eq_getD, hi, Function.comp_def]

theorem State.mmaCol_eq (s : State) (b : Nat) (blk : Block) (r : MmaRun) (j : Nat) : s.mmaCol b blk r j =
    (List.range 64).map fun k => s.mmaElem b blk (fwB r.fw) (fwZb r.fw) r.binds.zcb (planOf (r.planB blk.spadSize k j)) := by
  simp [State.mmaCol, MmaRun.colB, upFrom_zero_eq_range, Function.comp_def]

/-- The next cycle of an MMA takes its operands from the scratchpad. -/
structure MmaRun.FromSpad (r : MmaRun) (spadSize : Nat) : Prop where
  a : ∀ i < 128, ∀ k < 64, InSpad (planOf (r.planA spadSize i k))
  b : ∀ j ∈ r.cols, ∀ k < 64, InSpad (planOf (r.planB spadSize k j))

theorem State.mmaWait_fromSpad (s : State) (b : Nat) {blk : Block} {r : MmaRun} (h : r.FromSpad blk.spadSize) :
    s.mmaWait b blk r = none := by
  refine s.spotsWait_inSpad b blk .read fun y hy => ?_
  obtain ⟨x, hx, hyx⟩ := List.mem_flatMap.mp hy
  have hplan : some x ∈ (r.plansA blk.spadSize).flatten ++ (r.plansB blk.spadSize).flatMap (·.2) := by
    simpa using hx
  rcases List.mem_append.mp hplan with hrow | hcol
  · obtain ⟨i, hi, k, hk, heq⟩ : ∃ i < 128, ∃ k < 64, planOf (r.planA blk.spadSize i k) = some x := by
      simpa [MmaRun.plansA, MmaRun.rowsA, upFrom_zero_eq_range] using hrow
    exact h.a i hi k hk x heq y hyx
  · obtain ⟨j, hj, k, hk, heq⟩ : ∃ j ∈ r.cols, ∃ k < 64, planOf (r.planB blk.spadSize k j) = some x := by
      simpa [MmaRun.plansB, MmaRun.colB, upFrom_zero_eq_range] using hcol
    exact h.b j hj k hk x heq y hyx

theorem MmaRun.mem_cols (r : MmaRun) (j : Nat) : j ∈ r.cols ↔ r.col ≤ j ∧ j < r.col + r.cols.length := by
  rw [MmaRun.cols, mem_upFrom, upFrom_length]

/-- The column after a cycle's last (R307). -/
theorem MmaRun.col_add_cols {r : MmaRun} (h : r.col < r.n) :
    r.col + r.cols.length = min r.n (r.col + min (wordCols (fwA r.fw)) (wordCols (fwB r.fw))) := by
  rw [MmaRun.cols, upFrom_length]
  omega

/-- The sequencer after a cycle: the accumulators of the cycle's columns are updated, and its claim is spent. -/
structure MmaRun.Cycled (r : MmaRun) (s : State) (b : Nat) (blk : Block) (q : Seq) : Prop where
  acc : ∀ j, ∀ i < 128, q.accAt (r.c0 + j) i = if j ∈ r.cols then
    (mUpdate (blk.seq.accAt (r.c0 + j) i) (lget [] (s.mmaRows b blk r) i) (s.mmaCol b blk r j)).1 else blk.seq.accAt (r.c0 + j) i
  pc : q.pc = blk.seq.pc
  paid : q.paid = false

/-- The bank conflicts that a cycle counts (R304). -/
def MmaRun.conflicts (r : MmaRun) (spadSize : Nat) : Nat :=
  (if r.col = 0 then ((upFrom 0 64).map fun k => bankConflicts (elSpots (columnOf (r.plansA spadSize) k))).foldl (· + ·) 0 else 0) +
    ((r.plansB spadSize).map fun x => bankConflicts (elSpots x.2)).foldl (· + ·) 0

/-- The sequencer after the columns of a cycle, and after the cycle. -/
def State.mmaSums (s : State) (b : Nat) (blk : Block) (r : MmaRun) : Seq :=
  r.cols.foldl (fun q j => q.mmaColumn (r.c0 + j) (s.mmaRows b blk r) (s.mmaCol b blk r j)) blk.seq
def State.mmaSeq (s : State) (b : Nat) (blk : Block) (r : MmaRun) : Seq :=
  { (s.mmaSums b blk r).addConflicts (r.conflicts blk.spadSize) with paid := false }

theorem State.onlyAcc_mmaSums (s : State) (b : Nat) (blk : Block) (r : MmaRun) : blk.seq.OnlyAcc (s.mmaSums b blk r) :=
  Seq.onlyAcc_mmaColumns r.c0 (s.mmaRows b blk r) (s.mmaCol b blk r) r.cols blk.seq

theorem State.accAt_mmaSums (s : State) (b : Nat) (blk : Block) (r : MmaRun) (j : Nat) {i : Nat} (hi : i < 128) :
    (s.mmaSums b blk r).accAt (r.c0 + j) i = if j ∈ r.cols then
      (mUpdate (blk.seq.accAt (r.c0 + j) i) (lget [] (s.mmaRows b blk r) i) (s.mmaCol b blk r j)).1
      else blk.seq.accAt (r.c0 + j) i := by
  rw [State.mmaSums, MmaRun.cols, Seq.accAt_mmaColumns r.c0 _ (s.mmaRows_length b blk r) _ _ _ j hi]
  exact if_congr (mem_upFrom ..).symm rfl rfl

theorem State.accAt_mmaSeq (s : State) (b : Nat) (blk : Block) (r : MmaRun) (c i : Nat) :
    (s.mmaSeq b blk r).accAt c i = (s.mmaSums b blk r).accAt c i := by
  simp only [Seq.accAt, State.mmaSeq, Seq.addConflicts]

theorem State.mmaSeq_cycled (s : State) (b : Nat) (blk : Block) (r : MmaRun) : r.Cycled s b blk (s.mmaSeq b blk r) where
  acc j i hi := by rw [State.accAt_mmaSeq, State.accAt_mmaSums s b blk r j hi]
  pc := by
    simp only [State.mmaSeq, Seq.addConflicts, (s.onlyAcc_mmaSums b blk r).pc]
  paid := by
    simp only [State.mmaSeq]

/-- A cycle whose operands all can be read: the last one frees the array. -/
theorem State.mmaCycle_ready (s : State) (core b : Nat) {blk : Block} {r : MmaRun} (price : Nat) (h : r.FromSpad blk.spadSize) :
    s.mmaCycle core b blk r price =
      if r.n ≤ r.col + r.cols.length then
        ((s.setCore core { s.core core with array := none }).onSeq b fun _ => { s.mmaSeq b blk r with mma := none }).seqNext b id
      else s.onSeq b fun _ => { s.mmaSeq b blk r with mma := some { r with col := r.col + r.cols.length } } := by
  have hfold : (r.plansB blk.spadSize).foldl (fun q x => q.mmaColumn (r.c0 + x.1) (s.mmaRows b blk r)
      (x.2.map (s.mmaElem b blk (fwB r.fw) (fwZb r.fw) r.binds.zcb))) blk.seq = s.mmaSums b blk r := by
    rw [MmaRun.plansB, List.foldl_map]
    rfl
  simp only [State.mmaCycle, s.mmaWait_fromSpad b h, State.mmaSeq, MmaRun.conflicts, ← hfold]
  rfl

theorem State.block_onSeq {s : State} {b : Nat} {blk : Block} (h : s.block? b = some blk) (f : Seq → Seq) :
    (s.onSeq b f).block? b = some { blk with seq := f blk.seq } := by
  rw [State.onSeq, State.onBlock_eq h, State.block_setBlock, if_pos rfl]

theorem State.core_onSeq (s : State) (b : Nat) (f : Seq → Seq) (n : Nat) : (s.onSeq b f).core n = s.core n := by
  rw [State.onSeq, s.onBlock_frame]
  rfl

section Cycle

variable {s : State} {core b : Nat} {blk : Block} {r : MmaRun} (harray : (s.core core).array = some b) (hblk : s.block? b = some blk)
  (hmma : blk.seq.mma = some r) (hpaid : blk.seq.paid = true) (hst : blk.seq.st = .mma) (hruns : blk.runs = true)
include harray hblk hmma hpaid hst hruns

theorem exec_arrayCycle_paid : ∃ (issue : Issue) (price : Nat),
    exec (.arrayCycle core) s = .next (State.mmaCycle { s with issue := some issue } core b blk r price) := by
  refine ⟨{ agent := .seq b, active := 0, price := s.priceOn core (max (s.cellPrice 9 (fwA r.fw)) (s.cellPrice 9 (fwB r.fw))) },
    s.priceOn core (max (s.cellPrice 9 (fwA r.fw)) (s.cellPrice 9 (fwB r.fw))), ?_⟩
  change execArrayCycle core s = _
  simp only [execArrayCycle, harray, hblk, Option.bind_some, Option.map_some, hmma, hpaid, hst, hruns, BEq.rfl, Bool.and_true, if_true]

/-- A paid cycle updates the accumulators of its columns; the last one of an MMA ends it and frees the array. -/
theorem arrayCycle_updates (h : r.FromSpad blk.spadSize) : ∃ t, exec (.arrayCycle core) s = .next t ∧ ∃ x,
    t.block? b = some x ∧ x.waves = blk.waves ∧
    (∀ j ∈ r.cols, ∀ i < 128, x.seq.accAt (r.c0 + j) i = (mUpdate (blk.seq.accAt (r.c0 + j) i)
      ((List.range 64).map fun k => s.mmaElem b blk (fwA r.fw) (fwZa r.fw) r.binds.zca (planOf (r.planA blk.spadSize i k)))
      ((List.range 64).map fun k => s.mmaElem b blk (fwB r.fw) (fwZb r.fw) r.binds.zcb (planOf (r.planB blk.spadSize k j)))).1) ∧
    (r.n ≤ r.col + r.cols.length →
      x.seq.mma = none ∧ x.seq.st = .running ∧ x.seq.pc = succPc blk.seq.pc ∧ (t.core core).array = none) ∧
    (r.col + r.cols.length < r.n → x.seq.mma = some { r with col := r.col + r.cols.length } ∧ x.seq.paid = false) := by
  obtain ⟨issue, price, hexec⟩ := exec_arrayCycle_paid harray hblk hmma hpaid hst hruns
  obtain ⟨u, hu⟩ : ∃ u : State, u = { s with issue := some issue } := ⟨_, rfl⟩
  rw [← hu, u.mmaCycle_ready core b price h] at hexec
  have hublk : u.block? b = some blk := by
    rw [hu]
    exact hblk
  obtain ⟨q, hq⟩ : ∃ q, q = u.mmaSeq b blk r := ⟨_, rfl⟩
  have hcycled := hq ▸ u.mmaSeq_cycled b blk r
  rw [← hq] at hexec
  have hacc : ∀ j ∈ r.cols, ∀ i < 128, q.accAt (r.c0 + j) i = (mUpdate (blk.seq.accAt (r.c0 + j) i)
      ((List.range 64).map fun k => s.mmaElem b blk (fwA r.fw) (fwZa r.fw) r.binds.zca (planOf (r.planA blk.spadSize i k)))
      ((List.range 64).map fun k => s.mmaElem b blk (fwB r.fw) (fwZb r.fw) r.binds.zcb (planOf (r.planB blk.spadSize k j)))).1 := by
    intro j hj i hi
    rw [hcycled.acc j i hi, if_pos hj, u.lget_mmaRows b blk r hi, u.mmaCol_eq]
    have ha (k : Nat) (hk : k ∈ List.range 64) := State.mmaElem_inSpad u s b blk (fwA r.fw) (fwZa r.fw) r.binds.zca
      (h.a i hi k (List.mem_range.mp hk))
    have hb (k : Nat) (hk : k ∈ List.range 64) := State.mmaElem_inSpad u s b blk (fwB r.fw) (fwZb r.fw) r.binds.zcb
      (h.b j hj k (List.mem_range.mp hk))
    rw [List.map_congr_left ha, List.map_congr_left hb]
  by_cases hlast : r.n ≤ r.col + r.cols.length
  · rw [if_pos hlast] at hexec
    have hdone : (u.setCore core { u.core core with array := none }).block? b = some blk := hublk
    refine ⟨_, hexec, _, State.block_onSeq (State.block_onSeq hdone _) _, rfl, hacc, fun _ => ⟨rfl, rfl, ?_, ?_⟩,
      fun hmore => absurd hlast (Nat.not_le.mpr hmore)⟩
    · exact congrArg succPc hcycled.pc
    · rw [State.seqNext, State.core_onSeq, State.core_onSeq, State.core_setCore, if_pos rfl]
  · rw [if_neg hlast] at hexec
    exact ⟨_, hexec, _, State.block_onSeq hublk _, rfl, hacc, fun hdone => absurd hdone hlast, fun _ => ⟨rfl, hcycled.paid⟩⟩

end Cycle

end Sys2Proof.Machine
end

section
/-! SUPPORT. Merge tables and fault records, the driver's answers and invalidations, and the notices of other packages (R233 to R236,
R249, R250). -/

namespace Sys2Proof.Machine

/-! ### The tables -/

theorem State.mergeTable_setMergeTable {s : State} (hdies : s.dies.length = 8) {n m : Nat} (hn : n < 9) (hm : m < 9)
    (l : List MergeEntry) : (s.setMergeTable n l).mergeTable m = if m = n then l else s.mergeTable m := by
  by_cases hn8 : n < 8
  · simp only [State.setMergeTable, State.mergeTable, hn8, if_true, State.die_setDie s n m _ (by omega)]
    by_cases hmn : m = n
    · simp only [hmn, hn8, if_true]
    · simp only [hmn, if_false]
      rfl
  · have hn' : n = 8 := by omega
    simp only [State.setMergeTable, State.mergeTable, hn8, if_false]
    by_cases hm8 : m < 8
    · rw [if_pos hm8, if_neg (by omega), if_pos hm8]
      rfl
    · rw [if_neg hm8, if_pos (by omega)]

/-- Storing a table as it is changes nothing. -/
theorem State.setMergeTable_self {s : State} (hdies : s.dies.length = 8) (n : Nat) : s.setMergeTable n (s.mergeTable n) = s := by
  unfold State.setMergeTable State.mergeTable
  split
  · next hn =>
    have hget : s.dies[n]? = some (s.die n) := by
      rw [State.die, lget_eq_getD, List.getD_eq_getElem _ _ (by omega), List.getElem?_eq_getElem (by omega)]
    have hdie : { s.die n with merge := (s.die n).merge } = s.die n := rfl
    rw [hdie, State.setDie, lset_getElem_self hget]
  · rfl

/-! ### FAULT_RECORD_EMIT (R235) -/

theorem exec_faultRecordEmit_stays {s : State} (h : s.faultWait = [] ∨ s.ringFull = true) : exec .faultRecordEmit s = .next s := by
  change execFaultRecordEmit s = _
  rw [execFaultRecordEmit, State.emitOne]
  split
  · rfl
  · next r rest hwait =>
    rw [if_pos (h.resolve_left (by rw [hwait]; exact List.cons_ne_nil _ _))]

theorem State.homeNat_congr {s t : State} (h : t.mem = s.mem) (sa n : Nat) : t.homeNat sa n = s.homeNat sa n := by
  have hbyte : t.homeByte = s.homeByte := by
    funext a
    rw [State.homeByte, State.homeByte, h]
  rw [State.homeNat, State.homeNat, State.homeBytes, State.homeBytes, hbyte]

/-- Marking a record's entry leaves the memory and the package's registers. -/
theorem State.setMergeTable_pkg (s : State) (n : Nat) (l : List MergeEntry) : (s.setMergeTable n l).pkg = s.pkg := by
  unfold State.setMergeTable
  split <;> rfl

theorem State.interrupt_faultWait (s : State) (vec : Nat) : (s.interrupt vec).faultWait = s.faultWait := by
  unfold State.interrupt
  split <;> rfl

theorem State.interrupt_fltTail (s : State) (vec : Nat) : (s.interrupt vec).pkg.fltTail = s.pkg.fltTail := by
  unfold State.interrupt
  split <;> rfl

/-- The oldest record enters the ring at its tail. -/
theorem faultRecordEmit_writes {s : State} {r : FaultRec} {rest : List FaultRec} (hwait : s.faultWait = r :: rest)
    (hroom : s.ringFull = false) : ∃ t, exec .faultRecordEmit s = .next t ∧ t.faultWait = rest ∧
      t.pkg.fltTail = s.pkg.fltTail + 1 ∧
      t.homeNat (storageOf (bits s.pkg.fltRing.toNat 12 30 * 4096 + 16 * (s.pkg.fltTail.toNat % s.ringCap))) 16 =
        r.encode s.pkg.fltTail.toNat % 2 ^ 128 := by
  obtain ⟨pa, hpa⟩ : ∃ pa, pa =
      storageOf (bits s.pkg.fltRing.toNat 12 30 * 4096 + 16 * (s.pkg.fltTail.toNat % s.ringCap)) := ⟨_, rfl⟩
  obtain ⟨u, hu⟩ : ∃ u, u = s.homeWrite pa (bytesOf 16 (r.encode s.pkg.fltTail.toNat)) := ⟨_, rfl⟩
  obtain ⟨v, hv⟩ : ∃ v, v = if 8 < r.table then u
    else u.setMergeTable r.table (markReported r.ctx (granuleOf r.va) (u.mergeTable r.table)) := ⟨_, rfl⟩
  have hkept : v.mem = u.mem ∧ v.pkg = s.pkg := by
    have hpkg : u.pkg = s.pkg := by rw [hu, State.homeWrite_frame]
    rw [hv]
    split
    · exact ⟨rfl, hpkg⟩
    · exact ⟨State.setMergeTable_mem _ _ _, (State.setMergeTable_pkg _ _ _).trans hpkg⟩
  obtain ⟨hmem, hpkg⟩ := hkept
  obtain ⟨w, hw⟩ : ∃ w, w = { v with faultWait := rest, pkg := { v.pkg with fltTail := v.pkg.fltTail + 1 } } := ⟨_, rfl⟩
  have hexec : exec .faultRecordEmit s = .next (w.interrupt 0) := by
    change execFaultRecordEmit s = _
    simp only [execFaultRecordEmit, State.emitOne, hwait, hroom, Bool.false_eq_true, if_false, ← hpa, ← hu, ← hv, ← hw]
  have hwmem : w.mem = u.mem := by rw [hw, hmem]
  refine ⟨_, hexec, ?_, ?_, ?_⟩
  · rw [State.interrupt_faultWait, hw]
  · rw [State.interrupt_fltTail, hw, hpkg]
  · rw [← hpa, State.homeNat_congr ((w.interrupt_mem 0).trans hwmem), hu, State.homeNat_homeWrite]

/-! ### TRN_RESOLVE (R236) -/

/-- No access waits on the entries of a key. -/
def State.NoneWaits (s : State) (ctx g : Nat) : Prop :=
  ∀ n < 9, ∀ e ∈ s.mergeTable n, e.ctx = ctx → e.granule = g → e.waiters = []

/-- An entry of another key. -/
def otherKey (ctx g : Nat) (e : MergeEntry) : Bool := !(e.ctx == ctx && e.granule == g)

/-- No block, no arrived request and no access in a die's FIFO waits for a home. -/
structure Idle (s : State) : Prop where
  fifo : ∀ d, (s.die d).fifo = []
  reorder : s.reorder = []
  blocks : s.blocks = []
  dies : s.dies.length = 8

theorem Idle.setDie {s : State} (h : Idle s) {n : Nat} (hn : n < 8) {d : Die} (hd : d.fifo = []) : Idle (s.setDie n d) where
  fifo m := by
    rw [State.die_setDie s n m d (by rw [h.dies]; exact hn)]
    split
    · exact hd
    · exact h.fifo m
  reorder := h.reorder
  blocks := h.blocks
  dies := (lset_length _ _ _).trans h.dies

theorem Idle.setMergeTable {s : State} (h : Idle s) (n : Nat) (l : List MergeEntry) : Idle (s.setMergeTable n l) := by
  unfold State.setMergeTable
  split
  · next h8 => exact h.setDie h8 (h.fifo n)
  · exact ⟨h.fifo, h.reorder, h.blocks, h.dies⟩

/-- A state that differs in its command queues, its waiting records and its fatal scale-out answers. -/
theorem Idle.of_frame {s t : State} (h : Idle s) (hdies : t.dies = s.dies) (hreorder : t.reorder = s.reorder)
    (hblocks : t.blocks = s.blocks) : Idle t where
  fifo d := by
    rw [State.die, hdies]
    exact h.fifo d
  reorder := hreorder.trans h.reorder
  blocks := hblocks.trans h.blocks
  dies := by rw [hdies, h.dies]

theorem State.mergeTable_congr {s t : State} (hdies : t.dies = s.dies) (hio : t.ioMerge = s.ioMerge) (n : Nat) :
    t.mergeTable n = s.mergeTable n := by
  rw [State.mergeTable, State.mergeTable, State.die, State.die, hdies, hio]

section Resolve

variable {s : State} (hidle : Idle s) {ctx g : Nat}
include hidle

/-- An answer frees the entries of its key in a table, where none waits on them. -/
theorem Idle.resolveTable (hnone : s.NoneWaits ctx g) (fatal : Bool) {t : Nat} (ht : t < 9) :
    Idle (s.resolveTable ctx g fatal t) ∧ ∀ n < 9, (s.resolveTable ctx g fatal t).mergeTable n =
      if n = t then (s.mergeTable t).filter (otherKey ctx g) else s.mergeTable n := by
  have hown {e : MergeEntry} : (e.ctx == ctx && e.granule == g) = true ↔ e.ctx = ctx ∧ e.granule = g := by
    rw [Bool.and_eq_true, beq_iff_eq, beq_iff_eq]
  by_cases hany : (s.mergeTable t).any (fun e => e.ctx == ctx && e.granule == g) = true
  · have hwaiters : ((s.mergeTable t).filter fun e => e.ctx == ctx && e.granule == g).flatMap (·.waiters) = [] := by
      refine List.flatMap_eq_nil_iff.mpr fun e he => ?_
      obtain ⟨hmem, hkey⟩ := List.mem_filter.mp he
      obtain ⟨hctx, hgranule⟩ := hown.mp hkey
      exact hnone t ht e hmem hctx hgranule
    obtain ⟨u, hu⟩ : ∃ u, u = s.setMergeTable t ((s.mergeTable t).filter (otherKey ctx g)) := ⟨_, rfl⟩
    have hframe : (s.resolveTable ctx g fatal t).dies = u.dies ∧ (s.resolveTable ctx g fatal t).ioMerge = u.ioMerge ∧
        (s.resolveTable ctx g fatal t).reorder = u.reorder ∧ (s.resolveTable ctx g fatal t).blocks = u.blocks := by
      rw [hu]
      simp only [State.resolveTable, hany, Bool.not_true, Bool.false_eq_true, if_false, hwaiters, List.foldl_nil]
      split <;> exact ⟨rfl, rfl, rfl, rfl⟩
    obtain ⟨hdies, hio, hreorder, hblocks⟩ := hframe
    refine ⟨(hu ▸ hidle.setMergeTable t _).of_frame hdies hreorder hblocks, fun n hn => ?_⟩
    rw [State.mergeTable_congr hdies hio, hu, State.mergeTable_setMergeTable hidle.dies ht hn]
  · have hsame : s.resolveTable ctx g fatal t = s := by simp only [State.resolveTable, hany, Bool.not_false, if_true]
    have hkeep : (s.mergeTable t).filter (otherKey ctx g) = s.mergeTable t := by
      refine List.filter_eq_self.mpr fun e he => ?_
      rw [Bool.not_eq_true, List.any_eq_false] at hany
      rw [otherKey, Bool.not_eq_true', ← Bool.not_eq_true]
      exact hany e he
    rw [hsame, hkeep]
    refine ⟨hidle, fun n _ => ?_⟩
    split
    · next hn => rw [hn]
    · rfl

theorem Idle.resolveTables (hnone : s.NoneWaits ctx g) (fatal : Bool) {l : List Nat} (hl : ∀ t ∈ l, t < 9) :
    Idle (l.foldl (fun s t => s.resolveTable ctx g fatal t) s) ∧ ∀ n < 9,
      (l.foldl (fun s t => s.resolveTable ctx g fatal t) s).mergeTable n =
        if n ∈ l then (s.mergeTable n).filter (otherKey ctx g) else s.mergeTable n := by
  induction l generalizing s with
  | nil => exact ⟨hidle, fun n _ => (if_neg List.not_mem_nil).symm⟩
  | cons t l ih =>
    obtain ⟨hnext, htable⟩ := hidle.resolveTable hnone fatal (hl t List.mem_cons_self)
    have hnone' : (s.resolveTable ctx g fatal t).NoneWaits ctx g := by
      intro n hn e he
      rw [htable n hn] at he
      split at he
      · next hnt => exact hnone n hn e (by rw [hnt]; exact List.mem_of_mem_filter he)
      · exact hnone n hn e he
    obtain ⟨hlast, hrest⟩ := ih hnext hnone' fun x hx => hl x (List.mem_cons_of_mem _ hx)
    refine ⟨hlast, fun n hn => ?_⟩
    rw [List.foldl_cons, hrest n hn, htable n hn]
    by_cases hnt : n = t
    · simp [hnt, List.filter_filter]
    · simp [hnt]

theorem Idle.drainFifo {d : Nat} (hd : d < 8) : Idle (s.drainFifo d) ∧ ∀ n < 9, (s.drainFifo d).mergeTable n = s.mergeTable n := by
  have hdrain : s.drainFifo d = (s.setDie d { s.die d with fifo := [] }).wakeHomes := by
    simp only [State.drainFifo, hidle.fifo d, List.foldl_nil]
    rw [State.deliverWaiting, show (s.setDie d { s.die d with fifo := [] }).reorder = [] from hidle.reorder]
    rfl
  have hset := hidle.setDie hd (d := { s.die d with fifo := [] }) rfl
  have hwake (u : State) (hu : Idle u) : u.wakeHomes.dies = u.dies ∧ u.wakeHomes.ioMerge = u.ioMerge ∧
      u.wakeHomes.reorder = u.reorder ∧ u.wakeHomes.blocks = u.blocks := by
    simp [State.wakeHomes, State.onBlocks, hu.blocks]
  obtain ⟨hdies, hio, hreorder, hblocks⟩ := hwake _ hset
  rw [hdrain]
  refine ⟨hset.of_frame hdies hreorder hblocks, fun n _ => (State.mergeTable_congr hdies hio n).trans ?_⟩
  rw [State.mergeTable, State.mergeTable]
  split
  · rw [State.die_setDie s d n _ (by rw [hidle.dies]; exact hd)]
    split
    · next hnd => rw [hnd]
    · rfl
  · rfl

theorem Idle.drainFifos (l : List Nat) (hl : ∀ d ∈ l, d < 8) :
    ∀ n < 9, (l.foldl (fun s d => s.drainFifo d) s).mergeTable n = s.mergeTable n := by
  induction l generalizing s with
  | nil => exact fun _ _ => rfl
  | cons d l ih =>
    obtain ⟨hnext, htable⟩ := hidle.drainFifo (hl d List.mem_cons_self)
    intro n hn
    rw [List.foldl_cons, ih hnext (fun x hx => hl x (List.mem_cons_of_mem _ hx)) n hn, htable n hn]

/-- The driver's answer frees the entries of its key in every table. -/
theorem trnResolve_frees {v : Dword} (hstatus : bits v.toNat 62 2 < 2)
    (hnone : s.NoneWaits (bits v.toNat 8 8) (bits v.toNat 16 41)) : ∃ t, exec (.trnResolve v) s = .next t ∧
      ∀ n < 9, t.mergeTable n = (s.mergeTable n).filter (otherKey (bits v.toNat 8 8) (bits v.toNat 16 41)) := by
  have hnine {t : Nat} (ht : t ∈ upFrom 0 9) : t < 9 := by
    have := (mem_upFrom ..).mp ht
    omega
  have height {t : Nat} (ht : t ∈ upFrom 0 8) : t < 8 := by
    have := (mem_upFrom ..).mp ht
    omega
  obtain ⟨hresolved, htable⟩ := hidle.resolveTables hnone (bits v.toNat 62 2 == 1) fun _ => hnine
  have hexec : exec (.trnResolve v) s = .next (State.drainFifos ((upFrom 0 9).foldl
      (fun s t => s.resolveTable (bits v.toNat 8 8) (bits v.toNat 16 41) (bits v.toNat 62 2 == 1) t) s)) := by
    change execTrnResolve v s = _
    simp only [execTrnResolve, if_neg (Nat.not_le.mpr hstatus)]
  refine ⟨_, hexec, fun n hn => ?_⟩
  rw [State.drainFifos, hresolved.drainFifos _ (fun _ => height) n hn, htable n hn, if_pos ((mem_upFrom ..).mpr (by omega))]

end Resolve

theorem exec_trnResolve_stays {v : Dword} (h : 2 ≤ bits v.toNat 62 2) (s : State) : exec (.trnResolve v) s = .next s := by
  change execTrnResolve v s = _
  simp only [execTrnResolve, if_pos h]


/-! ### TRN_INVAL (R249) -/

/-- No block of a context is resident, and no access of it waits in a merge table. -/
structure Alone (s : State) (ctx : Nat) : Prop where
  dies : s.dies.length = 8
  blocks : ∀ p ∈ s.blocks, p.2.ctx ≠ ctx
  tables : ∀ n < 9, ∀ e ∈ s.mergeTable n, e.ctx = ctx → e.waiters = []

/-- Steps that each leave a state as it is. -/
theorem foldl_eq_self {α β : Type} {f : β → α → β} {a : β} {l : List α} (h : ∀ x ∈ l, f a x = a) : l.foldl f a = a := by
  induction l with
  | nil => rfl
  | cons x l ih => rw [List.foldl_cons, h x List.mem_cons_self, ih fun y hy => h y (List.mem_cons_of_mem _ hy)]

section Inval

variable {s : State} {v : Dword} (h : Alone s (bits v.toNat 8 8))
include h

theorem Alone.invalWave (b i : Nat) : s.invalWave v (bits v.toNat 8 8) b i = s := by
  unfold State.invalWave
  split
  · next blk w hb _ => rw [if_pos (h.blocks (b, blk) (mem_of_tfind hb))]
  · rfl

theorem Alone.invalTable {n : Nat} (hn : n < 9) : s.invalTable v n = s := by
  have hctx {e : MergeEntry} (he : (e.ctx == bits v.toNat 8 8 && invalCovers v (e.granule * 65536)) = true) :
      e.ctx = bits v.toNat 8 8 := eq_of_beq (Bool.and_eq_true_iff.mp he).1
  have hkeep : ((s.mergeTable n).map fun e => if e.ctx == bits v.toNat 8 8 && invalCovers v (e.granule * 65536) then
      { e with waiters := e.waiters.filter (s.staysLinked (bits v.toNat 8 8) e.granule) } else e) = s.mergeTable n := by
    refine (List.map_congr_left fun e he => ?_).trans (List.map_id _)
    split
    · next hmine =>
      have hnone := h.tables n hn e he (hctx hmine)
      rw [hnone, List.filter_nil, ← hnone]
      rfl
    · rfl
  rw [State.invalTable]
  simp only [hkeep, State.setMergeTable_self h.dies]
  refine foldl_eq_self fun e he => ?_
  obtain ⟨hmem, hmine⟩ := List.mem_filter.mp he
  rw [h.tables n hn e hmem (hctx hmine)]
  rfl

theorem Alone.invalAll : s.invalAll v = s := by
  have hwaves : s.blocks.foldl (fun s p =>
      (upFrom 0 p.2.waves.length).foldl (fun s i => s.invalWave v (bits v.toNat 8 8) p.1 i) s) s = s :=
    foldl_eq_self fun p _ => foldl_eq_self fun i _ => h.invalWave p.1 i
  simp only [State.invalAll, hwaves]
  exact foldl_eq_self fun n hn => h.invalTable (by have := (mem_upFrom ..).mp hn; omega)

end Inval

/-- An invalidation runs where its context has no block here: only its own end is due. -/
theorem exec_trnInval_alone {s : State} {v : Dword} (hgo : v.getLsbD 63 = true) (hdone : s.pkg.invalDone = true)
    (h : Alone s (bits v.toNat 8 8)) : exec (.trnInval v) s = .next { s with
      pkg := { s.pkg with invalDone := false, inval := v }, inbox := s.inbox ++ [(s.clk.toNat, Instr.trnInvalDone)] } := by
  have hstart : Alone { s with pkg := { s.pkg with invalDone := false, inval := v } } (bits v.toNat 8 8) := ⟨h.dies, h.blocks, h.tables⟩
  change execTrnInval v s = _
  rw [execTrnInval, hgo, hdone, hstart.invalAll]
  rfl

theorem exec_trnInval_stays {s : State} {v : Dword} (h : v.getLsbD 63 = false ∨ s.pkg.invalDone = false) :
    exec (.trnInval v) s = .next s := by
  change execTrnInval v s = _
  rw [execTrnInval, if_pos]
  rcases h with h | h
  · rw [h]
    rfl
  · rw [h, Bool.not_false, Bool.or_true]

theorem exec_trnInvalDone_stays {s : State} (h : s.pkg.invalDone = true) : exec .trnInvalDone s = .next s := by
  change execTrnInvalDone s = _
  rw [execTrnInvalDone, if_pos h]

theorem exec_trnInvalDone_alone {s : State} (hdone : s.pkg.invalDone = false) (h : Alone s (bits s.pkg.inval.toNat 8 8)) :
    exec .trnInvalDone s = .next { s with pkg := { s.pkg with invalDone := true } } := by
  change execTrnInvalDone s = _
  simp only [execTrnInvalDone, hdone, Bool.false_eq_true, if_false, h.invalAll]

/-! ### FAULT_NOTICE (R250) -/

theorem exec_faultNotice_stays {s : State} {src : Nat} {n : NoticeOf} (h : ownerOf (n.granule * 65536) ≠ src ∨ src = s.pkgNo)
    (fatal : Bool) : exec (.faultNotice src n fatal) s = .next s := by
  change execFaultNotice src n fatal s = _
  rw [execFaultNotice, if_pos h]

/-- A package without command queues: a notice meets its blocks, then its engines. -/
theorem exec_faultNotice_here {s : State} {src : Nat} {n : NoticeOf} {fatal : Bool} {u : State}
    (howner : ownerOf (n.granule * 65536) = src) (hother : src ≠ s.pkgNo)
    (hblocks : s.blocks.foldl (fun s p => s.noticeBlock n fatal p) s = u) (hhwqs : u.hwqs = []) :
    exec (.faultNotice src n fatal) s = .next (u.noticeEngines n fatal) := by
  have hneither : ¬ (ownerOf (n.granule * 65536) ≠ src ∨ src = s.pkgNo) := by tauto
  have hqueues : (u.noticeEngines n fatal).hwqs = [] := hhwqs
  change execFaultNotice src n fatal s = _
  simp only [execFaultNotice, if_neg hneither, hblocks, hqueues, List.foldl_nil]

theorem tget_map_snd {α : Type} {d : α} {f : α → α} (hd : f d = d) (t : Tbl α) (n : Nat) :
    tget d (t.map fun p => (p.1, f p.2)) n = f (tget d t n) := by
  induction t with
  | nil => exact hd.symm
  | cons p t ih =>
    obtain ⟨k, x⟩ := p
    simp only [List.map_cons, tget, ih]
    split <;> rfl

/-- What a queue's head hears from a notice. -/
def State.hear (s : State) (n : NoticeOf) (fatal : Bool) (e : ReEntry) : ReEntry :=
  if s.hasJob e.ctx n.job then e.answer e.ctx n.granule fatal else e

theorem lget_map_default {α β : Type} {d : α} {d' : β} {f : α → β} (hd : f d = d') (l : List α) (n : Nat) :
    lget d' (l.map f) n = f (lget d l n) := by
  rw [lget_eq_getD, lget_eq_getD, ← hd, List.getD_map]

theorem State.noticeEngines_cores (s : State) (n : NoticeOf) (fatal : Bool) : (s.noticeEngines n fatal).cores =
    s.cores.map fun c => (c.1, { c.2 with reQueues := c.2.reQueues.map (List.modifyHead (s.hear n fatal)) }) := by
  refine List.map_congr_left fun c _ => ?_
  refine congrArg (fun l => (c.1, { c.2 with reQueues := l })) (List.map_congr_left fun l _ => ?_)
  cases l with
  | nil => rfl
  | cons e t => rfl

theorem State.head?_noticeEngines (s : State) (n : NoticeOf) (fatal : Bool) (core q : Nat) :
    (s.noticeEngines n fatal).head? core q = (s.head? core q).map (s.hear n fatal) := by
  have hcore : (s.noticeEngines n fatal).core core =
      { s.core core with reQueues := (s.core core).reQueues.map (List.modifyHead (s.hear n fatal)) } := by
    rw [State.core, State.noticeEngines_cores]
    exact tget_map_snd (f := fun c : Core => { c with reQueues := c.reQueues.map (List.modifyHead (s.hear n fatal)) }) rfl _ _
  have hqueue := lget_map_default (d := []) (d' := []) (f := List.modifyHead (s.hear n fatal)) rfl (s.core core).reQueues q
  rw [State.head?, hcore, hqueue, List.head?_modifyHead]
  rfl

/-- An entry that waits for a granule hears of it. -/
theorem faultNotice_answers {s : State} {src : Nat} {n : NoticeOf} {fatal : Bool} (howner : ownerOf (n.granule * 65536) = src)
    (hother : src ≠ s.pkgNo) (hhwqs : s.hwqs = []) (hblocks : s.blocks = []) {core q : Nat} {e : ReEntry}
    (he : s.head? core q = some e) (hheld : e.held = some n.granule) (hjob : s.hasJob e.ctx n.job = true) :
    ∃ t, exec (.faultNotice src n fatal) s = .next t ∧ t.head? core q = some { e with held := none, fatal := e.fatal || fatal } := by
  refine ⟨_, exec_faultNotice_here howner hother (by rw [hblocks]; rfl) hhwqs, ?_⟩
  rw [State.head?_noticeEngines, he, Option.map_some, State.hear, if_pos hjob, ReEntry.answer, if_pos ⟨hheld, rfl⟩]

/-- A wave that waits for a granule goes on. -/
theorem faultNotice_releases {s : State} {src : Nat} {n : NoticeOf} (howner : ownerOf (n.granule * 65536) = src)
    (hother : src ≠ s.pkgNo) (hhwqs : s.hwqs = []) {b : Nat} {x : Block} {w : Wave} (hblocks : s.blocks = [(b, x)])
    (hwaves : x.waves = [w]) (hstopped : x.stopped = none) (hjob : s.hasJob x.ctx n.job = true)
    (hpend : w.pend = []) (hgoing : ∃ l ∈ w.lanes, l.isExited = false) :
    ∃ t, exec (.faultNotice src n false) s = .next t ∧
      t.wave? b 0 = some { w with held := w.held.filter fun h => !s.noticed n h } := by
  obtain ⟨l, hl, hexited⟩ := hgoing
  obtain ⟨j, hj, hjl⟩ := List.getElem_of_mem hl
  have hb : s.block? b = some x := by
    rw [State.block?, hblocks]
    exact if_pos rfl
  have hw : x.wave? 0 = some w := by
    rw [Block.wave?, hwaves]
    rfl
  have hlane : (w.lane j).isExited = false := by
    rw [Wave.lane, lget_eq_getD, List.getD_eq_getElem _ _ hj, hjl, hexited]
  have hrelease := State.releaseHeld_of_idle hb hw hpend hlane (s.noticed n)
  have hfold : (upFrom 0 x.waves.length).foldl (fun s i => s.releaseHeld b i (s.noticed n)) s =
      s.setWave b 0 { w with held := w.held.filter fun h => !s.noticed n h } := by
    rw [hwaves]
    exact hrelease
  obtain ⟨u, hu⟩ : ∃ u, u = s.setWave b 0 { w with held := w.held.filter fun h => !s.noticed n h } := ⟨_, rfl⟩
  have hnotice : s.blocks.foldl (fun s p => s.noticeBlock n false p) s = u.onSeq b fun q => q.unhold (· == n.granule) := by
    rw [hblocks, List.foldl_cons, List.foldl_nil, State.noticeBlock]
    simp only [hstopped, hjob, hfold, hu, Option.isSome_none, Bool.not_true, Bool.false_eq_true, or_self, if_false, Bool.false_and]
  refine ⟨_, exec_faultNotice_here howner hother hnotice ?_, ?_⟩
  · rw [hu, State.onSeq, State.onBlock_frame, State.setWave_frame]
    exact hhwqs
  · have hub : u.block? b = some (x.setWave 0 { w with held := w.held.filter fun h => !s.noticed n h }) := by
      rw [hu, State.block_setWave hb]
    change ((u.onSeq b fun q => q.unhold (· == n.granule)).block? b).bind (·.wave? 0) = _
    rw [State.block_onSeq hub, Option.bind_some]
    exact Block.wave_setWave hw _

end Sys2Proof.Machine
end

section
/-! SUPPORT. O56: the cores, their engine queues, their arrays and the merge tables between instructions. -/

namespace Sys2Proof.Machine

/-- One array cycle in the terms of O56: the columns that it updates, and whether it is the MMA's last. -/
theorem arrayCycle_leads {s : State} {core b : Nat} {blk : Block} {r : MmaRun} (harray : (s.core core).array = some b)
    (hblk : s.block? b = some blk) (hmma : blk.seq.mma = some r) (hpaid : blk.seq.paid = true) (hst : blk.seq.st = .mma)
    (hruns : blk.runs = true) (hcol : r.col < r.n) {last : Nat}
    (hlast : last = min r.n (r.col + min (wordCols (fwA r.fw)) (wordCols (fwB r.fw))))
    (ha : ∀ i < 128, ∀ k < 64, InSpad (planOf (r.planA blk.spadSize i k)))
    (hb : ∀ j, r.col ≤ j → j < last → ∀ k < 64, InSpad (planOf (r.planB blk.spadSize k j))) :
    ∃ t, exec (.arrayCycle core) s = .next t ∧ ∃ x, t.block? b = some x ∧ x.waves = blk.waves ∧
      (∀ j, r.col ≤ j → j < last → ∀ i < 128, x.seq.accAt (r.c0 + j) i = (mUpdate (blk.seq.accAt (r.c0 + j) i)
        ((List.range 64).map fun k => s.mmaElem b blk (fwA r.fw) (fwZa r.fw) r.binds.zca (planOf (r.planA blk.spadSize i k)))
        ((List.range 64).map fun k => s.mmaElem b blk (fwB r.fw) (fwZb r.fw) r.binds.zcb (planOf (r.planB blk.spadSize k j)))).1) ∧
      (last = r.n → x.seq.mma = none ∧ x.seq.st = .running ∧ x.seq.pc = succPc blk.seq.pc ∧ (t.core core).array = none) ∧
      (last < r.n → x.seq.mma = some { r with col := last } ∧ x.seq.paid = false) := by
  rw [← MmaRun.col_add_cols hcol] at hlast
  have hmem (j : Nat) : j ∈ r.cols ↔ r.col ≤ j ∧ j < last := by rw [MmaRun.mem_cols, hlast]
  have hspad : r.FromSpad blk.spadSize := ⟨ha, fun j hj => hb j ((hmem j).mp hj).1 ((hmem j).mp hj).2⟩
  obtain ⟨t, hexec, x, hx, hwaves, hacc, hend, hmore⟩ := arrayCycle_updates harray hblk hmma hpaid hst hruns hspad
  rw [← hlast] at hend hmore
  exact ⟨t, hexec, x, hx, hwaves, fun j hlo hhi => hacc j ((hmem j).mpr ⟨hlo, hhi⟩), fun h => hend h.ge, hmore⟩

/-- The ring's sequence number in a record is its tail of 32 bits. -/
theorem FaultRec.encode_toNat (r : FaultRec) (tail : Word) : r.encode tail.toNat =
    r.va % 2 ^ 57 * 2 ^ 71 + tail.toNat * 2 ^ 32 + r.srcPkg * 2 ^ 20 + r.ctx * 2 ^ 12 + r.kind * 2 ^ 8 + r.access * 2 ^ 4 +
      r.level * 4 + (if r.remote then 2 else 0) := by
  rw [FaultRec.encode, Nat.mod_eq_of_lt tail.isLt]

/-- The wave of O56's notice: its holds that the notice names are gone, the others stand. -/
theorem faultNotice_releases_iff {s : State} {src : Nat} {n : NoticeOf} (howner : ownerOf (n.granule * 65536) = src)
    (hother : src ≠ s.pkgNo) (hhwqs : s.hwqs = []) {b : Nat} {x : Block} {w : Wave} (hblocks : s.blocks = [(b, x)])
    (hwaves : x.waves = [w]) (hstopped : x.stopped = none) (hjob : (s.ctx x.ctx).fabric.setWidth 16 = n.job) (hpend : w.pend = [])
    (hgoing : ∃ l ∈ w.lanes, l.isExited = false) : ∃ t, exec (.faultNotice src n false) s = .next t ∧
      ∃ w', t.wave? b 0 = some w' ∧ w' = { w with held := w'.held } ∧ ∀ h, h ∈ w'.held ↔
        h ∈ w.held ∧ ¬ (h.remote = true ∧ h.granule = n.granule ∧ (s.ctx h.ctx).fabric.setWidth 16 = n.job) := by
  obtain ⟨t, hexec, hw⟩ :=
    faultNotice_releases howner hother hhwqs hblocks hwaves hstopped (beq_iff_eq.mpr hjob) hpend hgoing
  refine ⟨t, hexec, _, hw, rfl, fun h => ?_⟩
  simp only [List.mem_filter, State.noticed, State.hasJob, Bool.not_eq_true', ← Bool.not_eq_true, Bool.and_eq_true, beq_iff_eq,
    and_assoc]

/-- Settles O56: each event by the lemma on what it does. -/
theorem coreEvents : Obligations.CoreEvents := by
  unfold Obligations.CoreEvents
  intro s core q c stays leads alone
  refine ⟨exec_promote_of_none, fun p rest => promote_serves, fun r h => exec_promote_unserved h core, exec_promoLogAgeEvict_young,
    fun e rest => promoLogAgeEvict_frees, ?_, selftestGranuleEnd_ends, fun m id => qfenceRelease_leaves, ?_, ?_,
    exec_arrayCycle_idle, ?_, exec_arraySelect_taken, fun x => arraySelect_takes, lineWritebackDeadline_writes s core,
    exec_faultRecordEmit_stays, ?_, ?_, exec_trnInvalDone_stays, ?_, ?_⟩
  · intro k b i l w hruns hres hclaims hlt hre hagent hfree hcells hstands hw
    exact ⟨tokenClaimService_pays hruns hres hclaims hlt hre hagent hfree hcells hstands,
      tokenClaimService_stalls hruns hres hclaims hlt hre hagent hfree hcells hstands hw⟩
  · intro e b he hb hlen hqueue hslot hstart
    exact ⟨exec_queueSlotTake_waits he hb hqueue hslot hstart, queueSlotTake_takes he hb hqueue hslot hstart hlen⟩
  · intro e he hfence hacks hasked hfatal
    have hgoes : Goes s core q e := ⟨he, hfence, hacks, hasked, hfatal⟩
    exact ⟨reLine_counts hgoes, reLine_leaves hgoes, fun hcopy hready =>
      ⟨fun va l => reLine_reads hgoes hcopy hready, fun data off b => reLine_writes hgoes hcopy hready⟩⟩
  · intro b blk r harray hblk hmma hpaid hst hruns hcol last pa pb ha hb
    exact arrayCycle_leads harray hblk hmma hpaid hst hruns hcol rfl ha hb
  · intro r rest hwait hroom
    obtain ⟨t, hexec, hrest, htail, hrecord⟩ := faultRecordEmit_writes hwait hroom
    rw [bits_eq, FaultRec.encode_toNat] at hrecord
    exact ⟨t, hexec, hrest, htail, hrecord⟩
  · intro v g x
    have htop : bits v.toNat 62 2 = v.toNat / 2 ^ 62 := by
      have := v.isLt
      rw [bits_eq]
      omega
    refine ⟨fun h => exec_trnResolve_stays (htop ▸ h) s, fun hstatus hnone hfifo hreorder hblocks hdies => ?_, exec_trnInval_stays,
      fun hgo hdone ⟨hdies, hblocks, htables⟩ => exec_trnInval_alone hgo hdone ⟨hdies, hblocks, htables⟩⟩
    exact trnResolve_frees ⟨hfifo, hreorder, hblocks, hdies⟩ (htop ▸ hstatus) hnone
  · exact fun hdone ⟨hdies, hblocks, htables⟩ => exec_trnInvalDone_alone hdone ⟨hdies, hblocks, htables⟩
  · intro src n fatal g serves
    refine ⟨fun h => exec_faultNotice_stays h fatal, fun howner hother hhwqs => ⟨fun hblocks e he hheld hjob => ?_, ?_⟩⟩
    · exact faultNotice_answers howner hother hhwqs hblocks he hheld (beq_iff_eq.mpr hjob)
    · rintro b x w rfl - hblocks hwaves - hstopped hjob hpend hgoing
      exact faultNotice_releases_iff howner hother hhwqs hblocks hwaves hstopped hjob hpend hgoing

end Sys2Proof.Machine
end

section
/-! SUPPORT. Milliner's records and answers, and the acknowledgements of promotions: what they leave unchanged (R364, R386, R391,
R392). -/

namespace Sys2Proof.Machine

theorem State.interrupt_frame (s : State) (vec : Nat) : s.interrupt vec = { s with
    out := (s.interrupt vec).out, pkg := { s.pkg with msixPend := (s.interrupt vec).pkg.msixPend } } := by
  unfold State.interrupt
  split <;> rfl

theorem State.logEvent_frame (s : State) (kind unit index : Nat) (data : List Byte) : s.logEvent kind unit index data = { s with
    out := (s.logEvent kind unit index data).out
    pkg := { s.pkg with msixPend := (s.logEvent kind unit index data).pkg.msixPend }
    mil := { s.mil with
      log := (s.logEvent kind unit index data).mil.log, logSeq := (s.logEvent kind unit index data).mil.logSeq } } := by
  unfold State.logEvent
  simp only
  rw [State.interrupt_frame]

theorem State.logEvent_stack (s : State) (kind unit index : Nat) (data : List Byte) (k : Nat) :
    (s.logEvent kind unit index data).stack k = s.stack k := by
  rw [State.logEvent_frame]
  rfl

theorem State.logEvent_dies (s : State) (kind unit index : Nat) (data : List Byte) : (s.logEvent kind unit index data).dies = s.dies := by
  rw [State.logEvent_frame]

theorem State.logEvent_die (s : State) (kind unit index : Nat) (data : List Byte) (d : Nat) :
    (s.logEvent kind unit index data).die d = s.die d := by
  rw [State.die, State.logEvent_dies, State.die]

theorem State.logEvent_isPoisoned (s : State) (kind unit index : Nat) (data : List Byte) (sa : Nat) :
    (s.logEvent kind unit index data).isPoisoned sa = s.isPoisoned sa := by
  rw [State.logEvent_frame]
  rfl

/-! ### Messages of jobs -/

theorem State.onlySends_refl (s : State) : s.OnlySends s := rfl

theorem State.onlySends_foldl {α : Type} {f : State → α → State} (hf : ∀ (s : State) x, s.OnlySends (f s x)) (l : List α) (s : State) :
    s.OnlySends (l.foldl f s) := by
  induction l generalizing s with
  | nil => exact s.onlySends_refl
  | cons x l ih => exact State.onlySends_trans (hf s x) (ih _)

theorem State.onlySends_sendJob (s : State) (job : BitVec 16) (m : OutMsg) : s.OnlySends (s.sendJob job m) := by
  unfold State.sendJob
  split
  · unfold State.sendCtx
    simp only
    split
    · exact s.onlySends_sendKeyed _ _
    · exact s.onlySends_numbered _
  · exact s.onlySends_numbered _

theorem State.onlySends_promoAck (s : State) (p : Promo) : s.OnlySends (s.promoAck p) := by
  unfold State.promoAck
  split
  · exact s.onlySends_refl
  · split
    · exact s.onlySends_refl
    · exact s.onlySends_sendJob _ _

/-! ### The end of a mailbox command (R391) -/

/-- Milliner once a command has ended. -/
def Mil.answered (m : Mil) (status : Nat) (response : List Byte) : Mil :=
  { m with busy := false, status, response := response.take 4096 }

theorem State.mailDone_mil (s : State) (status : Nat) (response : List Byte) :
    (s.mailDone status response).mil = s.mil.answered status response := State.interrupt_mil _ 3

/-- A command has ended with a status. -/
def State.Mailed (s : State) (status : Nat) : Prop := s.mil.busy = false ∧ s.mil.status = status

theorem State.mailed_of_answered {s : State} {m : Mil} {status : Nat} {response : List Byte}
    (h : s.mil = m.answered status response) : s.Mailed status := by
  rw [State.Mailed, h]
  exact ⟨rfl, rfl⟩

/-- Ending a mailbox command from a state gives that state's Milliner, with the answer. -/
theorem answers_mailDone {i : Instr} {s u : State} {status : Nat} {response : List Byte}
    (h : exec i s = .next (u.mailDone status response)) : ∃ t, exec i s = .next t ∧ t.mil = u.mil.answered status response :=
  ⟨_, h, u.mailDone_mil status response⟩

end Sys2Proof.Machine
end

section
/-! SUPPORT. The host's accesses through BAR2 (R181, R258, R267, R269, R383). -/

namespace Sys2Proof.Machine

/-! ### Accesses of one line -/

theorem copies_length {α : Type} (x : α) (n : Nat) : (copies x n).length = n := by
  induction n with
  | zero => rfl
  | succ n ih => rw [copies, List.length_cons, ih]

theorem cutLines_of_le_lineRoom {a : Nat} {l : List Byte} (hpos : 0 < l.length) (hroom : l.length ≤ lineRoom a) (n : Nat) :
    cutLines (n + 2) a l = [(a, l)] := by
  have hne : l.isEmpty = false := by
    rw [List.isEmpty_eq_false_iff]
    exact List.ne_nil_of_length_pos hpos
  rw [cutLines, hne, List.take_of_length_le hroom, List.drop_of_length_le hroom]
  rfl

/-- The bytes that an access moves: those of a write, or as many as it asks for. -/
def hostData (size : Nat) : HostOp → List Byte
  | .write l _ => l
  | _ => copies 0 size

/-- The physical address that an offset of PF0's window reaches. -/
def State.windowAddr (s : State) (off : Nat) : Nat := s.pkg.bar2Win.toNat % 2 ^ 12 * 2 ^ 30 + off

/-- The die in whose FIFO an access of one line waits: behind an earlier write of the host, or for its home. -/
def State.hostStop (s : State) (op : HostOp) (sa : Nat) : Option Nat :=
  (s.hostBehind op).or (if s.accessWaits sa then some (homeDie sa) else none)

/-- Bytes at an offset of PF0's window lie in the window, and in one line at a storage address. -/
structure State.InWindow (s : State) (off n sa : Nat) : Prop where
  place : sa = storageOf (s.windowAddr off % 2 ^ 42)
  pos : 0 < n
  room : n ≤ lineRoom (s.windowAddr off)
  inside : off + n ≤ 2 ^ 41

/-- An access of PF0 within one line is performed, or waits at a die. -/
theorem State.InWindow.exec_access {s : State} {off size sa : Nat} {op : HostOp} (h : s.InWindow off (hostData size op).length sa) :
    exec (.hostBar2Access .pf off size op) s = .next
      ((s.hostStop op sa).elim (s.bar2Do size op [(sa, hostData size op)]) fun d =>
        s.waitAtHome d (.hostBar2Access .pf off size op)) := by
  obtain ⟨hsa, hpos, hroom, hend⟩ := h
  have haddr : s.bar2Addr .pf off = s.windowAddr off := by
    rw [State.bar2Addr, bits_eq, Nat.pow_zero, Nat.div_one]
    rfl
  have hpieces : s.bar2Pieces .pf (hostNeed op) (cutLines ((hostData size op).length / 128 + 2) (s.windowAddr off) (hostData size op)) =
      some [(sa, hostData size op)] := by
    rw [cutLines_of_le_lineRoom hpos hroom, hsa]
    rfl
  have hin : ¬ ((!s.fnOn .pf) = true ∨ 2 ^ 41 < off + (hostData size op).length) := by
    simp only [State.fnOn, Bool.not_true, Bool.false_eq_true, false_or]
    omega
  change execHostBar2Access .pf off size op s = _
  -- the operation matters to the bytes that move only; then either the access stops, or it is performed
  cases op
  all_goals
    simp only [hostData, copies_length] at hpieces hin ⊢
    simp only [execHostBar2Access, haddr, if_neg hin, hpieces, State.hostStop]
    cases s.hostBehind _ <;> cases h : s.accessWaits sa <;> simp [h]

/-- The state's FIFOs hold no write of the host. -/
def State.NoHostWrite (s : State) : Prop :=
  ∀ n < 8, ∀ fn o z l ro, Instr.hostBar2Access fn o z (.write l ro) ∉ (s.die n).fifo

theorem State.NoHostWrite.hostBehind {s : State} (h : s.NoHostWrite) (op : HostOp) : s.hostBehind op = none := by
  unfold State.hostBehind
  split
  · rfl
  · simp only [List.find?_eq_none, List.any_eq_true]
    rintro n hn ⟨i, hi, hwrite⟩
    split at hwrite
    · exact h n (by simpa using ((mem_upFrom ..).mp hn).2) _ _ _ _ _ hi
    · cases hwrite

/-- Behind a write that waits at a die, alone, a read waits there too. -/
theorem State.hostBehind_read {s : State} {d : Nat} (hd : d < 8) (hother : ∀ n < 8, n ≠ d → (s.die n).fifo = []) {fn : Fn}
    {o z : Nat} {l : List Byte} {ro : Bool} (hwrite : (s.die d).fifo = [.hostBar2Access fn o z (.write l ro)]) :
    s.hostBehind .read = some d := by
  have hfirst : ∀ d < 8, (upFrom 0 8).find? (· == d) = some d := by decide
  rw [← hfirst d hd]
  refine List.find?_congr fun n hn => ?_
  by_cases hnd : n = d
  · simp [hnd, hwrite]
  · simp [hnd, hother n (by simpa using ((mem_upFrom ..).mp hn).2) hnd]

section Window

variable {s : State} {off size sa : Nat} (h : s.InWindow off size sa)
include h

/-- A write of a line's bytes stands at home. -/
theorem bar2Write_writes (hfree : s.NoHostWrite) (hhome : s.accessWaits sa = false) {l : List Byte} (hl : l.length = size) (ro : Bool) :
    ∃ t, exec (.hostBar2Access .pf off 0 (.write l ro)) s = .next t ∧ (∀ i < size, t.homeByte (sa + i) = lget 0 l i) ∧
      t.blocks = s.blocks := by
  have hexec := State.InWindow.exec_access (size := 0) (op := .write l ro) (by rwa [hostData, hl])
  rw [State.hostStop, hfree.hostBehind, hhome] at hexec
  refine ⟨s.homeWrite sa l, hexec, fun i hi => ?_, by rw [State.homeWrite_frame]⟩
  rw [State.homeByte_homeWrite, if_pos (by omega), Nat.add_sub_cancel_left]

theorem exec_bar2Read (hfree : s.NoHostWrite) (hhome : s.accessWaits sa = false) : exec (.hostBar2Access .pf off size .read) s =
    .next (s.send (.hostReply (if s.isPoisoned sa then none else some (s.homeBytes sa size)))) := by
  have hexec := State.InWindow.exec_access (size := size) (op := .read) (by simpa only [hostData, copies_length] using h)
  rw [State.hostStop, hfree.hostBehind, hhome] at hexec
  rw [hexec]
  simp [State.bar2Do, State.piecesRead, hostData, copies_length]

/-- A read that stops waits in the FIFO of its die. -/
theorem bar2Read_waits {d : Nat} (hd : d < s.dies.length) (hstop : s.hostStop .read sa = some d) :
    ∃ t, exec (.hostBar2Access .pf off size .read) s = .next t ∧
      (t.die d).fifo = (s.die d).fifo ++ [Instr.hostBar2Access .pf off size .read] ∧ t.out = s.out := by
  have hexec := State.InWindow.exec_access (size := size) (op := .read) (by simpa only [hostData, copies_length] using h)
  rw [hstop] at hexec
  refine ⟨_, hexec, ?_, rfl⟩
  rw [Option.elim_some, State.waitAtHome, State.die_setDie _ _ _ _ hd, if_pos rfl]

/-- A fetch-and-add of a sound line that no other package holds. -/
theorem bar2FetchAdd_adds (hfree : s.NoHostWrite) (hhome : s.accessWaits sa = false) (hsound : s.isPoisoned sa = false)
    (hdir : tfind s.dir (lineOf sa) = none) (x : Dword) :
    ∃ t, exec (.hostBar2Access .pf off size (.fetchAdd x)) s = .next t ∧
      t.homeNat sa size = (s.homeNat sa size + x.toNat) % 2 ^ (8 * size) ∧
      t.out = s.out ++ [OutMsg.hostReply (some (s.homeBytes sa size))] := by
  have hexec := State.InWindow.exec_access (size := size) (op := .fetchAdd x) (by simpa only [hostData, copies_length] using h)
  have hold : s.piecesRead [(sa, hostData size (.fetchAdd x))] = some (s.homeBytes sa size) := by
    simp [State.piecesRead, hsound, hostData, copies_length]
  have hout (bs : List Byte) : (s.homeWrite sa bs).out = s.out := by
    simp only [State.homeWrite, State.invalidateSharers, hdir]
    split
    · rfl
    · split <;> rfl
  rw [State.hostStop, hfree.hostBehind, hhome] at hexec
  simp only [Option.none_or, Bool.false_eq_true, if_false, Option.elim_none, State.bar2Do, hold] at hexec
  refine ⟨_, hexec, ?_, ?_⟩
  · exact (State.homeNat_congr (s := s.homeWrite sa _) rfl sa size).trans (s.homeNat_homeWrite sa size _)
  · rw [State.send_out, hout]

end Window

theorem exec_bar2_vfDisabled {s : State} {v : Nat} (h : v ∉ s.pkg.vfs) (off size : Nat) (op : HostOp) :
    exec (.hostBar2Access (.vf v) off size op) s = .next s := by
  have hoff : (!s.fnOn (.vf v)) = true := by simpa [State.fnOn] using h
  change execHostBar2Access (.vf v) off size op s = _
  simp only [execHostBar2Access, hoff, true_or, if_true]

end Sys2Proof.Machine
end

section
/-! SUPPORT. Virtual functions and function-level resets (R336, R384, R385). -/

namespace Sys2Proof.Machine

/-- A fact of the default and of every listed value holds at every key. -/
theorem forall_tget {α : Type} {p : α → Prop} {d : α} (hd : p d) {t : Tbl α} (h : ∀ x ∈ t, p x.2) (n : Nat) : p (tget d t n) := by
  induction t with
  | nil => exact hd
  | cons x t ih =>
    obtain ⟨k, v⟩ := x
    rw [tget]
    split
    · exact h (k, v) List.mem_cons_self
    · exact ih fun y hy => h y (List.mem_cons_of_mem _ hy)

/-- Nothing runs: no block is resident, and no launch or node is in use. -/
structure Quiet (s : State) : Prop where
  blocks : s.blocks = []
  launches : s.launches = []
  nodes : s.nodes = []

theorem Quiet.startNodes {s : State} (h : Quiet s) : s.startNodes = s :=
  State.startNodes_of_none (by rw [h.nodes]; exact fun _ hx => absurd hx List.not_mem_nil)

/-! ### VF_ENABLE -/

theorem vfEnable_enables {v : Nat} (hv : v < 16) (s : State) : ∃ t, exec (.vfEnable v) s = .next t ∧
    (∀ n, n ∈ t.pkg.vfs ↔ n = v ∨ n ∈ s.pkg.vfs) ∧ t.blocks = s.blocks := by
  have hexec : exec (.vfEnable v) s = .next { s with pkg := { s.pkg with vfs := sins s.pkg.vfs v } } := by
    change execVfEnable v s = _
    rw [execVfEnable, if_pos hv]
  exact ⟨_, hexec, mem_sins s.pkg.vfs v, rfl⟩

/-! ### Tear-down while nothing runs -/

/-- Between two states only contexts, queues and the blocks that are to be saved differ. -/
def State.OnlyOwned (s t : State) : Prop := t = { s with ctxs := t.ctxs, hwqs := t.hwqs, saving := t.saving }

theorem State.OnlyOwned.trans {s t u : State} (h : s.OnlyOwned t) (h' : t.OnlyOwned u) : s.OnlyOwned u := by
  unfold State.OnlyOwned at *
  rw [h', h]

theorem State.OnlyOwned.quiet {s t : State} (h : s.OnlyOwned t) (hs : Quiet s) : Quiet t := by
  rw [h]
  exact ⟨hs.blocks, hs.launches, hs.nodes⟩

/-- A context is torn down, and the queue of its number disabled. -/
structure State.IsOff (s : State) (n : Nat) : Prop where
  ctx : s.tornDown n = true
  hwq : (s.hwq n).en = false

/-- A context that is being torn down. -/
def Ctx.torn (c : Ctx) : Ctx := { c with sched := c.sched ||| BitVec.ofNat 64 (3 * 2 ^ 60) }

theorem bits_or_three (v : Dword) : bits (v ||| BitVec.ofNat 64 (3 * 2 ^ 60)).toNat 60 2 = 3 := by
  have hall : ∀ x < 4, x ||| 3 = 3 := by decide
  rw [bits_eq, BitVec.toNat_or, BitVec.toNat_ofNat, ← Nat.shiftRight_eq_div_pow, Nat.shiftRight_or_distrib,
    Nat.or_mod_two_pow]
  exact hall _ (Nat.mod_lt _ (by norm_num))

theorem en_disabled (h : Hwq) (a : Nat) :
    ({ h with cfg0 := h.cfg0 &&& ~~~(BitVec.ofNat 64 (2 ^ 63)), announced := a } : Hwq).en = false := by
  simp [Hwq.en]

/-- The tear-down of a context while nothing runs. -/
theorem Quiet.tearDown_eq {s : State} (h : Quiet s) {ctx : Nat} (hup : s.tornDown ctx = false) : s.tearDown ctx =
    { s.setCtx ctx (s.ctx ctx).torn with
      hwqs := s.hwqs.map fun p => (p.1, if p.2.ctxNo = ctx then p.2.tear else p.2)
      saving := s.saving.filter fun k => k / 8 != ctx } := by
  have hqueues : (fun p : Nat × Hwq => if p.2.ctxNo = ctx then (p.1, p.2.tear) else p) =
      fun p => (p.1, if p.2.ctxNo = ctx then p.2.tear else p.2) := by
    funext p
    split <;> rfl
  simp [State.tearDown, hup, h.blocks, h.launches, h.nodes, hqueues, distinct, State.cancelTree, State.retireStopped,
    State.startNodes, State.settleAll, State.settle_nil, Ctx.torn]

theorem Quiet.onlyOwned_tearDown {s : State} (h : Quiet s) (ctx : Nat) : s.OnlyOwned (s.tearDown ctx) := by
  cases hup : s.tornDown ctx with
  | true =>
    rw [State.tearDown, if_pos hup]
    rfl
  | false =>
    rw [h.tearDown_eq hup]
    rfl

theorem Quiet.tornDown_tearDown {s : State} (h : Quiet s) (ctx n : Nat) :
    (s.tearDown ctx).tornDown n = (n == ctx || s.tornDown n) := by
  cases hup : s.tornDown ctx with
  | true =>
    rw [State.tearDown, if_pos hup]
    by_cases hn : n = ctx
    · simp [hn, hup]
    · simp [hn]
  | false =>
    rw [h.tearDown_eq hup]
    change (bits ((s.setCtx ctx (s.ctx ctx).torn).ctx n).sched.toNat 60 2 == 3) = _
    rw [State.ctx_setCtx]
    by_cases hn : n = ctx
    · rw [if_pos hn, Ctx.torn, bits_or_three]
      simp [hn]
    · simp [hn, State.tornDown]

/-- A tear-down enables no queue. -/
theorem Quiet.en_tearDown {s : State} (h : Quiet s) (ctx : Nat) {n : Nat} (hen : (s.hwq n).en = false) :
    ((s.tearDown ctx).hwq n).en = false := by
  cases hup : s.tornDown ctx with
  | true => rwa [State.tearDown, if_pos hup]
  | false =>
    have hreset : (if Hwq.reset.ctxNo = ctx then Hwq.reset.tear else Hwq.reset) = Hwq.reset := ite_eq_right_iff.mpr fun _ => rfl
    rw [h.tearDown_eq hup]
    change (tget Hwq.reset (s.hwqs.map fun p => (p.1, if p.2.ctxNo = ctx then p.2.tear else p.2)) n).en = false
    rw [tget_map_snd (f := fun q : Hwq => if q.ctxNo = ctx then q.tear else q) hreset]
    split
    · simp [Hwq.en, Hwq.tear]
    · exact hen

/-- The contexts and queues of a list are off, and those that were off stay so. -/
theorem Quiet.resetOwned {s : State} (h : Quiet s) (l : List Nat) : s.OnlyOwned (s.resetOwned l) ∧
    ∀ n, n ∈ l ∨ s.IsOff n → (s.resetOwned l).IsOff n := by
  induction l generalizing s with
  | nil => exact ⟨rfl, fun n hn => hn.resolve_left List.not_mem_nil⟩
  | cons m l ih =>
    obtain ⟨t, ht⟩ : ∃ t, t = s.tearDown m := ⟨_, rfl⟩
    obtain ⟨u, hu⟩ : ∃ u, u = t.setHwq m { t.hwq m with
        cfg0 := (t.hwq m).cfg0 &&& ~~~(BitVec.ofNat 64 (2 ^ 63)), announced := (t.hwq m).accept.getD (t.hwq m).announced } := ⟨_, rfl⟩
    have hsu : s.OnlyOwned u := (ht ▸ h.onlyOwned_tearDown m).trans (hu ▸ rfl)
    have hoff (n : Nat) (hn : n = m ∨ s.IsOff n) : u.IsOff n := by
      refine ⟨?_, ?_⟩
      · have hctx : u.tornDown n = t.tornDown n := by rw [hu]; rfl
        rw [hctx, ht, h.tornDown_tearDown]
        rcases hn with rfl | hn
        · simp
        · simp [hn.ctx]
      · rw [hu, State.hwq_setHwq]
        by_cases hnm : n = m
        · rw [if_pos hnm, en_disabled]
        · rw [if_neg hnm, ht]
          exact h.en_tearDown m (hn.resolve_left hnm).hwq
    obtain ⟨hlast, hrest⟩ := ih (hsu.quiet h)
    have hcons : s.resetOwned (m :: l) = u.resetOwned l := by rw [hu, ht]; rfl
    rw [hcons]
    refine ⟨hsu.trans hlast, fun n hn => hrest n ?_⟩
    rw [List.mem_cons, or_assoc, or_left_comm] at hn
    exact hn.imp_right (hoff n)

/-! ### FUNCTION_LEVEL_RESET -/

/-- A VF's reset turns its contexts and queues off. -/
theorem vfReset_turnsOff {s : State} (h : Quiet s) {v : Nat} (hv : v < 16) : ∃ t, exec (.functionLevelReset (.vf v)) s = .next t ∧
    t.dies = s.dies ∧ t.hbms = s.hbms ∧ t.ports = s.ports ∧ ∀ n, n / 16 = v → t.tornDown n = true ∧ (t.hwq n).en = false := by
  obtain ⟨hframe, hoff⟩ := h.resetOwned (upFrom (16 * v) 16)
  have hexec : exec (.functionLevelReset (.vf v)) s = .next (s.resetOwned (upFrom (16 * v) 16)) := by
    change execFunctionLevelReset (.vf v) s = _
    simp only [execFunctionLevelReset, if_pos hv]
  refine ⟨_, hexec, by rw [hframe], by rw [hframe], by rw [hframe], fun n hn => ?_⟩
  obtain ⟨hctx, hhwq⟩ := hoff n (.inl ((mem_upFrom ..).mpr (by omega)))
  exact ⟨hctx, hhwq⟩

theorem State.hwq_driverReset (s : State) (n : Nat) : (s.driverReset.hwq n).en = false := by
  change (tget Hwq.reset (s.hwqs.map fun p => (p.1, { p.2 with cfg0 := Hwq.reset.cfg0, cfg1 := Hwq.reset.cfg1 })) n).en = false
  rw [tget_map_snd (f := fun q : Hwq => { q with cfg0 := Hwq.reset.cfg0, cfg1 := Hwq.reset.cfg1 }) rfl]
  exact BitVec.getLsbD_zero

/-- Of a context nothing but its count of refused work stays. -/
theorem State.ctx_driverReset (s : State) (n : Nat) :
    s.driverReset.ctx n = { Ctx.reset with down := (s.driverReset.ctx n).down } := by
  refine forall_tget (p := fun c : Ctx => c = { Ctx.reset with down := c.down }) rfl (fun x hx => ?_) n
  obtain ⟨c, -, hc⟩ := List.mem_filterMap.mp hx
  dsimp only at hc
  split at hc
  · cases hc
  · cases hc
    rfl

theorem Port.settle_en (p : Port) (valid : Bool) : (p.settle valid).en = p.en := by
  unfold Port.settle
  dsimp only
  split <;> split <;> rfl

theorem State.port_driverReset (s : State) (p : Nat) : (s.driverReset.port p).en = false := by
  change (lget Port.reset (s.ports.map fun x => Port.settle { x with en := false } false) p).en = false
  rw [lget_map_default (d := Port.reset) (d' := Port.reset) (f := fun x : Port => Port.settle { x with en := false } false) rfl,
    Port.settle_en]

/-- PF0's reset turns everything that the driver has set up off; neither dies nor stacks are reset. -/
theorem pfReset_turnsOff {s : State} (h : Quiet s) (p : Nat) : ∃ t, exec (.functionLevelReset .pf) s = .next t ∧
    t.dies = s.dies ∧ t.hbms = s.hbms ∧ t.pkg.swlId = 0 ∧ t.pkg.fltRing = 0 ∧
      (∀ n, (t.hwq n).en = false ∧ (t.ctx n).trnRoot = 0 ∧ (t.ctx n).aper = 0) ∧ (t.port p).en = false := by
  obtain ⟨hframe, -⟩ := h.resetOwned (upFrom 0 256)
  obtain ⟨u, hu⟩ : ∃ u, u = s.resetOwned (upFrom 0 256) := ⟨_, rfl⟩
  have hexec : exec (.functionLevelReset .pf) s = .next u.driverReset := by rw [hu]; rfl
  rw [← hu] at hframe
  refine ⟨_, hexec, ?_, ?_, rfl, rfl, fun n => ⟨u.hwq_driverReset n, ?_, ?_⟩, u.port_driverReset p⟩
  · change u.dies = _
    rw [hframe]
  · change u.hbms = _
    rw [hframe]
  · rw [State.ctx_driverReset]
    rfl
  · rw [State.ctx_driverReset]
    rfl

end Sys2Proof.Machine
end

section
/-! SUPPORT. Milliner's mailbox, SPDM and firmware (R387, R389 to R392). -/

namespace Sys2Proof.Machine

/-! ### SPDM and MCTP -/

/-- A session begins; the keys stay. -/
theorem spdmStart_begins (s : State) : ∃ t, exec (.spdmMessage .startSession) s = .next t ∧
    t.Mailed 0 ∧ t.mil.spdm = true ∧ t.mil.keys = s.mil.keys := by
  obtain ⟨t, hexec, hmil⟩ := answers_mailDone (i := .spdmMessage .startSession) (s := s)
    (u := { s with mil := { s.mil with spdm := true } }) rfl
  refine ⟨t, hexec, State.mailed_of_answered hmil, ?_⟩
  rw [hmil]
  exact ⟨rfl, rfl⟩

/-- A session ends; the keys stay. -/
theorem spdmEnd_ends (s : State) : ∃ t, exec (.spdmMessage .endSession) s = .next t ∧
    t.Mailed 0 ∧ t.mil.spdm = false ∧ t.mil.keys = s.mil.keys := by
  obtain ⟨t, hexec, hmil⟩ := answers_mailDone (i := .spdmMessage .endSession) (s := s)
    (u := { s with mil := { s.mil with spdm := false } }) rfl
  refine ⟨t, hexec, State.mailed_of_answered hmil, ?_⟩
  rw [hmil]
  exact ⟨rfl, rfl⟩

theorem spdmOther_answers (s : State) (l : List Byte) : ∃ t, exec (.spdmMessage (.other l)) s = .next t ∧
    t.Mailed 0 ∧ t.mil.keys = s.mil.keys ∧ t.mil.spdm = s.mil.spdm := by
  obtain ⟨t, hexec, hmil⟩ := answers_mailDone (i := .spdmMessage (.other l)) (s := s) (u := s) rfl
  refine ⟨t, hexec, State.mailed_of_answered hmil, ?_⟩
  rw [hmil]
  exact ⟨rfl, rfl⟩

/-- Milliner with a key installed in a slot, whose counter starts again (R356). -/
def Mil.withKey (m : Mil) (slot : Nat) (key : BitVec 256) : Mil :=
  { m with keys := tput m.keys slot key, keyCount := tset 0 m.keyCount slot 0 }

/-- A key is installed inside a session only. -/
theorem spdmInstall_installs {s : State} (hwait : s.keyWait = []) (slot : BitVec 6) (key : BitVec 256) :
    ∃ t, exec (.spdmMessage (.installKey slot key)) s = .next t ∧ t.Mailed (if s.mil.spdm then 0 else 4) ∧
      (s.mil.spdm = false → t.mil.keys = s.mil.keys) ∧
      (s.mil.spdm = true → tfind t.mil.keys slot.toNat = some key ∧ tget 0 t.mil.keyCount slot.toNat = 0) := by
  cases hsession : s.mil.spdm with
  | false =>
    obtain ⟨t, hexec, hmil⟩ : ∃ t, exec (.spdmMessage (.installKey slot key)) s = .next t ∧ t.mil = s.mil.answered 4 [] := by
      refine answers_mailDone (u := s) ?_
      change execSpdmMessage (.installKey slot key) s = _
      simp only [execSpdmMessage, hsession, Bool.false_eq_true, if_false]
    refine ⟨t, hexec, State.mailed_of_answered hmil, fun _ => ?_, nofun⟩
    rw [hmil]
    rfl
  | true =>
    obtain ⟨t, hexec, hmil⟩ : ∃ t, exec (.spdmMessage (.installKey slot key)) s = .next t ∧
        t.mil = (s.mil.withKey slot.toNat key).answered 0 (Config.spdmAnswer s.mil.request) := by
      refine answers_mailDone (u := { s with mil := s.mil.withKey slot.toNat key }) ?_
      change execSpdmMessage (.installKey slot key) s = _
      simp only [execSpdmMessage, hsession, if_true, State.sendWaiting, hwait, List.filter_nil, List.foldl_nil, Mil.withKey]
    refine ⟨t, hexec, State.mailed_of_answered hmil, nofun, fun _ => ?_⟩
    rw [hmil]
    exact ⟨(tfind_tput ..).trans (if_pos rfl), (tget_tset 0 s.mil.keyCount _ _ 0).trans (if_pos rfl)⟩

/-! ### Event records -/

theorem readEventRecords_answers (s : State) : ∃ t, exec .readEventRecords s = .next t ∧
    t.Mailed (if Config.mailOk 1 s.mil.request then 0 else 2) ∧ t.mil.log = s.mil.log := by
  obtain ⟨response, h⟩ : ∃ response, execReadEventRecords s =
      .next (s.mailDone (if Config.mailOk 1 s.mil.request then 0 else 2) response) := by
    simp only [execReadEventRecords]
    split <;> exact ⟨_, rfl⟩
  obtain ⟨t, hexec, hmil⟩ := answers_mailDone (i := .readEventRecords) h
  refine ⟨t, hexec, State.mailed_of_answered hmil, ?_⟩
  rw [hmil]
  rfl

/-! ### Firmware slots (R389) -/

theorem Mil.spare_setSpare (m : Mil) (x : FwSlot) : (m.setSpare x).spare = x := by
  cases h : m.activeB <;> simp [Mil.spare, Mil.setSpare, h]

theorem Mil.setSpare_activeB (m : Mil) (x : FwSlot) : (m.setSpare x).activeB = m.activeB := by
  unfold Mil.setSpare
  split <;> rfl

/-- Milliner once the other slot than the active one holds an image that is to be booted next, or not. -/
def Mil.holding (m : Mil) (x : FwSlot) (next : Bool) : Mil :=
  { m.setSpare x with
    nextB := if next then !m.activeB else m.activeB, newImage := next, failedBoots := if next then 0 else (m.setSpare x).failedBoots }

theorem Mil.holding_activeB (m : Mil) (x : FwSlot) (next : Bool) : (m.holding x next).activeB = m.activeB := m.setSpare_activeB x

theorem Mil.spare_holding (m : Mil) (x : FwSlot) (next : Bool) : (m.holding x next).spare = x := m.spare_setSpare x

/-- An image with a chunk written at an offset. -/
def withChunk (image : List Byte) (at' : Nat) (bytes : List Byte) : List Byte :=
  image.take at' ++ copies 0 (at' - image.length) ++ bytes ++ image.drop (at' + bytes.length)

theorem chunk_withChunk (image : List Byte) (at' : Nat) (bytes : List Byte) :
    ((withChunk image at' bytes).drop at').take bytes.length = bytes := by
  have hlen : (image.take at' ++ copies 0 (at' - image.length)).length = at' := by
    rw [List.length_append, List.length_take, copies_length]
    omega
  rw [withChunk, List.append_assoc, List.drop_left' hlen, List.take_left' rfl]

/-- The spare slot with the chunk of a request written. -/
def Mil.withRequested (m : Mil) : FwSlot :=
  { image := withChunk m.spare.image (Config.chunkAt m.request) (Config.chunkBytes m.request), valid := false, version := 0 }

/-- A chunk stands in the spare slot's image, which is not valid and not booted next. -/
theorem stageFirmwareChunk_stages (s : State) : ∃ t, exec .stageFirmwareChunk s = .next t ∧
    t.Mailed (if Config.mailOk 2 s.mil.request then 0 else 2) ∧ t.mil.activeB = s.mil.activeB ∧
    (Config.mailOk 2 s.mil.request = true → t.mil.spare.valid = false ∧ t.mil.nextB = s.mil.activeB ∧
      (t.mil.spare.image.drop (Config.chunkAt s.mil.request)).take (Config.chunkBytes s.mil.request).length =
        Config.chunkBytes s.mil.request) := by
  cases h : Config.mailOk 2 s.mil.request with
  | false =>
    obtain ⟨t, hexec, hmil⟩ : ∃ t, exec .stageFirmwareChunk s = .next t ∧ t.mil = s.mil.answered 2 [] := by
      refine answers_mailDone (u := s) ?_
      change execStageFirmwareChunk s = _
      simp only [execStageFirmwareChunk, h, Bool.false_eq_true, if_false]
    refine ⟨t, hexec, State.mailed_of_answered hmil, ?_, nofun⟩
    rw [hmil]
    rfl
  | true =>
    obtain ⟨t, hexec, hmil⟩ : ∃ t, exec .stageFirmwareChunk s = .next t ∧
        t.mil = (s.mil.holding s.mil.withRequested false).answered 0 [] := by
      refine answers_mailDone (u := { s with mil := s.mil.holding s.mil.withRequested false }) ?_
      change execStageFirmwareChunk s = _
      simp only [execStageFirmwareChunk, h, if_true]
      rfl
    refine ⟨t, hexec, State.mailed_of_answered hmil, ?_, fun _ => ?_⟩
    · rw [hmil]
      exact s.mil.holding_activeB s.mil.withRequested false
    · have hspare : t.mil.spare = s.mil.withRequested := by
        rw [hmil]
        exact s.mil.spare_holding s.mil.withRequested false
      rw [hspare, hmil]
      exact ⟨rfl, rfl, chunk_withChunk ..⟩

theorem commitFirmware_empty {s : State} (h : s.mil.spare.image = []) : ∃ t, exec .commitFirmware s = .next t ∧
    t.Mailed 4 ∧ t.mil.slotA = s.mil.slotA ∧ t.mil.slotB = s.mil.slotB := by
  obtain ⟨t, hexec, hmil⟩ : ∃ t, exec .commitFirmware s = .next t ∧ t.mil = s.mil.answered 4 [] := by
    refine answers_mailDone (u := s) ?_
    change execCommitFirmware s = _
    simp only [execCommitFirmware, h, List.isEmpty_nil, if_true]
  refine ⟨t, hexec, State.mailed_of_answered hmil, ?_⟩
  rw [hmil]
  exact ⟨rfl, rfl⟩

/-- An image is good where its signature and its security version pass. -/
def Mil.good (m : Mil) : Bool :=
  Config.signatureOk m.spare.image && decide (m.rollback ≤ Config.imageVersion m.spare.image)

/-- The spare slot once its image has been checked. -/
def Mil.checked (m : Mil) : FwSlot :=
  { m.spare with valid := m.good, version := if m.good then Config.imageVersion m.spare.image else m.spare.version }

/-- An image's commit leaves its slot valid and next if it is good, and neither if not. -/
theorem commitFirmware_checks {s : State} (h : s.mil.spare.image ≠ []) : ∃ t, exec .commitFirmware s = .next t ∧
    t.Mailed (if s.mil.good then 0 else 3) ∧ t.mil.activeB = s.mil.activeB ∧ t.mil.spare.valid = s.mil.good ∧
      t.mil.nextB = if s.mil.good then !s.mil.activeB else s.mil.activeB := by
  have hsome : s.mil.spare.image.isEmpty = false := List.isEmpty_eq_false_iff.mpr h
  obtain ⟨t, hexec, hmil⟩ : ∃ t, exec .commitFirmware s = .next t ∧
      t.mil = (s.mil.holding s.mil.checked s.mil.good).answered (if s.mil.good then 0 else 3) [] := by
    refine answers_mailDone (u := { s with mil := s.mil.holding s.mil.checked s.mil.good }) ?_
    change execCommitFirmware s = _
    simp only [execCommitFirmware, hsome, Bool.false_eq_true, if_false, Mil.checked]
    rw [← Mil.good]
    cases s.mil.good <;> rfl
  have hspare : t.mil.spare = s.mil.checked := by
    rw [hmil]
    exact s.mil.spare_holding s.mil.checked s.mil.good
  refine ⟨t, hexec, State.mailed_of_answered hmil, ?_, ?_, ?_⟩
  · rw [hmil]
    exact s.mil.holding_activeB s.mil.checked s.mil.good
  · rw [hspare]
    rfl
  · rw [hmil]
    rfl

end Sys2Proof.Machine
end

section
/-! SUPPORT. Resets of the package, and boots that fail (R388, R389, R393, R394). -/

namespace Sys2Proof.Machine

theorem lget_map {α β : Type} (d : α) (d' : β) (f : α → β) {l : List α} {n : Nat} (h : n < l.length) :
    lget d' (l.map f) n = f (lget d l n) := by
  rw [lget_eq_getD, lget_eq_getD, List.getD_eq_getElem _ _ h, List.getD_eq_getElem _ _ (by rwa [List.length_map]),
    List.getElem_map]

/-- The package once its bring-up is done, before Milliner logs the reset. -/
def State.broughtUp (s : State) (powerLoss : Bool) : State :=
  let r := { State.reset with
    freeCtr := s.freeCtr, out := s.out, outDone := s.out.length, seals := s.seals, egress := s.egress.filter (·.port.isSome)
    mil := s.mil.rebooted powerLoss
    inbox := s.inbox.filter fun x => x.2 == .firmwareReadyTimeout
    dies := mapIdx (fun d x => { x with capqCharge := (s.die d).capqCharge }) 0 State.reset.dies }
  if Config.storeOk then r else
    State.send { r with dies := r.dies.map fun d => { d with inReset := true } } (.mctp Config.storeReport)

theorem State.rebooted_eq (s : State) (powerLoss : Bool) : s.rebooted powerLoss = (s.broughtUp powerLoss).logEvent 12 0 0 [] := rfl

/-- What a reset of the package does not bring to its reset value. -/
theorem State.rebooted_frame (s : State) (powerLoss : Bool) : s.rebooted powerLoss = { State.reset with
    freeCtr := s.freeCtr, out := (s.rebooted powerLoss).out, outDone := s.out.length, seals := s.seals
    egress := (s.rebooted powerLoss).egress, inbox := (s.rebooted powerLoss).inbox, dies := (s.rebooted powerLoss).dies
    mil := (s.rebooted powerLoss).mil, pkg := (s.rebooted powerLoss).pkg } := by
  rw [State.rebooted_eq, State.logEvent_frame, State.broughtUp]
  split <;> rfl

theorem State.rebooted_mil (s : State) (powerLoss : Bool) : (s.rebooted powerLoss).mil = { s.mil.rebooted powerLoss with
    log := (s.rebooted powerLoss).mil.log, logSeq := ((s.mil.rebooted powerLoss).logSeq + 1) % 2 ^ 32 } := by
  have hmil : (s.broughtUp powerLoss).mil = s.mil.rebooted powerLoss := by
    unfold State.broughtUp
    split <;> rfl
  rw [State.rebooted_eq, ← hmil, ← State.logEvent_logSeq, State.logEvent_frame]

/-- The dies at reset, but for their charges, which are kept. -/
def State.chargedDies (s : State) : List Die :=
  mapIdx (fun d x => { x with capqCharge := (s.die d).capqCharge }) 0 State.reset.dies

theorem State.lget_chargedDies (s : State) {d : Nat} (hd : d < 8) :
    lget Die.reset s.chargedDies d = { Die.reset with capqCharge := (s.die d).capqCharge } := by
  rw [State.chargedDies, lget_mapIdx _ _ _ (show d < State.reset.dies.length from hd), Nat.zero_add]
  change ({ State.reset.die d with capqCharge := _ } : Die) = _
  rw [State.die_reset]

theorem State.dies_rebooted (s : State) (powerLoss : Bool) : (s.rebooted powerLoss).dies =
    if Config.storeOk then s.chargedDies else s.chargedDies.map fun x => { x with inReset := true } := by
  rw [State.rebooted_eq, State.logEvent_dies, State.broughtUp]
  split <;> rfl

/-- Without a valid store the dies stay in reset. -/
theorem State.die_rebooted (s : State) (powerLoss : Bool) {d : Nat} (hd : d < 8) : (s.rebooted powerLoss).die d =
    { Die.reset with capqCharge := (s.die d).capqCharge, inReset := !Config.storeOk } := by
  have hlen : d < s.chargedDies.length := by rwa [State.chargedDies, mapIdx_length]
  rw [State.die, State.dies_rebooted]
  cases Config.storeOk with
  | true => exact s.lget_chargedDies hd
  | false =>
    rw [if_neg Bool.false_ne_true, lget_map Die.reset Die.reset _ hlen, s.lget_chargedDies hd]
    rfl

/-! ### PACKAGE_RESET -/

/-- A reset of the package, whatever its cause: the machine is at reset but for the firmware slots, the rollback counter, the log
short of power loss, and the dies' charges. -/
theorem packageReset_resets (s : State) (cause : ResetCause) {d : Nat} (hd : d < 8) : ∃ t, exec (.packageReset cause) s = .next t ∧
    t.blocks = [] ∧ t.mem = [] ∧ t.clk = 0 ∧ t.gov = Gov.reset ∧ t.tok = Tok.reset ∧ t.hwqs = [] ∧ t.ctxs = [] ∧
      t.mil.slotA = s.mil.slotA ∧ t.mil.slotB = s.mil.slotB ∧ t.mil.activeB = s.mil.nextB ∧ t.mil.rollback = s.mil.rollback ∧
      t.mil.logSeq = ((if cause = .powerOn then 0 else s.mil.logSeq) + 1) % 2 ^ 32 ∧ (t.die d).inReset = (!Config.storeOk) ∧
      (t.die d).capqCharge = (s.die d).capqCharge := by
  have hlog : (s.mil.rebooted (cause == .powerOn)).logSeq = if cause = .powerOn then 0 else s.mil.logSeq := by
    cases cause <;> rfl
  refine ⟨s.rebooted (cause == .powerOn), rfl, ?_⟩
  rw [State.die_rebooted _ _ hd, State.rebooted_mil, hlog, State.rebooted_frame]
  exact ⟨rfl, rfl, rfl, rfl, rfl, rfl, rfl, rfl, rfl, rfl, rfl, rfl, rfl, rfl⟩

/-! ### FIRMWARE_READY_TIMEOUT (R389) -/

theorem exec_firmwareReadyTimeout_stays {s : State} (h : s.mil.newImage = false ∨ s.mil.activeB ≠ s.mil.nextB) :
    exec .firmwareReadyTimeout s = .next s := by
  have hstays : (!s.mil.newImage || s.mil.activeB != s.mil.nextB) = true := by simpa using h
  change execFirmwareReadyTimeout s = _
  simp only [execFirmwareReadyTimeout, hstays, if_true]

/-- A new image that does not reach ready is booted again, and after three failures the other slot is. -/
theorem firmwareReadyTimeout_boots {s : State} (hnew : s.mil.newImage = true) (hactive : s.mil.activeB = s.mil.nextB) :
    ∃ t, exec .firmwareReadyTimeout s = .next t ∧ t.blocks = [] ∧
      if s.mil.failedBoots < 2 then t.mil.failedBoots = s.mil.failedBoots + 1 ∧ t.mil.activeB = s.mil.activeB
      else t.mil.failedBoots = 0 ∧ t.mil.activeB = (!s.mil.activeB) := by
  have hgoes : (!s.mil.newImage || s.mil.activeB != s.mil.nextB) = false := by simp [hnew, hactive]
  have hblocks (u : State) : (u.rebooted false).blocks = [] := by rw [State.rebooted_frame]; rfl
  by_cases hfew : s.mil.failedBoots < 2
  · obtain ⟨u, hu⟩ : ∃ u, u = { s with mil := { s.mil with failedBoots := s.mil.failedBoots + 1 } } := ⟨_, rfl⟩
    have hexec : exec .firmwareReadyTimeout s = .next (u.rebooted false) := by
      change execFirmwareReadyTimeout s = _
      simp only [execFirmwareReadyTimeout, hgoes, Bool.false_eq_true, if_false, if_pos hfew, hu]
    refine ⟨_, hexec, hblocks u, ?_⟩
    rw [if_pos hfew, State.rebooted_mil, hu, hactive]
    exact ⟨rfl, rfl⟩
  · obtain ⟨u, hu⟩ : ∃ u, u = State.logEvent
        { s with mil := { s.mil with nextB := !s.mil.activeB, newImage := false, failedBoots := 0 } } 11 0 0 [] := ⟨_, rfl⟩
    have hexec : exec .firmwareReadyTimeout s = .next (u.rebooted false) := by
      change execFirmwareReadyTimeout s = _
      simp only [execFirmwareReadyTimeout, hgoes, Bool.false_eq_true, if_false, if_neg hfew, hu]
    refine ⟨_, hexec, hblocks u, ?_⟩
    rw [if_neg hfew, State.rebooted_mil, hu, State.logEvent_frame]
    exact ⟨rfl, rfl⟩

end Sys2Proof.Machine
end

section
/-! SUPPORT. Resets of dies, stacks and ports through RST_CTL, and their returns (R342, R352, R393). -/

namespace Sys2Proof.Machine

/-! ### RST_CTL -/

theorem exec_rstCtl_busy {s : State} (h : s.pkg.rstBusy = true) (d k p : Nat) : exec (.rstCtlDie d) s = .next s ∧
    exec (.rstCtlStack k) s = .next s ∧ exec (.rstCtlPort p) s = .next s :=
  ⟨congrArg _ (if_pos (.inl h)), congrArg _ (if_pos (.inl h)), congrArg _ (if_pos (.inl h))⟩

section Begin

variable {s : State} (hidle : s.pkg.rstBusy = false)
include hidle

theorem exec_rstCtlDie {d : Nat} (hd : d < 8) : exec (.rstCtlDie d) s = .next { s with
    pkg := { s.pkg with rstBusy := true, rstUnit := some (1, d) }
    inbox := s.inbox ++ [(s.clk.toNat, Instr.computeDieReset d)] } :=
  congrArg _ (if_neg (by simp [hidle, hd]))

theorem exec_rstCtlStack {k : Nat} (hk : k < 32) : exec (.rstCtlStack k) s = .next { s with
    pkg := { s.pkg with rstBusy := true, rstUnit := some (2, k) }
    inbox := s.inbox ++ [(s.clk.toNat, Instr.stackReset k)] } :=
  congrArg _ (if_neg (by simp [hidle, hk]))

end Begin

/-! ### Ports -/

theorem State.port_reroute {s : State} {p : Nat} (hports : p < s.ports.length) :
    (s.reroute p).port p = { s.port p with tx := [], txNext := 0 } :=
  (lget_lset Port.reset s.ports p p _ hports).trans (if_pos rfl)

/-- A change to a port leaves the clock, and gives the port the state that it settles in. -/
theorem State.onPort_settles {s : State} {p : Nat} (hp : p < 48) (hports : p < s.ports.length) (f : Port → Port) :
    (s.onPort p f).clk = s.clk ∧ ((s.onPort p f).port p).st = ((f (s.port p)).settle s.idValid).st := by
  obtain ⟨x, hx⟩ : ∃ x, x = (f (s.port p)).settle s.idValid := ⟨_, rfl⟩
  obtain ⟨u, hu⟩ : ∃ u, u = if (x.st == stDown || x.st == stRetired) && !x.tx.isEmpty then (s.setPort p x).reroute p
      else s.setPort p x := ⟨_, rfl⟩
  have hset : (s.setPort p x).port p = x := by rw [State.port_setPort _ _ _ _ hports, if_pos rfl]
  have hkept : u.clk = s.clk ∧ (u.port p).st = x.st := by
    rw [hu]
    split
    · refine ⟨rfl, ?_⟩
      rw [State.port_reroute (by rwa [State.setPort_ports, lset_length]), hset]
    · exact ⟨rfl, by rw [hset]⟩
  have hlog : s.onPort p f = if x.st = stRetired ∧ (s.port p).st ≠ stRetired then u.logEvent 9 3 p [] else u := by
    simp only [State.onPort, if_pos hp, hu, hx]
  rw [hlog, ← hx]
  split
  · rw [State.logEvent_frame]
    exact hkept
  · exact hkept

/-- An enabled port that is not down stands as it is. -/
theorem Port.settle_of_en {p : Port} (hen : p.en = true) (hst : p.st ≠ stDown) (valid : Bool) : p.settle valid = p := by
  simp [Port.settle, hen, hst]

/-- An entry to Retraining, for a port that is enabled. -/
theorem Port.st_settle_retrain {p : Port} (hen : p.en = true) (valid : Bool) :
    (p.retrain.settle valid).st = if 6 ≤ p.bucket then 5 else 3 := by
  have hst : p.retrain.st = if 6 ≤ p.bucket then 5 else 3 := by
    unfold Port.retrain
    split <;> rfl
  have hen' : p.retrain.en = true := by
    unfold Port.retrain
    split <;> exact hen
  rw [Port.settle_of_en hen' (by rw [hst]; split <;> decide), hst]

/-- RST_CTL's reset of a port: an Active one retrains. -/
theorem rstCtlPort_begins {s : State} (hidle : s.pkg.rstBusy = false) {p : Nat} (hp : p < 48) (hports : p < s.ports.length) :
    ∃ t, exec (.rstCtlPort p) s = .next t ∧ t.pkg.rstBusy = true ∧ (s.clk.toNat, .resetReturn .port p) ∈ t.inbox ∧
      ((s.port p).st = 2 → (s.port p).en = true → (t.port p).st = if 6 ≤ (s.port p).bucket then 5 else 3) := by
  obtain ⟨hclk, hst⟩ := State.onPort_settles hp hports fun p => if p.st = stActive then p.retrain else p
  have hexec : exec (.rstCtlPort p) s = .next ((s.onPort p fun p => if p.st = stActive then p.retrain else p).rstBegin 3 p
      (.resetReturn .port p)) := congrArg _ (if_neg (by simp [hidle, hp]))
  refine ⟨_, hexec, rfl, ?_, fun hactive hen => ?_⟩
  · simp [State.rstBegin, hclk]
  · refine hst.trans ?_
    rw [if_pos (show (s.port p).st = stActive from hactive), Port.st_settle_retrain hen]

/-! ### STACK_RESET -/

/-- Every line of a stack in reset reads as poisoned until it is written whole. -/
theorem stackReset_poisons {s : State} {k : Nat} (hk : k < 32) (hhbms : k < s.hbms.length) : ∃ t, exec (.stackReset k) s = .next t ∧
    (t.stack k).inReset = true ∧ (∀ sa, stackOf sa = k → t.isPoisoned sa = true) ∧
      (s.clk.toNat + 25000000, .resetReturn .stack k) ∈ t.inbox := by
  obtain ⟨u, hu⟩ : ∃ u : State, u = { s with
      lostStacks := sins s.lostStacks k, poison := s.poison.filter fun l => !(stackOf (l * 128) == k)
      sound := s.sound.filter fun l => !(stackOf (l * 128) == k) } := ⟨_, rfl⟩
  have hexec : exec (.stackReset k) s = .next (((u.setStack k { u.stack k with inReset := true }).logEvent 12 2 k []).later
      (s.now + returnClocks) (.resetReturn .stack k)) := by
    change execStackReset k s = _
    simp only [execStackReset, if_neg (Nat.not_le.mpr hk), hu]
  refine ⟨_, hexec, ?_, fun sa hsa => ?_, ?_⟩
  · rw [State.stack_later_frame, State.logEvent_stack, State.stack_setStack _ _ _ _ (by rw [hu]; exact hhbms), if_pos rfl]
  · have hline : stackOf (lineOf sa * 128) = k := by
      unfold stackOf lineOf at *
      omega
    have hpoisoned : u.isPoisoned sa = true := by
      simp [hu, State.isPoisoned, hsa, hline, mem_sins]
    exact (State.logEvent_isPoisoned _ 12 2 k [] sa).trans hpoisoned
  · simp [State.now, returnClocks, clocksOfUs]

/-! ### COMPUTE_DIE_RESET -/

/-- Steps that poison a line each change nothing but the poison. -/
theorem State.foldl_hurt_frame {α : Type} (f : α → Nat) (l : List α) (s : State) : l.foldl (fun s x => s.hurt (f x)) s =
    { s with
      poison := (l.foldl (fun s x => s.hurt (f x)) s).poison, sound := (l.foldl (fun s x => s.hurt (f x)) s).sound } := by
  induction l generalizing s with
  | nil => rfl
  | cons x l ih =>
    rw [List.foldl_cons, ih]
    rfl

theorem State.mem_poison_foldl_hurt {α : Type} (f : α → Nat) (l : List α) (s : State) {n : Nat} :
    n ∈ (l.foldl (fun s x => s.hurt (f x)) s).poison ↔ (∃ x ∈ l, f x = n) ∨ n ∈ s.poison := by
  induction l generalizing s with
  | nil => simp
  | cons x l ih =>
    rw [List.foldl_cons, ih, State.hurt, mem_sins, List.exists_mem_cons_iff, or_assoc, or_left_comm, eq_comm (a := n)]

theorem State.isPoisoned_of_mem {s : State} {sa : Nat} (h : lineOf sa ∈ s.poison) : s.isPoisoned sa = true := by
  simp [State.isPoisoned, h]

theorem State.loseCaches_kept (s : State) (d : Nat) : (s.loseCaches d).dies = s.dies ∧ (s.loseCaches d).nodes = s.nodes ∧
    (s.loseCaches d).dirty = s.dirty.filter fun x => dieOf x.core != d := by
  unfold State.loseCaches
  dsimp only
  rw [State.foldl_hurt_frame]
  exact ⟨rfl, rfl, rfl⟩

/-- The dirty lines of a die's cores are poisoned. -/
theorem State.mem_poison_loseCaches {s : State} {d : Nat} {x : DirtyByte} (hx : x ∈ s.dirty) (hd : dieOf x.core = d) :
    lineOf x.sa ∈ (s.loseCaches d).poison :=
  (State.mem_poison_foldl_hurt (fun x : DirtyByte => lineOf x.sa) _ _).mpr
    (.inl ⟨x, List.mem_filter.mpr ⟨hx, beq_iff_eq.mpr hd⟩, rfl⟩)

/-- A key that no entry has reads as the default. -/
theorem tget_of_forall_ne {α : Type} {d : α} {t : Tbl α} {n : Nat} (h : ∀ x ∈ t, x.1 ≠ n) : tget d t n = d := by
  induction t with
  | nil => rfl
  | cons x t ih =>
    obtain ⟨k, v⟩ := x
    rw [tget, if_neg (h (k, v) List.mem_cons_self).symm]
    exact ih fun y hy => h y (List.mem_cons_of_mem _ hy)

/-- The cores of a die at reset, and the lists of what was aimed at them. -/
theorem State.resetCores_frame (s : State) (d : Nat) : State.OnlySends { s with
    cores := s.cores.filter fun c => !(dieOf c.1 == d), fetchAsks := s.fetchAsks.filter fun x => !(dieOf x.1 == d)
    fetchBad := s.fetchBad.filter fun x => !(dieOf x.1 == d) } (s.resetCores d) :=
  State.onlySends_foldl (fun s p => s.onlySends_promoAck p) _ _

theorem State.core_resetCores {s : State} {d n : Nat} (h : dieOf n = d) : (s.resetCores d).core n = Core.reset := by
  rw [State.core, s.resetCores_frame d]
  refine tget_of_forall_ne fun x hx hn => ?_
  have hother := (List.mem_filter.mp hx).2
  rw [hn, h] at hother
  simp at hother

/-- The reset of a die on which nothing runs: its cores are at reset, and what they held dirty is lost. -/
theorem computeDieReset_resets {s : State} (h : Quiet s) {d : Nat} (hd : d < 8) (hdies : d < s.dies.length) :
    ∃ t, exec (.computeDieReset d) s = .next t ∧ (t.die d).inReset = true ∧ (t.die d).phase = 0 ∧ (t.die d).target = (s.die d).op ∧
      (∀ n, dieOf n = d → t.core n = Core.reset) ∧ (∀ x ∈ t.dirty, dieOf x.core ≠ d) ∧
      (∀ x ∈ s.dirty, dieOf x.core = d → t.isPoisoned x.sa = true) ∧ (s.clk.toNat + 25000000, .resetReturn .die d) ∈ t.inbox := by
  obtain ⟨u, hu⟩ : ∃ u, u = (s.loseCaches d).dropEntries fun e => dieOf (coreOf e.blk) == d || s.stopsWith d e.launch := ⟨_, rfl⟩
  obtain ⟨v, hv⟩ : ∃ v, v = u.resetCores d := ⟨_, rfl⟩
  obtain ⟨w, hw⟩ : ∃ w, w = { v with
      inbox := v.inbox.filter fun e => !ofChange d e.2, heldClusters := v.heldClusters.filter fun c => c / 12 != d
      saving := v.saving.filter fun k => k % 8 != d, running := v.running.filter fun r => r.1 % 8 != d } := ⟨_, rfl⟩
  obtain ⟨t, ht⟩ : ∃ t, t = w.setDie d { v.die d with phase := 0, target := (v.die d).op, hints := [], inReset := true } := ⟨_, rfl⟩
  have hexec : exec (.computeDieReset d) s =
      .next ((t.logEvent 12 1 d []).startNodes.later (s.now + returnClocks) (.resetReturn .die d)) := by
    change execComputeDieReset d s = _
    simp only [execComputeDieReset, if_neg (Nat.not_le.mpr hd), h.blocks, List.filter_nil, List.foldl_nil, ht, hw, hv, hu]
  obtain ⟨hudies, hunodes, hudirty⟩ : u.dies = s.dies ∧ u.nodes = s.nodes ∧
      u.dirty = s.dirty.filter fun x => dieOf x.core != d := by
    rw [hu]
    exact s.loseCaches_kept d
  obtain ⟨hvdies, hvnodes, hvdirty, hvpoison⟩ : v.dies = u.dies ∧ v.nodes = u.nodes ∧ v.dirty = u.dirty ∧ v.poison = u.poison := by
    rw [hv, u.resetCores_frame d]
    exact ⟨rfl, rfl, rfl, rfl⟩
  have hwdies : w.dies = s.dies := by rw [hw, ← hudies, ← hvdies]
  have hvdie : v.die d = s.die d := by rw [State.die, hvdies, hudies, State.die]
  have htdie : t.die d = { s.die d with phase := 0, target := (s.die d).op, hints := [], inReset := true } := by
    rw [ht, State.die_setDie _ _ _ _ (by rwa [hwdies]), if_pos rfl, hvdie]
  have htdirty : t.dirty = s.dirty.filter fun x => dieOf x.core != d := by rw [ht, hw, ← hudirty, ← hvdirty]; rfl
  have htpoison : t.poison = (s.loseCaches d).poison := by
    rw [ht, hw]
    exact hvpoison.trans (by rw [hu]; rfl)
  have hstart : (t.logEvent 12 1 d []).startNodes = t.logEvent 12 1 d [] := by
    refine State.startNodes_of_none fun x hx => ?_
    rw [State.logEvent_frame, ht, hw] at hx
    simp only [State.setDie_nodes, hvnodes, hunodes, h.nodes] at hx
    cases hx
  rw [hstart] at hexec
  refine ⟨_, hexec, ?_, ?_, ?_, fun n hn => ?_, fun x hx => ?_, fun x hx hxd => ?_, ?_⟩
  · rw [State.die_later_frame, State.logEvent_die, htdie]
  · rw [State.die_later_frame, State.logEvent_die, htdie]
  · rw [State.die_later_frame, State.logEvent_die, htdie]
  · rw [State.core_later_frame, State.logEvent_core, ht, State.core_setDie_frame, ← State.core_resetCores (s := u) hn, ← hv, hw]
    rfl
  · rw [State.later_dirty, State.logEvent_frame, htdirty] at hx
    simpa using (List.mem_filter.mp hx).2
  · refine (State.logEvent_isPoisoned t 12 1 d [] x.sa).trans (State.isPoisoned_of_mem ?_)
    rw [htpoison]
    exact State.mem_poison_loseCaches hx hxd
  · simp [State.now, returnClocks, clocksOfUs]

end Sys2Proof.Machine
end

section
/-! SUPPORT. The returns of dies, stacks and ports from their resets (R178, R342, R393). -/

namespace Sys2Proof.Machine

/-! ### Homes that are reached again -/

/-- No block, no arrived request and no access in a die's FIFO waits for the die's homes. -/
structure NoneWaitsAt (s : State) (d : Nat) : Prop where
  die : d < s.dies.length
  fifo : (s.die d).fifo = []
  reorder : s.reorder = []
  blocks : s.blocks = []

theorem NoneWaitsAt.of_frame {s t : State} {d : Nat} (h : NoneWaitsAt s d) (hdies : t.dies = s.dies) (hreorder : t.reorder = s.reorder)
    (hblocks : t.blocks = s.blocks) : NoneWaitsAt t d where
  die := hdies ▸ h.die
  fifo := by rw [State.die, hdies, ← State.die, h.fifo]
  reorder := hreorder.trans h.reorder
  blocks := hblocks.trans h.blocks

theorem NoneWaitsAt.setDie {s : State} {d : Nat} (h : NoneWaitsAt s d) {x : Die} (hx : x.fifo = []) : NoneWaitsAt (s.setDie d x) d where
  die := by rw [State.setDie_dies, lset_length]; exact h.die
  fifo := by rw [State.die_setDie _ _ _ _ h.die, if_pos rfl, hx]
  reorder := h.reorder
  blocks := h.blocks

theorem State.setDie_self {s : State} {d : Nat} (h : d < s.dies.length) : s.setDie d (s.die d) = s := by
  have hget : s.dies[d]? = some (s.die d) := by
    rw [State.die, lget_eq_getD, List.getD_eq_getElem _ _ h, List.getElem?_eq_getElem h]
  rw [State.setDie, lset_getElem_self hget]

/-- Draining a FIFO where nothing waits only lets queues go on. -/
theorem NoneWaitsAt.drainFifo {s : State} {d : Nat} (h : NoneWaitsAt s d) : s.drainFifo d = { s with hwqs := (s.drainFifo d).hwqs } := by
  have hsame : s.setDie d { s.die d with fifo := [] } = s := by rw [← h.fifo, State.setDie_self h.die]
  have hdrain : s.drainFifo d = s.wakeHomes := by
    simp only [State.drainFifo, h.fifo, List.foldl_nil, hsame]
    rw [State.deliverWaiting, h.reorder]
    rfl
  rw [hdrain]
  simp [State.wakeHomes, State.onBlocks, h.blocks]

/-! ### The end of RST_CTL's reset -/

theorem State.rstEnd_frame (s : State) (kind idx : Nat) : s.rstEnd kind idx = { s with pkg := (s.rstEnd kind idx).pkg } := by
  unfold State.rstEnd
  split <;> rfl

theorem State.rstEnd_done {s : State} {kind idx : Nat} (h : s.pkg.rstUnit = some (kind, idx)) :
    (s.rstEnd kind idx).pkg.rstBusy = false := by
  rw [State.rstEnd, if_pos h]

/-! ### Dies -/

theorem exec_resetReturn_die_stays {s : State} {d : Nat} (h : (s.die d).inReset = false) :
    exec (.resetReturn .die d) s = .next s := by
  change execResetReturn .die d s = _
  simp only [execResetReturn, h, Bool.false_and, Bool.false_eq_true, if_false]

/-- A die whose point is within its cap, and for which no request waits, stands where it is. -/
theorem State.endChange_of_within {s : State} {d : Nat} (hwait : (s.die d).waiting = none) (hcap : (s.die d).op ≤ (s.die d).capNow) :
    s.endChange d = s.setDie d { s.die d with phase := 0, waiting := none } := by
  simp only [State.endChange, hwait, if_neg (Nat.not_lt.mpr hcap)]

/-- A die returns at its former point within its cap, if the store is valid (R388). -/
theorem resetReturn_die {s : State} {d : Nat} (h : NoneWaitsAt s d) (hreset : (s.die d).inReset = true)
    (hwait : (s.die d).waiting = none) : ∃ t, exec (.resetReturn .die d) s = .next t ∧ (t.die d).inReset = (!Config.storeOk) ∧
      (Config.storeOk = true → (t.die d).op = min (s.die d).op (s.die d).capNow ∧ (t.die d).phase = 0) := by
  cases hstore : Config.storeOk with
  | false =>
    have hexec : exec (.resetReturn .die d) s = .next s := by
      change execResetReturn .die d s = _
      simp only [execResetReturn, hstore, Bool.and_false, Bool.false_eq_true, if_false]
    exact ⟨s, hexec, hreset, nofun⟩
  | true =>
    obtain ⟨x, hx⟩ : ∃ x : Die, x = { s.die d with
        inReset := false, op := min (s.die d).op (s.die d).capNow, target := min (s.die d).op (s.die d).capNow } := ⟨_, rfl⟩
    obtain ⟨u, hu⟩ : ∃ u, u = (s.setDie d x).setDie d { x with phase := 0, waiting := none } := ⟨_, rfl⟩
    have hxfifo : x.fifo = [] := by rw [hx]; exact h.fifo
    have hset : (s.setDie d x).die d = x := by rw [State.die_setDie _ _ _ _ h.die, if_pos rfl]
    have hchange : (s.setDie d x).endChange d = u := by
      rw [State.endChange_of_within, hset, hu]
      · rw [hset, hx]
        exact hwait
      · rw [hset, hx]
        exact Nat.min_le_right _ _
    have hnone : NoneWaitsAt u d := by
      rw [hu]
      exact (h.setDie hxfifo).setDie hxfifo
    have hexec : exec (.resetReturn .die d) s = .next ((u.drainFifo d).rstEnd 1 d) := by
      change execResetReturn .die d s = _
      simp only [execResetReturn, hreset, hstore, Bool.and_self, if_true, State.dieReturn, ← hx, hchange]
    have hdie : ((u.drainFifo d).rstEnd 1 d).die d = { x with phase := 0, waiting := none } := by
      rw [State.rstEnd_frame, hnone.drainFifo, hu]
      change ((s.setDie d x).setDie d _).die d = _
      rw [State.die_setDie _ _ _ _ (h.setDie hxfifo).die, if_pos rfl]
    refine ⟨_, hexec, ?_, fun _ => ⟨?_, ?_⟩⟩
    · rw [hdie, hx]
      rfl
    · rw [hdie, hx]
    · rw [hdie]

/-! ### Stacks -/

theorem State.onlyStores_recopyJournal (s : State) (k : Nat) (j twin : Dword) : s.OnlyStores (s.recopyJournal k j twin) := by
  unfold State.recopyJournal
  split
  · exact s.onlyStores_refl
  · refine State.onlyStores_foldl (fun s i => ?_) _ _
    split
    · split
      · exact s.onlyStores_homeWrite _ _
      · exact s.onlyStores_refl
    · exact s.onlyStores_refl

/-- A stack returns; while no queue is in use, no header is written again. -/
theorem resetReturn_stack {s : State} {k : Nat} (hk : k < s.hbms.length) (h : NoneWaitsAt s (k / 4))
    (hreset : (s.stack k).inReset = true) (hhwqs : s.hwqs = []) : ∃ t, exec (.resetReturn .stack k) s = .next t ∧
      t.stack k = { s.stack k with inReset := false } ∧ (s.pkg.rstUnit = some (2, k) → t.pkg.rstBusy = false) := by
  obtain ⟨u, hu⟩ : ∃ u, u = s.setStack k { s.stack k with inReset := false } := ⟨_, rfl⟩
  obtain ⟨v, hv⟩ : ∃ v, v = (u.recopyJournal k u.pkg.jrnA u.pkg.jrnB).recopyJournal k u.pkg.jrnB u.pkg.jrnA := ⟨_, rfl⟩
  have hstores : u.OnlyStores v := by
    rw [hv]
    exact State.onlyStores_trans (u.onlyStores_recopyJournal ..) (State.onlyStores_recopyJournal ..)
  have hheaders : v.rewriteHeaders k = v := by
    have hnone : v.hwqs = [] := by rw [hstores, hu]; exact hhwqs
    rw [State.rewriteHeaders, hnone]
    rfl
  have hnone : NoneWaitsAt v (k / 4) := h.of_frame (by rw [hstores, hu]; rfl) (by rw [hstores, hu]; rfl) (by rw [hstores, hu]; rfl)
  have hexec : exec (.resetReturn .stack k) s = .next ((v.drainFifo (k / 4)).rstEnd 2 k) := by
    change execResetReturn .stack k s = _
    simp only [execResetReturn, hreset, if_true, ← hu, ← hv, hheaders]
  refine ⟨_, hexec, ?_, fun hunit => State.rstEnd_done ?_⟩
  · rw [State.rstEnd_frame, hnone.drainFifo, hstores, hu]
    change (s.setStack k _).stack k = _
    rw [State.stack_setStack _ _ _ _ hk, if_pos rfl]
  · rw [hnone.drainFifo, hstores, hu]
    exact hunit

/-! ### Ports -/

theorem resetReturn_port {s : State} {p : Nat} (h : (s.port p).st ≠ 3) : ∃ t, exec (.resetReturn .port p) s = .next t ∧
    t.ports = s.ports ∧ (s.pkg.rstUnit = some (3, p) → t.pkg.rstBusy = false) := by
  have hexec : exec (.resetReturn .port p) s = .next (s.rstEnd 3 p) := congrArg Host.Outcome.next (if_neg h)
  exact ⟨_, hexec, by rw [State.rstEnd_frame], State.rstEnd_done⟩

end Sys2Proof.Machine
end

section
/-! SUPPORT. O60: the host's accesses, virtual functions, Milliner's mailbox and the resets. -/

namespace Sys2Proof.Machine

/-- The die at which a read of O60 waits: that of its home, or of the only host write that waits. -/
theorem State.hostStop_read {s : State} {d sa : Nat} (hd : d < 8) (h : (s.NoHostWrite ∧ s.accessWaits sa = true ∧ homeDie sa = d) ∨
    ((∀ n < 8, n ≠ d → (s.die n).fifo = []) ∧ ∃ o z l ro, (s.die d).fifo = [.hostBar2Access .pf o z (.write l ro)])) :
    s.hostStop .read sa = some d := by
  rw [State.hostStop]
  rcases h with ⟨hfree, haway, hhome⟩ | ⟨hother, o, z, l, ro, hwrite⟩
  · rw [hfree.hostBehind, haway, hhome]
    rfl
  · rw [State.hostBehind_read hd hother hwrite]
    rfl

/-- Settles O60: each event by the lemma on what it does. -/
theorem hostEvents : Obligations.HostEvents := by
  unfold Obligations.HostEvents
  intro s d k p v hd hk hp hv hdies hhbms hports stays leads mailed quiet idle free
  have hquiet : quiet → Quiet s := fun ⟨hblocks, hlaunches, hnodes⟩ => ⟨hblocks, hlaunches, hnodes⟩
  refine ⟨?_, fun off size op h => exec_bar2_vfDisabled h off size op, vfEnable_enables hv s,
    fun h => ⟨vfReset_turnsOff (hquiet h) hv, pfReset_turnsOff (hquiet h) p⟩, spdmStart_begins s, spdmEnd_ends s,
    fun slot key h => spdmInstall_installs h slot key, spdmOther_answers s, fun _ => rfl,
    fun cause => packageReset_resets s cause hd, rfl, fun h => exec_rstCtl_busy h d k p,
    fun h => ⟨exec_rstCtlDie h hd, exec_rstCtlStack h hk, rstCtlPort_begins h hp (by omega)⟩,
    fun h => computeDieReset_resets (hquiet h) hd (by omega), stackReset_poisons hk (by omega), ?_, exec_resetReturn_die_stays, ?_,
    resetReturn_port, readEventRecords_answers s, stageFirmwareChunk_stages s, ⟨commitFirmware_empty, commitFirmware_checks⟩,
    exec_firmwareReadyTimeout_stays, firmwareReadyTimeout_boots⟩
  · intro off size a sa hpos hroom hend
    have hin : s.InWindow off size sa := ⟨rfl, hpos, hroom, hend⟩
    exact ⟨fun hfree hhome => ⟨fun l ro hl => bar2Write_writes hin hfree hhome hl ro, exec_bar2Read hin hfree hhome,
        fun x hsound hdir => bar2FetchAdd_adds hin hfree hhome hsound hdir x⟩,
      fun h => bar2Read_waits hin (by omega) (State.hostStop_read hd h)⟩
  · exact fun hreset hwait hfifo ⟨hblocks, hreorder⟩ => resetReturn_die ⟨by omega, hfifo, hreorder, hblocks⟩ hreset hwait
  · exact fun hreset hhwqs hfifo ⟨hblocks, hreorder⟩ =>
      resetReturn_stack (by omega) ⟨by omega, hfifo, hreorder, hblocks⟩ hreset hhwqs

end Sys2Proof.Machine
end

section
/-! SUPPORT. The checks of an access before its place is translated: the capability, alignment, and the bounds of the apertures
(R206, R207, R223, R451). -/

namespace Sys2Proof.Machine

/-! ### One lane -/

/-- The bytes of an access lie in a capability, whose reach ends with the address space (R223). -/
def InCapability (q : Quad) (a : Int) (z : Nat) : Prop :=
  ((q.toNat % 2 ^ 57 : Nat) : Int) ≤ a ∧ a + z ≤ (q.toNat % 2 ^ 57 + q.toNat / 2 ^ 57 % 2 ^ 48 : Nat) ∧ a + z ≤ 2 ^ 57

theorem capBase_eq (q : Quad) : capBase q = q.toNat % 2 ^ 57 := by
  simp only [capBase, BitVec.extractLsb'_toNat, Nat.shiftRight_zero]

theorem capLen_eq (q : Quad) : capLen q = q.toNat / 2 ^ 57 % 2 ^ 48 := by
  simp only [capLen, BitVec.extractLsb'_toNat, Nat.shiftRight_eq_div_pow]

theorem inCapability_iff (q : Quad) (a : Int) (z : Nat) :
    InCapability q a z ↔ ¬ (a < capBase q ∨ (capBase q + capLen q : Nat) < a + z ∨ (2 ^ 57 : Int) < a + z) := by
  rw [InCapability, capBase_eq, capLen_eq]
  simp only [not_or, not_lt]

section Capability

variable {q : Quad} {tag : Bool} {perm : Quad → Bool} {a : Int} {z : Nat}

theorem capCheck_untagged (htag : tag = false) : capCheck q tag perm a z = some 0 := by
  rw [capCheck, htag]
  rfl

theorem capCheck_outside (htag : tag = true) (hout : ¬ InCapability q a z) : capCheck q tag perm a z = some 1 := by
  rw [inCapability_iff, not_not] at hout
  rw [capCheck, htag, if_pos hout]
  rfl

theorem capCheck_denied (htag : tag = true) (hin : InCapability q a z) (hperm : perm q = false) :
    capCheck q tag perm a z = some 2 := by
  rw [inCapability_iff] at hin
  rw [capCheck, htag, if_neg hin, hperm]
  rfl

theorem capCheck_passes (htag : tag = true) (hin : InCapability q a z) (hperm : perm q = true) :
    capCheck q tag perm a z = none := by
  rw [inCapability_iff] at hin
  rw [capCheck, htag, if_neg hin, hperm]
  rfl

end Capability

/-- The address that a lane forms, with the capability's base as a number (R223, R449). -/
theorem State.addr_eq (s : State) (c : Cur) (cap : Bool) (b off : Opnd) (j : Nat) : s.addr c cap b off j =
    if cap then ((c.quad b j).toNat : Int) % 2 ^ 57 + (s.rd32 c off j).toInt
    else ((s.rd64 c b j + BitVec.ofInt 64 (s.rd32 c off j).toInt).toNat : Int) := by
  rw [State.addr]
  cases cap with
  | false => rfl
  | true =>
    simp only [if_true, BitVec.extractLsb'_toNat, Nat.shiftRight_zero]
    push_cast
    rfl

/-- Where an access lies inside the scratchpad and the lane's stack (R206, R207). -/
theorem State.steer_inside (s : State) (blk : Block) (wave lane : Nat) (a : Int) (z : Nat) :
    (s.steer blk wave lane a z).inside = true ↔
      let aper := (s.ctx blk.ctx).aper.toNat
      let va := (a % 2 ^ 57).toNat
      if va / 2 ^ 30 = aper % 2 ^ 27 then va % 2 ^ 30 + z ≤ blk.spadSize
      else if va / 2 ^ 30 = aper / 2 ^ 34 % 2 ^ 27 then va % 2 ^ 30 + z ≤ recStackSize (s.launch blk.launch).record
      else True := by
  have hlow : bits (s.ctx blk.ctx).aper.toNat 0 27 = (s.ctx blk.ctx).aper.toNat % 2 ^ 27 := by
    rw [bits_eq, pow_zero, Nat.div_one]
  extract_lets aper va
  simp only [State.steer]
  by_cases hspad : va / 2 ^ 30 = aper % 2 ^ 27
  · rw [if_pos hspad, if_pos (hspad.trans hlow.symm)]
    exact decide_eq_true_iff
  rw [if_neg hspad, if_neg fun h => hspad (h.trans hlow)]
  by_cases hstack : va / 2 ^ 30 = aper / 2 ^ 34 % 2 ^ 27
  · rw [if_pos hstack, if_pos (hstack.trans (bits_eq _ _ _).symm)]
    exact decide_eq_true_iff
  · rw [if_neg hstack, if_neg fun h => hstack (h.trans (bits_eq _ _ _))]
    exact iff_of_true rfl trivial

/-! ### The lanes of an instruction -/

theorem any_lanesOf {p : LaneSet} {f : Nat → Bool} : (lanesOf p).any f = true ↔ ∃ j, (j < 32 ∧ p.getLsbD j = true) ∧ f j = true := by
  simp only [List.any_eq_true, mem_lanesOf]

section Lanes

variable {s : State} {c : Cur} {blk : Block} {p : LaneSet} {cap : Bool} {perm : Quad → Bool} {b off : Opnd} {z : Nat}

/-- The first check that a lane's capability fails, where the access is through one. -/
def State.capFault (s : State) (c : Cur) (cap : Bool) (perm : Quad → Bool) (b off : Opnd) (z j : Nat) : Option Nat :=
  if cap then capCheck (c.quad b j) (c.tag b j) perm (s.addr c cap b off j) z else none

section CapFault

variable {j : Nat}

theorem State.capFault_untagged (hcap : cap = true) (htag : c.tag b j = false) : s.capFault c cap perm b off z j = some 0 := by
  rw [State.capFault, if_pos hcap, capCheck_untagged htag]

theorem State.capFault_outside (hcap : cap = true) (htag : c.tag b j = true)
    (hout : ¬ InCapability (c.quad b j) (s.addr c cap b off j) z) : s.capFault c cap perm b off z j = some 1 := by
  rw [State.capFault, if_pos hcap, capCheck_outside htag hout]

theorem State.capFault_denied (hcap : cap = true) (htag : c.tag b j = true)
    (hin : InCapability (c.quad b j) (s.addr c cap b off j) z) (hperm : perm (c.quad b j) = false) :
    s.capFault c cap perm b off z j = some 2 := by
  rw [State.capFault, if_pos hcap, capCheck_denied htag hin hperm]

theorem State.capFault_eq_none (h : cap = true → c.tag b j = true ∧ InCapability (c.quad b j) (s.addr c cap b off j) z ∧
    perm (c.quad b j) = true) : s.capFault c cap perm b off z j = none := by
  rw [State.capFault]
  split
  · next hcap =>
    obtain ⟨htag, hin, hperm⟩ := h hcap
    exact capCheck_passes htag hin hperm
  · rfl

theorem State.one_le_capFault {e : Nat} (htag : c.tag b j = true) (h : s.capFault c cap perm b off z j = some e) : 1 ≤ e := by
  rw [State.capFault] at h
  split at h
  · by_cases hin : InCapability (c.quad b j) (s.addr c cap b off j) z
    · cases hperm : perm (c.quad b j)
      · rw [capCheck_denied htag hin hperm] at h
        exact Option.some.inj h ▸ Nat.le_succ 1
      · rw [capCheck_passes htag hin hperm] at h
        cases h
    · rw [capCheck_outside htag hin] at h
      exact (Option.some.inj h).le
  · cases h

theorem State.two_le_capFault {e : Nat} (htag : c.tag b j = true) (hin : InCapability (c.quad b j) (s.addr c cap b off j) z)
    (h : s.capFault c cap perm b off z j = some e) : 2 ≤ e := by
  rw [State.capFault] at h
  split at h
  · cases hperm : perm (c.quad b j)
    · rw [capCheck_denied htag hin hperm] at h
      exact (Option.some.inj h).le
    · rw [capCheck_passes htag hin hperm] at h
      cases h
  · cases h

end CapFault

theorem State.checkAccess_eq (s : State) (c : Cur) (blk : Block) (p : LaneSet) (cap : Bool) (perm : Quad → Bool) (b off : Opnd)
    (z : Nat) : s.checkAccess c blk p cap perm b off z =
      match ((lanesOf p).filterMap (s.capFault c cap perm b off z)).min? with
      | some d => .error (0x06, d)
      | none =>
        if (lanesOf p).any fun j => s.addr c cap b off j % z != 0 then .error (0x07, 0)
        else if (lanesOf p).any fun j => !(s.steer blk c.wid j (s.addr c cap b off j) z).inside then .error (0x06, 1)
        else .ok ((lanesOf p).map fun j => (j, s.steer blk c.wid j (s.addr c cap b off j) z)) := by
  have hfaults : (if cap then ((lanesOf p).map fun i => (i, s.addr c cap b off i)).filterMap
      fun x => capCheck (c.quad b x.1) (c.tag b x.1) perm x.2 z else []) = (lanesOf p).filterMap (s.capFault c cap perm b off z) := by
    cases cap with
    | false => exact (List.filterMap_eq_nil_iff.mpr fun _ _ => rfl).symm
    | true => exact List.filterMap_map ..
  rw [State.checkAccess]
  simp only [hfaults, List.any_map, List.map_map]
  rfl

/-- The least failing check of any lane's capability decides (R223). -/
theorem State.checkAccess_capFault {d : Nat} (hfails : ∃ j, (j < 32 ∧ p.getLsbD j = true) ∧ s.capFault c cap perm b off z j = some d)
    (hleast : ∀ j e, j < 32 ∧ p.getLsbD j = true → s.capFault c cap perm b off z j = some e → d ≤ e) :
    s.checkAccess c blk p cap perm b off z = .error (0x06, d) := by
  have hmin : ((lanesOf p).filterMap (s.capFault c cap perm b off z)).min? = some d := by
    refine List.min?_eq_some_iff.mpr ⟨?_, fun e he => ?_⟩
    · obtain ⟨j, hj, hfail⟩ := hfails
      exact List.mem_filterMap.mpr ⟨j, (mem_lanesOf p j).mpr hj, hfail⟩
    · obtain ⟨j, hj, hfail⟩ := List.mem_filterMap.mp he
      exact hleast j e ((mem_lanesOf p j).mp hj) hfail
  rw [State.checkAccess_eq, hmin]

/-- With no capability at fault alignment is checked, then the apertures' bounds (R451). -/
theorem State.checkAccess_uncapped (hcaps : ∀ j, j < 32 ∧ p.getLsbD j = true → s.capFault c cap perm b off z j = none) :
    s.checkAccess c blk p cap perm b off z =
      if (lanesOf p).any fun j => s.addr c cap b off j % z != 0 then .error (0x07, 0)
      else if (lanesOf p).any fun j => !(s.steer blk c.wid j (s.addr c cap b off j) z).inside then .error (0x06, 1)
      else .ok ((lanesOf p).map fun j => (j, s.steer blk c.wid j (s.addr c cap b off j) z)) := by
  have hnone : (lanesOf p).filterMap (s.capFault c cap perm b off z) = [] :=
    List.filterMap_eq_nil_iff.mpr fun j hj => hcaps j ((mem_lanesOf p j).mp hj)
  rw [State.checkAccess_eq, hnone]
  rfl

theorem State.checkAccess_misaligned (hcaps : ∀ j, j < 32 ∧ p.getLsbD j = true → s.capFault c cap perm b off z j = none)
    (hmis : ∃ j, (j < 32 ∧ p.getLsbD j = true) ∧ s.addr c cap b off j % z ≠ 0) :
    s.checkAccess c blk p cap perm b off z = .error (0x07, 0) := by
  obtain ⟨j, hj, hmis⟩ := hmis
  have hany : ((lanesOf p).any fun j => s.addr c cap b off j % z != 0) = true := any_lanesOf.mpr ⟨j, hj, by simpa using hmis⟩
  rw [State.checkAccess_uncapped hcaps, if_pos hany]

theorem State.checkAccess_outside (hcaps : ∀ j, j < 32 ∧ p.getLsbD j = true → s.capFault c cap perm b off z j = none)
    (hall : ∀ j, j < 32 ∧ p.getLsbD j = true → s.addr c cap b off j % z = 0)
    (hout : ∃ j, (j < 32 ∧ p.getLsbD j = true) ∧ ¬ (s.steer blk c.wid j (s.addr c cap b off j) z).inside = true) :
    s.checkAccess c blk p cap perm b off z = .error (0x06, 1) := by
  obtain ⟨j, hj, hout⟩ := hout
  have hnone : ¬ ((lanesOf p).any fun j => s.addr c cap b off j % z != 0) = true := by
    rw [any_lanesOf]
    rintro ⟨i, hi, hmis⟩
    simp [hall i hi] at hmis
  have hany : ((lanesOf p).any fun j => !(s.steer blk c.wid j (s.addr c cap b off j) z).inside) = true :=
    any_lanesOf.mpr ⟨j, hj, by simpa using hout⟩
  rw [State.checkAccess_uncapped hcaps, if_neg hnone, if_pos hany]

end Lanes

/-! ### The instructions -/

section Instructions

variable {s : State} {c : Cur} {blk : Block} {k : Ctl}

theorem onBlk_eq (hc : s.cur? = some c) (hb : s.block? c.bid = some blk) {o : Opnd} (htrap : s.paramTrap c (s.parts c k) 1 [o] = none)
    (f : Cur → Block → LaneSet → State) : onBlk s k o f = .next (f c blk (s.parts c k)) := by
  rw [onBlk, onCur_eq hc]
  simp only [htrap, hb]

/-- Settles O26: the checks of each instruction are those of one shared operation, whose outcome per failing check is known. -/
theorem accessChecks : Obligations.AccessChecks := by
  unfold Obligations.AccessChecks
  intro s c k blk size ssize sc x xfer op rop w64 sg rel o cmp a b d e f hc hb htrap part q disp ea within aper inside checks
  have hea (cap : Bool) (j : Nat) : s.addr c cap b d j = ea cap j := s.addr_eq c cap b d j
  have hchecks {i : Instr} {cap : Bool} {perm : Quad → Bool} {bit z : Nat} (hperm : ∀ j, perm (q j) = (q j).getLsbD bit)
      (hraise : ∀ kind detail, s.checkAccess c blk (s.parts c k) cap perm b d z = .error (kind, detail) →
        exec i s = .next (s.raise c kind detail)) : checks i cap bit z := by
    have hwithin (j : Nat) (hcap : cap = true) : InCapability (q j) (s.addr c cap b d j) z ↔ within z j := by
      rw [hea, hcap]
      rfl
    have htagged {j : Nat} (hun : ¬ ∃ j, part j ∧ c.tag b j = false) (hj : part j) : c.tag b j = true :=
      Bool.eq_true_of_not_eq_false fun htag => hun ⟨j, hj, htag⟩
    have hreached {j : Nat} (hcap : cap = true) (hout : ¬ ∃ j, part j ∧ ¬ within z j) (hj : part j) :
        InCapability (q j) (s.addr c cap b d j) z :=
      (hwithin j hcap).mpr (not_not.mp fun h => hout ⟨j, hj, h⟩)
    refine ⟨fun hcap ⟨j, hj, htag⟩ => hraise _ _ ?_, fun hcap hun ⟨j, hj, hout⟩ => hraise _ _ ?_,
      fun hcap hun hout ⟨j, hj, hdenied⟩ => hraise _ _ ?_, fun hok => ?_⟩
    · exact State.checkAccess_capFault ⟨j, hj, State.capFault_untagged hcap htag⟩ fun _ _ _ _ => Nat.zero_le _
    · refine State.checkAccess_capFault ⟨j, hj, State.capFault_outside hcap (htagged hun hj) (mt (hwithin j hcap).mp hout)⟩ ?_
      exact fun i e hi => State.one_le_capFault (htagged hun hi)
    · rw [← hperm] at hdenied
      refine State.checkAccess_capFault
        ⟨j, hj, State.capFault_denied hcap (htagged hun hj) (hreached hcap hout hj) hdenied⟩ ?_
      exact fun i e hi => State.two_le_capFault (htagged hun hi) (hreached hcap hout hi)
    · have hnone (j : Nat) (hj : part j) : s.capFault c cap perm b d z j = none := by
        refine State.capFault_eq_none fun hcap => ?_
        obtain ⟨hun, hout, hden⟩ := hok hcap
        refine ⟨htagged hun hj, hreached hcap hout hj, ?_⟩
        rw [hperm]
        exact Bool.eq_true_of_not_eq_false fun h => hden ⟨j, hj, h⟩
      refine ⟨fun ⟨j, hj, hmis⟩ => hraise _ _ ?_, fun hall ⟨j, hj, hout⟩ => hraise _ _ ?_⟩
      · exact State.checkAccess_misaligned hnone ⟨j, hj, by rwa [hea]⟩
      · refine State.checkAccess_outside hnone (fun i hi => by rw [hea]; exact hall i hi) ⟨j, hj, ?_⟩
        rw [hea]
        exact mt (s.steer_inside blk c.wid j (ea cap j) z).mp hout
  have hzero := State.paramTrap_zero s c (s.parts c k)
  intro cap
  refine ⟨hchecks (perm := capRead) (fun _ => rfl) fun kind detail h => ?_, hchecks (perm := capWrite) (fun _ => rfl) fun kind detail h => ?_,
    hchecks (perm := capAtomic) (fun _ => rfl) fun kind detail h => ?_, hchecks (perm := capAtomic) (fun _ => rfl) fun kind detail h => ?_,
    hchecks (perm := capRead) (fun _ => rfl) fun kind detail h => ?_, hchecks (perm := capPromote) (fun _ => rfl) fun kind detail h => ?_⟩
  · change execLd k size sc cap xfer a b d s = _
    simp only [execLd, onBlk_eq hc hb htrap, h]
  · change execSt k ssize sc cap xfer b d e s = _
    simp only [execSt, onBlk_eq hc hb htrap, h]
  · rw [← four_mul_regs64] at h
    change execAtom k op w64 sg x o cap a b d e f s = _
    simp only [execAtom, atomStart, onBlk_eq hc hb hzero, h]
  · rw [← four_mul_regs64] at h
    change execRed k rop w64 sg x rel cap b d e s = _
    simp only [execRed, atomStart, onBlk_eq hc hb hzero, h]
  · rw [← four_mul_regs64] at h
    change execWaita k cmp w64 sc cap b d e s = _
    simp only [execWaita, onBlk_eq hc hb htrap, h]
  · change execAcqpCap k x b d s = _
    simp only [execAcqpCap, onBlk_eq hc hb hzero, h]

end Instructions

end Sys2Proof.Machine
end

section
/-! SUPPORT. Parameter windows: a window whose only word has its first byte in this package and the others in the next one. The
window's frames there are those that this package's tables give, and the bytes that can be read are those of the next package's
copy, so that no value of the word is both. -/

namespace Sys2Proof.Machine

/-- Tables that map the first and the last GiB of this package's part of the address space, and a copy of the line after it. -/
def straddleTables : State :=
  let s := State.reset.setCtx 0 { State.reset.ctx 0 with trnRoot := BitVec.ofNat 64 (placedRoot + 1) }
  let s1 := s.homeWrite (storageOf placedRoot) (bytesOf 8 placedLeaf)
  let s2 := s1.homeWrite (storageOf (placedRoot + 8 * 32767)) (bytesOf 8 placedLeaf)
  { s2 with peerCopies := [(2 ^ 38, copies 1 128)] }

/-- The window of one word at the last byte of this package, as a launch binds it there (R227). -/
def straddleWindow : Param := straddleTables.bindWindow 0 { bound := true, base := 2 ^ 45 - 1, size := 4 }

/-- A block with that window has an instruction in hand. -/
def straddleState : State :=
  { straddleTables.setBlock 0 { placedBlock 0 0 with params := [straddleWindow] } with
    issue := some { agent := .wave 0 0, active := allLanes, price := 0 } }

/-- The instruction in hand there. -/
def straddleCur : Cur :=
  { agent := .wave 0 0, active := allLanes, price := 0, bid := 0, wid := 0, wave := Wave.start 0 65535, ctx := 0, core := 0
    params := [straddleWindow], trapOnParam := false }

/-- The bytes of the window: zero in this package, one in the copy of the next package's line. -/
def straddleByte (j : Nat) : Byte := if j = 0 then 0 else 1

theorem straddleState_cur : straddleState.cur? = some straddleCur := rfl

theorem straddleWindow_eq : straddleWindow =
    { bound := true, base := 2 ^ 45 - 1, size := 4, frames := [(2 ^ 29 - 1, 2 ^ 30 - 65536), (2 ^ 29, 0)], held := [] } := by
  decide +kernel

theorem straddleState_paramByte : ∀ j < 4, straddleState.paramByte 0 (2 ^ 45 - 1 + j) = some (straddleByte j) := by decide +kernel

theorem straddleState_isLocal : ∀ j < 4, straddleState.isLocal (2 ^ 45 - 1 + j) = true → j = 0 := by decide +kernel

theorem straddleState_translate :
    straddleState.translate 0 (2 ^ 45 - 1) .read = .ok ⟨storageOf (2 ^ 30 - 1), false, true⟩ := by decide +kernel

theorem straddleState_frameOf : straddleWindow.frameOf (2 ^ 45 - 1) = some (storageOf (2 ^ 30 - 1)) ∧
    tget 0 straddleWindow.held (2 ^ 45 - 1) = straddleByte 0 := by decide +kernel

/-- The word may read as zero alone: what its frames hold. -/
theorem straddleState_paramMay : straddleState.paramMay 0 straddleWindow (2 ^ 45 - 1) = [0, 0] := by decide +kernel

theorem straddleState_wordStop :
    straddleState.wordStop straddleCur (straddleCur.paramWords 1 (.param 0 0)) = none := by decide +kernel

/-- Refutes O25: the word of a window that leaves this package after its first byte may read as zero alone, and cannot give the
bytes of the next package's line. -/
theorem not_parameterReads : ¬ Obligations.ParameterReads := by
  unfold Obligations.ParameterReads
  intro h
  obtain ⟨-, -, hmov⟩ := h straddleState straddleCur (Ctl.plain .wave) false 0 0 .zero .zero 1 rfl straddleState_cur
  have hfits : straddleWindow.bound = true ∧ 0 + 4 * 1 ≤ straddleWindow.size := by
    rw [straddleWindow_eq]
    decide
  obtain ⟨t, f, g, -, -, hreads, -⟩ := hmov (.inl hfits) straddleState_wordStop
  obtain ⟨hbytes, hwords⟩ := Eq.mp (if_pos hfits) (hreads 0 (by decide +kernel))
  have hone : (f 0).extractLsb' 8 8 = 1 := by
    refine hbytes straddleByte (fun j hj => ⟨straddleState_paramByte j hj, fun hlocal => ?_⟩) 1 (by decide)
    obtain rfl := straddleState_isLocal j hj hlocal
    exact ⟨_, straddleState_translate, straddleState_frameOf⟩
  have hzero : (f 0).extractLsb' 0 32 = 0 := by
    have hmay := hwords 0 Nat.one_pos
    rcases hmay with hin | ⟨-, hnone⟩
    · have hzeros : wordAt (f 0) 0 ∈ ([0, 0] : List Word) := straddleState_paramMay ▸ hin
      simpa [wordAt] using hzeros
    · exact hnone
  have hsame : (f 0).extractLsb' 8 8 = ((f 0).extractLsb' 0 32).extractLsb' 8 8 := by ext i hi; simp
  rw [hone, hzero] at hsame
  exact absurd hsame (by decide)

end Sys2Proof.Machine
end

section
/-! SUPPORT. Stores: in a state whose dirty bytes may lie in the L1 slice of another die's core, the write-back of a store's release
takes such a byte from the core that sees it. -/

namespace Sys2Proof.Machine

/-- Every lane stores zero at the first word of its scratchpad, and releases at .pkg. -/
def strayStore : Instr := .st (Ctl.plain .wave) .n32 (some .pkg) false false (.lane 0) .zero .zero

/-- The places of those stores. -/
def strayPlaces : List (Nat × At) := (List.range 32).map fun i => (i, .spad 0)

/-- Byte 0 as core 0 sees it in the state that an instruction leaves. -/
def viewAfter (o : Host.Outcome State Fault Refusal) : Option Byte :=
  match o with
  | .next t => some (t.viewByte 0 0)
  | _ => none

theorem strayState_viewAfter : viewAfter (exec strayStore strayState) = some 0 := by decide +kernel

theorem strayState_reaches : Reaches strayState strayCur (placedBlock 0 0) (strayState.parts strayCur (Ctl.plain .wave)) false capWrite
    (.lane 0) .zero (stBytes .n32) .write strayPlaces :=
  ⟨(List.range 32).map fun i => (i, .spad 0 true), by decide +kernel, by decide +kernel⟩

theorem strayPlaces_spad : ∀ x ∈ strayPlaces, x.2 = .spad 0 := by decide

/-- Refutes O28: a store with a release at .pkg leaves 0 at a byte that it does not store and that core 0 saw as 1, because the byte
lies in core 0's slice and goes to the die cache of the core that wrote it. -/
theorem not_storesWrite : ¬ Obligations.StoresWrite := by
  unfold Obligations.StoresWrite
  intro h
  obtain ⟨t, hexec, -, -, -, hkept, -⟩ := h strayState strayCur (Ctl.plain .wave) (placedBlock 0 0) .n32 (some .pkg) false false
    (.lane 0) .zero .zero strayPlaces strayState_ofWave rfl (State.paramTrap_zero _ _ _) rfl strayState_reaches
    (fun x hx va hpeer => by rw [strayPlaces_spad x hx] at hpeer; cases hpeer) nofun
    (fun sc hsc => by obtain rfl := Option.some.inj hsc; rfl)
  have hafter : t.viewByte 0 0 = 0 := by
    have hrun := strayState_viewAfter
    rw [strayStore, hexec] at hrun
    exact Option.some.inj hrun
  have hseen : t.viewByte 0 0 = 1 := by
    refine (hkept 0 fun x hx hcovers => ?_).trans strayState_viewByte
    rw [strayPlaces_spad x hx] at hcovers
    exact hcovers
  rw [hafter] at hseen
  exact absurd hseen (by decide)

end Sys2Proof.Machine
end

section
/-! SUPPORT. The lanes of an access, and where they are located. -/

namespace Sys2Proof.Machine

theorem State.checkAccess_lanes {s : State} {c : Cur} {blk : Block} {p : LaneSet} {cap : Bool} {perm : Quad → Bool} {b off : Opnd}
    {z : Nat} {t : List (Nat × Steer)} (h : s.checkAccess c blk p cap perm b off z = .ok t) : t.map (·.1) = lanesOf p := by
  rw [State.checkAccess_eq] at h
  split at h
  · cases h
  · split_ifs at h
    obtain rfl := Except.ok.inj h
    rw [List.map_map]
    exact List.map_id _

theorem State.locateAll_cons (s : State) (ctx : Nat) (need : Perm) (x : Nat × Steer) (t : List (Nat × Steer)) :
    s.locateAll ctx need (x :: t) = match s.atOf ctx need x.2, s.locateAll ctx need t with
      | .error (va, e), .held l => .held ((x.1, va, e) :: l)
      | .error (va, e), _ => .held [(x.1, va, e)]
      | .ok _, .held l => .held l
      | .ok a, .ok l => .ok ((x.1, a) :: l) := by
  obtain ⟨i, y⟩ := x
  rfl

theorem State.locateAll_lanes {s : State} {ctx : Nat} {need : Perm} {t : List (Nat × Steer)} {l : List (Nat × At)}
    (h : s.locateAll ctx need t = .ok l) : l.map (·.1) = t.map (·.1) := by
  induction t generalizing l with
  | nil =>
    obtain rfl := Located.ok.inj h
    rfl
  | cons x t ih =>
    rw [State.locateAll_cons] at h
    split at h
    · cases h
    · cases h
    · cases h
    · next ha hl =>
      obtain rfl := Located.ok.inj h
      simp only [List.map_cons, ih hl]

theorem laneSet_lanesOf (p : LaneSet) : laneSet (lanesOf p) = p := by
  refine laneSet_ext fun j hj => ?_
  rw [Bool.eq_iff_iff, getLsbD_laneSet]
  simp only [hj, mem_lanesOf, true_and, decide_true, Bool.true_and, decide_eq_true_eq]

theorem lanesOf_pairwise (p : LaneSet) : (lanesOf p).Pairwise (· < ·) := by
  rw [lanesOf, laneIds_eq]
  exact List.Pairwise.filter _ List.pairwise_lt_range

/-- The lanes of an access that is located are those that participate, ascending. -/
theorem Reaches.lanes {s : State} {c : Cur} {blk : Block} {p : LaneSet} {cap : Bool} {perm : Quad → Bool} {b off : Opnd} {z : Nat}
    {need : Perm} {l : List (Nat × At)} (h : Reaches s c blk p cap perm b off z need l) : l.map (·.1) = lanesOf p := by
  obtain ⟨t, hcheck, hlocate⟩ := h
  exact (State.locateAll_lanes hlocate).trans (State.checkAccess_lanes hcheck)

end Sys2Proof.Machine
end

section
/-! SUPPORT. Requests that an unencrypted context sends to the owners of addresses (R346, R347, R355). -/

namespace Sys2Proof.Machine

/-- A message in the demand class asks the owner of an address for an operation. -/
def State.Sent (t : State) (va : Nat) (o : PeerOp) : Prop :=
  ∃ n r, .swiul (va / 2 ^ 45 % 4096) 1 n r ∈ t.out ∧ r.op = o ∧ r.addr = va % 2 ^ 57

theorem State.Sent.mono {s t : State} {va : Nat} {o : PeerOp} (h : s.Sent va o) (hout : s.out ⊆ t.out) : t.Sent va o := by
  obtain ⟨n, r, hmem, hop⟩ := h
  exact ⟨n, r, hout hmem, hop⟩

/-- A context's traffic is not encrypted (R356). -/
def State.Plain (s : State) (ctx : Nat) : Prop := (s.ctx ctx).fabric.getLsbD 30 = false

section Plain

variable {s : State} {ctx : Nat} (hplain : s.Plain ctx)
include hplain

theorem State.sendCtx_plain (m : OutMsg) : s.sendCtx ctx m = s.numbered m := by
  rw [State.sendCtx, if_neg]
  rw [hplain]
  exact Bool.false_ne_true

variable (op : PeerOp) (va size : Nat) (data : List Byte) (tag : Nat) (inst : Option (Nat × Nat))

theorem State.request_frame : s.request ctx clsDemand op va size data tag inst =
    { s with
      out := (s.request ctx clsDemand op va size data tag inst).out
      seqOut := (s.request ctx clsDemand op va size data tag inst).seqOut } := by
  rw [State.request, State.sendCtx_plain hplain]
  rfl

theorem State.out_request : s.out ⊆ (s.request ctx clsDemand op va size data tag inst).out := by
  rw [State.request, State.sendCtx_plain hplain]
  exact List.subset_append_left _ _

theorem State.sent_request : (s.request ctx clsDemand op va size data tag inst).Sent va op := by
  rw [State.request, State.sendCtx_plain hplain]
  exact ⟨_, _, List.mem_append_right _ List.mem_cons_self, rfl, rfl⟩

end Plain

/-- Between two states only copies of other packages' lines and the messages out differ, and no message is lost. -/
structure State.Asks (s t : State) : Prop where
  frame : t = { s with peerCopies := t.peerCopies, out := t.out, seqOut := t.seqOut }
  out : s.out ⊆ t.out

section Asks

variable {s t : State} (h : s.Asks t)
include h

theorem State.Asks.keepsBytes : KeepsBytes s t := by
  rw [h.frame]
  exact keepsBytes_of_eq rfl rfl rfl rfl

theorem State.Asks.wave (b i : Nat) : t.wave? b i = s.wave? b i := by
  rw [h.frame]
  rfl

end Asks

/-- The requests of an instruction are sent to the owners of their addresses. -/
theorem State.asks_sendReqs {s : State} {ctx : Nat} (hplain : s.Plain ctx) (b i id : Nat) (l : List LaneReq) :
    s.Asks (s.sendReqs b i ctx id l) ∧ ∀ r ∈ l, (s.sendReqs b i ctx id l).Sent r.va r.op := by
  induction l generalizing s with
  | nil => exact ⟨⟨rfl, List.Subset.refl _⟩, nofun⟩
  | cons r l ih =>
    have hdrop : ({ s with peerCopies := s.peerCopies.filter fun x => x.1 != peerLine r.va } : State).Plain ctx := hplain
    set u := State.request { s with peerCopies := s.peerCopies.filter fun x => x.1 != peerLine r.va } ctx clsDemand r.op r.va
      r.size r.data (replyTag b i id r.lane)
    have hframe := State.request_frame hdrop r.op r.va r.size r.data (replyTag b i id r.lane) none
    have hout : s.out ⊆ u.out := State.out_request hdrop _ _ _ _ _ _
    have hu : u.Plain ctx := by
      show ((u.ctx ctx).fabric.getLsbD 30) = false
      rw [show u = _ from hframe]
      exact hplain
    obtain ⟨hasks, hsent⟩ := ih hu
    change s.Asks (u.sendReqs b i ctx id l) ∧ ∀ y ∈ r :: l, (u.sendReqs b i ctx id l).Sent y.va y.op
    refine ⟨⟨?_, List.Subset.trans hout hasks.out⟩, fun y hy => ?_⟩
    · rw [hasks.frame, show u = _ from hframe]
    · rcases List.mem_cons.mp hy with rfl | hy
      · exact (State.sent_request hdrop _ _ _ _ _ _).mono hasks.out
      · exact hsent y hy

end Sys2Proof.Machine
end

section
/-! SUPPORT. What precedes the writes of a wave's lanes to other packages, and the posting of them: no byte of memory here changes where
no cache holds a dirty one, and of the wave only the fences that a write has followed (R256, R266, R275, R432). -/

namespace Sys2Proof.Machine

/-! ### Waves but for their fences -/

/-- A wave after some of its lanes' fences have been followed by writes. -/
structure Wave.OnlyFences (w u : Wave) : Prop where
  frame : u = { w with lanes := u.lanes }
  lane : ∀ j < 32, u.lane j = { w.lane j with fenced := (u.lane j).fenced }

theorem Wave.onlyFences_refl (w : Wave) : w.OnlyFences w := ⟨rfl, fun _ _ => rfl⟩

theorem Wave.OnlyFences.trans {w u v : Wave} (h : w.OnlyFences u) (h' : u.OnlyFences v) : w.OnlyFences v := by
  refine ⟨?_, fun j hj => ?_⟩
  · rw [h'.frame, h.frame]
  · rw [h'.lane j hj, h.lane j hj]

theorem Wave.onlyFences_setLane (w : Wave) (i : Nat) (f : Option Scope) :
    w.OnlyFences (w.setLane i { w.lane i with fenced := f }) := by
  refine ⟨by unfold Wave.setLane; split <;> rfl, fun j _ => ?_⟩
  by_cases hi : i < 32
  · rw [Wave.lane_setLane _ _ _ _ hi]
    split
    · next h => rw [h]
    · rfl
  · rw [Wave.setLane, if_neg hi]

theorem Wave.OnlyFences.keepsRegs {w u : Wave} (h : w.OnlyFences u) : KeepsRegs w u := by
  refine keepsRegs_of_lanes (fun j hj => ?_) (by rw [h.frame])
  rw [h.lane j hj]
  exact ⟨rfl, rfl⟩

theorem Wave.OnlyFences.pc {w u : Wave} (h : w.OnlyFences u) {j : Nat} (hj : j < 32) : (u.lane j).pc = (w.lane j).pc := by
  rw [h.lane j hj]

/-! ### Clean caches -/

theorem State.backDie_clean {s : State} (h : s.dirty = []) (p : DirtyByte → Bool) : s.backDie p = s := by
  simp only [State.backDie, h, List.filter_nil, List.reverse_nil, List.foldl_nil]
  rw [← h]

theorem State.backHome_clean {s : State} (h : s.dirty = []) (p : DirtyByte → Bool) : s.backHome p = s := by
  simp only [State.backHome, h, List.filter_nil, List.reverse_nil, List.foldl_nil]
  rw [← h]

/-- With nothing dirty there is nothing to write back. -/
theorem State.toHome_clean {s : State} (h : s.dirty = []) (core : Nat) : s.toHome core = s := by
  rw [State.toHome, State.backDie_clean h, State.backHome_clean h]

/-! ### Messages of a write-back -/

theorem out_foldl {α : Type} {f : State → α → State} (hf : ∀ (s : State) x, s.out ⊆ (f s x).out) (l : List α) (s : State) :
    s.out ⊆ (l.foldl f s).out := by
  induction l generalizing s with
  | nil => exact List.Subset.refl _
  | cons x l ih => exact List.Subset.trans (hf s x) (ih _)

theorem State.out_homeWrite (s : State) (sa : Nat) (bs : List Byte) : s.out ⊆ (s.homeWrite sa bs).out := by
  have hinval : s.out ⊆ (s.invalidateSharers (lineOf sa)).out := by
    unfold State.invalidateSharers
    split
    · exact List.Subset.refl _
    · exact List.subset_append_left _ _
  unfold State.homeWrite
  split
  · exact List.Subset.refl _
  · extract_lets u u1
    split
    · exact hinval
    · exact hinval

theorem State.out_backDie (s : State) (p : DirtyByte → Bool) : s.out ⊆ (s.backDie p).out := by
  unfold State.backDie
  extract_lets q s1
  exact out_foldl (f := fun s (d : DirtyByte) => s.putDirty { d with lvl := 1 }) (fun _ _ => List.Subset.refl _) _ s1

theorem State.out_backHome (s : State) (p : DirtyByte → Bool) : s.out ⊆ (s.backHome p).out := by
  unfold State.backHome
  extract_lets sel s1 s2 lines
  refine List.Subset.trans (l₂ := s2.out) ?_ (out_foldl (f := State.heal) (fun _ _ => List.Subset.refl _) _ _)
  exact out_foldl (f := fun s (d : DirtyByte) => s.homeWrite d.sa [d.val]) (fun s d => s.out_homeWrite d.sa [d.val]) _ s1

theorem State.out_toHome (s : State) (core : Nat) : s.out ⊆ (s.toHome core).out :=
  List.Subset.trans (s.out_backDie _) (State.out_backHome _ _)

/-! ### States that differ by writes to other packages -/

/-- From s to t, lanes of a wave have made writes to other packages, or are about to. -/
structure State.Writing (b i : Nat) (s t : State) : Prop where
  ctxs : t.ctxs = s.ctxs
  issue : t.issue = s.issue
  out : s.out ⊆ t.out
  block : ∀ blk w, s.block? b = some blk → blk.wave? i = some w → ∃ u, t.block? b = some (blk.setWave i u) ∧ w.OnlyFences u
  clean : s.dirty = [] → t.dirty = [] ∧ KeepsBytes s t

section Writing

variable {b i : Nat} {s t u : State}

theorem Block.setWave_self {blk : Block} {w : Wave} (h : blk.wave? i = some w) : blk.setWave i w = blk := by
  rw [Block.setWave, lset_getElem_self h]

theorem keepsBytes_refl (s : State) : KeepsBytes s s := ⟨fun _ => rfl, fun _ _ => rfl, fun _ _ => rfl⟩

/-- A change that leaves the resident blocks alone. -/
theorem State.writing_of_blocks (hctxs : t.ctxs = s.ctxs) (hissue : t.issue = s.issue) (hout : s.out ⊆ t.out) (hblocks : t.blocks = s.blocks)
    (hclean : s.dirty = [] → t.dirty = [] ∧ KeepsBytes s t) : s.Writing b i t := by
  refine ⟨hctxs, hissue, hout, fun blk w hb hw => ⟨w, ?_, w.onlyFences_refl⟩, hclean⟩
  rw [Block.setWave_self hw, State.block?, hblocks]
  exact hb

theorem State.writing_refl (b i : Nat) (s : State) : s.Writing b i s :=
  State.writing_of_blocks rfl rfl (List.Subset.refl _) rfl fun h => ⟨h, keepsBytes_refl s⟩

theorem State.Writing.trans (h : s.Writing b i t) (h' : t.Writing b i u) : s.Writing b i u := by
  refine ⟨h'.ctxs.trans h.ctxs, h'.issue.trans h.issue, List.Subset.trans h.out h'.out, fun blk w hb hw => ?_, fun hclean => ?_⟩
  · obtain ⟨v, hv, hfences⟩ := h.block blk w hb hw
    obtain ⟨x, hx, hfences'⟩ := h'.block _ v hv (Block.wave_setWave hw v)
    refine ⟨x, hx.trans ?_, hfences.trans hfences'⟩
    simp only [Block.setWave, lset_lset]
  · obtain ⟨ht, hkeeps⟩ := h.clean hclean
    obtain ⟨hu, hkeeps'⟩ := h'.clean ht
    exact ⟨hu, keepsBytes_trans hkeeps hkeeps'⟩

theorem State.writing_toHome (b i : Nat) (s : State) (core : Nat) : s.Writing b i (s.toHome core) := by
  have hstores : s.OnlyStores (s.toHome core) := s.onlyStores_toHome core
  refine State.writing_of_blocks (by rw [hstores]) (by rw [hstores]) (s.out_toHome core) (by rw [hstores]) fun h => ?_
  rw [State.toHome_clean h]
  exact ⟨h, keepsBytes_refl s⟩

theorem keepsBytes_setCore {n : Nat} {x : Core} (h : x.felted = (s.core n).felted) : KeepsBytes s (s.setCore n x) := by
  refine ⟨fun _ => rfl, State.viewByte_congr rfl rfl fun m => ?_, fun _ _ => rfl⟩
  rw [State.core_setCore]
  split
  · next hm => rw [hm, h]
  · rfl

theorem State.writing_setCore (b i : Nat) {n : Nat} {x : Core} (h : x.felted = (s.core n).felted) : s.Writing b i (s.setCore n x) :=
  State.writing_of_blocks rfl rfl (List.Subset.refl _) rfl fun hclean => ⟨hclean, keepsBytes_setCore h⟩

theorem State.writing_evictOldest (b i : Nat) (s : State) (core : Nat) : s.Writing b i (s.evictOldest core) := by
  unfold State.evictOldest
  split
  · exact s.writing_refl b i
  · next e rest _ =>
    have hpromote : s.Writing b i (s.promoteTo core e.gen) := by
      unfold State.promoteTo
      split
      · exact s.writing_toHome b i core
      · exact s.writing_refl b i
    exact hpromote.trans (State.writing_setCore b i rfl)

theorem State.writing_logRelease (b i : Nat) (s : State) (core : Nat) (tag : BitVec 12 × BitVec 16) (sc : Scope) :
    s.Writing b i (s.logRelease core tag sc) := by
  unfold State.logRelease
  extract_lets sc' c fresh
  split
  · exact s.writing_refl b i
  · split
    · split
      · exact State.writing_setCore b i rfl
      · split
        · exact State.writing_setCore b i rfl
        · exact (s.writing_evictOldest b i core).trans (State.writing_setCore b i rfl)
    · exact State.writing_setCore b i rfl

/-- A lane's fence is followed by its write. -/
theorem State.writing_unfence (b i : Nat) (s : State) (lane : Nat) :
    s.Writing b i (s.onWave b i fun w => w.setLane lane { w.lane lane with fenced := none }) := by
  cases hwave : s.wave? b i with
  | none =>
    rw [State.onWave, hwave]
    exact s.writing_refl b i
  | some w =>
    rw [State.onWave_eq hwave]
    set u := w.setLane lane { w.lane lane with fenced := none }
    have hframe := s.setWave_frame b i u
    refine ⟨by rw [hframe], by rw [hframe], by rw [hframe]; exact List.Subset.refl _, fun blk v hb hv => ⟨u, State.block_setWave hb i u, ?_⟩,
      fun h => ⟨by rw [hframe]; exact h, keepsBytes_setWave s b i u⟩⟩
    obtain rfl : w = v := Option.some.inj (hwave.symm.trans (State.wave_eq hb hv))
    exact w.onlyFences_setLane lane none

theorem State.writing_beforeWrite (b i : Nat) (s : State) (lane : Nat) (blk : Block) : s.Writing b i (s.beforeWrite b i lane blk) := by
  have hbump : s.Writing b i (s.bumpGen (coreOf b)) := State.writing_setCore b i rfl
  unfold State.beforeWrite
  extract_lets s1
  split
  · next sc _ =>
    exact hbump.trans ((s1.writing_logRelease b i (coreOf b) blk.tagPair sc).trans (State.writing_unfence b i _ lane))
  · exact hbump

theorem State.Writing.plain {ctx : Nat} (h : s.Writing b i t) (hplain : s.Plain ctx) : t.Plain ctx := by
  rw [State.Plain, State.ctx, h.ctxs]
  exact hplain

/-- A write posted to its owner (R266). -/
theorem State.writing_post {ctx : Nat} (hplain : s.Plain ctx) (core blk wave lane : Nat) (op : PeerOp) (va : Nat) (data : List Byte) :
    s.Writing b i (s.post core blk wave lane ctx op va data) ∧ (s.post core blk wave lane ctx op va data).Sent va op := by
  unfold State.post
  extract_lets id p s1
  have hs1 : s1.Plain ctx := hplain
  have hframe := State.request_frame hs1 op va data.length data id none
  refine ⟨State.writing_of_blocks (by rw [hframe]) (by rw [hframe]) (State.out_request hs1 _ _ _ _ _ _) (by rw [hframe])
    fun h => ⟨by rw [hframe]; exact h, ?_⟩, State.sent_request hs1 _ _ _ _ _ _⟩
  rw [hframe]
  exact keepsBytes_of_eq rfl rfl rfl rfl

/-! ### Many writes -/

variable {α : Type} {f : State → α → State} {l : List α}

theorem State.writing_foldl (hf : ∀ x ∈ l, ∀ u, s.Writing b i u → u.Writing b i (f u x)) (hu : s.Writing b i u) :
    u.Writing b i (l.foldl f u) := by
  induction l generalizing u with
  | nil => exact u.writing_refl b i
  | cons x l ih =>
    have hx := hf x List.mem_cons_self u hu
    exact hx.trans (ih (fun y hy => hf y (List.mem_cons_of_mem _ hy)) (hu.trans hx))

/-- What one of the writes sends stays among the messages. -/
theorem State.sent_foldl (hf : ∀ x ∈ l, ∀ u, s.Writing b i u → u.Writing b i (f u x)) {x : α} (hx : x ∈ l) {va : Nat} {o : PeerOp}
    (hsent : ∀ u, s.Writing b i u → (f u x).Sent va o) : (l.foldl f s).Sent va o := by
  obtain ⟨l1, l2, rfl⟩ := List.append_of_mem hx
  have hfirst : s.Writing b i (l1.foldl f s) :=
    State.writing_foldl (fun y hy => hf y (List.mem_append_left _ hy)) (s.writing_refl b i)
  have hhere := hf x hx _ hfirst
  have hrest := State.writing_foldl (l := l2) (fun y hy => hf y (List.mem_append_right _ (List.mem_cons_of_mem _ hy))) (hfirst.trans hhere)
  rw [List.foldl_append, List.foldl_cons]
  exact (hsent _ hfirst).mono hrest.out

end Writing

end Sys2Proof.Machine
end

section
/-! SUPPORT. The wave of an instruction that has issued while its lanes await something, or whose writes are on their way (R112, R239,
R524). -/

namespace Sys2Proof.Machine

/-! ### Pending instructions -/

/-- The wave of a long-latency instruction that has issued: its active lanes go on, and it stands last among the pending ones. -/
def Cur.opened (c : Cur) (k : Ctl) (b c' d : Opnd) (x : Pending) : Wave :=
  { c.onward k b c' d c.active with
    pendNext := c.wave.pendNext + 1
    pend := (c.wave.countIssue c.active).pend ++ [{ x with
      id := c.wave.pendNext, left := (lanesOf c.active).map fun i => (i, k.la.toNat)
      price := c.price, pc := c.pc, active := c.active, inRgn := c.wave.inRegion }] }

theorem State.openPend_eq {c : Cur} (hagent : c.agent = .wave c.bid c.wid) (s : State) (k : Ctl) (b c' d : Opnd) (x : Pending) :
    s.openPend c k b c' d x = s.setWave c.bid c.wid (c.opened k b c' d x) := by
  rw [State.openPend, State.putCur_wave hagent, Cur.opened, Cur.onward, Wave.issued_eq]
  rfl

section Opened

variable {t : State} {c : Cur} {k : Ctl} {b c' d : Opnd} {x : Pending} {l : List Held}
  (h : t.wave? c.bid c.wid = some { c.opened k b c' d x with held := l })
include h

theorem went_opened : Went t c c.active :=
  ⟨_, h, c.keepsRegs_onward k b c' d c.active, fun _ hi => (c.onward_lane k b c' d c.active hi).2.2.2⟩

theorem pends_opened : Pends t c k x.waiting x.again.isSome := ⟨_, _, h, rfl, rfl, rfl, rfl, rfl, rfl, rfl⟩

end Opened

/-! ### After writes of its lanes -/

section OnlyFences

variable {t : State} {c : Cur} {w : Wave} (hw : c.wave.OnlyFences w)
include hw

theorem went_of_onlyFences {m : LaneSet} (h : Went t { c with wave := w } m) : Went t c m := by
  obtain ⟨u, hu, hkeeps, hpc⟩ := h
  refine ⟨u, hu, keepsRegs_trans hw.keepsRegs hkeeps, fun i hi => (hpc i hi).trans ?_⟩
  rw [show (w.lane i).pc = _ from hw.pc hi]

theorem pends_of_onlyFences {k : Ctl} {m : LaneSet} {again : Bool} (h : Pends t { c with wave := w } k m again) : Pends t c k m again := by
  obtain ⟨u, e, hu, hpend, hid, hactive, hpc, hrest⟩ := h
  have hcount : (w.countIssue c.active).pend = (c.wave.countIssue c.active).pend := by rw [hw.frame]; rfl
  have hnext : w.pendNext = c.wave.pendNext := by rw [hw.frame]
  refine ⟨u, e, hu, hpend.trans (by rw [← hcount]), hid.trans hnext, hactive, hpc.trans (hw.pc ?_), hrest⟩
  show (lowLane c.active).getD 0 < 32
  cases hlow : lowLane c.active with
  | none => decide
  | some i => exact (lowLane_mem hlow).1

end OnlyFences

/-- The instruction in hand depends on who issues, and on its block. -/
theorem State.cur_congr {s t : State} {c : Cur} (hissue : t.issue = s.issue) (hblock : t.block? c.bid = s.block? c.bid)
    (hagent : c.agent = .wave c.bid c.wid) (hc : s.cur? = some c) : t.cur? = some c := by
  unfold State.cur? at hc ⊢
  rw [hissue]
  split at hc
  · cases hc
  · next x hx =>
    split at hc
    · next b i ha =>
      have hbid : b = c.bid := by
        split at hc
        · cases hc
        · split at hc
          · cases hc
          · exact congrArg Cur.bid (Option.some.inj hc)
      subst hbid
      simp only [ha, hblock]
      rwa [ha] at hc
    · next q ha =>
      rw [← Option.some.inj hc] at hagent
      cases ha.symm.trans hagent
    · cases hc

section Writing

variable {s t : State} {c : Cur} {blk : Block} (hof : OfWave s c blk) (h : s.Writing c.bid c.wid t)
include hof h

/-- The instruction in hand after writes of its lanes. -/
theorem State.Writing.recur : ∃ w, t.recur c = { c with wave := w } ∧ c.wave.OnlyFences w ∧ t.block? c.bid = some (blk.setWave c.wid w) := by
  have ⟨_, hagent, hb⟩ := hof
  obtain ⟨w, hblock, hfences⟩ := h.block blk c.wave hb (wave_of_ofWave hof)
  have hwave : (blk.setWave c.wid w).wave? c.wid = some w := Block.wave_setWave (wave_of_ofWave hof) w
  have hcur := State.cur_setBlock (x := blk.setWave c.wid w) hof rfl rfl rfl hwave
  refine ⟨w, State.recur_eq (State.cur_congr (s := s.setBlock c.bid (blk.setWave c.wid w)) h.issue ?_ hagent hcur), hfences, hblock⟩
  exact hblock.trans ((State.block_setBlock s c.bid c.bid _).trans (if_pos rfl)).symm

/-- An instruction without result completes after writes of its lanes. -/
theorem State.Writing.complete {k : Ctl} (hla : k.la = 0) (b c' d : Opnd) :
    let u := t.complete (t.recur c) k b c' d {}
    Went u c c.active ∧ (s.dirty = [] → KeepsBytes s u) ∧ t.out ⊆ u.out := by
  obtain ⟨w, hrecur, hfences, hblock⟩ := h.recur hof
  have ⟨_, hagent, _⟩ := hof
  have hwave : (blk.setWave c.wid w).wave? c.wid = some w := Block.wave_setWave (wave_of_ofWave hof) w
  rw [hrecur, State.complete_empty (c := { c with wave := w }) hagent hla]
  refine ⟨went_of_onlyFences hfences ⟨_, State.wave_setWave hblock hwave _, ?_, ?_⟩, fun hclean => ?_, ?_⟩
  · exact Cur.keepsRegs_onward _ k b c' d _
  · exact fun i hi => (Cur.onward_lane _ k b c' d _ hi).2.2.2
  · exact keepsBytes_trans (h.clean hclean).2 (keepsBytes_setWave t c.bid c.wid _)
  · rw [State.setWave_frame]
    exact List.Subset.refl _

end Writing

end Sys2Proof.Machine
end

section
/-! SUPPORT. O34: LD, ST, ATOM and RED of lanes whose places are on other packages, and a load whose translation faults (R239, R251,
R347, R524). -/

namespace Sys2Proof.Machine

/-! ### Places on other packages -/

/-- Every lane's place is on another package. -/
def AllAway (l : List (Nat × At)) : Prop := ∀ x ∈ l, ∃ va, x.2 = .peer va

theorem mem_peersOf {l : List (Nat × At)} {i va : Nat} : (i, va) ∈ peersOf l ↔ (i, At.peer va) ∈ l := by
  rw [peersOf, List.mem_filterMap]
  constructor
  · rintro ⟨⟨j, x⟩, hx, h⟩
    cases x with
    | peer va' =>
      obtain ⟨rfl, rfl⟩ := Prod.mk.inj (Option.some.inj h)
      exact hx
    | spad off => cases h
    | home va' leaf st => cases h
  · exact fun h => ⟨_, h, rfl⟩

theorem peersOf_lanes {l : List (Nat × At)} (h : AllAway l) : (peersOf l).map (·.1) = l.map (·.1) := by
  induction l with
  | nil => rfl
  | cons x l ih =>
    obtain ⟨i, y⟩ := x
    obtain ⟨va, rfl⟩ := h _ List.mem_cons_self
    exact congrArg (i :: ·) (ih fun y hy => h y (List.mem_cons_of_mem _ hy))

theorem AllAway.any_eq_false {l : List (Nat × At)} (h : AllAway l) {f : At → Bool} (hf : ∀ va, f (.peer va) = false) :
    ¬ (l.any fun x => f x.2) = true := by
  rw [List.any_eq_true]
  rintro ⟨x, hx, hfx⟩
  obtain ⟨va, hva⟩ := h x hx
  rw [hva, hf] at hfx
  cases hfx

theorem reqLanes_of_lanes {l : List LaneReq} {p : LaneSet} (h : l.map (·.lane) = lanesOf p) : reqLanes l = p := by
  rw [reqLanes, h, laneSet_lanesOf]

theorem ldBytes_pos (size : LdSize) : 0 < ldBytes size := by cases size <;> decide

section Away

variable {s : State} {c : Cur} {k : Ctl} {blk : Block} {cap : Bool} {b d : Opnd} {l : List (Nat × At)}

/-! ### LD -/

/-- Outside a region no byte of another package is had here without a copy of its line (R347). -/
theorem State.loadAt_away {w : Wave} (hregion : w.inRegion = false) {z va : Nat} (hz : 0 < z)
    (hcopy : tfind s.peerCopies (peerLine va) = none) (core : Nat) (blk : Block) (copies : Bool) :
    s.loadAt core blk w z copies (.peer va) = none := by
  obtain ⟨n, rfl⟩ := Nat.exists_eq_succ_of_ne_zero hz.ne'
  have hbuf (x : Loc) : w.buffered x = none := by rw [Wave.buffered, hregion, if_neg Bool.false_ne_true]
  cases copies <;>
    simp only [State.loadAt, State.peerCopy, hcopy, hbuf, upFrom, List.map_cons, List.all_cons, Option.isSome_none, Bool.false_and,
      Bool.false_eq_true, if_false, if_true, Option.map_none]

/-- A load away asks the owner of each lane's place. -/
theorem State.loadParts_away {w : Wave} (hregion : w.inRegion = false) (haway : AllAway l) {p : LaneSet} (hlanes : l.map (·.1) = lanesOf p)
    (hcopies : ∀ x ∈ l, ∀ va, x.2 = .peer va → tfind s.peerCopies (peerLine va) = none) (core : Nat) (dst : Opnd) (size : LdSize)
    (xfer fresh : Bool) :
    let reqs := (s.loadParts core blk w p dst size xfer fresh l).reqs
    reqs.map (·.lane) = lanesOf p ∧ ∀ i va, (i, At.peer va) ∈ l → ∃ r ∈ reqs, r.va = va ∧ r.op = .load := by
  have hnone (x : Nat × At) (hx : x ∈ l) : s.loadAt core blk w (ldBytes size) (!fresh) x.2 = none := by
    obtain ⟨va, hva⟩ := haway x hx
    rw [hva]
    exact State.loadAt_away hregion (ldBytes_pos size) (hcopies x hx va hva) core blk _
  have hout : (((l.map fun x => (x.1, s.loadAt core blk w (ldBytes size) (!fresh) x.2)).filter fun x => x.2.isNone).map (·.1)) =
      lanesOf p := by
    rw [List.filter_eq_self.mpr, List.map_map]
    · exact hlanes
    · intro y hy
      obtain ⟨x, hx, rfl⟩ := List.mem_map.mp hy
      rw [hnone x hx]
      rfl
  have hall : (peersOf l).filter (fun x => p.getLsbD x.1) = peersOf l := by
    refine List.filter_eq_self.mpr fun y hy => ?_
    have hmem : y.1 ∈ (peersOf l).map (·.1) := List.mem_map_of_mem hy
    rw [peersOf_lanes haway, hlanes] at hmem
    exact ((mem_lanesOf p y.1).mp hmem).2
  simp only [State.loadParts, hout, laneSet_lanesOf, hall, List.map_map]
  refine ⟨(peersOf_lanes haway).trans hlanes, fun i va h => ?_⟩
  exact ⟨_, List.mem_map_of_mem (mem_peersOf.mpr h), rfl, rfl⟩

variable (hof : OfWave s c blk) (hregion : c.wave.inRegion = false) (hplain : s.Plain c.ctx) (haway : AllAway l)
include hof hregion hplain haway

/-- LD of places on other packages asks their owners, and its lanes go on (R347, R524). -/
theorem exec_ld_away {size : LdSize} (a : Opnd) (htrap : s.paramTrap c (s.parts c k) 1 [d] = none) (hp : s.parts c k ≠ 0)
    (hreach : Reaches s c blk (s.parts c k) cap capRead b d (ldBytes size) .read l)
    (hcopies : ∀ x ∈ l, ∀ va, x.2 = .peer va → tfind s.peerCopies (peerLine va) = none) :
    ∃ t, exec (.ld k size none cap false a b d) s = .next t ∧ Went t c c.active ∧ Pends t c k (s.parts c k) false ∧ KeepsBytes s t ∧
      ∀ x ∈ l, ∀ va, x.2 = .peer va → t.Sent va .load := by
  have hlanes := Reaches.lanes hreach
  obtain ⟨t, hcheck, hlocate⟩ := hreach
  have ⟨hc, hagent, hb⟩ := hof
  have hwait := haway.any_eq_false (f := s.readWaits c.core c.wave (ldBytes size)) fun _ => rfl
  have hpoison := haway.any_eq_false (f := s.readsPoison c.core c.wave (ldBytes size)) fun _ => rfl
  obtain ⟨hreqs, hasked⟩ := State.loadParts_away (s := s) (blk := blk) hregion haway hlanes hcopies c.core a size false (decide (k.hint = 4))
  set x := s.loadParts c.core blk c.wave (s.parts c k) a size false (decide (k.hint = 4)) l
  have hsome : ¬ x.reqs.isEmpty = true := by
    intro hnil
    rw [List.isEmpty_iff.mp hnil] at hreqs
    exact lanesOf_ne_nil hp hreqs.symm
  have hexec : exec (.ld k size none cap false a b d) s = .next ((s.openPend c k b d .zero
      { Pending.fresh (s.parts c k) (reqLanes x.reqs) a size with
        writes := x.writes, tagged := x.tagged, flags := s.paramFlags c (s.parts c k) 1 [d], acq := none, reqs := x.reqs }).sendReqs
          c.bid c.wid c.ctx c.wave.pendNext x.reqs) := by
    change execLd k size none cap false a b d s = _
    have hnone : (decide (k.hint = 4) || (none : Option Scope) == some .sys) = decide (k.hint = 4) := Bool.or_false _
    simp only [execLd, onBlk_eq hc hb htrap, hcheck, hlocate, if_neg hwait, if_neg hpoison, State.performLd, hnone]
    exact congrArg Host.Outcome.next (if_neg hsome)
  rw [reqLanes_of_lanes hreqs, State.openPend_eq hagent] at hexec
  set y : Pending := { Pending.fresh (s.parts c k) (s.parts c k) a size with
    writes := x.writes, tagged := x.tagged, flags := s.paramFlags c (s.parts c k) 1 [d], acq := none, reqs := x.reqs }
  have hplain' : (s.setWave c.bid c.wid (c.opened k b d .zero y)).Plain c.ctx := by
    rw [State.setWave_frame]
    exact hplain
  obtain ⟨hasks, hsent⟩ := State.asks_sendReqs hplain' c.bid c.wid c.wave.pendNext x.reqs
  have hwave := (hasks.wave c.bid c.wid).trans (State.wave_setWave hb (wave_of_ofWave hof) _)
  refine ⟨_, hexec, went_opened hwave, pends_opened hwave, keepsBytes_trans (keepsBytes_setWave s _ _ _) hasks.keepsBytes, ?_⟩
  rintro ⟨i, z⟩ hx va rfl
  obtain ⟨r, hr, rfl, hop⟩ := hasked i va hx
  rw [← hop]
  exact hsent r hr

end Away

end Sys2Proof.Machine
end

section
/-! SUPPORT. O34: ST, RED and ATOM of lanes whose places are on other packages (R251, R266, R347, R524). -/

namespace Sys2Proof.Machine

theorem OfWave.core_ctx {s : State} {c : Cur} {blk : Block} (h : OfWave s c blk) : c.core = coreOf c.bid ∧ c.ctx = blk.ctx := by
  obtain ⟨hc, hagent, hb⟩ := h
  unfold State.cur? at hc
  split at hc
  · cases hc
  · split at hc
    · next b i ha =>
      split at hc
      · cases hc
      · next blk' hb' =>
        split at hc
        · cases hc
        · obtain rfl := Option.some.inj hc
          obtain rfl := Option.some.inj (hb'.symm.trans hb)
          exact ⟨rfl, rfl⟩
    · next q ha =>
      rw [← Option.some.inj hc] at hagent
      cases ha.symm.trans hagent
    · cases hc

/-- The lanes of places ascend. -/
theorem lanes_ascend {l : List (Nat × At)} {p : LaneSet} (h : l.map (·.1) = lanesOf p) : l.Pairwise fun x y => x.1 < y.1 := by
  have hp := lanesOf_pairwise p
  rw [← h] at hp
  exact List.pairwise_map.mp hp

section Away

variable {s : State} {c : Cur} {k : Ctl} {blk : Block} {cap : Bool} {b d : Opnd} {l : List (Nat × At)}

/-! ### ST -/

/-- A store of a lane away is posted to its owner. -/
theorem State.writing_storeLane {u : State} (hregion : c.wave.inRegion = false) (hcore : c.core = coreOf c.bid) (hplain : u.Plain blk.ctx)
    (xfer : Bool) (e : Opnd) (i va : Nat) (data : List Byte) (hint : BitVec 3) :
    u.Writing c.bid c.wid (u.storeLane c blk none xfer e i (.peer va) data hint) ∧
      (u.storeLane c blk none xfer e i (.peer va) data hint).Sent va .write := by
  have heq : u.storeLane c blk none xfer e i (.peer va) data hint =
      ((u.beforeWrite c.bid c.wid i blk).toHome c.core).post c.core c.bid c.wid i blk.ctx .write va data := by
    simp only [State.storeLane, hregion, Bool.false_eq_true, if_false, State.storeAt, hcore]
  have hbefore := (u.writing_beforeWrite c.bid c.wid i blk).trans (State.writing_toHome c.bid c.wid _ c.core)
  obtain ⟨hpost, hsent⟩ := State.writing_post (b := c.bid) (i := c.wid) (hbefore.plain hplain) c.core c.bid c.wid i .write va data
  rw [heq]
  exact ⟨hbefore.trans hpost, hsent⟩

/-- No later lane takes the bytes of the last one that names an address. -/
theorem overwritten_last {l1 l2 : List (Nat × At)} {i va : Nat} (hasc : (l1 ++ (i, At.peer va) :: l2).Pairwise fun x y => x.1 < y.1)
    (hlast : ∀ y ∈ l2, y.2 ≠ .peer va) : overwritten (l1 ++ (i, At.peer va) :: l2) i (.peer va) = false := by
  obtain ⟨-, -, hbefore⟩ := List.pairwise_append.mp hasc
  rw [overwritten, List.any_eq_false]
  rintro ⟨j, y⟩ hy htrue
  obtain ⟨hlater, hsame⟩ := Bool.and_eq_true_iff.mp htrue
  have hij : i < j := of_decide_eq_true hlater
  rcases List.mem_append.mp hy with hy | hy
  · have := hbefore _ hy _ List.mem_cons_self
    omega
  · rcases List.mem_cons.mp hy with heq | hy
    · obtain ⟨rfl, -⟩ := Prod.mk.inj heq
      exact Nat.lt_irrefl _ hij
    · cases y with
      | peer v =>
        rw [eq_of_beq hsame] at hy
        exact hlast _ hy rfl
      | spad off => cases hsame
      | home v leaf st => cases hsame

variable (hof : OfWave s c blk) (hregion : c.wave.inRegion = false) (hplain : s.Plain c.ctx) (haway : AllAway l)
include hof hregion hplain haway

/-- ST of places on other packages posts what its lanes leave to the owners (R266, R506). -/
theorem exec_st_away {size : StSize} (e : Opnd) (hla : k.la = 0) (htrap : s.paramTrap c (s.parts c k) 1 [d] = none)
    (hreach : Reaches s c blk (s.parts c k) cap capWrite b d (stBytes size) .write l) :
    ∃ t, exec (.st k size none cap false b d e) s = .next t ∧ Went t c c.active ∧ (s.dirty = [] → KeepsBytes s t) ∧
      ∀ l1 i va l2, l = l1 ++ (i, At.peer va) :: l2 → (∀ y ∈ l2, y.2 ≠ .peer va) → t.Sent va .write := by
  have hasc := lanes_ascend (Reaches.lanes hreach)
  obtain ⟨t, hcheck, hlocate⟩ := hreach
  have ⟨hc, _, hb⟩ := hof
  obtain ⟨hcore, hctx⟩ := OfWave.core_ctx hof
  have hover : ¬ s.overflows c t = true := by simp only [State.overflows, hregion, Bool.false_and, Bool.false_eq_true, not_false_eq_true]
  set f := fun (u : State) (x : Nat × At) => if overwritten l x.1 x.2 then u
    else u.storeLane c blk none false e x.1 x.2 (u.stData c size e x.1) k.hint
  have hexec : exec (.st k size none cap false b d e) s =
      .next ((l.foldl f s).complete ((l.foldl f s).recur c) k b d e {}) := by
    change execSt k size none cap false b d e s = _
    simp only [execSt, onBlk_eq hc hb htrap, hcheck, if_neg hover, hlocate, ite_self, State.releaseOpt]
    rfl
  have hf (x) (hx : x ∈ l) (u) (hu : s.Writing c.bid c.wid u) : u.Writing c.bid c.wid (f u x) := by
    obtain ⟨va, hva⟩ := haway x hx
    by_cases hskip : overwritten l x.1 x.2 = true
    · simp only [f, if_pos hskip, u.writing_refl]
    · simp only [f, if_neg hskip]
      rw [hva]
      exact (State.writing_storeLane hregion hcore (hctx ▸ hu.plain hplain) false e x.1 va _ k.hint).1
  obtain ⟨hwent, hkeeps, hout⟩ :=
    State.Writing.complete hof (State.writing_foldl (l := l) hf (s.writing_refl c.bid c.wid)) hla b d e
  refine ⟨_, hexec, hwent, hkeeps, fun l1 i va l2 hl hlast => ?_⟩
  have hmem : (i, At.peer va) ∈ l := hl ▸ List.mem_append_right _ List.mem_cons_self
  refine State.Sent.mono (State.sent_foldl hf hmem fun u hu => ?_) hout
  have hkept : ¬ overwritten l i (.peer va) = true := by
    subst hl
    rw [overwritten_last hasc hlast]
    exact Bool.false_ne_true
  simp only [f, if_neg hkept]
  exact (State.writing_storeLane hregion hcore (hctx ▸ hu.plain hplain) false e i va _ k.hint).2

/-! ### ATOM and RED -/

omit hplain in
/-- An ATOM or RED that is not a release meets the places of its lanes. -/
theorem atomStart_away {z : Nat} {sc : Scope} {t : List (Nat × Steer)} (hcheck : s.checkAccess c blk (s.parts c k) cap capAtomic b d z = .ok t)
    (hlocate : s.locateAll c.ctx .atomic t = .ok l)
    (hold : State → Cur → LaneSet → List (Nat × Steer) → List (Nat × Nat × XFault) → State)
    (away : State → Cur → LaneSet → List (Nat × Steer) → State)
    (go : State → Cur → Block → LaneSet → List (Nat × Steer) → List (Nat × At) → State) :
    atomStart s k z sc false cap b d hold away go = .next (go s c blk (s.parts c k) t l) := by
  have hwait := haway.any_eq_false (f := s.atomWaits) fun _ => rfl
  have hpoison := haway.any_eq_false (f := s.readsPoison c.core c.wave z) fun _ => rfl
  simp only [atomStart, onBlk_zero hof, hcheck, State.closing_eq hregion, hlocate, if_neg hwait, if_neg hpoison, ite_self,
    Bool.false_eq_true, if_false, State.releaseOpt]

omit hof hregion hplain in
theorem State.rmwAll_away (s : State) (b i : Nat) (sc : Scope) (z : Nat) (f : Nat → Nat → Option Nat) : s.rmwAll b i sc z f l = (s, []) := by
  induction l with
  | nil => rfl
  | cons x l ih =>
    obtain ⟨j, y⟩ := x
    obtain ⟨va, rfl⟩ := haway _ List.mem_cons_self
    exact ih fun y hy => haway y (List.mem_cons_of_mem _ hy)

/-- RED of places on other packages posts its lanes' operations to the owners (R266, R489). -/
theorem exec_red_away {op : ROp} {w64 signed : Bool} {sc : Scope} (e : Opnd) (hla : k.la = 0)
    (hreach : Reaches s c blk (s.parts c k) cap capAtomic b d (4 * regs64 w64) .atomic l) :
    ∃ t, exec (.red k op w64 signed sc false cap b d e) s = .next t ∧ Went t c c.active ∧ (s.dirty = [] → KeepsBytes s t) ∧
      ∀ x ∈ l, ∀ va, x.2 = .peer va → t.Sent va (.red op signed) := by
  set x := fun i : Nat => (s.rd c .int (regs64 w64) e i).toNat
  set f := fun (u : State) (y : Nat × Nat) => ((u.beforeWrite c.bid c.wid y.1 blk).toHome c.core).post c.core c.bid c.wid y.1 c.ctx
    (.red op signed) y.2 (bytesOf (4 * regs64 w64) (x y.1))
  have hexec : exec (.red k op w64 signed sc false cap b d e) s =
      .next (((peersOf l).foldl f s).complete (((peersOf l).foldl f s).recur c) k b d e {}) := by
    change execRed k op w64 signed sc false cap b d e s = _
    unfold execRed
    obtain ⟨t, hcheck, hlocate⟩ := hreach
    simp only [atomStart_away hof hregion haway hcheck hlocate, State.rmwAll_away haway, State.logIf, Bool.false_and, Bool.false_eq_true, if_false]
    rfl
  have hf (y : Nat × Nat) (u) (hu : s.Writing c.bid c.wid u) : u.Writing c.bid c.wid (f u y) ∧ (f u y).Sent y.2 (.red op signed) := by
    have hbefore := (u.writing_beforeWrite c.bid c.wid y.1 blk).trans (State.writing_toHome c.bid c.wid _ c.core)
    obtain ⟨hpost, hsent⟩ := State.writing_post (b := c.bid) (i := c.wid) ((hu.trans hbefore).plain hplain) c.core c.bid c.wid y.1
      (.red op signed) y.2 (bytesOf (4 * regs64 w64) (x y.1))
    exact ⟨hbefore.trans hpost, hsent⟩
  have hf' (y) (_ : y ∈ peersOf l) (u) (hu : s.Writing c.bid c.wid u) : u.Writing c.bid c.wid (f u y) := (hf y u hu).1
  obtain ⟨hwent, hkeeps, hout⟩ := State.Writing.complete hof (State.writing_foldl hf' (s.writing_refl c.bid c.wid)) hla b d e
  refine ⟨_, hexec, hwent, hkeeps, ?_⟩
  rintro ⟨i, y⟩ hx va rfl
  exact State.Sent.mono (State.sent_foldl hf' (mem_peersOf.mpr hx) fun u hu => (hf (i, va) u hu).2) hout

end Away

end Sys2Proof.Machine
end

section
/-! SUPPORT. O34: ATOM of lanes whose places are on other packages (R251, R399, R524). -/

namespace Sys2Proof.Machine

variable {s t : State} {c : Cur} {k : Ctl} {blk : Block} {cap : Bool} {b d : Opnd} {l : List (Nat × At)}

/-- After writes of its lanes an instruction stays pending and its requests are sent to the owners. -/
theorem State.Writing.ask (hof : OfWave s c blk) (h : s.Writing c.bid c.wid t) (hplain : s.Plain c.ctx) (k : Ctl) (b c' d : Opnd)
    (x : Pending) (reqs : List LaneReq) :
    let u := (t.openPend (t.recur c) k b c' d x).sendReqs c.bid c.wid c.ctx c.wave.pendNext reqs
    Went u c c.active ∧ Pends u c k x.waiting x.again.isSome ∧ (s.dirty = [] → KeepsBytes s u) ∧ ∀ r ∈ reqs, u.Sent r.va r.op := by
  obtain ⟨w, hrecur, hfences, hblock⟩ := h.recur hof
  have ⟨_, hagent, _⟩ := hof
  rw [hrecur, State.openPend_eq (c := { c with wave := w }) hagent]
  set o := Cur.opened { c with wave := w } k b c' d x
  have hplain' : (t.setWave c.bid c.wid o).Plain c.ctx := by
    rw [State.setWave_frame]
    exact h.plain hplain
  obtain ⟨hasks, hsent⟩ := State.asks_sendReqs hplain' c.bid c.wid c.wave.pendNext reqs
  have hwave := (hasks.wave c.bid c.wid).trans (State.wave_setWave hblock (Block.wave_setWave (wave_of_ofWave hof) w) o)
  exact ⟨went_of_onlyFences hfences (went_opened (c := { c with wave := w }) hwave),
    pends_of_onlyFences hfences (pends_opened (c := { c with wave := w }) hwave),
    fun hclean => keepsBytes_trans (h.clean hclean).2 (keepsBytes_trans (keepsBytes_setWave t _ _ _) hasks.keepsBytes), hsent⟩

/-- A captured lane of an ATOM holds its comparand. -/
theorem State.atomOf_cmp {w64 : Bool} {e f : Opnd} {t : List (Nat × Steer)} {i : Nat} (hi : i ∈ t.map (·.1)) :
    (atomOf (s.atomLanes c w64 e f t) i).cmp = (s.rd c .int (regs64 w64) f i).toNat := by
  obtain ⟨x, hx, rfl⟩ := List.mem_map.mp hi
  rw [atomOf]
  cases hfind : (s.atomLanes c w64 e f t).find? fun y => y.lane == x.1 with
  | none => exact absurd (beq_self_eq_true x.1) (List.find?_eq_none.mp hfind _ (List.mem_map_of_mem hx))
  | some y =>
    have hlane := List.find?_some hfind
    obtain ⟨z, -, rfl⟩ := List.mem_map.mp (List.mem_of_find?_eq_some hfind)
    rw [← eq_of_beq hlane]
    rfl

/-- The requests of an ATOM, one for each of its lanes. -/
theorem atomReqs_away {op : AOp} {w64 signed : Bool} {e f : Opnd} {t : List (Nat × Steer)} {p : LaneSet} (haway : AllAway l)
    (hl : l.map (·.1) = lanesOf p) (ht : t.map (·.1) = lanesOf p) :
    let reqs := atomReqs op w64 signed (s.atomLanes c w64 e f t) l
    reqs.map (·.lane) = lanesOf p ∧
      ∀ i va, (i, At.peer va) ∈ l → ∃ r ∈ reqs, r.va = va ∧ r.op = .atom op signed (s.rd c .int (regs64 w64) f i) := by
  refine ⟨?_, fun i va hi => ⟨_, List.mem_map_of_mem (mem_peersOf.mpr hi), rfl, ?_⟩⟩
  · simp only [atomReqs, List.map_map]
    exact (peersOf_lanes haway).trans hl
  · have hlane : i ∈ t.map (·.1) := by
      rw [ht, ← hl]
      exact List.mem_map_of_mem hi
    show PeerOp.atom op signed (BitVec.ofNat 64 (atomOf _ i).cmp) = _
    rw [State.atomOf_cmp hlane, BitVec.ofNat_toNat, BitVec.setWidth_eq]

/-- No lane of an ATOM is here. -/
theorem State.atomLanes_away {w64 : Bool} {e f : Opnd} {t : List (Nat × Steer)} {p : LaneSet} (ht : t.map (·.1) = lanesOf p) :
    ((s.atomLanes c w64 e f t).filter fun y => !p.getLsbD y.lane) = [] := by
  rw [List.filter_eq_nil_iff]
  intro y hy
  obtain ⟨x, hx, rfl⟩ := List.mem_map.mp hy
  have hlane : x.1 ∈ lanesOf p := ht ▸ List.mem_map_of_mem hx
  rw [((mem_lanesOf p x.1).mp hlane).2]
  decide

/-- ATOM of places on other packages asks their owners, and its lanes go on (R399, R524). -/
theorem exec_atom_away (hof : OfWave s c blk) (hregion : c.wave.inRegion = false) (hplain : s.Plain c.ctx) (haway : AllAway l)
    {op : AOp} {w64 signed : Bool} {sc : Scope} (a e f : Opnd) (hp : s.parts c k ≠ 0)
    (hreach : Reaches s c blk (s.parts c k) cap capAtomic b d (4 * regs64 w64) .atomic l) :
    ∃ t, exec (.atom k op w64 signed sc .relaxed cap a b d e f) s = .next t ∧ Went t c c.active ∧ Pends t c k (s.parts c k) false ∧
      (s.dirty = [] → KeepsBytes s t) ∧
      ∀ i va, (i, At.peer va) ∈ l → t.Sent va (.atom op signed (s.rd c .int (regs64 w64) f i)) := by
  have hlanes := Reaches.lanes hreach
  obtain ⟨t, hcheck, hlocate⟩ := hreach
  have ht := State.checkAccess_lanes hcheck
  obtain ⟨hreqs, hasked⟩ := atomReqs_away (s := s) (c := c) (op := op) (w64 := w64) (signed := signed) (e := e) (f := f) haway hlanes ht
  have hhere := State.atomLanes_away (s := s) (c := c) (w64 := w64) (e := e) (f := f) ht
  set m := s.atomLanes c w64 e f t with hm
  set reqs := atomReqs op w64 signed m l with hr
  have hsome : ¬ reqs.isEmpty = true := by
    intro hnil
    rw [List.isEmpty_iff.mp hnil] at hreqs
    exact lanesOf_ne_nil hp hreqs.symm
  set u := reqs.foldl (fun s y => s.beforeWrite c.bid c.wid y.lane blk) (s.toHome c.core)
  have hwriting : s.Writing c.bid c.wid u := (s.writing_toHome c.bid c.wid c.core).trans
    (State.writing_foldl (fun y _ u _ => u.writing_beforeWrite c.bid c.wid y.lane blk) (State.writing_refl _ _ _))
  have hexec : exec (.atom k op w64 signed sc .relaxed cap a b d e f) s = .next ((u.openPend (u.recur c) k b d e
      { Pending.fresh (s.parts c k) (s.parts c k) a (if w64 then .n64 else .n32) with
        acq := none, reqs, again := none }).sendReqs c.bid c.wid c.ctx c.wave.pendNext reqs) := by
    change execAtom k op w64 signed sc .relaxed cap a b d e f s = _
    have hrel : (Order.relaxed == Order.rel) = false := rfl
    rw [execAtom, hrel, atomStart_away hof hregion haway hcheck hlocate]
    refine congrArg Host.Outcome.next ((if_neg hsome).trans ?_)
    simp only [← hm, ← hr, reqLanes_of_lanes hreqs, hhere]
    rfl
  obtain ⟨hwent, hpends, hkeeps, hsent⟩ := hwriting.ask hof hplain k b d e
    { Pending.fresh (s.parts c k) (s.parts c k) a (if w64 then .n64 else .n32) with acq := none, reqs, again := none } reqs
  refine ⟨_, hexec, hwent, hpends, hkeeps, fun i va hi => ?_⟩
  obtain ⟨r, hr, rfl, hop⟩ := hasked i va hi
  rw [← hop]
  exact hsent r hr

end Sys2Proof.Machine
end

section
/-! SUPPORT. O34: loads whose translation faults: held at their slot as the first of a pair, else issued and held in their lanes
(R51, R233, R239, R520). -/

namespace Sys2Proof.Machine

/-! ### Faults enter their merge tables -/

theorem State.blocks_setMergeTable (s : State) (t : Nat) (l : List MergeEntry) : (s.setMergeTable t l).blocks = s.blocks := by
  unfold State.setMergeTable
  split <;> rfl

theorem State.blocks_emitOne (s : State) : s.emitOne.blocks = s.blocks := by
  unfold State.emitOne
  split
  · rfl
  · split
    · rfl
    · next r rest _ _ =>
      extract_lets tail pa s1 s2
      have hs1 : s1.blocks = s.blocks := by
        have h : s.OnlyStores s1 := s.onlyStores_homeWrite _ _
        rw [h]
      have hs2 : s2.blocks = s.blocks := by
        simp only [s2]
        split
        · exact hs1
        · exact (State.blocks_setMergeTable _ _ _).trans hs1
      rw [State.interrupt_frame]
      exact hs2

theorem State.blocks_enterFault (s : State) (r : FaultRec) (w : Option Waiter) : (s.enterFault r w).blocks = s.blocks := by
  unfold State.enterFault
  extract_lets g t l s1
  split
  · exact s.blocks_setMergeTable _ _
  · split
    · rfl
    · exact (State.blocks_emitOne _).trans (s.blocks_setMergeTable _ _)

theorem State.blocks_enterAll (s : State) (b i ctx access : Nat) (gs : List (Nat × XFault)) :
    (s.enterAll b i ctx access gs).blocks = s.blocks := by
  unfold State.enterAll
  induction gs generalizing s with
  | nil => rfl
  | cons g gs ih => exact (ih _).trans (s.blocks_enterFault _ _)

/-- Every granule that faulted has its entry (R520). -/
theorem firstPerGranule_covers {l : List (Nat × Nat × XFault)} {x : Nat × Nat × XFault} (hx : x ∈ l) :
    ∃ g ∈ firstPerGranule l, granuleOf g.1 = granuleOf x.2.1 := by
  induction l with
  | nil => cases hx
  | cons y l ih =>
    obtain ⟨j, va, f⟩ := y
    rw [firstPerGranule]
    rcases List.mem_cons.mp hx with rfl | hx
    · exact ⟨_, List.mem_cons_self, rfl⟩
    · obtain ⟨g, hg, hgranule⟩ := ih hx
      by_cases hsame : granuleOf g.1 = granuleOf va
      · exact ⟨_, List.mem_cons_self, hsame.symm.trans hgranule⟩
      · exact ⟨g, List.mem_cons_of_mem _ (List.mem_filter.mpr ⟨hg, bne_iff_ne.mpr hsame⟩), hgranule⟩

/-! ### The lanes that are held -/

section Held

variable {s : State} {c : Cur} {blk : Block} (hof : OfWave s c blk)
include hof

/-- The wave of an access that faulted, whatever its lanes become. -/
theorem State.wave_enterAll (access : Nat) (l : List (Nat × XFault)) (w : Wave) :
    ((s.enterAll c.bid c.wid c.ctx access l).setWave c.bid c.wid w).wave? c.bid c.wid = some w := by
  have ⟨_, _, hb⟩ := hof
  refine State.wave_setWave (blk := blk) ?_ (wave_of_ofWave hof) w
  rw [State.block?, State.blocks_enterAll]
  exact hb

/-- An access whose translation faults outside a region is held at its slot for each granule that faulted. -/
theorem faultLanes_holds (hregion : c.wave.inRegion = false) (access : Nat) (l : List (Nat × Nat × XFault)) :
    ∃ w, (s.faultLanes c access l).wave? c.bid c.wid = some w ∧ Went (s.faultLanes c access l) c 0 ∧
      ∀ x ∈ l, ∃ h ∈ w.held, h.granule = granuleOf x.2.1 ∧ h.lanes = c.active ∧ h.pend = none := by
  have ⟨_, hagent, _⟩ := hof
  have hlane (i : Nat) (hi : i < 32) : (c.wave.mapLanes fun i x => if c.active.getLsbD i then { x with paid := true } else x).lane i =
      { c.wave.lane i with paid := (c.wave.lane i).paid || c.active.getLsbD i } := by
    rw [Wave.lane_mapLanes _ _ _ hi]
    cases c.active.getLsbD i
    · rw [Bool.or_false]; rfl
    · rw [Bool.or_true]; rfl
  simp only [State.faultLanes, hregion, Bool.false_eq_true, if_false, State.putCur_wave hagent]
  set u := (c.wave.mapLanes fun i x => if c.active.getLsbD i then { x with paid := true } else x)
  have hwave := State.wave_enterAll hof access (firstPerGranule l)
  refine ⟨_, hwave _, ⟨_, hwave _, ?_, fun i hi => ?_⟩, fun x hx => ?_⟩
  · refine keepsRegs_of_lanes (fun i hi => ?_) rfl
    show (u.lane i).v = _ ∧ (u.lane i).tags = _
    rw [hlane i hi]
    exact ⟨rfl, rfl⟩
  · show (u.lane i).pc = _
    simp only [hlane i hi, BitVec.ofNat_eq_ofNat, BitVec.getLsbD_zero, Bool.false_eq_true, if_false]
  · obtain ⟨g, hg, hgranule⟩ := firstPerGranule_covers hx
    exact ⟨_, List.mem_append_right _ (List.mem_map_of_mem hg), hgranule, rfl, rfl⟩

/-- A long-latency access whose translation faults outside a region, alone in its turn, issues and is held in its lanes for each granule
that faulted. -/
theorem faultPend_holds (hregion : c.wave.inRegion = false) (halone : pairFollows c.bid c.wid s.agenda = false) (k : Ctl) (b c' d : Opnd)
    (access : Nat) (l : List (Nat × Nat × XFault)) (x : Pending) :
    let t := s.faultPend c k b c' d access l x
    ∃ w, t.wave? c.bid c.wid = some w ∧ Went t c c.active ∧ Pends t c k x.waiting x.again.isSome ∧
      ∀ y ∈ l, ∃ h ∈ w.held, h.granule = granuleOf y.2.1 ∧ h.lanes = x.lanes ∧ h.pend = some c.wave.pendNext := by
  have ⟨_, hagent, hb⟩ := hof
  have hblock : (s.enterAll c.bid c.wid c.ctx access (firstPerGranule l)).block? c.bid = some blk := by
    rw [State.block?, State.blocks_enterAll]
    exact hb
  simp only [State.faultPend, hregion, halone, Bool.or_self, Bool.false_eq_true, if_false, State.openPend_eq hagent,
    State.onWave_setWave hblock (wave_of_ofWave hof)]
  have hwave := State.wave_enterAll hof access (firstPerGranule l)
  refine ⟨_, hwave _, went_opened (hwave _), pends_opened (hwave _), fun y hy => ?_⟩
  obtain ⟨g, hg, hgranule⟩ := firstPerGranule_covers hy
  exact ⟨_, List.mem_append_right _ (List.mem_map_of_mem hg), hgranule, rfl, rfl⟩

/-- A load whose translation faults (R239). -/
theorem exec_ld_held {k : Ctl} {size : LdSize} {cap : Bool} {a b d : Opnd} (hregion : c.wave.inRegion = false)
    (htrap : s.paramTrap c (s.parts c k) 1 [d] = none) {t : List (Nat × Steer)} {l : List (Nat × Nat × XFault)}
    (hcheck : s.checkAccess c blk (s.parts c k) cap capRead b d (ldBytes size) = .ok t) (hlocate : s.locateAll c.ctx .read t = .held l) :
    ∃ t w, exec (.ld k size none cap false a b d) s = .next t ∧ t.wave? c.bid c.wid = some w ∧
      (pairFollows c.bid c.wid s.agenda = false → Went t c c.active ∧ Pends t c k 0 true ∧
        ∀ x ∈ l, ∃ h ∈ w.held, h.granule = granuleOf x.2.1 ∧ h.lanes = s.parts c k ∧ h.pend = some c.wave.pendNext) ∧
      (pairFollows c.bid c.wid s.agenda = true → Went t c 0 ∧
        ∀ x ∈ l, ∃ h ∈ w.held, h.granule = granuleOf x.2.1 ∧ h.lanes = c.active ∧ h.pend = none) := by
  have ⟨hc, _, hb⟩ := hof
  have hexec : exec (.ld k size none cap false a b d) s = .next (s.faultPend c k b d .zero 0 l { Pending.fresh (s.parts c k) 0 a size with
      flags := s.paramFlags c (s.parts c k) 1 [d], acq := none
      again := some (.load none false (decide (k.hint = 4) || (none : Option Scope) == some .sys) t) }) := by
    change execLd k size none cap false a b d s = _
    simp only [execLd, onBlk_eq hc hb htrap, hcheck, hlocate]
  set x : Pending := { Pending.fresh (s.parts c k) 0 a size with
    flags := s.paramFlags c (s.parts c k) 1 [d], acq := none
    again := some (.load none false (decide (k.hint = 4) || (none : Option Scope) == some .sys) t) }
  cases hpair : pairFollows c.bid c.wid s.agenda with
  | false =>
    obtain ⟨w, hw, hwent, hpends, hheld⟩ := faultPend_holds hof hregion hpair k b d .zero 0 l x
    exact ⟨_, w, hexec, hw, fun _ => ⟨hwent, hpends, hheld⟩, nofun⟩
  | true =>
    obtain ⟨w, hw, hwent, hheld⟩ := faultLanes_holds hof hregion 0 l
    have hfault : s.faultPend c k b d .zero 0 l x = s.faultLanes c 0 l := by
      rw [State.faultPend, hpair, Bool.or_true, if_pos rfl]
    exact ⟨_, w, hexec.trans (congrArg Host.Outcome.next hfault), hw, nofun, fun _ => ⟨hwent, hheld⟩⟩

end Held

/-- Settles O34: each access away posts to, or asks, the owners of its places; a load that faults is held for its granules. -/
theorem peersAndFaults : Obligations.PeersAndFaults := by
  unfold Obligations.PeersAndFaults
  intro s c k blk size ssize op rop w64 signed cap sc a b d e f hof hregion htrap hplain p n peers sent
  refine ⟨?_, ?_, ?_, ?_, ?_⟩
  · exact fun l ⟨hreach, haway⟩ hcopies hp => exec_ld_away hof hregion hplain haway a htrap hp hreach hcopies
  · exact fun hla l ⟨hreach, haway⟩ => exec_st_away hof hregion hplain haway e hla htrap hreach
  · exact fun l ⟨hreach, haway⟩ hp => exec_atom_away hof hregion hplain haway a e f hp hreach
  · exact fun hla l ⟨hreach, haway⟩ => exec_red_away hof hregion hplain haway e hla hreach
  · exact fun l ⟨t, hcheck, hlocate⟩ => exec_ld_held hof hregion htrap hcheck hlocate

end Sys2Proof.Machine
end

section
/-! SUPPORT. O32: the steps of a chain whose reads are all at home in this package (R357 to R361). -/

namespace Sys2Proof.Machine

/-! ### The descriptor (R358) -/

theorem signExtend_extractLsb' (d : FetchLine) (lo : Nat) :
    (d.extractLsb' lo 32).signExtend 64 = (BitVec.ofNat 32 (d.toNat / 2 ^ lo % 2 ^ 32)).signExtend 64 := by
  congr 1
  refine BitVec.eq_of_toNat_eq ?_
  rw [BitVec.extractLsb'_toNat, Nat.shiftRight_eq_div_pow, BitVec.toNat_ofNat, Nat.mod_mod]

theorem chLoop_eq_false {d : FetchLine} (h : d.toNat / 2 ^ 7 % 2 ^ 1 = 0) : chLoop d = false := by
  rw [chLoop, ← BitVec.testBit_toNat, Nat.testBit_eq_decide_div_mod_eq]
  exact decide_eq_false (by omega)

theorem chSteps_lt {d : FetchLine} (h : chBad d = false) : chSteps d < 7 := by
  have hlt : chSteps d < 8 := Nat.mod_lt _ (by decide)
  have hne : chSteps d ≠ 7 := by
    intro h7
    rw [chBad, h7] at h
    simp at h
  omega

/-! ### What a chain does next (R360) -/

theorem setWidth_57_eq_zero {p : Dword} : p.setWidth 57 = 0 ↔ p.toNat % 2 ^ 57 = 0 := by
  rw [← BitVec.toNat_inj, BitVec.toNat_setWidth]
  rfl

/-- The address that a chain reads at a step, and the one of its last read. -/
def hopAt (d : FetchLine) (p : Dword) (j : Nat) : Nat := (p + chOff d j).toNat / 8 * 8 % 2 ^ 57
def lastAt (d : FetchLine) (p : Dword) : Nat := (p + chFoff d).toNat / chFinal d * chFinal d % 2 ^ 57

section Moves

variable {d : FetchLine} {p : Dword} {j : Nat}

theorem chainMove_null (h : p.toNat % 2 ^ 57 = 0) : chainMove d p j false = .stop (.null j) := by
  rw [chainMove, if_neg Bool.false_ne_true, if_pos (setWidth_57_eq_zero.mpr h)]

variable (hloop : chLoop d = false) (h : p.toNat % 2 ^ 57 ≠ 0)
include hloop h

theorem chainMove_hop (hj : j < chSteps d) : chainMove d p j false = .read (hopAt d p j) := by
  rw [chainMove, if_neg Bool.false_ne_true, if_neg (setWidth_57_eq_zero.not.mpr h), if_neg hj.ne, chEntry, hloop,
    if_neg Bool.false_ne_true]
  rfl

theorem chainMove_last : chainMove d p (chSteps d) false = .last (lastAt d p) (chFinal d) := by
  rw [chainMove, if_neg Bool.false_ne_true, if_neg (setWidth_57_eq_zero.not.mpr h), if_pos rfl, hloop, if_neg Bool.false_ne_true]
  rfl

end Moves

theorem chainNext_eq {k : ChainPkt} (hloop : chLoop k.desc = false) (hfinal : k.final = false) {w j : Nat} {p p' : Dword}
    (hp : p'.toNat = w % 2 ^ (64 - chHc k.desc j) / 2 ^ chLc k.desc j * 2 ^ chLc k.desc j) :
    chainNext { k with p, step := j } w = { k with p := p', step := j + 1 } := by
  simp only [chainNext, chainAfter, chEntry, hloop, Bool.false_and, Bool.false_eq_true, if_false, ← hp, BitVec.ofNat_toNat,
    BitVec.setWidth_eq, hfinal]

/-! ### Reads at home (R361) -/

/-- An address of a context lies in this package, is mapped, and its home answers with a line that is not poisoned. -/
def State.Reads (s : State) (ctx va : Nat) (x : Leaf) : Prop :=
  s.isLocal va = true ∧ s.translate ctx va .read = .ok x ∧ s.accessWaits x.sa = false ∧ s.isPoisoned x.sa = false

/-- A step of a chain leads from a pointer to the next. -/
def State.Hop (s : State) (ctx : Nat) (d : FetchLine) (p p' : Dword) (j : Nat) (x : Leaf) : Prop :=
  p.toNat % 2 ^ 57 ≠ 0 ∧ s.Reads ctx (hopAt d p j) x ∧
    p'.toNat = s.homeNat x.sa 8 % 2 ^ (64 - chHc d j) / 2 ^ chLc d j * 2 ^ chLc d j

section Run

variable {u : State} {k : ChainPkt} {ctx : Nat} {x : Leaf} (hctx : u.chainCtx k = some ctx) (hclean : u.dirty = [])
include hctx hclean

theorem State.chainRead_home {va z : Nat} (h : u.Reads ctx va x) (go : State → Nat → State) :
    u.chainRead k va z go = go u (u.homeNat x.sa z) := by
  obtain ⟨-, htrans, hwait, hpoison⟩ := h
  have hsync : u.chainSync k x.sa z = u := by
    simp only [State.chainSync, State.flushBytes, hclean, List.any_nil, Bool.false_eq_true, if_false, ite_self]
  simp only [State.chainRead, hctx, htrans, hwait, hsync, hpoison, Bool.false_eq_true, if_false]

theorem State.chainRun_hop {va : Nat} (hmove : chainMove k.desc k.p k.step k.final = .read va) (h : u.Reads ctx va x) (m : Nat) :
    State.chainRun (m + 1) u k = State.chainRun m u (chainNext k (u.homeNat x.sa 8)) := by
  rw [State.chainRun, hmove]
  exact (if_pos h.1).trans (State.chainRead_home hctx hclean h _)

theorem State.chainRun_last {va z : Nat} (hmove : chainMove k.desc k.p k.step k.final = .last va z) (h : u.Reads ctx va x) (m : Nat) :
    State.chainRun (m + 1) u k = u.chainAnswer k (.complete (BitVec.ofNat 128 (u.homeNat x.sa z)) k.step) := by
  rw [State.chainRun, hmove]
  exact (if_pos h.1).trans (State.chainRead_home hctx hclean h _)

/-- A chain that hops at home from step to step ends with the word that its last pointer leads to. -/
theorem State.chainRun_hops {ptr : Nat → Dword} {leaf : Nat → Leaf} (hloop : chLoop k.desc = false) (hfinal : k.final = false)
    (hhops : ∀ j < chSteps k.desc, u.Hop ctx k.desc (ptr j) (ptr (j + 1)) j (leaf j)) (hend : (ptr (chSteps k.desc)).toNat % 2 ^ 57 ≠ 0)
    (hlast : u.Reads ctx (lastAt k.desc (ptr (chSteps k.desc))) (leaf (chSteps k.desc))) (r m j : Nat) (hj : j + m = chSteps k.desc) :
    ∃ p, State.chainRun (m + 1 + r) u { k with p := ptr j, step := j } = u.chainAnswer { k with p, step := chSteps k.desc }
      (.complete (BitVec.ofNat 128 (u.homeNat (leaf (chSteps k.desc)).sa (chFinal k.desc))) (chSteps k.desc)) := by
  induction m generalizing j with
  | zero =>
    obtain rfl : j = chSteps k.desc := hj
    rw [Nat.zero_add, Nat.add_comm]
    refine ⟨_, State.chainRun_last (k := { k with p := ptr (chSteps k.desc), step := chSteps k.desc }) hctx hclean ?_ hlast r⟩
    rw [hfinal]
    exact chainMove_last hloop hend
  | succ m ih =>
    have hlt : j < chSteps k.desc := by omega
    obtain ⟨hp, hreads, hnext⟩ := hhops j hlt
    obtain ⟨p, hrest⟩ := ih (j + 1) (by omega)
    have hmove : chainMove k.desc (ptr j) j k.final = .read (hopAt k.desc (ptr j) j) := by
      rw [hfinal]
      exact chainMove_hop hloop hp hlt
    refine ⟨p, ?_⟩
    rw [Nat.add_right_comm (m + 1) 1 r, State.chainRun_hop (k := { k with p := ptr j, step := j }) hctx hclean hmove hreads,
      chainNext_eq hloop hfinal hnext]
    exact hrest

end Run

end Sys2Proof.Machine
end

section
/-! SUPPORT. O32: a chain whose tracker is the only one of its core, from its start to the registers that its end writes (R357, R359,
R360, R362, R522). -/

namespace Sys2Proof.Machine

/-! ### The result at the requester -/

theorem State.block_onBlocks (s : State) (f : Nat → Block → Block) (b : Nat) : (s.onBlocks f).block? b = (s.block? b).map (f b) :=
  tfind_map f s.blocks b

/-- A lane that waits for a tracker tries again. -/
def Lane.retried (l : Lane) : Lane := if l.onReply then { l with st := .live } else l

theorem Lane.retried_eq (l : Lane) : l.retried = { l with st := l.retried.st } := by
  rw [Lane.retried]
  split <;> rfl

/-- Waking the lanes that wait for trackers moves no lane and changes no register. -/
theorem State.wave_wakeTrackerWaiters {s : State} {b i : Nat} {w : Wave} (h : s.wave? b i = some w) (core : Nat) :
    ∃ u, (s.wakeTrackerWaiters core).wave? b i = some u ∧ u.w = w.w ∧ ∀ j < 32, ∃ st, u.lane j = { w.lane j with st := st } := by
  obtain ⟨blk, hb, hw⟩ := Option.bind_eq_some_iff.mp h
  by_cases hcore : coreOf b = core
  · have hblock : (s.wakeTrackerWaiters core).block? b =
        some { blk with waves := blk.waves.map fun w => w.mapLanes fun _ l => l.retried } := by
      rw [State.wakeTrackerWaiters, State.block_onBlocks, hb]
      exact congrArg some (if_pos hcore)
    refine ⟨w.mapLanes fun _ l => l.retried, ?_, rfl, fun j hj => ⟨(w.lane j).retried.st, ?_⟩⟩
    · rw [State.wave?, hblock, Option.bind_some, Block.wave?, List.getElem?_map]
      exact congrArg (Option.map _) hw
    · rw [Wave.lane_mapLanes _ _ _ hj]
      exact Lane.retried_eq _
  · have hblock : (s.wakeTrackerWaiters core).block? b = some blk := by
      rw [State.wakeTrackerWaiters, State.block_onBlocks, hb]
      exact congrArg some (if_neg hcore)
    refine ⟨w, ?_, rfl, fun j _ => ⟨_, rfl⟩⟩
    rw [State.wave?, hblock]
    exact hw

theorem State.wave_dropTrackers {s : State} {b i : Nat} {w : Wave} (h : s.wave? b i = some w) (id : Nat) (lanes : LaneSet) :
    ∃ u, (s.dropTrackers b i id lanes).wave? b i = some u ∧ u.w = w.w ∧ ∀ j < 32, ∃ st, u.lane j = { w.lane j with st := st } := by
  unfold State.dropTrackers
  extract_lets c mine
  split
  · exact State.wave_wakeTrackerWaiters (by exact h) _
  · exact ⟨w, h, rfl, fun j _ => ⟨_, rfl⟩⟩

/-- An instruction that nothing outstanding holds, and that has written its result already, leaves its wave. -/
theorem State.wave_finishPend {s : State} {b i : Nat} {w : Wave} {p : Pending} (h : s.wave? b i = some w) (hpend : w.pend = [p])
    (hready : p.ready = true) (hwrites : p.writes = []) (htagged : p.tagged = []) (hacq : p.acq = none) :
    ∃ u, (s.finishPend b i p.id).wave? b i = some u ∧ u.w = w.w ∧ u.lanes = w.lanes := by
  obtain ⟨blk, hb, hw⟩ := Option.bind_eq_some_iff.mp h
  have hfind : w.pending? p.id = some p := by
    rw [Wave.pending?, hpend]
    exact List.find?_cons_of_pos (beq_self_eq_true p.id)
  simp only [State.finishPend, h, hfind, hready, if_true, Wave.land, hwrites, htagged, hacq, State.acquire]
  exact ⟨_, State.wave_setWave hb hw _, rfl, rfl⟩

/-- A wave with the end of a chain in its registers and in %chain. -/
def Wave.chainEnd (w : Wave) (dst : Opnd) (t : Tracker) (e : ChainEnd) : Wave :=
  let u := w.putAll (writesOf dst (chFinal t.desc / 4) (laneSet [t.lane]) fun _ => chainValue t.desc e)
  u.setLane t.lane { u.lane t.lane with chain := chainStatus e }

section ChainEnd

variable (w : Wave) (dst : Opnd) {t : Tracker} (hlane : t.lane < 32) (e : ChainEnd)

theorem Wave.chainEnd_pend (t : Tracker) : (w.chainEnd dst t e).pend = w.pend := by
  have h : w.SameRest (w.putAll (writesOf dst (chFinal t.desc / 4) (laneSet [t.lane]) fun _ => chainValue t.desc e)) :=
    w.putAll_sameRest _
  rw [Wave.chainEnd, Wave.setLane_pend, h]

include hlane

theorem Wave.chainEnd_lane {j : Nat} (hj : j < 32) :
    let u := w.putAll (writesOf dst (chFinal t.desc / 4) (laneSet [t.lane]) fun _ => chainValue t.desc e)
    (w.chainEnd dst t e).lane j = { u.lane j with chain := if j = t.lane then chainStatus e else (w.lane j).chain } := by
  have hrest := Wave.rest_putAll w (writesOf dst (chFinal t.desc / 4) (laneSet [t.lane]) fun _ => chainValue t.desc e) j hj
  have hchain := congrArg (·.2.2.2.1) hrest
  simp only [Lane.rest] at hchain
  rw [Wave.chainEnd, Wave.lane_setLane _ _ _ _ hlane, ← hchain]
  split
  · next h => rw [h]
  · rfl

theorem Wave.chainEnd_pc {j : Nat} (hj : j < 32) : ((w.chainEnd dst t e).lane j).pc = (w.lane j).pc := by
  rw [Wave.chainEnd_lane w dst hlane e hj]
  exact congrArg (·.1) (Wave.rest_putAll w _ j hj)

theorem Wave.wrote_chainEnd : Wrote w (w.chainEnd dst t e) dst (chFinal t.desc / 4) (laneSet [t.lane]) (fun _ => chainValue t.desc e) noTag := by
  refine wrote_of_lanes (wrote_writesOf w dst (chFinal t.desc / 4) (laneSet [t.lane]) fun _ => chainValue t.desc e) (fun j hj => ?_) ?_
  · rw [Wave.chainEnd_lane w dst hlane e hj]
    exact ⟨rfl, rfl⟩
  · rw [Wave.chainEnd, Wave.setLane_w]

end ChainEnd

/-- What a wave is left with when the only chain of its only pending instruction has ended. -/
structure ChainDone (w u : Wave) (dst : Opnd) (t : Tracker) (e : ChainEnd) : Prop where
  wrote : Wrote w u dst (chFinal t.desc / 4) (laneSet [t.lane]) (fun _ => chainValue t.desc e) noTag
  chain : (u.lane t.lane).chain = chainStatus e
  pc : ∀ j < 32, (u.lane j).pc = (w.lane j).pc

theorem State.chainsDone_own {v : State} {t : Tracker} {e : ChainEnd} {w : Wave} {p : Pending} {l : Landing}
    (htrackers : (v.core (coreOf t.blk)).trackers = [t]) (hresult : t.result = some e) (he : e ≠ .poisoned) (hlane : t.lane < 32)
    (hwave : v.wave? t.blk t.wave = some w) (hpend : w.pend = [p]) (hid : p.id = t.pend) (hlanding : p.landing = some l)
    (hagain : p.again = none) (hwrites : p.writes = []) (htagged : p.tagged = []) (hacq : p.acq = none) :
    ∃ u, (v.chainsDone t.blk t.wave t.pend).wave? t.blk t.wave = some u ∧ ChainDone w u l.dst t e := by
  obtain ⟨blk, hb, hw⟩ := Option.bind_eq_some_iff.mp hwave
  set x := w.chainEnd l.dst t e with hx
  have hfind : w.pending? t.pend = some p := by
    rw [Wave.pending?, hpend, ← hid]
    exact List.find?_cons_of_pos (beq_self_eq_true p.id)
  set y := x.onPend t.pend fun p => { p with waiting := 0 } with hy
  have hypend : y.pend = [{ p with waiting := 0 }] := by
    rw [hy, Wave.onPend, hx, Wave.chainEnd_pend, hpend]
    simp only [List.map_cons, List.map_nil, hid, beq_self_eq_true, if_true]
  have hdone : v.chainsDone t.blk t.wave t.pend =
      ((v.setWave t.blk t.wave y).finishPend t.blk t.wave t.pend).dropTrackers t.blk t.wave t.pend allLanes := by
    have hnone : ¬ (some e == some ChainEnd.poisoned) = true := by simpa using he
    simp only [State.chainsDone, htrackers, List.filter_cons, List.filter_nil, beq_self_eq_true, Bool.and_self, if_true, List.any_cons,
      List.any_nil, Bool.or_false, if_neg hnone, hresult, Option.isNone_some, Bool.false_eq_true, if_false, List.foldl_cons,
      List.foldl_nil, State.onWave_eq hwave, hfind, Option.bind_some, hlanding, Option.getD_some]
    rfl
  obtain ⟨z, hz, hzw, hzlanes⟩ := State.wave_finishPend (p := { p with waiting := 0 }) (State.wave_setWave hb hw y) hypend
    (by simp only [Pending.ready, hagain, Option.isNone_none, beq_self_eq_true, Bool.and_self]) hwrites htagged hacq
  rw [show ({ p with waiting := 0 } : Pending).id = t.pend from hid] at hz
  obtain ⟨u, hu, huw, hulane⟩ := State.wave_dropTrackers hz t.pend allLanes
  have hlanes (j : Nat) (hj : j < 32) : ∃ st, u.lane j = { x.lane j with st := st } := by
    obtain ⟨st, hst⟩ := hulane j hj
    refine ⟨st, hst.trans ?_⟩
    rw [Wave.lane, hzlanes]
    rfl
  refine ⟨u, by rw [hdone]; exact hu, ?_, ?_, fun j hj => ?_⟩
  · refine wrote_of_lanes (Wave.wrote_chainEnd w l.dst hlane e) (fun j hj => ?_) (huw.trans hzw)
    obtain ⟨st, hst⟩ := hlanes j hj
    rw [hst]
    exact ⟨rfl, rfl⟩
  · obtain ⟨st, hst⟩ := hlanes t.lane hlane
    rw [hst, hx, Wave.chainEnd_lane w l.dst hlane e hlane]
    exact if_pos rfl
  · obtain ⟨st, hst⟩ := hlanes j hj
    rw [hst]
    exact Wave.chainEnd_pc w l.dst hlane e hj

end Sys2Proof.Machine
end

section
/-! SUPPORT. O32: the beginning of a chain that is its core's only one, and the checks of LDCHAIN in a single lane (R204, R359, R360,
R452). -/

namespace Sys2Proof.Machine

/-! ### The only chain of a core -/

/-- A tracker is the only one of its core, and its instruction the only one of its wave that is pending. -/
structure State.OnlyChain (v : State) (t : Tracker) (w : Wave) (p : Pending) (l : Landing) : Prop where
  trackers : (v.core (coreOf t.blk)).trackers = [t]
  result : t.result = none
  block : t.id / 32 / 2 ^ 32 / 32 = t.blk
  lane : t.lane < 32
  wave : v.wave? t.blk t.wave = some w
  pend : w.pend = [p]
  id : p.id = t.pend
  landing : p.landing = some l
  again : p.again = none
  writes : p.writes = []
  tagged : p.tagged = []
  acq : p.acq = none

/-- The end of the only chain is written into its wave. -/
theorem State.OnlyChain.ended {v : State} {t : Tracker} {w : Wave} {p : Pending} {l : Landing} (h : v.OnlyChain t w p l) (remote : Bool)
    {e : ChainEnd} (hpoison : e ≠ .poisoned) (hfault : ∀ g, e ≠ .faultPending g) :
    ∃ u, (v.chainEnded t.id t.attempt remote e).wave? t.blk t.wave = some u ∧ ChainDone w u l.dst t e := by
  set v' := v.setCore (coreOf t.blk) { v.core (coreOf t.blk) with trackers := [{ t with result := some e }] } with hv'
  have hended : v.chainEnded t.id t.attempt remote e = v'.chainsDone t.blk t.wave t.pend := by
    have hfind : [t].find? (fun x => x.id == t.id && x.attempt == t.attempt && x.result.isNone) = some t :=
      List.find?_cons_of_pos (by rw [beq_self_eq_true, beq_self_eq_true, h.result]; rfl)
    simp only [State.chainEnded, h.block, h.trackers, hfind, List.map_cons, List.map_nil, if_true]
    cases e with
    | faultPending g => exact absurd rfl (hfault g)
    | complete q st => rfl
    | null st => rfl
    | limit q st => rfl
    | fault a st => rfl
    | poisoned => exact absurd rfl hpoison
  have htrackers : (v'.core (coreOf t.blk)).trackers = [{ t with result := some e }] := by
    rw [hv', State.core_setCore, if_pos rfl]
  obtain ⟨u, hu, hdone⟩ := State.chainsDone_own (t := { t with result := some e }) htrackers rfl hpoison h.lane h.wave h.pend h.id
    h.landing h.again h.writes h.tagged h.acq
  exact ⟨u, hended ▸ hu, hdone.wrote, hdone.chain, hdone.pc⟩

/-! ### Beginning a chain -/

/-- The packet with which a tracker's chain begins. -/
def State.firstPkt (v : State) (blk : Block) (t : Tracker) : ChainPkt :=
  { id := t.id, attempt := t.attempt, srcPkg := v.pkgNo, job := (v.ctx blk.ctx).fabric.setWidth 16, nf := t.nf, desc := t.desc
    p := t.start, step := 0, final := false }

theorem State.chainAnswer_own {v : State} {k : ChainPkt} (h : k.srcPkg = v.pkgNo) (e : ChainEnd) :
    v.chainAnswer k e = v.chainEnded k.id k.attempt false e := if_pos h

section Begin

variable {v : State} {t : Tracker} {blk : Block} (hb : v.block? t.blk = some blk)
include hb

/-- A chain that starts at null ends there (R360). -/
theorem State.chainBegin_null (h : t.start.toNat % 2 ^ 57 = 0) : v.chainBegin t = v.chainEnded t.id t.attempt false (.null 0) := by
  have hmove := chainMove_null (d := t.desc) (j := 0) h
  have hbegin : v.chainBegin t = State.chainRun 8 v (v.firstPkt blk t) := by
    simp only [State.chainBegin, hb, hmove]
    rfl
  have hrun : State.chainRun 8 v (v.firstPkt blk t) = v.chainAnswer (v.firstPkt blk t) (.null 0) := by
    have hmove' : chainMove (v.firstPkt blk t).desc (v.firstPkt blk t).p (v.firstPkt blk t).step (v.firstPkt blk t).final =
      .stop (.null 0) := hmove
    rw [State.chainRun, hmove']
  rw [hbegin, hrun]
  exact State.chainAnswer_own (k := v.firstPkt blk t) rfl _

/-- A chain that hops at home, its first read not steered elsewhere, ends with the word that its last pointer leads to. -/
theorem State.chainBegin_hops (hid : t.id / 32 / 2 ^ 32 / 32 = t.blk) (hclean : v.dirty = []) (hloop : chLoop t.desc = false)
    (hsteps : 0 < chSteps t.desc) (hfew : chSteps t.desc < 7) {va : Nat}
    (hsteer : v.steer blk t.wave t.lane (hopAt t.desc t.start 0) 8 = .global va) {ptr : Nat → Dword} {leaf : Nat → Leaf}
    (hptr : ptr 0 = t.start) (hhops : ∀ j < chSteps t.desc, v.Hop blk.ctx t.desc (ptr j) (ptr (j + 1)) j (leaf j))
    (hend : (ptr (chSteps t.desc)).toNat % 2 ^ 57 ≠ 0)
    (hlast : v.Reads blk.ctx (lastAt t.desc (ptr (chSteps t.desc))) (leaf (chSteps t.desc))) :
    v.chainBegin t = v.chainEnded t.id t.attempt false
      (.complete (BitVec.ofNat 128 (v.homeNat (leaf (chSteps t.desc)).sa (chFinal t.desc))) (chSteps t.desc)) := by
  have hstart : t.start.toNat % 2 ^ 57 ≠ 0 := hptr ▸ (hhops 0 hsteps).1
  have hmove := chainMove_hop hloop hstart hsteps
  have hbegin : v.chainBegin t = State.chainRun 8 v (v.firstPkt blk t) := by
    simp only [State.chainBegin, hb, hmove, hsteer]
    rfl
  have hctx : v.chainCtx (v.firstPkt blk t) = some blk.ctx := by
    have hown : (v.firstPkt blk t).srcPkg = v.pkgNo := rfl
    have hblk : (v.firstPkt blk t).id / 32 / 2 ^ 32 / 32 = t.blk := hid
    rw [State.chainCtx, if_pos hown, hblk, hb]
    rfl
  obtain ⟨p, hrun⟩ := State.chainRun_hops (k := v.firstPkt blk t) hctx hclean hloop rfl hhops hend hlast (7 - chSteps t.desc)
    (chSteps t.desc) 0 (Nat.zero_add _)
  have hcount : chSteps t.desc + 1 + (7 - chSteps t.desc) = 8 := by omega
  have hfirst : ({ v.firstPkt blk t with p := ptr 0, step := 0 } : ChainPkt) = v.firstPkt blk t := by
    rw [hptr]
    rfl
  rw [hcount, hfirst] at hrun
  rw [hbegin, hrun]
  exact State.chainAnswer_own (k := { v.firstPkt blk t with p, step := chSteps t.desc }) rfl _

end Begin

/-! ### The checks of LDCHAIN in one lane (R359) -/

section Checks

variable {c : Cur} {blk : Block} {a : Opnd} {x : ChainLane}

theorem chainCheck_single (b : Opnd) (halign : x.off % 64 = 0) (hfits : x.off + 64 ≤ blk.spadSize) (hdesc : chBad x.desc = false)
    (hfirst : x.p % 2 ^ 57 = 0 ∨ x.first.inside = true)
    (hdst : ∀ m, a = .lane m → m.toNat % (chFinal x.desc / 4) = 0 ∧ m.toNat + chFinal x.desc / 4 ≤ blk.regs) :
    chainCheck c blk false a b [x] = none := by
  have hplace : (x.p % 2 ^ 57 != 0 && !x.first.inside) = false := by
    rcases hfirst with h | h
    · rw [h]; rfl
    · rw [h, Bool.not_true, Bool.and_false]
  simp only [chainCheck, List.any_cons, List.any_nil, Bool.or_false, halign, bne_self_eq_false, Bool.false_eq_true, if_false,
    decide_eq_true_eq, Nat.not_lt.mpr hfits, hdesc, hplace]
  cases a with
  | lane n =>
    obtain ⟨hmod, hle⟩ := hdst n rfl
    have hgood : ¬ (n.toNat % (chFinal x.desc / 4) != 0 || decide (blk.regs < n.toNat + chFinal x.desc / 4)) = true := by
      rw [hmod, bne_self_eq_false, Bool.false_or, decide_eq_true_eq]
      exact Nat.not_lt.mpr hle
    exact if_neg hgood
  | _ => rfl

theorem State.chainFaults_single {s : State} {ctx : Nat} (nf : Bool) (h : x.p % 2 ^ 57 = 0 ∨ ∃ y, s.atOf ctx .read x.first = .ok y) :
    s.chainFaults ctx nf [x] = [] := by
  rw [State.chainFaults]
  split
  · rfl
  · rw [List.filterMap_cons, List.filterMap_nil]
    rcases h with h | ⟨y, hy⟩
    · rw [if_pos h]
    · rw [hy, ite_self]

end Checks

end Sys2Proof.Machine
end

section
/-! SUPPORT. O32: LDCHAIN of one lane of a wave with nothing pending, on a core with no tracker (R357 to R361, R452). -/

namespace Sys2Proof.Machine

/-! ### Addresses -/

/-- An address outside the apertures is steered nowhere else (R204). -/
theorem State.steer_global {s : State} {blk : Block} {a : Int} {va : Nat} (hva : (a % 2 ^ 57).toNat = va)
    (hspad : va / 2 ^ 30 ≠ (s.ctx blk.ctx).aper.toNat % 2 ^ 27) (hstack : va / 2 ^ 30 ≠ (s.ctx blk.ctx).aper.toNat / 2 ^ 34 % 2 ^ 27)
    (wave lane z : Nat) : s.steer blk wave lane a z = .global va := by
  have hlow : bits (s.ctx blk.ctx).aper.toNat 0 27 = (s.ctx blk.ctx).aper.toNat % 2 ^ 27 := by
    rw [bits_eq, pow_zero, Nat.div_one]
  simp only [State.steer, hva, hlow, bits_eq, if_neg hspad, if_neg hstack]

theorem chOff_eq (d : FetchLine) (j : Nat) :
    chOff d j = (BitVec.ofNat 32 (d.toNat / 2 ^ (128 + 64 * j) % 2 ^ 32)).signExtend 64 := signExtend_extractLsb' d _

theorem chFoff_eq (d : FetchLine) : chFoff d = (BitVec.ofNat 32 (d.toNat / 2 ^ 64 % 2 ^ 32)).signExtend 64 := signExtend_extractLsb' d _

theorem hopAt_lt (d : FetchLine) (p : Dword) (j : Nat) : hopAt d p j < 2 ^ 57 := Nat.mod_lt _ (by decide)

/-- Aligning an address with an offset as integers is doing so as words. -/
theorem align8_toInt (p off : Dword) : (((p.toNat : Int) + off.toInt) / 8 * 8 % 2 ^ 57).toNat = (p + off).toNat / 8 * 8 % 2 ^ 57 := by
  have hp := p.isLt
  have ho := off.isLt
  rw [BitVec.toInt_eq_toNat_cond, BitVec.toNat_add]
  split <;> omega

section Lane

variable (s : State) (c : Cur) (blk : Block) (b d e : Opnd) (i : Nat)

/-- The address at which a lane's chain starts. -/
def State.chainStartAt : Dword := s.rd64 c b i + (s.rd32 c d i).signExtend 64

theorem State.chainLane_p : (s.chainLane c blk false b d e i).p = ((s.chainStartAt c b d i).toNat : Int) := State.addr_eq s c false b d i

theorem State.chainLane_null : (s.chainLane c blk false b d e i).p % 2 ^ 57 = 0 ↔ (s.chainStartAt c b d i).toNat % 2 ^ 57 = 0 := by
  rw [State.chainLane_p]
  omega

/-- The first read of a lane's chain, where it is steered nowhere else. -/
theorem State.chainLane_first {va : Nat} (hva : hopAt (s.chainLane c blk false b d e i).desc (s.chainStartAt c b d i) 0 = va)
    (hspad : va / 2 ^ 30 ≠ (s.ctx blk.ctx).aper.toNat % 2 ^ 27) (hstack : va / 2 ^ 30 ≠ (s.ctx blk.ctx).aper.toNat / 2 ^ 34 % 2 ^ 27) :
    (s.chainLane c blk false b d e i).first = .global va := by
  refine State.steer_global ?_ hspad hstack c.wid i 8
  have hp : s.addr c false b d i = ((s.chainStartAt c b d i).toNat : Int) := State.addr_eq s c false b d i
  rw [hp, align8_toInt]
  exact hva

end Lane

/-! ### The tracker of a lane -/

/-- The tracker with which an instruction starts the chain of a lane. -/
def Cur.tracker (c : Cur) (nf : Bool) (x : ChainLane) (deadline : Dword) : Tracker :=
  { id := replyTag c.bid c.wid c.wave.pendNext x.lane, attempt := 0, timeouts := 0, blk := c.bid, wave := c.wid, lane := x.lane
    pend := c.wave.pendNext, nf, desc := x.desc, start := BitVec.ofInt 64 x.p, deadline, result := none }

theorem replyTag_block {b i id lane : Nat} (hlane : lane < 32) (hid : id < 2 ^ 32) (hi : i < 32) :
    replyTag b i id lane / 32 / 2 ^ 32 / 32 = b := by
  rw [replyTag]
  omega

/-- A chain that its instruction awaits begins with its reply timer set. -/
theorem State.chainStart_awaited {s : State} {t : Tracker} (hawaits : s.awaits t = true) (htrackers : (s.core (coreOf t.blk)).trackers = [t]) :
    ∃ (v : State) (deadline : Dword), s.chainStart t = v.chainBegin { t with deadline } ∧ v = { s with cores := v.cores, inbox := v.inbox } ∧
      (v.core (coreOf t.blk)).trackers = [{ t with deadline }] := by
  have hkept : ¬ (!s.awaits t) = true := by rw [hawaits]; decide
  refine ⟨_, _, if_neg hkept, rfl, ?_⟩
  show (((s.setCore (coreOf t.blk) _)).core (coreOf t.blk)).trackers = _
  rw [State.core_setCore, if_pos rfl, htrackers, List.filter_cons_of_neg (by simp), List.filter_nil, List.nil_append]

section Issue

variable {s : State} {c : Cur} {k : Ctl} {blk : Block} {i : Nat} (hof : OfWave s c blk)
  (hparts : s.parts c k = BitVec.ofNat 32 (2 ^ i)) (hi : i < 32)

/-- What stays pending of an LDCHAIN. -/
def chainPend (p : LaneSet) (a : Opnd) : Pending := { Pending.fresh p p a .n64 with isChain := true }

include hof hparts hi

theorem exec_ldchain_single {nf : Bool} {a b d e : Opnd} (hcore : (s.core c.core).trackers = [])
    (hcheck : chainCheck c blk false a b [s.chainLane c blk false b d e i] = none)
    (hfaults : s.chainFaults c.ctx nf [s.chainLane c blk false b d e i] = []) :
    exec (.ldchain k nf false a b d e) s = .next ((s.openPend c k b d e (chainPend (s.parts c k) a)).startChains c.bid c.wid
      c.wave.pendNext nf [s.chainLane c blk false b d e i]) := by
  have hlanes : lanesOf (s.parts c k) = [i] := by rw [hparts, lanesOf_single hi]
  have hsome : s.parts c k ≠ 0 := by
    intro h
    rw [h, (lanesOf_eq_nil 0).mpr rfl] at hlanes
    cases hlanes
  have hroom : s.trackersFor c.core 1 = true := by
    rw [State.trackersFor, hcore]
    rfl
  change execLdchain k nf false a b d e s = _
  simp only [execLdchain, onBlk_zero hof, hlanes, List.map_cons, List.map_nil, hcheck, hfaults, List.isEmpty_nil, if_true, if_neg hsome,
    List.length_cons, List.length_nil, Nat.zero_add, hroom]
  rfl

theorem ldchain_begins {nf : Bool} {a b d e : Opnd} (hwid : c.wid < 32) (hnext : c.wave.pendNext < 2 ^ 32) (hpend : c.wave.pend = [])
    (hcore : (s.core c.core).trackers = []) (hsame : c.core = coreOf c.bid)
    (hcheck : chainCheck c blk false a b [s.chainLane c blk false b d e i] = none)
    (hfaults : s.chainFaults c.ctx nf [s.chainLane c blk false b d e i] = []) :
    ∃ (v : State) (deadline : Dword) (p : Pending), exec (.ldchain k nf false a b d e) s = .next (v.chainBegin (c.tracker nf (s.chainLane c blk false b d e i) deadline)) ∧
      v = { s with blocks := v.blocks, cores := v.cores, inbox := v.inbox } ∧
      (∃ w, v.block? c.bid = some (blk.setWave c.wid w)) ∧
      v.OnlyChain (c.tracker nf (s.chainLane c blk false b d e i) deadline) (c.opened k b d e (chainPend (s.parts c k) a)) p ⟨a, .n64⟩ := by
  have ⟨_, hagent, hb⟩ := hof
  set x := s.chainLane c blk false b d e i
  set w := c.opened k b d e (chainPend (s.parts c k) a) with hw
  set u := s.setWave c.bid c.wid w with hu
  have hucore : (u.core (coreOf c.bid)).trackers = [] := by
    rw [hu, State.setWave_frame]
    exact hsame ▸ hcore
  set u' := u.setCore (coreOf c.bid) { u.core (coreOf c.bid) with trackers := [c.tracker nf x 0] } with hu'
  have hwave : u'.wave? c.bid c.wid = some w := State.wave_setWave hb (wave_of_ofWave hof) w
  obtain ⟨p, hwpend, hpid, hwaiting, hlanding, hagain, hwrites, htagged, hacq⟩ : ∃ p, w.pend = [p] ∧ p.id = c.wave.pendNext ∧
      p.waiting = s.parts c k ∧ p.landing = some ⟨a, .n64⟩ ∧ p.again = none ∧ p.writes = [] ∧ p.tagged = [] ∧ p.acq = none := by
    have hnil : (c.wave.countIssue c.active).pend = [] := by simp only [Wave.countIssue, hpend, List.map_nil]
    exact ⟨_, congrArg (fun l => l ++ [_]) hnil, rfl, rfl, rfl, rfl, rfl, rfl, rfl⟩
  have hawaits : u'.awaits (c.tracker nf x 0) = true := by
    have hfind : w.pending? c.wave.pendNext = some p := by
      rw [Wave.pending?, hwpend, ← hpid]
      exact List.find?_cons_of_pos (beq_self_eq_true p.id)
    have hlane : p.waiting.getLsbD i = true := by
      rw [hwaiting, hparts, ← laneSet_single hi, getLsbD_laneSet]
      simp [hi]
    show (((u'.wave? c.bid c.wid).bind fun w => w.pending? c.wave.pendNext).any fun p => p.waiting.getLsbD i) = true
    rw [hwave, Option.bind_some, hfind]
    exact hlane
  have htrackers : (u'.core (coreOf c.bid)).trackers = [c.tracker nf x 0] := by
    rw [hu', State.core_setCore, if_pos rfl]
  obtain ⟨v, deadline, hbegin, hframe, hvtrackers⟩ := State.chainStart_awaited hawaits htrackers
  have hstart : (s.openPend c k b d e (chainPend (s.parts c k) a)).startChains c.bid c.wid c.wave.pendNext nf [x] =
      v.chainBegin (c.tracker nf x deadline) := by
    rw [State.openPend_eq hagent, ← hu]
    simp only [State.startChains, hucore, List.nil_append, List.map_cons, List.map_nil, List.foldl_cons, List.foldl_nil]
    exact hbegin
  have hblocks : v.blocks = u.blocks := by rw [hframe]; rfl
  refine ⟨v, deadline, p, (exec_ldchain_single hof hparts hi hcore hcheck hfaults).trans (congrArg _ hstart), ?_, ⟨w, ?_⟩, ?_⟩
  · rw [hframe, hu', hu, State.setWave_frame]
    rfl
  · rw [State.block?, hblocks]
    exact State.block_setWave hb c.wid w
  · refine ⟨hvtrackers, rfl, replyTag_block hi hnext hwid, hi, ?_, hwpend, hpid, hlanding, hagain, hwrites, htagged, hacq⟩
    rw [State.wave?, State.block?, hblocks]
    exact hwave

end Issue

end Sys2Proof.Machine
end

section
/-! SUPPORT. O32: LDCHAIN of one lane gives its last word, its outcome and the number of its steps (R360, R452). -/

namespace Sys2Proof.Machine

/-- A lane of an instruction ends a chain: the value is in its destination, the outcome in %chain, and the lane has moved on. -/
def EndsChain (t : State) (s : State) (c : Cur) (k : Ctl) (a : Opnd) (i n : Nat) (v : Quad) (status : Word) : Prop :=
  ∃ w, t.wave? c.bid c.wid = some w ∧ Wrote c.wave w a n (s.parts c k) (fun _ => v) noTag ∧ (w.lane i).chain = status ∧
    (w.lane i).pc = succPc (c.wave.lane i).pc

theorem State.chainLane_start (s : State) (c : Cur) (blk : Block) (b d e : Opnd) (i : Nat) :
    BitVec.ofInt 64 (s.chainLane c blk false b d e i).p = s.chainStartAt c b d i := by
  rw [State.chainLane_p, BitVec.ofInt_natCast, BitVec.ofNat_toNat, BitVec.setWidth_eq]

section Ends

variable {s v : State} {c : Cur} {k : Ctl} {blk : Block} {a b d e : Opnd} {i : Nat} {nf : Bool} {deadline : Dword}
  (hparts : s.parts c k = BitVec.ofNat 32 (2 ^ i)) (hi : i < 32)
include hparts hi

theorem active_of_parts : c.active.getLsbD i = true := by
  have hset : (s.parts c k).getLsbD i = true := by
    rw [hparts, ← laneSet_single hi, getLsbD_laneSet]
    simp [hi]
  exact ((getLsbD_lanesWhere_and c.active _ i).mp hset).1

/-- The end of the chain of the lane that issued it. -/
theorem State.OnlyChain.endsChain {x : ChainLane} {y p : Pending} {size : LdSize} (hx : x.lane = i)
    (h : v.OnlyChain (c.tracker nf x deadline) (c.opened k b d e y) p ⟨a, size⟩) {ev : ChainEnd} (hpoison : ev ≠ .poisoned)
    (hfault : ∀ g, ev ≠ .faultPending g) :
    EndsChain (v.chainEnded (c.tracker nf x deadline).id 0 false ev) s c k a i (chFinal x.desc / 4) (chainValue x.desc ev)
      (chainStatus ev) := by
  subst hx
  obtain ⟨w, hw, hwrote, hchain, hpc⟩ := h.ended false hpoison hfault
  refine ⟨w, hw, ?_, hchain, ?_⟩
  · have hset : laneSet [x.lane] = s.parts c k := (laneSet_single hi).trans hparts.symm
    refine hset ▸ wrote_congr hwrote (fun j hj => ?_) (c.onward_w k b d e c.active)
    obtain ⟨hv, htags, -⟩ := c.onward_lane k b d e c.active hj
    exact ⟨hv, htags⟩
  · obtain ⟨-, -, -, hmoved⟩ := c.onward_lane k b d e c.active hi
    exact ((hpc x.lane hi).trans hmoved).trans (if_pos (active_of_parts hparts hi))

end Ends

/-! ### Memory while a chain runs -/

theorem State.walkTo_congr {s v : State} (hmem : ∀ sa, v.homeNat sa 8 = s.homeNat sa 8) (hpoison : ∀ sa, v.isPoisoned sa = s.isPoisoned sa)
    (va : Nat) (need : Perm) (level table : Nat) : v.walkTo va need level table = s.walkTo va need level table := by
  induction level generalizing table with
  | zero => rw [State.walkTo_zero, State.walkTo_zero, hmem, hpoison]
  | succ level ih => rw [State.walkTo_succ, State.walkTo_succ, hmem, hpoison, funext ih]

section Frame

variable {s v : State} (hframe : v = { s with blocks := v.blocks, cores := v.cores, inbox := v.inbox })
include hframe

theorem State.homeNat_of_frame (sa n : Nat) : v.homeNat sa n = s.homeNat sa n := by
  rw [hframe]
  rfl

theorem State.isPoisoned_of_frame (sa : Nat) : v.isPoisoned sa = s.isPoisoned sa := by
  rw [hframe]
  rfl

theorem State.translate_of_frame (ctx va : Nat) (need : Perm) : v.translate ctx va need = s.translate ctx va need := by
  have hctx : v.ctx ctx = s.ctx ctx := by
    rw [hframe]
    rfl
  simp only [State.translate, State.walk, hctx,
    State.walkTo_congr (fun sa => State.homeNat_of_frame hframe sa 8) (State.isPoisoned_of_frame hframe)]

theorem State.Reads.of_frame {ctx va : Nat} {x : Leaf} (h : s.Reads ctx va x) : v.Reads ctx va x := by
  obtain ⟨hlocal, htranslate, hwait, hpoison⟩ := h
  refine ⟨?_, (State.translate_of_frame hframe ctx va .read).trans htranslate, ?_, (State.isPoisoned_of_frame hframe x.sa).trans hpoison⟩
  · rw [hframe]
    exact hlocal
  · rw [hframe]
    exact hwait

theorem State.Hop.of_frame {ctx j : Nat} {d : FetchLine} {p p' : Dword} {x : Leaf} (h : s.Hop ctx d p p' j x) : v.Hop ctx d p p' j x := by
  obtain ⟨hp, hreads, hnext⟩ := h
  exact ⟨hp, hreads.of_frame hframe, hnext.trans (by rw [State.homeNat_of_frame hframe])⟩

theorem State.steer_of_frame (blk : Block) (wave lane : Nat) (a : Int) (z : Nat) : v.steer blk wave lane a z = s.steer blk wave lane a z := by
  rw [hframe]
  rfl

end Frame

/-! ### LDCHAIN -/

section Single

variable {s : State} {c : Cur} {k : Ctl} {blk : Block} {a b d e : Opnd} {i : Nat} {x : ChainLane} (nf : Bool) (hof : OfWave s c blk)
  (hparts : s.parts c k = BitVec.ofNat 32 (2 ^ i)) (hi : i < 32) (hwid : c.wid < 32) (hnext : c.wave.pendNext < 2 ^ 32)
  (hpend : c.wave.pend = []) (hcore : (s.core c.core).trackers = []) (hx : s.chainLane c blk false b d e i = x)
  (halign : x.off % 64 = 0) (hfits : x.off + 64 ≤ blk.spadSize) (hbad : chBad x.desc = false)
  (hdst : ∀ m, a = .lane m → m.toNat % (chFinal x.desc / 4) = 0 ∧ m.toNat + chFinal x.desc / 4 ≤ blk.regs)
include hof hparts hi hwid hnext hpend hcore hx halign hfits hbad hdst

/-- A chain that starts at null (R360). -/
theorem exec_ldchain_null (hnull : (s.chainStartAt c b d i).toNat % 2 ^ 57 = 0) :
    ∃ t, exec (.ldchain k nf false a b d e) s = .next t ∧ EndsChain t s c k a i (chFinal x.desc / 4) 0 (BitVec.ofNat 32 (1 * 2 ^ 28)) := by
  have hzero : x.p % 2 ^ 57 = 0 := hx ▸ (State.chainLane_null s c blk b d e i).mpr hnull
  have hcheck := chainCheck_single (c := c) b halign hfits hbad (Or.inl hzero) hdst
  have hfaults := State.chainFaults_single (s := s) (ctx := c.ctx) nf (Or.inl hzero)
  subst hx
  obtain ⟨v, deadline, p, hexec, -, ⟨w, hblock⟩, honly⟩ :=
    ldchain_begins hof hparts hi hwid hnext hpend hcore (OfWave.core_ctx hof).1 hcheck hfaults
  have hbegin := State.chainBegin_null (t := c.tracker nf _ deadline) hblock
    ((congrArg (fun p : Dword => p.toNat % 2 ^ 57) (s.chainLane_start c blk b d e i)).trans hnull)
  exact ⟨_, hexec, hbegin ▸ honly.endsChain hparts hi rfl nofun nofun⟩

/-- A chain whose reads are all at home in this package (R360, R361). -/
theorem exec_ldchain_hops (hclean : s.dirty = []) (hloop : chLoop x.desc = false) (hsteps : chSteps x.desc ≠ 0)
    {ptr : Nat → Dword} {leaf : Nat → Leaf} (hptr : ptr 0 = s.chainStartAt c b d i)
    (hhops : ∀ j < chSteps x.desc, s.Hop blk.ctx x.desc (ptr j) (ptr (j + 1)) j (leaf j))
    (hend : (ptr (chSteps x.desc)).toNat % 2 ^ 57 ≠ 0)
    (hlast : s.Reads blk.ctx (lastAt x.desc (ptr (chSteps x.desc))) (leaf (chSteps x.desc)))
    (hspad : hopAt x.desc (ptr 0) 0 / 2 ^ 30 ≠ (s.ctx blk.ctx).aper.toNat % 2 ^ 27)
    (hstack : hopAt x.desc (ptr 0) 0 / 2 ^ 30 ≠ (s.ctx blk.ctx).aper.toNat / 2 ^ 34 % 2 ^ 27) :
    ∃ t, exec (.ldchain k nf false a b d e) s = .next t ∧ EndsChain t s c k a i (chFinal x.desc / 4)
      (BitVec.ofNat 128 (s.homeNat (leaf (chSteps x.desc)).sa (chFinal x.desc))) (BitVec.ofNat 32 (chSteps x.desc * 2 ^ 25)) := by
  obtain ⟨hcoreOf, hctx⟩ := OfWave.core_ctx hof
  obtain ⟨-, ⟨hlocal, htranslate, -, -⟩, -⟩ := hhops 0 (Nat.pos_of_ne_zero hsteps)
  have hfirst : x.first = .global (hopAt x.desc (ptr 0) 0) := by
    subst hx
    exact State.chainLane_first s c blk b d e i (by rw [hptr]) hspad hstack
  have hplace : s.atOf c.ctx .read x.first = .ok (.home (hopAt x.desc (ptr 0) 0) (leaf 0) false) := by
    rw [hfirst, State.atOf, if_pos hlocal, hctx, htranslate]
  have hcheck := chainCheck_single (c := c) b halign hfits hbad (Or.inr (by rw [hfirst]; rfl)) hdst
  have hfaults := State.chainFaults_single (s := s) (ctx := c.ctx) nf (Or.inr ⟨_, hplace⟩)
  subst hx
  obtain ⟨v, deadline, p, hexec, hframe, ⟨w, hblock⟩, honly⟩ :=
    ldchain_begins hof hparts hi hwid hnext hpend hcore hcoreOf hcheck hfaults
  set x := s.chainLane c blk false b d e i
  have hstart : (c.tracker nf x deadline).start = ptr 0 := (s.chainLane_start c blk b d e i).trans hptr.symm
  have hsteer : v.steer (blk.setWave c.wid w) c.wid i (hopAt x.desc (c.tracker nf x deadline).start 0) 8 =
      .global (hopAt x.desc (ptr 0) 0) := by
    rw [State.steer_of_frame hframe, hstart]
    refine State.steer_global (blk := blk.setWave c.wid w) ?_ hspad hstack _ _ _
    have hlt := hopAt_lt x.desc (ptr 0) 0
    omega
  have hbegin := State.chainBegin_hops (t := c.tracker nf x deadline) hblock honly.block (by rw [hframe]; exact hclean) hloop
    (Nat.pos_of_ne_zero hsteps) (chSteps_lt hbad) hsteer hstart.symm (fun j hj => (hhops j hj).of_frame hframe) hend
    (hlast.of_frame hframe)
  rw [State.homeNat_of_frame hframe] at hbegin
  exact ⟨_, hexec, hbegin ▸ honly.endsChain hparts hi rfl nofun nofun⟩

end Single

theorem chSteps_ne_zero {d : FetchLine} (h : chBad d = false) : chSteps d ≠ 0 := by
  intro h0
  rw [chBad, h0] at h
  simp at h

/-- Settles O32: the lane's chain is the only one of its core, and runs to its end as it starts. -/
theorem chainedLoads : Obligations.ChainedLoads := by
  unfold Obligations.ChainedLoads
  intro s c k blk nf a b d e i desc hof hparts hi hwid hnext hpend hcore hclean _ off field n z halign hfits hdesc hbad hloop hdst sext start
    ends
  have hx : (s.chainLane c blk false b d e i).desc = desc := hdesc.symm
  have hbad' : chBad (s.chainLane c blk false b d e i).desc = false := hx ▸ hbad
  have hdst' : ∀ m, a = .lane m → m.toNat % (chFinal (s.chainLane c blk false b d e i).desc / 4) = 0 ∧
      m.toNat + chFinal (s.chainLane c blk false b d e i).desc / 4 ≤ blk.regs := by
    rw [hx]
    exact hdst
  constructor
  · intro hnull
    obtain ⟨t, hexec, w, hends⟩ := exec_ldchain_null nf hof hparts hi hwid hnext hpend hcore rfl halign hfits hbad' hdst' hnull
    rw [hx] at hends
    exact ⟨t, w, hexec, hends⟩
  · intro ptr leaf hptr at' last reads hhops hend hlast haper
    have hat (j : Nat) : at' j = hopAt desc (ptr j) j := by
      rw [hopAt, chOff_eq]
    have hlastAt : last = lastAt desc (ptr n) := by
      rw [lastAt, chFoff_eq]
      rfl
    obtain ⟨hspad, hstack⟩ := haper
    rw [hat 0] at hspad hstack
    rw [hlastAt] at hlast
    have hhops' : ∀ j < chSteps desc, s.Hop blk.ctx desc (ptr j) (ptr (j + 1)) j (leaf j) := by
      intro j hj
      obtain ⟨hp, hreads, hnextPtr⟩ := hhops j hj
      exact ⟨hp, hat j ▸ hreads, hnextPtr⟩
    obtain ⟨t, hexec, w, hends⟩ := exec_ldchain_hops nf hof hparts hi hwid hnext hpend hcore rfl halign hfits hbad' hdst' hclean
      (hx ▸ chLoop_eq_false hloop) (chSteps_ne_zero hbad') hptr (hx ▸ hhops') (hx ▸ hend) (hx ▸ hlast) (hx ▸ hspad) (hx ▸ hstack)
    rw [hx] at hends
    exact ⟨t, w, hexec, hends⟩

end Sys2Proof.Machine
end
